-- ==== Sys2Proof/Word.lean ====
section
/-! DEFINITION. The words of the Tamaskane G9 (R2, R3) and the maps that sparse state is held in. -/

namespace Sys2Proof

/-- A byte of memory. -/
abbrev Byte := BitVec 8
/-- A 32-bit register element. -/
abbrev Word := BitVec 32
/-- A 64-bit scalar, pair or memory word. -/
abbrev DWord := BitVec 64
/-- A significance tag (R23): 0 to 53 counts, 63 untagged. -/
abbrev Tag := BitVec 6
/-- A mask of the 32 lanes of a team. -/
abbrev Mask := BitVec 32
/-- An instruction word (R64). -/
abbrev IWord := BitVec 96

/-- Sparse data by key: keys strictly rising, no entry equal to what an unlisted key reads as. -/
abbrev NMap (α : Type) := List (Nat × α)

end Sys2Proof
end

