-- ==== Sys2Proof/Syntax.lean ====
section
/-! DEFINITION. The instructions of the G9 and the events of its units: one constructor for each row of
spec/opcode_table.json. An instruction carries the fields of its format (R72 to R77); an event carries the data that
comes with it from outside (R95 file: each step is whole and indivisible). -/

namespace Sys2Proof

/-- Operation width (R105). -/
inductive Width where
  | w32 | w64
  deriving DecidableEq, Repr, Inhabited

/-- An operand, by class and number (R66): lane register or pair, scalar, predicate, lpc, constant, and
`x` for class 0b11, a tile or a buffer record as the instruction's row says. -/
inductive Opd where
  | v (n : BitVec 8)
  | s (n : BitVec 6)
  | p (n : BitVec 3)
  | lpc
  | c (n : BitVec 5)
  | x (n : BitVec 6)
  deriving DecidableEq, Repr, Inhabited

/-- A source: operand, empty mode E (R68) and modifier M (R69). -/
structure Src where
  o : Opd
  e : Bool
  m : Bool
  deriving DecidableEq, Repr, Inhabited

/-- Guard and hints (R65, R70, R71). `fin` is the END bit. -/
structure Head where
  gn : Bool
  gp : BitVec 3
  fin : Bool
  rgn : Bool
  yld : Bool
  deriving DecidableEq, Repr, Inhabited

/-- The RND field (R46): from the slot, or one of the four modes. -/
inductive Rnd where
  | slot | rne | rtz | rup | rdn
  deriving DecidableEq, Repr, Inhabited

/-- The XL field (R73). -/
inductive Xl where
  | none | bc | up | dn | xr
  deriving DecidableEq, Repr, Inhabited

/-- Scope of an ordering guarantee (R9, R75). -/
inductive Scope where
  | team | core | cluster | die | device | system
  deriving DecidableEq, Repr, Inhabited

/-- The ORD field (R75). -/
inductive Ord where
  | weak | rlx | acq | rel
  deriving DecidableEq, Repr, Inhabited

/-- The SIZE field (R75). -/
inductive Size where
  | b8 | b16 | b32 | b64
  deriving DecidableEq, Repr, Inhabited

/-- Comparison conditions (R81). -/
inductive Cond where
  | eq | ne | lt | le | gt | ge | un | or
  deriving DecidableEq, Repr, Inhabited

/-- FP32 or FP64, the `f` field of FCMP and FCLASS (R81), and of XRED and XRD (R85). -/
inductive FW where
  | f32 | f64
  deriving DecidableEq, Repr, Inhabited

/-- Packed half formats (R142). -/
inductive Half where
  | fp16 | bf16
  deriving DecidableEq, Repr, Inhabited

/-- CVT type codes (R81). -/
inductive CvtT where
  | fp64 | fp32 | fp16 | bf16 | s32 | u32 | s64 | u64
  deriving DecidableEq, Repr, Inhabited

/-- Register format (R72). -/
structure RG where
  h : Head
  d : Opd
  a : Src
  b : Src
  c : Src
  slot : BitVec 3
  rnd : Rnd
  xl : Xl
  lane : BitVec 6
  sub : BitVec 8
  deriving DecidableEq, Repr, Inhabited

/-- Immediate format (R74); field B is zero and is not held. -/
structure IM where
  h : Head
  d : Opd
  a : Src
  md : BitVec 6
  imm : BitVec 32
  deriving DecidableEq, Repr, Inhabited

/-- Memory format (R75). -/
structure MM where
  h : Head
  d : Opd
  a : Src
  b : Src
  brec : BitVec 4
  scope : Scope
  ord : Ord
  size : Size
  slot : BitVec 3
  cache : BitVec 2
  ofs : BitVec 21
  deriving DecidableEq, Repr, Inhabited

/-- Engine format (R76). -/
structure EN where
  h : Head
  d : Opd
  a : Src
  b : Src
  scope : Scope
  acq : Bool
  rel : Bool
  slot : BitVec 3
  chan : BitVec 6
  imm : BitVec 20
  deriving DecidableEq, Repr, Inhabited

/-- Branch format (R77); fields A and B are zero (R114) and are not held. -/
structure BR where
  h : Head
  d : Opd
  ofs : BitVec 38
  deriving DecidableEq, Repr, Inhabited

/-! ### Data that events bring from outside -/

/-- What firmware gives a context at creation; `fw` marks one whose queues firmware itself fills (R88,
R30, R275, R335, R359, R368, R378, R394, R456). -/
structure CtxParams where
  world : Bool
  fw : Bool
  root : Nat
  tickLife : Option Nat
  wdLog2 : Option Nat
  joinLog2 : Option Nat
  ringLog2 : Nat
  ringBase : Nat
  ringTail : Nat
  ringHead : Nat
  ackBase : Nat
  ackTail : Nat
  queues : List (Nat × Nat × Nat × Nat)   -- ring base, log2 SIZE, tail word, head word
  slotLo : Nat
  slotN : Nat
  saveBase : Nat                          -- the save area (R384)
  deriving DecidableEq, Repr, Inhabited

/-- The parameters of one rank's first message (R274). -/
structure CollParams where
  rank : Nat
  op : Nat
  fmt : Nat
  n : Nat
  root : Nat
  cm1 : Nat
  deriving DecidableEq, Repr, Inhabited

/-- Where a byte, line or access lives: the address spaces of R193 and the targets of R359 and R437. -/
inductive Loc where
  | hbm (pa : Nat)
  | scratch (core byte : Nat)
  | weight (w : Nat)
  | remote (chip key addr : Nat)
  deriving DecidableEq, Repr, Inhabited

/-- An access that a peer or the host makes at this device (R438 to R441, R444). -/
inductive PeerAcc where
  | store (bytes : List (BitVec 8))
  | load (n : Nat)
  | atom (fn : BitVec 6) (size : Size) (b cmp : BitVec 64)
  | exact (f : FW) (x : BitVec 64) (tag : BitVec 6)
  | append (token payload : BitVec 32)
  deriving DecidableEq, Repr, Inhabited

/-- Addressing of a peer access: a physical address, or an address of context `rctx` (R438, R440, R444). `own` is an access of the
endpoint's own processor to its own memory, `between` the read and the write of a read-modify-write of this device or not (R443). -/
inductive PeerMode where
  | direct | leased (rctx : Nat) | multicast (rctx : Nat) | own (between : Option Nat)
  deriving DecidableEq, Repr, Inhabited

/-- Access to a compute die over the debug port, and the request that unlocks it (R461). -/
inductive DebugAcc where
  | boundaryScan
  | read (core byte : Nat)
  | write (core byte : Nat) (x : BitVec 8)
  | readReg (core slot : Nat) (reg lane : Nat)
  | unlock (secure on : Bool)
  deriving DecidableEq, Repr, Inhabited

/-- A signed firmware image (R453, R454): its bytes, the public key and the signature. -/
structure Signed where
  bytes : List (BitVec 8)
  key : List (BitVec 8)
  sig : List (BitVec 8)
  deriving DecidableEq, Repr, Inhabited

/-- A staged firmware image with its version (R454, R461). -/
structure Image where
  version : Nat
  file : Signed
  deriving DecidableEq, Repr, Inhabited

/-- The parts of a transfer that are performed now (R214, R216): number of the request, entry or channel, and the parts; none stands for what
is left. -/
structure Parts where
  id : Nat
  which : List Nat
  deriving DecidableEq, Repr, Inhabited

/-- An entry of a communicator table: the table's address and the communicator's number (R273). -/
structure CommAt where
  tab : Nat
  comm : Nat
  deriving DecidableEq, Repr, Inhabited

/-- What a start event brings (R451, R452, R461): a start request over the sideband, a reset request, or the end of the start's next step, with
the dump region that firmware reserves. -/
inductive StartEv where
  | request
  | reset
  | done (ok : Bool) (region : Nat)
  deriving DecidableEq, Repr, Inhabited

/-- What a host reads over the sideband (R433, R460, R461). -/
inductive SideRead where
  | dump (offset : Nat)
  | region
  | device
  | powerCap
  | temperature (die : Nat)
  | power
  deriving DecidableEq, Repr, Inhabited

/-- Firmware's setting of Gait (R458): k, m and ring; on or off; records taken from the ring. -/
inductive GaitSet where
  | set (k m ring : Nat)
  | write (on : Bool)
  | taken (n : Nat)
  deriving DecidableEq, Repr, Inhabited

/-- What firmware writes: entry `i` of a table of the fabric, as `w` (R437, R439, R444), or a setting of a monitor, for which `i` and `w` say
nothing (R458, R459). -/
inductive FirmSet where
  | window (ctx : Nat)
  | exportRange (base len : Nat) (devices : List Nat) (world : Bool)
  | group
  | gait (x : GaitSet)
  | watch (ctx start shift : Nat)
  | latency (key percentile action : Nat)
  deriving DecidableEq, Repr, Inhabited

/-- What a world assignment names (R451, R456): core or slice by number, or a region of the weight store by first byte. -/
inductive WorldUnit where
  | core | slice | weights (len : Nat)
  deriving DecidableEq, Repr, Inhabited

/-- What an uncorrectable error hits (R448). -/
inductive PoisonAt where
  | line (l : Loc)
  | lineScrub (l : Loc)
  | register (core slot reg lane : Nat)
  deriving DecidableEq, Repr, Inhabited

/-- Every row of the opcode table. -/
inductive Instr where
  -- integer and logic (R80)
  | iadd (w : Width) (x : RG) | iaddIm (w : Width) (x : IM)
  | isub (w : Width) (x : RG) | isubIm (w : Width) (x : IM)
  | imul (w : Width) (x : RG) | imulIm (w : Width) (x : IM)
  | imulh (w : Width) (x : RG) | imad (w : Width) (x : RG)
  | idiv (w : Width) (x : RG) | irem (w : Width) (x : RG)
  | imin (w : Width) (x : RG) | iminIm (w : Width) (x : IM)
  | imax (w : Width) (x : RG) | imaxIm (w : Width) (x : IM)
  | iabs (w : Width) (x : RG)
  | and (w : Width) (x : RG) | andIm (w : Width) (x : IM)
  | or (w : Width) (x : RG) | orIm (w : Width) (x : IM)
  | xor (w : Width) (x : RG) | xorIm (w : Width) (x : IM)
  | andn (w : Width) (x : RG) | andnIm (w : Width) (x : IM)
  | shl (w : Width) (x : RG) | shlIm (w : Width) (x : IM)
  | shr (w : Width) (x : RG) | shrIm (w : Width) (x : IM)
  | sar (w : Width) (x : RG) | sarIm (w : Width) (x : IM)
  | rol (w : Width) (x : RG) | rolIm (w : Width) (x : IM)
  | popc (w : Width) (x : RG) | clz (w : Width) (x : RG) | brev (w : Width) (x : RG)
  | bfx (w : Width) (x : RG) | bfi (w : Width) (x : RG)
  | sel (w : Width) (x : RG) | mov (w : Width) (x : RG)
  | movi (w : Width) (x : IM) | movh (w : Width) (x : IM)
  -- compare, predicate, convert (R81)
  | icmp (c : Cond) (sg : Bool) (w : Width) (x : RG) | icmpIm (c : Cond) (sg : Bool) (w : Width) (x : IM)
  | fcmp (c : Cond) (f : FW) (x : RG)
  | pset (x : RG) | pmov (x : RG)
  | fclass (f : FW) (x : RG)
  | cvt (dst src : CvtT) (x : RG)
  | cvtqQuantise (x : RG) | cvtqDequantise (x : RG)
  -- floating point and significance (R82)
  | fadd (x : RG) | faddIm (x : IM) | fsub (x : RG) | fsubIm (x : IM) | fmul (x : RG) | fmulIm (x : IM)
  | ffma (x : RG) | fmin (x : RG) | fminIm (x : IM) | fmax (x : RG) | fmaxIm (x : IM)
  | fdiv (x : RG) | fsqrt (x : RG) | frcp (x : RG) | fexp2 (x : RG) | flog2 (x : RG)
  | hadd2 (h : Half) (x : RG) | hmul2 (h : Half) (x : RG) | hfma2 (h : Half) (x : RG)
  | dadd (x : RG) | dsub (x : RG) | dmul (x : RG) | dfma (x : RG) | dmin (x : RG) | dmax (x : RG)
  | ddiv (x : RG) | dsqrt (x : RG)
  | tagrd (x : RG) | tagwr (x : RG) | psig (c : Cond) (x : IM)
  -- control flow, F/E, growth, system (R83)
  | bra (x : BR) | call (x : BR) | brx (x : RG) | ret (x : RG) | exit (x : RG) | halt (x : RG) | nop (x : RG)
  | fewait (x : RG) | feset (x : RG) | feclr (x : RG)
  | rgrow (x : IM) | rshr (x : IM) | trap (x : IM)
  | eretRestart (x : RG) | eretSkip (x : RG)
  | crd (x : IM) | cwr (x : IM)
  -- cross-lane, barriers, routing (R84)
  | lshf (x : RG) | lbc (x : RG) | lvote (x : RG) | lscan (x : RG) | lred (x : RG) | lelect (x : RG) | lpc (x : RG)
  | barSync (x : IM) | barArv (x : IM) | barWait (x : IM)
  | topki (x : RG) | rng (x : RG)
  -- memory, tickets, reductions, queues (R85)
  | ld (x : MM) | st (x : MM) | pref (x : MM) | brld (x : MM) | brmk (x : RG)
  | lds (x : MM) | sts (x : MM) | ldw (x : MM)
  | ldt (x : MM) | rdm (x : RG) | tkdrop (x : RG)
  | atomAdd (x : MM) | atomUmin (x : MM) | atomUmax (x : MM) | atomSmin (x : MM) | atomSmax (x : MM)
  | atomAnd (x : MM) | atomOr (x : MM) | atomXor (x : MM) | atomExch (x : MM) | atomCas (x : MM)
  | xredFp32 (x : MM) | xredFp64 (x : MM) | xrdFp32 (x : MM) | xrdFp64 (x : MM)
  | expq (x : MM) | fence (x : EN)
  | lnwait (x : RG) | lnset (x : RG) | lnclr (x : RG) | spl (x : RG) | fil (x : RG)
  -- engines, tasks, events (R86)
  | cpy (x : EN) | cpyc (x : EN) | wpwait (x : EN)
  | talloc (x : EN) | tfree (x : EN) | tzero (x : EN) | tld (x : EN) | tlr (x : EN) | tst (x : EN)
  | tinfo (x : EN) | twait (x : EN)
  | tmul (x : EN) | tadd (x : EN) | trnd (x : EN) | tdns (x : EN) | tfac (x : EN) | ttrs (x : EN)
  | coll (x : EN) | launch (x : EN) | evsig (x : EN) | evwait (x : EN)
  -- Bridle (R87)
  | seqcm (x : RG) | seqcmT (x : RG) | seqcf (x : RG) | seqfn (x : EN)
  | seqrdNext (x : RG) | seqrdPeek (x : RG) | seqrdTrap (x : RG)
  | seqwpEnt (x : RG) | seqwpCtr (x : RG) | seqwpInit (x : RG) | seqwpNrec (x : RG)
  | seqrelGo (x : RG) | seqrelStop (x : RG) | seqrelFree (x : RG)
  -- fabric (R87), privileged system (R88)
  | mst (x : MM) | rld (x : MM)
  | dharv (x : EN) | tlbinvPage (x : EN) | tlbinvCtx (x : EN) | tlbinvAll (x : EN)
  | dbgbrkHalt (x : IM) | dbgbrkResume (x : IM) | dbgbrkStep (x : IM) | dbgbrkBack (x : IM)
  | dbgbrkBrk (x : IM) | dbgbrkClr (x : IM) | dbgbrkDbg (x : IM)
  -- events: issue and arrivals
  | tenureGrant (core isl : Nat)
  | loadDataArrival (x : Parts) | ldsDataArrival (id : Nat) | cvtqScaleArrival (x : Parts)
  | ldtTicketAllocated (id entry : Nat)
  | ticketDataArrival (slice : Nat) (x : Parts) | ticketLifetimeExpiry (slice entry : Nat)
  | redeemMatch (id : Nat) | rdmVerdictReturn (id : Nat) | rdmDataDelivery (x : Parts)
  | sliceRmwPerform (id : Nat) | exactContribution (id : Nat) | xrdReadoutArrival (id : Nat)
  | queueAppend (id : Nat) | filImageArrival (x : Parts) | rldReadoutArrival (x : Parts)
  | seqReply (id : Nat) | launchTaken (x : Parts)
  | barrierPhaseComplete (ctx seq level unit bid : Nat)
  | rgrowGrant (core : Nat) | rgrowDeny (core : Nat)
  -- events: traps, faults, ordering
  | trapDelivery (core slot : Nat) | faultRecordWrite (ctx : Nat) | ackRead (ctx : Nat)
  | replay (core entry : Nat) | watchdogExpiry (ctx : Nat)
  | promotionRequest (id core : Nat) | releaseRecordEvict (line : Nat) | weightStoreRefresh
  -- events: engines
  | copyCommandStart (core ch : Nat) | cpycCommandStart (core ch : Nat)
  | copyLineLands (core : Nat) (x : Parts) | copyCommandEnd (core ch : Nat)
  | tileOpStart (core op : Nat) | tileOpCommit (core : Nat) (x : Parts) | remoteTileServe (core op operand : Nat)
  | multicastDelivery (core op target : Nat) | multicastBufferDrain (core : Nat)
  | collJoin (ctx cmd : Nat) (msgs : List CollParams) | joinLimitExpiry (ctx cmd : Nat) (peer : Option Nat)
  | zephyrChunkLands (ctx : Nat) (x : Parts) (reduced : Bool) (rank chunk : Nat) (vals : List (BitVec 64)) (tags : List (BitVec 6))
  | zephyrReadout (ctx : Nat) (x : Parts) (chunk : Nat) | collComplete (ctx cmd : Nat)
  -- events: Bridle
  | seqCommitEval (id : Nat) | seqTentativeEval (id : Nat) | seqConfirmation (id : Nat)
  | bridleRecordFetch (slot : Nat)
  -- events: task unit, contexts
  | queueTailRead (ctx : Nat) (x : Parts) | queueReset (ctx q : Nat)
  | launchStart (ctx seq : Nat) | launchComplete (ctx seq : Nat)
  | droverPlacement (die : Nat) | steal (die ctx seq : Nat)
  | contextCreate (ctx : Nat) (p : CtxParams) | contextTeardown (ctx : Nat)
  | preemptRequest (ctx d1 d2 : Nat) | drainDeadlineExpiry (ctx : Nat) (groups : List (Nat × Nat))
  | suspensionComplete (ctx : Nat) | suspendDeadlineExpiry (ctx : Nat)
  | contextReset (ctx : Nat) | contextRestore (ctx : Nat) | debugStopReached (core slot : Nat)
  -- events: fabric, system
  | portFailure (port : Nat) | routeTableRebuild (table : Nat) (entries : NMap (BitVec 16))
  | communicatorRebuild (ctx : Nat) (c : CommAt) (entry : BitVec 64)
  | dieLinkFailure (die : Nat)
  | leaseRequest (core ctx : Nat) (va : Nat) | leaseRecall (chip rctx page : Nat)
  | poisonConsumed (ctx seq : Nat) | thermalTrip (die : Nat)
  | coldStart (x : StartEv) (device : BitVec 12) | warmStart (x : StartEv) (device : BitVec 12)
  | attestationRequest (nonce : List (BitVec 8))
  | powerCapSet (watts : Nat) | dumpRead (x : SideRead) (n : Nat) | valid
  | firmwareStaging (kind version : Nat) (x : Signed)
  | worldReassignment (u : WorldUnit) (n : Nat) (world : Bool)
  | classTableWrite (i : BitVec 8) (e : BitVec 32) | peerWindowWrite (x : FirmSet) (i : BitVec 12) (w : BitVec 256)
  | gaitTick | histogramSample (core isl : Nat) | issueGating (on : Bool)
  | translationFault (id : Nat) | writePerformed (x : Parts) | eventAdd (id : Nat)
  | tlbEviction (tlb index : Nat) | uncorrectableError (at_ : PoisonAt) | firmwareCheckFailure
  | peerAccessAtTarget (chip : BitVec 12) (wld : Bool) (mode : PeerMode) (addr : Nat) (acc : PeerAcc)
  | debugPortAccess (acc : DebugAcc)
  deriving DecidableEq, Repr

end Sys2Proof
end

