-- ==== Sys2Proof/Config.lean ====
section
/-! DEFINITION. What the implementation fixes and the values the manual leaves open (R11, R13, R14). A free value is a
constant without a body: no proof can see what it is. -/

namespace Sys2Proof.Config

/-- Compute dies (R11). -/
def dies : Nat := 4
/-- Cores per die (R11). -/
def coresPerDie : Nat := 144
/-- Cores per cluster (R11). -/
def coresPerCluster : Nat := 24
/-- Cores of the device (R11). -/
def cores : Nat := 576
/-- Resident teams per core (R13). -/
def teamSlots : Nat := 48
/-- Register blocks of 16 per core (R169). -/
def regBlocks : Nat := 256
/-- Memory slices (R11). -/
def slices : Nat := 256
/-- Ticket entries per slice (R14). -/
def ticketEntries : Nat := 2048
/-- Contexts (R21). -/
def contexts : Nat := 64
/-- Sequence slots (R394). -/
def seqSlots : Nat := 8192
/-- Operand log entries per core (R366). -/
def logEntries : Nat := 16
/-- Cold-start power cap in watts (R17). -/
def powerCap : Nat := 3400

/-- Sets and ways of a slice cache (R209): 1 MiB of 128-B lines, 16-way. -/
def cacheSets : Nat := 512
def cacheWays : Nat := 16
/-- Lines of a core's write buffer (R221). -/
def writeBufferLines : Nat := 256
/-- Export ranges (R439). -/
def exportRanges : Nat := 64
/-- First byte of the dump region that firmware reserves at the first cold start (R460). Log entry 79. -/
def dumpBase : Nat := 47915728896

/-- Bytes of a team record, a workgroup record, a core's line mirror and a team's undo area (R384). -/
def teamRecord : Nat := 45056
def wgRecord : Nat := 4096
def lineMirror : Nat := 1246208
def undoArea : Nat := 1310720

/-- R90: which version of a code line that has been stored to since the launch a fetch obtains, counted from the line as it stood at launch.
Free: the manual lets each fetch of each team take any. Log entry 6. -/
opaque fetchLater : Nat → Nat

/-- R209: which line of a full set leaves a slice cache. Free value: the manual gives no order of replacement. Log entry 80. -/
opaque cacheVictim : Nat → Nat

/-- R294: the value of an element under ORDER = FAST, of which the manual fixes only an error bound. Free value,
applied to the counter State.freshCount. Log entry 2. -/
opaque fastDot : Nat → BitVec 64

/-- R384: the bytes of the team and workgroup records that a suspension writes, whose layout the manual does not give: by the suspension and
the address. Free value. Log entry 82. -/
opaque saveByte : Nat → Nat → BitVec 8

/-- R436: whether a write whose request was lost on a failing port was performed at its home. Free value. Log entry 2. -/
opaque lostWrite : Nat → Bool

/-- R436, R439, R440: what a peer answers an access that has reached it: 0 lets it be performed. Free value: the peer's export ranges and
tables are its own. Log entry 73. -/
opaque peerAnswer : Nat → Nat

/-- R459: the bin that counts a latency of 0 clocks, of which the logarithm is not defined. Free value. Log entry 2. -/
opaque zeroBin : Nat → BitVec 6

/-- R454: the fuse hash of the public key for each kind of firmware image. Log entry 2. -/
opaque keyFuse : Nat → BitVec 256
/-- R455: the device's fuse identity. Log entry 2. -/
opaque fuseIdentity : BitVec 256
/-- R455: the measurement of the factory image of each kind, which stands until another is staged. Log entry 2. -/
opaque factoryImage : Nat → BitVec 256
/-- R451, R455: the parameters that each HBM training gives. Free value. Log entry 2. -/
opaque trainedParams : Nat → List (BitVec 8)
/-- R458: a Gait word that counts clocks, stalls or flits, which a model without them does not count. Free value. Log entry 39. -/
opaque timingCount : Nat → BitVec 32
/-- R461: what a sensor of the module reads over the sideband: by the counter State.freshCount, 0 to 3 for the temperature of a die, 4 for the
power. Free value. Log entry 2. -/
opaque sensor : Nat → Nat → BitVec 16
/-- R455: the hash of a world assignment, core by core and then slice by slice. Log entry 2. -/
opaque worldHash : List Bool → BitVec 256
/-- R453, R455: the device key: the secret of each chain of each one-time key, the public seed, the key of the randomiser. Log entry 2. -/
opaque deviceSecret : Nat → Nat → BitVec 256
opaque deviceSeed : BitVec 256
opaque devicePrf : BitVec 256

end Sys2Proof.Config
end

