-- ==== Sys2Proof/Machine/State.lean ====
section
/-! DEFINITION. The state of the G9 as plain data: everything the manual gives the machine, and the model's own
scheduling fields (agenda, turn, freshCount, nextId). -/

namespace Sys2Proof.Machine

/-! ### Outcomes that are no next state -/

/-- Faults of the model. -/
inductive Fault where
  /-- Raised by `step` and the meanings when an instruction is executed while no team holds the issue slot that
  `State.turn` names. Safe: no such execution exists on the hardware (R156). -/
  | noTeam
  deriving DecidableEq, Repr, Inhabited

/-- Refusals of the model. -/
inductive Refusal where
  /-- Raised by a dispatch arm whose instruction has no meaning yet. Safe. -/
  | notModelled (mnemonic : String)
  deriving DecidableEq, Repr

/-! ### Registers -/

/-- A lane-register element: value, F/E bit (true is full), tag (R23). -/
structure Elem where
  val : Word
  full : Bool
  tag : Tag
  deriving DecidableEq, Repr, Inhabited

/-- A scalar register (R22, R23). -/
structure SElem where
  val : DWord
  full : Bool
  tag : Tag
  deriving DecidableEq, Repr, Inhabited

/-- A predicate register: value and F/E bit of each lane (R22). -/
structure PElem where
  val : Mask
  full : Mask
  deriving DecidableEq, Repr, Inhabited

/-- A raised trap (R373, R374): cause, detail byte, PC of the originating instruction, TRAPPC, TRAPMASK,
the word s59, the 32 bytes of s60 to s63, and whether the instruction carries RGN and had not reached its region entry (R38). -/
structure TrapInfo where
  cause : BitVec 8
  detail : BitVec 8
  opc : Word
  tpc : Word
  mask : Mask
  info : DWord
  bytes : List Byte
  rgn : Bool
  deriving DecidableEq, Repr, Inhabited

/-- What trap delivery saves (R373, R427), with the counters and the pending region entry of the interrupted stream, and the region entry
that the trapping instruction itself has still to make (R38, R123). -/
structure Saved where
  lpc : List Word
  s56 : List SElem
  rgnpc : Word
  rgncnt : DWord
  retcnt : DWord
  enter : Bool
  rgn : Bool
  deriving DecidableEq, Repr, Inhabited

/-- What holds a team at an issued instruction until it retires. -/
inductive HoldKind where
  | request            -- BRLD, EXPQ: the replies of the group (R132, R251)
  | verdicts (stale : Mask)     -- RDM, TKDROP under TRAPEN[6], with the lanes that were STALE at once (R244)
  | barrier (level bid : Nat)   -- BAR.SYNC (R183)
  deriving DecidableEq, Repr, Inhabited

/-- A held instruction: its request group, lanes and hints. -/
structure Hold where
  kind : HoldKind
  grp : Nat
  pc : Word
  exec : Mask
  act : Mask
  head : Head
  closes : Bool
  status : List Byte         -- ticket status of each lane so far (R244)
  deriving DecidableEq, Repr, Inhabited

/-- An arrival of the team at a barrier (R183): level, number, phase. -/
structure Arrival where
  level : Nat
  bid : Nat
  phase : Nat
  deriving DecidableEq, Repr, Inhabited

/-- A recorded release (R219, R220): its core and scope, the first request number that it does not cover, bytes that it wrote (address and
length at their home), and whether its value, or that of a later read-modify-write, still stands in them. -/
structure Observed where
  core : Nat
  scope : Scope
  bound : Nat
  lo : Nat
  len : Nat
  stands : Bool
  deriving DecidableEq, Repr, Inhabited

/-- What a strong read of a team has seen of a line's release record, for an acquire fence that follows (R219, R220): the line, the recorded
releases (of which those that the read took stand), whether the record was ALL, and the first request number issued after the read. -/
structure Seen where
  line : Nat
  named : List Observed
  all : Bool
  bound : Nat
  deriving DecidableEq, Repr, Inhabited

/-- Buffer records, control registers, allocation and trap state of a team at a region entry, beside its v, s and p registers (R391). -/
structure Snap where
  bufs : NMap (BitVec 256)
  sigmin : DWord
  sigstat : DWord
  fltstat : DWord
  trapen : DWord
  oobcnt : DWord
  trapcause : DWord
  trappc : DWord
  trapmask : DWord
  alloc : Nat
  saved : Option Saved
  deriving DecidableEq, Repr, Inhabited

/-- One entry of a team's undo log (R390); a line with the instruction that first wrote it. -/
inductive Undo where
  | vreg (n : Nat) (old : List Elem)
  | sreg (n : Nat) (old : SElem)
  | preg (n : Nat) (old : PElem)
  | memLine (grp : Nat) (l : Loc) (old : List Byte) (tags : List Tag) (full : Bool)
  | entry (rgncnt : DWord) (lpc : List Word) (live : Mask) (snap : Snap)   -- a region entry
  deriving DecidableEq, Repr, Inhabited

/-- A point (R389), less context, core and slot. -/
structure Point where
  rgncnt : DWord
  retcnt : DWord
  deriving DecidableEq, Repr, Inhabited

/-- A resident or saved team (R22, R30 and the chapters named in INVENTORY.md). -/
structure Team where
  tid : Nat                  -- identity of the team over its whole life
  ctx : Nat
  seq : Nat                  -- launch
  wg : Nat                   -- identity of its workgroup
  lvl : List Nat             -- LVL1 to LVL7 (R160)
  alloc : Nat
  v : NMap Elem              -- key 32 * register + lane
  s : NMap SElem
  p : NMap PElem
  lpc : List Word            -- 32 lanes
  live : Mask
  bufs : NMap (BitVec 256)   -- bound or written buffer records
  sigmin : DWord
  sigstat : DWord
  fltstat : DWord
  trapen : DWord
  oobcnt : DWord
  rgncnt : DWord
  retcnt : DWord
  trapcause : DWord
  trappc : DWord
  trapmask : DWord
  rgnpc : Word
  enter : Bool               -- the next instruction re-enters a region at its step 2 (R375)
  closed : Bool              -- an implicit closure has already made the next instruction an entry (R371)
  saved : Option Saved       -- in a trap handler (R373)
  trap : Option TrapInfo     -- raised, not delivered (R373, R377)
  owed : List TrapInfo       -- ALLOC and KIND statuses to be taken at the next tile instruction (R290)
  halted : Bool
  hold : Option Hold
  blocked : Bool             -- its last issue attempt waited (R164)
  run : Nat                  -- instructions of the current run (R165)
  runYld : Bool
  key : Nat                  -- rank key (R167)
  lastIssue : Nat            -- clock of its last issued instruction (R167)
  age : Nat                  -- clock of first placement (R169)
  arrivals : List Arrival
  heldRegs : List (Nat × Nat)   -- (log group, register) of a logged scaled CVTQ (R364)
  relFence : Option Scope    -- a narrow release fence to be carried by strong writes (R219)
  observed : List Seen
  collNo : List Nat          -- CPYC collectives issued per channel (R272)
  stops : List Point         -- armed stops (R392)
  steps : Option Nat         -- instructions left of a DBGBRK.step
  stopSoon : Bool            -- DBGBRK.halt pending (R392)
  backing : Bool             -- runs forward to the point of a DBGBRK.back (R391, R392)
  posted : Bool              -- the instruction at the issue address has posted its request and waits
  undo : List Undo           -- newest first
  undoNum : Nat              -- entries that it has written into its undo area, whose places in the ring follow one another (R384, R390)
  undoNew : List Undo        -- entries that it has still to write there, newest first
  word : IWord               -- the word fetched for its last issue attempt (R363)
  growth : Option Nat        -- the core's answer to the request of the RGROW at the issue address: registers granted, 0 denied (R169, R170)
  deriving DecidableEq, Repr, Inhabited

/-! ### Workgroups, tiles, engines -/

/-- A tile's values: dense elements or factors, column-major in the storage format, of the rows and columns in use. The values of a tile in
a workgroup's table stand in the pool's bytes (R282) and this is empty there; a copy in flight carries it. -/
structure TileVal where
  d : List DWord
  u : List DWord
  v : List DWord
  deriving DecidableEq, Repr, Inhabited

/-- A tile (R281). `kind` is 0 Z, 1 D, 2 L, 3 NONE. -/
structure Tile where
  kind : Nat
  fe : Bool
  acc : Bool
  slot : BitVec 3
  rows : Nat
  cols : Nat
  rank : Nat
  rmax : Nat
  tol : Nat
  tag : Tag
  status : Nat
  flags : BitVec 5
  kprog : Nat
  uofs : Nat
  vofs : Nat
  satf : Bool
  val : TileVal
  deriving DecidableEq, Repr, Inhabited

/-- A workgroup on a core (R161): share as first line and line count, pool granules (R282), tile table, delivered
count per channel (R267). `unit` lists its level indices from its own level upward (R160). -/
structure Wg where
  id : Nat
  ctx : Nat
  seq : Nat
  unit : List Nat
  teams : Nat
  ended : List Nat           -- its teams that have ended, by their number in it (LVL1 for a level-2 workgroup)
  shareLine : Nat
  shareLines : Nat
  granules : Nat
  tileCount : Nat
  tiles : NMap Tile
  delivered : List DWord
  deriving DecidableEq, Repr, Inhabited

/-- One slice of a copy command (R272, R315): the supplying team, its block of eight 64-bit words, and the copies of
the buffer records it names (R300). -/
structure CopySlice where
  lvl1 : Nat
  team : Nat                 -- number of the team in its workgroup
  slot : Nat
  tid : Nat
  blk : List DWord
  srec : BitVec 256
  drec : BitVec 256
  acq : Bool
  rel : Bool
  scope : Scope
  first : Nat                -- request number at issue
  pc : Word
  rgncnt : DWord
  deriving DecidableEq, Repr, Inhabited

/-- A copy command (R264 to R272). `lines` are its destination lines in ascending order; global lines are named by
virtual address, the others by their byte address. `coll` is the number of a workgroup collective. -/
structure CopyCmd where
  id : Nat
  ctx : Nat
  seq : Nat
  wg : Nat
  coll : Option Nat
  slices : List CopySlice
  lines : List Nat
  started : Bool
  landed : Nat
  status : Nat
  fault : Nat                -- cause of a translation fault that holds it, 0 none
  gone : List Nat            -- accesses discarded by firmware (R370): 2 * page number, plus 1 for writes
  born : Nat                 -- clock of acceptance (R459)
  early : List (Nat × BitVec 64) -- source words read ahead of the landing of their line: place in the order of reading, value (R216, R269)
  deriving DecidableEq, Repr, Inhabited

/-- Tile operations (R304); `recv` is the write of a multicast delivery (R287). -/
inductive TKind where
  | talloc | tfree | tzero | tld | tlr | tst | tmul | tadd | trnd | tdns | tfac
  | ttrs (mode : Nat)
  | recv (t : Tile)
  deriving DecidableEq, Repr, Inhabited

/-- An accepted tile operation (R284, R285). -/
structure TileOp where
  id : Nat
  ctx : Nat
  seq : Nat
  wg : Nat
  slot : Nat
  tid : Nat
  pc : Word
  kind : TKind
  dst : Nat
  src : Nat
  fslot : BitVec 3
  blk : List DWord
  recs : NMap (BitVec 256)   -- the team's buffer records at issue (R300)
  acq : Bool
  rel : Bool
  scope : Scope
  first : Nat
  started : Bool
  remA : Option Tile
  remB : Option Tile
  fault : Nat
  rgncnt : DWord
  gone : List Nat            -- as in CopyCmd
  born : Nat
  scs : Option (List Nat × List Nat) -- scales of A and of B read before its first group, as FP32 bits (R293)
  room : Option Nat          -- first granule of the dense storage that it has allocated ahead of its first group (R297)
  sofar : Nat                -- flags, with SATF as bit 5, of the groups that a suspension has left in the destination (R291, R298)
  early : List (Nat × BitVec 80) -- accesses of its reading performed ahead of its commit: place in the order of reading, what they read (R216)
  placed : List Nat          -- accesses of its writing performed ahead of its commit, by their places (R216)
  deriving DecidableEq, Repr, Inhabited

/-- A pending multicast delivery (R287): receiver core and tile, sender's workgroup unit, the lines that have entered the cluster's buffer
and those of them that have left it for the receiver. -/
structure Delivery where
  op : Nat
  core : Nat
  tile : Nat
  ctx : Nat
  seq : Nat
  unit : List Nat
  val : Tile
  sent : Nat
  drained : Nat
  deriving DecidableEq, Repr, Inhabited

/-! ### Requests in flight -/

/-- How a loaded element becomes a register value (R128): FP with precision p, or integer. -/
structure LoadFmt where
  size : Size
  fp : Bool
  prec : Nat
  signed : Bool
  deriving DecidableEq, Repr, Inhabited

/-- Rounding and policy of an arriving FP result (R60, R150, R249): RMODE 0 to 3, SIGPOL. -/
structure FpPol where
  mode : Nat
  sigpol : Nat
  deriving DecidableEq, Repr, Inhabited

/-- An issuing lane's element in a line-set (R238): lane, byte offset in the 512-B block. -/
abbrev SetElem := Nat × Nat

/-- What a request asks for. -/
inductive ReqKind where
  | load (d : Opd) (pair : Bool) (f : LoadFmt)
  | brld (b : Nat)
  | lds (d : Opd) (pair : Bool) (f : LoadFmt)
  | scale (quant : Bool) (d : Opd) (g : Nat) (fmt : Nat) (sat : Bool) (pol : FpPol) (xs : List DWord) (ts : List Tag)
  | store (bytes : List Byte)
  | sts (bytes : List Byte) (tag : Tag) (fp64 : Bool)
  | spl (words : List Word) (tags : List Tag)
  | mst (bytes : List Byte) (member : Nat)
  | atom (fn : Nat) (w : Width) (b cmp : DWord) (d : Opd) (pair : Bool)
  | xred (f : FW) (x : DWord) (t : Tag)
  | xrd (f : FW) (pol : FpPol) (d : Opd) (pair : Bool)
  | expq (token payload : Word) (d : Opd)
  | ldt (d : Opd) (block : Nat) (lines : BitVec 4) (lanes : Mask) (elems : List SetElem) (f : LoadFmt) (tRec : Bool) (shadow : List Nat) (wld : Bool)
  | fetch (slice entry : Nat) (lines : BitVec 4) (shadow : List Nat)
  | redeem (ticket : DWord) (lanes : Mask) (drop : Bool) (st : Opd) (d : Opd) (pair : Bool) (sp : Option Nat) (verdict : Option Nat)
  | deliver (ticket : DWord) (lanes : Mask) (d : Opd) (pair : Bool) (sp : Option Nat) (vals : NMap SElem) (lines : NMap (List Byte)) (ltags : NMap (List Tag)) (zero : Bool)
  | fil (d : Opd) (m : Nat)
  | rld (f : FW) (pol : FpPol) (d : Opd) (pair : Bool) (member : Nat)
  | seqCommit (slot : Nat) (token : BitVec 20) (doubt : Bool) (d : Opd)
  | seqTent (slot : Nat) (token : BitVec 20) (d : Opd)
  | seqConf (slot : Nat) (n : Word) (d : Opd)
  | seqRd (form : Nat) (slot : Nat) (d : Opd) (pair : Bool)
  | seqWp (form : Nat) (slot : Nat) (b : DWord) (c : DWord) (rec : BitVec 256) (d : Opd)
  | seqRel (form : Nat) (slot : Nat) (d : Opd)
  | launch (d : Opd) (pair : Bool) (rel : Bool) (world : Bool) (early : List (Nat × BitVec 80))
  | evAdd (n : Nat) (a : DWord)
  deriving DecidableEq, Repr

/-- What an operand log entry keeps of an instruction's operands (R363, R420): the buffer record, A, B with its tags, and the
comparand, by lane. -/
structure OpImage where
  buf : BitVec 256
  a : List Word
  b : List DWord
  btags : List Tag
  cmp : List DWord
  deriving DecidableEq, Repr, Inhabited

/-- A request in flight: its number, the instruction that issued it (`grp` numbers the instruction), the access it
makes, its ordering flags (R216), and how far it has come. -/
structure Req where
  id : Nat
  grp : Nat
  core : Nat
  slot : Nat
  tid : Nat
  ctx : Nat
  seq : Nat
  pc : Word
  rgncnt : DWord
  lane : Nat
  act : Mask
  va : Nat                   -- virtual address (global side), 0 otherwise
  loc : Option Loc           -- home location; none while its translation has failed
  n : Nat                    -- bytes accessed
  write : Bool
  read : Bool
  strong : Bool
  acq : Bool
  rel : Bool
  scope : Scope
  relScope : Scope           -- scope of its release part, which an earlier release fence may widen (R219)
  sent : Bool                -- a peer device has refused it, so that it has left its core (R220, R436)
  shLocs : List (Option Loc) -- homes of the shadow bytes of a ticket read (R62, R214)
  shadow : Option Loc        -- home of the shadow byte of a T record (R62, R214)
  shadowVa : Option Nat      -- its address; for a store of a shadow byte, the address of that store
  fault : Nat                -- cause of the failed walk, 0 none (R369)
  info : Nat                 -- its INFO[7:0] (R436)
  shFault : Nat              -- cause of the failed walk of the shadow byte
  logged : Option Nat        -- operand log entry (R363)
  done : Bool                -- performed; waits only for the drains of its acquire (R220) or its reply
  drains : List Observed
  val : BitVec 256           -- the value taken when it was performed
  vtag : Tag
  born : Nat                 -- clock at which it was sent (R459)
  img : OpImage
  kind : ReqKind
  word : IWord               -- the word of the instruction that issued it (R363)
  cache : BitVec 2           -- slice-cache policy: 0 allocate, 1 allocate and evict first, 2 no allocate (R33, R75)
  got : List Nat             -- parts of a wide read that have been performed (R214, R216)
  deriving DecidableEq, Repr

/-- An operand log entry (R363, R366, R420): the logged instruction's group, word and operands. Its records not yet acted on are the
context's held and open records of the group. -/
structure LogEntry where
  grp : Nat
  slot : Nat
  tid : Nat
  ctx : Nat
  pc : Word
  act : Mask
  pmask : Mask
  word : List Byte
  img : OpImage
  discard : List Nat         -- requests answered with DISCARD
  deriving DecidableEq, Repr, Inhabited

/-! ### Cores -/

/-- An issue slot (R163, R166). -/
structure IssueSlot where
  holder : Option Nat
  forced : BitVec 32
  deriving DecidableEq, Repr, Inhabited

/-- A TLB entry (R360, R361): context, first virtual address and size of the page, address of its leaf, the leaf as
read, and the dirty bit. -/
structure TlbEntry where
  ctx : Nat
  va : Nat
  size : Nat
  leafPa : Nat
  leaf : DWord
  dirty : Bool
  deriving DecidableEq, Repr, Inhabited

/-- A core (R13, R20). -/
structure Core where
  world : Bool
  islots : NMap IssueSlot
  teams : NMap Team
  wgs : List Wg
  bytes : NMap Byte          -- scratchpad (R194), unlisted bytes 0
  tags : NMap Tag            -- word tags, unlisted 63 (R195)
  empty : List Nat           -- lines whose F/E bit is empty, ascending (R195)
  chans : NMap (List CopyCmd)
  tops : List TileOp
  deliveries : List Delivery
  log : NMap LogEntry
  logWait : List Nat         -- groups whose faults wait for a free log entry (R419)
  tlb : List TlbEntry
  dropped : Nat              -- multicast deliveries dropped because their workgroup had ended (R287)
  deriving DecidableEq, Repr, Inhabited

/-! ### Slices, contexts, launches -/

/-- State of a ticket entry (R212). -/
inductive TkState where
  | free | awaitTranslation | inflight | ready | held
  deriving DecidableEq, Repr, Inhabited

/-- A ticket entry (R212, R238): `spent` is its end mark (else RECLAIMED), `start` the resident clock of its context at
allocation, `fetch` the request that fetches it, `redeem` the redeem held at it. -/
structure TkEntry where
  st : TkState
  gen : BitVec 13
  spent : Bool
  ctx : Nat
  seq : Nat                  -- launch whose LDT allocated it
  inc : BitVec 18
  wld : Bool
  start : Nat
  fetch : Nat
  redeem : Nat
  f : LoadFmt
  lines : BitVec 4
  elems : List SetElem
  vals : NMap SElem          -- captured elements by issuing lane
  bytes : NMap (List Byte)   -- captured lines of the block
  ltags : NMap (List Tag)    -- captured word tags of those lines
  pois : BitVec 36           -- poisoned data (R448): bit l of lane l's element, bit 32 + i of line i
  deriving DecidableEq, Repr, Inhabited

/-- A slice (R14, R456). `cache` lists the lines that its cache holds, by line number of the physical address, with the mark of a line to be
evicted first (R75, R209). -/
structure Slice where
  world : Bool
  tickets : NMap TkEntry
  cache : NMap Bool
  deriving DecidableEq, Repr, Inhabited

/-- Life of an accepted launch (R338 to R344). -/
inductive LState where
  | accepted | started | complete
  deriving DecidableEq, Repr, Inhabited

/-- A barrier (R182): level, number of its unit in the grid, barrier number, phase, numbers in the unit of the teams that
have arrived in the phase. -/
structure Barrier where
  level : Nat
  unit : Nat
  bid : Nat
  phase : Nat
  arrived : List Nat
  deriving DecidableEq, Repr, Inhabited

/-- An accepted launch: its record as 256 words of 8 B (R327),
chunks not yet taken per die (R345), placement units left of the chunk in hand per die, unended placed units. -/
structure Launch where
  seq : Nat
  firmware : Bool            -- submitted by firmware itself (R88)
  world : Bool
  words : List DWord
  st : LState
  grid : Nat
  chunks : List (List Nat)   -- per die, ascending
  inHand : List (List Nat)   -- per die, units of the chunk being placed
  live : Nat                 -- teams placed and not ended
  left : Nat                 -- placement units not yet placed
  bars : List Barrier
  ended : List (List Nat)    -- LVL1 to LVL7 of its ended teams (R182)
  after : List Nat           -- launches it depends on
  replayable : Bool
  poisonCount : Nat
  poisoned : Bool
  num : Nat                  -- its place among all acceptances (R205)
  reject : Nat               -- detail of a rejected record that a command queue brought (R332), 0 accepted
  fault : Nat                -- cause of a fault of the task unit that holds it (R343), 0 none
  gone : List Nat            -- as in CopyCmd
  begun : Nat                -- length of `State.past` at its start (R90)
  deriving DecidableEq, Repr, Inhabited

/-- A command queue (R335). -/
structure Queue where
  base : Nat
  sizeLog2 : Nat
  tail : Nat
  head : Nat
  taken : BitVec 32
  stopped : Bool
  gone : List Nat            -- accesses to its ring discarded by firmware, as in CopyCmd
  early : List (Nat × BitVec 80) -- words of its next record that have been read: number, what the access read (R216, R327)
  deriving DecidableEq, Repr, Inhabited

/-- A fault record before it is written (R369). -/
structure FaultRec where
  cause : Nat
  src : Nat
  acc : Nat
  core : Nat
  slot : Nat
  log : Nat
  chan : Nat
  pc : Word
  pmask : Mask
  fmask : Mask
  va : Nat
  ticket : DWord
  info : DWord
  rgncnt : DWord
  grp : Nat                  -- the logged group, or the id of the held command
  deriving DecidableEq, Repr, Inhabited

/-- Context states (R379). -/
inductive CState where
  | running | draining | suspending | suspended | resetting | free
  deriving DecidableEq, Repr, Inhabited

/-- A collective command (R273 to R279, R321). -/
structure CollCmd where
  id : Nat
  core : Nat
  slot : Nat
  tid : Nat
  seq : Nat
  wg : Nat
  comm : Nat
  n : Nat
  blk : List DWord
  srec : BitVec 256
  drec : BitVec 256
  wrec : BitVec 256
  acq : Bool
  rel : Bool
  scope : Scope
  first : Nat
  started : Bool
  joinLeft : Nat             -- resident clock at which the join limit expires (R275)
  arrived : List CollParams  -- first messages of other ranks that have come (R274, R275)
  landed : List (Nat × Nat)  -- (segment, chunk) landed
  early : List ((Nat × Nat) × Nat × BitVec 80) -- accesses to its source performed ahead: (segment, chunk), place, what they read (R216)
  placed : List ((Nat × Nat) × Nat) -- accesses to the destination performed ahead of their chunk's landing (R216)
  contrib : List (Nat × Nat) -- (rank, chunk) contributed to this rank's segment
  sent : List (Nat × Nat)    -- (segment, chunk) of a reduction that this rank has read and sent to its owner (R276)
  tab : Nat                  -- address of its communicator table (R273)
  ent : BitVec 64            -- the table's entry as Zephyr has taken it
  flags : BitVec 5
  status : Nat
  ended : Bool
  pc : Word
  rgncnt : DWord
  fault : Nat                -- as in CopyCmd
  gone : List Nat
  born : Nat
  deriving DecidableEq, Repr, Inhabited

/-- A saved team or workgroup of a suspended context (R384 to R386). -/
structure SavedCore where
  core : Nat
  teams : NMap Team
  wgs : List Wg
  bytes : NMap Byte
  tags : NMap Tag
  empty : List Nat
  mirrored : List Nat        -- lines moved to the line mirror (R385)
  chans : NMap (List CopyCmd)
  tops : List TileOp
  deliveries : List Delivery
  log : NMap LogEntry
  deriving DecidableEq, Repr, Inhabited

/-- A notify record that the Bridle unit has still to write (R401): its number, the team that committed, its value, its
address, and the cause of a fault that holds it. -/
structure Note where
  id : Nat
  core : Nat
  tid : Nat
  val : DWord
  va : Nat
  fault : Nat
  deriving DecidableEq, Repr, Inhabited

/-- A context (R21, R379). -/
structure Ctx where
  st : CState
  world : Bool
  fw : Bool                  -- its queues carry launches of firmware itself (R88)
  root : Nat
  inc : BitVec 18
  tickLife : Nat
  wdLog2 : Nat
  joinLog2 : Nat
  d1 : Nat                   -- clock at which D1 expires
  d2 : Nat
  pausedAt : Nat
  paused : Nat               -- clocks spent suspended
  ringBase : Nat
  ringLog2 : Nat
  ringTail : Nat
  ringHead : Nat
  nextFault : Nat            -- SEQ of the next fault record
  heldRecs : List FaultRec   -- records not yet written (R368)
  openRecs : NMap FaultRec   -- written records not yet answered, by SEQ
  ackBase : Nat
  ackTail : Nat
  acksRead : Nat
  queues : NMap Queue
  lastQueue : Nat            -- queue last served (R338)
  nextSeq : Nat
  launches : List Launch
  events : NMap DWord
  commTabs : List Nat        -- virtual addresses of its communicator tables (R273)
  commNo : NMap Nat          -- collectives issued per communicator
  colls : List CollCmd
  windows : NMap (BitVec 256)
  slotLo : Nat
  slotN : Nat
  nrec : Option (BitVec 256)
  ncur : Word
  notes : List Note
  lastPulse : Nat
  idleAt : Nat               -- clock at which it last came to hold no work (R378)
  debug : Bool
  saved : List SavedCore
  savedReqs : List Req
  saveBase : Nat             -- physical address of its save area (R384)
  deriving DecidableEq, Repr, Inhabited

/-! ### Bridle -/

/-- A pending hit of a tentative token (R395). -/
structure Pending where
  sv : Bool
  steer : Nat
  mask : BitVec 8
  count : Bool               -- a COUNT entry matched, whose action is applied with the token (R417)
  deriving DecidableEq, Repr, Inhabited

/-- Slot states (R396). -/
inductive SState where
  | free | active | stopped | frozen
  deriving DecidableEq, Repr, Inhabited

/-- A sequence slot record (R395 to R397). A watchpoint entry is its 46-byte image. -/
structure SeqSlot where
  st : SState
  parent : Nat
  child : Nat
  sib : Nat
  pos : Word
  rpos : Word
  tcnt : Nat
  clip : Nat
  tv : Bool
  tent : Nat
  tpos : Word
  why : Nat
  tteam : BitVec 16
  td : Bool
  ctr : List Word
  lim : List Word
  shadow : List Word
  shadows : List (List Word) -- shadow counters after each tentative token was evaluated (R405)
  drafts : List (BitVec 24)  -- ring entries of the tentative tokens, from position POS on (R404)
  pend : List Pending
  ring : List (BitVec 24)
  ents : List (BitVec 368)
  deriving DecidableEq, Repr, Inhabited

/-! ### Device -/

/-- Release record of a 128-B line (R220): the recorded releases, of up to four cores; `all` once a fifth core has released there, by which
time `named` only decides with what an acquire still synchronises. -/
structure RelRec where
  named : List Observed
  all : Bool
  deriving DecidableEq, Repr, Inhabited

/-- An export range (R439). -/
structure Export where
  base : Nat
  len : Nat
  devices : List Nat
  world : Bool
  deriving DecidableEq, Repr, Inhabited

/-- Gait (R458). `counters` is keyed 16 * block + word. -/
structure Gait where
  k : Nat
  m : Nat
  ring : Nat
  on : Bool
  frozen : Bool
  drop : BitVec 32
  written : Nat
  head : Nat
  counters : NMap Nat
  trig : Nat                 -- trigger that acts at the next tick: 0 none, 1 START, 2 STOP, 3 FREEZE (R459)
  deriving DecidableEq, Repr, Inhabited

/-- Latency monitor of an engine (R459): minimum, maximum, bins, the bin whose lower edge is the threshold, the percentile, and the
action (as `Gait.trig`). -/
structure Latency where
  min : Nat
  max : Nat
  bins : NMap Nat
  threshold : Option Nat
  percentile : Nat
  action : Nat
  deriving DecidableEq, Repr, Inhabited

/-- The histogram engine (R459). -/
structure Hist where
  ctx : Nat
  start : Nat
  shift : Nat
  bins : NMap Nat            -- key 4 * bin + reason
  last : NMap Nat            -- clock of an issue slot's last sample, by 4 * core + issue slot
  deriving DecidableEq, Repr, Inhabited

/-- What a start finds of the image that a kind has had since manufacture, where none is staged (R454): its version, whether the hash of its
public key is the fuses', whether its signature verifies. -/
structure Factory where
  version : Nat
  keyOk : Bool
  sigOk : Bool
  deriving DecidableEq, Repr, Inhabited

/-- The stored parameters of an HBM training with the device key's signature (R451), which is given by its index and by the bytes it signs. -/
structure Params where
  bytes : List Byte
  index : Nat
  signed : List Byte
  deriving DecidableEq, Repr, Inhabited

/-- Modes of the security and management controller (R451, R452, R460); a start has passed the steps before `step`. -/
inductive CtlMode where
  | running | notStarted | safeMode | fatal
  | starting (warm : Bool) (step : Nat)
  deriving DecidableEq, Repr, Inhabited

/-- What the sideband or the debug port last answered (R451 to R461). -/
inductive Answer where
  | none | ok | busy | refused | exhausted
  | data (bytes : List Byte)
  deriving DecidableEq, Repr

/-- The controller (R451 to R461). -/
structure Ctl where
  mode : CtlMode
  warmFails : Nat
  nextCold : Bool            -- the next start is a cold start (R452)
  attIndex : Nat
  rollback : NMap Nat        -- fused rollback version by kind of image (R454)
  measured : NMap (BitVec 256) -- measurement by kind of the staged images that the last start verified (R455)
  images : NMap Image        -- firmware images by kind: 0 controller, 1 core, 2 HBM training, 3 route tables, 4 class table (R451)
  factory : NMap Factory     -- images of manufacture by kind (R454)
  trained : Nat              -- number of the HBM training whose parameters are in force (R451, R455)
  params : Params            -- the stored parameters (R451)
  dumpSeq : BitVec 32        -- dumps written since manufacture (R460)
  dumpBase : Nat             -- the dump region (R460)
  debugFuse : Bool            -- the debug fuse is open (R461)
  debugUnlocked : Bool        -- a request of the Secure world has unlocked the debug port (R461)
  reply : Answer
  log : List Nat             -- 4 KiB error log: causes of logged ECC and link events (R448, R460)
  deriving DecidableEq, Repr

/-- The next thing the model's schedule asks for: an event row, or an issue of an issue slot. -/
inductive Move where
  | event (i : Instr)
  | issue (core isl : Nat)
  deriving DecidableEq, Repr

/-- The whole machine. -/
structure State where
  clock : Nat
  agenda : List (Nat × Move)
  turn : Nat × Nat
  freshCount : Nat
  nextId : Nat
  mem : NMap Byte            -- HBM by physical address; unlisted bytes 0 (R451 step 6)
  wstore : NMap Byte         -- weight store; unlisted bytes 0 (R204)
  wsSecure : List (Nat × Nat) -- weight-store regions of the Secure world (R236, R451): first byte, length
  remote : NMap (NMap Byte)  -- other endpoints: key 2^12 * (context + 1, or 0 for physical) + device
  poison : List Loc
  relRecs : NMap RelRec      -- by line number of the physical address
  past : List (Loc × List Byte) -- versions of 128-B lines that writes have replaced, newest first (R90)
  reqs : List Req
  deviceTlb : List TlbEntry
  cores : NMap Core
  slices : NMap Slice
  ctxs : NMap Ctx
  routes : NMap (BitVec 16)  -- key 4096 * table + device
  downPorts : List Nat
  exports : NMap Export
  groups : NMap (BitVec 33)
  leasesHeld : List (Nat × Nat × Nat)     -- (device, context at target, page)
  leasesGranted : List (Nat × Nat × Nat)  -- (device, context here, page)
  deviceNumber : BitVec 12
  classTable : NMap (BitVec 32)
  seqSlots : NMap SeqSlot
  bridleCache : List Nat
  drovers : NMap Nat         -- last context placed, by die; unlisted 63 (R347)
  powerCap : Nat
  gated : Bool
  gait : Gait
  hist : Hist
  latency : NMap Latency
  ctl : Ctl
  deriving DecidableEq, Repr

/-- The machine right after a cold start (R451): everything FREE, empty and zero, the power cap 3,400 W (R17). Values
the manual gives no reset for are named in log entries 1 to 5. -/
def State.reset : State where
  clock := 0
  agenda := []
  turn := (0, 0)
  freshCount := 0
  nextId := 0
  mem := []
  wstore := []
  wsSecure := []
  remote := []
  poison := []
  relRecs := []
  past := []
  reqs := []
  deviceTlb := []
  cores := []
  slices := []
  ctxs := []
  routes := []
  downPorts := []
  exports := []
  groups := []
  leasesHeld := []
  leasesGranted := []
  deviceNumber := 0
  classTable := []
  seqSlots := []
  bridleCache := []
  drovers := []
  powerCap := Config.powerCap
  gated := false
  gait := ⟨10, 4, 0, false, false, 0, 0, 0, [], 0⟩
  hist := ⟨0, 0, 0, [], []⟩
  latency := []
  ctl := ⟨.running, 0, false, 1, [], [], [], [], 0, ⟨Config.trainedParams 0, 0, Config.trainedParams 0⟩, 0, Config.dumpBase, false, false,
    .none, []⟩

end Sys2Proof.Machine
end

