-- ==== Sys2Proof/Machine/Maps.lean ====
section
/-! DEFINITION. Operations on sparse maps, masks, bit fields and byte order (R2, R3). -/

namespace Sys2Proof.Machine

/-! ### Sparse maps -/

/-- The entry at key `k`, if listed. -/
def nget {α : Type} (m : NMap α) (k : Nat) : Option α :=
  match m with
  | [] => none
  | (k', x) :: rest => if k' = k then some x else nget rest k

/-- The entry at key `k`, or `d`. -/
def ngetD {α : Type} (d : α) (m : NMap α) (k : Nat) : α := (nget m k).getD d

/-- Set the entry at key `k`, keeping the keys rising. -/
def nset {α : Type} (m : NMap α) (k : Nat) (x : α) : NMap α :=
  match m with
  | [] => [(k, x)]
  | (k', y) :: rest =>
    if k < k' then (k, x) :: (k', y) :: rest
    else if k' = k then (k, x) :: rest
    else (k', y) :: nset rest k x

/-- Remove the entry at key `k`. -/
def ndel {α : Type} (m : NMap α) (k : Nat) : NMap α :=
  match m with
  | [] => []
  | (k', y) :: rest => if k' = k then ndel rest k else (k', y) :: ndel rest k

/-- Set the entry at key `k`; setting what an unlisted key reads as removes it. -/
def nsetD {α : Type} [DecidableEq α] (d : α) (m : NMap α) (k : Nat) (x : α) : NMap α :=
  if x = d then ndel m k else nset m k x

/-- Replace the entry at key `k`, if listed. -/
def nupd {α : Type} (m : NMap α) (k : Nat) (f : α → α) : NMap α :=
  match nget m k with
  | some x => nset m k (f x)
  | none => m

/-- Canonical form: keys strictly rising above `lo`, and no entry equal to `d`. -/
def nwfFrom {α : Type} [DecidableEq α] (d : α) (lo : Nat) (m : NMap α) : Bool :=
  match m with
  | [] => true
  | (k, x) :: rest => decide (lo ≤ k) && decide (x ≠ d) && nwfFrom d (k + 1) rest

/-- Canonical form of a byte memory (R3, R204, R451): addresses strictly rising, no byte equal to the 0 that an
unlisted address reads as. -/
def memWf (m : List Host.Cell) : Bool := nwfFrom (0 : Byte) 0 m

/-! ### Masks -/

/-- The 32 lanes (R9). -/
def lanes : List Nat := List.range 32

/-- Whether a lane is in a mask. -/
def inMask (m : Mask) (l : Nat) : Bool := m.getLsbD l

/-- The mask of the lanes that satisfy `f`. -/
def maskOf (f : Nat → Bool) : Mask :=
  lanes.foldl (fun m l => if f l then m ||| (1#32 <<< l) else m) 0

/-- The lanes of a mask, ascending. -/
def lanesOf (m : Mask) : List Nat := lanes.filter (inMask m)

/-- The lowest lane of a mask (R284), 0 for the empty mask. -/
def lowest (m : Mask) : Nat := (lanesOf m).headD 0

/-! ### Numbers -/

/-- `x[h:l]` (R7). -/
def bits (x : Nat) (h l : Nat) : Nat := (x >>> l) % 2 ^ (h + 1 - l)

/-- `x[i]` as a Bool. -/
def bit (x : Nat) (i : Nat) : Bool := x.testBit i

/-- `sx(x, n)` (R7). -/
def sx (x n : Nat) : Int := let y := x % 2 ^ n; if y < 2 ^ (n - 1) then (y : Int) else (y : Int) - 2 ^ n

/-- `wrap(e, n)` as a natural number (R7). -/
def wrap (e : Int) (n : Nat) : Nat := (e % (2 ^ n : Nat)).toNat

/-- `wrap(e, n)` in a 64-bit word, zero above bit n - 1. -/
def wrapW (e : Int) (n : Nat) : DWord := BitVec.ofNat 64 (wrap e n)

/-- `clamp(e, lo, hi)` (R7). -/
def clamp (e lo hi : Int) : Int := max lo (min e hi)

/-- Bits of a width. -/
def wbits : Width → Nat
  | .w32 => 32
  | .w64 => 64

/-- Bytes of an access size (R75). -/
def sizeBytes : Size → Nat
  | .b8 => 1
  | .b16 => 2
  | .b32 => 4
  | .b64 => 8

/-- Rank of a scope, 0 TEAM to 5 SYSTEM (R9). -/
def scopeNum : Scope → Nat
  | .team => 0 | .core => 1 | .cluster => 2 | .die => 3 | .device => 4 | .system => 5

/-! ### Fields of a word, least significant first -/

/-- The fields of `x` with the given widths, least significant first. -/
def unpackL : List Nat → Nat → List Nat
  | [], _ => []
  | w :: ws, x => x % 2 ^ w :: unpackL ws (x / 2 ^ w)
/-- The number whose fields have the given widths and values. -/
def packL : List Nat → List Nat → Nat
  | w :: ws, v :: vs => v % 2 ^ w + 2 ^ w * packL ws vs
  | _, _ => 0

/-! ### Bytes, little-endian (R3) -/

/-- The value of bytes, first byte lowest. -/
def leNat : List Byte → Nat
  | [] => 0
  | b :: rest => b.toNat + 256 * leNat rest

/-- `n` bytes of a value, lowest first. -/
def leBytes : Nat → Nat → List Byte
  | 0, _ => []
  | n + 1, x => BitVec.ofNat 8 x :: leBytes n (x / 256)

/-- `n` bytes of a byte map from address `a`. -/
def getBytes (m : NMap Byte) (a n : Nat) : List Byte := (List.range n).map (fun i => ngetD 0 m (a + i))

/-- Store bytes from address `a`. -/
def putBytes (m : NMap Byte) (a : Nat) : List Byte → NMap Byte
  | [] => m
  | b :: rest => putBytes (nsetD 0 m a b) (a + 1) rest

/-- Element `i` of a list, or `d`. -/
def nth {α : Type} (d : α) (xs : List α) (i : Nat) : α := xs.getD i d

/-- Replace element `i` of a list. -/
def setNth {α : Type} (xs : List α) (i : Nat) (x : α) : List α := xs.set i x

/-- Insert into an ascending list without repeats. -/
def insAsc (x : Nat) : List Nat → List Nat
  | [] => [x]
  | y :: ys => if x < y then x :: y :: ys else if x = y then y :: ys else y :: insAsc x ys

/-- An ascending list of the elements of a list, without repeats. -/
def sortAsc (xs : List Nat) : List Nat := xs.foldl (fun acc x => insAsc x acc) []

/-- Insert before the first element that `x` comes before. -/
def insBy {α : Type} (lt : α → α → Bool) (x : α) : List α → List α
  | [] => [x]
  | y :: ys => if lt x y then x :: y :: ys else y :: insBy lt x ys
/-- Sort by a strict order. -/
def sortBy {α : Type} (lt : α → α → Bool) (xs : List α) : List α := xs.foldl (fun acc x => insBy lt x acc) []

/-- The first natural number below `n`, from `i` on, that satisfies `f`. -/
def findNat (f : Nat → Bool) : Nat → Nat → Option Nat
  | 0, _ => none
  | n + 1, i => if f i then some i else findNat f n (i + 1)

/-- Saturating increase of a 32-bit count held in a 64-bit register (R30, R35). -/
def satAdd32 (x : DWord) (k : Nat) : DWord := BitVec.ofNat 64 (min (x.toNat + k) (2 ^ 32 - 1))

end Sys2Proof.Machine
end

