-- ==== Sys2Proof/Machine/Legal.lean ====
section
/-! DEFINITION. What makes an instruction word legal as far as the word alone decides it (R66 to R70, R72 to R77,
R89, and the lists of R134, R154, R192, R259, R326, R393, R416). What depends on the team is checked at issue. -/

namespace Sys2Proof.Machine

/-! ### Operands (R66 to R69, R79) -/

/-- An unused operand position: all zero. -/
def opdZero (o : Opd) : Bool := o == .v 0
/-- An unused source position: all zero, its E and M bits too. -/
def srcZero (a : Src) : Bool := opdZero a.o && !a.e && !a.m
/-- Class 0b00. -/
def isV (o : Opd) : Bool := match o with | .v _ => true | _ => false
/-- Class 0b01. -/
def isS (o : Opd) : Bool := match o with | .s _ => true | _ => false
/-- A predicate. -/
def isP (o : Opd) : Bool := match o with | .p _ => true | _ => false
/-- A constant-table entry. -/
def isC (o : Opd) : Bool := match o with | .c _ => true | _ => false
/-- Class 0b11. -/
def isX (o : Opd) : Bool := match o with | .x _ => true | _ => false
/-- A lane register, even when it names a pair (R66, R67). -/
def vOk (o : Opd) (pair : Bool) : Bool := match o with | .v n => !pair || n.toNat % 2 == 0 | _ => false
/-- `d`: a v or s destination. -/
def dOk (o : Opd) (pair : Bool) : Bool := vOk o pair || isS o
/-- A buffer record b0 to b15 (R66). -/
def bOk (o : Opd) : Bool := match o with | .x n => decide (n.toNat < 16) | _ => false
/-- E and M bits: E on v and s only (R68), M not on constants or class 0b11 (R69). -/
def emOk (a : Src) (mAllowed : Bool) : Bool :=
  (!a.e || isV a.o || isS a.o) && (!a.m || (mAllowed && (isV a.o || isS a.o || isP a.o)))
/-- `lpc`, class 0b10 number 16. -/
def isLpc (o : Opd) : Bool := match o with | .lpc => true | _ => false
/-- `x`: v, s, constant, or `lpc`, which R27 reads through class 0b10 as a constant is (log entry 83). -/
def xOk (a : Src) (pair mAllowed : Bool) : Bool := (vOk a.o pair || isS a.o || isC a.o || isLpc a.o) && emOk a mAllowed
/-- s or constant. -/
def scOk (a : Src) (mAllowed : Bool) : Bool := (isS a.o || isC a.o) && emOk a mAllowed
/-- A predicate source. -/
def pOk (a : Src) : Bool := isP a.o && !a.e
/-- A block base: s, constant, or none (R300). -/
def baseOk (a : Src) : Bool := srcZero a || scOk a false
/-- Whether a source is of class 0b00 or a predicate, which a scalar destination forbids (R105, R135). -/
def laneSrc (a : Src) : Bool := (isV a.o || isP a.o)
/-- A scalar destination has no lane or predicate source among `as`. -/
def sDst (d : Opd) (as : List Src) : Bool := !isS d || as.all fun a => !laneSrc a

/-! ### Fields of the formats -/

/-- GN = 1 with GP = 7 is illegal (R70). -/
def headOk (h : Head) : Bool := !(h.gn && h.gp == 7)
/-- The guard *always* (R70). -/
def always (h : Head) : Bool := !h.gn && h.gp == 7
/-- XL and LANE for an instruction with a source A to which R73 applies. -/
def xlOk (x : RG) : Bool := if x.xl = .none then x.lane == 0 else isV x.a.o
/-- XL and LANE both zero. -/
def xlZero (x : RG) : Bool := x.xl == .none && x.lane == 0
/-- SLOT and RND zero (R72). -/
def srZero (x : RG) : Bool := x.slot == 0 && x.rnd == .slot
/-- B and C zero. -/
def bcZero (x : RG) : Bool := srcZero x.b && srcZero x.c
/-- Weak accesses have SCOPE 0 (R75). -/
def weakOk (x : MM) : Bool := x.ord != .weak || x.scope == .team
/-- With ACQ = REL = 0, SCOPE is 0 (R76). -/
def enScope (x : EN) : Bool := x.acq || x.rel || x.scope == .team
/-- IMM20 and CHAN zero. -/
def icZero (x : EN) : Bool := x.imm == 0 && x.chan == 0
/-- A 64-bit width names pairs. -/
def isPair : Width → Bool
  | .w32 => false
  | .w64 => true
/-- SIZE 3 needs a pair or a scalar (R128). -/
def pairSize (z : Size) : Bool := z == .b64
/-- FP64 operands are pairs. -/
def pairF : FW → Bool
  | .f32 => false
  | .f64 => true
/-- Whether a CVT type is 64 bits wide. -/
def cvtWide : CvtT → Bool
  | .fp64 | .s64 | .u64 => true
  | _ => false
/-- Whether a CVT type is a half format. -/
def cvtHalf : CvtT → Bool
  | .fp16 | .bf16 => true
  | _ => false

/-! ### Shapes -/

/-- Integer or FP register form D d, A x, B x, with C zero; `sub` is the largest SUB. -/
def legalAB (w : Bool) (sub : Nat) (x : RG) : Bool :=
  headOk x.h && dOk x.d w && xOk x.a w true && xOk x.b w true && srcZero x.c && sDst x.d [x.a, x.b] &&
  srZero x && xlOk x && decide (x.sub.toNat ≤ sub)
/-- As `legalAB` with C x. -/
def legalABC (w : Bool) (x : RG) : Bool :=
  headOk x.h && dOk x.d w && xOk x.a w true && xOk x.b w true && xOk x.c w true && sDst x.d [x.a, x.b, x.c] &&
  srZero x && xlOk x && x.sub == 0
/-- D d, A x. -/
def legalA (w : Bool) (x : RG) : Bool :=
  headOk x.h && dOk x.d w && xOk x.a w true && bcZero x && sDst x.d [x.a] && srZero x && xlOk x && x.sub == 0
/-- SEL: C is a predicate, so D is a lane register (R105). -/
def legalSel (w : Bool) (x : RG) : Bool :=
  headOk x.h && vOk x.d w && xOk x.a w true && xOk x.b w true && pOk x.c && srZero x && xlOk x && x.sub == 0
/-- Integer immediate form; `sg` where MOD[0] is signedness (R74). -/
def legalIm (w sg : Bool) (x : IM) : Bool :=
  headOk x.h && dOk x.d w && xOk x.a w true && sDst x.d [x.a] && decide (x.md.toNat ≤ (if sg then 1 else 0))
/-- MOVI and MOVH (R110). -/
def legalMovi (w : Bool) (x : IM) : Bool := headOk x.h && dOk x.d w && srcZero x.a && x.md == 0
def legalMovh (w : Width) (x : IM) : Bool :=
  legalMovi (isPair w) x && (w != .w32 || decide (x.imm.toNat < 2 ^ 16))
/-- ICMP (R111). -/
def legalIcmp (c : Cond) (w : Bool) (x : RG) : Bool :=
  c != .un && c != .or && headOk x.h && isP x.d && xOk x.a w true && xOk x.b w true && srcZero x.c && srZero x &&
  xlOk x && x.sub == 0
def legalIcmpIm (c : Cond) (w : Bool) (x : IM) : Bool :=
  c != .un && c != .or && headOk x.h && isP x.d && xOk x.a w true && x.md == 0
/-- FCMP (R144). -/
def legalFcmp (f : FW) (x : RG) : Bool :=
  headOk x.h && isP x.d && xOk x.a (pairF f) true && xOk x.b (pairF f) true && srcZero x.c && srZero x && xlOk x &&
  x.sub == 0
/-- PSET (R112). -/
def legalPset (x : RG) : Bool :=
  headOk x.h && isP x.d && pOk x.a && pOk x.b && srcZero x.c && srZero x && xlZero x && decide (x.sub.toNat ≤ 15)
/-- PMOV (R113). -/
def legalPmov (x : RG) : Bool :=
  headOk x.h && bcZero x && srZero x && xlOk x &&
  (match x.sub.toNat with
   | 0 => isP x.d && pOk x.a
   | 1 => isP x.d && xOk x.a false true
   | 2 => isP x.d && xOk x.a true true
   | 3 => vOk x.d false && pOk x.a
   | _ => false)
/-- FCLASS (R145). -/
def legalFclass (f : FW) (x : RG) : Bool :=
  headOk x.h && isP x.d && xOk x.a (pairF f) true && bcZero x && srZero x && xlOk x && decide (x.sub.toNat / 64 ≠ 3)
/-- CVT (R146, R147). -/
def legalCvt (dst src : CvtT) (x : RG) : Bool :=
  dst != src && headOk x.h && dOk x.d (cvtWide dst) && xOk x.a (cvtWide src) true && bcZero x && sDst x.d [x.a] &&
  xlOk x && decide (x.sub.toNat ≤ 3) && (!x.sub.getLsbD 0 || cvtHalf src) && (!x.sub.getLsbD 1 || cvtHalf dst)
/-- CVTQ (R148); the group rule needs the slot and is checked at issue. -/
def legalCvtq (quant : Bool) (x : RG) : Bool :=
  headOk x.h && vOk x.d false && (if quant then vOk x.a.o false && xlZero x else xOk x.a false true && xlOk x) &&
  emOk x.a true && (srcZero x.b || xOk x.b false true) && srcZero x.c && x.sub == 0

/-- FP register form with B, C as `b`, `c` say; RND zero unless `rnd` (R137 to R139, R154). -/
def legalFp (w b c rnd : Bool) (x : RG) : Bool :=
  headOk x.h && dOk x.d w && xOk x.a w true && (if b then xOk x.b w true else srcZero x.b) &&
  (if c then xOk x.c w true else srcZero x.c) &&
  sDst x.d ([x.a] ++ (if b then [x.b] else []) ++ (if c then [x.c] else [])) &&
  (rnd || x.rnd == .slot) && xlOk x && x.sub == 0
/-- FP immediate form (R141): MOD[5:3] is RND, 0 for FMIN and FMAX. -/
def legalFpIm (rnd : Bool) (x : IM) : Bool :=
  headOk x.h && dOk x.d false && xOk x.a false true && sDst x.d [x.a] &&
  decide (x.md.toNat / 8 ≤ (if rnd then 4 else 0))
/-- TAGRD and TAGWR (R151, R152). -/
def legalTagrd (x : RG) : Bool :=
  headOk x.h && dOk x.d false && xOk x.a (x.sub == 1) false && bcZero x && sDst x.d [x.a] && srZero x && xlOk x &&
  decide (x.sub.toNat ≤ 1)
def legalTagwr (x : RG) : Bool :=
  headOk x.h && dOk x.d (x.sub == 1) && xOk x.a (x.sub == 1) true && xOk x.b false true && srcZero x.c &&
  sDst x.d [x.a, x.b] && srZero x && xlOk x && decide (x.sub.toNat ≤ 1)
/-- PSIG (R153). -/
def legalPsig (c : Cond) (x : IM) : Bool :=
  c != .un && c != .or && headOk x.h && isP x.d && xOk x.a (x.md == 2) true && decide (x.md.toNat ≤ 2) &&
  decide (x.imm.toNat < 64)

/-- BRA (R114); the target is checked at issue (R77). -/
def legalBra (x : BR) : Bool := headOk x.h && opdZero x.d
def legalCall (x : BR) : Bool := headOk x.h && dOk x.d false
/-- BRX and RET (R115). -/
def legalBrx (x : RG) : Bool :=
  headOk x.h && opdZero x.d && xOk x.a false true && bcZero x && srZero x && xlOk x && x.sub == 0
/-- EXIT, HALT, NOP (R117 to R119), and with `sub` ERET (R123). -/
def legalNone (sub : Nat) (x : RG) : Bool :=
  headOk x.h && opdZero x.d && srcZero x.a && bcZero x && srZero x && xlZero x && x.sub.toNat == sub
/-- FEWAIT (R120). -/
def legalFewait (x : RG) : Bool :=
  headOk x.h && opdZero x.d && dOk x.a.o false && emOk x.a true && bcZero x && srZero x && xlOk x &&
  decide (x.sub.toNat ≤ 1) && (x.sub == 0 || vOk x.a.o true)
/-- FESET and FECLR (R121). -/
def legalFeset (x : RG) : Bool :=
  headOk x.h && (dOk x.d false || isP x.d) && srcZero x.a && bcZero x && srZero x && xlZero x &&
  decide (x.sub.toNat ≤ 1) && (x.sub == 0 || vOk x.d true)
/-- A register count of RGROW and RSHR (R185). -/
def growOk (imm : Word) : Bool := imm.toNat % 16 == 0 && decide (16 ≤ imm.toNat) && decide (imm.toNat ≤ 224)
def legalRgrow (x : IM) : Bool := headOk x.h && isP x.d && srcZero x.a && x.md == 0 && growOk x.imm
def legalRshr (x : IM) : Bool := headOk x.h && opdZero x.d && srcZero x.a && x.md == 0 && growOk x.imm
/-- TRAP (R122). -/
def legalTrap (x : IM) : Bool := headOk x.h && opdZero x.d && srcZero x.a && x.md == 0
/-- Control registers of R30. -/
def crListed (n : Nat) : Bool :=
  [0, 1, 2, 8, 9, 10, 11, 12, 13, 14, 15, 0x10, 0x11, 0x12, 0x13, 0x14, 0x18, 0x19, 0x20,
   0x28, 0x29, 0x2A, 0x2B, 0x2C, 0x2D, 0x2E, 0x2F, 0x30, 0x38, 0x39, 0x3A].contains n
/-- CRD (R124, R31). -/
def legalCrd (x : IM) : Bool :=
  headOk x.h && dOk x.d (x.md == 1) && srcZero x.a && decide (x.md.toNat ≤ 1) && crListed x.imm.toNat &&
  !(x.imm == 8 && isS x.d)
/-- CWR (R125). -/
def legalCwr (x : IM) : Bool :=
  headOk x.h && opdZero x.d && scOk x.a true && decide (x.md.toNat ≤ 1) && crListed x.imm.toNat

/-- Cross-lane operations (R172 to R180). -/
def legalLshf (x : RG) : Bool :=
  let w := x.sub.getLsbD 2
  headOk x.h && vOk x.d w && vOk x.a.o w && emOk x.a false && srcZero x.c && srZero x &&
  decide (x.sub.toNat < 8) && decide (x.sub.toNat % 4 ≠ 3) &&
  (if x.xl = .none then x.lane == 0 && xOk x.b false true else srcZero x.b)
def legalLbc (x : RG) : Bool :=
  let w := x.sub.getLsbD 1
  headOk x.h && dOk x.d w && vOk x.a.o w && emOk x.a false && bcZero x && srZero x && x.xl == .none &&
  decide (x.sub.toNat ≤ 3) && (if x.sub.getLsbD 0 then x.lane == 0 else decide (x.lane.toNat < 32))
def legalLvote (x : RG) : Bool :=
  headOk x.h && pOk x.a && bcZero x && srZero x && xlZero x && decide (x.sub.toNat ≤ 3) &&
  (if x.sub == 3 then dOk x.d false else isP x.d)
/-- The operation code of LSCAN and LRED (R176). -/
def laneOp (x : RG) : Nat := x.sub.toNat % 16
/-- Whether LSCAN or LRED works on pairs. -/
def lanePair (x : RG) : Bool := x.sub.getLsbD 4 || decide (11 ≤ laneOp x)
def legalLane (scan : Bool) (x : RG) : Bool :=
  headOk x.h && (if scan then vOk x.d (lanePair x) else dOk x.d (lanePair x)) && vOk x.a.o (lanePair x) &&
  emOk x.a false && bcZero x && xlZero x && decide (laneOp x ≤ 13) && decide (x.sub.toNat < 64) &&
  (scan || !x.sub.getLsbD 5) &&
  (if laneOp x < 8 then srZero x else !x.sub.getLsbD 4 && (laneOp x == 8 || laneOp x == 11 || x.rnd == .slot))
def legalLelect (x : RG) : Bool :=
  headOk x.h && isP x.d && pOk x.a && bcZero x && srZero x && xlZero x && decide (x.sub.toNat ≤ 1)
def legalLpc (x : RG) : Bool :=
  headOk x.h && dOk x.d false && srcZero x.a && bcZero x && srZero x && xlZero x && decide (x.sub.toNat ≤ 4)
/-- Barriers (R181); the level is checked at issue. -/
def legalBar (x : IM) : Bool :=
  headOk x.h && opdZero x.d && srcZero x.a && x.md == 0 && decide (x.imm.toNat < 256)
/-- TOPKI (R188). -/
def legalTopki (x : RG) : Bool :=
  headOk x.h && vOk x.d false && xOk x.a false true && xOk x.b false true && srcZero x.c && srZero x && xlOk x &&
  decide (x.sub.toNat < 16)
/-- RNG (R190). -/
def legalRng (x : RG) : Bool :=
  headOk x.h && dOk x.d (x.sub == 0) && xOk x.a true false && xOk x.b true true && srcZero x.c &&
  sDst x.d [x.a, x.b] && srZero x && xlOk x && decide (x.sub.toNat ≤ 1)

/-- Plain memory (R128 to R131). -/
def legalLd (x : MM) : Bool :=
  headOk x.h && dOk x.d (pairSize x.size) && xOk x.a false false && srcZero x.b && weakOk x && x.ord != .rel &&
  sDst x.d [x.a]
def legalSt (x : MM) : Bool :=
  headOk x.h && opdZero x.d && xOk x.a false false && xOk x.b (pairSize x.size) false && weakOk x && x.ord != .acq &&
  x.slot == 0
def legalPref (x : MM) : Bool :=
  headOk x.h && opdZero x.d && xOk x.a false false && srcZero x.b && x.ord == .weak && x.scope == .team && x.slot == 0
def legalBrld (x : MM) : Bool :=
  headOk x.h && bOk x.d && scOk x.a false && srcZero x.b && weakOk x && x.ord != .rel && x.size == .b64 && x.slot == 0
/-- BRMK (R133). -/
def legalBrmk (x : RG) : Bool :=
  headOk x.h && bOk x.d && emOk x.a true && (match x.a.o with | .s m => m.toNat % 4 == 0 | _ => false) &&
  bcZero x && srZero x && xlZero x && x.sub == 0
/-- Addressing modes of LDS and STS (R231), A and B as the mode needs them. -/
def scrOk (x : MM) : Bool :=
  let m := x.brec.toNat
  let k := m % 4
  (m == 0 || (decide (1 ≤ k) && decide (m < 8))) &&
  (if m == 0 then srcZero x.b else emOk x.b false) &&
  (m == 0 || (match x.b.o with
    | .s n => decide (n.toNat + (if 4 ≤ m then 3 else 2) ≤ 63)
    | _ => false)) &&
  xOk x.a false false &&
  (decide (k ≤ 1) || (match x.a.o with
    | .v n => decide (n.toNat + (k - 1) ≤ 255)
    | .s n => decide (n.toNat + (k - 1) ≤ 63)
    | _ => false)) &&
  decide (x.cache.toNat ≤ 1)
def legalLds (x : MM) : Bool :=
  headOk x.h && dOk x.d (pairSize x.size) && scrOk x && weakOk x && x.ord != .rel && sDst x.d [x.a]
def legalSts (x : MM) : Bool :=
  headOk x.h && dOk x.d (pairSize x.size) && scrOk x && weakOk x && x.ord != .acq && x.slot == 0
/-- LDW (R236). -/
def legalLdw (x : MM) : Bool :=
  headOk x.h && dOk x.d (pairSize x.size) && xOk x.a false false && srcZero x.b && x.ord == .weak && x.scope == .team &&
  x.cache == 0 && decide (x.brec.toNat ≤ 1) && sDst x.d [x.a]
/-- Tickets (R238, R241, R245). -/
def legalLdt (x : MM) : Bool :=
  headOk x.h && dOk x.d true && xOk x.a false false && srcZero x.b && x.ord == .weak && x.scope == .team && sDst x.d [x.a]
def legalRdm (x : RG) : Bool :=
  headOk x.h && dOk x.a.o true && emOk x.a true && isP x.c.o && !x.c.e && !x.c.m && srZero x && xlZero x &&
  (match x.sub.toNat with
   | 0 => vOk x.d false && srcZero x.b
   | 2 => vOk x.d true && srcZero x.b
   | 1 => opdZero x.d && xOk x.b false true
   | _ => false)
def legalTkdrop (x : RG) : Bool :=
  headOk x.h && isP x.d && dOk x.a.o true && emOk x.a true && bcZero x && srZero x && xlZero x && x.sub == 0
/-- Read-modify-writes (R246 to R251). -/
def legalAtom (x : MM) : Bool :=
  headOk x.h && (x.size == .b32 || x.size == .b64) && dOk x.d (pairSize x.size) && xOk x.a false false &&
  xOk x.b (pairSize x.size) false && sDst x.d [x.a, x.b] && x.slot == 0
def legalXred (f : FW) (x : MM) : Bool :=
  headOk x.h && x.size == (if f = .f32 then .b32 else .b64) && opdZero x.d && xOk x.a false false &&
  xOk x.b (pairF f) false && x.ord != .acq && x.slot == 0
def legalXrd (f : FW) (x : MM) : Bool :=
  headOk x.h && x.size == (if f = .f32 then .b32 else .b64) && dOk x.d (pairF f) && xOk x.a false false &&
  srcZero x.b && sDst x.d [x.a]
def legalExpq (x : MM) : Bool :=
  headOk x.h && x.size == .b64 && dOk x.d false && xOk x.a false false && xOk x.b true false && sDst x.d [x.a, x.b] &&
  x.slot == 0
/-- FENCE (R253). -/
def legalFence (x : EN) : Bool :=
  headOk x.h && (x.acq || x.rel) && opdZero x.d && srcZero x.a && srcZero x.b && x.slot == 0 && icZero x
/-- LNWAIT, LNSET, LNCLR (R254). -/
def legalLn (sub : Nat) (x : RG) : Bool :=
  headOk x.h && opdZero x.d && xOk x.a false true && xOk x.b false true && srcZero x.c && srZero x && xlZero x &&
  decide (x.sub.toNat ≤ sub)
/-- Register image of SPL and FIL (R256): first register and count m − 1. -/
def imageOk (o : Opd) (sub : BitVec 8) : Bool :=
  decide (sub.toNat < 32) &&
  (match o with
   | .v n => decide (n.toNat + sub.toNat ≤ 255)
   | .s n => decide (sub.toNat < 15) && decide (n.toNat + sub.toNat ≤ 63)
   | .p n => n == 0 && sub == 0
   | _ => false)
def legalSpl (x : RG) : Bool :=
  headOk x.h && opdZero x.d && imageOk x.a.o x.sub && !x.a.e && !x.a.m && scOk x.b true && srcZero x.c && srZero x && xlZero x
def legalFil (x : RG) : Bool :=
  headOk x.h && imageOk x.d x.sub && srcZero x.a && scOk x.b true && srcZero x.c && srZero x && xlZero x

/-- Engines (R300): an instruction with a parameter block. -/
def legalCpy (x : EN) : Bool :=
  headOk x.h && opdZero x.d && srcZero x.a && baseOk x.b && decide (x.chan.toNat < 8) && x.imm.toNat % 64 == 0 &&
  enScope x && x.slot == 0
def legalWpwait (x : EN) : Bool :=
  headOk x.h && opdZero x.d && xOk x.a false false && srcZero x.b && decide (x.chan.toNat < 8) && x.imm == 0 && !x.rel &&
  enScope x && x.slot == 0
/-- Tile operations with destination D; `blk` with a parameter block. -/
def legalTileD (blk : Bool) (x : EN) : Bool :=
  headOk x.h && isX x.d && srcZero x.a && (if blk then baseOk x.b else srcZero x.b) && x.chan == 0 &&
  (if blk then x.imm.toNat % 64 == 0 else x.imm == 0) && enScope x
def legalTalloc (x : EN) : Bool := legalTileD true x
def legalTile (blk : Bool) (x : EN) : Bool := legalTileD blk x && x.slot == 0
def legalTst (x : EN) : Bool :=
  headOk x.h && opdZero x.d && isX x.a.o && emOk x.a false && baseOk x.b && x.chan == 0 && x.imm.toNat % 64 == 0 &&
  enScope x && x.slot == 0
def legalTinfo (x : EN) : Bool :=
  headOk x.h && (match x.d with | .s n => n.toNat % 2 == 0 | .v n => n.toNat % 4 == 0 | _ => false) &&
  isX x.a.o && emOk x.a false && srcZero x.b && icZero x && !x.acq && !x.rel && x.scope == .team && x.slot == 0
def legalTwait (x : EN) : Bool :=
  headOk x.h && opdZero x.d && isX x.a.o && emOk x.a false && srcZero x.b && icZero x && !x.rel && enScope x && x.slot == 0
def legalTtrs (x : EN) : Bool :=
  headOk x.h && isX x.d && isX x.a.o && emOk x.a false && srcZero x.b && x.chan == 0 && decide (x.imm.toNat ≤ 3) &&
  enScope x && x.slot == 0
def legalColl (x : EN) : Bool :=
  headOk x.h && opdZero x.d && srcZero x.a && baseOk x.b && x.imm.toNat % 64 == 0 && enScope x && x.slot == 0
def legalLaunch (x : EN) : Bool :=
  headOk x.h && dOk x.d true && scOk x.a false && bOk x.b.o && emOk x.b false && icZero x && !x.acq && enScope x && x.slot == 0
def legalEv (wait : Bool) (x : EN) : Bool :=
  headOk x.h && opdZero x.d && baseOk x.a && (srcZero x.b || (isS x.b.o && emOk x.b false)) && x.chan == 0 &&
  decide (x.imm.toNat < 4096) && (if wait then !x.rel else !x.acq) && enScope x && x.slot == 0

/-- Fields common to the Bridle instructions in RG format (R408). -/
def seqCommon (x : RG) : Bool := headOk x.h && srZero x && xlZero x && !x.a.m && !x.b.m
def legalSeqcm (x : RG) : Bool :=
  seqCommon x && dOk x.d false && xOk x.a false false && xOk x.b false false && decide (x.sub.toNat ≤ 1) &&
  (if x.sub == 1 then pOk x.c else srcZero x.c) && sDst x.d ([x.a, x.b] ++ (if x.sub == 1 then [x.c] else []))
def legalSeqAB (x : RG) : Bool :=
  seqCommon x && dOk x.d false && xOk x.a false false && xOk x.b false false && srcZero x.c && sDst x.d [x.a, x.b] &&
  x.sub == 0
def legalSeqA (pair : Bool) (sub : Nat) (x : RG) : Bool :=
  seqCommon x && dOk x.d pair && xOk x.a false false && bcZero x && sDst x.d [x.a] && x.sub.toNat == sub
def legalSeqrdTrap (x : RG) : Bool :=
  seqCommon x && dOk x.d true && srcZero x.a && bcZero x && x.sub == 2
def legalSeqwpEnt (x : RG) : Bool :=
  seqCommon x && dOk x.d false && xOk x.a false false && xOk x.b false false && xOk x.c false true &&
  sDst x.d [x.a, x.b, x.c] && x.sub == 0
def legalSeqwpCtr (x : RG) : Bool :=
  seqCommon x && dOk x.d false && xOk x.a false false && xOk x.b false false && dOk x.c.o true && emOk x.c true &&
  sDst x.d [x.a, x.b, x.c] && x.sub == 1
def legalSeqwpNrec (x : RG) : Bool :=
  seqCommon x && dOk x.d false && srcZero x.a && bOk x.b.o && emOk x.b false && srcZero x.c && x.sub == 3
def legalSeqfn (x : EN) : Bool :=
  headOk x.h && opdZero x.d && srcZero x.a && srcZero x.b && x.scope == .team && !x.acq && !x.rel && x.slot == 0 && icZero x

/-- Fabric (R445). -/
def legalRld (x : MM) : Bool :=
  headOk x.h && (x.size == .b32 || x.size == .b64) &&
  (if x.size == .b64 then dOk x.d true else vOk x.d false) && xOk x.a false false && srcZero x.b && weakOk x &&
  x.ord != .rel && sDst x.d [x.a]
/-- Fields common to DHARV and TLBINV (R362). -/
def legalPriv (x : EN) : Bool :=
  headOk x.h && opdZero x.d && srcZero x.b && x.slot == 0 && x.chan == 0 && !x.acq && !x.rel && x.scope == .team
def legalDharv (x : EN) : Bool := legalPriv x && srcZero x.a && decide (x.imm.toNat < 128)
def legalTlbinv (mode : Nat) (x : EN) : Bool :=
  legalPriv x && x.imm.toNat / 64 == mode && (if mode == 0 then scOk x.a false else srcZero x.a)
/-- DBGBRK (R392, R393). -/
def legalDbg (op : Nat) (x : IM) : Bool :=
  headOk x.h && isS x.d && (match x.a.o with | .s n => decide (n.toNat ≤ 61) | _ => false) && emOk x.a true &&
  x.md == 0 && x.imm.toNat == op

/-- Whether an instruction's fields are legal. Events have no word and are always well formed. -/
def legal : Instr → Bool
  | .iadd w x => legalAB (isPair w) 0 x
  | .iaddIm w x => legalIm (isPair w) false x
  | .isub w x => legalAB (isPair w) 0 x
  | .isubIm w x => legalIm (isPair w) false x
  | .imul w x => legalAB (isPair w) 0 x
  | .imulIm w x => legalIm (isPair w) false x
  | .imulh w x => legalAB (isPair w) 1 x
  | .imad w x => legalABC (isPair w) x
  | .idiv w x => legalAB (isPair w) 1 x
  | .irem w x => legalAB (isPair w) 1 x
  | .imin w x => legalAB (isPair w) 1 x
  | .iminIm w x => legalIm (isPair w) true x
  | .imax w x => legalAB (isPair w) 1 x
  | .imaxIm w x => legalIm (isPair w) true x
  | .iabs w x => legalA (isPair w) x
  | .and w x => legalAB (isPair w) 0 x
  | .andIm w x => legalIm (isPair w) false x
  | .or w x => legalAB (isPair w) 0 x
  | .orIm w x => legalIm (isPair w) false x
  | .xor w x => legalAB (isPair w) 0 x
  | .xorIm w x => legalIm (isPair w) false x
  | .andn w x => legalAB (isPair w) 0 x
  | .andnIm w x => legalIm (isPair w) false x
  | .shl w x => legalAB (isPair w) 0 x
  | .shlIm w x => legalIm (isPair w) false x
  | .shr w x => legalAB (isPair w) 0 x
  | .shrIm w x => legalIm (isPair w) false x
  | .sar w x => legalAB (isPair w) 0 x
  | .sarIm w x => legalIm (isPair w) false x
  | .rol w x => legalAB (isPair w) 0 x
  | .rolIm w x => legalIm (isPair w) false x
  | .popc w x => legalA (isPair w) x
  | .clz w x => legalA (isPair w) x
  | .brev w x => legalA (isPair w) x
  | .bfx w x => legalAB (isPair w) 1 x
  | .bfi w x => legalABC (isPair w) x
  | .sel w x => legalSel (isPair w) x
  | .mov w x => legalA (isPair w) x
  | .movi w x => legalMovi (isPair w) x
  | .movh w x => legalMovh w x
  | .icmp c _ w x => legalIcmp c (isPair w) x
  | .icmpIm c _ w x => legalIcmpIm c (isPair w) x
  | .fcmp _ f x => legalFcmp f x
  | .pset x => legalPset x
  | .pmov x => legalPmov x
  | .fclass f x => legalFclass f x
  | .cvt d e x => legalCvt d e x
  | .cvtqQuantise x => legalCvtq true x
  | .cvtqDequantise x => legalCvtq false x
  | .fadd x => legalFp false true false true x
  | .faddIm x => legalFpIm true x
  | .fsub x => legalFp false true false true x
  | .fsubIm x => legalFpIm true x
  | .fmul x => legalFp false true false true x
  | .fmulIm x => legalFpIm true x
  | .ffma x => legalFp false true true true x
  | .fmin x => legalFp false true false false x
  | .fminIm x => legalFpIm false x
  | .fmax x => legalFp false true false false x
  | .fmaxIm x => legalFpIm false x
  | .fdiv x => legalFp false true false true x
  | .fsqrt x => legalFp false false false true x
  | .frcp x => legalFp false false false true x
  | .fexp2 x => legalFp false false false true x
  | .flog2 x => legalFp false false false true x
  | .hadd2 _ x => legalFp false true false true x
  | .hmul2 _ x => legalFp false true false true x
  | .hfma2 _ x => legalFp false true true true x
  | .dadd x => legalFp true true false true x
  | .dsub x => legalFp true true false true x
  | .dmul x => legalFp true true false true x
  | .dfma x => legalFp true true true true x
  | .dmin x => legalFp true true false false x
  | .dmax x => legalFp true true false false x
  | .ddiv x => legalFp true true false true x
  | .dsqrt x => legalFp true false false true x
  | .tagrd x => legalTagrd x
  | .tagwr x => legalTagwr x
  | .psig c x => legalPsig c x
  | .bra x => legalBra x
  | .call x => legalCall x
  | .brx x => legalBrx x
  | .ret x => legalBrx x
  | .exit x => legalNone 0 x
  | .halt x => legalNone 0 x
  | .nop x => legalNone 0 x
  | .fewait x => legalFewait x
  | .feset x => legalFeset x
  | .feclr x => legalFeset x
  | .rgrow x => legalRgrow x
  | .rshr x => legalRshr x
  | .trap x => legalTrap x
  | .eretRestart x => legalNone 0 x && always x.h
  | .eretSkip x => legalNone 1 x && always x.h
  | .crd x => legalCrd x
  | .cwr x => legalCwr x
  | .lshf x => legalLshf x
  | .lbc x => legalLbc x
  | .lvote x => legalLvote x
  | .lscan x => legalLane true x
  | .lred x => legalLane false x
  | .lelect x => legalLelect x
  | .lpc x => legalLpc x
  | .barSync x => legalBar x
  | .barArv x => legalBar x
  | .barWait x => legalBar x
  | .topki x => legalTopki x
  | .rng x => legalRng x
  | .ld x => legalLd x
  | .st x => legalSt x
  | .pref x => legalPref x
  | .brld x => legalBrld x
  | .brmk x => legalBrmk x
  | .lds x => legalLds x
  | .sts x => legalSts x
  | .ldw x => legalLdw x
  | .ldt x => legalLdt x
  | .rdm x => legalRdm x
  | .tkdrop x => legalTkdrop x
  | .atomAdd x => legalAtom x
  | .atomUmin x => legalAtom x
  | .atomUmax x => legalAtom x
  | .atomSmin x => legalAtom x
  | .atomSmax x => legalAtom x
  | .atomAnd x => legalAtom x
  | .atomOr x => legalAtom x
  | .atomXor x => legalAtom x
  | .atomExch x => legalAtom x
  | .atomCas x => legalAtom x
  | .xredFp32 x => legalXred .f32 x
  | .xredFp64 x => legalXred .f64 x
  | .xrdFp32 x => legalXrd .f32 x
  | .xrdFp64 x => legalXrd .f64 x
  | .expq x => legalExpq x
  | .fence x => legalFence x
  | .lnwait x => legalLn 1 x
  | .lnset x => legalLn 0 x
  | .lnclr x => legalLn 0 x
  | .spl x => legalSpl x
  | .fil x => legalFil x
  | .cpy x => legalCpy x
  | .cpyc x => legalCpy x
  | .wpwait x => legalWpwait x
  | .talloc x => legalTalloc x
  | .tfree x => legalTile false x
  | .tzero x => legalTile false x
  | .tld x => legalTile true x
  | .tlr x => legalTile true x
  | .tst x => legalTst x
  | .tinfo x => legalTinfo x
  | .twait x => legalTwait x
  | .tmul x => legalTile true x
  | .tadd x => legalTile true x
  | .trnd x => legalTile false x
  | .tdns x => legalTile false x
  | .tfac x => legalTile false x
  | .ttrs x => legalTtrs x
  | .coll x => legalColl x
  | .launch x => legalLaunch x
  | .evsig x => legalEv false x
  | .evwait x => legalEv true x
  | .seqcm x => legalSeqcm x
  | .seqcmT x => legalSeqAB x
  | .seqcf x => legalSeqAB x
  | .seqfn x => legalSeqfn x
  | .seqrdNext x => legalSeqA true 0 x
  | .seqrdPeek x => legalSeqA true 1 x
  | .seqrdTrap x => legalSeqrdTrap x
  | .seqwpEnt x => legalSeqwpEnt x
  | .seqwpCtr x => legalSeqwpCtr x
  | .seqwpInit x => legalSeqA false 2 x
  | .seqwpNrec x => legalSeqwpNrec x
  | .seqrelGo x => legalSeqA false 0 x
  | .seqrelStop x => legalSeqA false 1 x
  | .seqrelFree x => legalSeqA false 2 x
  | .mst x => legalSt x
  | .rld x => legalRld x
  | .dharv x => legalDharv x
  | .tlbinvPage x => legalTlbinv 0 x
  | .tlbinvCtx x => legalTlbinv 1 x
  | .tlbinvAll x => legalTlbinv 2 x
  | .dbgbrkHalt x => legalDbg 0 x
  | .dbgbrkResume x => legalDbg 1 x
  | .dbgbrkStep x => legalDbg 2 x
  | .dbgbrkBack x => legalDbg 3 x
  | .dbgbrkBrk x => legalDbg 4 x
  | .dbgbrkClr x => legalDbg 5 x
  | .dbgbrkDbg x => legalDbg 6 x
  | .tenureGrant .. | .loadDataArrival .. | .ldsDataArrival .. | .cvtqScaleArrival .. | .ldtTicketAllocated ..
    | .ticketDataArrival .. | .ticketLifetimeExpiry .. | .redeemMatch .. | .rdmVerdictReturn .. | .rdmDataDelivery ..
    | .sliceRmwPerform .. | .exactContribution .. | .xrdReadoutArrival .. | .queueAppend .. | .filImageArrival ..
    | .rldReadoutArrival .. | .seqReply .. | .launchTaken .. | .barrierPhaseComplete .. | .rgrowGrant ..
    | .rgrowDeny .. | .trapDelivery .. | .faultRecordWrite .. | .ackRead .. | .replay .. | .watchdogExpiry ..
    | .promotionRequest .. | .releaseRecordEvict .. | .weightStoreRefresh | .copyCommandStart ..
    | .cpycCommandStart .. | .copyLineLands .. | .copyCommandEnd .. | .tileOpStart .. | .tileOpCommit ..
    | .remoteTileServe .. | .multicastDelivery .. | .multicastBufferDrain .. | .collJoin .. | .joinLimitExpiry ..
    | .zephyrChunkLands .. | .zephyrReadout .. | .collComplete .. | .seqCommitEval .. | .seqTentativeEval ..
    | .seqConfirmation .. | .bridleRecordFetch .. | .queueTailRead .. | .queueReset .. | .launchStart ..
    | .launchComplete .. | .droverPlacement .. | .steal .. | .contextCreate .. | .contextTeardown ..
    | .preemptRequest .. | .drainDeadlineExpiry .. | .suspensionComplete .. | .suspendDeadlineExpiry ..
    | .contextReset .. | .contextRestore .. | .debugStopReached .. | .portFailure .. | .routeTableRebuild ..
    | .communicatorRebuild .. | .dieLinkFailure .. | .leaseRequest .. | .leaseRecall .. | .poisonConsumed ..
    | .thermalTrip .. | .coldStart .. | .warmStart .. | .attestationRequest .. | .powerCapSet .. | .dumpRead ..
    | .valid | .firmwareStaging .. | .worldReassignment .. | .classTableWrite .. | .peerWindowWrite .. | .gaitTick ..
    | .histogramSample .. | .issueGating .. | .translationFault .. | .writePerformed .. | .eventAdd ..
    | .tlbEviction .. | .uncorrectableError .. | .firmwareCheckFailure | .peerAccessAtTarget .. | .debugPortAccess .. => true

end Sys2Proof.Machine
end

