-- ==== Sys2Proof/WellFormed.lean ====
section
/-! DEFINITION. Well-formed instructions: the ones whose word passes every check of R89 that the word alone decides.
The checks themselves stand in Machine/Legal.lean. -/

namespace Sys2Proof

/-- An instruction that an instruction word can hold. -/
def Instr.wf (i : Instr) : Bool := Machine.legal i

end Sys2Proof
end

