-- ==== Sys2Proof/Decode.lean ====
section
/-! DEFINITION. Decoding: twelve bytes to an instruction or a refusal by name (R64 to R90), and the encoder. -/

namespace Sys2Proof

open Machine (unpackL packL srcZero)

/-- Why bytes are not an instruction (R89). -/
inductive Reject where
  /-- Fewer than 12 bytes. -/
  | short
  /-- A MAJ value, or an FN value under it, that the tables of R80 to R88 do not list. -/
  | unassigned
  /-- A nonzero Zero field (R65, R72, R76). -/
  | zeroField
  /-- An operand class or number that R66 does not list. -/
  | operand
  /-- A reserved code in RND, XL, SCOPE or SIZE, or a nonzero field B or A of a format without one (R73 to R77). -/
  | code
  /-- A check of the instruction's own entry (`Instr.wf`). -/
  | illegal
  deriving DecidableEq, Repr

/-! ### Bytes and words (R64) -/

/-- The instruction word in 12 bytes, stored as three little-endian 32-bit parts, highest part first (R64). -/
def wordOfBytes (bs : List Byte) : Nat :=
  Machine.leNat (bs.take 4) * 2 ^ 64 + Machine.leNat ((bs.drop 4).take 4) * 2 ^ 32 + Machine.leNat ((bs.drop 8).take 4)

/-- The 12 bytes of an instruction word (R64). -/
def bytesOfWord (w : Nat) : List Byte :=
  Machine.leBytes 4 (w / 2 ^ 64) ++ Machine.leBytes 4 (w / 2 ^ 32) ++ Machine.leBytes 4 w

/-! ### Fields, least significant first (R65, R72, R74 to R77) -/

/-- Widths of X, BM, BN, BC, BE, AM, AN, AC, AE, DN, DC, Zero, YLD, RGN, END, GP, GN, FN, MAJ (R65). -/
def wordFields : List Nat := [38, 1, 8, 2, 1, 1, 8, 2, 1, 8, 2, 3, 1, 1, 1, 3, 1, 6, 8]
/-- Widths of SUB, Zero, LANE, XL, RND, SLOT, CM, CN, CC, CE (R72). -/
def rgFields : List Nat := [8, 3, 6, 3, 3, 3, 1, 8, 2, 1]
/-- Widths of IMM32, MOD (R74). -/
def imFields : List Nat := [32, 6]
/-- Widths of OFS, CACHE, SLOT, SIZE, ORD, SCOPE, BREC (R75). -/
def mmFields : List Nat := [21, 2, 3, 3, 2, 3, 4]
/-- Widths of IMM20, CHAN, SLOT, REL, ACQ, SCOPE, Zero (R76). -/
def enFields : List Nat := [20, 6, 3, 1, 1, 3, 4]

/-- A class and number as an operand (R66). -/
def opdOf (cls num : Nat) : Option Opd :=
  match cls with
  | 0 => some (.v (BitVec.ofNat 8 num))
  | 1 => if num < 64 then some (.s (BitVec.ofNat 6 num)) else none
  | 2 =>
    if num < 8 then some (.p (BitVec.ofNat 3 num))
    else if num = 16 then some .lpc
    else if 32 ≤ num ∧ num < 64 then some (.c (BitVec.ofNat 5 (num - 32)))
    else none
  | _ => if num < 64 then some (.x (BitVec.ofNat 6 num)) else none
/-- The class of an operand. -/
def opdCls : Opd → Nat
  | .v _ => 0
  | .s _ => 1
  | .p _ | .lpc | .c _ => 2
  | .x _ => 3
/-- The number of an operand. -/
def opdNum : Opd → Nat
  | .v n => n.toNat
  | .s n => n.toNat
  | .p n => n.toNat
  | .lpc => 16
  | .c n => n.toNat + 32
  | .x n => n.toNat

/-- A one-bit field. -/
def bitNat (b : Bool) : Nat := if b then 1 else 0
/-- RND (R46). -/
def rndOf : Nat → Option Rnd
  | 0 => some .slot | 1 => some .rne | 2 => some .rtz | 3 => some .rup | 4 => some .rdn | _ => none
def rndNum : Rnd → Nat
  | .slot => 0 | .rne => 1 | .rtz => 2 | .rup => 3 | .rdn => 4
/-- XL (R73). -/
def xlOf : Nat → Option Xl
  | 0 => some .none | 1 => some .bc | 2 => some .up | 3 => some .dn | 4 => some .xr | _ => none
def xlNum : Xl → Nat
  | .none => 0 | .bc => 1 | .up => 2 | .dn => 3 | .xr => 4
/-- SCOPE (R75). -/
def scopeOf : Nat → Option Scope
  | 0 => some .team | 1 => some .core | 2 => some .cluster | 3 => some .die | 4 => some .device | 5 => some .system
  | _ => none
/-- ORD (R75). -/
def ordOf : Nat → Ord
  | 0 => .weak | 1 => .rlx | 2 => .acq | _ => .rel
def ordNum : Ord → Nat
  | .weak => 0 | .rlx => 1 | .acq => 2 | .rel => 3
/-- SIZE (R75). -/
def sizeOf' : Nat → Option Size
  | 0 => some .b8 | 1 => some .b16 | 2 => some .b32 | 3 => some .b64 | _ => none
def sizeNum : Size → Nat
  | .b8 => 0 | .b16 => 1 | .b32 => 2 | .b64 => 3
/-- Conditions (R81). -/
def condOf : Nat → Option Cond
  | 0 => some .eq | 1 => some .ne | 2 => some .lt | 3 => some .le | 4 => some .gt | 5 => some .ge | 6 => some .un
  | 7 => some .or | _ => none
def condNum : Cond → Nat
  | .eq => 0 | .ne => 1 | .lt => 2 | .le => 3 | .gt => 4 | .ge => 5 | .un => 6 | .or => 7
/-- CVT types (R81). -/
def cvtOf : Nat → Option CvtT
  | 0 => some .fp64 | 1 => some .fp32 | 2 => some .fp16 | 3 => some .bf16 | 4 => some .s32 | 5 => some .u32
  | 6 => some .s64 | 7 => some .u64 | _ => none
def cvtNum : CvtT → Nat
  | .fp64 => 0 | .fp32 => 1 | .fp16 => 2 | .bf16 => 3 | .s32 => 4 | .u32 => 5 | .s64 => 6 | .u64 => 7
/-- FP32 or FP64 (R81). -/
def fwOf : Nat → Option FW
  | 0 => some .f32 | 1 => some .f64 | _ => none
def fwNum : FW → Nat
  | .f32 => 0 | .f64 => 1
/-- FP16 or BF16 (R142). -/
def halfNum : Half → Nat
  | .fp16 => 0 | .bf16 => 1
def widthNum : Width → Nat
  | .w32 => 0 | .w64 => 1

/-! ### The opcode map (R79 to R88) -/

/-- What MAJ and FN select: a format and the instruction it makes; the last step reads SUB or IMM where they select a
row of their own. -/
inductive Row where
  | rg (f : RG → Option Instr)
  | im (f : IM → Option Instr)
  | mm (f : MM → Option Instr)
  | en (f : EN → Option Instr)
  | br (f : BR → Option Instr)

/-- MAJ 0x00 (R80), by op. -/
def intRow (w : Width) : Nat → Option Row
  | 0 => some (.rg fun x => some (.iadd w x))
  | 1 => some (.rg fun x => some (.isub w x))
  | 2 => some (.rg fun x => some (.imul w x))
  | 3 => some (.rg fun x => some (.imulh w x))
  | 4 => some (.rg fun x => some (.imad w x))
  | 5 => some (.rg fun x => some (.idiv w x))
  | 6 => some (.rg fun x => some (.irem w x))
  | 7 => some (.rg fun x => some (.imin w x))
  | 8 => some (.rg fun x => some (.imax w x))
  | 9 => some (.rg fun x => some (.iabs w x))
  | 10 => some (.rg fun x => some (.and w x))
  | 11 => some (.rg fun x => some (.or w x))
  | 12 => some (.rg fun x => some (.xor w x))
  | 13 => some (.rg fun x => some (.andn w x))
  | 14 => some (.rg fun x => some (.shl w x))
  | 15 => some (.rg fun x => some (.shr w x))
  | 16 => some (.rg fun x => some (.sar w x))
  | 17 => some (.rg fun x => some (.rol w x))
  | 18 => some (.rg fun x => some (.popc w x))
  | 19 => some (.rg fun x => some (.clz w x))
  | 20 => some (.rg fun x => some (.brev w x))
  | 21 => some (.rg fun x => some (.bfx w x))
  | 22 => some (.rg fun x => some (.bfi w x))
  | 23 => some (.rg fun x => some (.sel w x))
  | 24 => some (.rg fun x => some (.mov w x))
  | _ => none
/-- MAJ 0x01 (R80), by op. -/
def intImRow (w : Width) : Nat → Option Row
  | 0 => some (.im fun x => some (.iaddIm w x))
  | 1 => some (.im fun x => some (.isubIm w x))
  | 2 => some (.im fun x => some (.imulIm w x))
  | 7 => some (.im fun x => some (.iminIm w x))
  | 8 => some (.im fun x => some (.imaxIm w x))
  | 10 => some (.im fun x => some (.andIm w x))
  | 11 => some (.im fun x => some (.orIm w x))
  | 12 => some (.im fun x => some (.xorIm w x))
  | 13 => some (.im fun x => some (.andnIm w x))
  | 14 => some (.im fun x => some (.shlIm w x))
  | 15 => some (.im fun x => some (.shrIm w x))
  | 16 => some (.im fun x => some (.sarIm w x))
  | 17 => some (.im fun x => some (.rolIm w x))
  | 25 => some (.im fun x => some (.movi w x))
  | 26 => some (.im fun x => some (.movh w x))
  | _ => none
/-- Width of FN = 2·op + w. -/
def fnWidth (fn : Nat) : Width := if fn % 2 = 0 then .w32 else .w64
/-- MAJ 0x10 and 0x11 (R81): FN = 8·cond + 2·sg + w. -/
def icmpRow (imm : Bool) (fn : Nat) : Option Row :=
  match condOf (fn / 8) with
  | none => none
  | some c =>
    if fn % 8 < 4 then
      some (if imm then .im fun x => some (.icmpIm c (fn / 2 % 2 == 1) (fnWidth fn) x)
            else .rg fun x => some (.icmp c (fn / 2 % 2 == 1) (fnWidth fn) x))
    else none
/-- MAJ 0x12 (R81): FN = 8·cond + f. -/
def fcmpRow (fn : Nat) : Option Row :=
  match condOf (fn / 8), fwOf (fn % 8) with
  | some c, some f => some (.rg fun x => some (.fcmp c f x))
  | _, _ => none
/-- MAJ 0x15 (R81): FN = 8·dst + src. -/
def cvtRow (fn : Nat) : Option Row :=
  match cvtOf (fn / 8), cvtOf (fn % 8) with
  | some d, some e => some (.rg fun x => some (.cvt d e x))
  | _, _ => none
/-- MAJ 0x20 (R82). -/
def fpRow : Nat → Option Row
  | 0 => some (.rg fun x => some (.fadd x))
  | 1 => some (.rg fun x => some (.fsub x))
  | 2 => some (.rg fun x => some (.fmul x))
  | 3 => some (.rg fun x => some (.ffma x))
  | 4 => some (.rg fun x => some (.fmin x))
  | 5 => some (.rg fun x => some (.fmax x))
  | 6 => some (.rg fun x => some (.fdiv x))
  | 7 => some (.rg fun x => some (.fsqrt x))
  | 8 => some (.rg fun x => some (.frcp x))
  | 9 => some (.rg fun x => some (.fexp2 x))
  | 10 => some (.rg fun x => some (.flog2 x))
  | _ => none
/-- MAJ 0x21 (R82). -/
def fpImRow : Nat → Option Row
  | 0 => some (.im fun x => some (.faddIm x))
  | 1 => some (.im fun x => some (.fsubIm x))
  | 2 => some (.im fun x => some (.fmulIm x))
  | 4 => some (.im fun x => some (.fminIm x))
  | 5 => some (.im fun x => some (.fmaxIm x))
  | _ => none
/-- MAJ 0x22 (R82, R142): FN = 2·op + h. -/
def halfRow : Nat → Option Row
  | 0 => some (.rg fun x => some (.hadd2 .fp16 x))
  | 1 => some (.rg fun x => some (.hadd2 .bf16 x))
  | 2 => some (.rg fun x => some (.hmul2 .fp16 x))
  | 3 => some (.rg fun x => some (.hmul2 .bf16 x))
  | 4 => some (.rg fun x => some (.hfma2 .fp16 x))
  | 5 => some (.rg fun x => some (.hfma2 .bf16 x))
  | _ => none
/-- MAJ 0x30 (R82). -/
def dpRow : Nat → Option Row
  | 0 => some (.rg fun x => some (.dadd x))
  | 1 => some (.rg fun x => some (.dsub x))
  | 2 => some (.rg fun x => some (.dmul x))
  | 3 => some (.rg fun x => some (.dfma x))
  | 4 => some (.rg fun x => some (.dmin x))
  | 5 => some (.rg fun x => some (.dmax x))
  | 6 => some (.rg fun x => some (.ddiv x))
  | 7 => some (.rg fun x => some (.dsqrt x))
  | _ => none
/-- MAJ 0x45 (R83, R123): ERET, by SUB. -/
def eretOf (x : RG) : Option Instr :=
  if x.sub = 0 then some (.eretRestart x) else if x.sub = 1 then some (.eretSkip x) else none
/-- MAJ 0x41 (R83). -/
def ctlRow : Nat → Option Row
  | 0 => some (.rg fun x => some (.brx x))
  | 1 => some (.rg fun x => some (.ret x))
  | 2 => some (.rg fun x => some (.exit x))
  | 3 => some (.rg fun x => some (.halt x))
  | 4 => some (.rg fun x => some (.nop x))
  | _ => none
/-- MAJ 0x50 (R84). -/
def laneRow : Nat → Option Row
  | 0 => some (.rg fun x => some (.lshf x))
  | 1 => some (.rg fun x => some (.lbc x))
  | 2 => some (.rg fun x => some (.lvote x))
  | 3 => some (.rg fun x => some (.lscan x))
  | 4 => some (.rg fun x => some (.lred x))
  | 5 => some (.rg fun x => some (.lelect x))
  | 6 => some (.rg fun x => some (.lpc x))
  | _ => none
/-- MAJ 0x65 (R85). -/
def atomRow : Nat → Option Row
  | 0 => some (.mm fun x => some (.atomAdd x))
  | 1 => some (.mm fun x => some (.atomUmin x))
  | 2 => some (.mm fun x => some (.atomUmax x))
  | 3 => some (.mm fun x => some (.atomSmin x))
  | 4 => some (.mm fun x => some (.atomSmax x))
  | 5 => some (.mm fun x => some (.atomAnd x))
  | 6 => some (.mm fun x => some (.atomOr x))
  | 7 => some (.mm fun x => some (.atomXor x))
  | 8 => some (.mm fun x => some (.atomExch x))
  | 9 => some (.mm fun x => some (.atomCas x))
  | _ => none
/-- MAJ 0x71 (R86). -/
def tileRow : Nat → Option Row
  | 0 => some (.en fun x => some (.talloc x))
  | 1 => some (.en fun x => some (.tfree x))
  | 2 => some (.en fun x => some (.tld x))
  | 3 => some (.en fun x => some (.tst x))
  | 4 => some (.en fun x => some (.tzero x))
  | 5 => some (.en fun x => some (.tlr x))
  | 6 => some (.en fun x => some (.tinfo x))
  | 7 => some (.en fun x => some (.twait x))
  | _ => none
/-- MAJ 0x72 (R86). -/
def tileOpRow : Nat → Option Row
  | 0 => some (.en fun x => some (.tmul x))
  | 1 => some (.en fun x => some (.tadd x))
  | 2 => some (.en fun x => some (.trnd x))
  | 3 => some (.en fun x => some (.tdns x))
  | 4 => some (.en fun x => some (.tfac x))
  | 5 => some (.en fun x => some (.ttrs x))
  | _ => none
/-- SEQRD, SEQWP and SEQREL by SUB (R408). -/
def seqrdOf (x : RG) : Option Instr :=
  if x.sub = 0 then some (.seqrdNext x) else if x.sub = 1 then some (.seqrdPeek x)
  else if x.sub = 2 then some (.seqrdTrap x) else none
def seqwpOf (x : RG) : Option Instr :=
  if x.sub = 0 then some (.seqwpEnt x) else if x.sub = 1 then some (.seqwpCtr x)
  else if x.sub = 2 then some (.seqwpInit x) else if x.sub = 3 then some (.seqwpNrec x) else none
def seqrelOf (x : RG) : Option Instr :=
  if x.sub = 0 then some (.seqrelGo x) else if x.sub = 1 then some (.seqrelStop x)
  else if x.sub = 2 then some (.seqrelFree x) else none
/-- MAJ 0x88 (R87, R408). -/
def seqRow : Nat → Option Row
  | 0 => some (.rg fun x => some (.seqcm x))
  | 1 => some (.rg fun x => some (.seqcmT x))
  | 2 => some (.rg fun x => some (.seqcf x))
  | 3 => some (.en fun x => some (.seqfn x))
  | 4 => some (.rg seqrdOf)
  | 5 => some (.rg seqwpOf)
  | 6 => some (.rg seqrelOf)
  | _ => none
/-- TLBINV by mode (R362). -/
def tlbinvOf (x : EN) : Option Instr :=
  if x.imm.toNat / 64 = 0 then some (.tlbinvPage x) else if x.imm.toNat / 64 = 1 then some (.tlbinvCtx x)
  else if x.imm.toNat / 64 = 2 then some (.tlbinvAll x) else none
/-- DBGBRK by operation (R392). -/
def dbgOf (x : IM) : Option Instr :=
  match x.imm.toNat with
  | 0 => some (.dbgbrkHalt x)
  | 1 => some (.dbgbrkResume x)
  | 2 => some (.dbgbrkStep x)
  | 3 => some (.dbgbrkBack x)
  | 4 => some (.dbgbrkBrk x)
  | 5 => some (.dbgbrkClr x)
  | 6 => some (.dbgbrkDbg x)
  | _ => none

/-- The row of MAJ and FN (R79 to R88). -/
def rowOf (maj fn : Nat) : Option Row :=
  match maj with
  | 0x00 => intRow (fnWidth fn) (fn / 2)
  | 0x01 => intImRow (fnWidth fn) (fn / 2)
  | 0x10 => icmpRow false fn
  | 0x11 => icmpRow true fn
  | 0x12 => fcmpRow fn
  | 0x13 =>
    match fn with
    | 0 => some (.rg fun x => some (.pset x))
    | 1 => some (.rg fun x => some (.pmov x))
    | _ => none
  | 0x14 =>
    match fn with
    | 0 => some (.rg fun x => some (.fclass .f32 x))
    | 1 => some (.rg fun x => some (.fclass .f64 x))
    | _ => none
  | 0x15 => cvtRow fn
  | 0x16 =>
    match fn with
    | 0 => some (.rg fun x => some (.cvtqQuantise x))
    | 1 => some (.rg fun x => some (.cvtqDequantise x))
    | _ => none
  | 0x20 => fpRow fn
  | 0x21 => fpImRow fn
  | 0x22 => halfRow fn
  | 0x30 => dpRow fn
  | 0x38 =>
    match fn with
    | 0 => some (.rg fun x => some (.tagrd x))
    | 1 => some (.rg fun x => some (.tagwr x))
    | _ => none
  | 0x39 =>
    match condOf fn with
    | some c => some (.im fun x => some (.psig c x))
    | none => none
  | 0x40 =>
    match fn with
    | 0 => some (.br fun x => some (.bra x))
    | 1 => some (.br fun x => some (.call x))
    | _ => none
  | 0x41 => ctlRow fn
  | 0x42 =>
    match fn with
    | 0 => some (.rg fun x => some (.fewait x))
    | 1 => some (.rg fun x => some (.feset x))
    | 2 => some (.rg fun x => some (.feclr x))
    | _ => none
  | 0x43 =>
    match fn with
    | 0 => some (.im fun x => some (.rgrow x))
    | 1 => some (.im fun x => some (.rshr x))
    | _ => none
  | 0x44 =>
    match fn with
    | 0 => some (.im fun x => some (.trap x))
    | _ => none
  | 0x45 =>
    match fn with
    | 0 => some (.rg eretOf)
    | _ => none
  | 0x46 =>
    match fn with
    | 0 => some (.im fun x => some (.crd x))
    | 1 => some (.im fun x => some (.cwr x))
    | _ => none
  | 0x50 => laneRow fn
  | 0x51 =>
    match fn with
    | 0 => some (.im fun x => some (.barSync x))
    | 1 => some (.im fun x => some (.barArv x))
    | 2 => some (.im fun x => some (.barWait x))
    | _ => none
  | 0x52 =>
    match fn with
    | 0 => some (.rg fun x => some (.topki x))
    | _ => none
  | 0x53 =>
    match fn with
    | 0 => some (.rg fun x => some (.rng x))
    | _ => none
  | 0x60 =>
    match fn with
    | 0 => some (.mm fun x => some (.ld x))
    | 1 => some (.mm fun x => some (.st x))
    | 2 => some (.mm fun x => some (.pref x))
    | _ => none
  | 0x61 =>
    match fn with
    | 0 => some (.mm fun x => some (.brld x))
    | _ => none
  | 0x62 =>
    match fn with
    | 0 => some (.rg fun x => some (.brmk x))
    | _ => none
  | 0x63 =>
    match fn with
    | 0 => some (.mm fun x => some (.lds x))
    | 1 => some (.mm fun x => some (.sts x))
    | 2 => some (.mm fun x => some (.ldw x))
    | _ => none
  | 0x64 =>
    match fn with
    | 0 => some (.mm fun x => some (.ldt x))
    | 1 => some (.rg fun x => some (.rdm x))
    | 2 => some (.rg fun x => some (.tkdrop x))
    | _ => none
  | 0x65 => atomRow fn
  | 0x66 =>
    match fn with
    | 0 => some (.mm fun x => some (.xredFp32 x))
    | 1 => some (.mm fun x => some (.xredFp64 x))
    | 2 => some (.mm fun x => some (.xrdFp32 x))
    | 3 => some (.mm fun x => some (.xrdFp64 x))
    | _ => none
  | 0x67 =>
    match fn with
    | 0 => some (.mm fun x => some (.expq x))
    | _ => none
  | 0x68 =>
    match fn with
    | 0 => some (.en fun x => some (.fence x))
    | _ => none
  | 0x69 =>
    match fn with
    | 0 => some (.rg fun x => some (.lnwait x))
    | 1 => some (.rg fun x => some (.lnset x))
    | 2 => some (.rg fun x => some (.lnclr x))
    | _ => none
  | 0x6A =>
    match fn with
    | 0 => some (.rg fun x => some (.spl x))
    | 1 => some (.rg fun x => some (.fil x))
    | _ => none
  | 0x70 =>
    match fn with
    | 0 => some (.en fun x => some (.cpy x))
    | 1 => some (.en fun x => some (.cpyc x))
    | 2 => some (.en fun x => some (.wpwait x))
    | _ => none
  | 0x71 => tileRow fn
  | 0x72 => tileOpRow fn
  | 0x73 =>
    match fn with
    | 0 => some (.en fun x => some (.coll x))
    | _ => none
  | 0x80 =>
    match fn with
    | 0 => some (.en fun x => some (.launch x))
    | _ => none
  | 0x81 =>
    match fn with
    | 0 => some (.en fun x => some (.evsig x))
    | 1 => some (.en fun x => some (.evwait x))
    | _ => none
  | 0x88 => seqRow fn
  | 0x90 =>
    match fn with
    | 0 => some (.mm fun x => some (.mst x))
    | 1 => some (.mm fun x => some (.rld x))
    | _ => none
  | 0xF0 =>
    match fn with
    | 0 => some (.en fun x => some (.dharv x))
    | 1 => some (.en tlbinvOf)
    | 2 => some (.im dbgOf)
    | _ => none
  | _ => none

/-! ### Formats -/

/-- A source field group. -/
def srcOf (cls num e m : Nat) : Option Src :=
  match opdOf cls num with
  | some o => some ⟨o, e == 1, m == 1⟩
  | none => none

/-- RG fields (R72). -/
def rgOf (h : Head) (d : Opd) (a b : Src) (x : Nat) : Except Reject RG :=
  match unpackL rgFields x with
  | [sub, z, lane, xl, rnd, slot, cm, cn, cc, ce] =>
    if z ≠ 0 then .error .zeroField
    else
      match srcOf cc cn ce cm, rndOf rnd, xlOf xl with
      | some c, some r, some l => .ok ⟨h, d, a, b, c, BitVec.ofNat 3 slot, r, l, BitVec.ofNat 6 lane, BitVec.ofNat 8 sub⟩
      | none, _, _ => .error .operand
      | _, _, _ => .error .code
  | _ => .error .short

/-- IM fields; field B must be zero (R74). -/
def imOf (h : Head) (d : Opd) (a b : Src) (x : Nat) : Except Reject IM :=
  match unpackL imFields x with
  | [imm, md] => if srcZero b then .ok ⟨h, d, a, BitVec.ofNat 6 md, BitVec.ofNat 32 imm⟩ else .error .code
  | _ => .error .short

/-- MM fields (R75). -/
def mmOf (h : Head) (d : Opd) (a b : Src) (x : Nat) : Except Reject MM :=
  match unpackL mmFields x with
  | [ofs, cache, slot, size, ord, scope, brec] =>
    match scopeOf scope, sizeOf' size with
    | some sc, some z =>
      .ok ⟨h, d, a, b, BitVec.ofNat 4 brec, sc, ordOf ord, z, BitVec.ofNat 3 slot, BitVec.ofNat 2 cache, BitVec.ofNat 21 ofs⟩
    | _, _ => .error .code
  | _ => .error .short

/-- EN fields (R76). -/
def enOf (h : Head) (d : Opd) (a b : Src) (x : Nat) : Except Reject EN :=
  match unpackL enFields x with
  | [imm, chan, slot, rel, acq, scope, z] =>
    if z ≠ 0 then .error .zeroField
    else
      match scopeOf scope with
      | some sc => .ok ⟨h, d, a, b, sc, acq == 1, rel == 1, BitVec.ofNat 3 slot, BitVec.ofNat 6 chan, BitVec.ofNat 20 imm⟩
      | none => .error .code
  | _ => .error .short

/-- BR fields; fields A and B must be zero (R77, R114). -/
def brOf (h : Head) (d : Opd) (a b : Src) (x : Nat) : Except Reject BR :=
  if srcZero a && srcZero b then .ok ⟨h, d, BitVec.ofNat 38 x⟩ else .error .code

/-- A decoded candidate, checked by R89. -/
def checked (i : Option Instr) : Except Reject Instr :=
  match i with
  | some j => if j.wf then .ok j else .error .illegal
  | none => .error .unassigned

/-- DECODING a 96-bit instruction word (R65). -/
def decodeWord (w : Nat) : Except Reject Instr :=
  match unpackL wordFields w with
  | [x, bm, bn, bc, be, am, an, ac, ae, dn, dc, z, yld, rgn, fin, gp, gn, fn, maj] =>
    if z ≠ 0 then .error .zeroField
    else
      let h : Head := ⟨gn == 1, BitVec.ofNat 3 gp, fin == 1, rgn == 1, yld == 1⟩
      match opdOf dc dn, srcOf ac an ae am, srcOf bc bn be bm with
      | some d, some a, some b =>
        match rowOf maj fn with
        | none => .error .unassigned
        | some (.rg f) => match rgOf h d a b x with | .ok r => checked (f r) | .error e => .error e
        | some (.im f) => match imOf h d a b x with | .ok r => checked (f r) | .error e => .error e
        | some (.mm f) => match mmOf h d a b x with | .ok r => checked (f r) | .error e => .error e
        | some (.en f) => match enOf h d a b x with | .ok r => checked (f r) | .error e => .error e
        | some (.br f) => match brOf h d a b x with | .ok r => checked (f r) | .error e => .error e
      | _, _, _ => .error .operand
  | _ => .error .short

/-- DECODING bytes: an instruction and the bytes after it, or a refusal by name. -/
def decode (bs : List Byte) : Except Reject (Instr × List Byte) :=
  if bs.length < 12 then .error .short
  else
    match decodeWord (wordOfBytes bs) with
    | .ok i => .ok (i, bs.drop 12)
    | .error e => .error e

/-- The instruction that the decoder reads from the 12 bytes of the word `w`, whose bits are numbered as R65 numbers
them; bits above `nbits` are 0. Log entry 7. -/
def decodeTableWord (nbits w : Nat) : Option Instr :=
  match decode (bytesOfWord (w % 2 ^ (min nbits 96))) with
  | .ok (i, _) => some i
  | .error _ => none

/-! ### The encoder, from the same tables -/

/-- What an instruction's word holds beside MAJ and FN. -/
inductive Body where
  | rg (x : RG)
  | im (x : IM)
  | mm (x : MM)
  | en (x : EN)
  | br (x : BR)

/-- MAJ, FN and fields of an instruction (R80 to R88); events have no word. -/
def parts : Instr → Option (Nat × Nat × Body)
  | .iadd w x => some (0x00, 0 + widthNum w, .rg x)
  | .iaddIm w x => some (0x01, 0 + widthNum w, .im x)
  | .isub w x => some (0x00, 2 + widthNum w, .rg x)
  | .isubIm w x => some (0x01, 2 + widthNum w, .im x)
  | .imul w x => some (0x00, 4 + widthNum w, .rg x)
  | .imulIm w x => some (0x01, 4 + widthNum w, .im x)
  | .imulh w x => some (0x00, 6 + widthNum w, .rg x)
  | .imad w x => some (0x00, 8 + widthNum w, .rg x)
  | .idiv w x => some (0x00, 10 + widthNum w, .rg x)
  | .irem w x => some (0x00, 12 + widthNum w, .rg x)
  | .imin w x => some (0x00, 14 + widthNum w, .rg x)
  | .iminIm w x => some (0x01, 14 + widthNum w, .im x)
  | .imax w x => some (0x00, 16 + widthNum w, .rg x)
  | .imaxIm w x => some (0x01, 16 + widthNum w, .im x)
  | .iabs w x => some (0x00, 18 + widthNum w, .rg x)
  | .and w x => some (0x00, 20 + widthNum w, .rg x)
  | .andIm w x => some (0x01, 20 + widthNum w, .im x)
  | .or w x => some (0x00, 22 + widthNum w, .rg x)
  | .orIm w x => some (0x01, 22 + widthNum w, .im x)
  | .xor w x => some (0x00, 24 + widthNum w, .rg x)
  | .xorIm w x => some (0x01, 24 + widthNum w, .im x)
  | .andn w x => some (0x00, 26 + widthNum w, .rg x)
  | .andnIm w x => some (0x01, 26 + widthNum w, .im x)
  | .shl w x => some (0x00, 28 + widthNum w, .rg x)
  | .shlIm w x => some (0x01, 28 + widthNum w, .im x)
  | .shr w x => some (0x00, 30 + widthNum w, .rg x)
  | .shrIm w x => some (0x01, 30 + widthNum w, .im x)
  | .sar w x => some (0x00, 32 + widthNum w, .rg x)
  | .sarIm w x => some (0x01, 32 + widthNum w, .im x)
  | .rol w x => some (0x00, 34 + widthNum w, .rg x)
  | .rolIm w x => some (0x01, 34 + widthNum w, .im x)
  | .popc w x => some (0x00, 36 + widthNum w, .rg x)
  | .clz w x => some (0x00, 38 + widthNum w, .rg x)
  | .brev w x => some (0x00, 40 + widthNum w, .rg x)
  | .bfx w x => some (0x00, 42 + widthNum w, .rg x)
  | .bfi w x => some (0x00, 44 + widthNum w, .rg x)
  | .sel w x => some (0x00, 46 + widthNum w, .rg x)
  | .mov w x => some (0x00, 48 + widthNum w, .rg x)
  | .movi w x => some (0x01, 50 + widthNum w, .im x)
  | .movh w x => some (0x01, 52 + widthNum w, .im x)
  | .icmp c g w x => some (0x10, 8 * condNum c + 2 * bitNat g + widthNum w, .rg x)
  | .icmpIm c g w x => some (0x11, 8 * condNum c + 2 * bitNat g + widthNum w, .im x)
  | .fcmp c f x => some (0x12, 8 * condNum c + fwNum f, .rg x)
  | .pset x => some (0x13, 0, .rg x)
  | .pmov x => some (0x13, 1, .rg x)
  | .fclass f x => some (0x14, fwNum f, .rg x)
  | .cvt d e x => some (0x15, 8 * cvtNum d + cvtNum e, .rg x)
  | .cvtqQuantise x => some (0x16, 0, .rg x)
  | .cvtqDequantise x => some (0x16, 1, .rg x)
  | .fadd x => some (0x20, 0, .rg x)
  | .faddIm x => some (0x21, 0, .im x)
  | .fsub x => some (0x20, 1, .rg x)
  | .fsubIm x => some (0x21, 1, .im x)
  | .fmul x => some (0x20, 2, .rg x)
  | .fmulIm x => some (0x21, 2, .im x)
  | .ffma x => some (0x20, 3, .rg x)
  | .fmin x => some (0x20, 4, .rg x)
  | .fminIm x => some (0x21, 4, .im x)
  | .fmax x => some (0x20, 5, .rg x)
  | .fmaxIm x => some (0x21, 5, .im x)
  | .fdiv x => some (0x20, 6, .rg x)
  | .fsqrt x => some (0x20, 7, .rg x)
  | .frcp x => some (0x20, 8, .rg x)
  | .fexp2 x => some (0x20, 9, .rg x)
  | .flog2 x => some (0x20, 10, .rg x)
  | .hadd2 h x => some (0x22, 0 + halfNum h, .rg x)
  | .hmul2 h x => some (0x22, 2 + halfNum h, .rg x)
  | .hfma2 h x => some (0x22, 4 + halfNum h, .rg x)
  | .dadd x => some (0x30, 0, .rg x)
  | .dsub x => some (0x30, 1, .rg x)
  | .dmul x => some (0x30, 2, .rg x)
  | .dfma x => some (0x30, 3, .rg x)
  | .dmin x => some (0x30, 4, .rg x)
  | .dmax x => some (0x30, 5, .rg x)
  | .ddiv x => some (0x30, 6, .rg x)
  | .dsqrt x => some (0x30, 7, .rg x)
  | .tagrd x => some (0x38, 0, .rg x)
  | .tagwr x => some (0x38, 1, .rg x)
  | .psig c x => some (0x39, condNum c, .im x)
  | .bra x => some (0x40, 0, .br x)
  | .call x => some (0x40, 1, .br x)
  | .brx x => some (0x41, 0, .rg x)
  | .ret x => some (0x41, 1, .rg x)
  | .exit x => some (0x41, 2, .rg x)
  | .halt x => some (0x41, 3, .rg x)
  | .nop x => some (0x41, 4, .rg x)
  | .fewait x => some (0x42, 0, .rg x)
  | .feset x => some (0x42, 1, .rg x)
  | .feclr x => some (0x42, 2, .rg x)
  | .rgrow x => some (0x43, 0, .im x)
  | .rshr x => some (0x43, 1, .im x)
  | .trap x => some (0x44, 0, .im x)
  | .eretRestart x => some (0x45, 0, .rg x)
  | .eretSkip x => some (0x45, 0, .rg x)
  | .crd x => some (0x46, 0, .im x)
  | .cwr x => some (0x46, 1, .im x)
  | .lshf x => some (0x50, 0, .rg x)
  | .lbc x => some (0x50, 1, .rg x)
  | .lvote x => some (0x50, 2, .rg x)
  | .lscan x => some (0x50, 3, .rg x)
  | .lred x => some (0x50, 4, .rg x)
  | .lelect x => some (0x50, 5, .rg x)
  | .lpc x => some (0x50, 6, .rg x)
  | .barSync x => some (0x51, 0, .im x)
  | .barArv x => some (0x51, 1, .im x)
  | .barWait x => some (0x51, 2, .im x)
  | .topki x => some (0x52, 0, .rg x)
  | .rng x => some (0x53, 0, .rg x)
  | .ld x => some (0x60, 0, .mm x)
  | .st x => some (0x60, 1, .mm x)
  | .pref x => some (0x60, 2, .mm x)
  | .brld x => some (0x61, 0, .mm x)
  | .brmk x => some (0x62, 0, .rg x)
  | .lds x => some (0x63, 0, .mm x)
  | .sts x => some (0x63, 1, .mm x)
  | .ldw x => some (0x63, 2, .mm x)
  | .ldt x => some (0x64, 0, .mm x)
  | .rdm x => some (0x64, 1, .rg x)
  | .tkdrop x => some (0x64, 2, .rg x)
  | .atomAdd x => some (0x65, 0, .mm x)
  | .atomUmin x => some (0x65, 1, .mm x)
  | .atomUmax x => some (0x65, 2, .mm x)
  | .atomSmin x => some (0x65, 3, .mm x)
  | .atomSmax x => some (0x65, 4, .mm x)
  | .atomAnd x => some (0x65, 5, .mm x)
  | .atomOr x => some (0x65, 6, .mm x)
  | .atomXor x => some (0x65, 7, .mm x)
  | .atomExch x => some (0x65, 8, .mm x)
  | .atomCas x => some (0x65, 9, .mm x)
  | .xredFp32 x => some (0x66, 0, .mm x)
  | .xredFp64 x => some (0x66, 1, .mm x)
  | .xrdFp32 x => some (0x66, 2, .mm x)
  | .xrdFp64 x => some (0x66, 3, .mm x)
  | .expq x => some (0x67, 0, .mm x)
  | .fence x => some (0x68, 0, .en x)
  | .lnwait x => some (0x69, 0, .rg x)
  | .lnset x => some (0x69, 1, .rg x)
  | .lnclr x => some (0x69, 2, .rg x)
  | .spl x => some (0x6A, 0, .rg x)
  | .fil x => some (0x6A, 1, .rg x)
  | .cpy x => some (0x70, 0, .en x)
  | .cpyc x => some (0x70, 1, .en x)
  | .wpwait x => some (0x70, 2, .en x)
  | .talloc x => some (0x71, 0, .en x)
  | .tfree x => some (0x71, 1, .en x)
  | .tzero x => some (0x71, 4, .en x)
  | .tld x => some (0x71, 2, .en x)
  | .tlr x => some (0x71, 5, .en x)
  | .tst x => some (0x71, 3, .en x)
  | .tinfo x => some (0x71, 6, .en x)
  | .twait x => some (0x71, 7, .en x)
  | .tmul x => some (0x72, 0, .en x)
  | .tadd x => some (0x72, 1, .en x)
  | .trnd x => some (0x72, 2, .en x)
  | .tdns x => some (0x72, 3, .en x)
  | .tfac x => some (0x72, 4, .en x)
  | .ttrs x => some (0x72, 5, .en x)
  | .coll x => some (0x73, 0, .en x)
  | .launch x => some (0x80, 0, .en x)
  | .evsig x => some (0x81, 0, .en x)
  | .evwait x => some (0x81, 1, .en x)
  | .seqcm x => some (0x88, 0, .rg x)
  | .seqcmT x => some (0x88, 1, .rg x)
  | .seqcf x => some (0x88, 2, .rg x)
  | .seqfn x => some (0x88, 3, .en x)
  | .seqrdNext x => some (0x88, 4, .rg x)
  | .seqrdPeek x => some (0x88, 4, .rg x)
  | .seqrdTrap x => some (0x88, 4, .rg x)
  | .seqwpEnt x => some (0x88, 5, .rg x)
  | .seqwpCtr x => some (0x88, 5, .rg x)
  | .seqwpInit x => some (0x88, 5, .rg x)
  | .seqwpNrec x => some (0x88, 5, .rg x)
  | .seqrelGo x => some (0x88, 6, .rg x)
  | .seqrelStop x => some (0x88, 6, .rg x)
  | .seqrelFree x => some (0x88, 6, .rg x)
  | .mst x => some (0x90, 0, .mm x)
  | .rld x => some (0x90, 1, .mm x)
  | .dharv x => some (0xF0, 0, .en x)
  | .tlbinvPage x => some (0xF0, 1, .en x)
  | .tlbinvCtx x => some (0xF0, 1, .en x)
  | .tlbinvAll x => some (0xF0, 1, .en x)
  | .dbgbrkHalt x => some (0xF0, 2, .im x)
  | .dbgbrkResume x => some (0xF0, 2, .im x)
  | .dbgbrkStep x => some (0xF0, 2, .im x)
  | .dbgbrkBack x => some (0xF0, 2, .im x)
  | .dbgbrkBrk x => some (0xF0, 2, .im x)
  | .dbgbrkClr x => some (0xF0, 2, .im x)
  | .dbgbrkDbg x => some (0xF0, 2, .im x)
  | .tenureGrant .. | .loadDataArrival .. | .ldsDataArrival .. | .cvtqScaleArrival .. | .ldtTicketAllocated ..
    | .ticketDataArrival .. | .ticketLifetimeExpiry .. | .redeemMatch .. | .rdmVerdictReturn .. | .rdmDataDelivery ..
    | .sliceRmwPerform .. | .exactContribution .. | .xrdReadoutArrival .. | .queueAppend .. | .filImageArrival ..
    | .rldReadoutArrival .. | .seqReply .. | .launchTaken .. | .barrierPhaseComplete .. | .rgrowGrant ..
    | .rgrowDeny .. | .trapDelivery .. | .faultRecordWrite .. | .ackRead .. | .replay .. | .watchdogExpiry ..
    | .promotionRequest .. | .releaseRecordEvict .. | .weightStoreRefresh | .copyCommandStart ..
    | .cpycCommandStart .. | .copyLineLands .. | .copyCommandEnd .. | .tileOpStart .. | .tileOpCommit ..
    | .remoteTileServe .. | .multicastDelivery .. | .multicastBufferDrain .. | .collJoin .. | .joinLimitExpiry ..
    | .zephyrChunkLands .. | .zephyrReadout .. | .collComplete .. | .seqCommitEval .. | .seqTentativeEval ..
    | .seqConfirmation .. | .bridleRecordFetch .. | .queueTailRead .. | .queueReset .. | .launchStart ..
    | .launchComplete .. | .droverPlacement .. | .steal .. | .contextCreate .. | .contextTeardown ..
    | .preemptRequest .. | .drainDeadlineExpiry .. | .suspensionComplete .. | .suspendDeadlineExpiry ..
    | .contextReset .. | .contextRestore .. | .debugStopReached .. | .portFailure .. | .routeTableRebuild ..
    | .communicatorRebuild .. | .dieLinkFailure .. | .leaseRequest .. | .leaseRecall .. | .poisonConsumed ..
    | .thermalTrip .. | .coldStart .. | .warmStart .. | .attestationRequest .. | .powerCapSet .. | .dumpRead ..
    | .valid | .firmwareStaging .. | .worldReassignment .. | .classTableWrite .. | .peerWindowWrite .. | .gaitTick ..
    | .histogramSample .. | .issueGating .. | .translationFault .. | .writePerformed .. | .eventAdd ..
    | .tlbEviction .. | .uncorrectableError .. | .firmwareCheckFailure | .peerAccessAtTarget .. | .debugPortAccess .. => none

/-- The X field. -/
def xBits : Body → Nat
  | .rg x => packL rgFields [x.sub.toNat, 0, x.lane.toNat, xlNum x.xl, rndNum x.rnd, x.slot.toNat, bitNat x.c.m,
      opdNum x.c.o, opdCls x.c.o, bitNat x.c.e]
  | .im x => packL imFields [x.imm.toNat, x.md.toNat]
  | .mm x => packL mmFields [x.ofs.toNat, x.cache.toNat, x.slot.toNat, sizeNum x.size, ordNum x.ord,
      Machine.scopeNum x.scope, x.brec.toNat]
  | .en x => packL enFields [x.imm.toNat, x.chan.toNat, x.slot.toNat, bitNat x.rel, bitNat x.acq,
      Machine.scopeNum x.scope, 0]
  | .br x => x.ofs.toNat
/-- The all-zero source. -/
def noSrc : Src := ⟨.v 0, false, false⟩
/-- Guard and hints of a body. -/
def bodyHead : Body → Head
  | .rg x => x.h | .im x => x.h | .mm x => x.h | .en x => x.h | .br x => x.h
/-- Destination of a body. -/
def bodyD : Body → Opd
  | .rg x => x.d | .im x => x.d | .mm x => x.d | .en x => x.d | .br x => x.d
/-- Source A of a body. -/
def bodyA : Body → Src
  | .rg x => x.a | .im x => x.a | .mm x => x.a | .en x => x.a | .br _ => noSrc
/-- Source B of a body. -/
def bodyB : Body → Src
  | .rg x => x.b | .im _ => noSrc | .mm x => x.b | .en x => x.b | .br _ => noSrc

/-- The instruction word of MAJ, FN and fields (R65). -/
def wordOf (maj fn : Nat) (b : Body) : Nat :=
  let h := bodyHead b
  let sa := bodyA b
  let sb := bodyB b
  packL wordFields [xBits b, bitNat sb.m, opdNum sb.o, opdCls sb.o, bitNat sb.e, bitNat sa.m, opdNum sa.o, opdCls sa.o,
    bitNat sa.e, opdNum (bodyD b), opdCls (bodyD b), 0, bitNat h.yld, bitNat h.rgn, bitNat h.fin, h.gp.toNat,
    bitNat h.gn, fn, maj]

/-- ENCODING: the 96-bit word of an instruction; events have none. -/
def encode (i : Instr) : Option Nat :=
  match parts i with
  | some (maj, fn, b) => some (wordOf maj fn b)
  | none => none

end Sys2Proof
end

