-- ==== Sys2Proof/Machine/Float.lean ====
section
/-! DEFINITION. Floating-point formats, exact values, rounding and the correctly rounded operations (R40 to R50, R139).
An exact value is a natural significand times a power of two, with a sticky bit where it has been cut. -/

namespace Sys2Proof.Machine

/-- A floating-point format (R40): precision, exponent range, width; `e4m3` has no infinities (R43). -/
structure Fmt where
  p : Nat
  emin : Int
  emax : Int
  width : Nat
  e4m3 : Bool
  deriving DecidableEq, Repr, Inhabited

def fp64 : Fmt := ⟨53, -1022, 1023, 64, false⟩
def fp32 : Fmt := ⟨24, -126, 127, 32, false⟩
def fp16 : Fmt := ⟨11, -14, 15, 16, false⟩
def bf16 : Fmt := ⟨8, -126, 127, 16, false⟩
def e4m3 : Fmt := ⟨4, -6, 8, 8, true⟩

/-- Exponent of the smallest lsb (R40). -/
def elsb (f : Fmt) : Int := f.emin - f.p + 1

/-- A decoded value: NaN (signalling or not), infinity, or ±m·2^e. -/
inductive FV where
  | nan (signalling : Bool)
  | inf (neg : Bool)
  | fin (neg : Bool) (m : Nat) (e : Int)
  deriving DecidableEq, Repr, Inhabited

/-- The value of an encoding (R41 to R43). -/
def decF (f : Fmt) (x : Nat) : FV :=
  let fb := f.p - 1
  let eb := f.width - f.p
  let frac := x % 2 ^ fb
  let ex := x / 2 ^ fb % 2 ^ eb
  let neg := x.testBit (f.width - 1)
  if f.e4m3 && ex == 15 && frac == 7 then .nan false
  else if !f.e4m3 && ex == 2 ^ eb - 1 then (if frac = 0 then .inf neg else .nan (!frac.testBit (fb - 1)))
  else if ex = 0 then .fin neg frac (elsb f)
  else .fin neg (2 ^ fb + frac) (elsb f + (ex - 1 : Int))

/-- The sign bit of a format. -/
def signBit (f : Fmt) (neg : Bool) : Nat := if neg then 2 ^ (f.width - 1) else 0
/-- Canonical NaN (R42). -/
def canonNaN (f : Fmt) : Nat :=
  if f.e4m3 then 0x7F else (2 ^ (f.width - f.p) - 1) * 2 ^ (f.p - 1) + 2 ^ (f.p - 2)
/-- Infinity (R42). -/
def infF (f : Fmt) (neg : Bool) : Nat := (2 ^ (f.width - f.p) - 1) * 2 ^ (f.p - 1) + signBit f neg
/-- Largest finite value (R42). -/
def maxF (f : Fmt) (neg : Bool) : Nat :=
  (if f.e4m3 then 0x7E else (2 ^ (f.width - f.p) - 1) * 2 ^ (f.p - 1) - 1) + signBit f neg

/-- Flags of FLTSTAT (R30). -/
def flInvalid : Nat := 16
def flDivZero : Nat := 8
def flOverflow : Nat := 4
def flUnderflow : Nat := 2
def flInexact : Nat := 1

/-- An exact real, ±m·2^e, or strictly between that and ±(m + 1)·2^e when `sticky`. -/
structure Ex where
  neg : Bool
  m : Nat
  e : Int
  sticky : Bool
  deriving DecidableEq, Repr, Inhabited

/-- Round the magnitude to a multiple of 2^q under mode `mode` (R46): the multiple, and whether it differs. -/
def roundAt (x : Ex) (q : Int) (mode : Nat) : Nat × Bool :=
  let k := q - x.e
  if k ≤ 0 then (x.m * 2 ^ (-k).toNat, x.sticky)
  else
    let d := 2 ^ k.toNat
    let hi := x.m / d
    let lo := x.m % d
    let inexact := lo ≠ 0 || x.sticky
    let up :=
      match mode with
      | 0 => decide (d < 2 * lo) || (decide (2 * lo = d) && (x.sticky || hi % 2 == 1))
      | 1 => false
      | 2 => inexact && !x.neg
      | _ => inexact && x.neg
    (if up then hi + 1 else hi, inexact)

/-- Encode ±n·2^q, which the format holds exactly. -/
def encF (f : Fmt) (neg : Bool) (n : Nat) (q : Int) : Nat :=
  if n = 0 then signBit f neg
  else
    let e := (Nat.log2 n : Int) + q
    if e < f.emin then (n * 2 ^ (q - elsb f).toNat) + signBit f neg
    else
      let sig := if (Nat.log2 n) ≤ f.p - 1 then n * 2 ^ (f.p - 1 - Nat.log2 n) else n / 2 ^ (Nat.log2 n - (f.p - 1))
      (e - f.emin + 1).toNat * 2 ^ (f.p - 1) + (sig - 2 ^ (f.p - 1)) + signBit f neg

/-- Result of an overflow (R48). -/
def overflowF (f : Fmt) (neg : Bool) (mode : Nat) (sat : Bool) : Nat :=
  let toMax := mode == 1 || (mode == 2 && neg) || (mode == 3 && !neg)
  if f.e4m3 then (if sat || toMax then maxF f neg else canonNaN f)
  else if toMax then maxF f neg else infF f neg

/-- `round(e, F, m)` (R47, R48): bits and flags. A zero keeps the sign given. -/
def roundF (f : Fmt) (mode : Nat) (sat : Bool) (x : Ex) : Nat × Nat :=
  if x.m = 0 && !x.sticky then (signBit f x.neg, 0)
  else
    let top := (Nat.log2 x.m : Int) + x.e
    let q1 := top - f.p + 1
    let (n1, ix1) := roundAt x q1 mode
    let e1 := (Nat.log2 n1 : Int) + q1
    if f.emax < e1 || (f.e4m3 && e1 == f.emax && n1 == 15) then
      (overflowF f x.neg mode sat, flOverflow + flInexact)
    else if e1 < f.emin then
      let (n2, ix2) := roundAt x (elsb f) mode
      (encF f x.neg n2 (elsb f), if ix2 then flUnderflow + flInexact else 0)
    else (encF f x.neg n1 q1, if ix1 then flInexact else 0)

/-- Infinity delivered into a format: E4M3 has none (R48). -/
def infTo (f : Fmt) (neg : Bool) (sat : Bool) : Nat × Nat :=
  if f.e4m3 then (if sat then (maxF f neg, flOverflow + flInexact) else (canonNaN f, flInvalid)) else (infF f neg, 0)

/-- Flag of NaN operands: invalid when one is signalling (R49). -/
def nanFlag (xs : List FV) : Nat := if xs.any fun x => x == .nan true then flInvalid else 0
/-- Whether a value is a NaN. -/
def isNaN : FV → Bool
  | .nan _ => true
  | _ => false
/-- Whether a value is an infinity. -/
def isInf : FV → Bool
  | .inf _ => true
  | _ => false
/-- Whether a value is a zero. -/
def isZero : FV → Bool
  | .fin _ 0 _ => true
  | _ => false
/-- Sign of a value, false for NaN. -/
def sgn : FV → Bool
  | .nan _ => false
  | .inf n => n
  | .fin n _ _ => n

/-- Exact sum of two finite values; an exact zero from opposite signs is +0, or −0 under RDN (R47). -/
def addEx (mode : Nat) (n1 : Bool) (m1 : Nat) (e1 : Int) (n2 : Bool) (m2 : Nat) (e2 : Int) : Ex :=
  let e := min e1 e2
  let a : Int := (m1 * 2 ^ (e1 - e).toNat : Nat)
  let b : Int := (m2 * 2 ^ (e2 - e).toNat : Nat)
  let v := (if n1 then -a else a) + (if n2 then -b else b)
  if v = 0 then ⟨if n1 == n2 then n1 else mode == 3, 0, e, false⟩ else ⟨decide (v < 0), v.natAbs, e, false⟩

/-- a + b (R47, R49). -/
def addF (f : Fmt) (mode : Nat) (sat : Bool) (a b : FV) : Nat × Nat :=
  match a, b with
  | .nan _, _ => (canonNaN f, nanFlag [a, b])
  | _, .nan _ => (canonNaN f, nanFlag [a, b])
  | .inf n, .inf k => if n = k then infTo f n sat else (canonNaN f, flInvalid)
  | .inf n, _ => infTo f n sat
  | _, .inf n => infTo f n sat
  | .fin n1 m1 e1, .fin n2 m2 e2 => roundF f mode sat (addEx mode n1 m1 e1 n2 m2 e2)

/-- Sign inversion of a value. -/
def negF : FV → FV
  | .nan q => .nan q
  | .inf n => .inf !n
  | .fin n m e => .fin (!n) m e

/-- a × b. -/
def mulF (f : Fmt) (mode : Nat) (sat : Bool) (a b : FV) : Nat × Nat :=
  match a, b with
  | .nan _, _ => (canonNaN f, nanFlag [a, b])
  | _, .nan _ => (canonNaN f, nanFlag [a, b])
  | .fin n1 m1 e1, .fin n2 m2 e2 => roundF f mode sat ⟨n1 != n2, m1 * m2, e1 + e2, false⟩
  | _, _ => if isZero a || isZero b then (canonNaN f, flInvalid) else infTo f (sgn a != sgn b) sat

/-- a × b + c with one rounding (R137): 0 × ∞ is invalid even beside a quiet NaN. -/
def fmaF (f : Fmt) (mode : Nat) (sat : Bool) (a b c : FV) : Nat × Nat :=
  if (isZero a && isInf b) || (isInf a && isZero b) then (canonNaN f, flInvalid)
  else
    match a, b, c with
    | .fin n1 m1 e1, .fin n2 m2 e2, .fin n3 m3 e3 =>
      roundF f mode sat (addEx mode (n1 != n2) (m1 * m2) (e1 + e2) n3 m3 e3)
    | _, _, _ =>
      if isNaN a || isNaN b || isNaN c then (canonNaN f, nanFlag [a, b, c])
      else if isInf a || isInf b then
        let n := sgn a != sgn b
        if isInf c && sgn c != n then (canonNaN f, flInvalid) else infTo f n sat
      else infTo f (sgn c) sat

/-- Exact quotient of finite values, b nonzero, cut with a sticky bit far below the precision. -/
def divEx (p : Nat) (n1 : Bool) (m1 : Nat) (e1 : Int) (n2 : Bool) (m2 : Nat) (e2 : Int) : Ex :=
  let k := p + 4 + Nat.log2 m2
  ⟨n1 != n2, m1 * 2 ^ k / m2, e1 - e2 - k, m1 * 2 ^ k % m2 ≠ 0⟩

/-- a / b (R139). -/
def divF (f : Fmt) (mode : Nat) (sat : Bool) (a b : FV) : Nat × Nat :=
  match a, b with
  | .nan _, _ => (canonNaN f, nanFlag [a, b])
  | _, .nan _ => (canonNaN f, nanFlag [a, b])
  | .inf _, .inf _ => (canonNaN f, flInvalid)
  | .inf n, .fin k _ _ => infTo f (n != k) sat
  | .fin n _ _, .inf k => (signBit f (n != k), 0)
  | .fin n1 m1 e1, .fin n2 m2 e2 =>
    if m2 = 0 then
      if m1 = 0 then (canonNaN f, flInvalid)
      else let r := infTo f (n1 != n2) sat; (r.1, r.2 ||| flDivZero)
    else roundF f mode sat (divEx f.p n1 m1 e1 n2 m2 e2)

/-- Integer square root below 2^k, bit by bit. -/
def isqrt (n : Nat) : Nat → Nat → Nat
  | 0, r => r
  | k + 1, r => if (r + 2 ^ k) * (r + 2 ^ k) ≤ n then isqrt n k (r + 2 ^ k) else isqrt n k r

/-- Square root (R139). -/
def sqrtF (f : Fmt) (mode : Nat) (a : FV) : Nat × Nat :=
  match a with
  | .nan _ => (canonNaN f, nanFlag [a])
  | .inf n => if n then (canonNaN f, flInvalid) else (infF f false, 0)
  | .fin n m e =>
    if m = 0 then (signBit f n, 0)
    else if n then (canonNaN f, flInvalid)
    else
      let k0 := 2 * (f.p + 3)
      let k : Nat := if (e - k0) % 2 = 0 then k0 else k0 + 1
      let x := m * 2 ^ k
      let r := isqrt x (Nat.log2 x / 2 + 1) 0
      roundF f mode false ⟨false, r, (e - k) / 2, r * r ≠ x⟩

/-! ### 2^x and log₂ x to 320 fraction bits (R139; log entry 8) -/

/-- Fraction bits of the working precision. -/
def prec : Nat := 320
/-- Partial sum of Σ 1/(k·2^k) from `k`, scaled by 2^prec. -/
def ln2Sum : Nat → Nat → Nat
  | 0, _ => 0
  | n + 1, k => 2 ^ prec / (k * 2 ^ k) + ln2Sum n (k + 1)
/-- ln 2, scaled. -/
def ln2 : Nat := ln2Sum 330 1
/-- Σ y^k / k! from term `t` at index `k`, all scaled. -/
def expSum (y : Nat) : Nat → Nat → Nat → Nat
  | 0, _, _ => 0
  | n + 1, k, t => t + expSum y n (k + 1) (t * y / 2 ^ prec / k)
/-- Σ z^(2k+1)/(2k+1), scaled; `t` is the current power, `z2` the square of z. -/
def atanhSum (z2 : Nat) : Nat → Nat → Nat → Nat
  | 0, _, _ => 0
  | n + 1, k, t => t / (2 * k + 1) + atanhSum z2 n (k + 1) (t * z2 / 2 ^ prec)

/-- FEXP2 (R139). -/
def exp2F (f : Fmt) (mode : Nat) (a : FV) : Nat × Nat :=
  match a with
  | .nan _ => (canonNaN f, nanFlag [a])
  | .inf n => if n then (0, 0) else (infF f false, 0)
  | .fin n m e =>
    -- beyond every exponent of the format the result is decided by its side alone
    if m ≠ 0 && decide (12 < (Nat.log2 m : Int) + e) then
      roundF f mode false (if n then ⟨false, 1, -4000, true⟩ else ⟨false, 1, 4000, true⟩)
    else
      let k : Nat := (-e).toNat
      let v : Int := if n then -((m * 2 ^ e.toNat : Nat) : Int) else ((m * 2 ^ e.toNat : Nat) : Int)
      let whole := v / (2 ^ k : Nat)
      let frac := (v % (2 ^ k : Nat)).toNat
      if frac = 0 then roundF f mode false ⟨false, 1, whole, false⟩
      else
        let y := frac * ln2 / 2 ^ k
        roundF f mode false ⟨false, expSum y 90 1 (2 ^ prec), whole - prec, true⟩

/-- FLOG2 (R139). -/
def log2F (f : Fmt) (mode : Nat) (a : FV) : Nat × Nat :=
  match a with
  | .nan _ => (canonNaN f, nanFlag [a])
  | .inf n => if n then (canonNaN f, flInvalid) else (infF f false, 0)
  | .fin n m e =>
    if m = 0 then (infF f true, flDivZero)
    else if n then (canonNaN f, flInvalid)
    else
      let t := Nat.log2 m
      let ex : Int := (t : Int) + e
      if m = 2 ^ t then
        if ex = 0 then (0, 0) else roundF f mode false ⟨decide (ex < 0), ex.natAbs, 0, false⟩
      else
        let z := (m - 2 ^ t) * 2 ^ prec / (m + 2 ^ t)
        let l := 2 * atanhSum (z * z / 2 ^ prec) 110 0 z
        let v : Int := ex * (2 ^ prec : Nat) + ((l * 2 ^ prec / ln2 : Nat) : Int)
        roundF f mode false ⟨decide (v < 0), v.natAbs, -(prec : Int), true⟩

/-! ### Comparison, minimum, maximum (R138, R144) -/

/-- a < b for numbers, −0 equal to +0. -/
def ltF (a b : FV) : Bool :=
  let sgnVal (n : Bool) (m : Nat) (e base : Int) : Int :=
    let v : Int := (m * 2 ^ (e - base).toNat : Nat)
    if n then -v else v
  match a, b with
  | .nan _, _ => false
  | _, .nan _ => false
  | .inf n, .inf k => n && !k
  | .inf n, .fin _ _ _ => n
  | .fin _ _ _, .inf k => !k
  | .fin n1 m1 e1, .fin n2 m2 e2 =>
    let b := min e1 e2
    decide (sgnVal n1 m1 e1 b < sgnVal n2 m2 e2 b)
/-- a = b for numbers, −0 equal to +0. -/
def eqF (a b : FV) : Bool := !isNaN a && !isNaN b && !ltF a b && !ltF b a
/-- FCMP (R144): the predicate and the invalid flag. -/
def cmpF (c : Cond) (a b : FV) : Bool × Nat :=
  let un := isNaN a || isNaN b
  let quiet := nanFlag [a, b]
  let signal := if un then flInvalid else 0
  match c with
  | .eq => (eqF a b, quiet)
  | .ne => (!eqF a b, quiet)
  | .lt => (ltF a b, signal)
  | .le => (ltF a b || eqF a b, signal)
  | .gt => (ltF b a, signal)
  | .ge => (ltF b a || eqF a b, signal)
  | .un => (un, quiet)
  | .or => (!un, quiet)
/-- Which operand FMIN or FMAX returns (R138): 0 A, 1 B, 2 identical, 3 canonical NaN; and the flags. −0 is smaller
than +0. -/
def pickF (isMin : Bool) (a b : FV) : Nat × Nat :=
  match isNaN a, isNaN b with
  | true, true => (3, nanFlag [a, b])
  | true, false => (1, nanFlag [a])
  | false, true => (0, nanFlag [b])
  | false, false =>
    let lt := ltF a b || (isZero a && isZero b && sgn a && !sgn b)
    let gt := ltF b a || (isZero a && isZero b && sgn b && !sgn a)
    (if lt then (if isMin then 0 else 1) else if gt then (if isMin then 1 else 0) else 2, 0)

/-! ### Integer conversion (R50, R146) -/

/-- `round(e, I, m)` of a value into an integer range (R50): the integer and the flags. -/
def toIntF (mode : Nat) (lo hi : Int) (a : FV) : Int × Nat :=
  match a with
  | .nan _ => (0, flInvalid)
  | .inf n => (if n then lo else hi, flInvalid)
  | .fin n m e =>
    let (q, ix) := roundAt ⟨n, m, e, false⟩ 0 mode
    let v : Int := if n then -(q : Int) else q
    if v < lo then (lo, flInvalid) else if hi < v then (hi, flInvalid) else (v, if ix then flInexact else 0)
/-- `round(e, I, m)` of an exact real. -/
def exToInt (mode : Nat) (lo hi : Int) (x : Ex) : Int × Nat :=
  let (q, ix) := roundAt x 0 mode
  let v : Int := if x.neg then -(q : Int) else q
  if v < lo then (lo, flInvalid) else if hi < v then (hi, flInvalid) else (v, if ix then flInexact else 0)
/-- An integer into a format (R146). -/
def ofIntF (f : Fmt) (mode : Nat) (v : Int) : Nat × Nat := roundF f mode false ⟨decide (v < 0), v.natAbs, 0, false⟩
/-- One FP format into another (R146, R48). -/
def cvtF (dst : Fmt) (mode : Nat) (sat : Bool) (a : FV) : Nat × Nat :=
  match a with
  | .nan _ => (canonNaN dst, nanFlag [a])
  | .inf n => infTo dst n sat
  | .fin n m e => roundF dst mode sat ⟨n, m, e, false⟩

end Sys2Proof.Machine
end

