-- ==== Sys2Proof/Machine/Flags.lean ====
section
/-! DEFINITION. Significance tags (R58 to R63), exact accumulators (R55 to R57), and FP results with their tags and flags
(R59, R61, R136). Integer instructions set no flag (R106). -/

namespace Sys2Proof.Machine

/-! ### Tag views (R58) -/

/-- E(x): floor of log₂|x|, or emin for a zero. -/
def expOf (f : Fmt) (x : FV) : Int :=
  match x with
  | .fin _ m e => if m = 0 then f.emin else (Nat.log2 m : Int) + e
  | _ => 0
/-- Whether a finite nonzero value is subnormal in its format. -/
def subnormal (f : Fmt) (x : FV) : Bool :=
  match x with
  | .fin _ m e => m ≠ 0 && decide ((Nat.log2 m : Int) + e < f.emin)
  | _ => false
/-- eff(x, t). -/
def eff (f : Fmt) (x : FV) (t : Nat) : Int :=
  let u : Int := if t = 63 then f.p else min t f.p
  if subnormal f x then min u (expOf f x + 1 - elsb f) else u
/-- Lof(x, t) from the effective tag. -/
def lof (f : Fmt) (x : FV) (te : Int) : Int := expOf f x - te + 1
/-- cap(y). -/
def capOf (f : Fmt) (y : FV) : Int := if subnormal f y then expOf f y + 1 - elsb f else f.p
/-- A finished tag: 0 for NaN and infinite results (R59). -/
def tagOf (y : FV) (t : Int) : Tag := if isNaN y || isInf y then 0 else BitVec.ofNat 6 t.toNat

/-- An FP result: bits, flags, tag before policy (R136). -/
structure FO where
  y : Nat
  fl : Nat
  tag : Tag
  deriving DecidableEq, Repr, Inhabited

/-- Product rule (R59) on effective tags. -/
def prodTag (f : Fmt) (y : FV) (ta tb : Int) : Int :=
  clamp (min ta tb - (if ta = tb ∧ ta < f.p then 1 else 0)) 0 (capOf f y)
/-- Add rule (R59): `l` is L_res; an exact zero gets p when both tags are p, else 0. -/
def addTag (f : Fmt) (y : FV) (exactZero : Bool) (full : Bool) (l : Int) : Int :=
  if exactZero then (if full then f.p else 0) else clamp (expOf f y - l + 1) 0 (capOf f y)
/-- Whether a result is an exact zero: zero without the inexact flag. -/
def exactZ (f : Fmt) (y fl : Nat) : Bool := isZero (decF f y) && fl % 2 == 0

/-- FADD, FSUB, DADD, DSUB, HADD2 (R137). -/
def opAdd (f : Fmt) (mode : Nat) (sub : Bool) (a ta b tb : Nat) : FO :=
  let x := decF f a
  let y := if sub then negF (decF f b) else decF f b
  let r := addF f mode false x y
  let ea := eff f x ta
  let eb := eff f y tb
  let v := decF f r.1
  ⟨r.1, r.2, tagOf v (addTag f v (exactZ f r.1 r.2) (ea == f.p && eb == f.p) (max (lof f x ea) (lof f y eb)))⟩
/-- FMUL, DMUL, HMUL2. -/
def opMul (f : Fmt) (mode : Nat) (a ta b tb : Nat) : FO :=
  let x := decF f a
  let y := decF f b
  let r := mulF f mode false x y
  let v := decF f r.1
  ⟨r.1, r.2, tagOf v (prodTag f v (eff f x ta) (eff f y tb))⟩
/-- FFMA, DFMA, HFMA2: the product rule on the exact product, then the add rule. -/
def opFma (f : Fmt) (mode : Nat) (a ta b tb c tc : Nat) : FO :=
  let x := decF f a
  let y := decF f b
  let z := decF f c
  let r := fmaF f mode false x y z
  let ea := eff f x ta
  let eb := eff f y tb
  let ec := eff f z tc
  let tab := clamp (min ea eb - (if ea = eb ∧ ea < f.p then 1 else 0)) 0 f.p
  let eab : Int :=
    match x, y with
    | .fin _ m1 e1, .fin _ m2 e2 => if m1 * m2 = 0 then f.emin else (Nat.log2 (m1 * m2) : Int) + e1 + e2
    | _, _ => 0
  let v := decF f r.1
  ⟨r.1, r.2, tagOf v (addTag f v (exactZ f r.1 r.2) (tab == f.p && ec == f.p) (max (eab - tab + 1) (lof f z ec)))⟩
/-- FDIV, DDIV: product rule; a finite result from an infinite operand gets tag 0 (R140). -/
def opDiv (f : Fmt) (mode : Nat) (a ta b tb : Nat) : FO :=
  let x := decF f a
  let y := decF f b
  let r := divF f mode false x y
  let v := decF f r.1
  ⟨r.1, r.2, if isInf y then 0 else tagOf v (prodTag f v (eff f x ta) (eff f y tb))⟩
/-- FSQRT, DSQRT. -/
def opSqrt (f : Fmt) (mode : Nat) (a ta : Nat) : FO :=
  let x := decF f a
  let r := sqrtF f mode x
  let v := decF f r.1
  ⟨r.1, r.2, tagOf v (min (capOf f v) (eff f x ta + 1))⟩
/-- FRCP: FDIV with a = 1.0 (R139), tag clamp(ta, 0, cap). -/
def opRcp (f : Fmt) (mode : Nat) (a ta : Nat) : FO :=
  let x := decF f a
  let r := divF f mode false (.fin false 1 0) x
  let v := decF f r.1
  ⟨r.1, r.2, if isInf x then 0 else tagOf v (clamp (eff f x ta) 0 (capOf f v))⟩
/-- FEXP2. -/
def opExp2 (f : Fmt) (mode : Nat) (a ta : Nat) : FO :=
  let x := decF f a
  let r := exp2F f mode x
  let v := decF f r.1
  let ea := eff f x ta
  ⟨r.1, r.2, if isInf x then 0 else
    tagOf v (if ea = f.p then capOf f v else clamp (-(lof f x ea)) 0 (capOf f v))⟩
/-- FLOG2. -/
def opLog2 (f : Fmt) (mode : Nat) (a ta : Nat) : FO :=
  let x := decF f a
  let r := log2F f mode x
  let v := decF f r.1
  let ea := eff f x ta
  ⟨r.1, r.2, tagOf v (if isZero v then (if ea = f.p then f.p else 0) else clamp (expOf f v + ea) 0 (capOf f v))⟩
/-- FMIN, FMAX, DMIN, DMAX (R138): the returned operand with its own tag, limited by eff where it is subnormal. -/
def opMinMax (f : Fmt) (isMin : Bool) (a ta b tb : Nat) : FO :=
  let x := decF f a
  let y := decF f b
  let r := pickF isMin x y
  let ea := eff f x ta
  let eb := eff f y tb
  match r.1 with
  | 0 => ⟨a, r.2, tagOf x ea⟩
  | 1 => ⟨b, r.2, tagOf y eb⟩
  | 2 => ⟨a, r.2, tagOf x (min ea eb)⟩
  | _ => ⟨canonNaN f, r.2, 0⟩

/-- Two halves as one element (R45, R59, R142). -/
def packHalves (lo hi : FO) : FO := ⟨lo.y + 2 ^ 16 * hi.y, lo.fl ||| hi.fl, if lo.tag.toNat ≤ hi.tag.toNat then lo.tag else hi.tag⟩

/-! ### Conversions (R61, R146) -/

/-- FP to FP. Wider formats take eff of the source, narrower ones are limited by cap(y). -/
def opCvt (src dst : Fmt) (mode : Nat) (a ta : Nat) : FO :=
  let x := decF src a
  let r := cvtF dst mode false x
  let v := decF dst r.1
  ⟨r.1, r.2, tagOf v (if src.p ≤ dst.p ∧ src.width < dst.width then eff src x ta else min (eff src x ta) (capOf dst v))⟩
/-- Integer to FP: p of the destination, limited to cap(y). -/
def opOfInt (dst : Fmt) (mode : Nat) (v : Int) : FO :=
  let r := ofIntF dst mode v
  let y := decF dst r.1
  ⟨r.1, r.2, tagOf y (capOf dst y)⟩

/-! ### Significance policy (R60) -/

/-- The tag written under SIGPOL (R60): OFF writes 63. -/
def polTag (sigpol : Nat) (t : Tag) : Tag := if sigpol = 2 then 63 else t
/-- Whether the SIGMIN check fails (R63). -/
def sigFails (sigpol : Nat) (sigmin : DWord) (t : Tag) : Bool :=
  sigpol == 0 && t != 63 && decide (t.toNat < sigmin.toNat % 64)

/-! ### Exact accumulators (R55 to R57) -/

/-- K of an accumulator: N counts multiples of 2^−K. -/
def accK (f : FW) : Nat := match f with | .f32 => 149 | .f64 => 1074
/-- W, the bits of N. -/
def accW (f : FW) : Nat := match f with | .f32 => 368 | .f64 => 2160
/-- Bytes of an accumulator. -/
def accBytes (f : FW) : Nat := match f with | .f32 => 48 | .f64 => 272
/-- The format of an accumulator. -/
def accFmt (f : FW) : Fmt := match f with | .f32 => fp32 | .f64 => fp64

/-- A contribution of a value of format `g` with tag `t` (R56), on the accumulator's bits. -/
def accAdd (f : FW) (g : Fmt) (acc : Nat) (x t : Nat) : Nat :=
  let w := accW f
  let n : Nat := acc % 2 ^ w
  let lmax : Nat := acc / 2 ^ w % 2 ^ 12
  let fl : Nat := acc / 2 ^ (w + 12) % 16       -- OVF, NINF, PINF, NAN from bit 0
  let pack (n lmax fl : Nat) : Nat := n + 2 ^ w * lmax + 2 ^ (w + 12) * fl
  match decF g x with
  | .nan _ => pack n lmax (fl ||| 8)
  | .inf false => pack n lmax (fl ||| 4)
  | .inf true => pack n lmax (fl ||| 2)
  | .fin neg m e =>
    let v : Int := ((m * 2 ^ (e + accK f).toNat : Nat) : Int)
    let s := sx n w + (if neg then -v else v)
    let ovf := decide (s < -((2 ^ (w - 1) : Nat) : Int)) || decide (((2 ^ (w - 1) : Nat) : Int) ≤ s)
    let xv : FV := decF g x
    let l := (lof g xv (eff g xv t) + 2048).toNat
    pack (wrap s w) (max lmax l) (if ovf then fl ||| 1 else fl)

/-- Merging of two accumulators (R447): values and flags of both. -/
def accMerge (f : FW) (a b : Nat) : Nat :=
  let w := accW f
  let s : Int := sx (a % 2 ^ w) w + sx (b % 2 ^ w) w
  let ovf := decide (s < -((2 ^ (w - 1) : Nat) : Int)) || decide (((2 ^ (w - 1) : Nat) : Int) ≤ s)
  let fl := (a / 2 ^ (w + 12) % 16) ||| (b / 2 ^ (w + 12) % 16) ||| (if ovf then 1 else 0)
  wrap s w + 2 ^ w * max (a / 2 ^ w % 2 ^ 12) (b / 2 ^ w % 2 ^ 12) + 2 ^ (w + 12) * fl

/-- Readout of an accumulator into format `g` (R57). A sum of 0 reads as +0 in every rounding mode (log entry 83). -/
def accRead (f : FW) (g : Fmt) (mode : Nat) (acc : Nat) : FO :=
  let w := accW f
  let n := sx (acc % 2 ^ w) w
  let lmax : Nat := acc / 2 ^ w % 2 ^ 12
  let fl : Nat := acc / 2 ^ (w + 12) % 16
  if fl.testBit 3 then ⟨canonNaN g, 0, 0⟩
  else if fl.testBit 2 && fl.testBit 1 then ⟨canonNaN g, flInvalid, 0⟩
  else if fl.testBit 2 then ⟨infF g false, 0, 0⟩
  else if fl.testBit 1 then ⟨infF g true, 0, 0⟩
  else if fl.testBit 0 then ⟨infF g (decide (n < 0)), flOverflow + flInexact, 0⟩
  else
    let r := roundF g mode false ⟨decide (n < 0), n.natAbs, -(accK f : Int), false⟩
    let y := decF g r.1
    let l : Int := (lmax : Int) - 2048
    ⟨r.1, r.2, if isZero y then (if lmax = 0 ∨ l ≤ -(accK f : Int) then BitVec.ofNat 6 g.p else 0)
      else tagOf y (clamp (expOf g y - l + 1) 0 (capOf g y))⟩

end Sys2Proof.Machine
end

