-- ==== Sys2Proof/Machine/Ops.lean ====
section
/-! DEFINITION. Named operations over cores, teams, registers and launch records, the order of one instruction
(R37), taking a trap (R373) and returning from one (R375), and run boundaries (R165). -/

namespace Sys2Proof.Machine

/-! ### Cores, contexts, launches -/

/-- Core `c`; a core that nothing has touched is empty. -/
def getCore (s : State) (c : Nat) : Core := ngetD default s.cores c
/-- Replace core `c`. -/
def setCore (s : State) (c : Nat) (k : Core) : State := { s with cores := nset s.cores c k }
/-- Update core `c`. -/
def updCore (s : State) (c : Nat) (f : Core → Core) : State := setCore s c (f (getCore s c))
/-- The team in resident slot `t` of core `c`. -/
def getTeam (s : State) (c t : Nat) : Option Team := nget (getCore s c).teams t
/-- Put a team into resident slot `t` of core `c`. -/
def setTeam (s : State) (c t : Nat) (x : Team) : State :=
  updCore s c fun k => { k with teams := nset k.teams t x }
/-- Update the team in resident slot `t` of core `c`, if there is one. -/
def updTeam (s : State) (c t : Nat) (f : Team → Team) : State :=
  match getTeam s c t with
  | some x => setTeam s c t (f x)
  | none => s
/-- Context `x`; a context that firmware has not created is FREE. -/
def getCtx (s : State) (x : Nat) : Ctx := ngetD { (default : Ctx) with st := .free } s.ctxs x
/-- Replace context `x`. -/
def setCtx (s : State) (x : Nat) (k : Ctx) : State := { s with ctxs := nset s.ctxs x k }
/-- Update context `x`. -/
def updCtx (s : State) (x : Nat) (f : Ctx → Ctx) : State := setCtx s x (f (getCtx s x))
/-- Launch `q` of context `x`. -/
def getLaunch (s : State) (x q : Nat) : Launch :=
  ((getCtx s x).launches.find? fun l => l.seq == q).getD default
/-- Update launch `q` of context `x`. -/
def updLaunch (s : State) (x q : Nat) (f : Launch → Launch) : State :=
  updCtx s x fun k => { k with launches := k.launches.map fun l => if l.seq = q then f l else l }
/-- Workgroup `id` on core `c`. -/
def getWg (s : State) (c id : Nat) : Wg := ((getCore s c).wgs.find? fun w => w.id == id).getD default
/-- Update workgroup `id` on core `c`. -/
def updWg (s : State) (c id : Nat) (f : Wg → Wg) : State :=
  updCore s c fun k => { k with wgs := k.wgs.map fun w => if w.id = id then f w else w }

/-- Die of a global core number (R11). -/
def dieOf (c : Nat) : Nat := c / Config.coresPerDie
/-- Global cluster of a core (R11). -/
def clusterOf (c : Nat) : Nat := c / Config.coresPerCluster
/-- Slice homing a physical address (R208). -/
def sliceOf (pa : Nat) : Nat := 16 * (pa / 2 ^ 36) + (bits pa 12 9 ^^^ bits pa 16 13)

/-! ### Launch records (R327 to R330) -/

/-- Field of `n` bits at bit `lo` of a record held as 64-bit words; no field crosses a word. -/
def recField (ws : List DWord) (lo n : Nat) : Nat := ((nth 0 ws (lo / 64)).toNat >>> (lo % 64)) % 2 ^ n
def recCodeBase (ws : List DWord) : Nat := recField ws 0 57
def recCodeExt (ws : List DWord) : Nat := recField ws 64 32
def recGrid (ws : List DWord) : Nat := recField ws 96 32
def recChunk (ws : List DWord) : Nat := recField ws 128 32
def recXhnd (ws : List DWord) : Nat := recField ws 160 32
def recTraph (ws : List DWord) : Nat := recField ws 192 32
def recRegs (ws : List DWord) : Nat := recField ws 224 9
def recTiles (ws : List DWord) : Nat := recField ws 233 7
def recPool (ws : List DWord) : Nat := recField ws 240 10
def recShare (ws : List DWord) : Nat := recField ws 256 11
def recSbv (ws : List DWord) : Bool := recField ws 267 1 == 1
def recShareBase (ws : List DWord) : Nat := recField ws 268 6
def recLscv (ws : List DWord) : Bool := recField ws 274 1 == 1
def recLsc (ws : List DWord) : Nat := recField ws 275 6
def recTop (ws : List DWord) : Nat := recField ws 281 3
def recPrio (ws : List DWord) : Nat := recField ws 284 2
def recWld (ws : List DWord) : Bool := recField ws 286 1 == 1
def recRpl (ws : List DWord) : Bool := recField ws 287 1 == 1
def recWload (ws : List DWord) : Bool := recField ws 288 1 == 1
def recLmode (ws : List DWord) : Bool := recField ws 289 1 == 1
def recEve (ws : List DWord) : Bool := recField ws 290 1 == 1
def recEvt (ws : List DWord) : Nat := recField ws 291 12
def recComm (ws : List DWord) : Nat := recField ws 320 57
def recListAddr (ws : List DWord) : Nat := recField ws 384 57
def recCntAddr (ws : List DWord) : Nat := recField ws 448 57
def recCwAddr (ws : List DWord) : Nat := recField ws 512 57
/-- Format slot f(n) (R52). -/
def recSlot (ws : List DWord) (n : Nat) : DWord := nth 0 ws (16 + n)
/-- EXTENT, BIND and SCOPE of level `n` (R329). -/
def recExtent (ws : List DWord) (n : Nat) : Nat := recField ws (0xC0 * 8 + 32 * (n - 2)) 16
def recBind (ws : List DWord) (n : Nat) : Nat := recField ws (0xC0 * 8 + 32 * (n - 2) + 16) 3
def recScope (ws : List DWord) (n : Nat) : Nat := recField ws (0xC0 * 8 + 32 * (n - 2) + 19) 3
/-- Region entry `i` of RD0 to RD3, WR0, WR1 (R330): LEN, SPACE and BASE. -/
def recRegLen (ws : List DWord) (i : Nat) : Nat := recField ws (0x100 * 8 + 128 * i + 64) 40
def recRegSpace (ws : List DWord) (i : Nat) : Nat := recField ws (0x100 * 8 + 128 * i + 104) 1
def recRegBase (ws : List DWord) (i : Nat) : Nat := recField ws (0x100 * 8 + 128 * i) 57
/-- LVLn of a team, n from 1. -/
def lvlOf (lvl : List Nat) (n : Nat) : Nat := nth 0 lvl (n - 1)
/-- Number in the grid of the level-`L` unit that holds a team. -/
def unitNo (ws : List DWord) (lvl : List Nat) (L : Nat) : Nat :=
  let top := recTop ws
  (List.range (top - L)).foldl (fun u k => let n := top - 1 - k; u * recExtent ws (n + 1) + lvlOf lvl n) (lvlOf lvl top)
/-- Number of a team within its level-`L` unit. -/
def teamNo (ws : List DWord) (lvl : List Nat) (L : Nat) : Nat :=
  (List.range (L - 1)).foldl (fun u k => let n := L - 1 - k; u * recExtent ws (n + 1) + lvlOf lvl n) 0
/-- Teams of a level-`L` unit (R182). -/
def teamsIn (ws : List DWord) (L : Nat) : Nat := (List.range (L - 1)).foldl (fun u k => u * recExtent ws (k + 2)) 1
/-- The level of the workgroup (R161): the highest core-bound level, or 1 where each team is its own workgroup. -/
def wgLevel (ws : List DWord) : Nat :=
  (List.range 8).foldl (fun a n => if 2 ≤ n ∧ n ≤ recTop ws ∧ recBind ws n = 0 then n else a) 1
/-- Starting tag of s(n), 54 to 62 read as 63 (R329, R58). -/
def recSTag (ws : List DWord) (n : Nat) : Tag :=
  let t := recField ws (0x180 * 8 + 8 * n) 6
  if 54 ≤ t then 63 else BitVec.ofNat 6 t
/-- Constant c(n) (R22). -/
def recConst (ws : List DWord) (n : Nat) : DWord := nth 0 ws (64 + n)
/-- Buffer record b(n) as launched (R327). -/
def recBuf (ws : List DWord) (n : Nat) : BitVec 256 :=
  BitVec.ofNat 256 ((nth 0 ws (96 + 4 * n)).toNat + 2 ^ 64 * (nth 0 ws (97 + 4 * n)).toNat
    + 2 ^ 128 * (nth 0 ws (98 + 4 * n)).toNat + 2 ^ 192 * (nth 0 ws (99 + 4 * n)).toNat)
/-- Starting value of s(n). -/
def recSVal (ws : List DWord) (n : Nat) : DWord := nth 0 ws (160 + n)

/-! ### Format slots (R52) -/

def slotFmt (x : DWord) : Nat := bits x.toNat 3 0
def slotScale (x : DWord) : Nat := bits x.toNat 5 4
def slotMode (x : DWord) : Nat := bits x.toNat 7 6
def slotFast (x : DWord) : Bool := bit x.toNat 8
def slotSat (x : DWord) : Bool := bit x.toNat 9
def slotSigpol (x : DWord) : Nat := bits x.toNat 11 10
def slotDtol (x : DWord) : Nat := bits x.toNat 17 12
def slotScb (x : DWord) : Nat := bits x.toNat 21 18

/-! ### Counters, pulses, fault records -/

/-- Add `n` to counter `w` of Gait block `b` (R458), unless monitors are frozen (R459). -/
def tally (s : State) (b w n : Nat) : State :=
  if s.gait.frozen then s
  else { s with gait := { s.gait with
    counters := nset s.gait.counters (16 * b + w) (ngetD 0 s.gait.counters (16 * b + w) + n) } }
/-- The device's block of Gait counters (R458). -/
def devBlock : Nat := Config.cores + Config.slices + Config.dies
/-- Slice `k`. -/
def getSlice (s : State) (k : Nat) : Slice := ngetD ⟨false, [], []⟩ s.slices k
/-- Replace slice `k`. -/
def setSlice (s : State) (k : Nat) (x : Slice) : State := { s with slices := nset s.slices k x }
/-- Set of a slice cache that a line of the slice falls into, counted over the slice's own lines (R208, R209; log entry 80). -/
def cacheSet (line : Nat) : Nat := (line / 64 * 4 + line % 4) % Config.cacheSets
/-- Lines of one set. -/
def setLines (m : NMap Bool) (k : Nat) : NMap Bool := m.filter fun e => cacheSet e.1 == k
/-- The line that makes room in a full set: one marked evict-first, else a free choice; a line whose release record is not empty stays
until the record has been promoted (R220). -/
def cacheLeaves (s : State) (set_ : NMap Bool) : Option Nat :=
  let ok := set_.filter fun e => (nget s.relRecs e.1).isNone
  match ok.find? (·.2), ok with
  | some e, _ => some e.1
  | none, [] => none
  | none, _ => some (nth (0, false) ok (Config.cacheVictim s.freshCount % ok.length)).1
/-- The cache of a slice after an access to `line` under policy `pol`: 0 allocate, 1 allocate and evict first, 2 no allocate (R75, R209). -/
def cacheAfter (s : State) (m : NMap Bool) (line : Nat) (pol : BitVec 2) : NMap Bool :=
  if pol = 2 then m
  else
    let set_ := setLines m (cacheSet line)
    if (nget m line).isSome || decide (set_.length < Config.cacheWays) then nset m line (pol == 1)
    else
      match cacheLeaves s set_ with
      | some old => nset (ndel m old) line (pol == 1)
      | none => m
/-- An access at a location reaches its slice (R209, R458): counter `w` counts it, as a hit or a miss, and its line is allocated. -/
def tallyAt (s : State) (l : Loc) (w : Nat) (pol : BitVec 2) : State :=
  match l with
  | .hbm pa =>
    let k := sliceOf pa
    let x := getSlice s k
    let s1 := tally (tally s (Config.cores + k) w 1) (Config.cores + k) (if (nget x.cache (pa / 128)).isSome then 2 else 3) 1
    { setSlice s1 k { x with cache := cacheAfter s x.cache (pa / 128) pol } with freshCount := s.freshCount + 1 }
  | _ => s
/-- Keys of the latency monitors (R459): copy channel and tile engine of a core, slice, Zephyr, Bridle unit, task unit. -/
def monChan (c ch : Nat) : Nat := 16 * c + ch
def monTile (c : Nat) : Nat := 16 * c + 8
def monSlice (k : Nat) : Nat := 16 * Config.cores + k
def monZephyr : Nat := 16 * Config.cores + 256
def monBridle : Nat := 16 * Config.cores + 257
def monTask : Nat := 16 * Config.cores + 258
/-- min(63, floor(4·log2 L)) (R459); the bin of L = 0 is a free value. -/
def latBin (k l : Nat) : Nat := if l = 0 then (Config.zeroBin k).toNat else min 63 (Nat.log2 (l ^ 4))
/-- A request accepted at clock `born` completes at engine `key`: it is counted, and above the threshold it fires the trigger (R459). -/
def monitor (s : State) (key born : Nat) : State :=
  if s.gait.frozen then s
  else
    let l := s.clock - born
    let m := ngetD ⟨l, l, [], none, 0, 0⟩ s.latency key
    let b := latBin s.freshCount l
    let m1 := { m with min := if m.bins.isEmpty then l else min m.min l, max := max m.max l, bins := nset m.bins b (ngetD 0 m.bins b + 1) }
    let slow := match m.threshold with | some e => decide (2 ^ e < l ^ 4) | none => false
    { s with
      latency := nset s.latency key m1, freshCount := s.freshCount + (if l = 0 then 1 else 0),
      gait := if slow then { s.gait with trig := max s.gait.trig m.action } else s.gait }
/-- Pulse the watchdog tree of context `x` (R378). -/
def pulse (s : State) (x : Nat) : State := updCtx s x fun k => { k with lastPulse := s.clock, idleAt := s.clock }
/-- Clocks in which context `x` has been resident (R212, R379). -/
def residentClock (s : State) (x : Nat) : Nat :=
  let k := getCtx s x
  (if k.st = .suspended then k.pausedAt else s.clock) - k.paused
/-- Hold a fault record for writing (R368). -/
def queueFault (s : State) (x : Nat) (r : FaultRec) : State :=
  updCtx s x fun k => { k with heldRecs := k.heldRecs ++ [r] }
/-- A fresh index for a free value of Config. -/
def fresh (s : State) : Nat × State := (s.freshCount, { s with freshCount := s.freshCount + 1 })

/-! ### Registers -/

/-- Element of v(n) in a lane (R23): unwritten elements hold 0, full, tag 63. -/
def getV (t : Team) (n l : Nat) : Elem := ngetD ⟨0, true, 63⟩ t.v (32 * n + l)
/-- Set an element of v(n). -/
def setV (t : Team) (n l : Nat) (e : Elem) : Team := { t with v := nsetD ⟨0, true, 63⟩ t.v (32 * n + l) e }
/-- Scalar s(n). -/
def getS (t : Team) (n : Nat) : SElem := ngetD ⟨0, true, 63⟩ t.s n
/-- Set scalar s(n). -/
def setS (t : Team) (n : Nat) (e : SElem) : Team := { t with s := nsetD ⟨0, true, 63⟩ t.s n e }
/-- Predicate p(n); p7 reads true and full (R26). -/
def getP (t : Team) (n : Nat) : PElem :=
  if n = 7 then ⟨BitVec.allOnes 32, BitVec.allOnes 32⟩ else ngetD ⟨0, BitVec.allOnes 32⟩ t.p n
/-- Set a predicate element; writes to p7 are discarded (R26). -/
def setPBit (t : Team) (n l : Nat) (v : Bool) (full : Bool) : Team :=
  if n = 7 then t
  else
    let o := getP t n
    let m : Mask := 1#32 <<< l
    let put (x : Mask) (b : Bool) : Mask := if b then x ||| m else x &&& ~~~ m
    { t with p := nsetD ⟨0, BitVec.allOnes 32⟩ t.p n ⟨put o.val v, put o.full full⟩ }
/-- `lpc` of a lane (R27). -/
def getLpc (t : Team) (l : Nat) : Word := nth 0 t.lpc l
/-- A tag written to a register: 54 to 62 become 63 (R58). -/
def regTag (t : Tag) : Tag := if 54 ≤ t.toNat then 63 else t

/-- A value as an operand delivers it. -/
structure Val where
  bits : DWord
  tag : Tag
  full : Bool
  deriving DecidableEq, Repr, Inhabited

/-- A pair (R24): full only when both elements are, with the tag of v(2n). -/
def getPair (t : Team) (n l : Nat) : Val :=
  let lo := getV t n l
  let hi := getV t (n + 1) l
  ⟨BitVec.ofNat 64 (lo.val.toNat + 2 ^ 32 * hi.val.toNat), lo.tag, lo.full && hi.full⟩

/-- Write a result element (R24, R25, R105): a lane register or pair, a scalar (32-bit results zero the upper half), or a
predicate. Full, with 63 in the upper element of a pair, a cross-lane move's too (log entry 83). -/
def putOpd (t : Team) (d : Opd) (pair : Bool) (l : Nat) (x : DWord) (tag : Tag) : Team :=
  match d with
  | .v n =>
    if pair then
      setV (setV t n.toNat l ⟨x.setWidth 32, true, regTag tag⟩) (n.toNat + 1) l ⟨(x >>> 32).setWidth 32, true, 63⟩
    else setV t n.toNat l ⟨x.setWidth 32, true, regTag tag⟩
  | .s n => setS t n.toNat ⟨if pair then x else (x.setWidth 32).setWidth 64, true, regTag tag⟩
  | .p n => setPBit t n.toNat l (x != 0) true
  | _ => t

/-- Set the F/E bit of a destination element, keeping value and tag (R121, R37 step 6). -/
def markOpd (t : Team) (d : Opd) (pair : Bool) (l : Nat) (full : Bool) : Team :=
  match d with
  | .v n =>
    let one (t : Team) (k : Nat) := let e := getV t k l; setV t k l { e with full := full }
    if pair then one (one t n.toNat) (n.toNat + 1) else one t n.toNat
  | .s n => let e := getS t n.toNat; setS t n.toNat { e with full := full }
  | .p n => setPBit t n.toNat l (inMask (getP t n.toNat).val l) full
  | _ => t

/-- Whether a destination element is full and not held by a logged CVTQ (R37 step 4, R364). -/
def dstFree (t : Team) (d : Opd) (pair : Bool) (l : Nat) : Bool :=
  let notHeld (k : Nat) := !(t.heldRegs.any fun h => h.2 == k)
  match d with
  | .v n =>
    if pair then (getV t n.toNat l).full && (getV t (n.toNat + 1) l).full && notHeld n.toNat && notHeld (n.toNat + 1)
    else (getV t n.toNat l).full && notHeld n.toNat
  | .s n => (getS t n.toNat).full && notHeld (256 + n.toNat)
  | .p n => inMask (getP t n.toNat).full l
  | _ => true

/-! ### The team that issues (R156) -/

/-- Lanes of a team whose `lpc` equals the issue address. -/
def issueAddr (t : Team) : Word :=
  (lanesOf t.live).foldl (fun m l => if (getLpc t l).toNat < m.toNat then getLpc t l else m) (BitVec.allOnes 32)
/-- Executing lanes (R8, R156). -/
def executing (t : Team) : Mask := maskOf fun l => inMask t.live l && getLpc t l == issueAddr t
/-- Issue slot of a core. -/
def getISlot (s : State) (c i : Nat) : IssueSlot := ngetD ⟨none, 0⟩ (getCore s c).islots i
/-- Replace an issue slot. -/
def setISlot (s : State) (c i : Nat) (x : IssueSlot) : State :=
  updCore s c fun k => { k with islots := nset k.islots i x }
/-- Issue slot of a team (R163). -/
def islotOf (t : Team) : Nat := nth 0 t.lvl 0 % 4
/-- The team that holds the issue slot whose turn it is: core, resident slot, team. -/
def curTeam (s : State) : Option (Nat × Nat × Team) :=
  match (getISlot s s.turn.1 s.turn.2).holder with
  | some t =>
    match getTeam s s.turn.1 t with
    | some x => some (s.turn.1, t, x)
    | none => none
  | none => none

/-- Whether a log entry is in use: some lane that its mask does not hold has not been performed (R367, R420). -/
def logLive (s : State) (c : Nat) (e : LogEntry) : Bool :=
  s.reqs.any fun q => q.core == c && q.tid == e.tid && q.grp == e.grp && !q.done && !inMask e.pmask q.lane
/-- Whether a request's fault takes an operand log entry (R363, R365): not that of a ticket, of the append unit or of the task unit. -/
def needsLog (r : Req) : Bool :=
  match r.kind with
  | .fetch .. | .ldt .. | .launch .. => false
  | .expq .. => r.fault != 0
  | _ => r.fault != 0 || r.shFault != 0
/-- Whether an operand log entry of the team in slot `t` is still open, or one of its faults has still to take one (R373, R419). -/
def hasLog (s : State) (c t : Nat) : Bool :=
  match getTeam s c t with
  | none => false
  | some x =>
    ((getCore s c).log.any fun e => e.2.tid == x.tid && logLive s c e.2) ||
    (s.reqs.any fun r => r.core == c && r.tid == x.tid && ((getCore s c).logWait.contains r.grp || (needsLog r && r.logged.isNone)))

/-! ### Traps (R373 to R377) -/

/-- The trap record word s56 (R373). -/
def trapWord (ti : TrapInfo) : DWord :=
  BitVec.ofNat 64 (ti.cause.toNat + 2 ^ 8 * ti.detail.toNat + 2 ^ 32 * ti.opc.toNat)

/-- The eight scalars of the trap record (R373). -/
def trapRecord (t : Team) (ti : TrapInfo) : List DWord :=
  [trapWord ti, BitVec.ofNat 64 (ti.mask.toNat + 2 ^ 32 * t.retcnt.toNat), t.rgncnt, ti.info] ++
  (List.range 4).map fun i =>
    BitVec.ofNat 64 (leNat ((List.range 8).map fun j => nth 0 ti.bytes (8 * i + j)))

/-- Handler entry of a cause (R373): XHND for XOVF, TRAPH otherwise. -/
def handlerEntry (ws : List DWord) (cause : BitVec 8) : Nat :=
  if cause = 0x0A then recXhnd ws else recTraph ws

/-- Deliver a trap to a team of context record `ws` (R373): the control registers, the saved lanes and scalars, the
trap record, and every live lane at the handler. -/
def enterHandler (t : Team) (ws : List DWord) (ti : TrapInfo) : Team :=
  let t1 : Team := { t with
    trapcause := ti.cause.setWidth 64, trappc := ti.tpc.setWidth 64, trapmask := ti.mask.setWidth 64, trap := none,
    saved := some ⟨t.lpc, (List.range 8).map fun i => getS t (56 + i), t.rgnpc, t.rgncnt, t.retcnt, t.enter, ti.rgn⟩,
    lpc := lanes.map fun l => if inMask t.live l then BitVec.ofNat 32 (handlerEntry ws ti.cause) else getLpc t l,
    enter := false, closed := false, posted := false, growth := none }
  (List.range 8).foldl (fun t i => setS t (56 + i) ⟨nth 0 (trapRecord t1 ti) i, true, 63⟩) t1

/-- Whether an entry of the undo log is the mark of a region entry, which takes none of the log's 4,096 places. -/
def isMark : Undo → Bool
  | .entry .. => true
  | _ => false
/-- The newest `n` entries of an undo log, with the marks before the oldest of them; a mark older than a dropped entry names a region whose
entry the log no longer reaches (R390, R391). -/
def keepUndo : Nat → List Undo → List Undo
  | _, [] => []
  | n, u :: us => if isMark u then u :: keepUndo n us else match n with | 0 => [] | k + 1 => u :: keepUndo k us
/-- Add entries to the undo log of a team in debug mode; the log keeps its newest 4,096 (R390). -/
def addUndo (debug : Bool) (t : Team) (us : List Undo) : Team :=
  if debug then { t with undo := keepUndo 4096 (us ++ t.undo), undoNew := us ++ t.undoNew } else t
/-- Entries of the undo log for s56 to s63, which trap delivery and ERET change. -/
def undoTrapRegs (t : Team) : List Undo := (List.range 8).map fun i => .sreg (56 + i) (getS t (56 + i))
/-- Whether a trap halts the team instead (R375): inside a handler, or without one. -/
def trapHalts (t : Team) (ws : List DWord) (ti : TrapInfo) : Bool :=
  t.saved.isSome || handlerEntry ws ti.cause == 0xFFFFFFFF

/-- A SEQ trap that is delivered to the team of core `c`, slot `sl` reports every frozen slot that owes it one: TD becomes 1 (R407). -/
def reportSeq (s : State) (ctx c sl : Nat) (cause : BitVec 8) : State :=
  if cause = 9 then
    let k := getCtx s ctx
    { s with seqSlots := s.seqSlots.map fun e =>
        if decide (k.slotLo ≤ e.1) && decide (e.1 < k.slotLo + k.slotN) && e.2.st == .frozen && e.2.tv && e.2.tteam == BitVec.ofNat 16 (64 * c + sl)
        then (e.1, { e.2 with td := true }) else e }
  else s
/-- TAKING A TRAP (R373, R375): delivery to the team in slot `sl` of core `c`. -/
def deliverTrap (s : State) (c sl : Nat) (ti : TrapInfo) : State :=
  match getTeam s c sl with
  | none => s
  | some t =>
    let ws := (getLaunch s t.ctx t.seq).words
    if trapHalts t ws ti then
      queueFault
        (setTeam s c sl { t with
          trapcause := ti.cause.setWidth 64, trappc := ti.tpc.setWidth 64, trapmask := ti.mask.setWidth 64,
          trap := none, halted := true, stopSoon := false, steps := none, backing := false })
        t.ctx
        ⟨6, 0, 0, c, sl, 0, 0, ti.opc, 0, 0, 0, 0, trapWord ti, t.rgncnt, 0⟩
    else reportSeq (setTeam s c sl (enterHandler (addUndo (getCtx s t.ctx).debug t (undoTrapRegs t)) ws ti)) t.ctx c sl ti.cause

/-- RETURNING FROM A TRAP (R123, R375, R427): s56 to s63, the counters of the interrupted stream and the saved `lpc` of
every lane whose saved `lpc` is not TRAPPC. The other live lanes go to the region entry under *restart* (to PC 0 in the
start region), to TRAPPC + 1 under *skip*, which makes a region entry that the skipped instruction had still to make and counts it as
retired (R39). -/
def leaveHandler (t : Team) (skip : Bool) : Team :=
  match t.saved with
  | none => t
  | some sv =>
    let tpc : Word := t.trappc.setWidth 32
    let start := sv.rgncnt == 0 && !sv.enter
    let due := skip && (sv.enter || sv.rgn)
    let away : Word := if skip then tpc + 1 else if start then 0 else sv.rgnpc
    let t1 := (List.range 8).foldl (fun t i => setS t (56 + i) (nth default sv.s56 i)) t
    { t1 with
      saved := none, closed := false, posted := false,
      lpc := lanes.map fun l =>
        if !inMask t.live l then getLpc t l else if nth 0 sv.lpc l = tpc then away else nth 0 sv.lpc l,
      rgnpc := if due then tpc else sv.rgnpc,
      rgncnt := if due then sv.rgncnt + 1 else if skip || sv.enter || start then sv.rgncnt else sv.rgncnt - 1,
      retcnt := if due then 1 else if skip then sv.retcnt + 1 else 0,
      enter := if skip then false else !start }

/-- A team that a pending DBGBRK.halt halts now, unless it is in a trap handler or about to enter one; what is left of a DBGBRK.step is gone
(R392). -/
def haltIfAsked (t : Team) : Team :=
  if t.stopSoon && t.saved.isNone && t.trap.isNone then { t with halted := true, stopSoon := false, steps := none, backing := false } else t
/-- A team whose run ends; its key becomes the clock of the run's last instruction (R165, R167). -/
def endRunTeam (t : Team) : Team := haltIfAsked { t with run := 0, runYld := false, key := if t.run = 0 then t.key else t.lastIssue }
/-- A team whose tenure ends within its run: the key moves only under YLD (R165, R167). -/
def pauseTeam (t : Team) : Team := { t with key := if t.runYld then t.lastIssue else t.key }
/-- Resident slot `sl` gives issue slot `i` of core `c` up, if it holds it. -/
def freeISlot (s : State) (c sl i : Nat) : State :=
  let x := getISlot s c i
  setISlot s c i { x with holder := if x.holder = some sl then none else x.holder }
/-- End the run of the team and its tenure (R165, R167). -/
def endRun (s : State) (c sl : Nat) (t : Team) : State :=
  freeISlot (setTeam s c sl (endRunTeam t)) c sl (islotOf t)
/-- End the tenure of a team that the debugger stops within its run, which goes on in a later tenure (R165). -/
def endTenure (s : State) (c sl : Nat) (t : Team) : State := freeISlot (setTeam s c sl (pauseTeam t)) c sl (islotOf t)

/-- Whether the trap of a failed tile operation is enabled now (R290). -/
def owedOn (t : Team) (o : TrapInfo) : Bool := t.trapen.getLsbD (if o.cause = 7 then 7 else 8)
/-- A team with a raised trap. A DBGBRK.step or .back that it stops halts the team once it has left its handler (R392). -/
def withTrap (t : Team) (ti : TrapInfo) : Team :=
  { t with trap := some ti, posted := false, stopSoon := t.stopSoon || t.steps.isSome || t.backing, steps := none, backing := false }
/-- A trap is raised (R373): delivered at once when no log entry of the team is open, otherwise by a later TRAP_DELIVERY. A
trap ends the run (R165). -/
def takeTrap (s : State) (c sl : Nat) (t : Team) (ti : TrapInfo) : State :=
  let s1 := endRun s c sl (withTrap t ti)
  if hasLog s1 c sl then s1 else deliverTrap s1 c sl ti
/-- Raise a trap of an instruction at its issue (R373): it is the last of its run (R165, R167). -/
def raiseTrap (s : State) (c sl : Nat) (t : Team) (ti : TrapInfo) : State :=
  let owed := if ti.cause = 7 ∨ ti.cause = 8 then (t.owed.filter (owedOn t)).drop 1 else t.owed
  let s1 := takeTrap s c sl { t with owed := owed, run := t.run + 1, lastIssue := s.clock } ti
  { s1 with clock := s1.clock + 1 }

/-- A trap of the instruction at `pc` itself. -/
def trapAt (cause : BitVec 8) (pc : Word) (mask : Mask) : TrapInfo := ⟨cause, 0, pc, pc, mask, 0, [], false⟩

/-! ### Regions (R38, R371) -/

/-- Entries of the undo log for what an instruction of region `r` does: they stand before the marks of later regions; where the log no
longer holds the entry of region `r` or an earlier one, the change cannot be undone and is not recorded (R390, R391). -/
def insUndo (r : Nat) (us : List Undo) : List Undo → List Undo
  | [] => []
  | .entry n lpc live sn :: rest => if n.toNat ≤ r then us ++ .entry n lpc live sn :: rest else .entry n lpc live sn :: insUndo r us rest
  | u :: rest =>
    if rest.any fun v => match v with | .entry n .. => decide (r < n.toNat) | _ => false then u :: insUndo r us rest
    else if rest.any isMark then us ++ u :: rest else u :: rest
/-- What a region entry keeps of a team beside its registers (R391). -/
def snapOf (t : Team) : Snap :=
  ⟨t.bufs, t.sigmin, t.sigstat, t.fltstat, t.trapen, t.oobcnt, t.trapcause, t.trappc, t.trapmask, t.alloc, t.saved⟩
/-- Region entry at step 2 of the instruction at `pc` (R38, R371, R375): RGNCNT and RETCNT, RGNPC, discarded stops
(R392), and in debug mode the mark in the undo log (R390). -/
def enterRegion (t : Team) (debug : Bool) (pc : Word) (rgn : Bool) : Team :=
  if t.closed then t
  else if t.enter || rgn then
    { t with
      rgncnt := t.rgncnt + 1, retcnt := 0, rgnpc := pc, enter := false,
      stops := t.stops.filter fun p => decide (t.rgncnt.toNat < p.rgncnt.toNat),
      undo := if debug then .entry (t.rgncnt + 1) t.lpc t.live (snapOf t) :: t.undo else t.undo }
  else t

/-- Implicit closure of a region when an instruction at `pc` retires (R371): the next instruction is a region entry. -/
def closeRegion (t : Team) (debug : Bool) (pc : Word) : Team :=
  { t with rgncnt := t.rgncnt + 1, retcnt := 0, rgnpc := pc + 1, closed := true, enter := false,
           undo := if debug then [.entry (t.rgncnt + 1) t.lpc t.live (snapOf t)] else [],
           stops := t.stops.filter fun p => decide (t.rgncnt.toNat < p.rgncnt.toNat) }

/-- Whether the team stands at an armed stop (R392, R389). -/
def atStop (t : Team) : Bool := t.stops.any fun p => p.rgncnt == t.rgncnt && p.retcnt == t.retcnt

/-! ### End of a team (R117) -/

/-- Whether a long-latency producer into the team's registers is still in flight. -/
def producing (s : State) (c sl : Nat) : Bool :=
  s.reqs.any fun r => r.core == c && r.slot == sl &&
    (match r.kind with
     | .store _ | .sts _ _ _ | .spl _ _ | .mst .. | .xred _ _ _ | .evAdd _ _ | .fetch .. => false
     | _ => true)

/-- Remove a workgroup once its teams have ended and its engine commands are over (R162). -/
def reapWg (s : State) (c id : Nat) : State :=
  let k := getCore s c
  let w := getWg s c id
  if w.ended.length == w.teams && !(k.chans.any fun q => q.2.any fun m => m.wg == id)
      && !(k.tops.any fun o => o.wg == id) && !((getCtx s w.ctx).colls.any fun m => m.core == c && m.wg == id)
      && !(k.teams.any fun e => e.2.wg == id) then
    setCore s c { k with wgs := k.wgs.filter fun w => w.id != id }
  else s
/-- Remove an ended team once every producer into it has landed (R117). -/
def reap (s : State) (c sl : Nat) : State :=
  match getTeam s c sl with
  | none => s
  | some t =>
    if t.live = 0 && !producing s c sl then
      reapWg (updCore s c fun k => { k with teams := ndel k.teams sl }) c t.wg
    else s

/-- A team whose last live lane has exited ends (R117, R182): it counts as ended in its workgroup and launch. -/
def endTeam (s : State) (c sl : Nat) (t : Team) : State :=
  let ws := (getLaunch s t.ctx t.seq).words
  let s1 := updWg s c t.wg fun w => { w with ended := insAsc (teamNo ws t.lvl (wgLevel ws)) w.ended }
  let s2 := updLaunch s1 t.ctx t.seq fun l => { l with live := l.live - 1, ended := l.ended ++ [t.lvl] }
  reap s2 c sl

/-! ### One instruction, from guard to advance (R37) -/

/-- What steps 1 and 2 of R37 leave for the body of an instruction. -/
structure Issue where
  s : State                  -- with the region entered
  core : Nat
  slot : Nat
  t : Team
  pc : Word
  exec : Mask
  act : Mask
  head : Head
  grp : Nat                  -- number of this instruction, for its requests

/-- How the body of an instruction ends. -/
inductive Res where
  | wait                                   -- not ready (R164); nothing takes place
  | waitWith (s : State)                   -- not ready, its request has been posted
  | trap (ti : TrapInfo)                   -- precise trap; nothing commits
  | go (s : State)                         -- steps 5 to 7 done; advance to PC + 1
  | jump (s : State) (tgt : Nat → Word)    -- the active lanes branch
  | hold (s : State) (k : HoldKind)        -- issued, retires later
  | exit (s : State)                       -- the active lanes end (R117)
  | halt (s : State)                       -- the team stops, and its run ends (R118)
  | stop (s : State)                       -- the debugger stops the team (R392, R393)
  | eret (s : State)                       -- state already restored by ERET
  | after (s : State) (ti : TrapInfo)      -- retires, then traps (R244)

/-- An executed instruction counts for a DBGBRK.step; the team halts after the last (R392). -/
def stepDone (t : Team) : Team :=
  match t.steps with
  | some n => if n ≤ 1 then { t with steps := none, halted := true } else { t with steps := some (n - 1) }
  | none => t
/-- The team waits (R164, R165): its tenure ends and the clock issues nothing; the key moves only under YLD (R167). -/
def waitTeam (s : State) (c sl : Nat) (t : Team) : State :=
  let t' := haltIfAsked (pauseTeam { t with blocked := true })
  let i := getISlot s c (islotOf t)
  let s1 := setISlot (setTeam s c sl t') c (islotOf t) { i with holder := none }
  tally { s1 with clock := s1.clock + 1 } c 7 1

/-- An instruction with hints `h` is issued at clock `k`: it counts in the run (R165, R167). -/
def issued (t : Team) (k : Nat) (h : Head) : Team :=
  { t with run := t.run + 1, runYld := t.runYld || h.yld, lastIssue := k, blocked := false, posted := false }
/-- The team after step 8 of R37, for the executing lanes `exec` at `pc`. -/
def advance (t : Team) (debug : Bool) (pc : Word) (exec act : Mask) (closes : Bool) (tgt : Nat → Word) : Team :=
  let t1 : Team := { t with
    lpc := lanes.map fun l => if inMask exec l then (if inMask act l then tgt l else pc + 1) else getLpc t l,
    retcnt := t.retcnt + 1, closed := false, blocked := false, hold := none, growth := none }
  stepDone (if closes then closeRegion t1 debug pc else t1)
/-- Whether a run ends by its program: END, a lane that goes elsewhere than to PC + 1, or a stop (R165). -/
def endsRun (pc : Word) (exec act : Mask) (h : Head) (branch stop : Bool) (tgt : Nat → Word) : Bool :=
  h.fin || (branch && (lanesOf exec).any fun l => inMask act l && tgt l != pc + 1) || stop
/-- A run that its 24th instruction ends is counted (R165, R166). -/
def countForced (s : State) (c i : Nat) (yes : Bool) : State :=
  if yes then
    let x := getISlot s c i
    tally (setISlot s c i { x with forced := x.forced + 1 }) c 4 1
  else s
/-- Run boundary of an instruction that the team `u` has issued in this clock: `own` where the program ends the run, else its 24th
instruction does (R165, R166), which is then counted as forced; a 24th that also ends the run itself is not (log entry 83). A team that the
debugger has halted ends its tenure. -/
def boundary (s : State) (c sl : Nat) (u : Team) (own : Bool) : State :=
  let long := decide (u.run = 24)
  let s1 := tally (setTeam s c sl u) c (islotOf u) 1
  let s2 := if own || long then endRun s1 c sl u else if u.halted then endTenure s1 c sl u else s1
  let s3 := countForced s2 c (islotOf u) (!own && long)
  { s3 with clock := s3.clock + 1 }
/-- Step 8 of R37 and the run boundaries of R165, for the executing lanes `exec` at `pc`. -/
def retire (s : State) (c sl : Nat) (pc : Word) (exec act : Mask) (h : Head) (closes branch stop : Bool)
    (tgt : Nat → Word) : State :=
  match getTeam s c sl with
  | none => s
  | some t =>
    let u := advance (issued t s.clock h) (getCtx s t.ctx).debug pc exec act closes tgt
    boundary (pulse s t.ctx) c sl u (endsRun pc exec act h branch stop tgt)
/-- An instruction is issued that retires later: the team is held at it (R132, R183, R244, R251). -/
def holdTeam (s : State) (c sl : Nat) (h : Hold) : State :=
  match getTeam s c sl with
  | none => s
  | some t => boundary s c sl { issued t s.clock h.head with hold := some h } h.head.fin

/-- EXIT of the active lanes (R117): their `lpc` reads 0xFFFF_FFFF; the team ends with its last live lane. -/
def exitLanes (s : State) (c sl : Nat) (pc : Word) (exec act : Mask) (h : Head) : State :=
  let s1 := retire s c sl pc exec 0 h false false ((exec &&& ~~~ act) == 0) (fun _ => pc + 1)
  match getTeam s1 c sl with
  | none => s1
  | some t =>
    let t' := { t with
      live := t.live &&& ~~~ act,
      lpc := lanes.map fun l => if inMask act l then BitVec.allOnes 32 else getLpc t l }
    let s2 := setTeam s1 c sl t'
    if t'.live = 0 then
      let i := getISlot s2 c (islotOf t)
      endTeam (setISlot s2 c (islotOf t) { i with holder := none }) c sl t'
    else s2

/-- Step 1 to step 8 of R37 for an instruction of the team whose turn it is. `legal` is the check of its word (R89),
`dyn` the checks of step 1 that depend on the team, `closes` whether it closes a region (R371), and `body` steps 3 to 7. -/
def issue (h : Head) (legal closes : Bool) (dyn : State → Nat → Team → Bool) (body : Issue → Res) (s : State) :
    Host.Outcome State Fault Refusal :=
  match curTeam s with
  | none => .fault .noTeam
  | some (c, sl, t) =>
    if t.halted || t.hold.isSome || t.trap.isSome || t.live == 0 then .next (waitTeam s c sl t)
    else
      let pc := issueAddr t
      let exec := executing t
      let debug := (getCtx s t.ctx).debug
      let t1 := enterRegion t debug pc h.rgn
      if !(legal && dyn s c t) then .next (raiseTrap s c sl t { trapAt 1 pc exec with rgn := h.rgn && !t.closed })
      else if atStop t || atStop t1 then .next (waitTeam s c sl t)
      else
        let g := getP t h.gp.toNat
        if exec &&& ~~~ g.full != 0 then .next (waitTeam s c sl t)
        else
          let act := exec &&& (if h.gn then ~~~ g.val else g.val)
          let s1 := setTeam s c sl t1
          let go (s' : State) := retire s' c sl pc exec act h closes false false (fun _ => pc + 1)
          if act = 0 then .next (retire s1 c sl pc exec 0 h false false false (fun _ => pc + 1))
          else
            match body ⟨{ s1 with nextId := s1.nextId + 1 }, c, sl, t1, pc, exec, act, h, s1.nextId⟩ with
            | .wait => .next (waitTeam s c sl t)
            | .waitWith s' => .next (waitTeam s' c sl { t with posted := true })
            | .trap ti => .next (raiseTrap s1 c sl t1 ti)
            | .go s' => .next (go s')
            | .jump s' tgt => .next (retire s' c sl pc exec act h closes true false tgt)
            | .hold s' k => .next (holdTeam s' c sl ⟨k, s1.nextId, pc, exec, act, h, closes, []⟩)
            | .exit s' => .next (exitLanes s' c sl pc exec act h)
            | .halt s' => .next (match getTeam s' c sl with
                | some u => retire (setTeam s' c sl { u with halted := true, steps := none }) c sl pc exec 0 h false false true (fun _ => pc + 1)
                | none => s')
            | .stop s' => .next (match getTeam s' c sl with
                | some u => retire (setTeam s' c sl { u with halted := true, steps := none }) c sl pc exec 0 h false false false (fun _ => pc + 1)
                | none => s')
            | .eret s' => .next (match getTeam s' c sl with
                | some u => boundary (pulse s' u.ctx) c sl (stepDone (issued u s'.clock h)) true
                | none => s')
            | .after s' ti =>
              let s2 := go s'
              .next (match getTeam s2 c sl with
                | some u => takeTrap s2 c sl u ti
                | none => s2)

/-- A held instruction retires (R132, R183, R244, R251); its run and its place in the ranking were settled when it was issued (R165). -/
def retireHold (s : State) (c sl : Nat) : State :=
  match getTeam s c sl with
  | none => s
  | some t =>
    match t.hold with
    | none => s
    | some h =>
      let u := advance t (getCtx s t.ctx).debug h.pc h.exec h.act h.closes fun _ => h.pc + 1
      let s1 := pulse s t.ctx
      if u.halted then endTenure s1 c sl u else setTeam s1 c sl u

end Sys2Proof.Machine
end

