-- ==== Sys2Proof/Machine/Operands.lean ====
section
/-! DEFINITION. Every operand form: registers and their moves (R66 to R69, R73), the waits and traps of R37 steps 3
and 4, write-back, buffer records (R33 to R35, R126), scratchpad addresses (R194 to R199) and weight-store addresses
(R204, R236). -/

namespace Sys2Proof.Machine

/-! ### Register operands -/

/-- An operand as lane `l` reads it: 32-bit forms take the low half of a scalar or constant (R105); constants are full,
with tag p (R61). -/
def rdOpd (s : State) (t : Team) (o : Opd) (pair : Bool) (l : Nat) : Val :=
  match o with
  | .v n => if pair then getPair t n.toNat l else let e := getV t n.toNat l; ⟨e.val.setWidth 64, e.tag, e.full⟩
  | .s n => let e := getS t n.toNat; ⟨if pair then e.val else (e.val.setWidth 32).setWidth 64, e.tag, e.full⟩
  | .p n =>
    let e := getP t n.toNat
    ⟨if inMask e.val l then 1 else 0, 63, inMask e.full l⟩
  | .lpc => ⟨(getLpc t l).setWidth 64, 63, true⟩
  | .c n =>
    let x := recConst (getLaunch s t.ctx t.seq).words n.toNat
    ⟨if pair then x else (x.setWidth 32).setWidth 64, if pair then 53 else 24, true⟩
  | .x _ => ⟨0, 63, true⟩

/-- Source position of lane `l` under XL (R73). -/
def xlPos (xl : Xl) (k l : Nat) : Int :=
  match xl with
  | .none => l
  | .bc => k
  | .up => (l : Int) - k
  | .dn => (l : Int) + k
  | .xr => (l ^^^ k : Nat)

/-- Source A after the cross-lane move (R73): outside 0 to 31 it is 0, tag 0, full. -/
def rdXl (s : State) (t : Team) (o : Opd) (pair : Bool) (xl : Xl) (k l : Nat) : Val :=
  let q := xlPos xl k l
  if q < 0 ∨ 31 < q then ⟨0, 0, true⟩ else rdOpd s t o pair q.toNat

/-- A source as an instruction uses it: its empty mode and what each lane reads. -/
structure Rd where
  e : Bool
  at_ : Nat → Val

/-- A source without a move. -/
def rd (i : Issue) (a : Src) (pair : Bool) : Rd := ⟨a.e, rdOpd i.s i.t a.o pair⟩
/-- Source A of an RG instruction (R73). -/
def rdA (i : Issue) (x : RG) (pair : Bool) : Rd := ⟨x.a.e, rdXl i.s i.t x.a.o pair x.xl x.lane.toNat⟩

/-- Steps 3 and 4 of R37: EMPTY for the first E = 1 source with an empty element, then the wait on E = 0 sources and
destinations. `none` lets the instruction go on. A store of a value that a load has yet to bring waits here, so that R261's second outcome is not
shown (log entry 74). -/
def gate (i : Issue) (srcs : List Rd) (dsts : List (Opd × Bool)) : Option Res :=
  let act := lanesOf i.act
  match srcs.find? fun r => r.e && act.any fun l => !(r.at_ l).full with
  | some r => some (.trap (trapAt 2 i.pc (maskOf fun l => inMask i.act l && !(r.at_ l).full)))
  | none =>
    if (srcs.any fun r => !r.e && act.any fun l => !(r.at_ l).full) ||
       (dsts.any fun d => act.any fun l => !dstFree i.t d.1 d.2 l) then some .wait
    else none

/-- Integer reading of a value under M: every bit inverted (R69). -/
def ival (n : Nat) (m : Bool) (v : Val) : Nat :=
  let x := v.bits.toNat % 2 ^ n
  if m then 2 ^ n - 1 - x else x
/-- FP reading under M: the sign inverted (R69). -/
def fval (f : Fmt) (m : Bool) (v : Val) : Nat :=
  let x := v.bits.toNat % 2 ^ f.width
  if m then x ^^^ 2 ^ (f.width - 1) else x
/-- Predicate reading under M (R69). -/
def pval (m : Bool) (v : Val) : Bool := (v.bits != 0) != m

/-- Bits of an operation width. -/
def pairBits (pair : Bool) : Nat := if pair then 64 else 32

/-- Whether a lane register or pair lies within the allocation (R28). -/
def opdAlloc (t : Team) (o : Opd) (pair : Bool) : Bool :=
  match o with
  | .v n => decide (n.toNat + (if pair then 1 else 0) < t.alloc)
  | _ => true
/-- Registers `v(n)` to `v(n + k - 1)` lie within the allocation (R28). -/
def rangeAlloc (t : Team) (o : Opd) (k : Nat) : Bool :=
  match o with
  | .v n => decide (n.toNat + k ≤ t.alloc)
  | _ => true
/-- A buffer record that the team has bound (R28). -/
def bound (t : Team) (o : Opd) : Bool :=
  match o with
  | .x n => (nget t.bufs n.toNat).isSome
  | _ => false
/-- Buffer record `n` of the team. -/
def bufOf (t : Team) (n : Nat) : BitVec 256 := ngetD 0 t.bufs n
/-- Number of a class 0b11 operand. -/
def xNum : Opd → Nat
  | .x n => n.toNat
  | _ => 0
/-- A tile number within the declared count (R28). -/
def tileOk (s : State) (c : Nat) (t : Team) (o : Opd) : Bool :=
  match o with
  | .x n => decide (n.toNat < (getWg s c t.wg).tileCount)
  | _ => false

/-! ### Write-back (R37 step 7) -/

/-- Old contents of a destination for the undo log of debug mode (R390). -/
def undoOf (t : Team) (d : Opd) (pair : Bool) : List Undo :=
  match d with
  | .v n =>
    let one (k : Nat) : Undo := .vreg k (lanes.map fun l => getV t k l)
    if pair then [one n.toNat, one (n.toNat + 1)] else [one n.toNat]
  | .s n => [.sreg n.toNat (getS t n.toNat)]
  | .p n => [.preg n.toNat (getP t n.toNat)]
  | _ => []
/-- Add entries to the undo log when the context is in debug mode (R390). -/
def pushUndo (s : State) (t : Team) (us : List Undo) : Team :=
  addUndo (getCtx s t.ctx).debug t us
/-- Fold over the lanes of a mask, ascending. -/
def foldLanes {α : Type} (m : Mask) (f : α → Nat → α) (x : α) : α := (lanesOf m).foldl f x
/-- Results into the destination elements of lanes `m`; a scalar once, from the lowest lane (R25). -/
def putLanes (t : Team) (d : Opd) (pair : Bool) (m : Mask) (val : Nat → DWord) (tag : Nat → Tag) : Team :=
  match d with
  | .s _ => if m = 0 then t else putOpd t d pair (lowest m) (val (lowest m)) (tag (lowest m))
  | _ => foldLanes m (fun t l => putOpd t d pair l (val l) (tag l)) t
/-- F/E bits of the destination elements of lanes `m` (R37 step 6). -/
def markLanes (t : Team) (d : Opd) (pair : Bool) (m : Mask) (full : Bool) : Team :=
  match d with
  | .s _ => if m = 0 then t else markOpd t d pair (lowest m) full
  | _ => foldLanes m (fun t l => markOpd t d pair l full) t
/-- Put a team back, with the destination's old contents in the undo log. -/
def commit (i : Issue) (d : Opd) (pair : Bool) (t : Team) : State :=
  setTeam i.s i.core i.slot (pushUndo i.s t (undoOf i.t d pair))
/-- A short-latency result in every active lane (R37 step 7). -/
def putRes (i : Issue) (d : Opd) (pair : Bool) (val : Nat → DWord) (tag : Nat → Tag) : Res :=
  .go (commit i d pair (putLanes i.t d pair i.act val tag))

/-! ### FP results (R136, R51, R63) -/

/-- RMODE in force: RND, or the slot's (R46). -/
def rmode (ws : List DWord) (slot : Nat) (r : Rnd) : Nat :=
  match r with
  | .slot => slotMode (recSlot ws slot)
  | .rne => 0 | .rtz => 1 | .rup => 2 | .rdn => 3
/-- Launch record of the issuing team. -/
def wordsOf (i : Issue) : List DWord := (getLaunch i.s i.t.ctx i.t.seq).words

/-- Flags and SIGMIN check of FP results `out` in the active lanes, then `fin` with FLTSTAT and SIGSTAT set: ARITH
before SIG, nothing committed by either (R51, R63). -/
def fpFinish (i : Issue) (sigpol : Nat) (out : Nat → FO) (fin : Team → Res) : Res :=
  let en := i.t.trapen.toNat % 32
  let bad := maskOf fun l => inMask i.act l && ((out l).fl &&& en) != 0
  if bad ≠ 0 then .trap (trapAt 4 i.pc bad)
  else
    let tg (l : Nat) : Tag := polTag sigpol (out l).tag
    let low := maskOf fun l => inMask i.act l && sigFails sigpol i.t.sigmin (tg l)
    if low ≠ 0 && i.t.trapen.getLsbD 5 then
      .trap { trapAt 3 i.pc low with bytes := lanes.map fun l => if inMask i.act l then (tg l).setWidth 8 else 0 }
    else
      let fl := foldLanes i.act (fun a l => a ||| (out l).fl) 0
      fin { i.t with
        fltstat := i.t.fltstat ||| BitVec.ofNat 64 fl,
        sigstat := if low ≠ 0 then i.t.sigstat ||| 1 else i.t.sigstat }

/-- FP results into one destination. -/
def fpPut (i : Issue) (d : Opd) (pair : Bool) (sigpol : Nat) (out : Nat → FO) : Res :=
  fpFinish i sigpol out fun t =>
    .go (commit i d pair (putLanes t d pair i.act (fun l => BitVec.ofNat 64 (out l).y) (fun l => polTag sigpol (out l).tag)))

/-! ### Buffer records (R33 to R35, R126) -/

def brBase (r : BitVec 256) : Nat := bits r.toNat 255 199
def brStride (r : BitVec 256) : Int := sx (bits r.toNat 198 167) 32
def brExtent (r : BitVec 256) : Nat := bits r.toNat 166 135
def brEsize (r : BitVec 256) : Nat := bits r.toNat 134 132
def brSwiz (r : BitVec 256) : Nat := bits r.toNat 131 128
def brT (r : BitVec 256) : Bool := r.getLsbD 127
def brOobTrap (r : BitVec 256) : Bool := r.getLsbD 126
def brWld (r : BitVec 256) : Bool := r.getLsbD 125
def brShofs (r : BitVec 256) : Int := sx (bits r.toNat 56 0) 57
/-- The check of R34. -/
def brOk (r : BitVec 256) : Bool :=
  decide (brEsize r ≤ 3) && decide (bits r.toNat 124 123 ≠ 3) && bits r.toNat 122 57 == 0
/-- Whether index `i` is in bounds (R35). -/
def brIn (r : BitVec 256) (i : Int) : Bool := decide (0 ≤ i) && decide (i < brExtent r)
/-- Data address of index `i` for an access of `n` bytes (R126). The record's SWIZ applies to the address of an accumulator (R248) and of a queue
header (R250) too (log entry 83). -/
def brAddr (r : BitVec 256) (i : Int) (n : Nat) : Nat :=
  let a := wrap (brBase r + brStride r * i) 57
  let m := brSwiz r
  let a := if m = 0 then a else a ^^^ (bits a (m + 9) (m + 7) * 16)
  a / n * n
/-- Address of the shadow byte of index `i` (R33). -/
def brShadow (r : BitVec 256) (i : Int) : Nat := wrap (brBase r + brShofs r + i) 57
/-- Index of a lane: sx(A, 32) + sx(OFS, 21) (R35). -/
def memIdx (v : Val) (ofs : BitVec 21) : Int := sx (v.bits.toNat) 32 + sx ofs.toNat 21

/-- Kind of a load by slot FMT and SIZE (R128). -/
def loadFmt (fmt : Nat) (z : Size) : LoadFmt :=
  match fmt, z with
  | 0, .b64 => ⟨z, true, 53, false⟩
  | 1, .b32 => ⟨z, true, 24, false⟩
  | 2, .b16 => ⟨z, true, 11, false⟩
  | 3, .b16 => ⟨z, true, 8, false⟩
  | 4, .b8 => ⟨z, true, 4, false⟩
  | 5, .b8 => ⟨z, false, 0, true⟩
  | _, _ => ⟨z, false, 0, false⟩
/-- The register value of loaded bytes (R128). -/
def extend (f : LoadFmt) (x : Nat) : DWord :=
  let n := 8 * sizeBytes f.size
  if f.signed then wrapW (sx x n) 64 else BitVec.ofNat 64 (x % 2 ^ n)
/-- The tag of a loaded element: integers 63, T records by their shadow byte, others p (R62). -/
def loadTag (f : LoadFmt) (shadow : Option Nat) : Tag :=
  if !f.fp then 63
  else
    match shadow with
    | none => BitVec.ofNat 6 f.prec
    | some b => if b = 63 then 63 else if 54 ≤ b then 0 else BitVec.ofNat 6 b

/-! ### Scratchpad addresses (R194 to R199) -/

/-- Core named by a CORE field on core `c`, if not reserved (R194). -/
def scrCore (c : Nat) (x : Nat) : Option Nat :=
  let k := bits x 24 20
  if k = 31 then some c else if k < 24 then some (clusterOf c * Config.coresPerCluster + k) else none
/-- Whether the Zero field of a direct address is zero. -/
def scrZeroOk (x : Nat) : Bool := x / 2 ^ 25 % 128 == 0

/-- What an access to a scratchpad line meets (R194, R196). -/
inductive ScrCheck where
  | ok
  | oob
  | world
  deriving DecidableEq, Repr

/-- The workgroup whose share holds a line of a core. -/
def lineOwner (k : Core) (line : Nat) : Option Wg :=
  k.wgs.find? fun w => decide (w.shareLine ≤ line) && decide (line < w.shareLine + w.shareLines)
/-- Lines of a workgroup's tile pool, at the start of its share (R282). -/
def poolLines (w : Wg) : Nat := 16 * w.granules
/-- R196 for a team of core `c`, workgroup `wg`, context `ctx`, and a line of core `k`. -/
def scrCheck (s : State) (c wg ctx : Nat) (k line : Nat) : ScrCheck :=
  match lineOwner (getCore s k) line with
  | none => .oob
  | some w =>
    if (getCore s k).world != (getCore s c).world then .world
    else if w.ctx ≠ ctx then .oob
    else if k = c && w.id ≠ wg then .oob
    else if line < w.shareLine + poolLines w then .oob
    else .ok

/-- XOR value of a bank-permutation mode (R199). -/
def bpmXor (mode row : Nat) : Nat :=
  match mode with
  | 0 => 0
  | 1 => bits row 4 0
  | 2 => bits row 3 0 * 2
  | 3 => bits row 2 0 * 4
  | 4 => bits row 1 0 * 8
  | 5 => bits row 0 0 * 16
  | 6 => bits row 5 1
  | 7 => bits row 4 1 * 2
  | 8 => bits row 6 2
  | 9 => bits row 4 2 * 4
  | 10 => bits row 7 3
  | 11 => bits row 4 3 * 8
  | 12 => bits row 8 4
  | 13 => bits row 9 5
  | 14 => bits row 4 0 ^^^ bits row 9 5
  | _ => (bits row 3 0 ^^^ bits row 7 4) * 2
/-- Physical byte of an address under a bank permutation (R198). -/
def permute (mode esz a : Nat) : Nat :=
  let row := a / 128
  let x := bpmXor mode row
  let k := 2 ^ (esz - 2)
  row * 128 + ((a / 4 % 32) ^^^ (x / k * k)) * 4 + a % 4

/-- A layout word (R197) from the low halves of three scalars. -/
def layoutWord (t : Team) (n : Nat) : Nat :=
  (getS t n).val.toNat % 2 ^ 32 + 2 ^ 32 * ((getS t (n + 1)).val.toNat % 2 ^ 32)
    + 2 ^ 64 * ((getS t (n + 2)).val.toNat % 2 ^ 32)
/-- Whether a layout word is legal for an access size (R197, R231). -/
def layoutOk (lw : Nat) (z : Size) : Bool := 2 ^ bits lw 11 9 == sizeBytes z && bits lw 8 0 == 0 && decide (bits lw 11 9 ≤ 3)
/-- Address of indices under a layout word (R198). -/
def layoutAddr (lw : Nat) (i0 i1 i2 : Int) : Nat :=
  let a := wrap (bits lw 95 76 + i0 * sx (bits lw 75 56) 20 + i1 * sx (bits lw 55 36) 20 + i2 * sx (bits lw 35 16) 20) 20
  let esz := bits lw 11 9
  permute (bits lw 15 12) esz (a / 2 ^ esz * 2 ^ esz)

/-- Where a lane's scratchpad access goes: core and byte, or out of bounds, or the other world. -/
inductive ScrAt where
  | at_ (core byte : Nat)
  | oob
  | world
  deriving DecidableEq, Repr

/-- A direct address plus a byte offset (R194, R231 `.d`), for an access of `n` bytes. -/
def directAt (s : State) (c wg ctx : Nat) (x : Nat) (add : Int) (n : Nat) : ScrAt :=
  let a : Int := ((x % 2 ^ 20 : Nat) : Int) + add
  match scrCore c x with
  | none => .oob
  | some k =>
    if !scrZeroOk x || decide (a < 0) || decide ((2 ^ 20 : Int) ≤ a) then .oob
    else
      let b := a.toNat / n * n
      match scrCheck s c wg ctx k (b / 128) with
      | .ok => .at_ k b
      | .oob => .oob
      | .world => .world
/-- A direct address with byte alignment `n` and no offset, for the issuing team. -/
def directOf (i : Issue) (x n : Nat) : ScrAt := directAt i.s i.core i.t.wg i.t.ctx x 0 n

/-- Address of a lane under the modes of R231. -/
def scrLane (i : Issue) (x : MM) (l : Nat) : ScrAt :=
  let n := sizeBytes x.size
  let m := x.brec.toNat
  let ofs := sx x.ofs.toNat 21
  if m = 0 then directAt i.s i.core i.t.wg i.t.ctx (rdOpd i.s i.t x.a.o false l).bits.toNat (ofs * n) n
  else
    let sn := match x.b.o with | .s k => k.toNat | _ => 0
    let idx (k : Nat) : Int :=
      match x.a.o with
      | .v r => sx (getV i.t (r.toNat + k) l).val.toNat 32
      | .s r => sx (getS i.t (r.toNat + k)).val.toNat 32
      | o => sx (rdOpd i.s i.t o false l).bits.toNat 32
    let dim := m % 4
    let a := layoutAddr (layoutWord i.t sn) (idx 0 + ofs) (if 2 ≤ dim then idx 1 else 0) (if 3 ≤ dim then idx 2 else 0)
    let core := if 4 ≤ m then scrCore i.core (getS i.t (sn + 3)).val.toNat else some i.core
    match core with
    | none => .oob
    | some k =>
      match scrCheck i.s i.core i.t.wg i.t.ctx k (a / 128) with
      | .ok => .at_ k a
      | .oob => .oob
      | .world => .world

/-- Whether a scratchpad line is full (R195). -/
def lineFull (s : State) (k line : Nat) : Bool := !(getCore s k).empty.contains line

/-! ### Weight-store addresses (R204, R236) -/

/-- Weight-store address of a lane, if in bounds (R236); one below 0 is out of bounds (log entry 83). -/
def weightAt (c : Nat) (own : Bool) (x : Nat) (ofs : Int) (n : Nat) : Option Nat :=
  let b := if own then x / 2 ^ 31 * 2 ^ 31 + dieOf c * 2 ^ 29 + x % 2 ^ 29 else x
  let w : Int := (b % 2 ^ 32 : Nat) + ofs * n
  if w < 0 ∨ (2 ^ 31 : Int) ≤ w then none else some (w.toNat / n * n)

end Sys2Proof.Machine
end

