-- ==== Sys2Proof/Machine/Translate.lean ====
section
/-! DEFINITION. Translation of virtual addresses (R359 to R361, R437 to R440), locations and their bytes (R193,
R208), release records and poison as properties of a line (R220, R448). -/

namespace Sys2Proof.Machine

/-! ### Locations -/

/-- Key of another endpoint's memory. -/
def remoteKey (chip key : Nat) : Nat := 4096 * key + chip % 4096
/-- Bytes of a location. -/
def readLoc (s : State) (l : Loc) (n : Nat) : List Byte :=
  match l with
  | .hbm pa => getBytes s.mem pa n
  | .scratch c b => getBytes (getCore s c).bytes b n
  | .weight w => getBytes s.wstore w n
  | .remote chip key a => getBytes (ngetD [] s.remote (remoteKey chip key)) a n
/-- The location `k` bytes further on. -/
def locAdd (l : Loc) (k : Nat) : Loc :=
  match l with
  | .hbm pa => .hbm (pa + k)
  | .scratch c b => .scratch c (b + k)
  | .weight w => .weight (w + k)
  | .remote chip key a => .remote chip key (a + k)
/-- The 128-B line of a location. -/
def lineOf (l : Loc) : Loc :=
  match l with
  | .hbm pa => .hbm (pa / 128 * 128)
  | .scratch c b => .scratch c (b / 128 * 128)
  | .weight w => .weight (w / 128 * 128)
  | .remote chip key a => .remote chip key (a / 128 * 128)
/-- The byte of a location in its line. -/
def lineByte (l : Loc) : Nat :=
  match l with
  | .hbm a | .scratch _ a | .weight a | .remote _ _ a => a % 128
/-- The 128-B lines that `n` bytes at a location touch. -/
def linesAt (l : Loc) (n : Nat) : List Loc := (List.range ((lineByte l + n + 127) / 128)).map fun k => locAdd (lineOf l) (128 * k)
/-- The 128-B lines that `n` bytes at a location touch, where code can lie (R29), with what stands in them. -/
def codeLines (s : State) (l : Loc) (n : Nat) : List (Loc × List Byte) :=
  match l with
  | .hbm _ | .remote .. => (linesAt l n).map fun x => (x, readLoc s x 128)
  | .scratch .. | .weight _ => []
/-- Store bytes at a location; the versions of the lines that they replace stay fetchable (R90). -/
def writeLoc (s : State) (l : Loc) (bs : List Byte) : State :=
  let s1 := { s with past := codeLines s l bs.length ++ s.past }
  match l with
  | .hbm pa => { s1 with mem := putBytes s.mem pa bs }
  | .scratch c b => updCore s1 c fun k => { k with bytes := putBytes k.bytes b bs }
  | .weight w => { s1 with wstore := putBytes s.wstore w bs }
  | .remote chip key a =>
    { s1 with remote := nsetD [] s.remote (remoteKey chip key) (putBytes (ngetD [] s.remote (remoteKey chip key)) a bs) }
/-- Whether two accesses share a byte. -/
def overlap (l1 : Loc) (n1 : Nat) (l2 : Loc) (n2 : Nat) : Bool :=
  let meet (a b : Nat) : Bool := decide (a < b + n2) && decide (b < a + n1)
  match l1, l2 with
  | .hbm a, .hbm b => meet a b
  | .scratch c a, .scratch d b => c == d && meet a b
  | .weight a, .weight b => meet a b
  | .remote c k a, .remote d j b => c == d && k == j && meet a b
  | _, _ => false
/-- Whether a location's line is poisoned (R448). -/
def poisoned (s : State) (l : Loc) : Bool := s.poison.contains (lineOf l)
/-- A launch takes a poisoned value (R448). -/
def takePoison (s : State) (ctx seq : Nat) : State := updLaunch s ctx seq fun k => { k with poisoned := true }
/-- A launch reads at a location (R448). -/
def consume (s : State) (l : Loc) (ctx seq : Nat) : State := if poisoned s l then takePoison s ctx seq else s
/-- A line becomes poisoned (R448). -/
def poisonLine (s : State) (l : Loc) : State := if poisoned s l then s else { s with poison := s.poison ++ [lineOf l] }
/-- Poison follows a copied line (R448). -/
def spreadPoison (s : State) (src dst : Loc) : State := if poisoned s src then poisonLine s dst else s

/-! ### Page tables (R359) -/

/-- The outcome of a walk: a leaf, the physical address of the leaf and the page size, or a fault cause of R369. -/
inductive Walk where
  | leaf (pte : DWord) (pa size : Nat)
  | fault (cause : Nat)
  deriving DecidableEq, Repr

def pteV (p : DWord) : Bool := p.getLsbD 63
def pteW (p : DWord) : Bool := p.getLsbD 62
def pteWld (p : DWord) : Bool := p.getLsbD 60
def pteTgt (p : DWord) : Nat := bits p.toNat 59 58
def pteChip (p : DWord) : Nat := bits p.toNat 57 46
def pteFrame (p : DWord) : Nat := bits p.toNat 39 16 * 2 ^ 16
def pteSize (p : DWord) : Nat := bits p.toNat 1 0
/-- An 8-B table entry. -/
def readPte (s : State) (pa : Nat) : DWord := BitVec.ofNat 64 (leNat (getBytes s.mem pa 8))
/-- Levels below the current one: shift of the index, its width, and the leaf SIZE allowed there (3 none). -/
def levels : List (Nat × Nat × Nat) := [(48, 9, 3), (39, 9, 3), (30, 9, 2), (21, 9, 1), (16, 5, 0)]
/-- Walk from the table at `tab` (R359). -/
def walkFrom (s : State) (va : Nat) : List (Nat × Nat × Nat) → Nat → Walk
  | [], _ => .fault 3
  | (sh, w, ok) :: rest, tab =>
    let pa := tab + 8 * (va / 2 ^ sh % 2 ^ w)
    let p := readPte s pa
    if !pteV p then .fault 1
    else if bits p.toNat 45 40 ≠ 0 || bits p.toNat 15 2 ≠ 0 ||
        (pteTgt p == 0 && decide (48000000000 ≤ pteFrame p % 2 ^ 36)) then .fault 3
    else if pteSize p = 3 then (if rest.isEmpty then .fault 3 else walkFrom s va rest (pteFrame p))
    else if pteSize p ≠ ok || pteFrame p % 2 ^ sh ≠ 0 then .fault 3
    else .leaf p pa (2 ^ sh)
/-- The walk of a context's table. -/
def walk (s : State) (ctx va : Nat) : Walk := walkFrom s va levels (getCtx s ctx).root

/-! ### TLBs and windows (R360, R437) -/

/-- Which TLB a party uses: its core's, or the device's for Zephyr and the task unit. -/
inductive TlbOf where
  | core (c : Nat)
  | device
  deriving DecidableEq, Repr

/-- The entries of a TLB. -/
def tlbOf (s : State) (w : TlbOf) : List TlbEntry :=
  match w with
  | .core c => (getCore s c).tlb
  | .device => s.deviceTlb
/-- Replace the entries of a TLB. -/
def setTlb (s : State) (w : TlbOf) (es : List TlbEntry) : State :=
  match w with
  | .core c => updCore s c fun k => { k with tlb := es }
  | .device => { s with deviceTlb := es }
/-- Whether an entry translates an address of a context. -/
def tlbHit (e : TlbEntry) (ctx va : Nat) : Bool := e.ctx == ctx && decide (e.va ≤ va) && decide (va < e.va + e.size)
/-- Write an entry's D bit to its leaf (R361). -/
def writeBack (s : State) (e : TlbEntry) : State :=
  if e.dirty then writeLoc s (.hbm (e.leafPa + 7)) [ngetD 0 s.mem (e.leafPa + 7) ||| 0x20] else s

/-- A peer window (R437). -/
def winVbase (w : BitVec 256) : Nat := bits w.toNat 255 199
def winRbase (w : BitVec 256) : Nat := bits w.toNat 198 142
def winLen (w : BitVec 256) : Nat := bits w.toNat 141 102
def winChip (w : BitVec 256) : Nat := bits w.toNat 101 90
def winRctx (w : BitVec 256) : Nat := bits w.toNat 89 84
def winMode (w : BitVec 256) : Nat := bits w.toNat 83 82
def winWld (w : BitVec 256) : Bool := w.getLsbD 81
def winV (w : BitVec 256) : Bool := w.getLsbD 80
/-- The lowest-numbered enabled window that holds an address (R437). -/
def windowOf (s : State) (ctx va : Nat) : Option (BitVec 256) :=
  match (getCtx s ctx).windows.find? fun e =>
      winV e.2 && winMode e.2 != 3 && decide (winVbase e.2 ≤ va) && decide (va < winVbase e.2 + winLen e.2) with
  | some e => some e.2
  | none => none
/-- Whether a destination device is reachable by a route table (R434, R435). -/
def reachable (s : State) (table chip : Nat) : Bool :=
  let e := ngetD 0 s.routes (4096 * table + chip % 4096)
  e.getLsbD 15 && !e.getLsbD 14

/-- The outcome of a translation. `fault` holds the cause and INFO[7:0] of R369 and R436. -/
inductive Xlate where
  | ok (l : Loc)
  | world
  | fault (cause info : Nat)
  | multicast (w : BitVec 256)
  deriving DecidableEq, Repr

/-- A location behind a leaf (R359, R437): local memory, or a direct access to CHIP. -/
def leafLoc (s : State) (p : DWord) (size va : Nat) : Xlate :=
  let pa := pteFrame p + va % size
  if pteTgt p = 0 then .ok (.hbm pa)
  else if reachable s 0 (pteChip p) then .ok (.remote (pteChip p) 0 pa) else .fault 8 1

/-- Whether local memory at a physical address belongs to a slice of another world than `wld` (R456). -/
def otherSlice (s : State) (p : DWord) (pa : Nat) (wld : Bool) : Bool := pteTgt p == 0 && (getSlice s (sliceOf pa)).world != wld
/-- Translation by a context's table for a party of world `wld` (R359 to R361): the world check before the permission check; a walk
that succeeds installs a TLB entry; a write sets its D bit. A direct window sends the result to `chip` (R437). -/
def tableAt (s : State) (w : TlbOf) (ctx : Nat) (wld write : Bool) (va : Nat) (chip : Option Nat) : Xlate × State :=
  let found :=
    match (tlbOf s w).find? fun e => tlbHit e ctx va with
    | some e => Walk.leaf e.leaf e.leafPa e.size
    | none => walk s ctx va
  match found with
  | .fault c => (.fault c 0, s)
  | .leaf p pa size =>
    let es := tlbOf s w
    let hit := es.any fun e => tlbHit e ctx va
    let es1 := if hit then es else es ++ [⟨ctx, va / size * size, size, pa, p, false⟩]
    if pteWld p != wld || (chip.isNone && otherSlice s p (pteFrame p + va % size) wld) then (.world, s)
    else if write && !pteW p then (.fault 2 0, s)
    else
      let es2 := if write then es1.map fun e => if tlbHit e ctx va then { e with dirty := true } else e else es1
      let l :=
        match chip with
        | none => leafLoc s p size va
        | some c => if reachable s 0 c then Xlate.ok (.remote c 0 (pteFrame p + va % size)) else .fault 8 1
      (l, setTlb s w es2)
/-- TRANSLATION of one address for a party of world `wld` (R359, R437): a window that holds it takes the place of the table. -/
def translate (s : State) (w : TlbOf) (ctx : Nat) (wld write : Bool) (va : Nat) : Xlate × State :=
  match windowOf s ctx va with
  | none => tableAt s w ctx wld write va none
  | some win =>
    if winWld win != wld then (.world, s)
    else if winMode win = 0 then tableAt s w ctx wld write va (some (winChip win))
    else if winMode win = 2 then (.multicast win, s)
    else if reachable s 0 (winChip win) then
      (.ok (.remote (winChip win) (winRctx win + 1) (va - winVbase win + winRbase win)), s)
    else (.fault 8 1, s)

/-- Whether an address lies at a host endpoint or pool node (R441): where the context's table answers, which it also does behind a direct
window (R437). -/
def hostAt (s : State) (w : TlbOf) (ctx va : Nat) : Bool :=
  (match windowOf s ctx va with | none => true | some win => winMode win == 0) &&
  (match (tlbOf s w).find? fun e => tlbHit e ctx va with
   | some e => decide (2 ≤ pteTgt e.leaf)
   | none => match walk s ctx va with | .leaf p _ _ => decide (2 ≤ pteTgt p) | .fault _ => false)
/-- Pages of a lease: 64 KiB (R440). -/
def leasePage (a : Nat) : Nat := a / 65536
/-- The cause and INFO of what a peer device answers an access that has reached it: a direct access may lie in none of its export ranges
(R439), a leased one may fault in its tables, and under a lease only by a write (R440). `none` lets the access be performed, as a host
endpoint or pool node always does. The free value stands for the peer's own ranges and tables (log entry 73). -/
def peerRefuses (s : State) (l : Loc) (write host : Bool) : Option (Nat × Nat) :=
  match l with
  | .remote chip key a =>
    let x := Config.peerAnswer s.freshCount
    if host || decide (64 < key) then none
    else if key = 0 then (if x % 2 = 1 then some (8, 2) else none)
    else
      let held := s.leasesHeld.contains (chip, key - 1, leasePage a)
      match x % 5 with
      | 1 => if held then none else some (1, 2 ^ 63)
      | 2 => if write then some (2, 2 ^ 63) else none
      | 3 => if held then none else some (3, 2 ^ 63)
      | 4 => if held then none else some (5, 2 ^ 63)
      | _ => none
  | _ => none

/-- The translation of a fetch by a team of core `c` (R90, R359, R437): windows and the world check apply, nothing is installed. -/
def peek (s : State) (c ctx va : Nat) : Xlate := (translate s (.core c) ctx (getCore s c).world false va).1
/-- The physical addresses of the table entries that a walk reads (R359, R360). -/
def walkReads (s : State) (va : Nat) : List (Nat × Nat × Nat) → Nat → List Nat
  | [], _ => []
  | (sh, w, _) :: rest, tab =>
    let pa := tab + 8 * (va / 2 ^ sh % 2 ^ w)
    let p := readPte s pa
    pa :: (if pteV p && pteSize p == 3 then walkReads s va rest (pteFrame p) else [])
/-- The table entries that the next access of core `c` to an address reads: none where its TLB holds the page or a window answers (R437). -/
def entriesRead (s : State) (c ctx va : Nat) : List Nat :=
  let byTable := match windowOf s ctx va with | none => true | some w => winMode w == 0
  if byTable && !((getCore s c).tlb.any fun e => tlbHit e ctx va) then walkReads s va levels (getCtx s ctx).root else []

/-! ### Release records (R220) -/

/-- The release record of a line of local memory. -/
def relRec (s : State) (l : Loc) : RelRec :=
  match l with
  | .hbm pa => ngetD ⟨[], false⟩ s.relRecs (pa / 128)
  | _ => ⟨[], false⟩
/-- Replace it. -/
def setRelRec (s : State) (l : Loc) (r : RelRec) : State :=
  match l with
  | .hbm pa => { s with relRecs := nsetD ⟨[], false⟩ s.relRecs (pa / 128) r }
  | _ => s
/-- Whether recorded release bytes meet `n` bytes at `pa`. -/
def relMeets (o : Observed) (pa n : Nat) : Bool := decide (o.lo < pa + n) && decide (pa < o.lo + o.len)
/-- Record a narrow release of `n` bytes at `l` in the record of each line that they touch (R220); a fifth core marks a record ALL. A release of
the same core and scope in the same bytes takes the place of an earlier one. -/
def recordRelease (s : State) (l : Loc) (o : Observed) : State :=
  (linesAt l o.len).foldl
    (fun s x =>
      let r := relRec s x
      let named := r.named.filter fun p => p.core != o.core || p.scope != o.scope || decide (p.lo < o.lo) || decide (o.lo + o.len < p.lo + p.len)
      let cores := (sortAsc ((o :: named).map fun p => p.core)).length
      setRelRec s x ⟨named ++ [o], r.all || decide (4 < cores)⟩) s
/-- A recorded release after a plain write of `n` bytes at `pa`: its value no longer stands in them, and stands in its other bytes (R219). -/
def shorn (pa n : Nat) (o : Observed) : List Observed :=
  if !(o.stands && relMeets o pa n) then [o]
  else
    let lo := max o.lo pa
    let hi := min (o.lo + o.len) (pa + n)
    [{ o with lo := lo, len := hi - lo, stands := false }] ++
    (if o.lo < lo then [{ o with len := lo - o.lo }] else []) ++
    (if hi < o.lo + o.len then [{ o with lo := hi, len := o.lo + o.len - hi }] else [])
/-- A plain write of `n` bytes at a location takes the place of the recorded releases' values there (R219). -/
def unstand (s : State) (l : Loc) (n : Nat) : State :=
  match l with
  | .hbm pa => { s with relRecs := s.relRecs.map fun e => (e.1, { e.2 with named := e.2.named.flatMap (shorn pa n) }) }
  | _ => s
/-- A plain write takes its place at its home (R218). -/
def storeAt (s : State) (l : Loc) (bs : List Byte) : State := writeLoc (unstand s l bs.length) l bs
/-- Whether the instance of scope `sc` on core `a` contains core `b` (R217). -/
def covers (sc : Scope) (a b : Nat) (sameParty : Bool) : Bool :=
  match sc with
  | .team => sameParty
  | .core => a == b
  | .cluster => clusterOf a == clusterOf b
  | .die => dieOf a == dieOf b
  | .device | .system => true
/-- Whether an acquire of scope `sc` on core `a` synchronises with a recorded release (R219, R220): scope-matched, or
promoted. -/
def synchronises (sc : Scope) (a : Nat) (o : Observed) : Bool :=
  let matched := covers sc a o.core false && covers o.scope o.core a false
  o.stands && (matched || (decide (2 ≤ scopeNum sc) && covers sc a o.core false))

end Sys2Proof.Machine
end

