-- ==== Sys2Proof/Machine/Fetch.lean ====
section
/-! DEFINITION. Instruction fetch (R29, R64, R90), and the placing of one instruction word where the next step fetches. -/

namespace Sys2Proof.Machine

/-- The locations of code bytes at consecutive addresses (R29), or why there is none. -/
inductive Code where
  | wait                              -- an address is not mapped (log entry 6)
  | world                             -- a leaf or window is of the other world (R359, R456)
  | at_ (ls : List Loc)
  deriving DecidableEq, Repr

/-- Translation of `n` code bytes from `va` for a team of core `c`. -/
def codeAt (s : State) (c ctx : Nat) : Nat → Nat → Code
  | 0, _ => .at_ []
  | n + 1, va =>
    match peek s c ctx va with
    | .ok l => match codeAt s c ctx n (va + 1) with | .at_ ls => .at_ (l :: ls) | r => r
    | .world => .world
    | _ => .wait
/-- The versions of a code byte that a fetch may obtain (R90): as it stands, then those that writes have replaced since launch `q` began,
newest first; the last is the byte at launch. -/
def codeVersions (s : State) (q : Launch) (l : Loc) : List Byte :=
  let o := match l with | .hbm a | .remote _ _ a => a % 128 | .scratch _ b => b % 128 | .weight w => w % 128
  readLoc s l 1 ++ ((s.past.take (s.past.length - q.begun)).filter fun e => e.1 == lineOf l).map fun e => nth 0 e.2 o
/-- The byte of version `k` of its line, counted round; versions that agree in it leave no choice. -/
def codeByte (vs : List Byte) (k : Nat) : Byte :=
  if vs.all (· == vs.headD 0) then vs.headD 0 else nth 0 vs (Config.fetchLater k % vs.length)
/-- Whether every version of the bytes agrees. -/
def settled (s : State) (q : Launch) (ls : List Loc) : Bool :=
  ls.all fun l => (codeVersions s q l).all (· == (codeVersions s q l).headD 0)
/-- R90: the bytes that a fetch obtains: of each 128-B line one version. -/
def obtained (s : State) (q : Launch) (ls : List Loc) : List Byte :=
  ls.map fun l => codeByte (codeVersions s q l) (s.freshCount + if lineOf l = lineOf (ls.headD default) then 0 else 1)
/-- The locations of instruction `pc` of a team of core `c` (R29). -/
def codeOf (s : State) (c : Nat) (t : Team) (pc : Nat) : Code :=
  codeAt s c t.ctx 12 (recCodeBase (getLaunch s t.ctx t.seq).words + 12 * pc)

/-- What stands at a team's issue address. -/
inductive Fetched where
  | wait                              -- cannot issue
  | illegal (rgn : Bool) (s : State)  -- beyond the code extent, or no instruction, with the word's RGN bit (R29, R38, R89)
  | world                             -- code of the other world (R359)
  | ok (i : Instr) (w : IWord) (s : State)

/-- Fetch for a team of core `c` (R29, R156). A team that is halted, held, ended, at an armed stop or waiting for the delivery of a
trap issues nothing (R164, R373, R377, R392). -/
def fetchFor (s : State) (c : Nat) (t : Team) : Fetched :=
  if t.halted || t.hold.isSome || t.trap.isSome || t.live == 0 || atStop t then .wait
  else
    let pc := (issueAddr t).toNat
    let q := getLaunch s t.ctx t.seq
    if recCodeExt q.words ≤ pc then .illegal false s
    else
      match codeOf s c t pc with
      | .wait => .wait
      | .world => .world
      | .at_ ls =>
        let bs := obtained s q ls
        let s1 := if settled s q ls then s else { s with freshCount := s.freshCount + 2 }
        let w := BitVec.ofNat 96 (wordOfBytes bs)
        match decode bs with
        | .ok (i, _) => .ok i w s1
        | .error _ => .illegal (nth 0 (unpackL wordFields w.toNat) 13 == 1) s1

/-! ### Placing a word (for `State.withFetchWord`) -/

/-- A page-table entry to the table or page at `pa`: V, W, local; SIZE `z`; world Non-secure. -/
def placePte (pa z : Nat) : List Byte := leBytes 8 (2 ^ 63 + 2 ^ 62 + pa + z)
/-- The launch record of the placed word: code base 0, one instruction, 256 registers, 64 tiles, no handler. -/
def placeRecord : List DWord :=
  let w : Nat → DWord := fun i =>
    match i with
    | 1 => 1 + 2 ^ 32
    | 2 => 1 + (0xFFFFFFFF : DWord) <<< 32
    | 3 => BitVec.ofNat 64 (0xFFFFFFFF + 256 * 2 ^ 32 + 64 * 2 ^ 41 + 2 * 2 ^ 48)
    | 4 => BitVec.ofNat 64 (16 + 2 * 2 ^ 25)
    | 24 => 1 + 2 ^ 19
    | _ => 0
  (List.range 256).map w
/-- A team that has just started (R23, R155, R333), in context 0, launch 0. -/
def placeTeam : Team :=
  { (default : Team) with
    tid := 1, ctx := 0, seq := 0, wg := 1, lvl := List.replicate 7 0, alloc := 256,
    lpc := List.replicate 32 0, live := BitVec.allOnes 32,
    bufs := (List.range 16).map fun i => (i, 0), collNo := List.replicate 8 0 }
/-- The bytes and units that hold a team about to fetch the word of bytes `bs`: context 0 with a page table at physical
0x10000, code at physical 0x60000, the team in slot 0 of core 0, holding issue slot 0. -/
def placeWord (s : State) (bs : List Byte) : State :=
  let mem1 := putBytes s.mem 0x10000 (placePte 0x20000 3)
  let mem2 := putBytes mem1 0x20000 (placePte 0x30000 3)
  let mem3 := putBytes mem2 0x30000 (placePte 0x40000 3)
  let mem4 := putBytes mem3 0x40000 (placePte 0x50000 3)
  let mem5 := putBytes mem4 0x50000 (placePte 0x60000 0)
  let mem6 := putBytes mem5 0x60000 bs
  let q : Launch := { (default : Launch) with
    seq := 0, firmware := true, words := placeRecord, st := .started, begun := s.past.length, grid := 1, live := 1,
    chunks := List.replicate 4 [], inHand := List.replicate 4 [] }
  let x : Ctx := { (default : Ctx) with
    st := .running, root := 0x10000, inc := 1, tickLife := 2 ^ 20, wdLog2 := 32, joinLog2 := 40, ringLog2 := 4,
    nextSeq := 1, launches := [q] }
  let g : Wg := { (default : Wg) with
    id := 1, teams := 1, shareLine := 0, shareLines := 128, granules := 2, tileCount := 64, unit := [0],
    delivered := List.replicate 8 0 }
  let k : Core := { (default : Core) with
    islots := [(0, ⟨some 0, 0⟩)], teams := [(0, placeTeam)], wgs := [g] }
  { s with mem := mem6, ctxs := [(0, x)], cores := [(0, k)], turn := (0, 0), agenda := [], nextId := 2 }

end Sys2Proof.Machine
end

