-- ==== Sys2Proof/Machine/Integer.lean ====
section
/-! DEFINITION. Integer and logic instructions (R105 to R110). -/

namespace Sys2Proof.Machine

/-! ### The shared form (R105, R106) -/

/-- Steps 3 to 7 of a short-latency integer instruction with sources `srcs` read under `ms`: result `f n a b c` wrapped to
the width, tag 63 (R61). -/
def intBody (pair : Bool) (d : Opd) (used : Nat) (a b c : Rd) (ma mb mc : Bool) (f : Nat → Nat → Nat → Nat → Int)
    (i : Issue) : Res :=
  match gate i ([a, b, c].take used) [(d, pair)] with
  | some r => r
  | none =>
    let n := pairBits pair
    putRes i d pair (fun l => wrapW (f n (ival n ma (a.at_ l)) (ival n mb (b.at_ l)) (ival n mc (c.at_ l))) n) fun _ => 63

/-- Allocation of an RG instruction's operands at one width (R28). -/
def allocRG (pair : Bool) (x : RG) (t : Team) : Bool :=
  opdAlloc t x.d pair && opdAlloc t x.a.o pair && opdAlloc t x.b.o pair && opdAlloc t x.c.o pair

/-- An RG integer instruction with `used` sources. -/
def intRG (ins : Instr) (w : Width) (used : Nat) (x : RG) (f : Nat → Nat → Nat → Nat → Int) (s : State) :
    Host.Outcome State Fault Refusal :=
  issue x.h ins.wf false (fun _ _ t => allocRG (isPair w) x t)
    (fun i => intBody (isPair w) x.d used (rdA i x (isPair w)) (rd i x.b (isPair w)) (rd i x.c (isPair w))
      x.a.m x.b.m x.c.m f i) s

/-- The immediate as source B: sign-extended at .64 (R74, R107). -/
def immRd (imm : Word) : Rd := ⟨false, fun _ => ⟨wrapW (sx imm.toNat 32) 64, 63, true⟩⟩

/-- An IM integer instruction. -/
def intIM (ins : Instr) (w : Width) (x : IM) (f : Nat → Nat → Nat → Nat → Int) (s : State) :
    Host.Outcome State Fault Refusal :=
  issue x.h ins.wf false (fun _ _ t => opdAlloc t x.d (isPair w) && opdAlloc t x.a.o (isPair w))
    (fun i => intBody (isPair w) x.d 1 (rd i x.a (isPair w)) (immRd x.imm) (immRd 0) x.a.m false false f i) s

/-- The operand as signed or unsigned. -/
def sv (sg : Bool) (a n : Nat) : Int := if sg then sx a n else a

/-! ### Results (R107 to R109) -/

def fAdd (_ a b _ : Nat) : Int := (a : Int) + b
def fSub (_ a b _ : Nat) : Int := (a : Int) - b
def fMul (_ a b _ : Nat) : Int := (a : Int) * b
/-- IMULH: the high half of the product. -/
def fMulh (sg : Bool) (n a b _ : Nat) : Int := sv sg a n * sv sg b n / (2 ^ n : Nat)
def fMad (_ a b c : Nat) : Int := (a : Int) * b + c
/-- IDIV (R108). -/
def fDiv (sg : Bool) (n a b _ : Nat) : Int :=
  if b = 0 then -1 else (sv sg a n).tdiv (sv sg b n)
/-- IREM (R108). -/
def fRem (sg : Bool) (n a b _ : Nat) : Int :=
  if b = 0 then a else (sv sg a n).tmod (sv sg b n)
def fMin (sg : Bool) (n a b _ : Nat) : Int := if sv sg b n < sv sg a n then b else a
def fMax (sg : Bool) (n a b _ : Nat) : Int := if sv sg a n < sv sg b n then b else a
def fAbs (n a _ _ : Nat) : Int := (sx a n).natAbs
def fAnd (_ a b _ : Nat) : Int := (a &&& b : Nat)
def fOr (_ a b _ : Nat) : Int := (a ||| b : Nat)
def fXor (_ a b _ : Nat) : Int := (a ^^^ b : Nat)
def fAndn (n a b _ : Nat) : Int := (a &&& (2 ^ n - 1 - b) : Nat)
/-- Shifts by the whole unsigned value of B (R109). -/
def fShl (n a b _ : Nat) : Int := if n ≤ b then 0 else ((a * 2 ^ b : Nat) : Int)
def fShr (n a b _ : Nat) : Int := if n ≤ b then 0 else ((a / 2 ^ b : Nat) : Int)
def fSar (n a b _ : Nat) : Int := if n ≤ b then (if sx a n < 0 then -1 else 0) else sx a n / (2 ^ b : Nat)
def fRol (n a b _ : Nat) : Int := ((a * 2 ^ (b % n) + a / 2 ^ (n - b % n) : Nat) : Int)
/-- Count of 1 bits below bit n. -/
def fPopc (n a _ _ : Nat) : Int := (((List.range n).filter fun k => a.testBit k).length : Int)
def fClz (n a _ _ : Nat) : Int := if a = 0 then n else (n : Int) - 1 - Nat.log2 a
def fBrev (n a _ _ : Nat) : Int :=
  (((List.range n).foldl (fun r k => if a.testBit k then r + 2 ^ (n - 1 - k) else r) 0 : Nat) : Int)
/-- Bits of the field that lie inside the word (R109). -/
def fieldLen (n b : Nat) : Nat := min (b / 256 % 256) (n - b % 256)
def fBfx (sg : Bool) (n a b _ : Nat) : Int :=
  let m := fieldLen n b
  if m = 0 then 0 else sv sg (a / 2 ^ (b % 256) % 2 ^ m) m
def fBfi (n a b c : Nat) : Int :=
  let m := fieldLen n b
  let pos := b % 256
  if m = 0 then c else ((c % 2 ^ pos + a % 2 ^ m * 2 ^ pos + c / 2 ^ (pos + m) * 2 ^ (pos + m) : Nat) : Int)

/-! ### Meanings -/

/-- IADD (R107). -/
def execIadd (w : Width) (x : RG) (s : State) : Host.Outcome State Fault Refusal :=
  intRG (.iadd w x) w 2 x fAdd s
/-- ISUB (R107). -/
def execIsub (w : Width) (x : RG) (s : State) : Host.Outcome State Fault Refusal :=
  intRG (.isub w x) w 2 x fSub s
/-- IMUL (R107). -/
def execImul (w : Width) (x : RG) (s : State) : Host.Outcome State Fault Refusal :=
  intRG (.imul w x) w 2 x fMul s
/-- IMULH (R107). -/
def execImulh (w : Width) (x : RG) (s : State) : Host.Outcome State Fault Refusal :=
  intRG (.imulh w x) w 2 x (fMulh (x.sub.getLsbD 0)) s
/-- IDIV (R107, R108). -/
def execIdiv (w : Width) (x : RG) (s : State) : Host.Outcome State Fault Refusal :=
  intRG (.idiv w x) w 2 x (fDiv (x.sub.getLsbD 0)) s
/-- IREM (R107, R108). -/
def execIrem (w : Width) (x : RG) (s : State) : Host.Outcome State Fault Refusal :=
  intRG (.irem w x) w 2 x (fRem (x.sub.getLsbD 0)) s
/-- IMIN (R107). -/
def execImin (w : Width) (x : RG) (s : State) : Host.Outcome State Fault Refusal :=
  intRG (.imin w x) w 2 x (fMin (x.sub.getLsbD 0)) s
/-- IMAX (R107). -/
def execImax (w : Width) (x : RG) (s : State) : Host.Outcome State Fault Refusal :=
  intRG (.imax w x) w 2 x (fMax (x.sub.getLsbD 0)) s
/-- AND (R107). -/
def execAnd (w : Width) (x : RG) (s : State) : Host.Outcome State Fault Refusal :=
  intRG (.and w x) w 2 x fAnd s
/-- OR (R107). -/
def execOr (w : Width) (x : RG) (s : State) : Host.Outcome State Fault Refusal :=
  intRG (.or w x) w 2 x fOr s
/-- XOR (R107). -/
def execXor (w : Width) (x : RG) (s : State) : Host.Outcome State Fault Refusal :=
  intRG (.xor w x) w 2 x fXor s
/-- ANDN (R107). -/
def execAndn (w : Width) (x : RG) (s : State) : Host.Outcome State Fault Refusal :=
  intRG (.andn w x) w 2 x fAndn s
/-- SHL (R107, R109). -/
def execShl (w : Width) (x : RG) (s : State) : Host.Outcome State Fault Refusal :=
  intRG (.shl w x) w 2 x fShl s
/-- SHR (R107, R109). -/
def execShr (w : Width) (x : RG) (s : State) : Host.Outcome State Fault Refusal :=
  intRG (.shr w x) w 2 x fShr s
/-- SAR (R107, R109). -/
def execSar (w : Width) (x : RG) (s : State) : Host.Outcome State Fault Refusal :=
  intRG (.sar w x) w 2 x fSar s
/-- ROL (R107, R109). -/
def execRol (w : Width) (x : RG) (s : State) : Host.Outcome State Fault Refusal :=
  intRG (.rol w x) w 2 x fRol s
/-- BFX (R107, R109). -/
def execBfx (w : Width) (x : RG) (s : State) : Host.Outcome State Fault Refusal :=
  intRG (.bfx w x) w 2 x (fBfx (x.sub.getLsbD 0)) s
/-- IMAD (R107, R109). -/
def execImad (w : Width) (x : RG) (s : State) : Host.Outcome State Fault Refusal :=
  intRG (.imad w x) w 3 x fMad s
/-- BFI (R107, R109). -/
def execBfi (w : Width) (x : RG) (s : State) : Host.Outcome State Fault Refusal :=
  intRG (.bfi w x) w 3 x fBfi s
/-- IABS (R107). -/
def execIabs (w : Width) (x : RG) (s : State) : Host.Outcome State Fault Refusal :=
  intRG (.iabs w x) w 1 x fAbs s
/-- POPC (R107). -/
def execPopc (w : Width) (x : RG) (s : State) : Host.Outcome State Fault Refusal :=
  intRG (.popc w x) w 1 x fPopc s
/-- CLZ (R107). -/
def execClz (w : Width) (x : RG) (s : State) : Host.Outcome State Fault Refusal :=
  intRG (.clz w x) w 1 x fClz s
/-- BREV (R107). -/
def execBrev (w : Width) (x : RG) (s : State) : Host.Outcome State Fault Refusal :=
  intRG (.brev w x) w 1 x fBrev s
/-- IADD, immediate form (R74, R107). -/
def execIaddIm (w : Width) (x : IM) (s : State) : Host.Outcome State Fault Refusal :=
  intIM (.iaddIm w x) w x fAdd s
/-- ISUB, immediate form (R74, R107). -/
def execIsubIm (w : Width) (x : IM) (s : State) : Host.Outcome State Fault Refusal :=
  intIM (.isubIm w x) w x fSub s
/-- IMUL, immediate form (R74, R107). -/
def execImulIm (w : Width) (x : IM) (s : State) : Host.Outcome State Fault Refusal :=
  intIM (.imulIm w x) w x fMul s
/-- IMIN, immediate form (R74, R107). -/
def execIminIm (w : Width) (x : IM) (s : State) : Host.Outcome State Fault Refusal :=
  intIM (.iminIm w x) w x (fMin (x.md.getLsbD 0)) s
/-- IMAX, immediate form (R74, R107). -/
def execImaxIm (w : Width) (x : IM) (s : State) : Host.Outcome State Fault Refusal :=
  intIM (.imaxIm w x) w x (fMax (x.md.getLsbD 0)) s
/-- AND, immediate form (R74, R107). -/
def execAndIm (w : Width) (x : IM) (s : State) : Host.Outcome State Fault Refusal :=
  intIM (.andIm w x) w x fAnd s
/-- OR, immediate form (R74, R107). -/
def execOrIm (w : Width) (x : IM) (s : State) : Host.Outcome State Fault Refusal :=
  intIM (.orIm w x) w x fOr s
/-- XOR, immediate form (R74, R107). -/
def execXorIm (w : Width) (x : IM) (s : State) : Host.Outcome State Fault Refusal :=
  intIM (.xorIm w x) w x fXor s
/-- ANDN, immediate form (R74, R107). -/
def execAndnIm (w : Width) (x : IM) (s : State) : Host.Outcome State Fault Refusal :=
  intIM (.andnIm w x) w x fAndn s
/-- SHL, immediate form (R74, R107). -/
def execShlIm (w : Width) (x : IM) (s : State) : Host.Outcome State Fault Refusal :=
  intIM (.shlIm w x) w x fShl s
/-- SHR, immediate form (R74, R107). -/
def execShrIm (w : Width) (x : IM) (s : State) : Host.Outcome State Fault Refusal :=
  intIM (.shrIm w x) w x fShr s
/-- SAR, immediate form (R74, R107). -/
def execSarIm (w : Width) (x : IM) (s : State) : Host.Outcome State Fault Refusal :=
  intIM (.sarIm w x) w x fSar s
/-- ROL, immediate form (R74, R107). -/
def execRolIm (w : Width) (x : IM) (s : State) : Host.Outcome State Fault Refusal :=
  intIM (.rolIm w x) w x fRol s

/-- MOV: A with its tag (R107, R61). -/
def execMov (w : Width) (x : RG) (s : State) : Host.Outcome State Fault Refusal :=
  issue x.h (Instr.mov w x).wf false (fun _ _ t => allocRG (isPair w) x t)
    (fun i =>
      let a := rdA i x (isPair w)
      match gate i [a] [(x.d, isPair w)] with
      | some r => r
      | none =>
        let n := pairBits (isPair w)
        putRes i x.d (isPair w) (fun l => BitVec.ofNat 64 (ival n x.a.m (a.at_ l))) fun l => (a.at_ l).tag) s
/-- SEL: A where predicate C reads true, else B, with the delivered source's tag (R107, R61). -/
def execSel (w : Width) (x : RG) (s : State) : Host.Outcome State Fault Refusal :=
  issue x.h (Instr.sel w x).wf false (fun _ _ t => allocRG (isPair w) x t)
    (fun i =>
      let a := rdA i x (isPair w)
      let b := rd i x.b (isPair w)
      let c := rd i x.c false
      match gate i [a, b, c] [(x.d, isPair w)] with
      | some r => r
      | none =>
        let n := pairBits (isPair w)
        let take (l : Nat) : Bool := pval x.c.m (c.at_ l)
        putRes i x.d (isPair w)
          (fun l => BitVec.ofNat 64 (if take l then ival n x.a.m (a.at_ l) else ival n x.b.m (b.at_ l)))
          fun l => if take l then (a.at_ l).tag else (b.at_ l).tag) s
/-- MOVI (R110). -/
def execMovi (w : Width) (x : IM) (s : State) : Host.Outcome State Fault Refusal :=
  issue x.h (Instr.movi w x).wf false (fun _ _ t => opdAlloc t x.d (isPair w))
    (fun i => intBody (isPair w) x.d 0 (immRd x.imm) (immRd 0) (immRd 0) false false false (fun _ a _ _ => (a : Int)) i) s
/-- MOVH: its destination is an implicit block-mode source, on which step 4 waits as on every destination (R110). -/
def execMovh (w : Width) (x : IM) (s : State) : Host.Outcome State Fault Refusal :=
  issue x.h (Instr.movh w x).wf false (fun _ _ t => opdAlloc t x.d (isPair w))
    (fun i =>
      let old := rd i ⟨x.d, false, false⟩ (isPair w)
      let h := pairBits (isPair w) / 2
      intBody (isPair w) x.d 1 old (immRd x.imm) (immRd 0) false false false
        (fun _ a b _ => ((a % 2 ^ h + b % 2 ^ h * 2 ^ h : Nat) : Int)) i) s

end Sys2Proof.Machine
end

