-- ==== Sys2Proof/Machine/Requests.lean ====
section
/-! DEFINITION. Requests in flight: how they are made, in which order they may be performed (R130, R224, R367), what a
release records and an acquire drains (R219 to R221), and how results reach registers. -/

namespace Sys2Proof.Machine

/-! ### Making a request -/

/-- A request of lane `l` of the issuing instruction, neither reading nor writing yet. -/
def mkReq (i : Issue) (l : Nat) (k : ReqKind) : Req :=
  { id := 0, grp := i.grp, core := i.core, slot := i.slot, tid := i.t.tid, ctx := i.t.ctx, seq := i.t.seq, pc := i.pc,
    rgncnt := i.t.rgncnt, lane := l, act := i.act, va := 0, loc := none, n := 0, write := false, read := false,
    strong := false, acq := false, rel := false, scope := .team, relScope := .team, sent := false, shLocs := [], shadow := none, shadowVa := none, fault := 0, info := 0,
    shFault := 0, logged := none, done := false, drains := [], val := 0, vtag := 0,
    born := i.s.clock, img := default, kind := k, word := i.t.word, cache := 2, got := [] }
/-- Send a request: it takes the next number. -/
def post (s : State) (r : Req) : State := { s with nextId := s.nextId + 1, reqs := s.reqs ++ [{ r with id := s.nextId }] }
/-- The request of number `id`. -/
def getReq (s : State) (id : Nat) : Option Req := s.reqs.find? fun r => r.id == id
/-- Replace a request. -/
def putReq (s : State) (r : Req) : State := { s with reqs := s.reqs.map fun q => if q.id = r.id then r else q }
/-- The latency monitor of a request's unit (R459). -/
def monOf (r : Req) : Option Nat :=
  match r.kind with
  | .seqCommit .. | .seqTent .. | .seqConf .. | .seqRd .. | .seqWp .. | .seqRel .. => some monBridle
  | .launch .. | .evAdd .. => some monTask
  | .redeem tk _ drop _ _ _ _ v => if v == some 0 && !drop then none else some (monSlice (bits tk.toNat 63 56))
  | .deliver tk .. => some (monSlice (bits tk.toNat 63 56))
  | _ => match r.loc with | some (.hbm pa) => some (monSlice (sliceOf pa)) | _ => none
/-- Remove a request; its unit counts its latency. -/
def dropReq (s : State) (id : Nat) : State :=
  let s1 := { s with reqs := s.reqs.filter fun q => q.id != id }
  match getReq s id with
  | some r => match monOf r with | some k => monitor s1 k r.born | none => s1
  | none => s1
/-- Ordering flags of an MM access (R75, R216); `rmw` where ORD 0b00 is acq-rel. -/
def ordOf (x : MM) (rmw : Bool) (r : Req) : Req :=
  { r with
    strong := rmw || x.ord != .weak
    acq := x.ord == .acq || (rmw && x.ord == .weak)
    rel := x.ord == .rel || (rmw && x.ord == .weak)
    scope := x.scope
    relScope := x.scope }
/-- The wider of two scopes. -/
def widest (a b : Scope) : Scope := if scopeNum a < scopeNum b then b else a
/-- The parts, of `all` of a transfer, that are performed now, `got` having been performed before: those that `which` names, or all that are left
where it names none (R214, R216). -/
def partsNow (all got which : List Nat) : List Nat :=
  let left := all.filter fun k => !got.contains k
  if which.isEmpty then left else left.filter which.contains
/-- Whether the parts `got` and `now` are all of a transfer. -/
def allParts (all got now : List Nat) : Bool := all.all fun k => got.contains k || now.contains k
/-- Slice-cache policy of an access through record `b` (R33, R75): 0 allocate, 1 allocate and evict first, 2 no allocate. -/
def cachePol (x : MM) (b : BitVec 256) : BitVec 2 := if x.cache = 0 then BitVec.ofNat 2 (bits b.toNat 124 123) else x.cache - 1

/-- What a translation gives an access: a home, a fault cause with INFO[7:0], or the other world (R359, R436, R444). -/
structure Home where
  loc : Option Loc
  fault : Nat
  info : Nat
  world : Bool
  deriving DecidableEq, Repr
/-- Translate for a team of core `c`; a multicast window refuses every access but MST and RLD (R444). -/
def homeOf (s : State) (c ctx : Nat) (write : Bool) (va : Nat) : Home × State :=
  let x := translate s (.core c) ctx (getCore s c).world write va
  match x.1 with
  | .ok l => (⟨some l, 0, 0, false⟩, x.2)
  | .world => (⟨none, 0, 0, true⟩, x.2)
  | .fault k i => (⟨none, k, i, false⟩, x.2)
  | .multicast _ => (⟨none, 8, 2, false⟩, x.2)
/-- Whether a kind of access needs a G9 home slice (R441). -/
def needsSlice (k : ReqKind) : Bool := match k with | .xred .. | .xrd .. | .expq .. => true | _ => false
/-- Give a request the home of its data, and of its shadow byte if it reads one. -/
def route (s : State) (r : Req) : Req × Bool × State :=
  let a := homeOf s r.core r.ctx r.write r.va
  let no := needsSlice r.kind && a.1.loc.isSome && hostAt a.2 (.core r.core) r.ctx r.va
  let r1 := { r with
    loc := if no then none else a.1.loc, fault := if no then 8 else a.1.fault, info := if no then 4 else a.1.info,
    shFault := 0, shadowVa := if needsSlice r.kind then none else r.shadowVa }
  match r1.shadowVa with
  | some v =>
    if r.write then (r1, a.1.world, a.2)
    else
      let b := homeOf a.2 r.core r.ctx false v
      ({ r1 with shadow := b.1.loc, shFault := b.1.fault, info := if a.1.fault = 0 then b.1.info else a.1.info },
        a.1.world || b.1.world, b.2)
  | none => (r1, a.1.world, a.2)
/-- Member `m` of a multicast group: 0 to 31 the one behind a port, 32 this device; 33 stands for no multicast (log entry 3). Home of
an address at a member (R444): another device's by its own table, which is not known here; this device's by the table of RCTX. A fault at
this member leaves the access without home and without cause: it waits (`memberFault` gives what its firmware is told). -/
def memberHome (s : State) (c ctx : Nat) (write : Bool) (va m : Nat) : Home × State :=
  match windowOf s ctx va with
  | none => homeOf s c ctx write va
  | some w =>
    if winMode w ≠ 2 || decide (32 < m) then homeOf s c ctx write va
    else if winWld w != (getCore s c).world then (⟨none, 0, 0, true⟩, s)
    else
      let a := wrap ((va : Int) - winVbase w + winRbase w) 57
      if m = 32 then
        let x := tableAt s (.core c) (winRctx w) (getCore s c).world write a none
        match x.1 with
        | .ok l => (⟨some l, 0, 0, false⟩, x.2)
        | .world => (⟨none, 0, 0, true⟩, s)
        | _ => (⟨none, 0, 0, false⟩, s)
      else if s.downPorts.contains m then (⟨none, 8, 1, false⟩, s)
      else (⟨some (.remote (winChip w) (65 + 32 * winRctx w + m) a), 0, 0, false⟩, s)
/-- The fault that this device's own member meets at an address (R444): its context, the address there, the cause. -/
def memberFault (s : State) (c ctx : Nat) (write : Bool) (va m : Nat) : Option (Nat × Nat × Nat) :=
  match windowOf s ctx va with
  | some w =>
    let a := wrap ((va : Int) - winVbase w + winRbase w) 57
    if winMode w ≠ 2 || m ≠ 32 || winWld w != (getCore s c).world then none
    else
      match (tableAt s (.core c) (winRctx w) (getCore s c).world write a none).1 with
      | .fault k _ => some (winRctx w, a, k)
      | _ => none
  | none => none
/-- Name of the accesses of request `id` at this device's own member, in fault records. -/
def memberGrp (id : Nat) : Nat := 2 ^ 66 + id
/-- Whether a record of the own member's fault has still to be answered by its firmware (R444). -/
def memberWaits (s : State) (r : Req) : Bool :=
  s.ctxs.any fun k => k.2.heldRecs.any (·.grp == memberGrp r.id) || k.2.openRecs.any fun e => e.2.grp == memberGrp r.id
/-- A member's firmware is told of a fault at it (R369, R444). -/
def tellMember (s : State) (r : Req) (acc : Nat) (x : Option (Nat × Nat × Nat)) : State :=
  match x with
  | none => s
  | some (ctx, a, cause) =>
    queueFault s ctx ⟨cause, 0, acc, r.core, r.slot, 0, 0, r.pc, 0, 1#32 <<< r.lane, a, 0, 0, r.rgncnt, memberGrp r.id⟩
/-- Give a request of MST or RLD to member `m` its homes; it does not walk again before the member's firmware has answered. -/
def routeMember (s : State) (r : Req) (m : Nat) : Req × Bool × State :=
  if memberWaits s r then (r, false, s)
  else
    let a := memberHome s r.core r.ctx r.write r.va m
    let s1 := tellMember a.2 r (if r.write then 1 else 0) (memberFault s r.core r.ctx r.write r.va m)
    let r1 := { r with loc := a.1.loc, fault := a.1.fault, info := a.1.info, shFault := 0 }
    match r.shadowVa, r.write with
    | some v, false =>
      let b := memberHome s1 r.core r.ctx false v m
      let s2 := tellMember b.2 r 3 (memberFault s1 r.core r.ctx false v m)
      ({ r1 with shadow := b.1.loc, shFault := b.1.fault, info := if a.1.fault = 0 then b.1.info else a.1.info },
        a.1.world || b.1.world, s2)
    | _, _ => (r1, a.1.world, s1)
/-- Route any access. -/
def reroute (s : State) (r : Req) : Req × Bool × State :=
  match r.kind with
  | .mst _ m | .rld _ _ _ _ m => routeMember s r m
  | _ => route s r
/-- Route and send requests; whether any met a leaf of the other world (R127). -/
def routeAll : List Req → State → Bool × State
  | [], s => (false, s)
  | r :: rs, s =>
    let x := reroute s { r with id := s.nextId }
    let y := routeAll rs (post x.2.2 x.1)
    (x.2.1 || y.1, y.2)

/-! ### Program order (R130, R224, R367) -/

/-- A ticket read (R227). -/
def isTicketRead (r : Req) : Bool :=
  match r.kind with
  | .ldt .. | .fetch .. => true
  | _ => false
/-- A memory access, as against a message to a unit. -/
def isAccess (r : Req) : Bool := r.read || r.write
/-- Whether an access waits for firmware (R363). -/
def isFaulted (r : Req) : Bool := r.fault != 0 || r.shFault != 0
/-- Whether a lane of a logged instruction has not been performed, also after its replay has walked again (R367). -/
def unfinished (r : Req) : Bool := isFaulted r || r.logged.isSome
/-- Addresses of the shadow bytes that a ticket read captures (R62, R214). -/
def ticketShadows (q : Req) : List Nat := match q.kind with | .ldt _ _ _ _ _ _ _ sh _ => sh | .fetch _ _ _ sh => sh | _ => []
/-- Whether a ticket read takes a byte of an access: of its lines, or one of its shadow bytes, by their homes and by their addresses. -/
def ticketOverlap (q r : Req) : Bool :=
  ((ticketShadows q).any fun v => decide (r.va ≤ v) && decide (v < r.va + r.n)) ||
  (q.shLocs.any fun h => match h, r.loc with | some a, some b => overlap a 1 b r.n | _, _ => false) ||
  match q.loc, r.loc with
  | some a, some b =>
    let lines : BitVec 4 := match q.kind with | .ldt _ _ m .. => m | .fetch _ _ m _ => m | _ => 0xF
    (List.range 4).any fun k => lines.getLsbD k && overlap (locAdd a (128 * k)) 128 b r.n
  | _, _ => false
/-- The bytes of an access and of its shadow read. -/
def extents (r : Req) : List (Loc × Nat) :=
  (match r.loc with | some a => [(a, r.n)] | none => []) ++
  (match r.shadow with | some b => [(b, 1)] | none => [])
/-- Whether two accesses touch a common byte at their homes. -/
def touches (q r : Req) : Bool :=
  if isTicketRead q then ticketOverlap q r
  else if isTicketRead r then ticketOverlap r q
  else (extents q).any fun a => (extents r).any fun b => overlap a.1 a.2 b.1 b.2
/-- The 64 KiB-aligned ranges of an access to global memory (R367). -/
def ranges (r : Req) : List Nat :=
  match r.loc with
  | some (.scratch ..) | some (.weight _) => []
  | _ => ((r.va :: r.shadowVa.toList) ++ ticketShadows r).map (· / 65536)
/-- Whether an access lies outside the instance of scope `sc` of its team, so that it acts as a relaxed one (R217): another core's
scratchpad, or another device's memory, a host's or a pool node's. An MST or RLD that reaches another device has scope SYSTEM (R445). -/
def outside (r : Req) (sc : Scope) : Bool :=
  match r.kind, r.loc with
  | _, some (.scratch c _) => c != r.core && decide (scopeNum sc ≤ 1)
  | .mst .., _ | .rld .., _ => false
  | _, some (.remote ..) => decide (scopeNum sc ≤ 4)
  | _, _ => false
/-- Whether an access acquires (R216, R217). -/
def acquires (r : Req) : Bool := r.acq && !outside r r.scope
/-- Whether a scope is CORE, CLUSTER or DIE. -/
def narrowScope (sc : Scope) : Bool := decide (1 ≤ scopeNum sc) && decide (scopeNum sc ≤ 3)
/-- The scope at which the release part of an access is performed: SYSTEM for a narrow one to another device (R442). -/
def releaseAt (r : Req) : Scope :=
  match r.loc with
  | some (.remote ..) => if narrowScope r.relScope then .system else r.relScope
  | _ => r.relScope
/-- Whether an access releases (R216, R217). -/
def releases (r : Req) : Bool := r.rel && !outside r (releaseAt r)
/-- Whether an access is a narrow release: of scope CORE, CLUSTER or DIE, to local global memory (R221, R224, R442). The release part of an
MST orders the earlier accesses before every member's write (R446). -/
def isNarrow (r : Req) : Bool :=
  r.rel && narrowScope r.relScope && (match r.kind, r.loc with | .mst .., _ => false | _, some (.hbm _) => true | _, _ => false)
/-- Whether earlier access `q` of one team must be performed before `r`: `q` is an acquire, they share a byte, `r` is a
release, `r` is an acquire and `q` a logged read, or `r` touches a range that a logged `q` touches. A branch on a load orders no later store, so
the branch form of Q9 (R225) can occur (log entry 74). -/
def precedes (q r : Req) : Bool :=
  isAccess q && isAccess r &&
  ((q.grp != r.grp && acquires q) || touches q r ||
   (q.grp != r.grp && releases r && !isTicketRead q && !(isNarrow r && q.write && !q.read && !unfinished q)) ||
   (q.grp != r.grp && acquires r && q.read && unfinished q && !isTicketRead q) ||
   (q.grp != r.grp && unfinished q && (ranges q).any fun k => (ranges r).contains k))
/-- The write buffer of a core is full for a narrow release (R221): its writes in flight to global memory hold 256 lines. -/
def bufferFull (s : State) (r : Req) : Bool :=
  let mine := s.reqs.filter fun q => q.core == r.core && q.write && !q.done && decide (q.id < r.id)
  let lines := mine.flatMap fun q => match q.loc with | some (.scratch ..) | none => [] | some l => linesAt l q.n
  decide (Config.writeBufferLines ≤ (lines.foldl (fun ls l => if ls.contains l then ls else l :: ls) []).length)
/-- Whether request `r` may be performed now. -/
def canPerform (s : State) (r : Req) : Bool :=
  !r.done && !isFaulted r && !(isNarrow r && bufferFull s r) &&
  s.reqs.all fun q => !(q.tid == r.tid && q.core == r.core && decide (q.id < r.id) && precedes q r)

/-- Whether every access of a team in flight that satisfies `f` has been performed. -/
def teamDone (s : State) (c tid : Nat) (f : Req → Bool) : Bool :=
  s.reqs.all fun q => !(q.core == c && q.tid == tid && isAccess q && f q)
/-- Whether the walk for an access of a team must wait: it reads table entries at the access's place in program order, and an earlier acquire,
or an earlier store of the team to such an entry, has not been performed (R218, R360). -/
def walkHeld (s : State) (c tid ctx : Nat) (vas : List Nat) : Bool :=
  let es := vas.flatMap (entriesRead s c ctx)
  !es.isEmpty && s.reqs.any fun q => q.core == c && q.tid == tid && isAccess q &&
    (acquires q || (q.write && match q.loc with | some l => es.any fun pa => overlap l q.n (.hbm pa) 8 | none => false))
/-- Whether the log entries of a core are all taken, so that its teams' memory instructions wait (R366). -/
def logFull (s : State) (c : Nat) : Bool :=
  decide (Config.logEntries ≤ ((getCore s c).log.filter fun e => logLive s c e.2).length)

/-! ### Performing writes -/

/-- Whether a write region of the launch holds `n` bytes at an address (R330, R449). -/
def inWriteRegion (ws : List DWord) (va n : Nat) : Bool :=
  [4, 5].any fun k => recRegSpace ws k == 0 && decide (recRegBase ws k ≤ va) && decide (va + n ≤ recRegBase ws k + recRegLen ws k)
/-- The launch is no longer replayable (R449). -/
def spendReplay (s : State) (ctx seq : Nat) : State := updLaunch s ctx seq fun q => { q with replayable := false }
/-- A write of `n` bytes of a launch at `l`, reached through `va`: it stays replayable only inside its write regions (R449). -/
def noteWrite (s : State) (ctx seq va n : Nat) (l : Loc) : State :=
  match l with
  | .scratch .. => s
  | .hbm _ => if inWriteRegion (getLaunch s ctx seq).words va n then s else spendReplay s ctx seq
  | _ => spendReplay s ctx seq
/-- A line in the undo log of debug mode (R390), once for each instruction: the old bytes of the line at `l` that instruction `grp` of team
`tid`, in slot `sl` of core `c`, writes in its region `rgn`. -/
def undoAt (s : State) (c sl tid grp : Nat) (rgn : DWord) (l : Loc) : State :=
  match getTeam s c sl with
  | none => s
  | some t =>
    let logged := t.undo.any fun u => match u with | .memLine g x .. => g == grp && x == lineOf l | _ => false
    if !(getCtx s t.ctx).debug || t.tid != tid || logged then s
    else
      let tags : List Tag :=
        match l with
        | .scratch k b => (List.range 32).map fun w => ngetD 63 (getCore s k).tags (b / 128 * 32 + w)
        | _ => []
      let full := match l with | .scratch k b => lineFull s k (b / 128) | _ => true
      let u : Undo := .memLine grp (lineOf l) (readLoc s (lineOf l) 128) tags full
      setTeam s c sl { t with undo := keepUndo 4096 (insUndo rgn.toNat [u] t.undo), undoNew := u :: t.undoNew }
/-- The lines that a write of `n` bytes of the instruction of `r` goes to. -/
def undoLine (s : State) (r : Req) (l : Loc) (n : Nat) : State :=
  (linesAt l n).foldl (fun s x => undoAt s r.core r.slot r.tid r.grp r.rgncnt x) s
/-- Word tags of an STS (R195): whole words take the tag, an 8-B store 63 in its upper word, a narrower store the lower of
the old and the stored tag, 63 above every count. -/
def putWordTags (m : NMap Tag) (byte n : Nat) (t : Tag) : NMap Tag :=
  let w := byte / 4
  if n = 8 then nsetD 63 (nsetD 63 m w t) (w + 1) 63
  else if n = 4 then nsetD 63 m w t
  else
    let old := ngetD 63 m w
    nsetD 63 m w (if t.toNat < old.toNat then t else old)
/-- The record that a release leaves: its core, scope, the first request it does not cover, and its bytes (R220). -/
def observedOf (r : Req) (pa : Nat) : Observed := ⟨r.core, r.relScope, r.id + 1, pa, r.n, true⟩
/-- A release is recorded in its lines (R220). -/
def recordAt (s : State) (r : Req) (l : Loc) : State :=
  match l with
  | .hbm pa => if isNarrow r then recordRelease s l (observedOf r pa) else s
  | _ => s
/-- A plain write of bytes at their home, with the release record (R218, R220); one of no bytes writes nothing. -/
def performWrite (s : State) (r : Req) (l : Loc) (bs : List Byte) : State :=
  if bs.isEmpty then s else recordAt (noteWrite (storeAt (undoLine s r l bs.length) l bs) r.ctx r.seq r.va bs.length l) r l
/-- The write of a read-modify-write at its home: a release whose value it read still stands in it (R219). -/
def performUpdate (s : State) (r : Req) (l : Loc) (bs : List Byte) : State :=
  recordAt (noteWrite (writeLoc (undoLine s r l bs.length) l bs) r.ctx r.seq r.va bs.length l) r l

/-! ### Acquires (R219, R220) -/

/-- Whether a request waits behind an acquire of its own team, and so has not left its core. -/
def behindAcquire (s : State) (q : Req) : Bool :=
  s.reqs.any fun p => p.tid == q.tid && p.core == q.core && acquires p && isAccess p && decide (p.id < q.id) && p.grp != q.grp
/-- Writes of core `c` numbered below `b` that are still in flight, with those that a peer device has refused; a write whose own walk failed
stands in the operand log and has not been sent. -/
def buffered (s : State) (c b : Nat) : Bool :=
  s.reqs.any fun q => q.core == c && q.write && !q.done && decide (q.id < b) && (!isFaulted q || q.sent) && !behindAcquire s q
/-- Drains of `cores`, of what each issued before request `b`; `all` marks those of an ALL record. -/
def drainsOf (cores : List Nat) (b : Nat) (all : Bool) : List Observed :=
  cores.map fun k => ⟨k, if all then .system else .device, b, 0, 0, true⟩
/-- The record of a line as a read of `n` bytes at `l` sees it: the releases whose value it takes stand (R219). -/
def seenOf (s : State) (l x : Loc) (n : Nat) : Seen :=
  let rec_ := relRec s x
  let meets (o : Observed) : Bool := match l with | .hbm pa => relMeets o pa n | _ => false
  ⟨match x with | .hbm pa => pa / 128 | _ => 0, rec_.named.map fun o => { o with stands := o.stands && meets o }, rec_.all, s.nextId⟩
/-- What an acquire of scope `sc` on core `c` that has seen `v` must drain (R220): every core for an ALL record, else every core that the record
names, once the acquire synchronises with a release there. Each makes visible what it issued before the acquire read. -/
def seenDrains (s : State) (sc : Scope) (c : Nat) (v : Seen) : List Observed :=
  if v.all then drainsOf (s.cores.map (·.1)) v.bound true
  else if v.named.any (synchronises sc c) then drainsOf (sortAsc (v.named.map (·.core))) v.bound false
  else []
/-- What an acquire that reads `n` bytes at `l` must drain, for every line that they touch (R220). -/
def drainsFor (s : State) (sc : Scope) (c : Nat) (l : Loc) (n : Nat) : List Observed :=
  (linesAt l n).flatMap fun x => seenDrains s sc c (seenOf s l x n)
/-- The drains that are not yet over. -/
def openDrains (s : State) (ds : List Observed) : List Observed := ds.filter fun o => buffered s o.core o.bound
/-- What the drains `ds` of a completed acquire leave of the record of line `x` (R220). -/
def clearLine (s : State) (ds : List Observed) (x : Loc) : State :=
  let rec_ := relRec s x
  let named := rec_.named.filter fun o => !(ds.any fun d => d.core == o.core && decide (o.bound ≤ d.bound))
  let all := if ds.any (·.scope == .system) then decide (4 < (sortAsc (named.map (·.core))).length) else rec_.all
  setRelRec s x ⟨named, all⟩
/-- An acquire of `n` bytes at `l` that drained `ds` completes: what it drained leaves the records of its lines (R220). -/
def clearRecord (s : State) (l : Loc) (n : Nat) (ds : List Observed) : State :=
  if ds.isEmpty then s else (linesAt l n).foldl (fun s x => clearLine s ds x) s
/-- A strong read by a team of `n` bytes at `l`: what it saw of the release records, which a later acquire fence must drain (R219, R220). -/
def observe (s : State) (r : Req) (l : Loc) (n : Nat) : State :=
  let seen := ((linesAt l n).map fun x => seenOf s l x n).filter fun v => v.all || v.named.any (·.stands)
  if !r.strong || seen.isEmpty then s else updTeam s r.core r.slot fun t => { t with observed := t.observed ++ seen }

/-! ### Results in registers -/

/-- The team that issued a request, if it still holds its slot. -/
def teamOf (s : State) (r : Req) : Option Team :=
  match getTeam s r.core r.slot with
  | some t => if t.tid = r.tid then some t else none
  | none => none
/-- Change the issuing team, then take an ended team away once its last producer has landed (R117). -/
def withTeam (s : State) (r : Req) (f : Team → Team) : State :=
  match teamOf s r with
  | some t => reap (setTeam s r.core r.slot (f t)) r.core r.slot
  | none => s
/-- A result lands in lane `l` of a destination (R37 step 7); a register shrunk away takes nothing (R187). -/
def land (t : Team) (d : Opd) (pair : Bool) (l : Nat) (x : DWord) (tag : Tag) : Team :=
  if opdAlloc t d pair then putOpd t d pair l x tag else t
/-- An out-of-bounds or discarded lane: 0, tag 0, full (R35, R370). -/
def landZero (t : Team) (d : Opd) (pair : Bool) (l : Nat) : Team := land t d pair l 0 0
/-- FLTSTAT and SIGSTAT of an FP result that lands late (R150, R249); it never traps. -/
def landFlags (t : Team) (pol : FpPol) (fl : Nat) (tag : Tag) : Team :=
  { t with
    fltstat := t.fltstat ||| BitVec.ofNat 64 fl,
    sigstat := if sigFails pol.sigpol t.sigmin tag then t.sigstat ||| 1 else t.sigstat }

/-! ### What a request will write -/

/-- Registers that a request in flight will write: n for v(n), 256 + n for s(n), 320 + n for p(n) (R187, R257). -/
def producesInto (k : ReqKind) : List Nat :=
  let many (d : Opd) (m : Nat) : List Nat :=
    match d with
    | .v n => (List.range m).map (n.toNat + ·)
    | .s n => (List.range m).map (256 + n.toNat + ·)
    | .p n => [320 + n.toNat]
    | _ => []
  let one (d : Opd) (pair : Bool) : List Nat := many d (if pair && !isS d then 2 else 1)
  match k with
  | .load d p _ | .lds d p _ | .atom _ _ _ _ d p | .xrd _ _ d p | .rld _ _ d p _ | .seqRd _ _ d p
  | .launch d p _ _ _ | .deliver _ _ d p _ _ _ _ _ => one d p
  | .redeem _ _ _ st d p _ _ => one d p ++ one st false
  | .expq _ _ d | .seqCommit _ _ _ d | .seqTent _ _ d | .seqConf _ _ d | .seqWp _ _ _ _ _ d | .seqRel _ _ d => one d false
  | .ldt d .. => one d true
  | .scale quant d g .. => if quant then one d false else many d g
  | .fil d m => if isP d then (List.range 7).map (320 + ·) else many d m
  | .brld _ | .store _ | .sts _ _ _ | .spl _ _ | .mst .. | .xred _ _ _ | .fetch .. | .evAdd _ _ => []

/-- Lanes that a scalar destination serves: the lowest (R128, R246). -/
def servedLanes (i : Issue) (d : Opd) : List Nat := if isS d then [lowest i.act] else lanesOf i.act
/-- The mask of lanes in a list. -/
def maskOfList (ls : List Nat) : Mask := maskOf fun l => ls.contains l
/-- OOBCNT after `k` out-of-bounds lanes (R35). -/
def countOob (t : Team) (k : Nat) : Team := { t with oobcnt := satAdd32 t.oobcnt k }

end Sys2Proof.Machine
end

