-- ==== Sys2Proof/Machine/Barrier.lean ====
section
/-! DEFINITION. Barriers (R181 to R184) and register growth (R169, R170, R185 to R187), with their events. -/

namespace Sys2Proof.Machine

/-! ### Units (R158, R160, R182) -/

/-- Levels at which a launch may use barriers (R182). -/
def barLevelOk (ws : List DWord) (L : Nat) : Bool :=
  decide (2 ≤ L) && (List.range 8).any fun n => decide (L ≤ n) && decide (n ≤ recTop ws) && decide (recBind ws n ≤ 2)

/-! ### Barriers -/

/-- Level and number of a barrier instruction (R181). -/
def barOf (x : IM) : Nat × Nat := (x.imm.toNat % 8, x.imm.toNat / 8 % 32)
/-- Barrier `bid` of a unit; its phase starts at 0 (R182). -/
def getBar (q : Launch) (L unit bid : Nat) : Barrier :=
  (q.bars.find? fun b => b.level == L && b.unit == unit && b.bid == bid).getD ⟨L, unit, bid, 0, []⟩
/-- Replace a barrier. -/
def putBar (q : Launch) (b : Barrier) : Launch :=
  { q with bars := q.bars.filter (fun x => !(x.level == b.level && x.unit == b.unit && x.bid == b.bid)) ++ [b] }
/-- The barrier that a team's instruction names. -/
def teamBar (s : State) (t : Team) (L bid : Nat) : Barrier :=
  let q := getLaunch s t.ctx t.seq
  getBar q L (unitNo q.words t.lvl L) bid
/-- Whether the team has an arrival in the barrier's current phase (R183). -/
def pendingArrival (s : State) (t : Team) (L bid : Nat) : Bool :=
  t.arrivals.any fun a => a.level == L && a.bid == bid && a.phase == (teamBar s t L bid).phase
/-- Arrive in the current phase (R183). -/
def arrive (i : Issue) (L bid : Nat) : State :=
  let b := teamBar i.s i.t L bid
  let me := teamNo (wordsOf i) i.t.lvl L
  let t := { i.t with
    arrivals := i.t.arrivals.filter (fun a => !(a.level == L && a.bid == bid)) ++ [⟨L, bid, b.phase⟩] }
  updLaunch (setTeam i.s i.core i.slot t) i.t.ctx i.t.seq fun q => putBar q { b with arrived := insAsc me b.arrived }
/-- An arrival releases the team's earlier accesses: they have been performed, but for ticket reads (R184, R227). -/
def arrivalReady (i : Issue) (L bid : Nat) : Bool :=
  !pendingArrival i.s i.t L bid && teamDone i.s i.core i.t.tid fun q => !isTicketRead q
/-- BAR.ARV (R183). -/
def execBarArv (x : IM) (s : State) : Host.Outcome State Fault Refusal :=
  let (L, bid) := barOf x
  issue x.h (Instr.barArv x).wf false (fun s _ t => barLevelOk (getLaunch s t.ctx t.seq).words L)
    (fun i => if arrivalReady i L bid then .go (arrive i L bid) else .wait) s
/-- BAR.SYNC: arrives, and retires when the phase completes (R183). -/
def execBarSync (x : IM) (s : State) : Host.Outcome State Fault Refusal :=
  let (L, bid) := barOf x
  issue x.h (Instr.barSync x).wf false (fun s _ t => barLevelOk (getLaunch s t.ctx t.seq).words L)
    (fun i => if arrivalReady i L bid then .hold (arrive i L bid) (.barrier L bid) else .wait) s
/-- BAR.WAIT: its passage is an acquire, which waits for logged loads (R183, R184, R367). -/
def execBarWait (x : IM) (s : State) : Host.Outcome State Fault Refusal :=
  let (L, bid) := barOf x
  issue x.h (Instr.barWait x).wf false (fun s _ t => barLevelOk (getLaunch s t.ctx t.seq).words L)
    (fun i =>
      if !pendingArrival i.s i.t L bid && teamDone i.s i.core i.t.tid (fun q => q.read && unfinished q && !isTicketRead q)
      then .go i.s else .wait) s

/-- Teams held in BAR.SYNC of a unit's barrier: core and slot. -/
def syncWaiters (s : State) (ctx seq L unit bid : Nat) : List (Nat × Nat) :=
  let ws := (getLaunch s ctx seq).words
  s.cores.flatMap fun k =>
    (k.2.teams.filter fun e =>
      e.2.ctx == ctx && e.2.seq == seq && unitNo ws e.2.lvl L == unit &&
      (match e.2.hold with | some h => h.kind == .barrier L bid | none => false)).map fun e => (k.1, e.1)
/-- Teams of a unit that have ended (R182). -/
def endedIn (q : Launch) (L unit : Nat) : List Nat :=
  (q.ended.filter fun lvl => unitNo q.words lvl L == unit).map fun lvl => teamNo q.words lvl L
/-- BARRIER_PHASE_COMPLETE (R182, R183): once every participant has arrived or ended, with at least one arrival. While the context is
SUSPENDED its teams wait in their saved form (R380). -/
def execBarrierPhaseComplete (ctx seq L unit bid : Nat) (s : State) : Host.Outcome State Fault Refusal :=
  let q := getLaunch s ctx seq
  let b := getBar q L unit bid
  let present := sortAsc (b.arrived ++ endedIn q L unit)
  if (getCtx s ctx).st == .suspended || b.arrived.isEmpty || decide (present.length < teamsIn q.words L) then .next s
  else
    let ws := syncWaiters s ctx seq L unit bid
    let s1 := updLaunch s ctx seq fun q => putBar q { b with phase := b.phase + 1, arrived := [] }
    .next (ws.foldl (fun s w => retireHold s w.1 w.2) s1)

/-! ### Register growth (R169, R170, R185 to R187) -/

/-- A team with registers from `lo` to `hi` − 1 holding what a new register holds (R186). -/
def clearRegs (t : Team) (lo hi : Nat) : Team :=
  { t with v := t.v.filter fun e => !(decide (32 * lo ≤ e.1) && decide (e.1 < 32 * hi)) }
/-- RGROW (R186): ready once the core has granted or denied the team's request. -/
def execRgrow (x : IM) (s : State) : Host.Outcome State Fault Refusal :=
  issue x.h (Instr.rgrow x).wf false (fun _ _ _ => true)
    (fun i =>
      let m := x.imm.toNat
      match gate i [] [(x.d, false)] with
      | some r => r
      | none =>
        if 256 < i.t.alloc + m then putRes i x.d false (fun _ => 0) fun _ => 63
        else
          match i.t.growth with
          | none => .wait
          | some 0 => putRes i x.d false (fun _ => 0) fun _ => 63
          | some _ =>
            putRes { i with t := { clearRegs i.t i.t.alloc (i.t.alloc + m) with alloc := i.t.alloc + m } } x.d false (fun _ => 1) fun _ => 63) s
/-- RSHR (R187); in debug mode the removed registers go to the undo log (R391). -/
def execRshr (x : IM) (s : State) : Host.Outcome State Fault Refusal :=
  let m := x.imm.toNat
  issue x.h (Instr.rshr x).wf false (fun _ _ t => decide (m + 32 ≤ t.alloc))
    (fun i =>
      let lo := i.t.alloc - m
      let busy := (i.s.reqs.any fun q => q.core == i.core && q.tid == i.t.tid && (producesInto q.kind).any fun n => decide (lo ≤ n) && decide (n < 256))
        || i.t.heldRegs.any fun h => decide (lo ≤ h.2) && decide (h.2 < 256)
      if busy then .wait
      else
        let old : List Undo := (List.range m).map fun k => .vreg (lo + k) (lanes.map fun l => getV i.t (lo + k) l)
        .go (setTeam i.s i.core i.slot (pushUndo i.s { clearRegs i.t lo i.t.alloc with alloc := lo } old))) s

/-- The request that a team of core `c` has placed and that has no answer yet: its issue address holds an RGROW that only waits for one
(R186). -/
def growthOf (s : State) (c : Nat) (t : Team) : Option Nat :=
  match t.growth, fetchFor s c t with
  | none, .ok (.rgrow x) _ _ =>
    let exec := executing t
    let g := getP t x.h.gp.toNat
    let act := exec &&& (if x.h.gn then ~~~ g.val else g.val)
    let t1 := enterRegion t (getCtx s t.ctx).debug (issueAddr t) x.h.rgn
    if (Instr.rgrow x).wf && !atStop t1 && exec &&& ~~~ g.full == 0 && act != 0 && decide (t.alloc + x.imm.toNat ≤ 256) &&
        (lanesOf act).all (dstFree t x.d false) then some x.imm.toNat
    else none
  | _, _ => none
/-- Whether (age, slot) comes before another (R169). -/
def older (a b : Nat × Nat) : Bool := decide (a.1 < b.1) || (decide (a.1 = b.1) && decide (a.2 < b.2))
/-- Waiting requests of a core from the oldest on: age, slot and registers (R169). -/
def growthQueue (s : State) (c : Nat) : List (Nat × Nat × Nat) :=
  let ws := (getCore s c).teams.filterMap fun e => (growthOf s c e.2).map fun m => (e.2.age, e.1, m)
  sortBy (fun a b => older (a.1, a.2.1) (b.1, b.2.1)) ws
/-- Blocks that a team holds: its allocation, and what has been granted to the RGROW that it stands at (R169). -/
def blocksHeld (t : Team) : Nat := (t.alloc + t.growth.getD 0) / 16
/-- Free register blocks of a core (R169). -/
def freeBlocks (k : Core) : Nat := Config.regBlocks - (k.teams.map fun e => blocksHeld e.2).sum
/-- The slot of the oldest request and its registers, if it can be granted. -/
def grantable (s : State) (c : Nat) : Option (Nat × Nat) :=
  match growthQueue s c with
  | (_, sl, m) :: _ => if m / 16 ≤ freeBlocks (getCore s c) then some (sl, m) else none
  | [] => none
/-- RGROW_GRANT (R169): the oldest request. -/
def execRgrowGrant (core : Nat) (s : State) : Host.Outcome State Fault Refusal :=
  match grantable s core with
  | some (sl, m) => .next (updTeam s core sl fun t => { t with growth := some m })
  | none => .next s
/-- RGROW_DENY: every team that could act waits in RGROW and the oldest request does not fit; the youngest is denied
(R170). -/
def execRgrowDeny (core : Nat) (s : State) : Host.Outcome State Fault Refusal :=
  let acting := (getCore s core).teams.filter fun e => !e.2.halted && e.2.live != 0
  if !acting.isEmpty && (acting.all fun e => (growthOf s core e.2).isSome) && (grantable s core).isNone then
    match (growthQueue s core).getLast? with
    | some (_, sl, _) => .next (updTeam s core sl fun t => { t with growth := some 0 })
    | none => .next s
  else .next s

end Sys2Proof.Machine
end

