-- ==== Sys2Proof/Machine/Memory.lean ====
section
/-! DEFINITION. Global loads and stores, prefetch, buffer records (R126 to R133), and the performing of their accesses
(R218 to R224). -/

namespace Sys2Proof.Machine

/-! ### Issue of an access through a record (R35, R127, R366) -/

/-- What bounds leave of an access: the record, the in-bounds lanes with their indices, and the other lanes. -/
structure Plan where
  buf : BitVec 256
  img : OpImage
  ins : List (Nat × Int)
  out : List Nat
  pol : BitVec 2             -- slice-cache policy
/-- The operands of an instruction as an operand log entry would keep them (R420): active lanes of A and B, 0 elsewhere. -/
def imageOfOps (i : Issue) (r : BitVec 256) (a : Rd) (b : Option Rd) : OpImage :=
  let on {α : Type} (z : α) (f : Nat → α) : List α := lanes.map fun l => if inMask i.act l then f l else z
  ⟨r, on 0 fun l => (a.at_ l).bits.setWidth 32,
   match b with | some b => on 0 fun l => (b.at_ l).bits | none => [],
   match b with | some b => on 0 fun l => (b.at_ l).tag | none => [], []⟩
/-- Lanes `ls` of an access through the record that `x` names, index source `a`. -/
def planOf (i : Issue) (x : MM) (a : Rd) (b : Option Rd) (ls : List Nat) : Plan :=
  let r := bufOf i.t x.brec.toNat
  let idx (l : Nat) : Int := memIdx (a.at_ l) x.ofs
  ⟨r, imageOfOps i r a b, (ls.filter fun l => brIn r (idx l)).map fun l => (l, idx l), ls.filter fun l => !brIn r (idx l), cachePol x r⟩
/-- Steps 3, 4 and 6 up to bounds: the waits, the full operand log, WORLD, then OOB under OOBTRAP. -/
def withPlan (i : Issue) (x : MM) (srcs : List Rd) (dsts : List (Opd × Bool)) (a : Rd) (ls : List Nat) (k : Plan → Res) : Res :=
  match gate i srcs dsts with
  | some r => r
  | none =>
    if logFull i.s i.core then .wait
    else
      let p := planOf i x a ((srcs.drop 1).head?) ls
      if brWld p.buf != (getCore i.s i.core).world then .trap (trapAt 0x0D i.pc i.act)
      else if brOobTrap p.buf && !p.out.isEmpty then .trap (trapAt 5 i.pc (maskOfList p.out))
      else k p
/-- The record that an access names is bound (R28). -/
def recBound (t : Team) (x : MM) : Bool := (nget t.bufs x.brec.toNat).isSome
/-- Put the team back and send the requests; a leaf of the other world traps and nothing commits (R127, R359). An instruction whose walks must
wait for earlier accesses of the team is not ready (R360). -/
def sendAll (i : Issue) (p : Plan) (t : Team) (rs : List Req) : Res :=
  if walkHeld i.s i.core i.t.tid i.t.ctx (rs.flatMap fun r => r.va :: r.shadowVa.toList) then .wait
  else
    let x := routeAll (rs.map fun r => { r with img := p.img, cache := p.pol }) (setTeam i.s i.core i.slot t)
    if x.1 then .trap (trapAt 0x0D i.pc i.act) else .go x.2
/-- A releasing instruction none of whose lanes is in bounds still orders the team's earlier accesses (R226): it waits for those that its
release part orders (R224). -/
def releaseWaits (i : Issue) (x : MM) (rmw : Bool) (ins : Bool) : Bool :=
  let narrow := narrowScope x.scope
  !ins && (x.ord == .rel || (rmw && x.ord == .weak)) &&
  !teamDone i.s i.core i.t.tid fun q => !isTicketRead q && !(narrow && q.write && !q.read && !unfinished q)
/-- Step 6 of a load: out-of-bounds lanes take 0, the others are marked empty, the old contents go to the undo log. -/
def markLoads (i : Issue) (d : Opd) (pair : Bool) (p : Plan) : Team :=
  let t1 := countOob i.t p.out.length
  let t2 := p.out.foldl (fun t l => landZero t d pair l) t1
  let t3 := p.ins.foldl (fun t e => markOpd t d pair e.1 false) t2
  pushUndo i.s t3 (undoOf i.t d pair)
/-- The release that an earlier release fence makes of a strong write, at the fence's scope beside its own (R219); its acquire part keeps its
scope. -/
def fenced (t : Team) (r : Req) : Req :=
  match t.relFence with
  | some sc => if r.strong && r.write then { r with rel := true, relScope := if r.rel then widest r.relScope sc else sc } else r
  | none => r

/-- Requests of a load. -/
def loadReqs (i : Issue) (x : MM) (f : LoadFmt) (p : Plan) : List Req :=
  p.ins.map fun e =>
    let r := ordOf x false (mkReq i e.1 (.load x.d (pairSize x.size) f))
    { r with
      va := brAddr p.buf e.2 (sizeBytes x.size), n := sizeBytes x.size, read := true,
      shadowVa := if f.fp && brT p.buf then some (brShadow p.buf e.2) else none }
/-- LD (R128). -/
def execLd (x : MM) (s : State) : Host.Outcome State Fault Refusal :=
  let pair := pairSize x.size
  issue x.h (Instr.ld x).wf false (fun _ _ t => recBound t x && opdAlloc t x.d pair && opdAlloc t x.a.o false)
    (fun i =>
      let a := rd i x.a false
      withPlan i x [a] [(x.d, pair)] a (servedLanes i x.d) fun p =>
        let f := loadFmt (slotFmt (recSlot (wordsOf i) x.slot.toNat)) x.size
        sendAll i p (markLoads i x.d pair p) (loadReqs i x f p)) s

/-- Of lanes that store at one address the highest-numbered stores (R129, R234); the others write no bytes. -/
def lastWriters (rs : List Req) : List Req :=
  match rs with
  | [] => []
  | r :: rest =>
    (if rest.any fun q => q.va == r.va && q.loc == r.loc
      then { r with kind := match r.kind with | .sts _ t p => .sts [] t p | _ => .store [] } else r) :: lastWriters rest
/-- Requests of a store: data, and the shadow bytes through a T record (R62, R129). -/
def storeReqs (i : Issue) (x : MM) (b : Rd) (p : Plan) : List Req :=
  let n := sizeBytes x.size
  let base (l : Nat) (k : ReqKind) : Req := { ordOf x false (mkReq i l k) with write := true }
  let data := p.ins.map fun e => fenced i.t
    { base e.1 (.store (leBytes n (b.at_ e.1).bits.toNat)) with va := brAddr p.buf e.2 n, n := n }
  let tags := if brT p.buf then p.ins.map fun e =>
      { base e.1 (.store [(b.at_ e.1).tag.setWidth 8]) with
        va := brShadow p.buf e.2, n := 1, shadowVa := some (brShadow p.buf e.2), strong := false, rel := false, relScope := .team }
    else []
  lastWriters tags ++ lastWriters data
/-- ST (R129). -/
def execSt (x : MM) (s : State) : Host.Outcome State Fault Refusal :=
  let pair := pairSize x.size
  issue x.h (Instr.st x).wf (x.ord == .rel)
    (fun _ _ t => recBound t x && opdAlloc t x.a.o false && opdAlloc t x.b.o pair)
    (fun i =>
      let a := rd i x.a false
      let b := rd i x.b pair
      withPlan i x [a, b] [] a (lanesOf i.act) fun p =>
        if releaseWaits i x false !p.ins.isEmpty then .wait else sendAll i p (countOob i.t p.out.length) (storeReqs i x b p)) s

/-- PREF (R131, R209): the lines of the lanes that translate are fetched into their slices' caches, each once; lanes that would trap or fault are
dropped. -/
def execPref (x : MM) (s : State) : Host.Outcome State Fault Refusal :=
  issue x.h (Instr.pref x).wf false (fun _ _ t => recBound t x && opdAlloc t x.a.o false)
    (fun i =>
      let a := rd i x.a false
      match gate i [a] [] with
      | some r => r
      | none =>
        if logFull i.s i.core then .wait
        else
          let p := planOf i x a none (lanesOf i.act)
          let vas := p.ins.map fun e => brAddr p.buf e.2 (sizeBytes x.size)
          if brWld p.buf != (getCore i.s i.core).world then .go i.s
          else if walkHeld i.s i.core i.t.tid i.t.ctx vas then .wait
          else
            let z := vas.foldl
              (fun (z : List Loc × State) va =>
                let h := homeOf z.2 i.core i.t.ctx false va
                (match h.1.loc with | some l => (if z.1.contains (lineOf l) then z.1 else z.1 ++ [lineOf l]) | none => z.1, h.2))
              ([], i.s)
            .go (z.1.foldl (fun s l => tallyAt s l 0 p.pol) z.2)) s

/-- BRLD (R132): the team is held until the record has arrived. -/
def execBrld (x : MM) (s : State) : Host.Outcome State Fault Refusal :=
  issue x.h (Instr.brld x).wf false (fun _ _ t => recBound t x)
    (fun i =>
      let a := rd i x.a false
      withPlan i x [a] [] a [lowest i.act] fun p =>
        match p.ins with
        | [] => .go (setTeam i.s i.core i.slot { countOob i.t 1 with bufs := nset i.t.bufs (xNum x.d) 0 })
        | e :: _ =>
          let r := { ordOf x false (mkReq i e.1 (.brld (xNum x.d))) with va := brAddr p.buf e.2 32, n := 32, read := true }
          match sendAll i p i.t [r] with
          | .go s' => .hold s' .request
          | r => r) s
/-- BRMK (R133): the check of R34 raises IL. -/
def execBrmk (x : RG) (s : State) : Host.Outcome State Fault Refusal :=
  let m := match x.a.o with | .s m => m.toNat | _ => 0
  let src (k : Nat) : Src := { x.a with o := .s (BitVec.ofNat 6 (m + k)) }
  issue x.h (Instr.brmk x).wf false (fun _ _ _ => true)
    (fun i =>
      let a (k : Nat) : Rd := rd i (src k) true
      match gate i [a 0, a 1, a 2, a 3] [] with
      | some r => r
      | none =>
        let w (k : Nat) : Nat := ival 64 x.a.m ((a k).at_ 0)
        let r : BitVec 256 := BitVec.ofNat 256 (w 0 + 2 ^ 64 * w 1 + 2 ^ 128 * w 2 + 2 ^ 192 * w 3)
        if brOk r then .go (setTeam i.s i.core i.slot { i.t with bufs := nset i.t.bufs (xNum x.d) r })
        else .trap (trapAt 1 i.pc i.exec)) s

/-! ### Performing (R218 to R224) -/

/-- Whether the weight-store group of an address is refreshing (R206). -/
def refreshing (k w : Nat) : Bool := k % 32768 / 2048 == bits w 12 9 && decide (k % 2048 < 128)
/-- Whether the scratchpad lines of an access are full, or it asks not to wait for them (R202, R232): the check at the bank. -/
def linesReady (s : State) (r : Req) : Bool :=
  match r.loc with
  | some (.scratch c b) => r.cache == 1 || (List.range ((b % 128 + r.n + 127) / 128)).all fun k => lineFull s c (b / 128 + k)
  | _ => true
/-- Whether a read can be performed now. -/
def canRead (s : State) (r : Req) : Bool :=
  canPerform s r && linesReady s r && (match r.loc with | some (.weight w) => !refreshing s.clock w | some _ => true | none => false)
/-- A contribution of RLD is read as an FP load (R447). -/
def contribFmt (f : FW) : LoadFmt := match f with | .f32 => ⟨.b32, true, 24, false⟩ | .f64 => ⟨.b64, true, 53, false⟩
/-- Tag of a loaded element, `b` its shadow byte if it has one (R62, R195, R236). -/
def readTag (s : State) (r : Req) (b : Option Nat) : Tag :=
  match r.kind, r.loc with
  | .lds _ _ f, some (.scratch c k) => if f.fp then regTag (ngetD 63 (getCore s c).tags (k / 4)) else 63
  | .load _ _ f, _ => loadTag f b
  | .scale .., _ => loadTag ⟨.b32, true, 24, false⟩ b
  | .rld f .., _ => loadTag (contribFmt f) b
  | _, _ => 63
/-- A BRLD's record arrives: it is checked by R34, and IL is raised precisely at the BRLD if it fails (R132). -/
def landRecord (s : State) (r : Req) (n : Nat) : State :=
  match teamOf s r with
  | none => s
  | some t =>
    match t.hold with
    | none => s
    | some h =>
      if brOk r.val then
        retireHold (setTeam s r.core r.slot { t with bufs := nset t.bufs n r.val }) r.core r.slot
      else takeTrap s r.core r.slot { t with hold := none } (trapAt 1 h.pc h.exec)
/-- The value of a read reaches its destination, extended to its width: a scalar has 64 bits (R128). -/
def landRead (s : State) (r : Req) : State :=
  let s1 := pulse (dropReq s r.id) r.ctx
  match r.kind with
  | .load d p f | .lds d p f => withTeam s1 r fun t => land t d (p || isS d) r.lane (extend f r.val.toNat) r.vtag
  | .brld n => landRecord s1 r n
  | _ => s1
/-- The separate accesses of a read (R214, R216): its value in words of at most 8 B, then its shadow byte. -/
def readWords (r : Req) : Nat := (r.n + 7) / 8
def readParts (r : Req) : List Nat := List.range (readWords r + if r.shadow.isSome then 1 else 0)
/-- One part of a read takes its value (R224); what an acquire must drain is decided by the words it reads (R220). -/
def readPart (s : State) (r : Req) (k : Nat) : Req × State :=
  match r.loc with
  | none => (r, s)
  | some l =>
    if k < readWords r then
      let n := min 8 (r.n - 8 * k)
      let a := locAdd l (8 * k)
      let v := leNat (readLoc s a n) * 2 ^ (64 * k)
      let s1 := observe (consume (if k = 0 then tallyAt s l 0 r.cache else s) a r.ctx r.seq) r a n
      ({ r with
          val := r.val ||| BitVec.ofNat 256 v, got := insAsc k r.got,
          vtag := if r.shadow.isSome then r.vtag else readTag s r none,
          drains := if acquires r then r.drains ++ drainsFor s1 r.scope r.core a n else [] }, s1)
    else
      match r.shadow with
      | none => (r, s)
      | some q =>
        ({ r with vtag := readTag s r (some (leNat (readLoc s q 1))), got := insAsc k r.got },
          tallyAt (consume s q r.ctx r.seq) q 0 r.cache)
/-- A read whose parts have all been performed ends; an acquire completes once its drains are over (R220). -/
def endRead (s : State) (r : Req) : State :=
  match r.loc with
  | none => s
  | some l =>
    if (openDrains s r.drains).isEmpty then landRead (clearRecord s l r.n r.drains) r
    else putReq s { r with done := true }
/-- The parts `ps` of a read are performed, or all that are left where `ps` names none. -/
def performRead (s : State) (r : Req) (ps : List Nat) : State :=
  let z := (partsNow (readParts r) r.got ps).foldl (fun (z : Req × State) k => readPart z.2 z.1 k) (r, s)
  if (readParts r).all z.1.got.contains then endRead z.2 z.1 else putReq z.2 z.1
/-- Whether the image of a watchpoint entry can be read: the team's earlier stores to it have been performed and its line is full (R202,
R425). -/
def imageReady (s : State) (r : Req) : Bool :=
  match r.loc with
  | some l =>
    linesReady s { r with n := 46 } &&
    s.reqs.all fun q => !(q.core == r.core && q.tid == r.tid && q.write && decide (q.id < r.id) &&
      (match q.loc with | some b => overlap b q.n l 46 | none => false))
  | none => true
/-- The 8-B words of an image that are read now, beside those read before (R216, R425). -/
def imageParts (s : State) (r : Req) (ps : List Nat) : Req :=
  match r.loc with
  | none => r
  | some l =>
    ((ps.filter fun k => decide (k < 6) && !r.got.contains k)).foldl
      (fun r k =>
        let w : DWord := BitVec.ofNat 64 (leNat (readLoc s (locAdd l (8 * k)) (min 8 (46 - 8 * k))))
        let old := if r.img.b.length = 6 then r.img.b else List.replicate 6 0
        { r with got := insAsc k r.got, img := { r.img with b := setNth old k w } }) r
/-- LOAD_DATA_ARRIVAL (R128, R132, R236, R425): the parts that arrive; of an image they wait for the rest at the unit. -/
def execLoadDataArrival (x : Parts) (s : State) : Host.Outcome State Fault Refusal :=
  match getReq s x.id with
  | some r =>
    match r.kind with
    | .load .. | .brld _ => .next (if canRead s r then performRead s r x.which else s)
    | .seqWp 0 .. => .next (if !r.done && imageReady s r then putReq s (imageParts s r x.which) else s)
    | _ => .next s
  | none => .next s

/-- Words `2 * k` and `2 * k + 1` of a spilled line are written with their tags (R216, R256). -/
def splPart (s : State) (r : Req) (l : Loc) (ws : List Word) (ts : List Tag) (k : Nat) : State :=
  match l with
  | .scratch c b =>
    updCore (performWrite s r (.scratch c (b + 8 * k)) (((ws.drop (2 * k)).take 2).flatMap fun w => leBytes 4 w.toNat)) c fun m =>
      { m with tags := [2 * k, 2 * k + 1].foldl (fun m w => nsetD 63 m (b / 4 + w) (nth 63 ts w)) m.tags }
  | _ => s
/-- The parts of a store: a spilled line is a set of 8-B accesses (R216). -/
def storeParts (r : Req) : List Nat := match r.kind with | .spl .. => List.range 16 | _ => [0]
/-- A write takes its place at its home and is acknowledged (R224); of a spilled line the parts `ps`, or all that are left where `ps` names
none. -/
def performStore (s : State) (r : Req) (ps : List Nat) : State :=
  match r.loc with
  | none => s
  | some l =>
    let now := partsNow (storeParts r) r.got ps
    let last := allParts (storeParts r) r.got now
    let s1 := if last then pulse (tallyAt (dropReq s r.id) l 1 r.cache) r.ctx else putReq s { r with got := now.foldl (fun g k => insAsc k g) r.got }
    match r.kind with
    | .store bs => performWrite s1 r l bs
    | .mst bs _ => performWrite s1 r l bs
    | .sts bs tag _ =>
      match l with
      | .scratch c b =>
        if bs.isEmpty then s1 else updCore (performWrite s1 r l bs) c fun k => { k with tags := putWordTags k.tags b bs.length tag }
      | _ => performWrite s1 r l bs
    | .spl ws ts => now.foldl (fun s k => splPart s r l ws ts k) s1
    | _ => s
/-- Whether a request is a store of some kind. -/
def isStore (r : Req) : Bool :=
  match r.kind with
  | .store _ | .mst .. | .sts .. | .spl .. => true
  | _ => false
/-- WRITE_PERFORMED (R216, R218, R224, R234, R446): a store that waits at this device's own multicast member walks again (R444). -/
def execWritePerformed (x : Parts) (s : State) : Host.Outcome State Fault Refusal :=
  match getReq s x.id with
  | some r =>
    if !isStore r then .next s
    else if r.loc.isNone && !isFaulted r then
      let y := reroute s r
      .next (if y.2.1 then s else if canPerform y.2.2 y.1 then performStore y.2.2 y.1 x.which else y.2.2)
    else .next (if canPerform s r && linesReady s r then performStore s r x.which else s)
  | none => .next s

/-! ### Promotion (R220) -/

/-- A core makes every write it has issued visible, as far as their order allows. -/
def drainCore (s : State) (c : Nat) : State :=
  (s.reqs.filter fun q => q.core == c && isStore q).foldl
    (fun s q => match getReq s q.id with
      | some q => if canPerform s q && linesReady s q then performStore s q [] else s
      | none => s) s

end Sys2Proof.Machine
end

