-- ==== Sys2Proof/Machine/Scratch.lean ====
section
/-! DEFINITION. Scratchpad and weight-store accesses, line full/empty bits, spill and fill (R194 to R206, R231 to R237, R254 to
R257). -/

namespace Sys2Proof.Machine

/-! ### LDS and STS (R231 to R235) -/

/-- Registers of index source A under a mode: one, two or three (R231). -/
def idxCount (x : MM) : Nat := if x.brec == 0 then 1 else x.brec.toNat % 4
/-- Index registers and layout scalars as sources (R231). -/
def scrSrcs (i : Issue) (x : MM) : List Rd :=
  let a (k : Nat) : Opd :=
    match x.a.o with
    | .v n => .v (BitVec.ofNat 8 (n.toNat + k))
    | .s n => .s (BitVec.ofNat 6 (n.toNat + k))
    | o => o
  let lay : List Rd :=
    if x.brec == 0 then []
    else match x.b.o with
      | .s n => (List.range (if 4 ≤ x.brec.toNat then 4 else 3)).map fun k =>
          rd i ⟨.s (BitVec.ofNat 6 (n.toNat + k)), x.b.e, false⟩ true
      | _ => []
  ((List.range (idxCount x)).map fun k => rd i ⟨a k, x.a.e, false⟩ false) ++ lay
/-- Allocation of the index registers (R231). -/
def scrAlloc (t : Team) (x : MM) : Bool := rangeAlloc t x.a.o (idxCount x)
/-- Whether the layout word, if one is used, is legal for the access (R197, R231). -/
def layoutLegal (i : Issue) (x : MM) : Bool :=
  x.brec == 0 || (match x.b.o with | .s n => layoutOk (layoutWord i.t n.toNat) x.size | _ => false)
/-- Core, byte and lane of the in-bounds lanes, and the other lanes. -/
structure ScrPlan where
  ins : List (Nat × Nat × Nat)
  out : List Nat
/-- Steps 3 to 6 up to bounds of a scratchpad access by lanes `ls`: the waits, the layout check, WORLD. -/
def withScr (i : Issue) (x : MM) (srcs : List Rd) (dsts : List (Opd × Bool)) (ls : List Nat) (k : ScrPlan → Res) : Res :=
  match gate i srcs dsts with
  | some r => r
  | none =>
    if logFull i.s i.core then .wait
    else if !layoutLegal i x then .trap (trapAt 1 i.pc i.exec)
    else
      let at_ := ls.map fun l => (l, scrLane i x l)
      if at_.any fun e => e.2 == .world then .trap (trapAt 0x0D i.pc i.act)
      else k ⟨at_.filterMap fun e => match e.2 with | .at_ c b => some (e.1, c, b) | _ => none,
              at_.filterMap fun e => match e.2 with | .at_ .. => none | _ => some e.1⟩
/-- Lanes whose line is empty (R202). -/
def emptyLanes (s : State) (p : ScrPlan) : Mask :=
  maskOfList ((p.ins.filter fun e => !lineFull s e.2.1 (e.2.2 / 128)).map (·.1))

/-- LDS (R233); its lines count as part of the index source (R202). -/
def execLds (x : MM) (s : State) : Host.Outcome State Fault Refusal :=
  let pair := pairSize x.size
  issue x.h (Instr.lds x).wf false (fun _ _ t => opdAlloc t x.d pair && scrAlloc t x)
    (fun i =>
      withScr i x (scrSrcs i x) [(x.d, pair)] (servedLanes i x.d) fun p =>
        let m := emptyLanes i.s p
        if x.cache == 0 && m != 0 then (if x.a.e then .trap (trapAt 2 i.pc m) else .wait)
        else
          let f := loadFmt (slotFmt (recSlot (wordsOf i) x.slot.toNat)) x.size
          let reqs := p.ins.map fun e =>
            { ordOf x false (mkReq i e.1 (.lds x.d pair f)) with
              loc := some (.scratch e.2.1 e.2.2), n := sizeBytes x.size, read := true, cache := x.cache }
          let t := markLoads i x.d pair ⟨0, default, p.ins.map fun e => (e.1, 0), p.out, 2⟩
          .go (reqs.foldl post (setTeam i.s i.core i.slot t))) s
/-- LDS_DATA_ARRIVAL (R233). -/
def execLdsDataArrival (id : Nat) (s : State) : Host.Outcome State Fault Refusal :=
  match getReq s id with
  | some r =>
    match r.kind with
    | .lds .. => .next (if canRead s r then performRead s r [] else s)
    | _ => .next s
  | none => .next s
/-- STS (R234): the data register stands in D and is a block-mode source. -/
def execSts (x : MM) (s : State) : Host.Outcome State Fault Refusal :=
  let pair := pairSize x.size
  issue x.h (Instr.sts x).wf (x.ord == .rel) (fun _ _ t => opdAlloc t x.d pair && scrAlloc t x)
    (fun i =>
      let d := rd i ⟨x.d, false, false⟩ pair
      withScr i x (scrSrcs i x ++ [d]) [] (lanesOf i.act) fun p =>
        let late := x.ord == .rel && p.ins.isEmpty && !teamDone i.s i.core i.t.tid fun q => !isTicketRead q   -- R226
        if late || (x.cache == 0 && emptyLanes i.s p != 0) then .wait
        else
          let n := sizeBytes x.size
          let reqs := p.ins.map fun e => fenced i.t
            { ordOf x false (mkReq i e.1 (.sts (leBytes n (d.at_ e.1).bits.toNat) (d.at_ e.1).tag (pairSize x.size))) with
              loc := some (.scratch e.2.1 e.2.2), n := n, write := true, cache := x.cache }
          .go ((lastWriters reqs).foldl post (setTeam i.s i.core i.slot (countOob i.t p.out.length)))) s

/-! ### The weight store (R206, R236, R237) -/

/-- Whether a weight-store address lies in a region of the Secure world (R236, R451). -/
def weightSecure (s : State) (w : Nat) : Bool := s.wsSecure.any fun r => decide (r.1 ≤ w) && decide (w < r.1 + r.2)
/-- LDW (R236). -/
def execLdw (x : MM) (s : State) : Host.Outcome State Fault Refusal :=
  let pair := pairSize x.size
  issue x.h (Instr.ldw x).wf false (fun _ _ t => opdAlloc t x.d pair && opdAlloc t x.a.o false)
    (fun i =>
      let a := rd i x.a false
      match gate i [a] [(x.d, pair)] with
      | some r => r
      | none =>
        if logFull i.s i.core then .wait
        else
          let n := sizeBytes x.size
          let at_ := (servedLanes i x.d).map fun l =>
            (l, weightAt i.core (x.brec == 1) ((a.at_ l).bits.toNat % 2 ^ 32) (sx x.ofs.toNat 21) n)
          if at_.any fun e => match e.2 with | some w => weightSecure i.s w != (getCore i.s i.core).world | none => false
          then .trap (trapAt 0x0D i.pc i.act)
          else
            let ins := at_.filterMap fun e => e.2.map fun w => (e.1, w)
            let out := (at_.filter fun e => e.2.isNone).map (·.1)
            let f := loadFmt (slotFmt (recSlot (wordsOf i) x.slot.toNat)) x.size
            let reqs := ins.map fun e =>
              { mkReq i e.1 (.load x.d pair f) with loc := some (.weight e.2), n := n, read := true }
            let t := markLoads i x.d pair ⟨0, default, ins.map fun e => (e.1, 0), out, 2⟩
            .go (reqs.foldl post (setTeam i.s i.core i.slot t))) s
/-- WEIGHT_STORE_REFRESH (R206): the clock reaches the next refresh window. -/
def execWeightStoreRefresh (s : State) : Host.Outcome State Fault Refusal :=
  .next (if s.clock % 2048 < 128 then s else { s with clock := (s.clock / 2048 + 1) * 2048 })

/-! ### Line full/empty instructions (R254, R255) -/

/-- Lines that a lane names, whether any was skipped, and whether one is of the other world (R254). -/
structure Named where
  lines : List (Nat × Nat)
  skip : Bool
  world : Bool
/-- The lines of address `a` and count `n`. -/
def namedLines (i : Issue) (a n : Nat) : Named :=
  match scrCore i.core a with
  | none => ⟨[], n != 0, false⟩
  | some k =>
    if !scrZeroOk a then ⟨[], n != 0, false⟩
    else
      let first := a % 2 ^ 20 / 128
      let cnt := min n (8192 - first)
      let ls := (List.range cnt).map (first + ·)
      let chk (l : Nat) : ScrCheck := scrCheck i.s i.core i.t.wg i.t.ctx k l
      let ok := ls.filter fun l => chk l == .ok
      ⟨ok.map fun l => (k, l), decide (cnt < n) || decide (ok.length < cnt), ls.any fun l => chk l == .world⟩
/-- Steps 3 to 5 of a line instruction: the lines of each active lane. -/
def withLines (i : Issue) (x : RG) (k : List (Nat × Named) → Team → Res) : Res :=
  let a := rd i x.a false
  let b := rd i x.b false
  match gate i [a, b] [] with
  | some r => r
  | none =>
    let ns := (lanesOf i.act).map fun l => (l, namedLines i (ival 32 x.a.m (a.at_ l)) (ival 32 x.b.m (b.at_ l)))
    if ns.any fun e => e.2.world then .trap (trapAt 0x0D i.pc i.act)
    else k ns (countOob i.t (ns.filter fun e => e.2.skip).length)
/-- Mark one line full or empty. -/
def markLine (full : Bool) (s : State) (l : Nat × Nat) : State :=
  updCore s l.1 fun k => { k with empty := if full then k.empty.filter (· != l.2) else insAsc l.2 k.empty }
/-- LNWAIT (R255). -/
def execLnwait (x : RG) (s : State) : Host.Outcome State Fault Refusal :=
  issue x.h (Instr.lnwait x).wf false (fun _ _ t => opdAlloc t x.a.o false && opdAlloc t x.b.o false)
    (fun i =>
      withLines i x fun ns t =>
        let m := maskOfList ((ns.filter fun e => e.2.lines.any fun l => !lineFull i.s l.1 l.2).map (·.1))
        if m = 0 then .go (setTeam i.s i.core i.slot t)
        else if x.sub == 1 then .trap (trapAt 2 i.pc m) else .wait) s
/-- LNSET and LNCLR (R255). -/
def lineBody (full : Bool) (x : RG) (i : Issue) : Res :=
  withLines i x fun ns t => .go ((ns.flatMap fun e => e.2.lines).foldl (markLine full) (setTeam i.s i.core i.slot t))
/-- LNSET (R255). -/
def execLnset (x : RG) (s : State) : Host.Outcome State Fault Refusal :=
  issue x.h (Instr.lnset x).wf false (fun _ _ t => opdAlloc t x.a.o false && opdAlloc t x.b.o false) (lineBody true x) s
/-- LNCLR (R255). -/
def execLnclr (x : RG) (s : State) : Host.Outcome State Fault Refusal :=
  issue x.h (Instr.lnclr x).wf false (fun _ _ t => opdAlloc t x.a.o false && opdAlloc t x.b.o false) (lineBody false x) s

/-! ### Spill and fill (R256, R257) -/

/-- Lines of a register image. -/
def imageLines (o : Opd) (m : Nat) : Nat := if isV o then m + 1 else 1
/-- Mask of the full elements of v(n). -/
def feMask (t : Team) (n : Nat) : Mask := maskOf fun l => (getV t n l).full
/-- The image of SPL (R256): words and word tags of each line. In a scalar image the words from 2m to 29 are 0 and every odd word, 30 and 31
among them, has tag 63 (log entry 83). -/
def imageOf (t : Team) (o : Opd) (m : Nat) : List (List Word × List Tag) :=
  match o with
  | .v a =>
    ((List.range m).map fun j =>
      (lanes.map fun l => (getV t (a.toNat + j) l).val, lanes.map fun l => (getV t (a.toNat + j) l).tag)) ++
    [(lanes.map fun j => if j < m then feMask t (a.toNat + j) else 0, lanes.map fun _ => 63)]
  | .s a =>
    let fe : Word := maskOf fun j => decide (j < m) && (getS t (a.toNat + j)).full
    [(lanes.map fun w =>
        if w < 2 * m then
          let x := (getS t (a.toNat + w / 2)).val
          if w % 2 = 0 then x.setWidth 32 else (x >>> 32).setWidth 32
        else if w = 30 then fe else 0,
      lanes.map fun w => if w < 2 * m ∧ w % 2 = 0 then (getS t (a.toNat + w / 2)).tag else 63)]
  | _ =>
    [(lanes.map fun w => if w < 7 then (getP t w).val else if 8 ≤ w ∧ w < 15 then (getP t (w - 8)).full else 0,
      lanes.map fun _ => 63)]
/-- Registers of an image, numbered as `producesInto` numbers them. -/
def imageRegs (o : Opd) (m : Nat) : List Nat := producesInto (.fil o m)
/-- Where an image lies: its first line, or out of bounds, or the other world. -/
def imageAt (i : Issue) (a lines : Nat) : ScrAt :=
  let n := namedLines i a lines
  if n.world then .world
  else if n.skip then .oob
  else match n.lines with
    | (k, l) :: _ => .at_ k (128 * l)
    | [] => .oob
/-- Whether every line of an image is full (R202). -/
def imageFull (s : State) (k byte lines : Nat) : Bool := (List.range lines).all fun j => lineFull s k (byte / 128 + j)
/-- SPL (R256, R257): it waits for producers in flight, not for elements that FECLR emptied. -/
def execSpl (x : RG) (s : State) : Host.Outcome State Fault Refusal :=
  let m := x.sub.toNat + 1
  let n := imageLines x.a.o m
  issue x.h (Instr.spl x).wf false (fun _ _ t => rangeAlloc t x.a.o m)
    (fun i =>
      let b := rd i x.b false
      match gate i [b] [] with
      | some r => r
      | none =>
        let regs := imageRegs x.a.o m
        if i.s.reqs.any fun q => q.core == i.core && q.tid == i.t.tid && (producesInto q.kind).any regs.contains then .wait
        else if logFull i.s i.core then .wait
        else
          match imageAt i (ival 32 x.b.m (b.at_ 0)) n with
          | .world => .trap (trapAt 0x0D i.pc i.act)
          | .oob => .go (setTeam i.s i.core i.slot (countOob i.t 1))
          | .at_ k byte =>
            if !imageFull i.s k byte n then .wait
            else
              let img := imageOf i.t x.a.o m
              let reqs := (List.range n).map fun j =>
                let w := nth ([], []) img j
                { mkReq i 0 (.spl w.1 w.2) with loc := some (.scratch k (byte + 128 * j)), n := 128, write := true }
              .go (reqs.foldl post i.s)) s
/-- Write element `l` of register `r` (as `producesInto` numbers it), or mark it. -/
def putReg (t : Team) (r l : Nat) (x : DWord) (tag : Tag) (full : Bool) : Team :=
  if r < 256 then setV t r l ⟨x.setWidth 32, full, regTag tag⟩
  else if r < 320 then setS t (r - 256) ⟨x, full, regTag tag⟩
  else setPBit t (r - 320) l (x != 0) full
/-- Lanes of a register: one for a scalar. -/
def regLanes (r : Nat) : List Nat := if 256 ≤ r ∧ r < 320 then [0] else lanes
/-- Old contents of registers for the undo log. -/
def undoRegs (t : Team) (rs : List Nat) : List Undo :=
  rs.map fun r =>
    if r < 256 then .vreg r (lanes.map fun l => getV t r l)
    else if r < 320 then .sreg (r - 256) (getS t (r - 256))
    else .preg (r - 320) (getP t (r - 320))
/-- An element of a register read for marking. -/
def markReg (t : Team) (r : Nat) (full : Bool) : Team :=
  (regLanes r).foldl
    (fun t l =>
      if r < 256 then let e := getV t r l; setV t r l { e with full := full }
      else if r < 320 then let e := getS t (r - 256); setS t (r - 256) { e with full := full }
      else setPBit t (r - 320) l (inMask (getP t (r - 320)).val l) full) t
/-- Whether a register takes a result: full in every lane and not held (R37 step 4, R364). -/
def regFree (t : Team) (r : Nat) : Bool :=
  (regLanes r).all fun l =>
    if r < 256 then dstFree t (.v (BitVec.ofNat 8 r)) false l
    else if r < 320 then dstFree t (.s (BitVec.ofNat 6 (r - 256))) false l
    else dstFree t (.p (BitVec.ofNat 3 (r - 320))) false l
/-- FIL (R256, R257). -/
def execFil (x : RG) (s : State) : Host.Outcome State Fault Refusal :=
  let m := x.sub.toNat + 1
  let n := imageLines x.d m
  issue x.h (Instr.fil x).wf false (fun _ _ t => rangeAlloc t x.d m)
    (fun i =>
      let b := rd i x.b false
      match gate i [b] [] with
      | some r => r
      | none =>
        let regs := imageRegs x.d m
        if !(regs.all (regFree i.t)) || logFull i.s i.core then .wait
        else
          match imageAt i (ival 32 x.b.m (b.at_ 0)) n with
          | .world => .trap (trapAt 0x0D i.pc i.act)
          | .oob =>
            let t := regs.foldl (fun t r => (regLanes r).foldl (fun t l => putReg t r l 0 0 true) t) (countOob i.t 1)
            .go (setTeam i.s i.core i.slot (pushUndo i.s t (undoRegs i.t regs)))
          | .at_ k byte =>
            if !imageFull i.s k byte n then .wait
            else
              let t := pushUndo i.s (regs.foldl (fun t r => markReg t r false) i.t) (undoRegs i.t regs)
              let r := { mkReq i 0 (.fil x.d m) with loc := some (.scratch k byte), n := 128 * n, read := true }
              .go (post (setTeam i.s i.core i.slot t) r)) s
/-- Word `w` of an image at a scratchpad byte, and its tag. -/
def imageWord (s : State) (k byte w : Nat) : Nat × Tag :=
  (leNat (getBytes (getCore s k).bytes (byte + 4 * w) 4), ngetD 63 (getCore s k).tags (byte / 4 + w))
/-- Registers restored from an image whose word `w`, with its tag, is `img w` (R256, R257). -/
def restoreImage (t : Team) (d : Opd) (m : Nat) (img : Nat → Nat × Tag) : Team :=
  match d with
  | .v a =>
    (List.range m).foldl
      (fun t j =>
        if t.alloc ≤ a.toNat + j then t
        else
          let fe := (img (32 * m + j)).1
          lanes.foldl (fun t l => let w := img (32 * j + l); putReg t (a.toNat + j) l (BitVec.ofNat 64 w.1) w.2 (fe.testBit l)) t) t
  | .s a =>
    let fe := (img 30).1
    (List.range m).foldl
      (fun t j =>
        let lo := img (2 * j)
        let hi := img (2 * j + 1)
        putReg t (256 + a.toNat + j) 0 (BitVec.ofNat 64 (lo.1 + 2 ^ 32 * hi.1)) lo.2 (fe.testBit j)) t
  | _ =>
    (List.range 7).foldl
      (fun t j =>
        let v := (img j).1
        let fe := (img (8 + j)).1
        lanes.foldl (fun t l => putReg t (320 + j) l (if v.testBit l then 1 else 0) 63 (fe.testBit l)) t) t
/-- Parts of the read of an image: its 8-B words (R216). -/
def imageReads (r : Req) : List Nat := List.range (r.n / 8)
/-- The 8-B words of an image that are read now, ahead of the others, with their tags: they wait in the request. -/
def imageAhead (s : State) (r : Req) (k byte : Nat) (now : List Nat) : Req :=
  now.foldl
    (fun r j =>
      let old := if r.img.b.isEmpty then List.replicate (r.n / 8) 0 else r.img.b
      let oldTags := if r.img.btags.isEmpty then List.replicate (r.n / 4) 63 else r.img.btags
      let lo := imageWord s k byte (2 * j)
      let hi := imageWord s k byte (2 * j + 1)
      { r with
          got := insAsc j r.got,
          img := { r.img with
            b := setNth old j (BitVec.ofNat 64 (lo.1 + 2 ^ 32 * hi.1)), btags := setNth (setNth oldTags (2 * j) lo.2) (2 * j + 1) hi.2 } }) r
/-- Word `w` of an image, from the words read ahead or as it stands. -/
def imageNow (s : State) (r : Req) (k byte w : Nat) : Nat × Tag :=
  if r.got.contains (w / 2) then ((nth 0 r.img.b (w / 2)).toNat / 2 ^ (32 * (w % 2)) % 2 ^ 32, nth 63 r.img.btags w) else imageWord s k byte w
/-- FIL_IMAGE_ARRIVAL (R216, R257): the words that arrive; with the last of them the registers are restored. -/
def execFilImageArrival (x : Parts) (s : State) : Host.Outcome State Fault Refusal :=
  match getReq s x.id with
  | some r =>
    match r.kind, r.loc with
    | .fil d m, some (.scratch k byte) =>
      if canPerform s r && linesReady s r then
        let now := partsNow (imageReads r) r.got x.which
        if !allParts (imageReads r) r.got now then .next (putReq s (imageAhead s r k byte now))
        else
          let s1 := (List.range (r.n / 128)).foldl (fun s j => consume s (.scratch k (byte + 128 * j)) r.ctx r.seq) (pulse (dropReq s r.id) r.ctx)
          .next (withTeam s1 r fun t => restoreImage t d m (imageNow s r k byte))
      else .next s
    | _, _ => .next s
  | none => .next s

end Sys2Proof.Machine
end

