-- ==== Sys2Proof/Machine/Engine.lean ====
section
/-! DEFINITION. The common form of the engine instructions (R300, R302): parameter blocks, completion words and events; the
order of an engine's first access (R228); and the accesses that engines make (R365, R370). -/

namespace Sys2Proof.Machine

/-! ### Parameter blocks (R300) -/

/-- Field of `n` bits at bit `lo` of a 64-B block. -/
def bf (b : List DWord) (lo n : Nat) : Nat := recField b lo n
/-- Flag at bit `k` of a block. -/
def bfb (b : List DWord) (k : Nat) : Bool := recField b k 1 == 1
/-- Whether a byte of the core's scratchpad lies in the team's share, outside the pool. -/
def ownByte (i : Issue) (byte : Nat) : Bool :=
  decide (byte < 2 ^ 20) && scrCheck i.s i.core i.t.wg i.t.ctx i.core (byte / 128) == .ok
/-- Byte of a direct address on the issuing core, if it names that core. -/
def ownAddr (i : Issue) (a : Nat) : Option Nat :=
  if scrZeroOk a && scrCore i.core a == some i.core then some (a % 2 ^ 20) else none
/-- First byte of the parameter block, if its address is allowed. -/
def blockByte (i : Issue) (x : EN) : Option Nat :=
  let w := getWg i.s i.core i.t.wg
  let base : Option Nat :=
    if srcZero x.b then some ((w.shareLine + poolLines w) * 128)
    else ownAddr i ((rdOpd i.s i.t x.b.o false (lowest i.act)).bits.toNat % 2 ^ 32)
  match base with
  | some b => if ownByte i (b + x.imm.toNat) && ownByte i (b + x.imm.toNat + 63) then some (b + x.imm.toNat) else none
  | none => none
/-- The eight words of a block at a byte of the core's scratchpad. -/
def blockWords (s : State) (c byte : Nat) : List DWord :=
  (List.range 8).map fun k => BitVec.ofNat 64 (leNat (getBytes (getCore s c).bytes (byte + 8 * k) 8))
/-- Whether an earlier access of the team still holds the reading of a block at a byte: a store to it (R130), or an acquire (R224). -/
def blockBehind (i : Issue) (byte : Nat) : Bool :=
  let r := { mkReq i 0 (.fil (.v 0) 0) with read := true, loc := some (.scratch i.core byte), n := 64 }
  i.s.reqs.any fun q => q.core == i.core && q.tid == i.t.tid && precedes q r
/-- The completion word's address rule (R302). -/
def tailOk (i : Issue) (b : List DWord) : Bool :=
  !bfb b 511 ||
  (match ownAddr i (bf b 448 32) with
   | some byte => byte % 8 == 0 && ownByte i byte
   | none => false)
/-- Steps 3 to 5 of an instruction with a parameter block: the base, the queue (`ready`), the block's lines, a trap owed from before
(R290), the block's address and the completion word's. -/
def withBlock (i : Issue) (x : EN) (ready : Bool) (owed : Option TrapInfo) (k : List DWord → Res) : Res :=
  match gate i (if srcZero x.b then [] else [rd i x.b false]) [] with
  | some r => r
  | none =>
    let at_ := blockByte i x
    let full := match at_ with
      | some b => lineFull i.s i.core (b / 128) && lineFull i.s i.core ((b + 63) / 128)
      | none => true
    let behind := match at_ with | some b => blockBehind i b | none => false
    if !full && x.b.e then .trap (trapAt 2 i.pc i.act)
    else if !full || !ready || behind then .wait
    else
      match owed, at_ with
      | some ti, _ => .trap ti
      | none, none => .trap (trapAt 1 i.pc i.exec)
      | none, some b =>
        let w := blockWords i.s i.core b
        if tailOk i w then k w else .trap (trapAt 1 i.pc i.exec)
/-- A buffer record that the team has bound (R28). -/
def recIsBound (t : Team) (n : Nat) : Bool := (nget t.bufs n).isSome

/-! ### Completion (R302) -/

/-- Write the completion word of a block's tail, if it asks for one: a weak store with word tags of 63. The launch is then no longer
replayable (R449); in debug mode the old line is logged (R390). -/
def writeCompletion (s : State) (c slot tid ctx seq : Nat) (rgn : DWord) (b : List DWord) (status flags : Nat) : State :=
  if bfb b 511 then
    let byte := bf b 448 32 % 2 ^ 20
    let s0 := undoAt s c slot tid s.nextId rgn (.scratch c byte)
    let x := status % 256 + 256 * (flags % 32) + 2 ^ 32 * bf b 416 32
    let s1 := updCore s0 c fun k => { k with
      bytes := putBytes k.bytes byte (leBytes 8 x),
      tags := nsetD 63 (nsetD 63 k.tags (byte / 4) 63) (byte / 4 + 1) 63 }
    spendReplay s1 ctx seq
  else s
/-- Add to an event of a context (R323, R324). -/
def addEvent (s : State) (ctx n : Nat) (a : DWord) : State :=
  updCtx s ctx fun k => { k with events := nsetD 0 k.events n (ngetD 0 k.events n + a) }
/-- Add 1 to the event of a block's tail, if it asks for it. -/
def signalEvent (s : State) (ctx : Nat) (b : List DWord) : State :=
  if bfb b 510 then addEvent s ctx (bf b 498 12) 1 else s

/-! ### Starting (R18, R228, R382) -/

/-- Whether a context's engines may start or go on: it is neither stopped for pre-emption nor gone (R382). -/
def ctxActive (s : State) (x : Nat) : Bool :=
  s.ctl.mode == .running && ((getCtx s x).st == .running || (getCtx s x).st == .draining)
/-- Whether an engine may make its first access for a command that its team issued when request `first` was next: with ACQ every
earlier access of the team is performed, without it the stores to the core's own scratchpad (R228). -/
def acqReady (s : State) (c tid : Nat) (acq : Bool) (first : Nat) : Bool :=
  s.reqs.all fun q => !(q.core == c && q.tid == tid && decide (q.id < first) && isAccess q && !isTicketRead q &&
    (acq || (q.write && (match q.loc with | some (.scratch k _) => k == c | _ => false))))

/-- Whether what a command with REL lets others observe may be shown: the release orders every earlier access of its team before it, as it
does for any release (R224, R228). -/
def relReady (s : State) (c tid : Nat) (rel : Bool) (first : Nat) : Bool := !rel || acqReady s c tid true first

/-- An acquire part of an instruction waits for the team's logged loads and read-modify-writes (R367). -/
def acqPart (i : Issue) (acq : Bool) : Bool := !acq || teamDone i.s i.core i.t.tid fun q => q.read && unfinished q && !isTicketRead q

/-! ### Accesses -/

/-- The outcome of an engine access: a value, a translation fault with ACC of R369, or a leaf of the other world. -/
inductive Got (α : Type) where
  | ok (x : α)
  | fault (va cause info acc : Nat)
  | world
/-- Who makes an access: its TLB, world, context, and the accesses that firmware has discarded. -/
structure Eng where
  tlb : TlbOf
  wld : Bool
  ctx : Nat
  gone : List Nat
/-- Key of a discarded access (R370). -/
def goneKey (va : Nat) (write : Bool) : Nat := 2 * (va / 65536) + (if write then 1 else 0)
/-- INFO of an engine's fault record (R369): the reason of a PEER fault; else `n`, with bit 63 where a peer's own table faulted (R440). -/
def engInfo (cause info n : Nat) : Nat := if cause = 8 then info else n % 2 ^ 63 + info / 2 ^ 63 * 2 ^ 63
/-- Home of an address for an engine; `none` for a discarded access. A peer device may answer with a fault. -/
def engAt (s : State) (e : Eng) (write : Bool) (va acc : Nat) : Got (Option Loc) × State :=
  if e.gone.contains (goneKey va write) then (.ok none, s)
  else
    let x := translate s e.tlb e.ctx e.wld write va
    match x.1 with
    | .ok l =>
      match l with
      | .remote .. =>
        let s1 := { x.2 with freshCount := x.2.freshCount + 1 }
        match peerRefuses x.2 l write (hostAt x.2 e.tlb e.ctx va) with
        | none => (.ok (some l), s1)
        | some f => (.fault va f.1 f.2 acc, s1)
      | _ => (.ok (some l), x.2)
    | .world => (.world, x.2)
    | .fault c i => (.fault va c i acc, x.2)
    | .multicast _ => (.fault va 8 2 acc, x.2)
/-- Bytes read by an engine, 0 where the access was discarded. -/
def engRead (s : State) (e : Eng) (va n acc : Nat) : Got (List Byte × Option Loc) × State :=
  let x := engAt s e false va acc
  match x.1 with
  | .ok (some l) => (.ok (readLoc x.2 l n, some l), x.2)
  | .ok none => (.ok (List.replicate n 0, none), x.2)
  | .fault v c i a => (.fault v c i a, x.2)
  | .world => (.world, x.2)

/-! ### Elements of an engine side (R307, R316) -/

/-- Where an element lies: global with the address of its shadow byte, scratchpad, weight store; out of bounds; in the other world, with the key
of its line (`lineKey`). `nib` is the nibble of a 4-bit element. -/
inductive Pl where
  | glob (va sh nib : Nat)
  | scr (core byte nib : Nat)
  | wst (byte nib : Nat)
  | out
  | other (key : Nat)
  deriving DecidableEq, Repr, Inhabited
/-- Bytes of an element of 2^(ez + 2) bits. -/
def elBytes (ez : Nat) : Nat := if ez = 0 then 1 else 2 ^ (ez - 1)
/-- Global element `n` of a record (R35, R126); 4-bit elements are nibbles (R44). -/
def globPl (r : BitVec 256) (ez : Nat) (n : Int) : Pl :=
  let idx := if ez = 0 then n / 2 else n
  if brIn r idx then .glob (brAddr r idx (elBytes ez)) (brShadow r idx) (if ez = 0 then (n % 2).toNat else 0) else .out
/-- Scratchpad element at nibble `n` of the core named by a direct address, under a bank permutation (R198, R196). -/
def scrPl (s : State) (c wg ctx addr bpm ez : Nat) (n : Int) : Pl :=
  match scrCore c addr with
  | none => .out
  | some k =>
    if !scrZeroOk addr then .out
    else
      let b := (n / 2 % (2 ^ 20 : Nat)).toNat
      let esz := Nat.log2 (elBytes ez)
      let p := permute bpm esz (b / 2 ^ esz * 2 ^ esz)
      match scrCheck s c wg ctx k (p / 128) with
      | .ok => .scr k p (if ez = 0 then (n % 2).toNat else 0)
      | .oob => .out
      | .world => .other (2 ^ 62 + 2 ^ 20 * k + p / 128 * 128)
/-- Weight-store element at bit offset `bits` from byte `base` (R204, R316): out of bounds unless all of its bytes lie below 2^31. -/
def wstPl (s : State) (wld : Bool) (base ez : Nat) (bits : Int) : Pl :=
  let b : Int := (base : Int) + bits / 8
  let last : Int := b + (elBytes ez : Nat) - 1
  if b < 0 ∨ (2 ^ 31 : Int) ≤ last then .out
  else if weightSecure s b.toNat != wld || weightSecure s last.toNat != wld then .other (2 ^ 63 + b.toNat / 128 * 128)
  else .wst b.toNat (if ez = 0 then (bits / 4 % 2).toNat else 0)
/-- A nibble or the whole of an element's bytes. -/
def pick (ez nib : Nat) (bs : List Byte) : Nat := if ez = 0 then leNat bs / 16 ^ nib % 16 else leNat bs
/-- Whether a read of an element must wait for a refresh of its weight-store group (R206). -/
def plWaits (s : State) (ez : Nat) (p : Pl) : Bool :=
  match p with
  | .wst b _ => refreshing s.clock b || refreshing s.clock (b + elBytes ez - 1)
  | _ => false
/-- Read an element: its bits, and the location read. An out-of-bounds element reads 0 (R265, R307). -/
def plRead (s : State) (e : Eng) (ez : Nat) (p : Pl) : Got (Nat × Option Loc) × State :=
  let n := elBytes ez
  let here (l : Loc) (nib : Nat) : Got (Nat × Option Loc) × State := (.ok (pick ez nib (readLoc s l n), some l), s)
  match p with
  | .glob va _ nib =>
    let x := engRead s e va n 0
    match x.1 with
    | .ok (bs, l) => (.ok (pick ez nib bs, l), x.2)
    | .fault v c i a => (.fault v c i a, x.2)
    | .world => (.world, x.2)
  | .scr k b nib => here (.scratch k b) nib
  | .wst b nib => here (.weight b) nib
  | .out => (.ok (0, none), s)
  | .other _ => (.world, s)
/-- Whether a place of `n` bytes touches an empty scratchpad line (R202). -/
def plEmptyAt (s : State) (n : Nat) (p : Pl) : Bool :=
  match p with
  | .scr k b _ => (List.range ((b % 128 + n + 127) / 128)).any fun j => !lineFull s k (b / 128 + j)
  | _ => false
/-- Nibble of a place. -/
def plNib : Pl → Nat
  | .glob _ _ n | .scr _ _ n | .wst _ n => n
  | _ => 0
/-- Virtual address of a place. -/
def plVa : Pl → Nat
  | .glob va _ _ => va
  | _ => 0
/-- Address of the shadow byte of a place. -/
def plShade : Pl → Nat
  | .glob _ sh _ => sh
  | _ => 0
/-- The aligned 8-B words that hold a place of `n` bytes (R216, R269). -/
def plWords (n : Nat) : Pl → List Pl
  | .glob va _ _ => [.glob (va / 8 * 8) 0 0]
  | .scr k b _ => (List.range ((b % 8 + n + 7) / 8)).map fun j => .scr k (b / 8 * 8 + 8 * j) 0
  | .wst b _ => (List.range ((b % 8 + n + 7) / 8)).map fun j => .wst (b / 8 * 8 + 8 * j) 0
  | _ => []
/-- Byte of a place in its first word. -/
def plOfs : Pl → Nat
  | .glob va _ _ => va % 8
  | .scr _ b _ => b % 8
  | .wst b _ => b % 8
  | _ => 0
/-- Slice-cache policy of a record's own (R33). -/
def recPol (r : BitVec 256) : BitVec 2 := BitVec.ofNat 2 (bits r.toNat 124 123)
/-- Count the 128-B lines of local memory that an engine's step touches under cache policy `pol`, in counter `w` of their slices (R458). -/
def tallyLines (s : State) (w : Nat) (pol : BitVec 2) (ls : List Loc) : State :=
  (sortAsc (ls.filterMap fun l => match l with | .hbm pa => some (pa / 128) | _ => none)).foldl
    (fun s n => tallyAt s (.hbm (128 * n)) w pol) s
/-- Write the bits of an element at its location: a nibble keeps the other nibble of its byte. -/
def putElem (s : State) (ez nib : Nat) (l : Loc) (x : Nat) : State :=
  if ez = 0 then
    let old := leNat (readLoc s l 1)
    storeAt s l [BitVec.ofNat 8 (if nib = 0 then old / 16 * 16 + x % 16 else old % 16 + 16 * (x % 16))]
  else storeAt s l (leBytes (elBytes ez) x)
/-- Word tags of a scratchpad element that a copy writes. -/
def putElemTag (s : State) (c byte n : Nat) (t : Tag) : State :=
  let new (m : NMap Tag) : NMap Tag :=
    if n = 8 then nsetD 63 (nsetD 63 m (byte / 4) t) (byte / 4 + 1) 63 else nsetD 63 m (byte / 4) t
  updCore s c fun k => { k with tags := new k.tags }

/-! ### Transfers as separate accesses (R214, R216, R269) -/

/-- One access of a transfer: an aligned 8-B word of data, or the aligned 8-B word at an address that holds shadow bytes. -/
inductive Acc where
  | word (p : Pl)
  | shade (va : Nat)
  deriving DecidableEq, Repr, Inhabited
/-- The accesses of an element of `n` bytes, with its shadow byte under `tag`. -/
def accsOfEl (tag : Bool) (n : Nat) (p : Pl) : List Acc :=
  (plWords n p).map .word ++ (match p with | .glob _ sh _ => if tag then [.shade (sh / 8 * 8)] else [] | _ => [])
/-- The accesses of a transfer of elements, each once. -/
def accsOf (tag : Bool) (n : Nat) (ps : List Pl) : List Acc := (ps.flatMap (accsOfEl tag n)).eraseDups
/-- Place in the transfer of each of some accesses. -/
def accPlaces (as want : List Acc) : List Nat := want.map as.idxOf
/-- Whether a read or write must still wait: for a line of the scratchpad to be full (R202), a read also for a refresh (R206). -/
def accWaits (s : State) (read : Bool) (a : Acc) : Bool :=
  match a with
  | .word p => plEmptyAt s 8 p || (read && plWaits s 4 p)
  | .shade _ => false
/-- What an access reads at a location: its 8 B, two word tags from bit 64 on (R195), bit 76 as it was performed, bit 77 where the line is poisoned
(R448). -/
def accBits (s : State) (l : Loc) (x : Nat) : Nat :=
  let tag (k : Nat) : Nat :=
    match l with
    | .scratch c b => (regTag (ngetD 63 (getCore s c).tags (b / 4 + k))).toNat
    | _ => 0
  x % 2 ^ 64 + 2 ^ 64 * tag 0 + 2 ^ 70 * tag 1 + 2 ^ 76 + (if poisoned s l then 2 ^ 77 else 0)
/-- An access reads: what it reads, 0 where it has been discarded, and its home. -/
def accNow (s : State) (e : Eng) (a : Acc) : Got (Nat × Option Loc) × State :=
  let seen (s : State) (l : Option Loc) (x : Nat) : Nat := match l with | some h => accBits s h x | none => 0
  match a with
  | .word p =>
    let x := plRead s e 4 p
    match x.1 with
    | .ok y => (.ok (seen x.2 y.2 y.1, y.2), x.2)
    | g => (g, x.2)
  | .shade va =>
    let x := engRead s e va 8 3
    match x.1 with
    | .ok y => (.ok (seen x.2 y.2 (leNat y.1), y.2), x.2)
    | .fault v c i k => (.fault v c i k, x.2)
    | .world => (.world, x.2)
/-- What was read ahead at a place. -/
def aheadOf (early : List (Nat × BitVec 80)) (k : Nat) : Option Nat := (early.find? fun e => e.1 == k).map (·.2.toNat)
/-- The accesses of a transfer with what each has read: ahead, or now. -/
def accAll (e : Eng) (ahead : Acc → Option Nat) : List Acc → State → Got (List (Acc × Nat × Option Loc)) × State
  | [], s => (.ok [], s)
  | a :: as, s =>
    let x := accNow s e a
    let y : Got (Nat × Option Loc) × State :=
      match ahead a, x.1 with
      | some v, .ok z => (.ok (v, z.2), s)
      | some v, _ => (.ok (v, none), s)
      | none, _ => x
    match y.1 with
    | .fault v c i k => (.fault v c i k, y.2)
    | .world => (.world, y.2)
    | .ok z =>
      let w := accAll e ahead as y.2
      match w.1 with
      | .ok zs => (.ok ((a, z) :: zs), w.2)
      | g => (g, w.2)
/-- What access `a` has read. -/
def accVal (vs : List (Acc × Nat × Option Loc)) (a : Acc) : Nat := match vs.find? fun v => v.1 == a with | some v => v.2.1 | none => 0
/-- Homes that a transfer has read. -/
def accLocs (vs : List (Acc × Nat × Option Loc)) : List Loc := vs.filterMap (·.2.2)
/-- Bits of an element at a place, from the words read. -/
def elBits (ez : Nat) (get : Acc → Nat) (p : Pl) : Nat :=
  let x := (plWords (elBytes ez) p).foldr (fun w a => get (.word w) % 2 ^ 64 + 2 ^ 64 * a) 0 / 256 ^ plOfs p
  if ez = 0 then x % 256 / 16 ^ plNib p % 16 else x % 256 ^ elBytes ez
/-- Tag of an element of precision `pv` (R62, R195, R307): the shadow byte's under `tag`, a scratchpad word's, 0 out of bounds or where its
access has been discarded. -/
def elTag (pv : Nat) (tag : Bool) (get : Acc → Nat) (p : Pl) : Nat :=
  let there (a : Acc) : Bool := (get a).testBit 76
  match p with
  | .glob va sh _ =>
    if !there (.word (.glob (va / 8 * 8) 0 0)) then 0
    else if !tag then pv
    else
      let q := get (.shade (sh / 8 * 8))
      if q.testBit 76 then (loadTag ⟨.b8, true, pv, false⟩ (some (q % 2 ^ 64 / 256 ^ (sh % 8) % 256))).toNat else 0
  | .scr k b _ => get (.word (.scr k (b / 8 * 8) 0)) / 2 ^ (64 + 6 * (b / 4 % 2)) % 64
  | .wst .. => pv
  | _ => 0
/-- Whether an element comes from a poisoned line (R448). -/
def elPois (tag : Bool) (n : Nat) (get : Acc → Nat) (p : Pl) : Bool := (accsOfEl tag n p).any fun a => (get a).testBit 77

/-- An element to be written: place, bits, tag of its shadow byte, tag of its scratchpad words, and whether its line becomes poisoned. -/
structure OutEl where
  pl : Pl
  bits : Nat
  tag : Tag
  wtag : Tag
  pois : Bool
/-- Home of an access that writes (R369 for its ACC). -/
def accHome (s : State) (e : Eng) (a : Acc) : Got (Option Loc) × State :=
  match a with
  | .word (.glob va _ _) => engAt s e true va 1
  | .word (.scr k b _) => (.ok (some (.scratch k b)), s)
  | .word (.wst b _) => (.ok (some (.weight b)), s)
  | .word _ => (.ok none, s)
  | .shade va => engAt s e true va 4
/-- Homes of the accesses of a transfer that writes. -/
def accHomes (e : Eng) : List Acc → State → Got (List (Acc × Option Loc)) × State
  | [], s => (.ok [], s)
  | a :: as, s =>
    let x := accHome s e a
    match x.1 with
    | .fault v c i k => (.fault v c i k, x.2)
    | .world => (.world, x.2)
    | .ok l =>
      let y := accHomes e as x.2
      match y.1 with
      | .ok ls => (.ok ((a, l) :: ls), y.2)
      | g => (g, y.2)
/-- Address of a place in its space. -/
def plAt : Pl → Nat
  | .glob va _ _ => va
  | .scr _ b _ => b
  | .wst b _ => b
  | _ => 0
/-- Word tags of bytes `q` to `q + k - 1` of an element of `n` bytes at byte `b`: its first word takes the tag, a further one 63; a word that the
element covers in part keeps the lower of that and its own, 63 above every count (R195). -/
def partTags (b n q k : Nat) (t : Tag) (m : NMap Tag) : NMap Tag :=
  ((List.range ((q % 4 + k + 3) / 4)).map (q / 4 + ·)).foldl
    (fun m u =>
      let y : Tag := if u = b / 4 then t else 63
      if b ≤ 4 * u ∧ 4 * u + 4 ≤ b + n then nsetD 63 m u y else nsetD 63 m u (if y.toNat < (ngetD 63 m u).toNat then y else ngetD 63 m u)) m
/-- The bytes of an element that lie in the 8-B word at `l`, whose address is `at_`, are written; `note` sees each write. -/
def putPart (note : State → Nat → Nat → Loc → State) (ez : Nat) (l : Loc) (at_ : Nat) (s : State) (x : OutEl) : State :=
  let b := plAt x.pl
  let lo := at_ - b
  let n := min (elBytes ez) (at_ + 8 - b) - lo
  let h := locAdd l (b + lo - at_)
  let s1 := if ez = 0 then putElem s 0 (plNib x.pl) h x.bits else storeAt s h (((leBytes (elBytes ez) x.bits).drop lo).take n)
  let s2 := match h with
    | .scratch c q => updCore s1 c fun k => { k with tags := partTags b (elBytes ez) q n x.wtag k.tags }
    | _ => s1
  note (if x.pois then poisonLine s2 h else s2) (b + lo) n h
/-- One access of a transfer writes what the elements `els` put into its word. -/
def putAcc (note : State → Nat → Nat → Loc → State) (ez : Nat) (els : List OutEl) (s : State) (a : Acc × Option Loc) : State :=
  match a with
  | (_, none) => s
  | (.word w, some l) => (els.filter fun x => (plWords (elBytes ez) x.pl).contains w).foldl (putPart note ez l (plAt w)) s
  | (.shade va, some l) =>
    (els.filter fun x => match x.pl with | .glob _ sh _ => sh / 8 * 8 == va | _ => false).foldl
      (fun s x => let sh := plShade x.pl; let h := locAdd l (sh % 8); note (storeAt s h [x.tag.setWidth 8]) sh 1 h) s
/-- The places of a transfer of `n` accesses that an event names, of those not in `got`; all that are left where it names none. -/
def accLeft (n : Nat) (got which : List Nat) : List Nat := partsNow (List.range n) got which

end Sys2Proof.Machine
end

