-- ==== Sys2Proof/Machine/Copy.lean ====
section
/-! DEFINITION. Copy channels (R264 to R272, R315 to R319). A line's source words are read in the step in which the line lands, or ahead
of it (R269). -/

namespace Sys2Proof.Machine

/-! ### The copy block (R315, R316) -/

/-- A signed 32-bit field of a block. -/
def bfs (b : List DWord) (lo : Nat) : Int := sx (bf b lo 32) 32
/-- Element size code: 2^(ez + 2) bits. -/
def cpEz (b : List DWord) : Nat := bf b 304 3
/-- Whether the description names destinations at all: no reserved code there and no extent of 0. -/
def cpSane (b : List DWord) : Bool :=
  decide (cpEz b ≤ 4) && decide (bf b 310 2 ≤ 2) && bf b 256 16 != 0 && bf b 272 16 != 0 && bf b 288 16 != 0
/-- The indices (i0, i1, i2) of a copy, i0 innermost (R265). -/
def cpIdx (b : List DWord) : List (Int × Int × Int) :=
  if cpSane b then
    (List.range (bf b 288 16)).flatMap fun i2 => (List.range (bf b 272 16)).flatMap fun i1 =>
      (List.range (bf b 256 16)).map fun i0 => ((i0 : Int), (i1 : Int), (i2 : Int))
  else []
/-- Where a copy's side stands: core, workgroup, context. -/
structure CpAt where
  core : Nat
  wg : Nat
  ctx : Nat
/-- Place of offset `o` on a side (R316). `bpm` is SREC or DREC. -/
def cpPl (s : State) (a : CpAt) (side bpm base ez : Nat) (r : BitVec 256) (o : Int) : Pl :=
  match side with
  | 0 => globPl r ez (sx base 32 + o)
  | 1 => scrPl s a.core a.wg a.ctx base bpm ez (2 * (base % 2 ^ 20 : Nat) + o * (2 ^ ez : Nat))
  | 2 => wstPl s (getCore s a.core).world base ez (o * (2 ^ (ez + 2) : Nat))
  | _ => .out
/-- Source of an element. -/
def cpSrc (s : State) (a : CpAt) (q : CopySlice) (i : Int × Int × Int) : Pl :=
  cpPl s a (bf q.blk 308 2) (bf q.blk 312 4) (bf q.blk 0 32) (cpEz q.blk) q.srec
    (i.1 * bfs q.blk 32 + i.2.1 * bfs q.blk 64 + i.2.2 * bfs q.blk 96)
/-- Destination of an element, its first two indices exchanged under TR (R268). -/
def cpDst (s : State) (a : CpAt) (q : CopySlice) (i : Int × Int × Int) : Pl :=
  let j := if bfb q.blk 307 then (i.2.1, i.1) else (i.1, i.2.1)
  cpPl s a (bf q.blk 310 2) (bf q.blk 316 4) (bf q.blk 128 32) (cpEz q.blk) q.drec
    (j.1 * bfs q.blk 160 + j.2 * bfs q.blk 192 + i.2.2 * bfs q.blk 224)
/-- Key of a destination line (CopyCmd.lines): global lines, then scratchpad lines by core, then weight-store lines, then those of the other
world, which belong to the command's lines although it delivers nothing (R267, R270). -/
def lineKey : Pl → Option Nat
  | .glob va _ _ => some (va / 128 * 128)
  | .scr k b _ => some (2 ^ 60 + 2 ^ 20 * k + b / 128 * 128)
  | .wst b _ => some (2 ^ 61 + b / 128 * 128)
  | .other key => some key
  | .out => none
/-- What a line takes of an element: the bytes `lo` to `lo + n - 1` of its data, or its shadow byte (R265, R266). -/
inductive Part where
  | data (src dst : Pl) (ez lo n : Nat)
  | shade (dst : Pl)
  deriving DecidableEq, Repr
/-- The parts of an element with their lines: a weight-store element at an unaligned base may straddle two lines. -/
def partsOf (src dst : Pl) (ez : Nat) (r : BitVec 256) : List (Nat × Part) :=
  let n := elBytes ez
  match dst with
  | .glob va sh _ =>
    (va / 128 * 128, .data src dst ez 0 n) :: (if brT r then [(sh / 128 * 128, .shade dst)] else [])
  | .wst b _ =>
    let first := min n (128 - b % 128)
    (2 ^ 61 + b / 128 * 128, .data src dst ez 0 first) ::
      (if first < n then [(2 ^ 61 + (b / 128 + 1) * 128, .data src dst ez first (n - first))] else [])
  | .scr k b _ => [(2 ^ 60 + 2 ^ 20 * k + b / 128 * 128, .data src dst ez 0 n)]
  | .other key => [(key, .data src dst ez 0 n)]
  | .out => []
/-- Core and line of a scratchpad line key. -/
def scrLineOf (key : Nat) : Option (Nat × Nat) :=
  if 2 ^ 60 ≤ key ∧ key < 2 ^ 61 then some ((key - 2 ^ 60) / 2 ^ 20, key % 2 ^ 20 / 128) else none
/-- The parts of every element of a slice, with their lines. -/
def cpParts (s : State) (a : CpAt) (q : CopySlice) : List (Nat × Part) :=
  (cpIdx q.blk).flatMap fun i => partsOf (cpSrc s a q i) (cpDst s a q i) (cpEz q.blk) q.drec
/-- Destination lines of a slice, in ascending order (R266). -/
def cpLines (s : State) (a : CpAt) (q : CopySlice) : List Nat := sortAsc ((cpParts s a q).map (·.1))
/-- Mark the scratchpad lines among `ks` empty or full (R201). -/
def markKeys (full : Bool) (s : State) (ks : List Nat) : State := (ks.filterMap scrLineOf).foldl (markLine full) s

/-! ### End status (R268, R270, R316) -/

/-- Zero fields of a completion tail. -/
def tailZero (b : List DWord) : Bool := bf b 480 18 == 0 && bf b 384 32 == 0
/-- A side of a copy that R316 accepts. -/
def cpSideOk (c ez side bpm base : Nat) (r : BitVec 256) : Bool :=
  match side with
  | 0 => 2 ^ brEsize r == elBytes ez
  | 1 => (scrCore c base).isSome
  | _ => bpm == 0
/-- Whether R268 or R316 rejects the description. -/
def cpBad (c : Nat) (q : CopySlice) : Bool :=
  let b := q.blk
  !cpSane b || bf b 308 2 == 3 || !tailZero b || bf b 320 64 != 0 ||
  (bfb b 307 && (cpEz b == 4 || (cpEz b == 0 && (bf b 256 16 % 2 == 1 || bf b 272 16 % 2 == 1)))) ||
  !cpSideOk c (cpEz b) (bf b 308 2) (bf b 312 4) (bf b 0 32) q.srec ||
  !cpSideOk c (cpEz b) (bf b 310 2) (bf b 316 4) (bf b 128 32) q.drec
/-- Whether an element, or a page that it lies in, or under `tag` that of its shadow byte, belongs to the other world. -/
def plOther (s : State) (e : Eng) (write tag : Bool) (p : Pl) : Bool :=
  let away (va : Nat) : Bool := match (translate s e.tlb e.ctx e.wld write va).1 with | .world => true | _ => false
  match p with
  | .glob va sh _ => away va || (tag && away sh)
  | .other _ => true
  | _ => false
/-- Status of a slice before anything moves: BADDESC, WSRO, WORLD, OOB, else OK. -/
def cpStatus (s : State) (a : CpAt) (wload : Bool) (q : CopySlice) : Nat :=
  let wld := (getCore s a.core).world
  let e : Eng := ⟨.core a.core, wld, a.ctx, []⟩
  let glob (side : Nat) : Bool := bf q.blk side 2 == 0
  let idx := cpIdx q.blk
  if cpBad a.core q then 3
  else if bf q.blk 310 2 == 2 && !wload then 2
  else if (glob 308 && brWld q.srec != wld) || (glob 310 && brWld q.drec != wld) ||
      idx.any fun i => plOther s e false false (cpSrc s a q i) || plOther s e true (brT q.drec) (cpDst s a q i) then 4
  else if (glob 308 && brOobTrap q.srec && idx.any fun i => cpSrc s a q i == .out) ||
      (glob 310 && brOobTrap q.drec && idx.any fun i => cpDst s a q i == .out) then 1
  else 0
/-- Out-of-bounds elements of a slice (R265). -/
def cpOobs (s : State) (a : CpAt) (q : CopySlice) : Nat :=
  ((cpIdx q.blk).filter fun i => cpSrc s a q i == .out).length + ((cpIdx q.blk).filter fun i => cpDst s a q i == .out).length

/-! ### Issue (R317, R318) -/

/-- Commands of a channel. -/
def chanOf (s : State) (c ch : Nat) : List CopyCmd := ngetD [] (getCore s c).chans ch
/-- Replace the commands of a channel. -/
def setChan (s : State) (c ch : Nat) (q : List CopyCmd) : State :=
  updCore s c fun k => { k with chans := nsetD [] k.chans ch q }
/-- The slice that an instruction supplies. -/
def sliceOfTeam (i : Issue) (x : EN) (b : List DWord) : CopySlice :=
  { lvl1 := lvlOf i.t.lvl 1, team := teamNo (wordsOf i) i.t.lvl (wgLevel (wordsOf i)), slot := i.slot, tid := i.t.tid, blk := b, srec := bufOf i.t (bf b 312 4), drec := bufOf i.t (bf b 316 4),
    acq := x.acq, rel := x.rel, scope := x.scope, first := i.s.nextId, pc := i.pc, rgncnt := i.t.rgncnt }
/-- Records of the global sides are bound (R300). -/
def cpBound (t : Team) (b : List DWord) : Bool :=
  (bf b 308 2 != 0 || recIsBound t (bf b 312 4)) && (bf b 310 2 != 0 || recIsBound t (bf b 316 4))
/-- A new command with one slice. -/
def newCopy (i : Issue) (q : CopySlice) (coll : Option Nat) (ls : List Nat) : CopyCmd :=
  { id := i.s.nextId, ctx := i.t.ctx, seq := i.t.seq, wg := i.t.wg, coll := coll, slices := [q], lines := ls, started := false,
    landed := 0, status := 0, fault := 0, gone := [], born := i.s.clock, early := [] }
/-- CPY (R317). -/
def execCpy (x : EN) (s : State) : Host.Outcome State Fault Refusal :=
  issue x.h (Instr.cpy x).wf x.rel (fun _ _ _ => true)
    (fun i =>
      let ch := x.chan.toNat
      let q := chanOf i.s i.core ch
      withBlock i x (decide (q.length < 16)) none fun b =>
        if !cpBound i.t b then .trap (trapAt 1 i.pc i.exec)
        else
          let sl := sliceOfTeam i x b
          let ls := cpLines i.s ⟨i.core, i.t.wg, i.t.ctx⟩ sl
          let s1 := setChan (markKeys false i.s ls) i.core ch (q ++ [newCopy i sl none ls])
          .go { s1 with nextId := s1.nextId + 1 }) s
/-- The collective's command in a queue. -/
def collIn (q : List CopyCmd) (wg k : Nat) : Option CopyCmd := q.find? fun m => m.wg == wg && m.coll == some k
/-- A command with one more slice, in order of LVL1, and the union of the lines (R272). Log entry 81. -/
def addSlice (m : CopyCmd) (sl : CopySlice) (ls : List Nat) : CopyCmd :=
  { m with slices := insBy (fun a b => decide (a.lvl1 < b.lvl1) || (decide (a.lvl1 = b.lvl1) && decide (a.team < b.team))) sl m.slices, lines := sortAsc (m.lines ++ ls) }
/-- CPYC (R272, R318): the slice of the team's next collective on the channel. -/
def execCpyc (x : EN) (s : State) : Host.Outcome State Fault Refusal :=
  issue x.h (Instr.cpyc x).wf x.rel (fun _ _ _ => true)
    (fun i =>
      let ch := x.chan.toNat
      let q := chanOf i.s i.core ch
      let k := nth 0 i.t.collNo ch
      let old := collIn q i.t.wg k
      withBlock i x (old.isSome || decide (q.length < 16)) none fun b =>
        if !cpBound i.t b then .trap (trapAt 1 i.pc i.exec)
        else
          let sl := sliceOfTeam i x b
          let ls := cpLines i.s ⟨i.core, i.t.wg, i.t.ctx⟩ sl
          let q' := match old with
            | some m => q.map fun y => if y.id = m.id then addSlice m sl ls else y
            | none => q ++ [newCopy i sl (some k) ls]
          let s1 := setChan (markKeys false i.s ls) i.core ch q'
          let s2 := setTeam s1 i.core i.slot { i.t with collNo := setNth i.t.collNo ch (k + 1) }
          .go { s2 with nextId := s2.nextId + 1 }) s
/-- Whether a count has been reached (R319): 32-bit distance for a lane register, 64-bit comparison otherwise. -/
def wpReached (o : Opd) (w c : DWord) : Bool :=
  match o with
  | .v _ => (w - c).toNat % 2 ^ 32 < 2 ^ 31
  | _ => decide (c.toNat ≤ w.toNat)
/-- WPWAIT (R319). The writes of the commands that it counts stand at their homes already, and so does what those with REL release (R228);
an acquire part waits for logged loads (R367). -/
def execWpwait (x : EN) (s : State) : Host.Outcome State Fault Refusal :=
  let wide := !isV x.a.o
  issue x.h (Instr.wpwait x).wf false (fun _ _ t => opdAlloc t x.a.o false)
    (fun i =>
      let a := rd i x.a wide
      match gate i [a] [] with
      | some r => r
      | none =>
        let w := nth 0 (getWg i.s i.core i.t.wg).delivered x.chan.toNat
        if acqPart i x.acq && (lanesOf i.act).all fun l => wpReached x.a.o w (a.at_ l).bits then .go i.s else .wait) s

/-! ### Running a command (R266 to R272) -/

/-- Replace the head of a channel. -/
def setHead (s : State) (c ch : Nat) (m : CopyCmd) : State := setChan s c ch (m :: (chanOf s c ch).tail)
/-- Add to the out-of-bounds count of a team that still stands in its slot (R35). -/
def addOob (s : State) (c slot tid k : Nat) : State := updTeam s c slot fun t => if t.tid = tid then countOob t k else t
/-- The command starts: its status is settled; its out-of-bounds elements are counted, those of a command that delivers nothing are not (log
entry 83). -/
def startCopy (s : State) (c ch : Nat) (m : CopyCmd) : State :=
  let a : CpAt := ⟨c, m.wg, m.ctx⟩
  let st := (m.slices.map (cpStatus s a (recWload (getLaunch s m.ctx m.seq).words))).find? (· != 0)
  let s1 := if st.isSome then s else m.slices.foldl (fun s q => addOob s c q.slot q.tid (cpOobs s a q)) s
  setHead s1 c ch { m with started := true, status := st.getD 0 }
/-- Whether a queued command may start: its reads follow its acquires (R228, R272). -/
def copyMayStart (s : State) (c : Nat) (m : CopyCmd) : Bool :=
  !m.started && !s.gated && ctxActive s m.ctx && m.slices.all fun q => acqReady s c q.tid q.acq q.first
/-- COPY_COMMAND_START (R266). -/
def execCopyCommandStart (core ch : Nat) (s : State) : Host.Outcome State Fault Refusal :=
  match chanOf s core ch with
  | m :: _ => .next (if m.coll.isNone && copyMayStart s core m then startCopy s core ch m else s)
  | [] => .next s
/-- Whether every team of the workgroup has supplied its slice or ended (R272). -/
def slicesIn (s : State) (c : Nat) (m : CopyCmd) : Bool :=
  let w := getWg s c m.wg
  (List.range w.teams).all fun k => w.ended.contains k || m.slices.any fun q => q.team == k
/-- CPYC_COMMAND_START (R272). -/
def execCpycCommandStart (core ch : Nat) (s : State) : Host.Outcome State Fault Refusal :=
  match chanOf s core ch with
  | m :: _ => .next (if m.coll.isSome && slicesIn s core m && copyMayStart s core m then startCopy s core ch m else s)
  | [] => .next s

/-- One part of a line that is about to land: its home, the bytes, or the nibble of a 4-bit element, and the line read. -/
structure LandEl where
  dst : Option Loc
  bs : List Byte
  nib : Option (Nat × Nat)   -- nibble and its value
  tagged : Bool              -- data, as against a shadow byte
  src : List Loc
  va : Nat
/-- The parts that a command writes in the line `key`, by slice; of two slices the higher LVL1 comes last and wins (R272). -/
def lineParts (s : State) (a : CpAt) (m : CopyCmd) (key : Nat) : List (CopySlice × Part) :=
  m.slices.flatMap fun q => ((cpParts s a q).filter fun e => e.1 == key).map fun e => (q, e.2)
/-- The source words of a line, each once, in the order of reading. -/
def lineWords (ps : List Part) : List Pl :=
  ps.foldl
    (fun ws p =>
      match p with
      | .data src _ ez _ _ => (plWords (elBytes ez) src).foldl (fun ws w => if ws.contains w then ws else ws ++ [w]) ws
      | .shade _ => ws) []
/-- The place of the first source word of each line in the order of reading, line by line. -/
def wordsBefore (s : State) (a : CpAt) (m : CopyCmd) (k : Nat) : Nat :=
  ((m.lines.take k).map fun key => (lineWords ((lineParts s a m key).map (·.2))).length).sum
/-- Every source word of a command in the order of reading. -/
def allWords (s : State) (a : CpAt) (m : CopyCmd) : List Pl := m.lines.flatMap fun key => lineWords ((lineParts s a m key).map (·.2))
/-- A source word: the one read ahead, or read now. -/
def wordRead (s : State) (e : Eng) (early : Option (BitVec 64)) (w : Pl) : Got (Nat × Option Loc) × State :=
  match early with
  | none => plRead s e 4 w
  | some v =>
    match (plRead s e 4 w).1 with
    | .ok x => (.ok (v.toNat, x.2), s)
    | _ => (.ok (v.toNat, none), s)
/-- The words `ws` of an element, first word lowest. -/
def wordsRead (e : Eng) (early : Pl → Option (BitVec 64)) : List Pl → State → Got (Nat × List Loc) × State
  | [], s => (.ok (0, []), s)
  | w :: ws, s =>
    let x := wordRead s e (early w) w
    match x.1 with
    | .ok v =>
      let y := wordsRead e early ws x.2
      match y.1 with
      | .ok u => (.ok (v.1 + 2 ^ 64 * u.1, v.2.toList ++ u.2), y.2)
      | g => (g, y.2)
    | .fault v c i a => (.fault v c i a, x.2)
    | .world => (.world, x.2)
/-- Home of the destination of a part (R265). -/
def partHome (s : State) (e : Eng) (p : Part) : Got (Option Loc) × State :=
  match p with
  | .shade (.glob _ sh _) => engAt s e true sh 4
  | .data _ (.glob va _ _) _ _ _ => engAt s e true va 1
  | .data _ (.scr k b _) _ _ _ => (.ok (some (.scratch k b)), s)
  | .data _ (.wst b _) _ lo _ => (.ok (some (.weight (b + lo))), s)
  | .data _ (.other _) _ _ _ => (.world, s)
  | _ => (.ok none, s)
/-- Gather the parts of a line: all of them, or what stops the line. -/
def gather (e : Eng) (early : Pl → Option (BitVec 64)) : List Part → State → Got (List LandEl) × State
  | [], s => (.ok [], s)
  | p :: rest, s =>
    let x : Got (LandEl) × State :=
      match p with
      | .shade d => (.ok ⟨none, [63], none, false, [], plShade d⟩, s)
      | .data (.other _) _ _ _ _ => (.world, s)
      | .data src dst ez lo n =>
        let z := wordsRead e early (plWords (elBytes ez) src) s
        match z.1 with
        | .ok v =>
          let bits := if ez = 0 then v.1 / 256 ^ plOfs src / 16 ^ plNib src % 16 else v.1 / 256 ^ plOfs src % 256 ^ elBytes ez
          (.ok ⟨none, ((leBytes (elBytes ez) bits).drop lo).take n, if ez = 0 then some (plNib dst, bits) else none, true, v.2,
            plVa dst⟩, z.2)
        | .fault _ c i a => (.fault (plVa src) c i a, z.2)
        | .world => (.world, z.2)
    match x.1 with
    | .fault v c i a => (.fault v c i a, x.2)
    | .world => (.world, x.2)
    | .ok el =>
      let y := partHome x.2 e p
      match y.1 with
      | .fault v c i a => (.fault v c i a, y.2)
      | .world => (.world, y.2)
      | .ok d =>
        let z := gather e early rest y.2
        match z.1 with
        | .ok ls => (.ok ({ el with dst := d } :: ls), z.2)
        | g => (g, z.2)
/-- Write one gathered part (R265, R448, R449). -/
def landEl (ctx seq : Nat) (s : State) (e : LandEl) : State :=
  match e.dst with
  | none => s
  | some l =>
    let s1 := match e.nib with
      | some x => putElem s 0 x.1 l x.2
      | none => storeAt s l e.bs
    let s2 := noteWrite s1 ctx seq e.va e.bs.length l
    let s3 := match l with
      | .scratch k b =>
        let s3 := putElemTag s2 k b (min e.bs.length 4) 63
        if e.bs.length = 8 then putElemTag s3 k (b + 4) 4 63 else s3
      | _ => s2
    if e.tagged then e.src.foldl (fun s f => spreadPoison s f l) s3 else s3
/-- Completion words of every slice (R302, R318). -/
def copyWords (s : State) (c : Nat) (m : CopyCmd) (status : Nat) : State :=
  m.slices.foldl (fun s q => writeCompletion s c q.slot q.tid m.ctx m.seq q.rgncnt q.blk status 0) s
/-- Add to a channel's delivered count (R267). -/
def deliver (s : State) (c wg ch k : Nat) : State :=
  updWg s c wg fun w => { w with delivered := setNth w.delivered ch (nth 0 w.delivered ch + BitVec.ofNat 64 k) }
/-- Whether a part makes an access at a virtual address. -/
def partAt (va : Nat) : Part → Bool
  | .data src dst _ _ _ => plVa src == va || plVa dst == va
  | .shade (.glob _ sh _) => sh == va
  | .shade _ => false
/-- The command is held at a line whose translation failed; the record names the instruction that supplied the faulting slice (R270, R365,
R369). -/
def holdCopy (s : State) (c ch : Nat) (m : CopyCmd) (parts : List (CopySlice × Part)) (va cause info acc : Nat) : State :=
  let q := match parts.find? fun e => partAt va e.2 with | some e => e.1 | none => m.slices.headD default
  queueFault (setHead s c ch { m with fault := cause }) m.ctx
    ⟨cause, 2, acc, c, q.slot, 0, ch, q.pc, 0, 0, va, 0, BitVec.ofNat 64 (engInfo cause info 0), q.rgncnt, m.id⟩
/-- What a command's engine is to translation and firmware's answers. -/
def copyEng (s : State) (core : Nat) (m : CopyCmd) : Eng := ⟨.core core, (getCore s core).world, m.ctx, m.gone⟩
/-- Source words at places `ps` of the order of reading are read ahead of the landing of their lines (R269); one in a refreshing group of
the weight store is not yet (R206), and one of a later line that does not translate is left for the landing of that line (R270). -/
def readAhead (s : State) (core ch : Nat) (m : CopyCmd) (ps : List Nat) : State :=
  let a : CpAt := ⟨core, m.wg, m.ctx⟩
  let ws := allWords s a m
  let low := wordsBefore s a m m.landed
  let next := wordsBefore s a m (m.landed + 1)
  ps.foldl
    (fun s p =>
      match chanOf s core ch, ws[p]? with
      | m :: _, some w =>
        if m.fault != 0 || m.status != 0 || decide (p < low) || m.early.any (·.1 == p) || plWaits s 4 w then s
        else
          let x := plRead s (copyEng s core m) 4 w
          match x.1 with
          | .ok v => setHead x.2 core ch { m with early := m.early ++ [(p, BitVec.ofNat 64 v.1)] }
          | .fault va c i acc => if p < next then holdCopy x.2 core ch m (m.lines.flatMap (lineParts s a m)) va c i acc else s
          | .world => if p < next then setHead x.2 core ch { m with status := 4 } else s
      | _, _ => s) s
/-- The next line of a command, `parts` in it, lands whole (R266) or is held; the completion words are written before the last line is counted (R266,
R302). -/
def landNext (s : State) (core ch : Nat) (m : CopyCmd) (key : Nat) (parts : List (CopySlice × Part)) (low : Nat) : State :=
  let ws := lineWords (parts.map (·.2))
  let ahead (w : Pl) : Option (BitVec 64) := (m.early.find? fun e => e.1 == low + ws.idxOf w).map (·.2)
  let g := gather (copyEng s core m) ahead (parts.map (·.2)) s
  match g.1 with
  | .ok els =>
    let s1 := markKeys true (els.foldl (landEl m.ctx m.seq) g.2) [key]
    let s2 := if m.landed + 1 = m.lines.length then copyWords s1 core m 0 else s1
    let q := m.slices.headD default
    let s3 := tally (tallyLines (tallyLines s2 0 (recPol q.srec) (els.flatMap (·.src))) 1 (recPol q.drec) (els.filterMap (·.dst))) core 9 1
    let kept := m.early.filter fun e => decide (low + ws.length ≤ e.1)
    pulse (deliver (setHead s3 core ch { m with landed := m.landed + 1, early := kept }) core m.wg ch 1) m.ctx
  | .fault v c i acc => holdCopy g.2 core ch m parts v c i acc
  | .world => setHead g.2 core ch { m with status := 4 }
/-- Whether the releases of a command's slices let its lines, its count and its end be observed (R228, R272). -/
def copyReleased (s : State) (core : Nat) (m : CopyCmd) : Bool := m.slices.all fun q => relReady s core q.tid q.rel q.first
/-- COPY_LINE_LANDS (R206, R266, R269): the next line in address order, or the fault that holds the channel there; or, where source words are
named, they are read ahead and nothing lands. -/
def execCopyLineLands (core : Nat) (x : Parts) (s : State) : Host.Outcome State Fault Refusal :=
  match chanOf s core x.id with
  | m :: _ =>
    if m.started && m.status == 0 && m.fault == 0 && decide (m.landed < m.lines.length) && ctxActive s m.ctx then
      let key := nth 0 m.lines m.landed
      let a : CpAt := ⟨core, m.wg, m.ctx⟩
      let parts := lineParts s a m key
      if !x.which.isEmpty then .next (readAhead s core x.id m x.which)
      else if !copyReleased s core m || (lineWords (parts.map (·.2))).any (plWaits s 4) then .next s
      else .next (landNext s core x.id m key parts (wordsBefore s a m m.landed))
    else .next s
  | [] => .next s
/-- COPY_COMMAND_END (R267, R270, R302): a command that leaves lines undelivered counts them at once and turns them full; events
follow, and the queue entry frees. -/
def execCopyCommandEnd (core ch : Nat) (s : State) : Host.Outcome State Fault Refusal :=
  match chanOf s core ch with
  | m :: rest =>
    if m.started && m.fault == 0 && (m.status != 0 || m.landed == m.lines.length) && copyReleased s core m then
      let s1 := if m.status != 0 || m.lines.isEmpty then copyWords s core m m.status else s
      let s2 := markKeys true s1 (m.lines.drop m.landed)
      let s3 := deliver s2 core m.wg ch (m.lines.length - m.landed)
      let s4 := m.slices.foldl (fun s q => signalEvent s m.ctx q.blk) s3
      .next (reapWg (monitor (setChan s4 core ch rest) (monChan core ch) m.born) core m.wg)
    else .next s
  | [] => .next s

end Sys2Proof.Machine
end

