-- ==== Sys2Proof/Machine/TileMath.lean ====
section
/-! DEFINITION. The exact arithmetic of tiles (R288, R289, R292, R294, R311, R312): exact sums and products under the IEEE special rules,
dense products, the tables of low-rank factors, rank rounding, factoring and solving. A matrix is a list of columns of bit patterns. -/

namespace Sys2Proof.Machine

/-! ### Storage formats and exact values -/

/-- A storage format of tile elements (R280): FP, or two's complement of `w` bits. -/
inductive SF where
  | fp (f : Fmt)
  | int (w : Nat)
  deriving DecidableEq, Repr, Inhabited
/-- Columns of bit patterns. -/
abbrev Mat := List (List Nat)
/-- Bit of the returned flags that stands for SATF (R281), above FLTSTAT[4:0]. -/
def flSat : Nat := 32
/-- Results with sticky flags. -/
abbrev Fl (α : Type) := StateM Nat α
/-- Record the flags of one rounding. -/
def tick (r : Nat × Nat) : Fl Nat := fun f => (r.1, f ||| r.2)

/-- A value with the flags of the roundings that gave it. -/
def tick2 {α : Type} (x : α) (fl : Nat) : Fl α := fun f => (x, f ||| fl)

/-- The exact value of an element. -/
def decS (sf : SF) (x : Nat) : FV :=
  match sf with
  | .fp f => decF f x
  | .int w => let v := sx x w; .fin (decide (v < 0)) v.natAbs 0
/-- Exact product under the IEEE special rules (R53, R49). -/
def xMul (a b : FV) : FV × Nat :=
  match a, b with
  | .fin n m e, .fin k p q => (.fin (n != k) (m * p) (e + q), 0)
  | _, _ =>
    if isNaN a || isNaN b then (.nan false, nanFlag [a, b])
    else if isZero a || isZero b then (.nan false, flInvalid)
    else (.inf (sgn a != sgn b), 0)
/-- Exact sum; an exact zero from opposite signs is +0, or −0 under RDN (R47). -/
def xAdd (mode : Nat) (a b : FV) : FV × Nat :=
  match a, b with
  | .fin n m e, .fin k p q => let x := addEx mode n m e k p q; (.fin x.neg x.m x.e, 0)
  | _, _ =>
    if isNaN a || isNaN b then (.nan false, nanFlag [a, b])
    else if isInf a && isInf b && sgn a != sgn b then (.nan false, flInvalid)
    else if isInf a then (a, 0) else (b, 0)
/-- One rounding into a storage format (R47, R48, R54, R50): an INT32 that saturates also sets SATF; a NaN becomes 0 without saturating
(R50). -/
def xRound (sf : SF) (mode : Nat) (sat : Bool) (x : FV) : Nat × Nat :=
  match sf with
  | .fp f =>
    match x with
    | .nan q => (canonNaN f, if q then flInvalid else 0)
    | .inf n => infTo f n sat
    | .fin n m e => roundF f mode sat ⟨n, m, e, false⟩
  | .int w =>
    let r := toIntF mode (-((2 ^ (w - 1) : Nat) : Int)) (((2 ^ (w - 1) : Nat) : Int) - 1) x
    (wrap r.1 w, r.2 ||| (if w = 32 && !isNaN x && r.2 &&& flInvalid != 0 then flSat else 0))

/-- FP64 bits of an element, exactly; a NaN becomes canonical. -/
def to64 (sf : SF) (x : Nat) : Nat := if sf = .fp fp64 then x else (xRound (.fp fp64) 0 false (decS sf x)).1
/-- A matrix in FP64. -/
def wide (sf : SF) (m : Mat) : Mat := m.map fun c => c.map (to64 sf)
/-- The flags of that conversion, which a signalling NaN raises (R49, R291); FP64 factors are taken as they are. -/
def wideFl (sf : SF) (m : Mat) : Nat :=
  if sf = .fp fp64 then 0 else (m.flatMap id).foldl (fun a x => a ||| (xRound (.fp fp64) 0 false (decS sf x)).2) 0
/-- A matrix in FP64, with those flags. -/
def widen (sf : SF) (m : Mat) : Fl Mat := tick2 (wide sf m) (wideFl sf m)
/-- Element (i, j). -/
def mget (m : Mat) (i j : Nat) : Nat := nth 0 (nth [] m j) i
/-- Replace element (i, j). -/
def mset (m : Mat) (i j x : Nat) : Mat := setNth m j (setNth (nth [] m j) i x)
/-- Rows of a matrix. -/
def mrows (m : Mat) : Nat := (nth [] m 0).length
/-- Row `i`. -/
def mrow (m : Mat) (i : Nat) : List Nat := m.map fun c => nth 0 c i
/-- Transpose. -/
def mtr (m : Mat) : Mat := (List.range (mrows m)).map (mrow m)
/-- Columns of a matrix held flat, `r` rows each. -/
def cols (r : Nat) (n : Nat) (d : List DWord) : Mat :=
  (List.range n).map fun j => (List.range r).map fun i => (nth 0 d (i + r * j)).toNat
/-- The flat form. -/
def flat (m : Mat) : List DWord := m.flatMap fun c => c.map (BitVec.ofNat 64)

/-! ### Dense products (R292, R293) -/

/-- Exact sum of a group of products. -/
def groupSum (mode : Nat) : List (FV × FV) → FV × Nat
  | [] => (.fin false 0 0, 0)
  | p :: ps =>
    ps.foldl (fun a q => let x := xMul q.1 q.2; let y := xAdd mode a.1 x.1; (y.1, a.2 ||| x.2 ||| y.2)) (xMul p.1 p.2)
/-- How the group sums enter the accumulator: format, mode, α, and the two scales. -/
structure Dot where
  acc : SF
  mode : Nat
  al : FV
  sc : Option (FV × FV)
/-- α × the scaled group sum, exactly. -/
def groupTerm (d : Dot) (ps : List (FV × FV)) : FV × Nat :=
  let s := groupSum d.mode ps
  let t := match d.sc with
    | some (sa, sb) => let x := xMul s.1 sa; let y := xMul x.1 sb; (y.1, s.2 ||| x.2 ||| y.2)
    | none => s
  let u := xMul d.al t.1
  (u.1, t.2 ||| u.2)
/-- The loop over groups of 16, from the accumulator's exact value: bits and flags. -/
def dotLoop (d : Dot) : Nat → FV → Nat → List (FV × FV) → Nat × Nat
  | 0, acc, fl, _ => let r := xRound d.acc d.mode false acc; (r.1, fl ||| r.2)
  | n + 1, acc, fl, ps =>
    let t := groupTerm d (ps.take 16)
    let a := xAdd d.mode acc t.1
    let r := xRound d.acc d.mode false a.1
    let fl1 := fl ||| t.2 ||| a.2 ||| r.2
    if n = 0 then (r.1, fl1) else dotLoop d n (decS d.acc r.1) fl1 (ps.drop 16)
/-- Groups of K terms. -/
def groups (k : Nat) : Nat := (k + 15) / 16
/-- The groups of an element's loop: where they begin, how many there are (R292, R298), the accumulator before the first of them where a
suspension left it in the destination, and the terms from there on. -/
structure Span where
  n : Nat
  acc : Option FV
  ps : List (FV × FV)
/-- The whole loop over the terms of an element. -/
def wholeSpan (ps : List (FV × FV)) : Span := ⟨groups ps.length, none, ps⟩
/-- The groups from number `lo` to number `hi` of an element's loop, with the accumulator that the destination holds. -/
def spanOf (lo hi : Nat) (acc : FV) (ps : List (FV × FV)) : Span :=
  let n := min hi (groups ps.length)
  ⟨n - lo, if lo = 0 then none else some acc, (ps.take (16 * n)).drop (16 * lo)⟩
/-- The accumulator before the first group of a span: β·C[i, j], exact (`c` is none when β = 0 or C is Z), or what the destination
holds. -/
def spanStart (be : FV) (c : Option FV) (sp : Span) : FV × Nat :=
  match sp.acc, c with
  | some a, _ => (a, 0)
  | none, some x => xMul be x
  | none, none => (.fin false 0 0, 0)
/-- An element of a product under DET (R292). -/
def dotDet (d : Dot) (be : FV) (c : Option FV) (sp : Span) : Nat × Nat :=
  let a := spanStart be c sp
  dotLoop d sp.n a.1 a.2 sp.ps
/-- The magnitude of a finite value. -/
def absF : FV → FV
  | .fin _ m e => .fin false m e
  | .inf _ => .inf false
  | x => x
/-- Whether a value of the accumulator format satisfies the bound of R294: one unit for each group and one more. Of an element that a
suspension has cut, each later part takes its groups alone, so that the whole keeps the bound. -/
def fastOk (d : Dot) (be : FV) (c : Option FV) (sp : Span) (y : FV) : Bool :=
  let p : Nat := match d.acc with | .fp f => f.p | .int _ => 0
  let scale (x : FV) : FV := match d.sc with | some (a, b) => (xMul (xMul x a).1 b).1 | none => x
  let term (q : FV × FV) : FV := (xMul d.al (scale (xMul q.1 q.2).1)).1
  let bc : FV := (spanStart be c sp).1
  let add (a b : FV) : FV := (xAdd 0 a b).1
  let exact := sp.ps.foldl (fun a q => add a (term q)) bc
  let mag := sp.ps.foldl (fun a q => add a (absF (term q))) (absF bc)
  let u : FV := .fin false (sp.n + (if sp.acc.isNone then 1 else 0)) (if d.mode = 0 then -(p : Int) else 1 - p)
  match y, exact, mag with
  | .fin _ _ _, .fin _ _ _, .fin _ _ _ => !ltF (xMul u mag).1 (absF (add y (negF exact)))
  | _, _, _ => false
/-- An element under FAST (R294): the free value `free` where it keeps the bound, else the value of DET. -/
def dotFast (d : Dot) (be : FV) (c : Option FV) (sp : Span) (free : Nat) : Nat × Nat :=
  let det := dotDet d be c sp
  let w := match d.acc with | .fp f => f.width | .int w => w
  let y := free % 2 ^ w
  if fastOk d be c sp (decS d.acc y) then (y, det.2) else det
/-- Terms of element (i, j). -/
def terms (fa : SF) (a b : Mat) (i j : Nat) : List (FV × FV) :=
  ((mrow a i).zip (nth [] b j)).map fun x => (decS fa x.1, decS fa x.2)
/-- A matrix of `r` × `c` elements computed one by one, with the flags of all. -/
def mkMat (r c : Nat) (f : Nat → Nat → Nat × Nat) : Mat × Nat :=
  let m := (List.range c).map fun j => (List.range r).map fun i => f i j
  (m.map fun col => col.map (·.1), m.foldl (fun a col => col.foldl (fun a e => a ||| e.2) a) 0)
/-- Unscaled integer products (R292): acc := sat(acc + s) per group. -/
def intLoop : Nat → Int → Nat → List (Int × Int) → Nat × Nat
  | 0, acc, fl, _ => (wrap acc 32, fl)
  | n + 1, acc, fl, ps =>
    let v := (ps.take 16).foldl (fun a p => a + p.1 * p.2) acc
    let w := clamp v (-2147483648) 2147483647
    intLoop n w (if w = v then fl else fl ||| flSat) (ps.drop 16)
/-- An element of an unscaled integer product of `w`-bit operands: groups `lo` to `hi`, from the accumulator `acc`. -/
def dotInt (w : Nat) (a b : Mat) (acc : Int) (lo hi i j : Nat) : Nat × Nat :=
  let ps := ((mrow a i).zip (nth [] b j)).map fun x => (sx x.1 w, sx x.2 w)
  let n := min hi (groups ps.length)
  intLoop (n - lo) acc 0 ((ps.take (16 * n)).drop (16 * lo))

/-! ### Low-rank factors (R288) -/

/-- A product of FP64 matrices in the group order, under RNE. -/
def prod64 (a b : Mat) : Fl Mat := fun fl =>
  let d : Dot := ⟨.fp fp64, 0, .fin false 1 0, none⟩
  let r := mkMat (mrows a) b.length fun i j => dotDet d (.fin false 0 0) none (wholeSpan (terms (.fp fp64) a b i j))
  (r.1, fl ||| r.2)
/-- The exact element (i, j) of U·Vᵀ. -/
def lrEl (mode : Nat) (u v : Mat) (i j : Nat) : FV × Nat :=
  groupSum mode ((u.zip v).map fun c => (decF fp64 (nth 0 c.1 i), decF fp64 (nth 0 c.2 j)))
/-- Dense conversion (R288). -/
def densify (sf : SF) (mode : Nat) (r c : Nat) (u v : Mat) : Mat × Nat :=
  mkMat r c fun i j => let x := lrEl mode u v i j; let y := xRound sf mode false x.1; (y.1, x.2 ||| y.2)

/-- The value of a tile as arithmetic takes it. -/
inductive TV where
  | z
  | d (m : Mat)
  | l (u v : Mat)
  deriving DecidableEq, Repr, Inhabited
/-- The product of two tiles (first table of R288), dense products apart; factors in FP64. -/
def lrMul (sf : SF) (a b : TV) : Fl TV :=
  match a, b with
  | .z, _ => pure .z
  | _, .z => pure .z
  | .d x, .d _ => pure (.d x)
  | .d x, .l u v => do pure (.l (← prod64 (← widen sf x) u) v)
  | .l u v, .d y => do pure (.l u (← prod64 (mtr (← widen sf y)) v))
  | .l ua va, .l ub vb => do
    let w ← prod64 (mtr va) ub
    if ub.length < ua.length then pure (.l (← prod64 ua w) vb) else pure (.l ua (← prod64 vb (mtr w)))

/-! ### FP64 steps of R289 -/

def fma64 (a b c : Nat) : Fl Nat := tick (fmaF fp64 0 false (decF fp64 a) (decF fp64 b) (decF fp64 c))
def add64 (a b : Nat) : Fl Nat := tick (addF fp64 0 false (decF fp64 a) (decF fp64 b))
def mul64 (a b : Nat) : Fl Nat := tick (mulF fp64 0 false (decF fp64 a) (decF fp64 b))
def div64 (a b : Nat) : Fl Nat := tick (divF fp64 0 false (decF fp64 a) (decF fp64 b))
def sqrt64 (a : Nat) : Fl Nat := tick (sqrtF fp64 0 (decF fp64 a))
/-- Sign inversion. -/
def neg64 (a : Nat) : Nat := a ^^^ 2 ^ 63
/-- 1.0. -/
def one64 : Nat := 0x3FF0000000000000
/-- 2^−k for a small k. -/
def pow64 (k : Nat) : Nat := (1023 - k) * 2 ^ 52
/-- 2 × g / vv with one rounding. -/
def twice64 (g vv : Nat) : Fl Nat :=
  let x := match decF fp64 g with | .fin n m e => FV.fin n m (e + 1) | y => y
  tick (divF fp64 0 false x (decF fp64 vv))
/-- Comparisons; false for NaN. -/
def le64 (a b : Nat) : Bool := (cmpF .le (decF fp64 a) (decF fp64 b)).1
def lt64 (a b : Nat) : Bool := (cmpF .lt (decF fp64 a) (decF fp64 b)).1
/-- α·X or β·X, each element rounded once (R288). -/
def scaleM (k : Nat) (m : Mat) : Fl Mat := m.mapM fun c => c.mapM fun x => mul64 k x

/-- dot(x, y, lo, hi) with the lists cut to the range. -/
def dot64 (xs ys : List Nat) : Fl Nat := (xs.zip ys).foldlM (fun s p => fma64 p.1 p.2 s) 0
/-- nrm(x, lo, hi). -/
def nrm64 (xs : List Nat) : Fl Nat := do sqrt64 (← dot64 xs xs)

/-- One pass of mgs over columns i < j: the column and the row updates. -/
def mgsPass (q : Mat) (j : Nat) (st : List Nat × Mat) : Fl (List Nat × Mat) :=
  (List.range j).foldlM (fun st i => do
    let h ← dot64 (nth [] q i) st.1
    let rij ← add64 (mget st.2 i j) h
    let x ← ((nth [] q i).zip st.1).mapM fun p => fma64 (neg64 h) p.1 p.2
    pure (x, mset st.2 i j rij)) st
/-- Column `j` of mgs. -/
def mgsCol (x : Mat) (st : Mat × Mat) (j : Nat) : Fl (Mat × Mat) := do
  let p1 ← mgsPass st.1 j (nth [] st.1 j, st.2)
  let p2 ← mgsPass st.1 j p1
  let n ← nrm64 p2.1
  let bound ← mul64 (pow64 50) (← nrm64 (nth [] x j))
  if le64 n bound then pure (setNth st.1 j (p2.1.map fun _ => 0), mset p2.2 j j 0)
  else
    let c ← p2.1.mapM fun y => div64 y n
    pure (setNth st.1 j c, mset p2.2 j j n)
/-- mgs (R289): Q and R, both as columns. -/
def mgs (x : Mat) : Fl (Mat × Mat) :=
  (List.range x.length).foldlM (mgsCol x) (x, x.map fun _ => x.map fun _ => 0)

/-- The state of the pivoted reduction: R and Qw as columns, and pos. -/
structure Red where
  r : Mat
  qw : Mat
  pos : List Nat
/-- Exchange columns `j` and `q`. -/
def swapCols (s : Red) (j q : Nat) : Red :=
  { s with
    r := setNth (setNth s.r j (nth [] s.r q)) q (nth [] s.r j),
    pos := s.pos.map fun p => if p = j then q else if p = q then j else p }
/-- The pivot column of step `j`: largest norm, lowest on ties. -/
def pivot (s : Red) (k j : Nat) : Fl Nat := do
  let c (q : Nat) : Fl Nat := nrm64 ((nth [] s.r q).drop j)
  let b ← ((List.range k).drop (j + 1)).foldlM (fun (b : Nat × Nat) q => do
    let x ← c q
    pure (if lt64 b.2 x then (q, x) else b)) (j, ← c j)
  pure b.1
/-- One column of R under the reflection. -/
def reflectR (k j : Nat) (v : List Nat) (vv : Nat) (r : Mat) (l : Nat) : Fl Mat := do
  let col := nth [] r l
  let g ← twice64 (← dot64 (v.drop j) (col.drop j)) vv
  let new ← (List.range k).mapM fun i => if i < j then pure (nth 0 col i) else fma64 (neg64 g) (nth 0 v i) (nth 0 col i)
  pure (setNth r l new)
/-- One row of Qw under the reflection. -/
def reflectQ (k j : Nat) (v : List Nat) (vv : Nat) (qw : Mat) (i : Nat) : Fl Mat := do
  let row := mrow qw i
  let g ← twice64 (← dot64 (row.drop j) (v.drop j)) vv
  (List.range k).foldlM (fun m l =>
    if l < j then pure m
    else do pure (mset m i l (← fma64 (neg64 g) (nth 0 v l) (nth 0 row l)))) qw
/-- Step `j` of the reduction. -/
def reduceStep (k : Nat) (s0 : Red) (j : Nat) : Fl Red := do
  let q ← pivot s0 k j
  let s := if q = j then s0 else swapCols s0 j q
  let col := nth [] s.r j
  let σ ← nrm64 (col.drop (j + 1))
  if !lt64 0 σ then pure s
  else
    let x0 := nth 0 col j
    let μ ← nrm64 (col.drop j)
    let a := if lt64 x0 0 then μ else neg64 μ
    let vj ← add64 x0 (neg64 a)
    let v := (List.range k).map fun i => if i < j then 0 else if i = j then vj else nth 0 col i
    let vv ← dot64 (v.drop j) (v.drop j)
    let r1 ← ((List.range k).drop (j + 1)).foldlM (reflectR k j v vv) s.r
    let q1 ← (List.range k).foldlM (reflectQ k j v vv) s.qw
    let cj := (List.range k).map fun i => if i < j then nth 0 col i else if i = j then a else 0
    pure ⟨setNth r1 j cj, q1, s.pos⟩
/-- tail(r). The tails and their bound only decide the rank: their roundings raise no flag (log entry 20). -/
def tailNorm (s : Red) (r : Nat) : Nat :=
  ((do
    let x ← (s.r.drop r).foldlM (fun a c => (c.drop r).foldlM (fun a x => fma64 x x a) a) 0
    sqrt64 x : Fl Nat) 0).1
/-- The smallest rank, from `r` up in `n` tries, whose tail is within the bound. -/
def rankOf (s : Red) (bound : Nat) : Nat → Nat → Nat
  | 0, r => r
  | n + 1, r => if le64 (tailNorm s r) bound then r else rankOf s bound n (r + 1)
/-- RANK ROUNDING (R289) of FP64 factors under ε = 2^−e. -/
def rankRound (e : Nat) (u v : Mat) : Fl (Mat × Mat) := do
  let k := u.length
  let pad (m : Mat) : Mat := m.map fun c => c ++ List.replicate (64 - c.length) 0
  let (qu, ru) ← mgs (pad u)
  let (qv, rv) ← mgs (pad v)
  let w ← (List.range k).mapM fun j => (List.range k).mapM fun i => dot64 (mrow ru i) (mrow rv j)
  let eye : Mat := (List.range k).map fun j => (List.range k).map fun i => if i = j then one64 else 0
  let s ← (List.range k).foldlM (reduceStep k) ⟨w, eye, List.range k⟩
  let r := rankOf s (mul64 (pow64 e) (tailNorm s 0) 0).1 k 0
  let u' ← (List.range r).mapM fun c => (List.range (mrows u)).mapM fun i => dot64 (mrow qu i) (nth [] s.qw c)
  let y (c : Nat) : List Nat := (List.range k).map fun l => mget s.r c (nth 0 s.pos l)
  let v' ← (List.range r).mapM fun c => (List.range (mrows v)).mapM fun i => dot64 (mrow qv i) (y c)
  pure (u', v')

/-! ### Factoring and solving (R311, R312) -/

/-- a / b and −a × b + c in a format, each rounded once. -/
def divS (f : Fmt) (mode a b : Nat) : Fl Nat := tick (divF f mode false (decF f a) (decF f b))
def fnma (f : Fmt) (mode a b c : Nat) : Fl Nat := tick (fmaF f mode false (negF (decF f a)) (decF f b) (decF f c))
/-- LU without pivoting (R311). -/
def luStep (f : Fmt) (mode : Nat) (n : Nat) (a : Mat) (k : Nat) : Fl Mat := do
  let below := (List.range n).drop (k + 1)
  let piv := mget a k k
  let ck ← (List.range n).mapM fun i => if i ≤ k then pure (mget a i k) else divS f mode (mget a i k) piv
  below.foldlM (fun m j => do
    let col ← (List.range n).mapM fun i => if i ≤ k then pure (mget a i j) else fnma f mode (nth 0 ck i) (mget a k j) (mget a i j)
    pure (setNth m j col)) (setNth a k ck)
def lu (f : Fmt) (mode : Nat) (a : Mat) : Fl Mat := (List.range a.length).foldlM (luStep f mode a.length) a
/-- One column of X under a left solve (R312): `.ll` ascending with a unit diagonal, `.lu` descending. -/
def solveCol (f : Fmt) (mode : Nat) (upper : Bool) (a : Mat) (x : List Nat) : Fl (List Nat) :=
  let n := a.length
  let order := if upper then (List.range n).reverse else List.range n
  order.foldlM (fun x i => do
    let ks := if upper then ((List.range n).drop (i + 1)).reverse else List.range i
    let s ← ks.foldlM (fun s k => fnma f mode (mget a i k) (nth 0 x k) s) (nth 0 x i)
    let y ← if upper then divS f mode s (mget a i i) else pure s
    pure (setNth x i y)) x
/-- A right solve: `.ru` ascending in j, `.rl` descending with a unit diagonal. -/
def solveRow (f : Fmt) (mode : Nat) (upper : Bool) (a : Mat) (x : List Nat) : Fl (List Nat) :=
  let n := a.length
  let order := if upper then List.range n else (List.range n).reverse
  order.foldlM (fun x j => do
    let ks := if upper then List.range j else ((List.range n).drop (j + 1)).reverse
    let s ← ks.foldlM (fun s k => fnma f mode (nth 0 x k) (mget a k j) s) (nth 0 x j)
    let y ← if upper then divS f mode s (mget a j j) else pure s
    pure (setNth x j y)) x
/-- TTRS on dense X (R312). -/
def trsm (f : Fmt) (mode how : Nat) (a x : Mat) : Fl Mat := do
  match how with
  | 0 => x.mapM (solveCol f mode false a)
  | 2 => x.mapM (solveCol f mode true a)
  | 1 => do pure (mtr (← (mtr x).mapM (solveRow f mode true a)))
  | _ => do pure (mtr (← (mtr x).mapM (solveRow f mode false a)))

end Sys2Proof.Machine
end

