-- ==== Sys2Proof/Machine/Tile.lean ====
section
/-! DEFINITION. Rank tiles and the tile engine (R280 to R299, R300 to R314, R349, R350). A tile's values stand in its pool lines (R282); an
operation reads its operands, computes and commits in one step, between its start and its end, but for the groups that a suspension leaves in
the destination of an in-place one (R297, R298). -/

namespace Sys2Proof.Machine

/-! ### Descriptors and storage (R280 to R283) -/

/-- A tile at workgroup start (R281). -/
def noTile : Tile := { (default : Tile) with kind := 3, fe := true, tag := 63 }
/-- Tile `n` of a workgroup. -/
def getTile (w : Wg) (n : Nat) : Tile := ngetD noTile w.tiles n
/-- Replace a tile. -/
def putTile (s : State) (c wg n : Nat) (t : Tile) : State := updWg s c wg fun w => { w with tiles := nset w.tiles n t }
/-- FMT code of a tile's slot. -/
def tFmt (ws : List DWord) (t : Tile) : Nat := slotFmt (recSlot ws t.slot.toNat)
/-- Storage format of FMT code `f` under ACC; `sc` for a slot with SCALE ≠ 0 (R280). -/
def sfOf (f : Nat) (sc acc : Bool) : SF :=
  if acc then (if (f = 5 ∨ f = 6) ∧ !sc then .int 32 else .fp fp32)
  else match f with
    | 0 => .fp fp64 | 1 => .fp fp32 | 2 => .fp fp16 | 3 => .fp bf16 | 4 => .fp e4m3 | 5 => .int 8 | _ => .int 4
/-- Storage format of a tile. -/
def tSF (ws : List DWord) (t : Tile) : SF := sfOf (tFmt ws t) (slotScale (recSlot ws t.slot.toNat) != 0) t.acc
/-- Formats that admit L, and accumulators (R280). -/
def hasL (f : Nat) : Bool := f == 0 || f == 1 || f == 3
def hasAcc (f : Nat) : Bool := decide (2 ≤ f) && decide (f ≤ 6)
/-- Native size (R280). -/
def native (f : Nat) : Nat := if f ≤ 3 then 64 else 128
/-- p of an FMT code and of a storage format; 63 for integers. -/
def fmtP (f : Nat) : Nat := match f with | 0 => 53 | 1 => 24 | 2 => 11 | 3 => 8 | 4 => 4 | _ => 63
def sfP : SF → Nat
  | .fp f => f.p
  | .int _ => 63
/-- Code of an element size of 2^(ez + 2) bits. -/
def sfEz : SF → Nat
  | .fp f => Nat.log2 (f.width / 4)
  | .int w => Nat.log2 (w / 4)
/-- A tag read through eff (R301). -/
def tEff (t : Tag) (p : Nat) : Nat := if t = 63 then p else min t.toNat p
/-- Granules of U or dense storage, and of V (R282). -/
def granules (ws : List DWord) (t : Tile) (kind rank : Nat) : Nat × Nat :=
  let f := tFmt ws t
  match kind with
  | 1 =>
    (if t.acc then (if native f = 64 then 8 else 32) else match f with | 0 => 16 | 1 | 4 | 5 => 8 | _ => 4, 0)
  | 2 =>
    let per := match tSF ws t with | .fp g => 256 / g.width | .int _ => 8
    ((rank + per - 1) / per, (rank + per - 1) / per)
  | _ => (0, 0)
/-- Runs that a tile holds. -/
def runsOf (ws : List DWord) (t : Tile) : List (Nat × Nat) :=
  let g := granules ws t t.kind t.rank
  (if g.1 = 0 then [] else [(t.uofs, g.1)]) ++ (if g.2 = 0 then [] else [(t.vofs, g.2)])
/-- First fit of `n` granules among runs in use (R283). -/
def fit (pool n : Nat) (used : List (Nat × Nat)) : Option Nat :=
  if n = 0 then some 0
  else findNat (fun g => decide (g + n ≤ pool) && used.all fun r => decide (g + n ≤ r.1) || decide (r.1 + r.2 ≤ g)) pool 0
/-- Offsets of U and V for tile `n` with a new kind and rank, its old granules freed first; none on ALLOC (R283). A value whose runs
differ from the old ones is placed anew, though the total may be the same (log entry 83). -/
def place (ws : List DWord) (w : Wg) (n : Nat) (t : Tile) (kind rank : Nat) : Option (Nat × Nat) :=
  let g := granules ws t kind rank
  if g = granules ws t t.kind t.rank then some (t.uofs, t.vofs)
  else
    let used := (w.tiles.filter fun e => e.1 != n).flatMap fun e => runsOf ws e.2
    match fit w.granules g.1 used with
    | none => none
    | some u =>
      match fit w.granules g.2 ((if g.1 = 0 then [] else [(u, g.1)]) ++ used) with
      | none => none
      | some v => some (u, v)
/-- The descriptor (R281). -/
def descOf (t : Tile) : Nat :=
  let b (x : Bool) : Nat := if x then 1 else 0
  packL [51, 1, 9, 9, 4, 5, 4, 6, 6, 5, 5, 8, 8, 3, 1, 1, 2]
    [0, b t.satf, t.vofs, t.uofs, t.kprog, t.flags.toNat, t.status, t.tag.toNat, t.tol, t.rmax, t.rank, t.cols, t.rows,
      t.slot.toNat, b t.acc, b t.fe, t.kind]

/-! ### Values in the pool (R282) -/

/-- Bits of a tile's elements. -/
def tWidth (ws : List DWord) (t : Tile) : Nat := match tSF ws t with | .fp f => f.width | .int w => w
/-- Elements of `wd` bits as bytes, the lower nibble first (R44). -/
def packEls (wd : Nat) : List Nat → List Byte
  | [] => []
  | [x] => if wd = 4 then [BitVec.ofNat 8 (x % 16)] else leBytes (wd / 8) x
  | x :: y :: r => if wd = 4 then BitVec.ofNat 8 (x % 16 + 16 * (y % 16)) :: packEls wd r else leBytes (wd / 8) x ++ packEls wd (y :: r)
/-- Element `n` of the run at byte `base`. -/
def poolEl (m : NMap Byte) (base wd n : Nat) : Nat :=
  if wd = 4 then (ngetD 0 m (base + n / 2)).toNat / 16 ^ (n % 2) % 16 else leNat (getBytes m (base + wd / 8 * n) (wd / 8))
/-- The `r` × `n` elements in use of a run with columns of `nat` elements. -/
def poolMat (m : NMap Byte) (base wd nat r n : Nat) : Mat :=
  (List.range n).map fun j => (List.range r).map fun i => poolEl m base wd (i + nat * j)
/-- The image of a run of `n` columns: masked elements are zero. -/
def runImage (wd nat n : Nat) (m : Mat) : List Byte :=
  packEls wd ((List.range n).flatMap fun j => let c := nth [] m j; (List.range nat).map fun i => nth 0 c i)
/-- First byte of granule `g` of a workgroup's pool. -/
def granuleByte (w : Wg) (g : Nat) : Nat := 128 * w.shareLine + 2048 * g
/-- The values of a tile of workgroup `w`, as its pool lines hold them. -/
def poolVal (k : Core) (w : Wg) (ws : List DWord) (t : Tile) : TileVal :=
  let run (g r n : Nat) : List DWord := flat (poolMat k.bytes (granuleByte w g) (tWidth ws t) (native (tFmt ws t)) r n)
  match t.kind with
  | 1 => ⟨run t.uofs t.rows t.cols, [], []⟩
  | 2 => ⟨[], run t.uofs t.rows t.rank, run t.vofs t.cols t.rank⟩
  | _ => ⟨[], [], []⟩
/-- Tile `n` of a workgroup with its values. -/
def fullTile (s : State) (c : Nat) (w : Wg) (ws : List DWord) (n : Nat) : Tile :=
  let t := getTile w n
  { t with val := poolVal (getCore s c) w ws t }
/-- Write a run of the pool. -/
def putRun (s : State) (c : Nat) (w : Wg) (ws : List DWord) (t : Tile) (g n : Nat) (m : Mat) : State :=
  updCore s c fun k => { k with bytes := putBytes k.bytes (granuleByte w g) (runImage (tWidth ws t) (native (tFmt ws t)) n m) }
/-- Write the values of a tile, dense or factors, into its pool lines. -/
def putVal (s : State) (c : Nat) (w : Wg) (ws : List DWord) (t : Tile) : State :=
  match t.kind with
  | 1 => putRun s c w ws t t.uofs (native (tFmt ws t)) (cols t.rows t.cols t.val.d)
  | 2 =>
    putRun (putRun s c w ws t t.uofs t.rank (cols t.rows t.rank t.val.u)) c w ws t t.vofs t.rank (cols t.cols t.rank t.val.v)
  | _ => s
/-- A launch takes the values of a tile: the poison of its pool lines (R448). -/
def consumeTile (s : State) (c : Nat) (w : Wg) (ws : List DWord) (t : Tile) (ctx seq : Nat) : State :=
  (runsOf ws t).foldl
    (fun s r => (List.range (16 * r.2)).foldl (fun s n => consume s (.scratch c (granuleByte w r.1 + 128 * n)) ctx seq) s) s

/-! ### Values -/

/-- A tile as arithmetic takes it: factors in FP64. -/
def tvOf (ws : List DWord) (t : Tile) : TV :=
  match t.kind with
  | 1 => .d (cols t.rows t.cols t.val.d)
  | 2 => .l (wide (tSF ws t) (cols t.rows t.rank t.val.u)) (wide (tSF ws t) (cols t.cols t.rank t.val.v))
  | _ => .z
/-- The flags that taking its factors in FP64 raises (R49, R291). -/
def tvFl (ws : List DWord) (t : Tile) : Nat :=
  match t.kind with
  | 2 => wideFl (tSF ws t) (cols t.rows t.rank t.val.u) ||| wideFl (tSF ws t) (cols t.cols t.rank t.val.v)
  | _ => 0
/-- Outcome of an operation: a status other than OK, a committed value with tag and flags, or a whole descriptor. -/
inductive TRes where
  | fail (st : Nat)
  | ok (kind rank : Nat) (val : TileVal) (tag : Nat) (fl : Nat)
  | desc (t : Tile)
  | keep                    -- OK, the tile unchanged
/-- Whether a value holds a NaN or an infinity. -/
def specialVal (sf : SF) (v : TileVal) : Bool :=
  match sf with
  | .int _ => false
  | .fp f => (v.d ++ v.u ++ v.v).any fun x => isNaN (decF f x.toNat) || isInf (decF f x.toNat)
/-- A dense result. -/
def denseRes (m : Mat) (tag fl : Nat) : TRes := .ok 1 0 ⟨flat m, [], []⟩ tag fl
/-- An L result already rounded, or the dense form above RMAX, or Z (R288). `raw` keeps loaded factors as they are. -/
def storeL (ws : List DWord) (t : Tile) (u v : Mat) (raw : Option (List DWord × List DWord)) (tag fl : Nat) : TRes :=
  let sf := tSF ws t
  let mode := slotMode (recSlot ws t.slot.toNat)
  let r := u.length
  if r = 0 then .ok 0 0 ⟨[], [], []⟩ tag fl
  else if t.rmax < r then
    let d := densify sf mode t.rows t.cols u v
    let w := match raw with
      | some (a, b) => wideFl sf (cols t.rows r a) ||| wideFl sf (cols t.cols r b)
      | none => 0
    denseRes d.1 tag (fl ||| d.2 ||| w)
  else
    match raw with
    | some (a, b) => .ok 2 r ⟨[], a, b⟩ tag fl
    | none =>
      let narrow (m : Mat) : Fl Mat := m.mapM fun c => c.mapM fun x => tick (xRound sf mode false (decF fp64 x))
      let a := (narrow u) fl
      let b := (narrow v) a.2
      .ok 2 r ⟨[], flat a.1, flat b.1⟩ tag b.2
/-- An L result: rank-rounded with TOL (R289, R296), then stored; KIND in a format without L. -/
def roundL (ws : List DWord) (t : Tile) (u v : Mat) (tag fl : Nat) : TRes :=
  if !hasL (tFmt ws t) then .fail 2
  else
    let r := (rankRound t.tol u v) fl
    storeL ws t r.1.1 r.1.2 none (min tag t.tol) r.2
/-- The product rule of R296 and R301. -/
def prodTagT (p a b : Nat) : Nat := (clamp ((min a b : Nat) - (if a = b ∧ a < p then 1 else 0)) 0 p).toNat

/-! ### TMUL and TADD (R288, R292 to R296) -/

/-- Sign-less zero test of an FP64 scalar. -/
def isz (x : DWord) : Bool := x.toNat % 2 ^ 63 == 0
/-- What a product needs beside its tiles. -/
structure MulIn where
  al : DWord
  be : DWord
  sa : List FV               -- scales by row, empty without scaling
  sb : List FV
  lo : Nat                   -- groups of a dense product that are done (R298), and the end of those to do
  hi : Nat
  old : Mat                  -- the accumulators that the destination then holds
  free : Nat                 -- first index of the free values of FAST
/-- β × C and α × P meet (second table of R288). -/
def combineTile (ws : List DWord) (c : Tile) (p : TV) (pf : SF) (m : MulIn) (tag fl : Nat) : TRes :=
  let sf := tSF ws c
  let slot := recSlot ws c.slot.toNat
  let mode := slotMode slot
  let sat := slotSat slot
  let al := decF fp64 m.al.toNat
  let be := decF fp64 m.be.toNat
  let p1 := if isz m.al then TV.z else p
  let c1 := if isz m.be then TV.z else tvOf ws c
  let fl := if isz m.be then fl else fl ||| tvFl ws c
  let el (x : TV) (g : SF) (i j : Nat) : FV × Nat :=
    match x with
    | .d d => (decS g (mget d i j), 0)
    | .l u v => lrEl mode u v i j
    | .z => (.fin false 0 0, 0)
  match c1, p1 with
  | .z, .z => .ok 0 0 ⟨[], [], []⟩ tag fl
  | .z, .l u v => let a := (scaleM m.al.toNat u) fl; roundL ws c a.1 v tag a.2
  | .l uc vc, .z => let b := (scaleM m.be.toNat vc) fl; roundL ws c uc b.1 tag b.2
  | .l uc vc, .l u v =>
    let a := (scaleM m.al.toNat u) fl
    let b := (scaleM m.be.toNat vc) a.2
    roundL ws c (uc ++ a.1) (b.1 ++ v) tag b.2
  | _, _ =>
    let one (i j : Nat) : Nat × Nat :=
      let x := el c1 sf i j
      let y := el p1 pf i j
      let bx := xMul be x.1
      let ay := xMul al y.1
      let z : FV × Nat :=
        match c1, p1 with
        | .z, _ => (ay.1, ay.2 ||| y.2)
        | _, .z => (bx.1, bx.2 ||| x.2)
        | _, _ => let w := xAdd mode bx.1 ay.1; (w.1, w.2 ||| bx.2 ||| ay.2 ||| x.2 ||| y.2)
      let r := xRound sf mode sat z.1
      (r.1, r.2 ||| z.2)
    let r := mkMat c.rows c.cols one
    denseRes r.1 tag (fl ||| r.2)
/-- The accumulator of a dense product's element before the groups of `m`. -/
def oldAcc (m : MulIn) (sf : SF) (i j : Nat) : FV := if m.lo = 0 then .fin false 0 0 else decS sf (mget m.old i j)
/-- A dense product through groups `m.lo` to `m.hi` of its loop (R292, R294). -/
def denseProd (ws : List DWord) (a b c : Tile) (m : MulIn) : Mat × Nat :=
  let slot := recSlot ws c.slot.toNat
  let fa := tSF ws a
  let x := cols a.rows a.cols a.val.d
  let y := cols b.rows b.cols b.val.d
  let acc : SF := if fa = .fp fp64 then fa else .fp fp32
  let cv := if isz m.be then TV.z else tvOf ws c
  let be := decF fp64 m.be.toNat
  let ce (i j : Nat) : Option FV × Nat :=
    match cv with
    | .z => (none, 0)
    | .d d => (some (decS (tSF ws c) (mget d i j)), 0)
    | .l u v => let e := lrEl (slotMode slot) u v i j; (some e.1, e.2 ||| tvFl ws c)
  let one (i j : Nat) : Nat × Nat :=
    let sc : Option (FV × FV) := if m.sa.isEmpty then none else some (nth (.fin false 0 0) m.sa i, nth (.fin false 0 0) m.sb j)
    let d : Dot := ⟨acc, slotMode slot, decF fp64 m.al.toNat, sc⟩
    let sp := spanOf m.lo m.hi (oldAcc m acc i j) (terms fa x y i j)
    let z := if m.lo = 0 then ce i j else (none, 0)
    let r := if slotFast slot then dotFast d be z.1 sp (Config.fastDot (m.free + i + c.rows * j)).toNat else dotDet d be z.1 sp
    if tSF ws c = acc then (r.1, r.2 ||| z.2)
    else let q := xRound (tSF ws c) (slotMode slot) (slotSat slot) (decS acc r.1); (q.1, q.2 ||| r.2 ||| z.2)
  mkMat c.rows c.cols one
/-- An unscaled integer product (R292). -/
def intProd (ws : List DWord) (a b c : Tile) (m : MulIn) : Mat × Nat :=
  let w := match tSF ws a with | .int w => w | .fp _ => 8
  let x := cols a.rows a.cols a.val.d
  let y := cols b.rows b.cols b.val.d
  let cm := cols c.rows c.cols c.val.d
  mkMat c.rows c.cols fun i j =>
    let acc := if m.lo = 0 then (if c.kind = 1 && !isz m.be then sx (mget cm i j) 32 else 0) else sx (mget m.old i j) 32
    dotInt w x y acc m.lo m.hi i j
/-- Tag of a result that C may contribute to (R296). -/
def withC (ws : List DWord) (c : Tile) (m : MulIn) (t : Nat) : Nat :=
  let u := if !isz m.be && c.kind != 0 then min t (tEff c.tag (sfP (tSF ws c))) else t
  match tSF ws c with | .int 32 => 63 | _ => u
/-- Whether a product takes unscaled integers (R292). -/
def unscaledInt (ws : List DWord) (a c : Tile) : Bool :=
  (tFmt ws a == 5 || tFmt ws a == 6) && slotScale (recSlot ws c.slot.toNat) == 0
/-- Whether TMUL turns its operands away (R288, R292). -/
def mulBad (ws : List DWord) (a b c : Tile) (m : MulIn) : Bool :=
  let f := tFmt ws a
  decide (a.kind = 3 ∨ b.kind = 3 ∨ c.kind = 3) ||
  decide (tFmt ws b ≠ f ∨ tFmt ws c ≠ f ∨ a.acc ∨ b.acc ∨ c.acc ≠ hasAcc f ∨ a.cols ≠ b.rows ∨ c.rows ≠ a.rows ∨ c.cols ≠ b.cols) ||
  (unscaledInt ws a c && (m.al != 0x3FF0000000000000 || !(isz m.be || m.be == 0x3FF0000000000000)))
/-- Whether a product is formed by the group loop (R288, R292). -/
def isDense (a b : Tile) (al : DWord) : Bool := a.kind == 1 && b.kind == 1 && !isz al
/-- The elements of a product that the group loop forms. -/
def mulDense (ws : List DWord) (a b c : Tile) (m : MulIn) : Mat × Nat :=
  if unscaledInt ws a c then intProd ws a b c m else denseProd ws a b c m
/-- TMUL (R288). -/
def mulRes (ws : List DWord) (a b c : Tile) (m : MulIn) : TRes :=
  let f := tFmt ws a
  if mulBad ws a b c m then .fail 3
  else
    let p := fmtP f
    let t0 := if (f == 5 || f == 6) && !unscaledInt ws a c then 24 else prodTagT p (tEff a.tag p) (tEff b.tag p)
    let tag := if unscaledInt ws a c && isDense a b m.al then 63 else withC ws c m t0
    if isDense a b m.al then let r := mulDense ws a b c m; denseRes r.1 tag r.2
    else
      let q : Fl TV := if isz m.al then pure .z else lrMul (tSF ws a) (tvOf ws a) (tvOf ws b)
      let r := q (if isz m.al || a.kind == 0 || b.kind == 0 then 0 else tvFl ws a ||| tvFl ws b)
      combineTile ws c r.1 (.fp fp64) m tag r.2
/-- TADD (R288); a low-rank operand in a destination of a format without L gives KIND (R280). -/
def addRes (ws : List DWord) (a c : Tile) (m : MulIn) : TRes :=
  if a.kind = 3 ∨ c.kind = 3 then .fail 3
  else if a.acc ≠ c.acc ∨ tSF ws a ≠ tSF ws c ∨ a.rows ≠ c.rows ∨ a.cols ≠ c.cols then .fail 3
  else if a.kind = 2 ∧ !hasL (tFmt ws c) then .fail 2
  else combineTile ws c (tvOf ws a) (tSF ws a) m (withC ws c m (tEff a.tag (sfP (tSF ws a)))) (if isz m.al then 0 else tvFl ws a)

/-! ### Operations on one tile (R305, R306, R310 to R312) -/

/-- Zero fields of the tile block (R302, R303). -/
def tBad (b : List DWord) : Bool := !tailZero b || bf b 113 15 != 0 || bf b 56 8 != 0 || bf b 30 2 != 0
/-- TALLOC (R305). -/
def allocRes (ws : List DWord) (t : Tile) (slot : BitVec 3) (b : List DWord) : TRes :=
  let f := slotFmt (recSlot ws slot.toNat)
  let rows := bf b 0 8
  let nc := bf b 8 8
  let rmax := bf b 16 5
  let tol := bf b 21 6
  let dtl := bfb b 27
  let acc := bfb b 28
  let n := native f
  if tBad b || t.kind != 3 || rows == 0 || decide (n < rows) || nc == 0 || decide (n < nc) || (rmax != 0 && !hasL f) ||
      (decide (52 < tol) && !dtl) || (acc && !hasAcc f) then .fail 3
  else .desc { noTile with
    kind := 0, slot := slot, rows := rows, cols := nc, rmax := rmax, acc := acc,
    tol := if dtl then slotDtol (recSlot ws slot.toNat) else tol, tag := BitVec.ofNat 6 (fmtP f) }
/-- TRND (R310). -/
def rndRes (ws : List DWord) (t : Tile) : TRes :=
  match t.kind, tvOf ws t with
  | 3, _ => .fail 3
  | _, .l u v => roundL ws t u v t.tag.toNat (tvFl ws t)
  | _, _ => .keep
/-- TDNS (R310). -/
def dnsRes (ws : List DWord) (t : Tile) : TRes :=
  match t.kind, tvOf ws t with
  | 3, _ => .fail 3
  | _, .l u v => let d := densify (tSF ws t) (slotMode (recSlot ws t.slot.toNat)) t.rows t.cols u v; denseRes d.1 t.tag.toNat (d.2 ||| tvFl ws t)
  | _, .z => denseRes (List.replicate t.cols (List.replicate t.rows 0)) t.tag.toNat 0
  | _, .d _ => .keep
/-- The format of a tile that TFAC and TTRS accept. -/
def facFmt (ws : List DWord) (t : Tile) : Option Fmt :=
  if t.acc then none else match tFmt ws t with | 0 => some fp64 | 1 => some fp32 | _ => none
/-- TFAC (R311). -/
def facRes (ws : List DWord) (t : Tile) : TRes :=
  match facFmt ws t with
  | some f =>
    if t.kind = 1 ∧ t.rows = t.cols then
      let r := (lu f (slotMode (recSlot ws t.slot.toNat)) (cols t.rows t.cols t.val.d)) 0
      denseRes r.1 t.tag.toNat r.2
    else .fail 3
  | none => .fail 3
/-- TTRS (R312). -/
def trsRes (ws : List DWord) (a x : Tile) (how : Nat) : TRes :=
  match facFmt ws a, facFmt ws x with
  | some f, some g =>
    let left := how = 0 ∨ how = 2
    if a.kind ≠ 1 ∨ a.rows ≠ a.cols ∨ x.kind = 3 ∨ f ≠ g ∨ (if left then x.rows else x.cols) ≠ a.rows then .fail 3
    else
      let tag := prodTagT f.p (tEff a.tag f.p) (tEff x.tag f.p)
      let am := cols a.rows a.cols a.val.d
      match tvOf ws x with
      | .z => .keep
      | .d m => let r := (trsm f (slotMode (recSlot ws x.slot.toNat)) how am m) 0; denseRes r.1 tag r.2
      | .l u v =>
        let wa := wide (.fp f) am
        let fl := tvFl ws x ||| wideFl (.fp f) am
        if left then let r := (trsm fp64 0 how wa u) fl; roundL ws x r.1 v tag r.2
        else let r := (trsm fp64 0 how wa (mtr v)) fl; roundL ws x u (mtr r.1) tag r.2
  | _, _ => .fail 3
/-- The write of a multicast delivery (R287): it needs the receiver's storage format and shape; a rank above the receiver's RMAX makes it
dense, as R288 has it for a result (log entry 54). -/
def recvRes (ws : List DWord) (t x : Tile) : TRes :=
  if t.kind = 3 ∨ x.kind = 3 ∨ tSF ws t ≠ tSF ws x ∨ t.rows ≠ x.rows ∨ t.cols ≠ x.cols then .fail 3
  else
    let tag := x.tag.toNat
    match x.kind with
    | 2 =>
      if !hasL (tFmt ws t) then .fail 2
      else
        let sf := tSF ws t
        storeL ws t (wide sf (cols x.rows x.rank x.val.u)) (wide sf (cols x.cols x.rank x.val.v)) (some (x.val.u, x.val.v)) tag 0
    | _ => .ok x.kind x.rank x.val tag 0

/-! ### Memory sides (R307, R308) -/

/-- Where element number `q` of the image lies. -/
def tPl (s : State) (c wg ctx : Nat) (r : BitVec 256) (b : List DWord) (ez : Nat) (q : Int) : Pl :=
  let base := bf b 320 32
  match bf b 106 2 with
  | 0 => globPl r ez (sx base 32 + q)
  | 1 =>
    match scrCore c base with
    | none => .out
    | some k =>
      let bits := q * (2 ^ (ez + 2) : Nat)
      let x : Int := ((base % 2 ^ 20 : Nat) : Int) + bits / 8
      if !scrZeroOk base || decide (x < 0) || decide ((2 ^ 20 : Int) < x + elBytes ez) then .out
      else
        let n := x.toNat
        match scrCheck s c wg ctx k (n / 128), scrCheck s c wg ctx k ((n + elBytes ez - 1) / 128) with
        | .world, _ => .other 0
        | _, .world => .other 0
        | .ok, .ok => .scr k n (if ez = 0 then (q % 2).toNat else 0)
        | _, _ => .out
  | _ => wstPl s (getCore s c).world base ez (q * (2 ^ (ez + 2) : Nat))
/-- Element numbers of a dense image. -/
def denseQ (r c : Nat) (ld : Int) : List Int :=
  (List.range c).flatMap fun j => (List.range r).map fun i => (i : Int) + (j : Int) * ld
/-- Element numbers of a factor image [U ∣ V] of rank `k`. -/
def factorQ (r c k : Nat) (ld : Int) : List Int :=
  denseQ r k ld ++ (List.range k).flatMap fun j => (List.range c).map fun i => (i : Int) + ((k + j : Nat) : Int) * ld
/-- Whether the memory side rejects the image: MSIDE 3, ESIZE, world of the record, OOBTRAP. -/
def sideBad (s : State) (c : Nat) (b : List DWord) (r : BitVec 256) (ez : Nat) (pls : List Pl) : Bool :=
  bf b 106 2 == 3 || (pls.any fun p => match p with | .other _ => true | _ => false) ||
  (bf b 106 2 == 0 && (2 ^ brEsize r != elBytes ez || brWld r != (getCore s c).world || (brOobTrap r && pls.any (· == .out))))
/-- Out-of-bounds places. -/
def plOuts (pls : List Pl) : Nat := (pls.filter (· == .out)).length
/-- Whether an image's elements of format `sf` have shadow bytes (R62, R308). -/
def sideTag (b : List DWord) (r : BitVec 256) : Bool := bf b 106 2 == 0 && brT r

/-! ### Running an operation -/

/-- How an operation stands when it is asked to commit. -/
inductive TRun where
  | wait
  | fault (s : State) (va cause info acc : Nat)
  | done (s : State) (r : TRes)
/-- Who makes the engine's accesses. -/
def tEng (s : State) (c : Nat) (o : TileOp) : Eng := ⟨.core c, (getCore s c).world, o.ctx, o.gone⟩
/-- Record of a global memory side. -/
def tRec (o : TileOp) : BitVec 256 := ngetD 0 o.recs (bf o.blk 102 4)
/-- The places of the image that TLD and TLR read, in its order (R307). -/
def loadPls (s : State) (c : Nat) (ws : List DWord) (o : TileOp) (t : Tile) (low : Bool) : List Pl :=
  let ld := bfs o.blk 352
  (if low then factorQ t.rows t.cols (bf o.blk 108 5) ld else denseQ t.rows t.cols ld).map
    (tPl s c o.wg o.ctx (tRec o) o.blk (sfEz (tSF ws t)))
/-- Whether the elements that a load reads have tags in shadow bytes. -/
def loadTagged (ws : List DWord) (o : TileOp) (t : Tile) : Bool := sideTag o.blk (tRec o) && sfP (tSF ws t) != 63
/-- The status with which a load ends before it reads; none where it reads (R307). -/
def loadBad (s : State) (c : Nat) (ws : List DWord) (o : TileOp) (t : Tile) (low : Bool) : Option Nat :=
  if tBad o.blk || t.kind == 3 then some 3
  else if low && !hasL (tFmt ws t) then some 2
  else if sideBad s c o.blk (tRec o) (sfEz (tSF ws t)) (loadPls s c ws o t low) then some 3
  else none
/-- The accesses that a load makes. -/
def loadAccs (s : State) (c : Nat) (ws : List DWord) (o : TileOp) (t : Tile) (low : Bool) : List Acc :=
  accsOf (loadTagged ws o t) (elBytes (sfEz (tSF ws t))) (loadPls s c ws o t low)
/-- What has been read ahead of the commit of an operation whose accesses are `as`. -/
def opAhead (o : TileOp) (as : List Acc) (a : Acc) : Option Nat := aheadOf o.early (as.idxOf a)
/-- A launch has taken what accesses read, poisoned or not (R448). -/
def takeAccs (s : State) (o : TileOp) (vs : List (Acc × Nat × Option Loc)) : State :=
  if vs.any fun v => v.2.1.testBit 77 then takePoison s o.ctx o.seq else s
/-- TLD and TLR (R307). -/
def runLoad (s : State) (c : Nat) (ws : List DWord) (o : TileOp) (t : Tile) (low : Bool) : TRun :=
  let sf := tSF ws t
  let rank := bf o.blk 108 5
  match loadBad s c ws o t low with
  | some st => .done s (.fail st)
  | none =>
    let pls := loadPls s c ws o t low
    let as := loadAccs s c ws o t low
    let ahead := opAhead o as
    if as.any fun a => (ahead a).isNone && accWaits s true a then .wait
    else
      let x := accAll (tEng s c o) ahead as s
      match x.1 with
      | .fault v k i a => .fault x.2 v k i a
      | .world => .done x.2 (.fail 3)
      | .ok vs =>
        let get := accVal vs
        let s2 := tallyLines (addOob (takeAccs x.2 o vs) c o.slot o.tid (plOuts pls)) 0 (recPol (tRec o)) (accLocs vs)
        let vals : List DWord := pls.map fun p => BitVec.ofNat 64 (elBits (sfEz sf) get p)
        let tag := if sfP sf = 63 then 63 else pls.foldl (fun a p => min a (elTag (sfP sf) (loadTagged ws o t) get p)) 63
        if !low then .done s2 (.ok 1 0 ⟨vals, [], []⟩ tag 0)
        else
          let n := t.rows * rank
          .done s2 (storeL ws t (wide sf (cols t.rows rank (vals.take n))) (wide sf (cols t.cols rank (vals.drop n)))
            (some (vals.take n, vals.drop n)) tag 0)
/-- Elements that TST stores: numbers, bits and flags (R308). -/
def stEls (ws : List DWord) (t : Tile) (fct : Bool) (ld : Int) : List (Int × Nat) × Nat :=
  if fct then ((factorQ t.rows t.cols t.rank ld).zip ((t.val.u ++ t.val.v).map (·.toNat)), 0)
  else
    let q := denseQ t.rows t.cols ld
    match tvOf ws t with
    | .d m => (q.zip (m.flatMap id), 0)
    | .z => (q.map fun n => (n, 0), 0)
    | .l u v =>
      let d := densify (tSF ws t) (slotMode (recSlot ws t.slot.toNat)) t.rows t.cols u v
      (q.zip (d.1.flatMap id), d.2 ||| tvFl ws t)
/-- The elements that TST writes with the tile's tag, and the flags of their conversion (R308). -/
def storeEls (s : State) (c : Nat) (ws : List DWord) (o : TileOp) (t : Tile) : List OutEl × Nat :=
  let e := stEls ws t (bfb o.blk 29) (bfs o.blk 352)
  (e.1.map fun x => ⟨tPl s c o.wg o.ctx (tRec o) o.blk (sfEz (tSF ws t)) x.1, x.2, t.tag, t.tag, false⟩, e.2)
/-- Whether TST ends with BADDESC (R308). -/
def storeBad (s : State) (c : Nat) (ws : List DWord) (o : TileOp) (t : Tile) : Bool :=
  let b := o.blk
  tBad b || t.kind == 3 || bf b 106 2 == 2 || (bfb b 29 && t.kind != 2) ||
    sideBad s c b (tRec o) (sfEz (tSF ws t)) ((storeEls s c ws o t).1.map (·.pl))
/-- The accesses that TST makes. -/
def storeAccs (s : State) (c : Nat) (ws : List DWord) (o : TileOp) (t : Tile) : List Acc :=
  accsOf (sideTag o.blk (tRec o)) (elBytes (sfEz (tSF ws t))) ((storeEls s c ws o t).1.map (·.pl))
/-- Accesses of TST, those that `which` names or all that are left, write at their homes. -/
def storeSome (s : State) (c : Nat) (ws : List DWord) (o : TileOp) (t : Tile) (which : List Nat) : TRun :=
  let as := storeAccs s c ws o t
  let now := (accLeft as.length o.placed which).filterMap (as[·]?)
  if now.any (accWaits s false) then .wait
  else
    let x := accHomes (tEng s c o) now s
    match x.1 with
    | .fault v k i a => .fault x.2 v k i a
    | .world => .done x.2 (.fail 3)
    | .ok hs =>
      let s1 := hs.foldl (putAcc (fun s va n l => noteWrite s o.ctx o.seq va n l) (sfEz (tSF ws t)) (storeEls s c ws o t).1) x.2
      .done (tallyLines s1 1 (recPol (tRec o)) (hs.filterMap (·.2))) .keep
/-- TST (R308). -/
def runStore (s : State) (c : Nat) (ws : List DWord) (o : TileOp) (t : Tile) : TRun :=
  if storeBad s c ws o t then .done s (.fail 3)
  else
    match storeSome s c ws o t [] with
    | .done s1 .keep =>
      let e := storeEls s c ws o t
      let s2 := addOob s1 c o.slot o.tid (plOuts (e.1.map (·.pl)))
      .done (updTeam s2 c o.slot fun u => if u.tid = o.tid then { u with fltstat := u.fltstat ||| BitVec.ofNat 64 (e.2 % 32) } else u) .keep
    | r => r
/-- The lowest cluster-bound level of a launch (R286). -/
def clusterLevel (ws : List DWord) : Option Nat := (List.range 8).find? fun n => decide (2 ≤ n) && decide (n ≤ recTop ws) && recBind ws n == 1
/-- The workgroup on core `k` of the cluster in the same unit as workgroup `w` of core `c` (R286). -/
def remoteWg (s : State) (c : Nat) (w : Wg) (ws : List DWord) (k : Nat) : Option (Nat × Wg) :=
  match clusterLevel ws with
  | none => none
  | some L =>
    let g := clusterOf c * Config.coresPerCluster + k
    let q := getCore s g
    let key (x : Wg) : List Nat := x.unit.drop (L - wgLevel ws)
    let ok (x : Wg) : Bool := x.ctx == w.ctx && x.seq == w.seq && key x == key w && x.ended.length != x.teams
    match q.teams.find? fun e => q.wgs.any fun x => x.id == e.2.wg && ok x with
    | some e => some (g, getWg s g e.2.wg)
    | none => none
/-- Remote flag, core and tile of operand A (0) or B (1) (R303). -/
def operandOf (b : List DWord) (which : Nat) : Bool × Nat × Nat :=
  if which = 0 then (bfb b 49, bf b 44 5, bf b 32 6) else (bfb b 55, bf b 50 5, bf b 38 6)
/-- An operand: a local tile, a tile served, REMOTE where no workgroup has it, or not yet served. -/
inductive TArg where
  | tile (t : Tile)
  | remote
  | wait
def argOf (s : State) (c : Nat) (w : Wg) (ws : List DWord) (o : TileOp) (which : Nat) : TArg :=
  let x := operandOf o.blk which
  if !x.1 then .tile (fullTile s c w ws x.2.2)
  else match if which = 0 then o.remA else o.remB with
    | some t => .tile t
    | none => if decide (x.2.1 < 24) && (remoteWg s c w ws x.2.1).isSome then .wait else .remote
/-- First granule of the dense storage that an operation's groups enter: allocated ahead, or the destination's own (R297). -/
def denseAt (o : TileOp) (t : Tile) : Nat := o.room.getD t.uofs
/-- What a product needs, with the scales of `sc`, for the groups up to `hi`: the groups done are those that KPROG counts (R298). -/
def mulIn (s : State) (c : Nat) (w : Wg) (ws : List DWord) (o : TileOp) (t : Tile) (hi : Nat) (sc : List Nat × List Nat) : MulIn :=
  let f (xs : List Nat) : List FV := xs.map (decF fp32)
  let old := if t.kprog = 0 then []
    else poolMat (getCore s c).bytes (granuleByte w (denseAt o t)) (tWidth ws t) (native (tFmt ws t)) t.rows t.cols
  ⟨nth 0 o.blk 2, nth 0 o.blk 3, f sc.1, f sc.2, t.kprog, hi, old, s.freshCount⟩
/-- The places of the scales of a dense product: one for each row of A and column of B, or one for all under SCALE = 2 (R293). -/
def scalePls (ws : List DWord) (o : TileOp) (t a b : Tile) : List Pl :=
  let slot := recSlot ws t.slot.toNat
  let side (lo n : Nat) : List Pl :=
    (List.range n).map fun k => globPl (ngetD 0 o.recs (slotScb slot)) 3 (sx (bf o.blk lo 32) 32 + (if slotScale slot = 2 then 0 else (k : Int)))
  side 256 a.rows ++ side 288 b.cols
/-- Whether a product reads scales (R293). -/
def takesScales (ws : List DWord) (o : TileOp) (t a b : Tile) : Bool :=
  isDense a b (nth 0 o.blk 2) && slotScale (recSlot ws t.slot.toNat) != 0 && t.kind != 3 && o.scs.isNone
/-- The scales of a dense product, as FP32 bits, read before its first group (R293). A record of the other world gives WORLD (R34). -/
def mulScales (s : State) (c : Nat) (ws : List DWord) (o : TileOp) (t a b : Tile) : State × Got (List Nat × List Nat) :=
  let r := ngetD 0 o.recs (slotScb (recSlot ws t.slot.toNat))
  if !takesScales ws o t a b then (s, .ok (o.scs.getD ([], [])))
  else if brWld r != (getCore s c).world then (s, .world)
  else
    let pls := scalePls ws o t a b
    let as := accsOf false 4 pls
    let x := accAll (tEng s c o) (opAhead o as) as s
    match x.1 with
    | .fault v k i q => (x.2, .fault v k i q)
    | .world => (x.2, .world)
    | .ok vs =>
      let xs := pls.map (elBits 3 (accVal vs))
      (tallyLines (takeAccs x.2 o vs) 0 (recPol r) (accLocs vs), .ok (xs.take a.rows, xs.drop a.rows))
/-- TMUL and TADD (R309). -/
def runMul (s : State) (c : Nat) (w : Wg) (ws : List DWord) (o : TileOp) (t : Tile) (mul : Bool) : TRun :=
  let b := o.blk
  if tBad b || (bf b 64 32 != 0 && !bfb b 49 && !(mul && bfb b 55)) then .done s (.fail 3)
  else
    match argOf s c w ws o 0, if mul then argOf s c w ws o 1 else .tile noTile with
    | .remote, _ => .done s (.fail 4)
    | _, .remote => .done s (.fail 4)
    | .tile a, .tile bt =>
      if mul then
        let x := mulScales s c ws o t a bt
        match x.2 with
        | .fault v k i q => .fault x.1 v k i q
        | .world => .done x.1 (.fail 3)
        | .ok sc =>
          let fast := isDense a bt (nth 0 b 2) && slotFast (recSlot ws t.slot.toNat)
          .done (if fast then { x.1 with freshCount := x.1.freshCount + t.rows * t.cols } else x.1)
            (mulRes ws a bt t (mulIn x.1 c w ws o t 8 sc))
      else .done s (addRes ws a t (mulIn s c w ws o t 8 ([], [])))
    | _, _ => .wait
/-- The tile whose descriptor takes the status (R304). -/
def statusTile (o : TileOp) : Nat := match o.kind with | .tst => o.src | _ => o.dst
/-- Run an operation from its operands. -/
def runOp (s : State) (c : Nat) (o : TileOp) : TRun :=
  let w := getWg s c o.wg
  let ws := (getLaunch s o.ctx o.seq).words
  let t := fullTile s c w ws (statusTile o)
  match o.kind with
  | .talloc => .done s (allocRes ws t o.fslot o.blk)
  | .tfree => .done s (.desc noTile)
  | .tzero => .done s (if t.kind = 3 then .fail 3 else .ok 0 0 ⟨[], [], []⟩ 0 0)
  | .tld => runLoad s c ws o t false
  | .tlr => runLoad s c ws o t true
  | .tst => runStore s c ws o t
  | .tmul => runMul s c w ws o t true
  | .tadd => runMul s c w ws o t false
  | .trnd => .done s (rndRes ws t)
  | .tdns => .done s (dnsRes ws t)
  | .tfac => .done s (facRes ws t)
  | .ttrs how => .done s (trsRes ws (fullTile s c w ws o.src) t how)
  | .recv x => .done s (recvRes ws t x)

/-! ### Scoreboard (R284, R285) -/

/-- Local tiles that an operation reads. -/
def opReads (o : TileOp) : List Nat :=
  match o.kind with
  | .talloc | .tfree | .tzero | .tld | .tlr | .recv _ => []
  | .tst => [o.src]
  | .tmul => (List.range 2).filterMap (fun k => let x := operandOf o.blk k; if x.1 then none else some x.2.2) ++ [o.dst]
  | .tadd => (let x := operandOf o.blk 0; if x.1 then [] else [x.2.2]) ++ [o.dst]
  | .trnd | .tdns | .tfac => [o.dst]
  | .ttrs _ => [o.src, o.dst]
/-- Tiles that an operation writes. -/
def opWrites (o : TileOp) : List Nat := match o.kind with | .tst => [] | _ => [o.dst]
/-- Whether two lists share an element. -/
def meets (a b : List Nat) : Bool := a.any b.contains
/-- Whether operation `y` fetches a remote operand from tile `n` of workgroup `wg` on core `c`. -/
def fetches (s : State) (c : Nat) (y : TileOp) (wg n : Nat) : Bool :=
  (match y.kind with | .tmul => [0, 1] | .tadd => [0] | _ => []).any fun k =>
    let x := operandOf y.blk k
    x.1 && x.2.2 == n &&
    (match remoteWg s c (getWg s c y.wg) (getLaunch s y.ctx y.seq).words x.2.1 with
     | some g => g.1 == c && g.2.id == wg
     | none => false)
/-- Whether `y` may start beside the earlier, unfinished `x` (R285). -/
def mayPass (s : State) (c : Nat) (x y : TileOp) : Bool :=
  (x.wg != y.wg || (!meets (opWrites x) (opReads y ++ opWrites y) && !meets (opReads x) (opWrites y))) &&
  (opWrites x).all fun n => !fetches s c y x.wg n
/-- Operations accepted before `id`. -/
def earlierOps (s : State) (c id : Nat) : List TileOp := (getCore s c).tops.takeWhile fun o => o.id != id
/-- Operation `id` of a core. -/
def getOp (s : State) (c id : Nat) : Option TileOp := (getCore s c).tops.find? fun o => o.id == id
/-- Replace an operation. -/
def putOp (s : State) (c : Nat) (o : TileOp) : State :=
  updCore s c fun k => { k with tops := k.tops.map fun q => if q.id = o.id then o else q }
/-- Lines that a delivery takes on its way to its receiver (R286, R287). -/
def deliveryLines (s : State) (d : Delivery) : Nat :=
  let g := granules (getLaunch s d.ctx d.seq).words d.val d.val.kind d.val.rank
  16 * (g.1 + g.2)
/-- The receiving workgroup of a delivery sent from core `c`. -/
def receiver (s : State) (c : Nat) (d : Delivery) : Option (Nat × Wg) :=
  let ws := (getLaunch s d.ctx d.seq).words
  remoteWg s c { (default : Wg) with ctx := d.ctx, seq := d.seq, unit := d.unit } ws (d.core % Config.coresPerCluster)
/-- Lines that the cluster's multicast buffer holds. -/
def bufferUsed (s : State) (c : Nat) : Nat :=
  ((List.range Config.coresPerCluster).map fun k =>
    ((getCore s (clusterOf c * Config.coresPerCluster + k)).deliveries.map fun d => d.sent - d.drained).sum).sum
/-- Whether a core's engine stalls with the rest of a delivery: the multicast buffer is full and the receiver has not started (R287). -/
def stalled (s : State) (c : Nat) : Bool :=
  (getCore s c).deliveries.any fun d =>
    decide (d.sent < deliveryLines s d) && ctxActive s d.ctx && (receiver s c d).isNone && decide (64 ≤ bufferUsed s c)
/-- TILE_OP_START (R285, R228). -/
def execTileOpStart (core op : Nat) (s : State) : Host.Outcome State Fault Refusal :=
  match getOp s core op with
  | some o =>
    .next (if !o.started && !s.gated && !stalled s core && ctxActive s o.ctx && acqReady s core o.tid o.acq o.first &&
        (earlierOps s core op).all (fun x => mayPass s core x o) then putOp s core { o with started := true } else s)
  | none => .next s
/-- Deliveries of a served operand to the cores of the mask (R287, R350). -/
def deliveriesOf (c : Nat) (w : Wg) (o : TileOp) (which : Nat) (t : Tile) : List Delivery :=
  let mask := bf o.blk 64 32
  let mine := if bfb o.blk 49 then 0 else 1
  if which ≠ mine then []
  else ((List.range 24).filter fun k => bit mask k).map fun k =>
    ⟨o.id, clusterOf c * Config.coresPerCluster + k, bf o.blk 96 6, o.ctx, o.seq, w.unit, t, 0, 0⟩
/-- The operation with a remote operand served. The copies that its mask asks for have left with it: they are not made again where a
suspension makes the operation fetch the operand once more (R299; log entry 54). -/
def withRemote (o : TileOp) (which : Nat) (t : Tile) : TileOp :=
  let mine := if bfb o.blk 49 then 0 else 1
  let o1 := if which = mine then { o with blk := setNth o.blk 1 (nth 0 o.blk 1 &&& 0xFFFFFFFF00000000) } else o
  if which = 0 then { o1 with remA := some t } else { o1 with remB := some t }
/-- REMOTE_TILE_SERVE (R286): operand `operand` (0 A, 1 B) of an operation that has started is copied once its FE is 1. -/
def execRemoteTileServe (core op operand : Nat) (s : State) : Host.Outcome State Fault Refusal :=
  match getOp s core op with
  | some o =>
    let x := operandOf o.blk operand
    let w := getWg s core o.wg
    let ws := (getLaunch s o.ctx o.seq).words
    let used := match o.kind with | .tmul => decide (operand < 2) | .tadd => operand == 0 | _ => false
    let rem := if operand = 0 then o.remA else o.remB
    if o.started && used && x.1 && rem.isNone && !tBad o.blk && decide (x.2.1 < 24) then
      match remoteWg s core w ws x.2.1 with
      | some g =>
        let t := fullTile s g.1 g.2 ws x.2.2
        if t.fe && !stalled s g.1 then
          let s1 := consumeTile s g.1 g.2 ws t o.ctx o.seq
          .next (updCore (putOp s1 core (withRemote o operand t)) core fun k => { k with deliveries := k.deliveries ++ deliveriesOf core w o operand t })
        else .next s
      | none => .next s
    else .next s
  | none => .next s

/-! ### Commit (R285, R290, R291, R349) -/

/-- Where the result of an operation goes: the room that it has allocated ahead (R297), or by R283. -/
def placeFor (ws : List DWord) (w : Wg) (n : Nat) (t : Tile) (room : Option Nat) (kind rank : Nat) : Option (Nat × Nat) :=
  match room with
  | some g => if kind = 1 then some (g, t.vofs) else place ws w n t kind rank
  | none => place ws w n t kind rank
/-- The destination after an outcome, with the values to be written into its pool lines, the status and the flags (R283, R290). -/
def settle (ws : List DWord) (w : Wg) (n : Nat) (t : Tile) (room : Option Nat) (sofar : Nat) (r : TRes) : Tile × Nat × Nat :=
  match r with
  | .fail st => ({ t with status := st, kprog := 0 }, st, 0)
  | .keep => ({ t with status := 0, kprog := 0 }, 0, 0)
  | .desc t' => ({ t' with status := 0, fe := t.fe }, 0, 0)
  | .ok kind rank val tag f =>
    match placeFor ws w n t room kind rank with
    | none => ({ t with status := 1, kprog := 0 }, 1, 0)
    | some (u, v) =>
      let fl := f ||| sofar
      let tg : Tag := if kind = 0 then BitVec.ofNat 6 (fmtP (tFmt ws t)) else if specialVal (tSF ws t) val then 0 else BitVec.ofNat 6 tag
      ({ t with
        kind := kind, rank := rank, val := val, tag := tg, status := 0, flags := t.flags ||| BitVec.ofNat 5 fl,
        satf := t.satf || fl.testBit 5, uofs := u, vofs := v, kprog := 0 }, 0, fl % 32)
/-- Whether an outcome changes the granule counts that the tile holds (R285), of either run (log entry 83). -/
def resizes (ws : List DWord) (t : Tile) (r : TRes) : Bool :=
  match r with
  | .ok kind rank .. => granules ws t kind rank != granules ws t t.kind t.rank
  | .desc t' => granules ws t' t'.kind t'.rank != granules ws t t.kind t.rank
  | _ => false
/-- Status of the completion word (R302). -/
def wordStatus (st : Nat) : Nat := match st with | 0 => 0 | 1 => 7 | 2 => 8 | 3 => 3 | _ => 9
/-- The trap that the team owes for ALLOC or KIND (R290); a delivery owes none. -/
def owe (o : TileOp) (st : Nat) (t : Team) : Team :=
  match o.kind with
  | .recv _ => t
  | _ =>
    if t.tid = o.tid ∧ (st = 1 ∨ st = 2) then
      { t with owed := t.owed ++ [⟨if st = 1 then 7 else 8, 0, o.pc, 0, 0, BitVec.ofNat 64 o.dst, [], false⟩] }
    else t
/-- End the operation: descriptor, FE, FLTSTAT, owed trap, completion word, event; its entry leaves the scoreboard. -/
def endOp (s : State) (c : Nat) (o : TileOp) (r : TRes) : State :=
  let w := getWg s c o.wg
  let ws := (getLaunch s o.ctx o.seq).words
  let n := statusTile o
  let x := settle ws w n (getTile w n) o.room o.sofar r
  let rest := (getCore s c).tops.filter fun q => q.id != o.id
  let busy := rest.any fun q => q.wg == o.wg && (opWrites q).contains n
  let y : Tile := if (opWrites o).isEmpty then x.1 else { x.1 with fe := !busy }
  let s1 := putTile (if x.1.val = ⟨[], [], []⟩ then s else putVal s c w ws x.1) c o.wg n { y with val := ⟨[], [], []⟩ }
  let s2 := updTeam s1 c o.slot fun t =>
    owe o x.2.1 (if t.tid = o.tid then { t with fltstat := t.fltstat ||| BitVec.ofNat 64 x.2.2 } else t)
  let s3 := if o.blk.isEmpty then s2 else writeCompletion s2 c o.slot o.tid o.ctx o.seq o.rgncnt o.blk (wordStatus x.2.1) 0
  let s4 := updCore s3 c fun k => { k with tops := rest }
  let s5 := if o.blk.isEmpty then s4 else signalEvent s4 o.ctx o.blk
  reapWg (monitor (pulse s5 o.ctx) (monTile c) o.born) c o.wg
/-- The operation is held at an access whose translation failed (R365). -/
def holdOp (s : State) (c : Nat) (o : TileOp) (va cause info acc : Nat) : State :=
  queueFault (putOp s c { o with fault := cause }) o.ctx
    ⟨cause, 3, acc, c, o.slot, 0, 0, o.pc, 0, 0, va, 0, BitVec.ofNat 64 (engInfo cause info (statusTile o)), o.rgncnt, o.id⟩
/-- Whether a delivery of the operation has still to leave the engine (R287). -/
def delivering (s : State) (c id : Nat) : Bool := (getCore s c).deliveries.any fun d => d.op == id && decide (d.sent < deliveryLines s d)
/-- K-steps that a dense product has taken since it last stood still (R292, R298). -/
def kSteps (s : State) (c : Nat) (o : TileOp) : Nat :=
  match o.kind with
  | .tmul =>
    let w := getWg s c o.wg
    let ws := (getLaunch s o.ctx o.seq).words
    match argOf s c w ws o 0, argOf s c w ws o 1 with
    | .tile a, .tile b => if isDense a b (nth 0 o.blk 2) then groups a.cols - (getTile w o.dst).kprog else 0
    | _, _ => 0
  | _ => 0
/-- The accesses that an operation's reading makes ahead of its commit: the image of a load, the scales of a product (R216). -/
def opAccs (s : State) (c : Nat) (o : TileOp) : List Acc :=
  let w := getWg s c o.wg
  let ws := (getLaunch s o.ctx o.seq).words
  let t := fullTile s c w ws (statusTile o)
  let load (low : Bool) : List Acc := if (loadBad s c ws o t low).isNone then loadAccs s c ws o t low else []
  match o.kind with
  | .tld => load false
  | .tlr => load true
  | .tmul =>
    match argOf s c w ws o 0, argOf s c w ws o 1 with
    | .tile a, .tile b =>
      if takesScales ws o t a b && !tBad o.blk && brWld (ngetD 0 o.recs (slotScb (recSlot ws t.slot.toNat))) == (getCore s c).world then
        accsOf false 4 (scalePls ws o t a b)
      else []
    | _, _ => []
  | _ => []
/-- One access of an operation reads ahead of its commit. -/
def opReadAhead (c id : Nat) (s : State) (k : Nat) : State :=
  match getOp s c id with
  | none => s
  | some o =>
    match (opAccs s c o)[k]? with
    | none => s
    | some a =>
      if o.fault != 0 || (aheadOf o.early k).isSome || accWaits s true a then s
      else
        let x := accNow s (tEng s c o) a
        match x.1 with
        | .ok v => putOp x.2 c { o with early := o.early ++ [(k, BitVec.ofNat 80 v.1)] }
        | .fault v j i q => holdOp x.2 c o v j i q
        | .world => s
/-- Accesses of an operation are performed ahead of its commit: reads of a load or of scales, and writes of TST, which show nothing before what a REL
releases (R216, R228). -/
def opParts (s : State) (c : Nat) (o : TileOp) (which : List Nat) : State :=
  match o.kind with
  | .tst =>
    let ws := (getLaunch s o.ctx o.seq).words
    let t := fullTile s c (getWg s c o.wg) ws o.src
    if storeBad s c ws o t || !relReady s c o.tid o.rel o.first then s
    else
      match storeSome s c ws o t which with
      | .done s1 .keep => putOp s1 c { o with placed := o.placed ++ accLeft (storeAccs s c ws o t).length o.placed which }
      | .fault s1 v k i a => holdOp s1 c o v k i a
      | _ => s
  | _ => which.foldl (opReadAhead c o.id) s
/-- Count the K-steps of an operation that has not failed (R458). -/
def tallyK (s : State) (c : Nat) (o : TileOp) (r : TRes) : State :=
  match r with
  | .fail _ => s
  | _ => if kSteps s c o = 0 then s else tally s c 11 (kSteps s c o)
/-- An operation's launch takes the values of its local operands, poisoned or not (R448). -/
def consumeArgs (s : State) (c : Nat) (o : TileOp) : State :=
  let w := getWg s c o.wg
  let ws := (getLaunch s o.ctx o.seq).words
  (opReads o).foldl (fun s n => consumeTile s c w ws (getTile w n) o.ctx o.seq) s
/-- TILE_OP_COMMIT (R285, R288 to R292, R305 to R312). With REL it shows nothing before the team's earlier accesses (R228). Where accesses are
named, these alone are performed, and the operation does not end. -/
def execTileOpCommit (core : Nat) (x : Parts) (s : State) : Host.Outcome State Fault Refusal :=
  match getOp s core x.id with
  | some o =>
    if !(o.started && o.fault == 0 && ctxActive s o.ctx && !delivering s core x.id && !stalled s core) then .next s
    else if !x.which.isEmpty then .next (opParts s core o x.which)
    else if !relReady s core o.tid o.rel o.first then .next s
    else
      match runOp s core o with
      | .wait => .next s
      | .fault s1 v k i a => .next (holdOp s1 core o v k i a)
      | .done s1 r =>
        let w := getWg s core o.wg
        let ws := (getLaunch s o.ctx o.seq).words
        if resizes ws (getTile w (statusTile o)) r && !(earlierOps s core x.id).isEmpty then .next s
        else .next (endOp (tallyK (consumeArgs s1 core o) core o r) core o r)
  | none => .next s

/-! ### Suspension (R297 to R299, R382) -/

/-- Whether an operation is in place: TMUL or TADD whose destination is D before and after, or Z before with a D·D product, and is neither
operand (R297). -/
def inPlace (s : State) (c : Nat) (o : TileOp) : Bool :=
  let w := getWg s c o.wg
  let ws := (getLaunch s o.ctx o.seq).words
  let t := getTile w o.dst
  let own (k : Nat) : Bool := let x := operandOf o.blk k; !x.1 && x.2.2 == o.dst
  let after : Bool := match runOp s c o with | .done _ (.ok kind ..) => kind == 1 | _ => false
  match o.kind, argOf s c w ws o 0, argOf s c w ws o 1 with
  | .tmul, .tile a, .tile b =>
    !own 0 && !own 1 && ((isDense a b (nth 0 o.blk 2) && (t.kind == 1 || t.kind == 0)) || (t.kind == 1 && after))
  | .tadd, .tile _, _ => !own 0 && t.kind == 1 && after
  | _, _, _ => false
/-- An in-place operation has allocated its dense storage, read its scales and completed its first `n` groups: the destination's storage holds
their accumulators (R297). TADD has no groups: it starts again. Nothing of it where the product is turned away, storage is short or an earlier
operation may still move storage (R285). -/
def runAhead (s : State) (c : Nat) (o : TileOp) (n : Nat) : State :=
  let w := getWg s c o.wg
  let ws := (getLaunch s o.ctx o.seq).words
  let t := fullTile s c w ws o.dst
  let room : Option Nat :=
    if t.kind = 1 then some t.uofs
    else if o.room.isSome then o.room
    else if (earlierOps s c o.id).isEmpty then (place ws w o.dst t 1 0).map (·.1) else none
  match if o.kind = .tmul then argOf s c w ws o 0 else .remote, argOf s c w ws o 1, room with
  | .tile a, .tile b, some g =>
    let o1 := { o with started := false, room := if t.kind = 1 then none else some g }
    let x := mulScales s c ws o t a b
    match x.2 with
    | .ok sc =>
      let m := mulIn x.1 c w ws o1 t n sc
      if mulBad ws a b t m || !isDense a b m.al then putOp s c { o with started := false }
      else if min n (groups a.cols) ≤ t.kprog then putOp s c o1
      else
        let r := mulDense ws a b t m
        let s1 := putOp (consumeArgs x.1 c o) c { o1 with scs := some sc, sofar := o.sofar ||| r.2 }
        let s2 := putRun { s1 with freshCount := s1.freshCount + t.rows * t.cols } c w ws t g (native (tFmt ws t)) r.1
        putTile (tally s2 c 11 (min n (groups a.cols) - t.kprog)) c o.wg o.dst { getTile w o.dst with kprog := min n (groups a.cols) }
    | _ => putOp s c { o with started := false }
  | _, _, _ => putOp s c { o with started := false }
/-- The engine stops an operation of a suspending context (R298, R382). An in-place one ends at a K-step boundary: `done` lists, for an
operation that has allocated its storage, the groups that it has completed. Any other is abandoned, restarts whole and reads its remote
operands again (R299). -/
def stopOp (c : Nat) (done : List (Nat × Nat)) (s : State) (o : TileOp) : State :=
  if !o.started then s
  else if inPlace s c o then
    match done.find? fun e => e.1 == o.id with
    | some e => runAhead s c o e.2
    | none => putOp s c { o with started := false }
  else putOp s c { o with started := false, remA := none, remB := none, early := [], placed := [] }

/-! ### Multicast (R287, R350) -/

/-- Accept a delivery on its receiver, as a write of the tile after every operation accepted there. -/
def acceptDelivery (s : State) (d : Delivery) (w : Wg) : State :=
  let o : TileOp := { (default : TileOp) with
    id := s.nextId, ctx := d.ctx, seq := d.seq, wg := w.id, kind := .recv d.val, dst := d.tile, first := 0 }
  let s1 := updCore { s with nextId := s.nextId + 1 } d.core fun k => { k with tops := k.tops ++ [o] }
  putTile s1 d.core w.id d.tile { getTile w d.tile with fe := false }
/-- Remove a delivery. -/
def dropDelivery (s : State) (c : Nat) (d : Delivery) : State :=
  updCore s c fun k => { k with deliveries := k.deliveries.filter (· != d) }
/-- Whether some team of the receiving unit has yet to start. -/
def unitPending (s : State) (c : Nat) (d : Delivery) : Bool :=
  let q := getLaunch s d.ctx d.seq
  match clusterLevel q.words with
  | none => false
  | some L =>
    let key (l : List Nat) : List Nat := l.drop (L - 1)
    let mine := d.unit.drop (L - wgLevel q.words)
    let same (l : List Nat) : Bool := (key l).take mine.length == mine
    let here := ((List.range Config.coresPerCluster).map fun k =>
      ((getCore s (clusterOf c * Config.coresPerCluster + k)).teams.filter fun e => e.2.ctx == d.ctx && e.2.seq == d.seq && same e.2.lvl).length).sum
    decide (here + (q.ended.filter same).length < teamsIn q.words L)
/-- Replace a delivery of core `c`. -/
def putDelivery (s : State) (c : Nat) (d e : Delivery) : State :=
  updCore s c fun k => { k with deliveries := k.deliveries.map fun x => if x = d then e else x }
/-- As many lines of a delivery enter the cluster's buffer as it has room for (R287). -/
def sendLines (s : State) (c : Nat) (d : Delivery) : State :=
  putDelivery s c d { d with sent := d.sent + min (64 - bufferUsed s c) (deliveryLines s d - d.sent) }
/-- A delivery whose workgroup has ended is dropped, and its sender's core counts it (R287). -/
def loseDelivery (s : State) (c : Nat) (d : Delivery) : State :=
  updCore (dropDelivery s c d) c fun k => { k with dropped := k.dropped + 1 }
/-- MULTICAST_DELIVERY (R287, R350): a receiver that has started accepts what comes, once nothing of the delivery is left in the buffer; for
one that has not, lines enter the buffer as far as its 64 lines go; a delivery whose workgroup has ended is dropped and counted. -/
def execMulticastDelivery (core op target : Nat) (s : State) : Host.Outcome State Fault Refusal :=
  match (getCore s core).deliveries.find? fun d => d.op == op && d.core == target with
  | some d =>
    match receiver s core d with
    | some g => .next (if d.sent = d.drained then acceptDelivery (dropDelivery s core d) d g.2 else sendLines s core d)
    | none => .next (if unitPending s core d then sendLines s core d else loseDelivery s core d)
  | none => .next s
/-- The lines of a delivery that the buffer holds leave it for the tile of a receiver that has started, which accepts the delivery with the
last of them (R287); the lines of a delivery whose workgroup has ended leave it too. -/
def drainDelivery (c : Nat) (s : State) (d : Delivery) : State :=
  match receiver s c d with
  | some g => if d.sent = deliveryLines s d then acceptDelivery (dropDelivery s c d) d g.2 else putDelivery s c d { d with drained := d.sent }
  | none => if unitPending s c d then s else loseDelivery s c d
/-- MULTICAST_BUFFER_DRAIN (R287): the buffer drains into the tiles of core `core`. -/
def execMulticastBufferDrain (core : Nat) (s : State) : Host.Outcome State Fault Refusal :=
  .next ((List.range Config.coresPerCluster).foldl
    (fun s k =>
      let from_ := clusterOf core * Config.coresPerCluster + k
      (getCore s from_).deliveries.foldl (fun s d => if d.core == core && decide (d.drained < d.sent) then drainDelivery from_ s d else s) s) s)

/-! ### Issue (R300, R304 to R314) -/

/-- The trap that a tile instruction takes for an earlier failure (R290). -/
def owedTrap (i : Issue) : Option TrapInfo :=
  match i.t.owed.find? (owedOn i.t) with
  | some o => some { o with tpc := i.pc, mask := i.act }
  | none => none
/-- Room in the engine's queue (R284). -/
def engineRoom (i : Issue) : Bool := decide ((getCore i.s i.core).tops.length < 32)
/-- Accept an operation (R285): the destination's FE becomes 0. -/
def accept (i : Issue) (x : EN) (kind : TKind) (dst src : Nat) (b : List DWord) : State :=
  let o : TileOp :=
    { id := i.s.nextId, ctx := i.t.ctx, seq := i.t.seq, wg := i.t.wg, slot := i.slot, tid := i.t.tid, pc := i.pc, kind := kind,
      dst := dst, src := src, fslot := x.slot, blk := b, recs := i.t.bufs, acq := x.acq, rel := x.rel, scope := x.scope,
      first := i.s.nextId, started := false, remA := none, remB := none, fault := 0, rgncnt := i.t.rgncnt, gone := [],
      born := i.s.clock, scs := none, room := none, sofar := 0, early := [], placed := [] }
  let s1 := setTeam { i.s with nextId := i.s.nextId + 1 } i.core i.slot { i.t with owed := [] }
  let s2 := updCore s1 i.core fun k => { k with tops := k.tops ++ [o] }
  if (opWrites o).isEmpty then s2 else putTile s2 i.core i.t.wg dst { getTile (getWg s2 i.core i.t.wg) dst with fe := false }
/-- Whether the tiles that a TMUL's or TADD's block names lie within the declared count, which all workgroups of a launch share (R28,
R304). -/
def namedOk (i : Issue) (kind : TKind) (b : List DWord) : Bool :=
  let fits (n : Nat) : Bool := decide (n < (getWg i.s i.core i.t.wg).tileCount)
  let cast : Bool := bf b 64 24 == 0 || fits (bf b 96 6)
  match kind with
  | .tmul => fits (bf b 32 6) && fits (bf b 38 6) && cast
  | .tadd => fits (bf b 32 6) && cast
  | _ => true
/-- A tile operation with a parameter block. `mem` where it may name MREC. -/
def tileBlk (ins : Instr) (kind : TKind) (mem : Bool) (x : EN) (s : State) : Host.Outcome State Fault Refusal :=
  let tile := match kind with | .tst => x.a.o | _ => x.d
  issue x.h ins.wf x.rel (fun s c t => tileOk s c t tile)
    (fun i =>
      withBlock i x (engineRoom i) (owedTrap i) fun b =>
        if mem && bf b 106 2 == 0 && !recIsBound i.t (bf b 102 4) then .trap (trapAt 1 i.pc i.exec)
        else if !namedOk i kind b then .trap (trapAt 1 i.pc i.exec)
        else if bf b 88 8 != 0 then .trap (trapAt 1 i.pc i.exec)
        else .go (accept i x kind (xNum x.d) (xNum x.a.o) b)) s
/-- A tile operation without one. -/
def tileOne (ins : Instr) (kind : TKind) (src : Bool) (x : EN) (s : State) : Host.Outcome State Fault Refusal :=
  issue x.h ins.wf x.rel (fun s c t => tileOk s c t x.d && (!src || tileOk s c t x.a.o))
    (fun i =>
      if !engineRoom i then .wait
      else match owedTrap i with
        | some ti => .trap ti
        | none => .go (accept i x kind (xNum x.d) (xNum x.a.o) [])) s
/-- TALLOC (R305). -/
def execTalloc (x : EN) (s : State) : Host.Outcome State Fault Refusal := tileBlk (.talloc x) .talloc false x s
/-- TFREE (R306). -/
def execTfree (x : EN) (s : State) : Host.Outcome State Fault Refusal := tileOne (.tfree x) .tfree false x s
/-- TZERO (R306). -/
def execTzero (x : EN) (s : State) : Host.Outcome State Fault Refusal := tileOne (.tzero x) .tzero false x s
/-- TLD (R307). -/
def execTld (x : EN) (s : State) : Host.Outcome State Fault Refusal := tileBlk (.tld x) .tld true x s
/-- TLR (R307). -/
def execTlr (x : EN) (s : State) : Host.Outcome State Fault Refusal := tileBlk (.tlr x) .tlr true x s
/-- TST (R308). -/
def execTst (x : EN) (s : State) : Host.Outcome State Fault Refusal := tileBlk (.tst x) .tst true x s
/-- TMUL (R309). -/
def execTmul (x : EN) (s : State) : Host.Outcome State Fault Refusal := tileBlk (.tmul x) .tmul false x s
/-- TADD (R309). -/
def execTadd (x : EN) (s : State) : Host.Outcome State Fault Refusal := tileBlk (.tadd x) .tadd false x s
/-- TRND (R310). -/
def execTrnd (x : EN) (s : State) : Host.Outcome State Fault Refusal := tileOne (.trnd x) .trnd false x s
/-- TDNS (R310). -/
def execTdns (x : EN) (s : State) : Host.Outcome State Fault Refusal := tileOne (.tdns x) .tdns false x s
/-- TFAC (R311). -/
def execTfac (x : EN) (s : State) : Host.Outcome State Fault Refusal := tileOne (.tfac x) .tfac false x s
/-- TTRS (R312). -/
def execTtrs (x : EN) (s : State) : Host.Outcome State Fault Refusal := tileOne (.ttrs x) (.ttrs (x.imm.toNat % 4)) true x s
/-- Destinations of TINFO: two scalars or four lane registers, with the descriptor's part in each (R313). -/
def infoDsts (d : Opd) : List (Opd × Bool) :=
  match d with
  | .s n => [(.s n, true), (.s (n + 1), true)]
  | .v n => (List.range 4).map fun k => (.v (n + BitVec.ofNat 8 k), false)
  | _ => []
/-- TINFO (R313). -/
def execTinfo (x : EN) (s : State) : Host.Outcome State Fault Refusal :=
  issue x.h (Instr.tinfo x).wf false (fun s c t => tileOk s c t x.a.o && rangeAlloc t x.d 4)
    (fun i =>
      let ds := infoDsts x.d
      match gate i [] ds with
      | some r => r
      | none =>
        match owedTrap i with
        | some ti => .trap ti
        | none =>
          let w := descOf (getTile (getWg i.s i.core i.t.wg) (xNum x.a.o))
          let n := if isS x.d then 64 else 32
          let part (k : Nat) : DWord := BitVec.ofNat 64 (w / 2 ^ (n * k) % 2 ^ n)
          let t := (ds.zip (List.range 4)).foldl (fun t e => putLanes t e.1.1 e.1.2 i.act (fun _ => part e.2) fun _ => 63) { i.t with owed := [] }
          .go (setTeam i.s i.core i.slot (pushUndo i.s t (ds.flatMap fun d => undoOf i.t d.1 d.2)))) s
/-- TWAIT (R314). The writes of the operations that it waited for stand at their homes already; an acquire part waits for logged loads and
read-modify-writes (R367). -/
def execTwait (x : EN) (s : State) : Host.Outcome State Fault Refusal :=
  issue x.h (Instr.twait x).wf false (fun s c t => tileOk s c t x.a.o)
    (fun i =>
      let n := xNum x.a.o
      let w := getWg i.s i.core i.t.wg
      if !(getTile w n).fe || (getCore i.s i.core).tops.any fun o => o.wg == w.id && (opReads o).contains n then .wait
      else if !acqPart i x.acq then .wait
      else match owedTrap i with
        | some ti => .trap ti
        | none => .go (setTeam i.s i.core i.slot { i.t with owed := [] })) s

end Sys2Proof.Machine
end

