-- ==== Sys2Proof/Machine/Zephyr.lean ====
section
/-! DEFINITION. The Zephyr collective engine (R273 to R279, R320, R321). Data of other ranks come with the events; what this device sends is
read from its own memory. -/

namespace Sys2Proof.Machine

/-! ### Communicators and blocks (R273, R320) -/

def commState (e : BitVec 64) : Nat := bits e.toNat 63 62
def commRanks (e : BitVec 64) : Nat := bits e.toNat 61 50 + 1
def commRank (e : BitVec 64) : Nat := bits e.toNat 49 38
def commRoute (e : BitVec 64) : Nat := bits e.toNat 37 24
/-- An entry with another STATE. -/
def withState (e : BitVec 64) (st : Nat) : BitVec 64 := BitVec.ofNat 64 (st * 2 ^ 62 + e.toNat % 2 ^ 62)
def clOp (b : List DWord) : Nat := bf b 0 4
def clFmt (b : List DWord) : Nat := bf b 4 4
def clWords (b : List DWord) : Bool := bfb b 8
def clRoot (b : List DWord) : Nat := bf b 16 12
def clN (b : List DWord) : Nat := bf b 32 32
def clChunk (b : List DWord) : Nat := bf b 64 8 + 1
/-- Whether the operation reduces. -/
def clReduces (b : List DWord) : Bool := decide (2 ≤ clOp b)
/-- Size code of an element: 2^(ez + 2) bits. -/
def clEz (b : List DWord) : Nat := match clFmt b with | 0 => 4 | 1 => 3 | 2 | 3 => 2 | 4 | 5 => 1 | _ => 0
/-- The format of a reduction and its accumulator (R277). -/
def clF (b : List DWord) : Fmt := match clFmt b with | 0 => fp64 | 1 => fp32 | 2 => fp16 | _ => bf16
def clAcc (b : List DWord) : FW := if clFmt b = 0 then .f64 else .f32
/-- Elements of a chunk of C lines. -/
def chunkEls (b : List DWord) : Nat := clChunk b * (256 / 2 ^ clEz b)
/-- Chunks of a segment as they are sent. -/
def chunkCount (b : List DWord) : Nat := (clN b + chunkEls b - 1) / chunkEls b
/-- Element numbers, in the segment, of chunk `k` as it is sent. -/
def chunkRange (b : List DWord) (k : Nat) : List Nat :=
  (List.range (min (chunkEls b) (clN b - k * chunkEls b))).map (k * chunkEls b + ·)
/-- Segments that a rank receives (R276). -/
def segsOf (e : BitVec 64) (b : List DWord) : List Nat := if clOp b = 2 then [commRank e] else List.range (commRanks e)
/-- Element number of segment `k` in the destination, and its signal word (R321). -/
def segBase (b : List DWord) (k : Nat) : Nat := if clOp b = 2 then 0 else k * clN b
def segWord (b : List DWord) (k : Nat) : Nat := if clOp b = 2 then 0 else k
/-- Place of element `j` of a segment in the destination record of a WORDS command. -/
def wordsPl (m : CollCmd) (seg j : Nat) : Pl := globPl m.drec (clEz m.blk) (sx (bf m.blk 128 32) 32 + (segBase m.blk seg + j : Nat))
/-- Number of the 128-B line of a place; none out of bounds. -/
def plLineNo : Pl → Option Nat
  | .glob va _ _ => some (va / 128)
  | _ => none
/-- The destination lines of a segment of a WORDS command, in ascending order (R278). -/
def segLines (m : CollCmd) (seg : Nat) : List Nat := sortAsc ((List.range (clN m.blk)).filterMap fun j => plLineNo (wordsPl m seg j))
/-- Chunks of a received segment (R278): groups of C of the destination's lines under WORDS. A segment out of bounds is one chunk (log entry 83). -/
def landCount (m : CollCmd) (seg : Nat) : Nat :=
  if clWords m.blk then max 1 (((segLines m seg).length + clChunk m.blk - 1) / clChunk m.blk) else chunkCount m.blk
/-- Elements of chunk `k` of a received segment: those in its lines; what is out of bounds goes with the last (log entry 83). -/
def landEls (m : CollCmd) (seg k : Nat) : List Nat :=
  if clWords m.blk then
    let ls := segLines m seg
    let mine := (ls.drop (k * clChunk m.blk)).take (clChunk m.blk)
    (List.range (clN m.blk)).filter fun j =>
      match plLineNo (wordsPl m seg j) with
      | some l => mine.contains l
      | none => k + 1 == landCount m seg
  else chunkRange m.blk k
/-- Elements of a received segment that have landed. -/
def landedEls (m : CollCmd) (seg : Nat) : List Nat := (m.landed.filter fun x => x.1 == seg).flatMap fun x => landEls m seg x.2
/-- Whether every chunk of every received segment has landed. -/
def clLanded (e : BitVec 64) (m : CollCmd) : Bool :=
  (segsOf e m.blk).all fun k => (List.range (landCount m k)).all fun c => m.landed.contains (k, c)
/-- Whether a rank of a reduction has sent every chunk of the segments of other owners (R276). -/
def clSent (e : BitVec 64) (m : CollCmd) : Bool :=
  !clReduces m.blk ||
    (List.range (commRanks e)).all fun k => k == commRank e || (List.range (chunkCount m.blk)).all fun c => m.sent.contains (k, c)
/-- Whether a command has received and sent everything. -/
def clDone (e : BitVec 64) (m : CollCmd) : Bool := clLanded e m && clSent e m
/-- Zephyr as the maker of accesses of a context. -/
def zephyr (s : State) (ctx : Nat) (gone : List Nat) : Eng := ⟨.device, (getCtx s ctx).world, ctx, gone⟩
/-- Entry `c` of the communicator table at virtual address `tab`, as Zephyr reads it: the launch record names the table, none by 0 (R273,
R328). -/
def readComm (s : State) (ctx tab c : Nat) (gone : List Nat) : Got (BitVec 64) × State :=
  if tab = 0 then (.ok 0, s)
  else
    let x := engRead s (zephyr s ctx gone) (tab + 8 * c) 8 0
    match x.1 with
    | .ok y => (.ok (BitVec.ofNat 64 (leNat y.1)), x.2)
    | .fault v k i a => (.fault v k i a, x.2)
    | .world => (.world, x.2)
/-- Communicator `c` of a context's table at `tab`; FREE where the table cannot be read. -/
def getComm (s : State) (ctx tab c : Nat) : BitVec 64 := match (readComm s ctx tab c []).1 with | .ok e => e | _ => 0
/-- Write an entry of a table: system software and Zephyr write it, programs do not (R273). -/
def putComm (s : State) (ctx tab c : Nat) (e : BitVec 64) : State :=
  if tab = 0 then s
  else match (engAt s (zephyr s ctx []) false (tab + 8 * c) 0).1 with
    | .ok (some l) => storeAt s l (leBytes 8 e.toNat)
    | _ => s
/-- A command that a break of its communicator ends with status BROKEN (R275, R279). -/
def brokenBy (m : CollCmd) : CollCmd := if m.status == 0 && !(m.started && clDone m.ent m) then { m with status := 6 } else m
/-- A communicator becomes BROKEN, and the collectives in flight on it end so (R274, R275, R279). -/
def breakComm (s : State) (ctx tab c : Nat) : State :=
  updCtx (putComm s ctx tab c (withState (getComm s ctx tab c) 2)) ctx fun k => { k with
    colls := k.colls.map fun m => if m.comm = c ∧ m.tab = tab then brokenBy m else m }
/-- Place of destination element `j` (R278, R321): the record, or the scratchpad from DIDX on; an element that straddles two lines needs
both. -/
def clDst (s : State) (ctx : Nat) (m : CollCmd) (j : Nat) : Pl :=
  let b := m.blk
  if clWords b then globPl m.drec (clEz b) (sx (bf b 128 32) 32 + j)
  else
    let base := bf b 128 32
    match scrCore m.core base with
    | none => .out
    | some k =>
      let n := base % 2 ^ 20 + j * 2 ^ (clEz b + 2) / 8
      let last := n + elBytes (clEz b)
      if !scrZeroOk base || decide (2 ^ 20 < last) then .out
      else match scrCheck s m.core m.wg ctx k (n / 128), scrCheck s m.core m.wg ctx k ((last - 1) / 128) with
        | .ok, .ok => .scr k n (if clEz b = 0 then j % 2 else 0)
        | .world, _ => .other 0
        | _, .world => .other 0
        | _, _ => .out
/-- Whether a block is a local fault (R321, R278). -/
def clBad (s : State) (ctx : Nat) (e : BitVec 64) (m : CollCmd) : Bool :=
  let b := m.blk
  decide (3 < clOp b) || decide (6 < clFmt b) || (clReduces b && decide (3 < clFmt b)) || clN b == 0 ||
  !tailZero b || bf b 192 64 != 0 || bf b 256 64 != 0 || bf b 320 64 != 0 || bf b 84 12 != 0 || bf b 28 4 != 0 || bf b 9 7 != 0 ||
  (clWords b && brEsize m.wrec != 3) ||
  (!clWords b && (bf b 76 4 != 0 || (segsOf e b).any fun k => (List.range (clN b)).any fun x =>
    match clDst s ctx m (segBase b k + x) with | .scr .. => false | _ => true))
/-- Whether a record named by the block is of the other world. -/
def clOther (wld : Bool) (m : CollCmd) : Bool :=
  brWld m.srec != wld || (clWords m.blk && (brWld m.drec != wld || brWld m.wrec != wld))

/-! ### COLL (R321) -/

/-- Records that the block names are bound. -/
def clBound (t : Team) (b : List DWord) : Bool :=
  recIsBound t (bf b 72 4) && (!clWords b || (recIsBound t (bf b 76 4) && recIsBound t (bf b 80 4)))
/-- The completion tail of a collective (R302). -/
def clTail (s : State) (ctx : Nat) (m : CollCmd) (st : Nat) : State :=
  writeCompletion s m.core m.slot m.tid ctx m.seq m.rgncnt m.blk st m.flags.toNat
/-- The command of an issue. -/
def collOf (i : Issue) (x : EN) (b : List DWord) (n : Nat) : CollCmd :=
  { id := i.s.nextId, core := i.core, slot := i.slot, tid := i.t.tid, seq := i.t.seq, wg := i.t.wg, comm := x.chan.toNat, n := n, blk := b,
    srec := bufOf i.t (bf b 72 4), drec := bufOf i.t (bf b 76 4), wrec := bufOf i.t (bf b 80 4), acq := x.acq, rel := x.rel,
    scope := x.scope, first := i.s.nextId, started := false,
    joinLeft := residentClock i.s i.t.ctx + 2 ^ (getCtx i.s i.t.ctx).joinLog2, arrived := [], landed := [], early := [], placed := [], contrib := [], sent := [], tab := recComm (wordsOf i), ent := 0, flags := 0,
    status := 0, ended := false, pc := i.pc, rgncnt := i.t.rgncnt, fault := 0, gone := [], born := i.s.clock }
/-- Status of a command whose communicator entry is `e`, 0 where it may start (R273, R279, R321). -/
def startStatus (s : State) (ctx : Nat) (e : BitVec 64) (m : CollCmd) : Nat :=
  if commState e = 2 then 6 else if commState e ≠ 1 then 3 else if clBad s ctx e m then 3
  else if clOther (getCore s m.core).world m then 4 else 0
/-- Destination places of the command, by segment and element. -/
def clAll (s : State) (ctx : Nat) (e : BitVec 64) (m : CollCmd) : List (Nat × Nat × Pl) :=
  (segsOf e m.blk).flatMap fun k => (List.range (clN m.blk)).map fun x => (k, x, clDst s ctx m (segBase m.blk k + x))
/-- Scratchpad lines of a place of `n` bytes. -/
def plLines (n : Nat) : Pl → List (Nat × Nat)
  | .scr k b _ => if (b + n - 1) / 128 = b / 128 then [(k, b / 128)] else [(k, b / 128), (k, (b + n - 1) / 128)]
  | _ => []
/-- The LINES destination of a command is emptied when the command is issued (R201). -/
def clEmpty (s : State) (ctx : Nat) (e : BitVec 64) (m : CollCmd) : State :=
  ((clAll s ctx e m).flatMap fun x => plLines (elBytes (clEz m.blk)) x.2.2).foldl (markLine false) s
/-- The command is held at an access whose translation failed (R365, R369). -/
def heldColl (s : State) (ctx : Nat) (m : CollCmd) (va cause info acc : Nat) : State :=
  queueFault s ctx
    ⟨cause, 5, acc, 0, m.slot, 0, 0, m.pc, 0, 0, va, 0, BitVec.ofNat 64 (engInfo cause info m.comm), m.rgncnt, m.id⟩
/-- COLL (R321): a FREE or BROKEN communicator and a local fault end the command at once, after what a REL of it releases (R302); a table that
does not translate holds it. -/
def execColl (x : EN) (s : State) : Host.Outcome State Fault Refusal :=
  issue x.h (Instr.coll x).wf x.rel (fun _ _ _ => true)
    (fun i =>
      let ctx := i.t.ctx
      withBlock i x (decide ((getCtx i.s ctx).colls.length < 64)) none fun b =>
        if !clBound i.t b then .trap (trapAt 1 i.pc i.exec)
        else
          let c := x.chan.toNat
          let n := ngetD 0 (getCtx i.s ctx).commNo c
          let m := collOf i x b n
          let h := readComm i.s ctx m.tab c []
          let s1 := spendReplay { h.2 with nextId := i.s.nextId + 1 } ctx i.t.seq
          let s2 := updCtx s1 ctx fun k => { k with commNo := nsetD 0 k.commNo c (n + 1) }
          let take (q : CollCmd) : State := updCtx s2 ctx fun k => { k with colls := k.colls ++ [q] }
          let done (st : Nat) : Res :=
            .go (if relReady i.s m.core m.tid m.rel m.first then signalEvent (clTail s2 ctx m st) ctx b else take { m with status := st })
          match h.1 with
          | .fault v k f a => .go (heldColl (take { m with fault := k }) ctx m v k f a)
          | .world => done 4
          | .ok e =>
            let st := startStatus i.s ctx e m
            if st = 0 then .go (clEmpty (take { m with ent := e }) ctx e m) else done st) s

/-! ### Commands in flight -/

/-- Command `id` of a context. -/
def getColl (s : State) (ctx id : Nat) : Option CollCmd := (getCtx s ctx).colls.find? fun m => m.id == id
/-- Replace a command. -/
def putColl (s : State) (ctx : Nat) (m : CollCmd) : State :=
  updCtx s ctx fun k => { k with colls := k.colls.map fun q => if q.id = m.id then m else q }
/-- Whether a command goes on: a suspension stops no command's messages to other ranks (R382). -/
def clRuns (s : State) (ctx : Nat) : Bool :=
  ctxActive s ctx || (s.ctl.mode == .running && ((getCtx s ctx).st == .suspending || (getCtx s ctx).st == .suspended))
/-- Whether a command delivers at this rank: into the scratchpad not while its context is suspended (R382). -/
def clGoes (s : State) (ctx : Nat) (m : CollCmd) : Bool := ctxActive s ctx || (clWords m.blk && clRuns s ctx)
/-- A command whose table entry has not been read yet takes it, or is held or ends there (R273, R365). -/
def takeEntry (s : State) (ctx : Nat) (m : CollCmd) : State :=
  let h := readComm s ctx m.tab m.comm m.gone
  match h.1 with
  | .fault v k i a => heldColl (putColl h.2 ctx { m with fault := k }) ctx m v k i a
  | .world => putColl h.2 ctx { m with status := 4 }
  | .ok e =>
    let st := startStatus h.2 ctx e m
    if st = 0 then clEmpty (putColl h.2 ctx { m with ent := e }) ctx e m else putColl h.2 ctx { m with status := st }
/-- Whether the first messages of every other rank have come (R274). -/
def allIn (m : CollCmd) : Bool :=
  commState m.ent == 1 && (List.range (commRanks m.ent)).all fun r => r == commRank m.ent || m.arrived.any fun q => q.rank == r
/-- A command with the first messages `msgs`, of each rank the first (R274). -/
def takeMsgs (m : CollCmd) (msgs : List CollParams) : CollCmd :=
  { m with arrived := msgs.foldl (fun a q => if a.any fun p => p.rank == q.rank then a else a ++ [q]) m.arrived }
/-- COLL_JOIN (R274): first messages of other ranks come, `msgs`, also while the command cannot start. Once those of every rank have come the
command starts; on a disagreement it ends MISMATCH and the communicator is BROKEN; past the join limit without all of them it ends BROKEN
(R275). -/
def execCollJoin (ctx cmd : Nat) (msgs : List CollParams) (s : State) : Host.Outcome State Fault Refusal :=
  match getColl s ctx cmd with
  | some m0 =>
    if m0.started || m0.status != 0 then .next s
    else if decide (m0.joinLeft ≤ residentClock s ctx) && !allIn m0 then .next (breakComm (putColl s ctx { m0 with status := 6 }) ctx m0.tab m0.comm)
    else
      let m := takeMsgs m0 msgs
      let s0 := putColl s ctx m
      let e := m.ent
      let b := m.blk
      if m.fault != 0 || s.gated || !clRuns s ctx then .next s0
      else if commState e ≠ 1 then .next (if clGoes s ctx m then takeEntry s0 ctx m else s0)
      else if allIn m && acqReady s m.core m.tid m.acq m.first then
        let agree (q : CollParams) : Bool :=
          q.op == clOp b && q.fmt == clFmt b && q.n == clN b && q.root == clRoot b && q.cm1 + 1 == clChunk b
        if m.arrived.all fun q => q.rank == commRank e || decide (commRanks e ≤ q.rank) || agree q then .next (putColl s0 ctx { m with started := true })
        else .next (breakComm (putColl s0 ctx { m with status := 5 }) ctx m.tab m.comm)
      else .next s0
  | none => .next s
/-- JOIN_LIMIT_EXPIRY (R275): the limit counts the clocks in which the context is not suspended. `peer` names the communicator on which
the message of another rank that broke reaches this one (R275, R279), `cmd` then being the address of its table. -/
def execJoinLimitExpiry (ctx cmd : Nat) (peer : Option Nat) (s : State) : Host.Outcome State Fault Refusal :=
  match peer, getColl s ctx cmd with
  | some c, _ => .next (if commState (getComm s ctx cmd c) = 1 then breakComm s ctx cmd c else s)
  | none, some m =>
    if !m.started && m.status == 0 && !allIn m && decide (m.joinLeft ≤ residentClock s ctx) && (getCtx s ctx).st != .suspended then
      .next (breakComm (putColl s ctx { m with status := 6 }) ctx m.tab m.comm)
    else .next s
  | none, none => .next s

/-! ### Chunks (R276 to R278) -/

/-- Zephyr as the maker of accesses. -/
def clEng (s : State) (ctx : Nat) (m : CollCmd) : Eng := zephyr s ctx m.gone
/-- Places of elements `js` of segment `seg` of this rank's source, and whether their tags are read: a contribution's are (R277). -/
def srcPls (m : CollCmd) (seg : Nat) (js : List Nat) : List Pl :=
  js.map fun j => globPl m.srec (clEz m.blk) (sx (bf m.blk 96 32) 32 + (seg * clN m.blk + j : Nat))
def srcTagged (m : CollCmd) : Bool := clReduces m.blk && brT m.srec
/-- The accesses that reading them makes, and what has been read ahead of chunk `key` among them. -/
def srcAccs (m : CollCmd) (seg : Nat) (js : List Nat) : List Acc := accsOf (srcTagged m) (elBytes (clEz m.blk)) (srcPls m seg js)
def srcAhead (m : CollCmd) (key : Nat × Nat) (as : List Acc) (a : Acc) : Option Nat :=
  (m.early.find? fun x => x.1 == key && x.2.1 == as.idxOf a).map (·.2.2.toNat)
/-- Bits, tag and poison of those elements, from the words read. -/
def srcEls (m : CollCmd) (seg : Nat) (js : List Nat) (get : Acc → Nat) : List (Nat × Nat × Bool) :=
  (srcPls m seg js).map fun p =>
    (elBits (clEz m.blk) get p, elTag (fmtP (clFmt m.blk)) (srcTagged m) get p, elPois (srcTagged m) (elBytes (clEz m.blk)) get p)
/-- This rank's source for chunk `key` is read, but for what has been read ahead. -/
def clSource (s : State) (ctx : Nat) (m : CollCmd) (key : Nat × Nat) (js : List Nat) : Got (List (Nat × Nat × Bool)) × State :=
  let as := srcAccs m key.1 js
  let x := accAll (clEng s ctx m) (srcAhead m key as) as s
  match x.1 with
  | .ok vs => (.ok (srcEls m key.1 js (accVal vs)), tallyLines x.2 0 (recPol m.srec) (accLocs vs))
  | .fault v k i a => (.fault v k i a, x.2)
  | .world => (.world, x.2)
/-- The command in flight is held so. -/
def holdColl (s : State) (ctx : Nat) (m : CollCmd) (va cause info acc : Nat) : State :=
  heldColl (putColl s ctx { m with fault := cause }) ctx m va cause info acc
/-- The command ends for a leaf of the other world. -/
def otherColl (s : State) (ctx : Nat) (m : CollCmd) : State := putColl s ctx { m with status := 4 }
/-- One access to the source of chunk `key` is performed ahead. -/
def clReadAhead (ctx id : Nat) (key : Nat × Nat) (js : List Nat) (s : State) (k : Nat) : State :=
  match getColl s ctx id with
  | none => s
  | some m =>
    let as := srcAccs m key.1 js
    match as[k]? with
    | none => s
    | some a =>
      if m.fault != 0 || (srcAhead m key as a).isSome then s
      else
        let x := accNow s (clEng s ctx m) a
        match x.1 with
        | .ok v => putColl x.2 ctx { m with early := m.early ++ [(key, k, BitVec.ofNat 80 v.1)] }
        | .fault v j i q => holdColl x.2 ctx m v j i q
        | .world => s
/-- An element that a chunk brings: its number, bits, tag, and whether its line becomes poisoned. -/
structure ChunkEl where
  j : Nat
  bits : Nat
  tag : Nat
  pois : Bool
/-- Elements as they are written: the shadow byte of a T record takes the tag (R277), a scratchpad word 63 (log entry 83). -/
def clOut (s : State) (ctx : Nat) (m : CollCmd) (seg : Nat) (els : List ChunkEl) : List OutEl :=
  els.map fun x => ⟨clDst s ctx m (segBase m.blk seg + x.j), x.bits, BitVec.ofNat 6 x.tag, 63, x.pois⟩
/-- The accesses that writing elements at the places `ps` makes. -/
def clPuts (m : CollCmd) (ps : List Pl) : List Acc := accsOf (clWords m.blk && brT m.drec) (elBytes (clEz m.blk)) ps
/-- Accesses of a chunk's writing, those that `which` names or all that are left, write at their homes. -/
def placeSome (s : State) (ctx : Nat) (m : CollCmd) (key : Nat × Nat) (els : List OutEl) (which : List Nat) : Got (List Loc) × State :=
  let as := clPuts m (els.map (·.pl))
  let got := (m.placed.filter fun x => x.1 == key).map (·.2)
  let x := accHomes (clEng s ctx m) ((accLeft as.length got which).filterMap (as[·]?)) s
  match x.1 with
  | .fault v k i a => (.fault v k i a, x.2)
  | .world => (.world, x.2)
  | .ok hs => (.ok (hs.filterMap (·.2)), hs.foldl (putAcc (fun s _ _ _ => s) (clEz m.blk) els) x.2)
/-- Writes of a chunk ahead of its landing. -/
def placeParts (s : State) (ctx : Nat) (m : CollCmd) (key : Nat × Nat) (els : List ChunkEl) (which : List Nat) : State :=
  let x := placeSome s ctx m key (clOut s ctx m key.1 els) which
  match x.1 with
  | .fault v k i a => holdColl x.2 ctx m v k i a
  | .world => otherColl x.2 ctx m
  | .ok _ => putColl x.2 ctx { m with placed := m.placed ++ which.map fun k => (key, k) }
/-- The places of reads, even, and of writes, odd, among the parts that an event names. -/
def readsOf (which : List Nat) : List Nat := which.filterMap fun k => if k % 2 = 0 then some (k / 2) else none
def writesOf (which : List Nat) : List Nat := which.filterMap fun k => if k % 2 = 1 then some (k / 2) else none
/-- Parts of a chunk that this rank moves: reads of its source, and writes, each after the reads that it needs. -/
def moveParts (s : State) (ctx : Nat) (m : CollCmd) (key : Nat × Nat) (js : List Nat) (which : List Nat) : State :=
  let n := elBytes (clEz m.blk)
  let from_ := srcAccs m key.1 js
  let dst := js.map fun j => clDst s ctx m (segBase m.blk key.1 + j)
  let into := clPuts m dst
  let ws := writesOf which
  let wanted := ws.filterMap (into[·]?)
  let feeds := ((srcPls m key.1 js).zip dst).filter fun x => (accsOfEl (clWords m.blk && brT m.drec) n x.2).any wanted.contains
  let need := accPlaces from_ (feeds.flatMap fun x => accsOfEl (srcTagged m) n x.1)
  let s1 := (readsOf which ++ need).foldl (clReadAhead ctx m.id key js) s
  match getColl s1 ctx m.id with
  | none => s1
  | some m1 =>
    if ws.isEmpty || m1.fault != 0 || !need.all fun k => m1.early.any fun x => x.1 == key && x.2.1 == k then s1
    else
      let els := (js.zip (srcEls m1 key.1 js fun a => (srcAhead m1 key from_ a).getD 0)).map fun y => ⟨y.1, y.2.1, 63, y.2.2.2⟩
      placeParts s1 ctx m1 key els ws
/-- Home of a segment's signal word; none where the index is out of bounds or the access was discarded. -/
def clWordHome (s : State) (ctx : Nat) (m : CollCmd) (seg : Nat) : Got (Option Loc) × State :=
  let idx : Int := sx (bf m.blk 160 32) 32 + segWord m.blk seg
  if clWords m.blk && brIn m.wrec idx then engAt s (clEng s ctx m) true (brAddr m.wrec idx 8) 2 else (.ok none, s)
/-- A chunk of segment `seg` lands: its bytes, then the completion word if it is the last, then its signal (R278, R302). -/
def landChunk (s : State) (ctx : Nat) (m : CollCmd) (seg chunk : Nat) (els : List ChunkEl) : State :=
  let e := m.ent
  let out := clOut s ctx m seg els
  let h := placeSome s ctx m (seg, chunk) out []
  match h.1 with
  | .fault v k i a => holdColl h.2 ctx m v k i a
  | .world => otherColl h.2 ctx m
  | .ok hs =>
    let w := clWordHome h.2 ctx m seg
    match w.1 with
    | .fault v k i a => holdColl w.2 ctx m v k i a
    | .world => otherColl w.2 ctx m
    | .ok home =>
      let n := elBytes (clEz m.blk)
      let m1 := { m with
        landed := m.landed ++ [(seg, chunk)], placed := m.placed.filter (·.1 != (seg, chunk)), early := m.early.filter (·.1 != (seg, chunk)) }
      let s1 := tallyLines w.2 1 (recPol m.drec) hs
      let s2 := if clLanded e m1 then clTail s1 ctx m1 0 else s1
      let s3 := match home with
        | some l => writeLoc s2 l (leBytes 8 (leNat (readLoc s2 l 8) + clChunk m.blk))
        | none => s2
      let missing := ((clAll s3 ctx e m1).filter fun x => !(landedEls m1 x.1).contains x.2.1).flatMap fun x => plLines n x.2.2
      let mine := out.flatMap fun x => plLines n x.pl
      let s4 := (mine.filter fun l => !missing.contains l).foldl (markLine true) s3
      pulse (putColl (tally s4 devBlock 1 1) ctx m1) ctx
/-- Whether chunk `chunk` is the next of segment `seg` to land. -/
def nextChunk (m : CollCmd) (seg chunk : Nat) : Bool :=
  decide (chunk < landCount m seg) && (m.landed.filter fun x => x.1 == seg).length == chunk
/-- Whether a chunk may land: with REL the team's earlier accesses come before what the landing shows (R228), and the last landing, which
shows the completion word, waits for what the command has still to send and for a context that can take that word (R302, R382). -/
def mayLand (s : State) (ctx : Nat) (m : CollCmd) (seg chunk : Nat) : Bool :=
  relReady s m.core m.tid m.rel m.first &&
  (!clLanded m.ent { m with landed := m.landed ++ [(seg, chunk)] } || (clSent m.ent m && (ctxActive s ctx || !bfb m.blk 511)))

/-! ### Exact accumulators in the staging region (R273, R277; log entry 81) -/

/-- First byte of a communicator's staging region. -/
def stageVa (e : BitVec 64) : Nat := bits e.toNat 23 0 * 2 ^ 21
/-- Bytes from an accumulator to the next, and accumulators that the region takes. -/
def accStride (b : List DWord) : Nat := if clFmt b = 0 then 512 else 64
def accSlots (b : List DWord) : Nat := 2 ^ 24 / accStride b
/-- Address of the accumulator of element `j` of this rank's segment. -/
def accVa (e : BitVec 64) (b : List DWord) (j : Nat) : Nat := stageVa e + j % accSlots b * accStride b
/-- Whether the accumulators of a chunk are free for it: those of an earlier command of the communicator, or of an element whose place they
take, have been read out. -/
def accFree (s : State) (ctx : Nat) (m : CollCmd) (chunk : Nat) : Bool :=
  let own (q : CollCmd) : List Nat := landedEls q (commRank q.ent)
  (((getCtx s ctx).colls.takeWhile fun q => q.id != m.id).all fun q =>
    !(q.comm == m.comm && q.tab == m.tab && clReduces q.blk && q.status == 0) || (List.range (clN q.blk)).all (own q).contains) &&
  (chunkRange m.blk chunk).all fun j => decide (j < accSlots m.blk) || (own m).contains (j - accSlots m.blk)
/-- Homes of the accumulators of elements. -/
def stageHomes (e : Eng) (ent : BitVec 64) (b : List DWord) (write : Bool) : List Nat → State → Got (List (Option Loc)) × State
  | [], s => (.ok [], s)
  | j :: js, s =>
    let x := engAt s e write (accVa ent b j) (if write then 1 else 0)
    match x.1 with
    | .fault v k i a => (.fault v k i a, x.2)
    | .world => (.world, x.2)
    | .ok l =>
      let y := stageHomes e ent b write js x.2
      match y.1 with
      | .ok ls => (.ok (l :: ls), y.2)
      | g => (g, y.2)
/-- The accumulator at a home; none where its access was discarded. -/
def accAt (s : State) (b : List DWord) (l : Option Loc) : Nat :=
  match l with
  | some h => leNat (readLoc s h (accBytes (clAcc b)))
  | none => 0
/-- A contribution enters an accumulator, which the first one of its element finds empty. -/
def accEnter (b : List DWord) (first : Bool) (s : State) (x : Option Loc × Nat × Nat) : State :=
  match x.1 with
  | some l =>
    storeAt s l (leBytes (accBytes (clAcc b)) (accAdd (clAcc b) (clF b) (if first then 0 else accAt s b (some l)) x.2.1 x.2.2))
  | none => s
/-- Contributions of rank `rank` to a chunk enter the accumulators of this rank's segment (R277). -/
def addContrib (s : State) (ctx : Nat) (m : CollCmd) (rank chunk : Nat) (els : List ChunkEl) : State :=
  let h := stageHomes (clEng s ctx m) m.ent m.blk true (els.map (·.j)) s
  match h.1 with
  | .fault v k i a => holdColl h.2 ctx m v k i a
  | .world => otherColl h.2 ctx m
  | .ok ls =>
    let first := !m.contrib.any fun x => x.2 == chunk
    let s1 := (ls.zip (els.map fun x => (x.bits, x.tag))).foldl (accEnter m.blk first) h.2
    pulse (putColl s1 ctx { m with contrib := m.contrib ++ [(rank, chunk)], early := m.early.filter (·.1 != (rank, chunk)) }) ctx
/-- Elements `js` with the bits and tags that came from another rank. -/
def remoteEls (b : List DWord) (js : List Nat) (vals : List (BitVec 64)) (tags : List (BitVec 6)) : List ChunkEl :=
  (js.zip (vals.zip tags)).map fun x => ⟨x.1, x.2.1.toNat % 2 ^ 2 ^ (clEz b + 2), x.2.2.toNat, false⟩
/-- A contribution of chunk `chunk` of segment `rank` that this rank reads from its source: it enters the accumulators of its own segment, or is
sent to its owner (R276, R277). -/
def contribute (s : State) (ctx : Nat) (m : CollCmd) (rank chunk : Nat) (which : List Nat) : State :=
  let mine := rank == commRank m.ent
  let js := chunkRange m.blk chunk
  if (if mine then m.contrib.contains (rank, chunk) || !accFree s ctx m chunk else m.sent.contains (rank, chunk)) then s
  else if !which.isEmpty then (readsOf which).foldl (clReadAhead ctx m.id (rank, chunk) js) s
  else
    let x := clSource s ctx m (rank, chunk) js
    match x.1 with
    | .fault v k i a => holdColl x.2 ctx m v k i a
    | .world => otherColl x.2 ctx m
    | .ok els =>
      let s1 := if els.any (·.2.2) then takePoison x.2 ctx m.seq else x.2
      if mine then addContrib s1 ctx m rank chunk ((js.zip els).map fun y => ⟨y.1, y.2.1, y.2.2.1, false⟩)
      else pulse (putColl s1 ctx { m with sent := m.sent ++ [(rank, chunk)], early := m.early.filter (·.1 != (rank, chunk)) }) ctx
/-- A chunk that this rank moves from its own source lands, or parts of it are moved. A moved element carries tag 63 (log entry 21). -/
def moveChunk (s : State) (ctx : Nat) (m : CollCmd) (seg chunk : Nat) (which : List Nat) : State :=
  let js := landEls m seg chunk
  if !which.isEmpty then moveParts s ctx m (seg, chunk) js which
  else if !mayLand s ctx m seg chunk then s
  else
    let x := clSource s ctx m (seg, chunk) js
    match x.1 with
    | .fault v k i a => holdColl x.2 ctx m v k i a
    | .world => otherColl x.2 ctx m
    | .ok els => landChunk x.2 ctx m seg chunk ((js.zip els).map fun y => ⟨y.1, y.2.1, 63, y.2.2.2⟩)
/-- A chunk whose elements have come lands, or parts of it are written (R216). -/
def arriveChunk (s : State) (ctx : Nat) (m : CollCmd) (seg chunk : Nat) (els : List ChunkEl) (which : List Nat) : State :=
  if !which.isEmpty then
    (if (writesOf which).isEmpty then s else placeParts s ctx m (seg, chunk) els (writesOf which))
  else if mayLand s ctx m seg chunk then landChunk s ctx m seg chunk els else s
/-- ZEPHYR_CHUNK_LANDS (R276 to R278). `rank` names the sender of a contribution or of a gathered or reduced segment, and the segment of a
broadcast; what this rank itself sends is read from its source, and in a reduction a chunk without values is the one that this rank sends to
the owner `rank`. Parts, where the event names some, are performed ahead of the chunk: with REL a write of them shows nothing before the
team's earlier accesses (R228). -/
def execZephyrChunkLands (ctx : Nat) (x : Parts) (reduced : Bool) (rank chunk : Nat) (vals : List (BitVec 64)) (tags : List (BitVec 6))
    (s : State) : Host.Outcome State Fault Refusal :=
  match getColl s ctx x.id with
  | some m =>
    let e := m.ent
    let b := m.blk
    let came (js : List Nat) : Bool := vals.length == js.length && tags.length == js.length
    if !m.started || m.status != 0 || m.fault != 0 || decide (commRanks e ≤ rank) then .next s
    else if clReduces b && !reduced then
      if decide (chunkCount b ≤ chunk) || !clRuns s ctx then .next s
      else if rank = commRank e ∨ vals.isEmpty then .next (contribute s ctx m rank chunk x.which)
      else if came (chunkRange b chunk) && !m.contrib.contains (rank, chunk) && accFree s ctx m chunk then
        .next (addContrib s ctx m rank chunk (remoteEls b (chunkRange b chunk) vals tags))
      else .next s
    else if !clGoes s ctx m || !nextChunk m rank chunk || (reduced && (clOp b != 3 || rank == commRank e)) ||
        !relReady s m.core m.tid m.rel m.first then .next s
    else if !reduced && (if clOp b = 1 then clRoot b == commRank e else rank == commRank e) then .next (moveChunk s ctx m rank chunk x.which)
    else if came (landEls m rank chunk) then
      let els := remoteEls b (landEls m rank chunk) vals tags
      .next (arriveChunk s ctx m rank chunk (if reduced then els else els.map fun y => { y with tag := 63 }) x.which)
    else .next s
  | none => .next s
/-- A launch takes what the lines of an accumulator hold, poisoned or not (R448). -/
def takeAcc (ctx seq n : Nat) (s : State) (l : Option Loc) : State :=
  match l with
  | some h => (linesAt h n).foldl (fun s q => consume s q ctx seq) s
  | none => s
/-- ZEPHYR_READOUT (R277): the owner reads out a chunk of its segment once every rank has contributed to its elements. -/
def execZephyrReadout (ctx : Nat) (x : Parts) (chunk : Nat) (s : State) : Host.Outcome State Fault Refusal :=
  match getColl s ctx x.id with
  | some m =>
    let e := m.ent
    let b := m.blk
    let js := landEls m (commRank e) chunk
    let ready := js.all fun j => (List.range (commRanks e)).all fun r => m.contrib.contains (r, j / chunkEls b)
    if m.started && m.status == 0 && m.fault == 0 && clGoes s ctx m && clReduces b && ready && nextChunk m (commRank e) chunk &&
        relReady s m.core m.tid m.rel m.first && (!x.which.isEmpty || mayLand s ctx m (commRank e) chunk) then
      let h := stageHomes (clEng s ctx m) e b false js s
      match h.1 with
      | .fault v k i a => .next (holdColl h.2 ctx m v k i a)
      | .world => .next (otherColl h.2 ctx m)
      | .ok ls =>
        let out := (js.zip ls).map fun x => (x.1, accRead (clAcc b) (clF b) 0 (accAt h.2 b x.2))
        let fl := out.foldl (fun a x => a ||| x.2.fl) 0
        let s1 := ls.foldl (takeAcc ctx m.seq (accBytes (clAcc b))) h.2
        .next (arriveChunk s1 ctx { m with flags := m.flags ||| BitVec.ofNat 5 fl } (commRank e) chunk
          (out.map fun x => ⟨x.1, x.2.y, x.2.tag.toNat, false⟩) x.which)
    else .next s
  | none => .next s
/-- Whether a command that is over may leave Zephyr: in a context that can take its completion word, or with none to write (R382). -/
def clLeaves (s : State) (ctx : Nat) (m : CollCmd) : Bool := ctxActive s ctx || (clGoes s ctx m && (m.status == 0 || !bfb m.blk 511))
/-- The destination lines of a command that have not landed turn full unchanged (R464). -/
def clFull (s : State) (ctx : Nat) (m : CollCmd) : State :=
  ((clAll s ctx m.ent m).flatMap fun x => plLines (elBytes (clEz m.blk)) x.2.2).foldl (markLine true) s
/-- COLL_COMPLETE (R278, R279, R302): the command leaves Zephyr, after its last signal or with the status that ends it; its event follows. -/
def execCollComplete (ctx cmd : Nat) (s : State) : Host.Outcome State Fault Refusal :=
  match getColl s ctx cmd with
  | some m =>
    if clLeaves s ctx m && (m.status != 0 || (m.started && clDone m.ent m)) && relReady s m.core m.tid m.rel m.first then
      let s0 := if m.status != 0 then clTail s ctx m m.status else s
      let s1 := if m.started && m.status == 4 then clFull s0 ctx m else s0
      let s2 := updCtx s1 ctx fun k => { k with colls := k.colls.filter fun q => q.id != m.id }
      .next (reapWg (monitor (signalEvent s2 ctx m.blk) monZephyr m.born) m.core m.wg)
    else .next s
  | none => .next s

end Sys2Proof.Machine
end

