-- ==== Sys2Proof/Machine/Records.lean ====
section
/-! DEFINITION. Launch records (R327 to R333): their checks, their acceptance into launch order, dependences (R339), and the two
writes of completion (R344). -/

namespace Sys2Proof.Machine

/-! ### Checks (R331) -/

/-- Levels of a record, from 2 to TOP: number, EXTENT, BIND, SCOPE. -/
def recLevels (ws : List DWord) : List (Nat × Nat × Nat × Nat) :=
  (List.range (recTop ws - 1)).map fun k => (k + 2, recExtent ws (k + 2), recBind ws (k + 2), recScope ws (k + 2))
/-- The whole 32-bit entry of level `n`. -/
def recLevelWord (ws : List DWord) (n : Nat) : Nat := recField ws (0xC0 * 8 + 32 * (n - 2)) 32
/-- Teams of a core's size: 48, or what REGS and SHARE leave room for (R159). -/
def perCore (ws : List DWord) : Nat :=
  min 48 (min (if recRegs ws = 0 then 48 else 4096 / recRegs ws) (if recShare ws = 0 then 48 else 1024 / recShare ws))
/-- The highest core-bound level below `n`, if any. -/
def coreBelow (ws : List DWord) (n : Nat) : Option Nat :=
  ((List.range n).filter fun k => decide (2 ≤ k) && recBind ws k == 0).getLast?
/-- Domain of the nearest bound level below `n`, as a SCOPE that covers it; 0 where there is none. -/
def boundBelow (ws : List DWord) (n : Nat) : Nat :=
  match ((List.range n).filter fun k => decide (2 ≤ k) && decide (recBind ws k ≤ 4)).getLast? with
  | some k => recBind ws k + 1
  | none => 0
/-- R159 for one level. -/
def levelOk (ws : List DWord) (n : Nat) : Bool :=
  let b := recBind ws n
  let sc := recScope ws n
  decide (b ≤ 5) && decide (sc ≤ 5) && recExtent ws n != 0 &&
  (if b = 5 then decide (boundBelow ws n ≤ sc) && !(decide (1 < recExtent ws n) && sc == 0)
   else decide (boundBelow ws n ≤ b + 1) && decide (b + 1 ≤ sc)) &&
  (if b = 0 then decide (teamsIn ws n ≤ 48) && decide (teamsIn ws n * recRegs ws ≤ 4096)
   else if b ≤ 2 then
     let cores := if b = 1 then Config.coresPerCluster else Config.coresPerDie
     match coreBelow ws n with
     | some k => decide (teamsIn ws n / teamsIn ws k ≤ cores)
     | none => decide (teamsIn ws n ≤ perCore ws * cores)
   else true)
/-- R159, with what R331 adds to it. -/
def levelsOk (ws : List DWord) : Bool :=
  decide (2 ≤ recTop ws) && decide (recTop ws ≤ 7) &&
  ((List.range 8).all fun n => decide (n ≤ recTop ws) || recLevelWord ws n == 0) &&
  ((recLevels ws).all fun l => levelOk ws l.1) && decide (recShare ws ≤ 1024)
/-- R53 for one slot. -/
def slotOk (ws : List DWord) (x : DWord) : Bool :=
  decide (slotFmt x ≤ 6) && decide (slotDtol x ≤ 52) && decide (slotSigpol x ≠ 3) && decide (slotScale x ≠ 3) &&
  x.toNat / 2 ^ 22 == 0 &&
  (slotScale x == 0 || (decide (4 ≤ slotFmt x) && recBuf ws (slotScb x) != 0 && brEsize (recBuf ws (slotScb x)) == 2))
/-- A region entry: SPACE, BASE, LEN. -/
def recRegion (ws : List DWord) (k : Nat) : Nat × Nat × Nat := (recRegSpace ws k, recRegBase ws k, recRegLen ws k)
/-- Whether two regions share a byte (R339). -/
def regionsMeet (a b : Nat × Nat × Nat) : Bool :=
  a.1 == b.1 && decide (0 < a.2.2) && decide (0 < b.2.2) && decide (a.2.1 < b.2.1 + b.2.2) && decide (b.2.1 < a.2.1 + a.2.2)
def readRegions (ws : List DWord) : List (Nat × Nat × Nat) := (List.range 4).map (recRegion ws)
def writeRegions (ws : List DWord) : List (Nat × Nat × Nat) := [recRegion ws 4, recRegion ws 5]
/-- Whether a region of one list meets one of the other. -/
def anyMeet (xs ys : List (Nat × Nat × Nat)) : Bool := xs.any fun a => ys.any fun b => regionsMeet a b
/-- Whether a field of `n` bits at bit `lo` is zero. -/
def zeroField (ws : List DWord) (lo n : Nat) : Bool := recField ws lo n == 0
/-- The Zero fields of R327 to R330. -/
def recZeros (ws : List DWord) : Bool :=
  zeroField ws 57 7 && zeroField ws 250 6 && zeroField ws 303 17 && zeroField ws 377 7 && zeroField ws 441 7 && zeroField ws 505 7 &&
  zeroField ws 569 7 && ((List.range 7).all fun k => nth 0 ws (9 + k) == 0) &&
  ((List.range 5).all fun k => nth 0 ws (27 + k) == 0) && ((List.range 4).all fun k => nth 0 ws (44 + k) == 0) &&
  ((List.range 8).all fun k => nth 0 ws (56 + k) == 0) && ((List.range 32).all fun k => nth 0 ws (224 + k) == 0) &&
  ((List.range 6).all fun k => zeroField ws (0xC0 * 8 + 32 * k + 22) 10) &&
  ((List.range 6).all fun k => zeroField ws (0x100 * 8 + 128 * k + 57) 7 && zeroField ws (0x100 * 8 + 128 * k + 105) 23)
/-- The check of a record of world `wld` (R331): 0, or the detail code of the first failing row. -/
def recCheck (ws : List DWord) (wld : Bool) : Nat :=
  let bufs := ((List.range 16).map (recBuf ws)).filter (· != 0)
  let regs := (List.range 6).map (recRegion ws)
  let entry (x : Nat) : Bool := x == 0xFFFFFFFF || decide (x < recCodeExt ws)
  if !levelsOk ws then 1
  else if !(List.range 8).all fun n => slotOk ws (recSlot ws n) then 2
  else if !bufs.all brOk then 3
  else if recRegs ws % 16 != 0 || decide (recRegs ws < 32) || decide (256 < recRegs ws) || decide (64 < recTiles ws) ||
      decide (512 < recPool ws) || recChunk ws == 0 || decide (recShare ws < 2 * recPool ws) then 4
  else if recCodeBase ws % 128 != 0 || recCodeExt ws == 0 || !entry (recTraph ws) || !entry (recXhnd ws) then 5
  else if recWld ws != wld || bufs.any fun r => brWld r != recWld ws then 6
  else if (regs.any fun r => r.2.2 != 0 && decide (2 ^ (if r.1 = 0 then 57 else 31) < r.2.1 + r.2.2)) ||
      (recRpl ws && anyMeet (readRegions ws) (writeRegions ws)) then 7
  else if !recZeros ws || (recGrid ws == 0 && !recLmode ws) || recCwAddr ws % 8 != 0 || recCntAddr ws % 4 != 0 ||
      recListAddr ws % 16 != 0 || recComm ws % 512 != 0 then 8
  else 0

/-! ### Reading (R327) -/

/-- The task unit's accesses for a context: its world, through the device's TLB. -/
def taskEng (s : State) (x : Nat) (gone : List Nat) : Eng := ⟨.device, (getCtx s x).world, x, gone⟩
/-- The accesses that read the record at `va`: its 256 words (R216, R327). -/
def recAccs (va : Nat) : List Acc := (List.range 256).map fun k => .word (.glob ((va + 8 * k) % 2 ^ 57) 0 0)
/-- The words of a record and their homes; words read ahead are not read again. -/
def recWords (s : State) (e : Eng) (early : List (Nat × BitVec 80)) (va : Nat) : Got (List DWord × List Loc) × State :=
  let as := recAccs va
  let x := accAll e (fun a => aheadOf early (as.idxOf a)) as s
  match x.1 with
  | .ok vs => (.ok (vs.map fun v => BitVec.ofNat 64 v.2.1, accLocs vs), x.2)
  | .fault v c i k => (.fault v c i k, x.2)
  | .world => (.world, x.2)
/-- A device unit's acquire of `n` bytes at a location (R219, R220): the cores it must drain are drained; whether the acquire is over. -/
def unitAcquire (s : State) (l : Loc) (n : Nat) : Bool × State :=
  let ds := drainsFor s .system 0 l n
  let s1 := (sortAsc (ds.map (·.core))).foldl drainCore s
  if (openDrains s1 ds).isEmpty then (true, clearRecord s1 l n ds) else (false, s1)

/-! ### Acceptance and completion -/

/-- Accepted launches of a context that have not started (R338). -/
def waiting (k : Ctx) : Nat := (k.launches.filter fun q => q.st == .accepted).length
/-- Whether launch `y` depends on the earlier `x` (R339). -/
def dependsOn (x y : List DWord) : Bool :=
  anyMeet (writeRegions x) (readRegions y ++ writeRegions y) || anyMeet (readRegions x) (writeRegions y)
/-- A record takes the next place in launch order (R338, R332); `reject` is the detail of a consumed record that failed its check. -/
def acceptRec (s : State) (x : Nat) (ws : List DWord) (fw : Bool) (reject : Nat) : State :=
  let k := getCtx s x
  let q : Launch := { (default : Launch) with
    seq := k.nextSeq, firmware := fw, world := recWld ws, words := ws, st := if reject = 0 then .accepted else .started,
    grid := recGrid ws, replayable := reject == 0 && recRpl ws, num := s.nextId, reject := reject,
    after := (k.launches.filter fun p => p.st != .complete && p.reject == 0 && dependsOn p.words ws).map (·.seq) }
  let idle := k.launches.all fun p => p.st == .complete   -- the watchdog counts only clocks in which work is held (R378)
  let now := if k.st = .suspended then k.pausedAt else s.clock
  let s1 := updCtx { s with nextId := s.nextId + 1 } x fun k =>
    { k with launches := k.launches ++ [q], nextSeq := k.nextSeq + 1, lastPulse := if idle then k.lastPulse + (now - k.idleAt) else k.lastPulse }
  let s2 := if recComm ws = 0 then s1 else updCtx s1 x fun k => { k with commTabs := insAsc (recComm ws) k.commTabs }
  if reject = 0 then tally s2 devBlock 0 1 else s2
/-- A fault record of the task unit for a held access (R369). -/
def taskFault (cause va info acc grp : Nat) : FaultRec :=
  ⟨cause, 6, acc, 0, 0, 0, 0, 0, 0, 0, va, 0, BitVec.ofNat 64 info, 0, grp⟩
/-- Name of a launch in fault records. -/
def launchGrp (seq : Nat) : Nat := 2 * seq + 1
/-- Name of a command queue in fault records. -/
def queueGrp (n : Nat) : Nat := 2 ^ 65 + 2 * n
/-- Whether the reading of a queue's next record waits for firmware (R365). -/
def queueHeld (k : Ctx) (n : Nat) : Bool :=
  let mine (f : FaultRec) : Bool := f.src == 6 && f.grp == queueGrp n
  k.heldRecs.any mine || k.openRecs.any fun e => mine e.2
/-- The completion word's value (R332, R344). -/
def completionWord (q : Launch) : Nat := if q.reject = 0 then q.seq % 2 ^ 63 else 2 ^ 63 + 256 * q.reject + 2
/-- Completion (R344): the completion word, then the event. A word in the other world is not written and leaves a fault record; a word whose
translation faults holds the launch. -/
def finishLaunch (s : State) (x seq : Nat) : State :=
  let q := getLaunch s x seq
  let fin (s : State) : State :=
    let s1 := if recEve q.words then addEvent s x (recEvt q.words) 1 else s
    let s2 := updLaunch s1 x seq fun q => { q with st := .complete }
    updCtx s2 x fun k => if k.launches.all fun p => p.st == .complete then { k with idleAt := s2.clock } else k
  let va := recCwAddr q.words
  if va = 0 then fin s
  else
    let h := engAt s (taskEng s x q.gone) true (va / 8 * 8) 1
    match h.1 with
    | .ok (some l) => fin (storeAt h.2 l (leBytes 8 (completionWord q)))
    | .ok none => fin h.2
    | .world => fin (queueFault h.2 x (taskFault 5 va 0 1 (launchGrp seq)))
    | .fault v c i a => queueFault (updLaunch h.2 x seq fun q => { q with fault := c }) x (taskFault c v i a (launchGrp seq))

end Sys2Proof.Machine
end

