-- ==== Sys2Proof/Machine/Bridle.lean ====
section
/-! DEFINITION. The Bridle unit (R394 to R417, R425, R426): sequence slots, the evaluation of tokens, drafts, notify records and
the instructions of MAJ 0x88. -/

namespace Sys2Proof.Machine

/-! ### Slots (R394 to R397) -/

/-- A slot as SEQWP.init leaves it: the Reset column of R396, limits of all ones. -/
def newSlot : SeqSlot :=
  { st := .active, parent := 0x1FFF, child := 0x1FFF, sib := 0x1FFF, pos := 0, rpos := 0, tcnt := 0, clip := 15, tv := false, tent := 0,
    tpos := 0, why := 0, tteam := 0, td := false, ctr := List.replicate 4 0, lim := List.replicate 4 0xFFFFFFFF,
    shadow := List.replicate 4 0, shadows := [], drafts := [], pend := [], ring := List.replicate 16 0, ents := List.replicate 8 0 }
/-- A FREE slot. -/
def freeSlot : SeqSlot := { newSlot with st := .free }
/-- Slot `n`. -/
def getSeq (s : State) (n : Nat) : SeqSlot := ngetD freeSlot s.seqSlots n
/-- Replace slot `n`. -/
def putSeq (s : State) (n : Nat) (x : SeqSlot) : State := { s with seqSlots := nsetD freeSlot s.seqSlots n x }
/-- The context in whose range a slot lies (R394). -/
def slotOwner (s : State) (n : Nat) : Option Nat :=
  match s.ctxs.find? fun x => x.2.st != .free && decide (x.2.slotLo ≤ n) && decide (n < x.2.slotLo + x.2.slotN) with
  | some x => some x.1
  | none => none
/-- Slots of a context's range. -/
def slotRange (k : Ctx) : List Nat := (List.range k.slotN).map (k.slotLo + ·)
/-- STATE as a number (R396). -/
def stNum : SState → Nat
  | .free => 0 | .active => 1 | .stopped => 2 | .frozen => 3

/-- Fields of a watchpoint entry (R397). -/
def weEn (e : BitVec 368) : Bool := e.getLsbD 15
def weAction (e : BitVec 368) : Nat := bits e.toNat 14 12
def weCond (e : BitVec 368) : Bool := e.getLsbD 11
def weCidx (e : BitVec 368) : Nat := bits e.toNat 10 9
def weNinj (e : BitVec 368) : Nat := bits e.toNat 7 4
def weLen (e : BitVec 368) : Nat := bits e.toNat 3 0
def weElem (e : BitVec 368) (j : Nat) : Nat := e.toNat / 2 ^ (16 + 24 * j) % 2 ^ 24
def weForced (e : BitVec 368) (j : Nat) : Nat := e.toNat / 2 ^ (208 + 20 * j) % 2 ^ 20
/-- Kinds and values of a pattern element. -/
def peKind (x : Nat) : Nat := bits x 23 22
def peVal (x : Nat) : Nat := bits x 19 0
/-- The checks of an image by SEQWP.ent (R397). -/
def watchOk (e : BitVec 368) : Bool :=
  let elemOk (x : Nat) : Bool :=
    bits x 21 20 == 0 &&
    (match peKind x with | 0 => true | 2 => decide (peVal x < 32) | _ => peVal x == 0)
  !e.getLsbD 8 &&
  (!weEn e ||
    (decide (weAction e ≤ 5) &&
     (if weAction e = 2 then decide (1 ≤ weNinj e) && decide (weNinj e ≤ 8) else weNinj e == 0) &&
     (if weCond e then weLen e == 0
      else decide (1 ≤ weLen e) && decide (weLen e ≤ 8) && (List.range (weLen e)).all fun j => elemOk (weElem e j))))

/-! ### One token (R398, R399) -/

/-- Whether a token belongs to a class (R398). -/
def inClass (s : State) (tok c : Nat) : Bool :=
  s.classTable.any fun e => e.2.getLsbD 31 && bits e.2.toNat 28 24 == c && bits e.2.toNat 19 0 == tok
/-- The token at position `q`: a draft from POS on, positions wrapping at 2^32, else a ring entry (R396, R397, R404, R426). The drafts stand apart
from the ring, which holds confirmed tokens only (log entry 81). -/
def tokenAt (x : SeqSlot) (q : Nat) : BitVec 24 :=
  match x.drafts[(q + 2 ^ 32 - x.pos.toNat) % 2 ^ 32]? with
  | some e => e
  | none => nth 0 x.ring (q % 16)
/-- match(i, q) (R399). -/
def patternAt (s : State) (x : SeqSlot) (e : BitVec 368) (q : Nat) : Bool :=
  decide (weLen e ≤ q + 1) &&
  (List.range (weLen e)).all fun j =>
    let r := tokenAt x (q + 1 - weLen e + j)
    let tok := r.toNat % 2 ^ 20
    let p := weElem e j
    match peKind p with
    | 0 => tok == peVal p
    | 1 => true
    | 2 => inClass s tok (peVal p % 32)
    | _ => r.getLsbD 21
/-- Increment counter `k`, saturating. -/
def bump (c : List Word) (k : Nat) : List Word := setNth c k (BitVec.ofNat 32 (min ((nth 0 c k).toNat + 1) (2 ^ 32 - 1)))
/-- Entry `i` of a slot. -/
def entOf (x : SeqSlot) (i : Nat) : BitVec 368 := nth 0 x.ents i
/-- What the evaluation of a token finds: the counters after it, and the entries that matched, ascending. -/
structure Hits where
  ctr : List Word
  m : List Nat
/-- Both passes of R399 over counters `c0`, for the token that stands at `q`. -/
def evalToken (s : State) (x : SeqSlot) (q : Nat) (c0 : List Word) : Hits :=
  let pass1 (h : Hits) (i : Nat) : Hits :=
    let e := entOf x i
    if weEn e && !weCond e && patternAt s x e q then
      ⟨if weAction e = 5 then bump h.ctr (weCidx e) else h.ctr, h.m ++ [i]⟩
    else h
  let pass2 (h : Hits) (i : Nat) : Hits :=
    let e := entOf x i
    let k := weCidx e
    if weEn e && weCond e && decide ((nth 0 c0 k).toNat < (nth 0 x.lim k).toNat) && decide ((nth 0 x.lim k).toNat ≤ (nth 0 h.ctr k).toNat) then
      ⟨if weAction e = 5 then bump h.ctr k else h.ctr, h.m ++ [i]⟩
    else h
  (List.range 8).foldl pass2 ((List.range 8).foldl pass1 ⟨bump c0 0, []⟩)
/-- The steering entry of a set of matches (R399). -/
def steerOf (x : SeqSlot) (m : List Nat) : Option Nat := (sortAsc m).find? fun i => weAction (entOf x i) ≤ 2 || weAction (entOf x i) == 4
/-- Its NOTIFY entries, ascending. -/
def notifyOf (x : SeqSlot) (m : List Nat) : List Nat := (sortAsc m).filter fun i => weAction (entOf x i) == 3

/-! ### Notify records (R401) -/

/-- Write the oldest notify records of a context; one whose translation faults holds those behind it. -/
def flushNotes (x : Nat) : Nat → State → State
  | 0, s => s
  | n + 1, s =>
    match (getCtx s x).notes with
    | [] => s
    | q :: rest =>
      if q.fault ≠ 0 then s
      else
        let drop (s : State) : State := updCtx s x fun k => { k with notes := rest }
        let h := engAt s (taskEng s x []) true q.va 1
        match h.1 with
        | .ok (some l) => flushNotes x n (storeAt (drop h.2) l (leBytes 8 q.val.toNat))
        | .ok none => flushNotes x n (drop h.2)
        | .world => flushNotes x n (queueFault (drop h.2) x (taskFault 5 q.va 0 1 0))
        | .fault v c i a =>
          queueFault (updCtx h.2 x fun k => { k with notes := { q with fault := c } :: rest }) x (taskFault c v i a (2 * q.id))
/-- A notify record of slot `n` for entry `i` (R401): NCUR moves on whether or not the record is written. -/
def notify (s : State) (x n i kind child : Nat) (pos : Word) (core tid : Nat) : State :=
  let k := getCtx s x
  let s1 := updCtx s x fun k => { k with ncur := k.ncur + 1 }
  match k.nrec with
  | none => s1
  | some r =>
    if !brIn r k.ncur.toNat then s1
    else if brWld r != k.world then queueFault s1 x (taskFault 5 (brAddr r k.ncur.toNat 8) 0 1 0)
    else
      let val : DWord := BitVec.ofNat 64 (2 ^ 51 * n + 2 ^ 48 * i + 2 ^ 45 * kind + 2 ^ 32 * child + pos.toNat)
      let q : Note := ⟨s.nextId, core, tid, val, brAddr r k.ncur.toNat 8, 0⟩
      let s2 := updCtx { s1 with nextId := s.nextId + 1 } x fun k => { k with notes := k.notes ++ [q] }
      flushNotes x (k.notes.length + 1) s2

/-! ### Actions (R400, R402) -/

/-- The team that commits: core, resident slot, identity. -/
structure By where
  core : Nat
  slot : Nat
  tid : Nat
/-- FORK (R402, R426). -/
def forkSlot (s : State) (x n i : Nat) (q : Word) (w : By) : State :=
  let p := getSeq s n
  match (slotRange (getCtx s x)).find? fun k => (getSeq s k).st == .free with
  | some c =>
    let child := { newSlot with
      pos := p.pos, rpos := p.rpos, ring := p.ring, ctr := p.ctr, lim := p.lim, ents := p.ents, parent := n, sib := p.child }
    notify (putSeq (putSeq s c child) n { p with child := c }) x n i 1 c q w.core w.tid
  | none => notify (putSeq s n { p with st := .stopped, why := 2 }) x n i 2 0x1FFF q w.core w.tid
/-- Forced tokens after position `q` (R400). -/
def injectTokens (p : SeqSlot) (e : BitVec 368) (q : Nat) : SeqSlot :=
  { p with
    ring := (List.range (weNinj e)).foldl (fun r j => setNth r ((q + 1 + j) % 16) (BitVec.ofNat 24 (2 ^ 22 + weForced e j))) p.ring,
    pos := p.pos + BitVec.ofNat 32 (weNinj e) }
/-- Whether a COUNT entry is among the matches. -/
def countOf (x : SeqSlot) (m : List Nat) : Bool := m.any fun i => weAction (entOf x i) == 5
/-- Matches apply to slot `n` at position `q`; each applied action, `count` standing for those of COUNT entries, pulses the watchdog tree
(R400, R417). -/
def applyHits (s0 : State) (x n : Nat) (q : Word) (nots : List Nat) (steer : Option Nat) (count : Bool) (w : By) : State :=
  let s := if count then pulse s0 x else s0
  let s1 := nots.foldl (fun s i => notify s x n i 0 0x1FFF q w.core w.tid) s
  let p := getSeq s1 n
  match steer with
  | none => if nots.isEmpty then s1 else pulse s1 x
  | some i =>
    let e := entOf p i
    pulse
      (match weAction e with
       | 0 => putSeq s1 n { p with st := .stopped, why := 1 }
       | 1 => forkSlot s1 x n i q w
       | 2 => putSeq s1 n (injectTokens p e q.toNat)
       | _ => putSeq s1 n { p with
           st := .frozen, tent := i, tpos := q, tteam := BitVec.ofNat 16 (64 * w.core + w.slot), tv := true, td := false }) x

/-! ### Requests at the unit (R403 to R412) -/

/-- A request of the unit. -/
def isSeq (r : Req) : Bool :=
  match r.kind with
  | .seqCommit .. | .seqTent .. | .seqConf .. | .seqRd .. | .seqWp .. | .seqRel .. => true
  | _ => false
/-- Slot that a request needs in the cache. -/
def seqSlotOf (r : Req) : Option Nat :=
  match r.kind with
  | .seqCommit n .. | .seqTent n .. | .seqConf n .. | .seqRel _ n _ => some n
  | .seqRd form n .. => if form = 2 then none else some n
  | .seqWp form n .. => if form = 3 then none else some n
  | _ => none
/-- Whether a request is taken now: its record is cached, and the team's earlier requests have been taken (R394, R403); only the slots of a
suspended context are out of its reach (R417). -/
def seqTurn (s : State) (r : Req) : Bool :=
  !r.done && (ctxActive s r.ctx || (s.ctl.mode == .running && (getCtx s r.ctx).st == .suspending)) &&
  (match seqSlotOf r with | some n => s.bridleCache.contains n | none => true) &&
  s.reqs.all fun q => !(q.core == r.core && q.tid == r.tid && isSeq q && !q.done && decide (q.id < r.id))
/-- The status that ownership gives (R409), before what the slot's state gives: 0 for a slot of the context that is not FREE. -/
def ownStatus (s : State) (ctx n : Nat) : Nat :=
  match slotOwner s n with
  | none => 3
  | some x => if x ≠ ctx then 4 else if (getSeq s n).st = .free then 3 else 0
/-- A request has been taken; its answer goes to D with a later SEQ_REPLY. -/
def seqAnswer (s : State) (r : Req) (x : Nat) : State := putReq s { r with done := true, val := BitVec.ofNat 256 x }
/-- A token of a slot: its T and D bits beside it (R397). -/
def tokenBits (tok : Nat) (tent doubt : Bool) : BitVec 24 :=
  BitVec.ofNat 24 (tok + (if tent then 2 ^ 23 else 0) + (if doubt then 2 ^ 21 else 0))
/-- A committed token enters the ring at position `q`. -/
def enterToken (p : SeqSlot) (q tok : Nat) (doubt : Bool) : SeqSlot := { p with ring := setNth p.ring (q % 16) (tokenBits tok false doubt) }
/-- SEQ_COMMIT_EVAL (R399 to R403, R410). -/
def execSeqCommitEval (id : Nat) (s : State) : Host.Outcome State Fault Refusal :=
  match getReq s id with
  | some r =>
    match r.kind with
    | .seqCommit n tok doubt _ =>
      if !seqTurn s r then .next s
      else
        let p := getSeq s n
        let st := ownStatus s r.ctx n
        if st ≠ 0 then .next (seqAnswer s r st)
        else if p.st = .stopped then .next (seqAnswer s r 1)
        else if p.st = .frozen then .next (seqAnswer s r 2)
        else if p.tcnt ≠ 0 then .next (seqAnswer s r 6)
        else
          let q := p.pos
          let p1 := enterToken p q.toNat tok.toNat doubt
          let h := evalToken s p1 q.toNat p1.ctr
          let s1 := putSeq (seqAnswer s r 0) n { p1 with ctr := h.ctr, pos := q + 1 }
          .next (applyHits (tally s1 devBlock 2 1) r.ctx n q (notifyOf p1 h.m) (steerOf p1 h.m) (countOf p1 h.m) ⟨r.core, r.slot, r.tid⟩)
    | _ => .next s
  | none => .next s
/-- SEQ_TENTATIVE_EVAL (R404, R406). -/
def execSeqTentativeEval (id : Nat) (s : State) : Host.Outcome State Fault Refusal :=
  match getReq s id with
  | some r =>
    match r.kind with
    | .seqTent n tok _ =>
      if !seqTurn s r then .next s
      else
        let p := getSeq s n
        let st := ownStatus s r.ctx n
        if st ≠ 0 then .next (seqAnswer s r st)
        else if p.st = .stopped then .next (seqAnswer s r 1)
        else if p.st = .frozen then .next (seqAnswer s r 2)
        else if 8 ≤ p.tcnt then .next (seqAnswer s r 5)
        else
          let q := (p.pos.toNat + p.tcnt) % 2 ^ 32
          let p1 := { p with drafts := p.drafts ++ [tokenBits tok.toNat true false] }
          let h := evalToken s p1 q (if p.tcnt = 0 then p.ctr else p.shadow)
          let steer := steerOf p1 h.m
          let mask : BitVec 8 := (notifyOf p1 h.m).foldl (fun m i => m ||| (1#8 <<< i)) 0
          let p2 := { p1 with
            shadow := h.ctr, shadows := p1.shadows ++ [h.ctr], tcnt := p.tcnt + 1, pend := p1.pend ++ [⟨steer.isSome, steer.getD 0, mask, countOf p1 h.m⟩],
            clip := if steer.isSome then min p.clip p.tcnt else p.clip }
          .next (tally (putSeq (seqAnswer s r 0) n p2) devBlock 2 1)
    | _ => .next s
  | none => .next s
/-- Confirm token `k` of the drafts that slot `n` held as `old` (R405, R426). -/
def confirmOne (x n : Nat) (old : SeqSlot) (w : By) (s : State) (k : Nat) : State :=
  let p := getSeq s n
  let q := p.pos
  let h := nth default old.pend k
  let p1 := { p with
    ring := setNth p.ring (q.toNat % 16) (nth 0 old.drafts k &&& ~~~ (1#24 <<< 23)), pos := q + 1, ctr := nth p.ctr old.shadows k }
  applyHits (putSeq s n p1) x n q ((List.range 8).filter fun i => h.mask.getLsbD i) (if h.sv then some h.steer else none) h.count w
/-- Tokens that a count of `c` confirms (R405). -/
def confirmCount (p : SeqSlot) (c : Nat) : Nat := min c (min p.tcnt (if p.clip = 15 then p.tcnt else p.clip + 1))
/-- SEQ_CONFIRMATION (R405, R411). -/
def execSeqConfirmation (id : Nat) (s : State) : Host.Outcome State Fault Refusal :=
  match getReq s id with
  | some r =>
    match r.kind with
    | .seqConf n c _ =>
      if !seqTurn s r then .next s
      else
        let p := getSeq s n
        let st := ownStatus s r.ctx n
        let st := if st ≠ 0 then st else if p.st = .stopped then 1 else if p.st = .frozen then 2 else 0
        if st ≠ 0 then .next (seqAnswer s r (256 * st))
        else
          let m := confirmCount p c.toNat
          let s0 := putSeq (seqAnswer s r m) n { p with drafts := [] }
          let s1 := (List.range m).foldl (confirmOne r.ctx n p ⟨r.core, r.slot, r.tid⟩) s0
          .next (putSeq s1 n { getSeq s1 n with tcnt := 0, clip := 15, pend := [], shadows := [] })
    | _ => .next s
  | none => .next s
/-- BRIDLE_RECORD_FETCH (R394): the record joins the 1,024 that the unit caches. -/
def execBridleRecordFetch (slot : Nat) (s : State) : Host.Outcome State Fault Refusal :=
  .next (if s.bridleCache.contains slot || decide (Config.seqSlots ≤ slot) then s else { s with bridleCache := (slot :: s.bridleCache).take 1024 })

/-- SEQRD next and peek (R414): the answer, and RPOS afterwards. -/
def readSlot (p : SeqSlot) : Nat × Word :=
  let pos := p.pos.toNat
  let lost := decide (p.rpos.toNat + 16 < pos)
  let r := if lost then pos - 16 else p.rpos.toNat
  let valid := decide (r < pos)
  let e := nth 0 p.ring (r % 16)
  let after := if valid then r + 1 else r
  let f (b : Bool) (k : Nat) : Nat := if b then 2 ^ k else 0
  (2 ^ 32 * r + 2 ^ 24 * stNum p.st + f (decide (after < pos)) 27 + f lost 28 +
     (if valid then e.toNat % 2 ^ 20 + f (e.getLsbD 21) 21 + f (e.getLsbD 22) 22 + 2 ^ 26 else 0),
   BitVec.ofNat 32 after)
/-- TTEAM of a team. -/
def teamKey (c sl : Nat) : BitVec 16 := BitVec.ofNat 16 (64 * c + sl)
/-- Slots of a context frozen for a team (R407, R414), ascending. -/
def frozenFor (s : State) (ctx c sl : Nat) : List Nat :=
  (slotRange (getCtx s ctx)).filter fun n => (getSeq s n).st == .frozen && (getSeq s n).tteam == teamKey c sl
/-- SEQRD (R414). -/
def seqRead (s : State) (r : Req) (form n : Nat) : State :=
  if form = 2 then
    match (frozenFor s r.ctx r.core r.slot).find? fun k => (getSeq s k).td with
    | some k => seqAnswer s r (2 ^ 32 * (getSeq s k).tpos.toNat + k + 2 ^ 13 * (getSeq s k).tent + 2 ^ 16)
    | none => seqAnswer s r 0
  else if ownStatus s r.ctx n ≠ 0 then seqAnswer s r 0
  else
    let p := getSeq s n
    let x := readSlot p
    seqAnswer (if form = 0 then putSeq s n { p with rpos := x.2 } else s) r x.1
/-- The image of a watchpoint entry: the words that were read before, and the others now. -/
def watchImage (s : State) (r : Req) : Nat :=
  ((imageParts s r (List.range 6)).img.b.zip (List.range 6)).foldl (fun a x => a + x.1.toNat * 2 ^ (64 * x.2)) 0
/-- SEQWP (R412, R406). -/
def seqProgram (s : State) (r : Req) (form n : Nat) (b c : DWord) (rec_ : BitVec 256) : State :=
  let p := getSeq s n
  let st := ownStatus s r.ctx n
  if form = 3 then seqAnswer (updCtx s r.ctx fun k => { k with nrec := some rec_, ncur := 0 }) r 0
  else if form = 2 then
    if st = 4 || (slotOwner s n).isNone then seqAnswer s r st
    else if p.st = .free then seqAnswer (putSeq s n newSlot) r 0
    else seqAnswer s r 8
  else if st ≠ 0 then seqAnswer s r st
  else if p.tcnt ≠ 0 then seqAnswer s r 8
  else if form = 1 then
    let i := b.toNat % 2 ^ 32
    if 3 < i then seqAnswer s r 9
    else seqAnswer (putSeq s n { p with ctr := setNth p.ctr i (c.setWidth 32), lim := setNth p.lim i ((c >>> 32).setWidth 32) }) r 0
  else
    match r.loc with
    | none => seqAnswer s r 9
    | some _ =>
      let e : BitVec 368 := BitVec.ofNat 368 (watchImage s r)
      if watchOk e then seqAnswer (putSeq s n { p with ents := setNth p.ents (b.toNat % 8) e }) r 0 else seqAnswer s r 9
/-- SEQREL (R415). -/
def seqRelease (s : State) (r : Req) (form n : Nat) : State :=
  let p := getSeq s n
  let st := ownStatus s r.ctx n
  if st ≠ 0 then seqAnswer s r st
  else if form = 2 then seqAnswer (putSeq s n freeSlot) r 0
  else if p.st ≠ .frozen then seqAnswer s r 7
  else if form = 0 then seqAnswer (putSeq s n { p with st := .active, tv := false, td := false }) r 0
  else seqAnswer (putSeq s n { p with st := .stopped, why := 3, tv := false, td := false }) r 0
/-- What SEQRD, SEQWP and SEQREL do at the unit. -/
def seqAct (s : State) (r : Req) : State :=
  match r.kind with
  | .seqRd form n .. => seqRead s r form n
  | .seqWp form n b c rec_ _ => if imageReady s r then seqProgram s r form n b c rec_ else s
  | .seqRel form n _ => seqRelease s r form n
  | _ => s
/-- The answer reaches D with tag 63 (R408). A scalar destination is written once (R25), by the answer of the lowest lane. -/
def seqLand (s : State) (r : Req) : State :=
  let s1 := pulse (dropReq s r.id) r.ctx
  let go (d : Opd) (pair : Bool) : State :=
    if isS d && r.lane != lowest r.act then s1 else withTeam s1 r fun t => land t d pair r.lane (r.val.setWidth 64) 63
  match r.kind with
  | .seqCommit _ _ _ d | .seqTent _ _ d | .seqConf _ _ d | .seqWp _ _ _ _ _ d | .seqRel _ _ d => go d false
  | .seqRd _ _ d p => go d p
  | _ => s
/-- SEQ_REPLY (R408, R409): a commit or confirmation that has been evaluated answers; the others act and answer. -/
def execSeqReply (id : Nat) (s : State) : Host.Outcome State Fault Refusal :=
  match getReq s id with
  | some r =>
    if r.done then .next (if isSeq r then seqLand s r else s)
    else
      let s1 := if isSeq r && seqTurn s r then seqAct s r else s
      match getReq s1 id with
      | some q => .next (if q.done then seqLand s1 q else s1)
      | none => .next s1
  | none => .next s

/-! ### Instructions (R408 to R416) -/

/-- Lanes whose slot lies in a range of the other world (R409). -/
def otherWorld (i : Issue) (ls : List Nat) (slot : Nat → Nat) : List Nat :=
  ls.filter fun l => match slotOwner i.s (slot l) with | some x => (getCtx i.s x).world != (getCore i.s i.core).world | none => false
/-- Slot of a lane. -/
def seqNo (a : Rd) (l : Nat) : Nat := (a.at_ l).bits.toNat % 2 ^ 13
/-- Steps 6 and 8: the destination is marked, one request goes out for each lane, the launch is no longer replayable (R449). -/
def sendSeq (i : Issue) (d : Opd) (pair : Bool) (ls : List Nat) (req : Nat → Req) : Res :=
  let t := pushUndo i.s (ls.foldl (fun t l => markOpd t d pair l false) i.t) (undoOf i.t d pair)
  let s1 := (ls.map req).foldl post (setTeam i.s i.core i.slot t)
  .go (spendReplay s1 i.t.ctx i.t.seq)
/-- A Bridle instruction with slot A: the waits, WORLD for every active lane that names such a slot (R409), then the requests of the lanes
`ls`. -/
def seqBody (i : Issue) (x : RG) (srcs : List Rd) (pair : Bool) (ls : List Nat) (k : Rd → Nat → ReqKind) : Res :=
  let a := rd i x.a false
  match gate i (a :: srcs) [(x.d, pair)] with
  | some r => r
  | none =>
    let bad := otherWorld i (lanesOf i.act) (seqNo a)
    if !bad.isEmpty then .trap (trapAt 0x0D i.pc (maskOfList bad))
    else sendSeq i x.d pair ls fun l => mkReq i l (k a l)
/-- Allocation of the registers that a Bridle instruction names. -/
def seqAlloc (t : Team) (x : RG) (pair c : Bool) : Bool :=
  opdAlloc t x.d pair && opdAlloc t x.a.o false && opdAlloc t x.b.o false && (!c || opdAlloc t x.c.o true)
/-- Token of a lane. -/
def tokenOf (b : Rd) (l : Nat) : BitVec 20 := (b.at_ l).bits.setWidth 20
/-- SEQCM (R410): one token for each active lane, also beside a scalar destination. The other forms make one request for a scalar, as LD
makes one access (log entry 81). -/
def execSeqcm (x : RG) (s : State) : Host.Outcome State Fault Refusal :=
  issue x.h (Instr.seqcm x).wf true (fun _ _ t => seqAlloc t x false false)
    (fun i =>
      let b := rd i x.b false
      let c := rd i x.c false
      let dbt := x.sub == 1
      seqBody i x (b :: if dbt then [c] else []) false (lanesOf i.act) fun a l =>
        .seqCommit (seqNo a l) (tokenOf b l) (dbt && pval x.c.m (c.at_ l)) x.d) s
/-- SEQCM.T (R404, R410). -/
def execSeqcmT (x : RG) (s : State) : Host.Outcome State Fault Refusal :=
  issue x.h (Instr.seqcmT x).wf true (fun _ _ t => seqAlloc t x false false)
    (fun i =>
      let b := rd i x.b false
      seqBody i x [b] false (lanesOf i.act) fun a l => .seqTent (seqNo a l) (tokenOf b l) x.d) s
/-- SEQCF (R411). -/
def execSeqcf (x : RG) (s : State) : Host.Outcome State Fault Refusal :=
  issue x.h (Instr.seqcf x).wf true (fun _ _ t => seqAlloc t x false false)
    (fun i =>
      let b := rd i x.b false
      seqBody i x [b] false (servedLanes i x.d) fun a l => .seqConf (seqNo a l) ((b.at_ l).bits.setWidth 32) x.d) s
/-- SEQRD next (R414). -/
def execSeqrdNext (x : RG) (s : State) : Host.Outcome State Fault Refusal :=
  issue x.h (Instr.seqrdNext x).wf false (fun _ _ t => seqAlloc t x true false)
    (fun i => seqBody i x [] true (servedLanes i x.d) fun a l => .seqRd 0 (seqNo a l) x.d true) s
/-- SEQRD.peek (R414). -/
def execSeqrdPeek (x : RG) (s : State) : Host.Outcome State Fault Refusal :=
  issue x.h (Instr.seqrdPeek x).wf false (fun _ _ t => seqAlloc t x true false)
    (fun i => seqBody i x [] true (servedLanes i x.d) fun a l => .seqRd 1 (seqNo a l) x.d true) s
/-- SEQRD.trap (R414). -/
def execSeqrdTrap (x : RG) (s : State) : Host.Outcome State Fault Refusal :=
  issue x.h (Instr.seqrdTrap x).wf false (fun _ _ t => opdAlloc t x.d true)
    (fun i =>
      match gate i [] [(x.d, true)] with
      | some r => r
      | none => sendSeq i x.d true (servedLanes i x.d) fun l => mkReq i l (.seqRd 2 0 x.d true)) s
/-- SEQWP.ent (R412): the image's lines are waited for as by a weak load. -/
def execSeqwpEnt (x : RG) (s : State) : Host.Outcome State Fault Refusal :=
  issue x.h (Instr.seqwpEnt x).wf true (fun _ _ t => seqAlloc t x false false && opdAlloc t x.c.o false)
    (fun i =>
      let a := rd i x.a false
      let b := rd i x.b false
      let c := rd i x.c false
      match gate i [a, b, c] [(x.d, false)] with
      | some r => r
      | none =>
        let ls := servedLanes i x.d
        let at_ (l : Nat) : ScrAt :=
          match directOf i (ival 32 x.c.m (c.at_ l)) 1 with
          | .at_ k byte => .at_ k (byte / 128 * 128)
          | r => r
        let late := ls.filter fun l => match at_ l with | .at_ k byte => !lineFull i.s k (byte / 128) | _ => false
        if !late.isEmpty then (if x.c.e then .trap (trapAt 2 i.pc (maskOfList late)) else .wait)
        else if (lanesOf i.act).any fun l => decide (8 ≤ (b.at_ l).bits.toNat % 2 ^ 32) then .trap (trapAt 1 i.pc i.exec)
        else
          let bad := otherWorld i (lanesOf i.act) (seqNo a) ++ (lanesOf i.act).filter fun l => at_ l == .world
          if !bad.isEmpty then .trap (trapAt 0x0D i.pc (maskOfList bad))
          else sendSeq i x.d false ls fun l =>
            { mkReq i l (.seqWp 0 (seqNo a l) (b.at_ l).bits 0 0 x.d) with
              loc := match at_ l with | .at_ k byte => some (.scratch k byte) | _ => none }) s
/-- SEQWP.ctr (R412). -/
def execSeqwpCtr (x : RG) (s : State) : Host.Outcome State Fault Refusal :=
  issue x.h (Instr.seqwpCtr x).wf true (fun _ _ t => seqAlloc t x false true)
    (fun i =>
      let b := rd i x.b false
      let c := rd i x.c true
      seqBody i x [b, c] false (servedLanes i x.d) fun a l => .seqWp 1 (seqNo a l) (b.at_ l).bits (BitVec.ofNat 64 (ival 64 x.c.m (c.at_ l))) 0 x.d) s
/-- SEQWP.init (R412). -/
def execSeqwpInit (x : RG) (s : State) : Host.Outcome State Fault Refusal :=
  issue x.h (Instr.seqwpInit x).wf true (fun _ _ t => seqAlloc t x false false)
    (fun i => seqBody i x [] false (servedLanes i x.d) fun a l => .seqWp 2 (seqNo a l) 0 0 0 x.d) s
/-- SEQWP.nrec (R401, R412). -/
def execSeqwpNrec (x : RG) (s : State) : Host.Outcome State Fault Refusal :=
  issue x.h (Instr.seqwpNrec x).wf true (fun _ _ t => opdAlloc t x.d false && bound t x.b.o)
    (fun i =>
      match gate i [] [(x.d, false)] with
      | some r => r
      | none => sendSeq i x.d false (servedLanes i x.d) fun l => mkReq i l (.seqWp 3 0 0 0 (bufOf i.t (xNum x.b.o)) x.d)) s
/-- SEQREL.go (R415). -/
def execSeqrelGo (x : RG) (s : State) : Host.Outcome State Fault Refusal :=
  issue x.h (Instr.seqrelGo x).wf true (fun _ _ t => seqAlloc t x false false)
    (fun i => seqBody i x [] false (servedLanes i x.d) fun a l => .seqRel 0 (seqNo a l) x.d) s
/-- SEQREL.stop (R415). -/
def execSeqrelStop (x : RG) (s : State) : Host.Outcome State Fault Refusal :=
  issue x.h (Instr.seqrelStop x).wf true (fun _ _ t => seqAlloc t x false false)
    (fun i => seqBody i x [] false (servedLanes i x.d) fun a l => .seqRel 1 (seqNo a l) x.d) s
/-- SEQREL.free (R415). -/
def execSeqrelFree (x : RG) (s : State) : Host.Outcome State Fault Refusal :=
  issue x.h (Instr.seqrelFree x).wf true (fun _ _ t => seqAlloc t x false false)
    (fun i => seqBody i x [] false (servedLanes i x.d) fun a l => .seqRel 2 (seqNo a l) x.d) s
/-- Whether an iteration fence is ready (R413, R367): the team's commits and confirmations are evaluated, their notify records
written, and no logged read is open. -/
def fenceDone (i : Issue) : Bool :=
  !(i.s.reqs.any fun q => q.core == i.core && q.tid == i.t.tid && !q.done &&
      (match q.kind with | .seqCommit .. | .seqTent .. | .seqConf .. => true | _ => false)) &&
  !((getCtx i.s i.t.ctx).notes.any fun n => n.core == i.core && n.tid == i.t.tid) &&
  acqPart i true
/-- SEQFN (R407, R413): the trap it takes reports TENT of the lowest-numbered slot that owes one. It is taken where no log entry of the team is
open, so that a slot freed until then owes none (R373). -/
def execSeqfn (x : EN) (s : State) : Host.Outcome State Fault Refusal :=
  issue x.h (Instr.seqfn x).wf true (fun _ _ _ => true)
    (fun i =>
      if !fenceDone i then .wait
      else
        match (frozenFor i.s i.t.ctx i.core i.slot).find? fun n => (getSeq i.s n).tv with
        | some n =>
          if hasLog i.s i.core i.slot then .wait
          else .trap { trapAt 9 i.pc i.act with detail := BitVec.ofNat 8 (getSeq i.s n).tent }
        | none => .go (spendReplay i.s i.t.ctx i.t.seq)) s

end Sys2Proof.Machine
end

