-- ==== Sys2Proof/Machine/Compare.lean ====
section
/-! DEFINITION. Compare, predicate and classify instructions (R111 to R113, R144, R145). -/

namespace Sys2Proof.Machine

/-- The comparison of ICMP (R111). -/
def icmpF (c : Cond) (a b : Int) : Bool :=
  match c with
  | .eq => a == b
  | .ne => a != b
  | .lt => decide (a < b)
  | .le => decide (a ≤ b)
  | .gt => decide (b < a)
  | .ge => decide (b ≤ a)
  | .un | .or => false
/-- A Boolean as a predicate result. -/
def ofB (b : Bool) : DWord := if b then 1 else 0
/-- Steps 3 to 7 of ICMP. -/
def icmpBody (c : Cond) (sg pair : Bool) (d : Opd) (a b : Rd) (used : Nat) (ma mb : Bool) (i : Issue) : Res :=
  match gate i ([a, b].take used) [(d, false)] with
  | some r => r
  | none =>
    let n := pairBits pair
    putRes i d false (fun l => ofB (icmpF c (sv sg (ival n ma (a.at_ l)) n) (sv sg (ival n mb (b.at_ l)) n))) fun _ => 63
/-- ICMP (R111). -/
def execIcmp (c : Cond) (sg : Bool) (w : Width) (x : RG) (s : State) : Host.Outcome State Fault Refusal :=
  issue x.h (Instr.icmp c sg w x).wf false (fun _ _ t => opdAlloc t x.a.o (isPair w) && opdAlloc t x.b.o (isPair w))
    (fun i => icmpBody c sg (isPair w) x.d (rdA i x (isPair w)) (rd i x.b (isPair w)) 2 x.a.m x.b.m i) s
/-- ICMP, immediate form (R111). -/
def execIcmpIm (c : Cond) (sg : Bool) (w : Width) (x : IM) (s : State) : Host.Outcome State Fault Refusal :=
  issue x.h (Instr.icmpIm c sg w x).wf false (fun _ _ t => opdAlloc t x.a.o (isPair w))
    (fun i => icmpBody c sg (isPair w) x.d (rd i x.a (isPair w)) (immRd x.imm) 1 x.a.m false i) s

/-- PSET: SUB[3:0] is the truth table (R112). -/
def execPset (x : RG) (s : State) : Host.Outcome State Fault Refusal :=
  issue x.h (Instr.pset x).wf false (fun _ _ _ => true)
    (fun i =>
      let a := rd i x.a false
      let b := rd i x.b false
      match gate i [a, b] [(x.d, false)] with
      | some r => r
      | none =>
        putRes i x.d false
          (fun l => ofB (x.sub.getLsbD (2 * (pval x.a.m (a.at_ l)).toNat + (pval x.b.m (b.at_ l)).toNat)))
          fun _ => 63) s
/-- PMOV (R113): form 0 predicate to predicate, 1 and 2 test for nonzero, 3 predicate to lane register. -/
def execPmov (x : RG) (s : State) : Host.Outcome State Fault Refusal :=
  let wide := x.sub == 2
  issue x.h (Instr.pmov x).wf false (fun _ _ t => opdAlloc t x.d false && opdAlloc t x.a.o wide)
    (fun i =>
      let a := rdA i x wide
      match gate i [a] [(x.d, false)] with
      | some r => r
      | none =>
        putRes i x.d false
          (fun l => ofB (if isP x.a.o then pval x.a.m (a.at_ l) else ival (pairBits wide) x.a.m (a.at_ l) != 0))
          fun _ => 63) s

/-- The format of an `f` field. -/
def fmtOfFW : FW → Fmt
  | .f32 => fp32
  | .f64 => fp64
/-- FCMP (R144): invalid follows R51; tags are read only for the waits of step 3 and 4. -/
def execFcmp (c : Cond) (f : FW) (x : RG) (s : State) : Host.Outcome State Fault Refusal :=
  issue x.h (Instr.fcmp c f x).wf false (fun _ _ t => opdAlloc t x.a.o (pairF f) && opdAlloc t x.b.o (pairF f))
    (fun i =>
      let a := rdA i x (pairF f)
      let b := rd i x.b (pairF f)
      match gate i [a, b] [(x.d, false)] with
      | some r => r
      | none =>
        let r (l : Nat) := cmpF c (decF (fmtOfFW f) (fval (fmtOfFW f) x.a.m (a.at_ l))) (decF (fmtOfFW f) (fval (fmtOfFW f) x.b.m (b.at_ l)))
        fpPut i x.d false 2 fun l => ⟨(r l).1.toNat, (r l).2, 63⟩) s

/-- The class bit of a value (R145): 0 signalling NaN, 1 quiet NaN, 2 infinity, 3 normal, 4 subnormal, 5 zero. -/
def classOf (f : Fmt) (v : FV) : Nat :=
  match v with
  | .nan true => 0
  | .nan false => 1
  | .inf _ => 2
  | .fin _ m _ => if m = 0 then 5 else if subnormal f v then 4 else 3
/-- The test of FCLASS: class mask SUB[5:0], sign filter SUB[7:6], which does not apply to NaNs. -/
def fclassF (f : Fmt) (sub : Nat) (v : FV) : Bool :=
  sub.testBit (classOf f v) &&
  (isNaN v || (match sub / 64 with | 0 => true | 1 => !sgn v | _ => sgn v))
/-- FCLASS (R145); it raises no flag. -/
def execFclass (f : FW) (x : RG) (s : State) : Host.Outcome State Fault Refusal :=
  issue x.h (Instr.fclass f x).wf false (fun _ _ t => opdAlloc t x.a.o (pairF f))
    (fun i =>
      let a := rdA i x (pairF f)
      match gate i [a] [(x.d, false)] with
      | some r => r
      | none =>
        putRes i x.d false
          (fun l => ofB (fclassF (fmtOfFW f) x.sub.toNat (decF (fmtOfFW f) (fval (fmtOfFW f) x.a.m (a.at_ l)))))
          fun _ => 63) s

end Sys2Proof.Machine
end

