-- ==== Sys2Proof/Machine/FpOps.lean ====
section
/-! DEFINITION. Floating-point arithmetic, conversions between register formats, and the significance instructions (R135
to R147, R151 to R153). -/

namespace Sys2Proof.Machine

/-! ### The shared form (R135, R136) -/

/-- A value and its tag as an FP operation takes them. -/
abbrev VT := Nat × Nat
/-- Source value under M with its tag (R69, R59). -/
def vt (f : Fmt) (m : Bool) (v : Val) : VT := (fval f m v, v.tag.toNat)
/-- Steps 3 to 7 of an FP instruction with `used` sources, mode and SIGPOL from the slot and RND. -/
def fpBody (f : Fmt) (pair : Bool) (d : Opd) (used : Nat) (a b c : Rd) (ma mb mc : Bool) (slot : Nat) (rnd : Rnd)
    (op : Nat → VT → VT → VT → FO) (i : Issue) : Res :=
  match gate i ([a, b, c].take used) [(d, pair)] with
  | some r => r
  | none =>
    let mode := rmode (wordsOf i) slot rnd
    fpPut i d pair (slotSigpol (recSlot (wordsOf i) slot))
      fun l => op mode (vt f ma (a.at_ l)) (vt f mb (b.at_ l)) (vt f mc (c.at_ l))
/-- An RG FP instruction. -/
def fpRG (ins : Instr) (f : Fmt) (pair : Bool) (used : Nat) (x : RG) (op : Nat → VT → VT → VT → FO) (s : State) :
    Host.Outcome State Fault Refusal :=
  issue x.h ins.wf false (fun _ _ t => allocRG pair x t)
    (fun i => fpBody f pair x.d used (rdA i x pair) (rd i x.b pair) (rd i x.c pair) x.a.m x.b.m x.c.m x.slot.toNat x.rnd op i) s
/-- RND of an FP immediate form, MOD[5:3] (R74). -/
def mdRnd (md : BitVec 6) : Rnd :=
  match md.toNat / 8 with
  | 1 => .rne | 2 => .rtz | 3 => .rup | 4 => .rdn | _ => .slot
/-- An FP immediate form: IMM32 is an FP32 pattern with tag 24 (R141). -/
def fpIM (ins : Instr) (x : IM) (op : Nat → VT → VT → VT → FO) (s : State) : Host.Outcome State Fault Refusal :=
  let imm : Rd := ⟨false, fun _ => ⟨x.imm.setWidth 64, 24, true⟩⟩
  issue x.h ins.wf false (fun _ _ t => opdAlloc t x.d false && opdAlloc t x.a.o false)
    (fun i => fpBody fp32 false x.d 1 (rd i x.a false) imm imm x.a.m false false (x.md.toNat % 8) (mdRnd x.md) op i) s

def oAdd (f : Fmt) (mode : Nat) (a b _ : VT) : FO := opAdd f mode false a.1 a.2 b.1 b.2
def oSub (f : Fmt) (mode : Nat) (a b _ : VT) : FO := opAdd f mode true a.1 a.2 b.1 b.2
def oMul (f : Fmt) (mode : Nat) (a b _ : VT) : FO := opMul f mode a.1 a.2 b.1 b.2
def oFma (f : Fmt) (mode : Nat) (a b c : VT) : FO := opFma f mode a.1 a.2 b.1 b.2 c.1 c.2
def oDiv (f : Fmt) (mode : Nat) (a b _ : VT) : FO := opDiv f mode a.1 a.2 b.1 b.2
def oMin (f : Fmt) (_ : Nat) (a b _ : VT) : FO := opMinMax f true a.1 a.2 b.1 b.2
def oMax (f : Fmt) (_ : Nat) (a b _ : VT) : FO := opMinMax f false a.1 a.2 b.1 b.2
def oSqrt (f : Fmt) (mode : Nat) (a _ _ : VT) : FO := opSqrt f mode a.1 a.2
def oRcp (f : Fmt) (mode : Nat) (a _ _ : VT) : FO := opRcp f mode a.1 a.2
def oExp2 (f : Fmt) (mode : Nat) (a _ _ : VT) : FO := opExp2 f mode a.1 a.2
def oLog2 (f : Fmt) (mode : Nat) (a _ _ : VT) : FO := opLog2 f mode a.1 a.2

/-- The half format of a packed instruction (R142). -/
def halfFmt : Half → Fmt
  | .fp16 => fp16
  | .bf16 => bf16
/-- Half `k` of a packed element, with the element's tag (R45). -/
def halfOf (k : Nat) (x : VT) : VT := (x.1 / 2 ^ (16 * k) % 2 ^ 16, x.2)
/-- A packed operation: both halves under one mode, one tag (R142, R59). -/
def packed (op : Nat → VT → VT → VT → FO) (mode : Nat) (a b c : VT) : FO :=
  packHalves (op mode (halfOf 0 a) (halfOf 0 b) (halfOf 0 c)) (op mode (halfOf 1 a) (halfOf 1 b) (halfOf 1 c))
/-- A packed element; M inverts the signs of both halves (R142). -/
def vtH (m : Bool) (v : Val) : VT := ((v.bits.toNat % 2 ^ 32) ^^^ (if m then 0x80008000 else 0), v.tag.toNat)
/-- A packed FP16 or BF16 instruction. -/
def halfRG (ins : Instr) (used : Nat) (x : RG) (op : Nat → VT → VT → VT → FO) (s : State) : Host.Outcome State Fault Refusal :=
  issue x.h ins.wf false (fun _ _ t => allocRG false x t)
    (fun i =>
      let a := rdA i x false
      let b := rd i x.b false
      let c := rd i x.c false
      match gate i ([a, b, c].take used) [(x.d, false)] with
      | some r => r
      | none =>
        let mode := rmode (wordsOf i) x.slot.toNat x.rnd
        fpPut i x.d false (slotSigpol (recSlot (wordsOf i) x.slot.toNat))
          fun l => packed op mode (vtH x.a.m (a.at_ l)) (vtH x.b.m (b.at_ l)) (vtH x.c.m (c.at_ l))) s

/-! ### Arithmetic -/

/-- FADD (R137). -/
def execFadd (x : RG) (s : State) : Host.Outcome State Fault Refusal :=
  fpRG (.fadd x) fp32 false 2 x (oAdd fp32) s
/-- FSUB (R137). -/
def execFsub (x : RG) (s : State) : Host.Outcome State Fault Refusal :=
  fpRG (.fsub x) fp32 false 2 x (oSub fp32) s
/-- FMUL (R137). -/
def execFmul (x : RG) (s : State) : Host.Outcome State Fault Refusal :=
  fpRG (.fmul x) fp32 false 2 x (oMul fp32) s
/-- FFMA (R137). -/
def execFfma (x : RG) (s : State) : Host.Outcome State Fault Refusal :=
  fpRG (.ffma x) fp32 false 3 x (oFma fp32) s
/-- FMIN (R138). -/
def execFmin (x : RG) (s : State) : Host.Outcome State Fault Refusal :=
  fpRG (.fmin x) fp32 false 2 x (oMin fp32) s
/-- FMAX (R138). -/
def execFmax (x : RG) (s : State) : Host.Outcome State Fault Refusal :=
  fpRG (.fmax x) fp32 false 2 x (oMax fp32) s
/-- FDIV (R137, R139). -/
def execFdiv (x : RG) (s : State) : Host.Outcome State Fault Refusal :=
  fpRG (.fdiv x) fp32 false 2 x (oDiv fp32) s
/-- FSQRT (R139). -/
def execFsqrt (x : RG) (s : State) : Host.Outcome State Fault Refusal :=
  fpRG (.fsqrt x) fp32 false 1 x (oSqrt fp32) s
/-- FRCP (R139). -/
def execFrcp (x : RG) (s : State) : Host.Outcome State Fault Refusal :=
  fpRG (.frcp x) fp32 false 1 x (oRcp fp32) s
/-- FEXP2 (R139). -/
def execFexp2 (x : RG) (s : State) : Host.Outcome State Fault Refusal :=
  fpRG (.fexp2 x) fp32 false 1 x (oExp2 fp32) s
/-- FLOG2 (R139). -/
def execFlog2 (x : RG) (s : State) : Host.Outcome State Fault Refusal :=
  fpRG (.flog2 x) fp32 false 1 x (oLog2 fp32) s
/-- FADD, immediate form (R141). -/
def execFaddIm (x : IM) (s : State) : Host.Outcome State Fault Refusal :=
  fpIM (.faddIm x) x (oAdd fp32) s
/-- FSUB, immediate form (R141). -/
def execFsubIm (x : IM) (s : State) : Host.Outcome State Fault Refusal :=
  fpIM (.fsubIm x) x (oSub fp32) s
/-- FMUL, immediate form (R141). -/
def execFmulIm (x : IM) (s : State) : Host.Outcome State Fault Refusal :=
  fpIM (.fmulIm x) x (oMul fp32) s
/-- FMIN, immediate form (R141). -/
def execFminIm (x : IM) (s : State) : Host.Outcome State Fault Refusal :=
  fpIM (.fminIm x) x (oMin fp32) s
/-- FMAX, immediate form (R141). -/
def execFmaxIm (x : IM) (s : State) : Host.Outcome State Fault Refusal :=
  fpIM (.fmaxIm x) x (oMax fp32) s
/-- HADD2 (R142). -/
def execHadd2 (h : Half) (x : RG) (s : State) : Host.Outcome State Fault Refusal :=
  halfRG (.hadd2 h x) 2 x (oAdd (halfFmt h)) s
/-- HMUL2 (R142). -/
def execHmul2 (h : Half) (x : RG) (s : State) : Host.Outcome State Fault Refusal :=
  halfRG (.hmul2 h x) 2 x (oMul (halfFmt h)) s
/-- HFMA2 (R142). -/
def execHfma2 (h : Half) (x : RG) (s : State) : Host.Outcome State Fault Refusal :=
  halfRG (.hfma2 h x) 3 x (oFma (halfFmt h)) s
/-- DADD (R143). -/
def execDadd (x : RG) (s : State) : Host.Outcome State Fault Refusal :=
  fpRG (.dadd x) fp64 true 2 x (oAdd fp64) s
/-- DSUB (R143). -/
def execDsub (x : RG) (s : State) : Host.Outcome State Fault Refusal :=
  fpRG (.dsub x) fp64 true 2 x (oSub fp64) s
/-- DMUL (R143). -/
def execDmul (x : RG) (s : State) : Host.Outcome State Fault Refusal :=
  fpRG (.dmul x) fp64 true 2 x (oMul fp64) s
/-- DFMA (R143). -/
def execDfma (x : RG) (s : State) : Host.Outcome State Fault Refusal :=
  fpRG (.dfma x) fp64 true 3 x (oFma fp64) s
/-- DMIN (R143). -/
def execDmin (x : RG) (s : State) : Host.Outcome State Fault Refusal :=
  fpRG (.dmin x) fp64 true 2 x (oMin fp64) s
/-- DMAX (R143). -/
def execDmax (x : RG) (s : State) : Host.Outcome State Fault Refusal :=
  fpRG (.dmax x) fp64 true 2 x (oMax fp64) s
/-- DDIV (R143). -/
def execDdiv (x : RG) (s : State) : Host.Outcome State Fault Refusal :=
  fpRG (.ddiv x) fp64 true 2 x (oDiv fp64) s
/-- DSQRT (R143). -/
def execDsqrt (x : RG) (s : State) : Host.Outcome State Fault Refusal :=
  fpRG (.dsqrt x) fp64 true 1 x (oSqrt fp64) s

/-! ### CVT (R146, R147) -/

/-- The FP format of a CVT type, if it is one. -/
def cvtFmt : CvtT → Option Fmt
  | .fp64 => some fp64 | .fp32 => some fp32 | .fp16 => some fp16 | .bf16 => some bf16 | _ => none
/-- Width and signedness of an integer CVT type. -/
def cvtInt : CvtT → Nat × Bool
  | .s32 => (32, true) | .u32 => (32, false) | .s64 => (64, true) | _ => (64, false)
/-- Lowest and highest value of an integer type. -/
def intRange (n : Nat) (sg : Bool) : Int × Int :=
  if sg then (-((2 ^ (n - 1) : Nat) : Int), ((2 ^ (n - 1) : Nat) : Int) - 1) else (0, ((2 ^ n : Nat) : Int) - 1)
/-- Source bits of a CVT under M: an FP source is negated, an integer source inverted (R69); half 1 under SUB[0] (R147). -/
def cvtSrc (src : CvtT) (sh m : Bool) (v : Val) : Nat :=
  match cvtFmt src with
  | some f =>
    let x := if sh then v.bits.toNat / 2 ^ 16 % 2 ^ 16 else v.bits.toNat % 2 ^ f.width
    if m then x ^^^ 2 ^ (f.width - 1) else x
  | none => ival (cvtInt src).1 m v
/-- The conversion of one value (R146) with the tag of R61. -/
def cvtF1 (dst src : CvtT) (mode x t : Nat) : FO :=
  match cvtFmt src, cvtFmt dst with
  | some f, some g => opCvt f g mode x t
  | some f, none =>
    let (n, sg) := cvtInt dst
    let r := toIntF mode (intRange n sg).1 (intRange n sg).2 (decF f x)
    ⟨wrap r.1 n, r.2, 63⟩
  | none, some g =>
    let (n, sg) := cvtInt src
    opOfInt g mode (sv sg x n)
  | none, none =>
    let (n, sg) := cvtInt src
    ⟨wrap (sv sg x n) (cvtInt dst).1, 0, 63⟩
/-- Tag of the element written by a half result: half 1 takes the lower of the result's and the element's tag (R147). SIGPOL = OFF then
writes 63 (R60; DEDUCED, log entry 50). -/
def dh1Tag (old new : Tag) : Tag := if new.toNat ≤ old.toNat then new else old
/-- CVT (R146, R147). -/
def execCvt (dst src : CvtT) (x : RG) (s : State) : Host.Outcome State Fault Refusal :=
  let ps := cvtWide src
  let pd := cvtWide dst
  let dh := x.sub.getLsbD 1
  issue x.h (Instr.cvt dst src x).wf false (fun _ _ t => opdAlloc t x.d pd && opdAlloc t x.a.o ps)
    (fun i =>
      let a := rdA i x ps
      let old := rd i ⟨x.d, false, false⟩ pd
      match gate i ([a] ++ (if dh then [old] else [])) [(x.d, pd)] with
      | some r => r
      | none =>
        let mode := rmode (wordsOf i) x.slot.toNat x.rnd
        let pol := if (cvtFmt dst).isSome then slotSigpol (recSlot (wordsOf i) x.slot.toNat) else 2
        let r (l : Nat) : FO := cvtF1 dst src mode (cvtSrc src (x.sub.getLsbD 0) x.a.m (a.at_ l)) (a.at_ l).tag.toNat
        let tg (l : Nat) : Tag :=
          if dh then dh1Tag (old.at_ l).tag (polTag pol (r l).tag) else polTag pol (r l).tag
        fpFinish i pol (fun l => { r l with tag := tg l }) fun t =>
          .go (commit i x.d pd (putLanes t x.d pd i.act
            (fun l => BitVec.ofNat 64 (if dh then (old.at_ l).bits.toNat % 2 ^ 16 + 2 ^ 16 * (r l).y else (r l).y)) tg))) s

/-! ### Significance instructions (R151 to R153) -/

/-- TAGRD (R151). -/
def execTagrd (x : RG) (s : State) : Host.Outcome State Fault Refusal :=
  let wide := x.sub == 1
  issue x.h (Instr.tagrd x).wf false (fun _ _ t => opdAlloc t x.d false && opdAlloc t x.a.o wide)
    (fun i =>
      let a := rdA i x wide
      match gate i [a] [(x.d, false)] with
      | some r => r
      | none => putRes i x.d false (fun l => (a.at_ l).tag.setWidth 64) fun _ => 63) s
/-- TAGWR (R152): no flag and no SIGMIN check. -/
def execTagwr (x : RG) (s : State) : Host.Outcome State Fault Refusal :=
  let wide := x.sub == 1
  issue x.h (Instr.tagwr x).wf false
    (fun _ _ t => opdAlloc t x.d wide && opdAlloc t x.a.o wide && opdAlloc t x.b.o false)
    (fun i =>
      let a := rdA i x wide
      let b := rd i x.b false
      match gate i [a, b] [(x.d, wide)] with
      | some r => r
      | none =>
        putRes i x.d wide (fun l => BitVec.ofNat 64 (ival (pairBits wide) x.a.m (a.at_ l)))
          fun l => BitVec.ofNat 6 (ival 32 x.b.m (b.at_ l))) s
/-- The tag that PSIG compares (R153). -/
def psigTag (view : Nat) (v : Val) : Nat :=
  match view with
  | 0 => v.tag.toNat
  | 1 => (eff fp32 (decF fp32 (v.bits.toNat % 2 ^ 32)) v.tag.toNat).toNat
  | _ => (eff fp64 (decF fp64 v.bits.toNat) v.tag.toNat).toNat
/-- PSIG (R153). -/
def execPsig (c : Cond) (x : IM) (s : State) : Host.Outcome State Fault Refusal :=
  let wide := x.md == 2
  issue x.h (Instr.psig c x).wf false (fun _ _ t => opdAlloc t x.a.o wide)
    (fun i =>
      let a := rd i x.a wide
      match gate i [a] [(x.d, false)] with
      | some r => r
      | none =>
        putRes i x.d false (fun l => ofB (icmpF c (psigTag x.md.toNat (a.at_ l)) x.imm.toNat)) fun _ => 63) s

end Sys2Proof.Machine
end

