-- ==== Sys2Proof/Machine/Cvtq.lean ====
section
/-! DEFINITION. CVTQ (R148 to R150): quantising into and dequantising out of the format of a slot. -/

namespace Sys2Proof.Machine

/-- Group size of a quantised format (R148). -/
def cvtqG (fmt : Nat) : Nat := if fmt = 6 then 8 else 4
/-- Bits of an element. -/
def cvtqW (fmt : Nat) : Nat := if fmt = 6 then 4 else 8
/-- Width of the result type of an integer format. -/
def cvtqRange (fmt : Nat) : Int × Int := intRange (cvtqW fmt) true
/-- d of R149: 1 when both tags are equal and below 24. -/
def cvtqD (a b : Int) : Int := if a = b ∧ a < 24 then 1 else 0

/-- x / s into an integer format (R149, R50): special quotients are converted by R50. -/
def quotInt (fmt mode : Nat) (x s : FV) : Int × Nat :=
  let (lo, hi) := cvtqRange fmt
  let inf (n : Bool) : Int := if n then lo else hi
  match x, s with
  | .fin n1 m1 e1, .fin n2 m2 e2 =>
    if m2 = 0 then
      if m1 = 0 then (0, flInvalid) else (inf (n1 != n2), flInvalid ||| flDivZero)
    else exToInt mode lo hi (divEx 24 n1 m1 e1 n2 m2 e2)
  | .inf n, .fin k _ _ => (inf (n != k), flInvalid)
  | .fin _ _ _, .inf _ => (0, 0)
  | _, _ => (0, flInvalid)
/-- One quantised element (R149): `x` is the FP32 pattern after AM. -/
def quant1 (fmt mode : Nat) (sat : Bool) (x t : Nat) (s : FV) (ts : Int) : FO :=
  let v := decF fp32 x
  if fmt = 4 then
    let r := divF e4m3 mode sat v s
    let q := decF e4m3 r.1
    let tx := eff fp32 v t
    ⟨r.1, r.2, tagOf q (min (clamp (min tx ts - cvtqD tx ts) 0 24) (capOf e4m3 q))⟩
  else
    let r := quotInt fmt mode v s
    ⟨wrap r.1 (cvtqW fmt), r.2, 63⟩
/-- The lower of two tags. -/
def minTag (a b : Tag) : Tag := if a.toNat ≤ b.toNat then a else b
/-- A group quantised into one element (R149). -/
def quantAll (fmt mode : Nat) (sat : Bool) (xs : List (Nat × Nat)) (s : FV) (ts : Int) : FO :=
  let w := cvtqW fmt
  let os := xs.map fun x => quant1 fmt mode sat x.1 x.2 s ts
  ⟨(os.reverse).foldl (fun a o => a * 2 ^ w + o.y) 0, os.foldl (fun a o => a ||| o.fl) 0, os.foldl (fun a o => minTag a o.tag) 63⟩
/-- One dequantised element (R149): `q` is its bits, negated under AM. -/
def deq1 (fmt mode : Nat) (m : Bool) (q t : Nat) (s : FV) (ts : Int) : FO :=
  let v : FV :=
    if fmt = 4 then decF e4m3 (if m then q ^^^ 0x80 else q)
    else
      let k := sx q (cvtqW fmt)
      let k := if m then -k else k
      .fin (decide (k < 0)) k.natAbs 0
  let tq : Int := if fmt = 4 then eff e4m3 v t else 24
  let r := mulF fp32 mode false v s
  let y := decF fp32 r.1
  ⟨r.1, r.2, tagOf y (clamp (min tq ts - cvtqD tq ts) 0 (capOf fp32 y))⟩
/-- An element dequantised into its group (R149). -/
def deqAll (fmt mode : Nat) (m : Bool) (x t : Nat) (s : FV) (ts : Int) : List FO :=
  (List.range (cvtqG fmt)).map fun j => deq1 fmt mode m (x / 2 ^ (cvtqW fmt * j) % 2 ^ cvtqW fmt) t s ts

/-- Registers v(n) to v(n + k - 1). -/
def groupOpds (o : Opd) (k : Nat) : List Opd :=
  match o with
  | .v n => (List.range k).map fun j => .v (BitVec.ofNat 8 (n.toNat + j))
  | o => [o]
/-- The slot's format is one of the three (R148). -/
def cvtqFmtOk (sl : DWord) : Bool := slotFmt sl == 4 || slotFmt sl == 5 || slotFmt sl == 6
/-- The check of step 1 that depends on the slot: format, group alignment and allocation, the scale's record (R148, R150). -/
def cvtqDyn (quant : Bool) (x : RG) (s : State) (t : Team) : Bool :=
  let sl := recSlot (getLaunch s t.ctx t.seq).words x.slot.toNat
  let g := cvtqG (slotFmt sl)
  let grp := if quant then x.a.o else x.d
  cvtqFmtOk sl && rangeAlloc t grp g && (match grp with | .v n => n.toNat % g == 0 | _ => false) &&
  opdAlloc t (if quant then x.d else x.a.o) false &&
  (if slotScale sl = 0 then x.b == ⟨.v 0, false, false⟩ else opdAlloc t x.b.o false && (nget t.bufs (slotScb sl)).isSome)

/-- Results of one lane, as elements of the destination group. -/
def cvtqLane (quant : Bool) (fmt mode : Nat) (sat m : Bool) (xs : List (Nat × Nat)) (s : FV) (ts : Int) : List FO :=
  if quant then [quantAll fmt mode sat xs s ts]
  else match xs with
    | x :: _ => deqAll fmt mode m x.1 x.2 s ts
    | [] => []
/-- The lane's results as one: all flags, the lowest tag. -/
def cvtqJoin (os : List FO) : FO := ⟨0, os.foldl (fun a o => a ||| o.fl) 0, os.foldl (fun a o => minTag a o.tag) 63⟩
/-- Results in lane `l` of the destination group. -/
def cvtqPut (t : Team) (ds : List Opd) (pol l : Nat) (os : List FO) : Team :=
  (ds.zip os).foldl (fun t e => putOpd t e.1 false l (BitVec.ofNat 64 e.2.y) (polTag pol e.2.tag)) t
/-- A late result (R150): a destination shrunk away takes nothing; flags are merged and never trap. -/
def cvtqLand (t : Team) (ds : List Opd) (pol : FpPol) (l : Nat) (os : List FO) : Team :=
  let t1 := (ds.zip os).foldl (fun t e => land t e.1 false l (BitVec.ofNat 64 e.2.y) (polTag pol.sigpol e.2.tag)) t
  let j := cvtqJoin os
  landFlags t1 pol j.fl (polTag pol.sigpol j.tag)
/-- Scale and effective tag of a value read through the record (R150). -/
def scaleOf (x t : Nat) : FV × Int := (decF fp32 x, eff fp32 (decF fp32 x) t)

/-- Source registers of a CVTQ, as `producesInto` numbers registers: the group of a quantise, the one of a dequantise (R364). -/
def cvtqRegs (quant : Bool) (x : RG) (g : Nat) : List Nat :=
  match x.a.o with
  | .v n => if quant then (List.range g).map (n.toNat + ·) else [n.toNat]
  | .s n => [256 + n.toNat]
  | _ => []
/-- The source registers of a scaled CVTQ whose scale read faults are held until its log entry retires (R364). -/
def holdSources (s : State) (c sl grp : Nat) (regs : List Nat) : State :=
  if s.reqs.any fun q => q.grp == grp && isFaulted q then
    updTeam s c sl fun t => { t with heldRegs := t.heldRegs.filter (·.1 != grp) ++ regs.map fun n => (grp, n) }
  else s
/-- CVTQ (R148 to R150). -/
def cvtqBody (ins : Instr) (quant : Bool) (x : RG) (s : State) : Host.Outcome State Fault Refusal :=
  issue x.h ins.wf false (fun s _ t => cvtqDyn quant x s t)
    (fun i =>
      let sl := recSlot (wordsOf i) x.slot.toNat
      let fmt := slotFmt sl
      let g := cvtqG fmt
      let mode := rmode (wordsOf i) x.slot.toNat x.rnd
      let pol := slotSigpol sl
      let sat := slotSat sl
      let scaled := slotScale sl != 0
      let srcs : List Rd := if quant then (groupOpds x.a.o g).map fun o => rd i ⟨o, x.a.e, x.a.m⟩ false else [rdA i x false]
      let b := rd i x.b false
      let ds := if quant then [x.d] else groupOpds x.d g
      let val (r : Rd) (l : Nat) : Nat × Nat :=
        (if quant then fval fp32 x.a.m (r.at_ l) else (r.at_ l).bits.toNat % 2 ^ 32, (r.at_ l).tag.toNat)
      let xs (l : Nat) : List (Nat × Nat) := srcs.map fun r => val r l
      let out (sc : FV × Int) (l : Nat) : List FO := cvtqLane quant fmt mode sat x.a.m (xs l) sc.1 sc.2
      let undo := ds.flatMap fun o => undoOf i.t o false
      if !scaled then
        match gate i srcs (ds.map fun o => (o, false)) with
        | some r => r
        | none =>
          fpFinish i pol (fun l => cvtqJoin (out (.fin false 1 0, 24) l)) fun t =>
            .go (setTeam i.s i.core i.slot (pushUndo i.s (foldLanes i.act (fun t l => cvtqPut t ds pol l (out (.fin false 1 0, 24) l)) t) undo))
      else
        let m : MM := ⟨x.h, x.d, ⟨x.b.o, x.b.e, false⟩, default, BitVec.ofNat 4 (slotScb sl), .team, .weak, .b32, x.slot, 0, 0⟩
        let b' : Rd := ⟨b.e, fun l => ⟨BitVec.ofNat 64 (ival 32 x.b.m (b.at_ l)), 63, (b.at_ l).full⟩⟩
        withPlan i m (srcs ++ [b]) (ds.map fun o => (o, false)) b' (lanesOf i.act) fun p =>
          let fp : FpPol := ⟨mode, pol⟩
          let t1 := countOob i.t p.out.length
          let t2 := p.out.foldl (fun t l => cvtqLand t ds fp l (out (scaleOf 0 0) l)) t1
          let t3 := p.ins.foldl (fun t e => ds.foldl (fun t o => markOpd t o false e.1 false) t) t2
          let reqs := p.ins.map fun e =>
            { mkReq i e.1 (.scale quant x.d g fmt sat fp ((xs e.1).map fun v => BitVec.ofNat 64 (v.1 + (if x.a.m then 2 ^ 32 else 0)))
                ((xs e.1).map fun v => BitVec.ofNat 6 v.2)) with
              va := brAddr p.buf e.2 4, n := 4, read := true,
              shadowVa := if brT p.buf then some (brShadow p.buf e.2) else none }
          let im := imageOfOps i p.buf b' (some { b' with at_ := fun l => { b.at_ l with bits := (b'.at_ l).bits } })
          match sendAll i { p with img := { im with a := List.replicate 32 0 } } (pushUndo i.s t3 undo) reqs with
          | .go s' => .go (holdSources s' i.core i.slot i.grp (cvtqRegs quant x g))
          | r => r) s
/-- CVTQ.q (R148, R149). -/
def execCvtqQuantise (x : RG) (s : State) : Host.Outcome State Fault Refusal := cvtqBody (.cvtqQuantise x) true x s
/-- CVTQ.dq (R148, R149). -/
def execCvtqDequantise (x : RG) (s : State) : Host.Outcome State Fault Refusal := cvtqBody (.cvtqDequantise x) false x s

/-- Registers held for a logged instruction whose requests are over become free again (R364). -/
def freeHeld (s : State) (r : Req) : State :=
  if s.reqs.any fun q => q.grp == r.grp && q.core == r.core && q.tid == r.tid then s
  else updTeam s r.core r.slot fun t => { t with heldRegs := t.heldRegs.filter fun h => h.1 != r.grp }
/-- The lane's group when its scale `x` with tag `t` is known (R150). Bit 32 of the first source holds AM of a dequantise. -/
def landScale (s : State) (r : Req) (x t : Nat) : State :=
  match r.kind with
  | .scale quant d g fmt sat pol xs ts =>
    let sc := scaleOf x t
    let srcs := (xs.zip ts).map fun e => (e.1.toNat % 2 ^ 32, e.2.toNat)
    let m := !quant && (xs.headD 0).getLsbD 32
    let os := cvtqLane quant fmt pol.mode sat m srcs sc.1 sc.2
    freeHeld (withTeam (pulse (dropReq s r.id) r.ctx) r fun u =>
      cvtqLand u (if quant then [d] else groupOpds d g) pol r.lane os) r
  | _ => s
/-- CVTQ_SCALE_ARRIVAL (R150, R214): the scale and its shadow byte are separate accesses, as those of LD.32. -/
def execCvtqScaleArrival (x : Parts) (s : State) : Host.Outcome State Fault Refusal :=
  match getReq s x.id with
  | some r =>
    match r.kind with
    | .scale .. =>
      if canRead s r then
        let z := (partsNow (readParts r) r.got x.which).foldl (fun (z : Req × State) k => readPart z.2 z.1 k) (r, s)
        .next (if (readParts r).all z.1.got.contains then landScale z.2 z.1 z.1.val.toNat z.1.vtag.toNat else putReq z.2 z.1)
      else .next s
    | _ => .next s
  | none => .next s

end Sys2Proof.Machine
end

