-- ==== Sys2Proof/Machine/Tasks.lean ====
section
/-! DEFINITION. The task unit (R322 to R325, R335 to R344): LAUNCH, EVSIG, EVWAIT, command queues, and the start and completion of
launches. -/

namespace Sys2Proof.Machine

/-! ### LAUNCH (R322) -/

/-- LAUNCH. An index out of bounds and a record of the other world are refused when the task unit takes the request. -/
def execLaunch (x : EN) (s : State) : Host.Outcome State Fault Refusal :=
  issue x.h (Instr.launch x).wf x.rel (fun _ _ t => bound t x.b.o && opdAlloc t x.d true)
    (fun i =>
      let a := rd i x.a false
      match gate i [a] [(x.d, true)] with
      | some r => r
      | none =>
        if 1024 ≤ waiting (getCtx i.s i.t.ctx) then .wait
        else
          let r := bufOf i.t (xNum x.b.o)
          let l := lowest i.act
          let idx := sx (a.at_ l).bits.toNat 32
          let oob := !brIn r idx
          if oob && brOobTrap r then .trap (trapAt 5 i.pc (maskOfList [l]))
          else
            let no := oob || brWld r != (getCore i.s i.core).world
            let t1 := countOob i.t (if oob then 1 else 0)
            let t2 := pushUndo i.s (markLanes t1 x.d true i.act false) (undoOf i.t x.d true)
            let q := { mkReq i l (.launch x.d true x.rel no []) with va := brAddr r idx 128, rel := x.rel, scope := x.scope, relScope := x.scope }
            .go (spendReplay (post (setTeam i.s i.core i.slot t2) q) i.t.ctx i.t.seq)) s
/-- The answer to a LAUNCH fills D with tag 63. -/
def answerLaunch (s : State) (r : Req) (d : Opd) (pair : Bool) (x : DWord) : State :=
  withTeam (pulse (dropReq s r.id) r.ctx) r fun t => if opdAlloc t d pair then putLanes t d pair r.act (fun _ => x) fun _ => 63 else t
/-- Whether earlier accesses of the launching team hold the reading of its record: with REL all of them, else the writes that touch it. -/
def launchHeld (s : State) (r : Req) (rel : Bool) (ls : List Loc) : Bool :=
  s.reqs.any fun q => q.core == r.core && q.tid == r.tid && isAccess q && decide (q.id < r.id) && !isTicketRead q &&
    (rel || (q.write && (isFaulted q || ls.any fun l => match q.loc with | some b => overlap b q.n l 8 | none => false)))
/-- The reading of a LAUNCH's record is held at a fault (R365). -/
def holdLaunch (s : State) (r : Req) (v c i a : Nat) : State :=
  queueFault (putReq s { r with fault := c, info := i }) r.ctx
    ⟨c, 6, a, 0, r.slot, 0, 0, r.pc, 0, 0, v, 0, BitVec.ofNat 64 i, r.rgncnt, 2 * r.id⟩
/-- One word of a LAUNCH's record is read ahead of its taking (R216, R327). -/
def launchAhead (id : Nat) (s : State) (k : Nat) : State :=
  match getReq s id with
  | some r =>
    match r.kind, (recAccs r.va)[k]? with
    | .launch d p rel no early, some a =>
      if no || isFaulted r || (aheadOf early k).isSome then s
      else
        let x := accNow s (taskEng s r.ctx []) a
        match x.1 with
        | .ok v =>
          if launchHeld s r rel v.2.toList then s
          else putReq x.2 { r with kind := .launch d p rel no (early ++ [(k, BitVec.ofNat 80 v.1)]) }
        | .fault v c i q => holdLaunch x.2 r v c i q
        | .world => s
    | _, _ => s
  | none => s
/-- LAUNCH_TAKEN (R322, R331, R332): the task unit takes the record; or, where words are named, it has read these ahead. -/
def execLaunchTaken (x : Parts) (s : State) : Host.Outcome State Fault Refusal :=
  match getReq s x.id with
  | some r =>
    match r.kind with
    | .launch d p rel no early =>
      let refuse (s : State) (k : Nat) : State := answerLaunch s r d p (BitVec.ofNat 64 (2 ^ 63 + k))
      if no then .next (refuse s 1)
      else if !x.which.isEmpty then .next (x.which.foldl (launchAhead x.id) s)
      else if isFaulted r || decide (1024 ≤ waiting (getCtx s r.ctx)) then .next s
      else
        let w := recWords s (taskEng s r.ctx []) early r.va
        match w.1 with
        | .world => .next (refuse w.2 1)
        | .fault v c i a => .next (holdLaunch w.2 r v c i a)
        | .ok (ws, ls) =>
          if launchHeld s r rel ls then .next s
          else
            let k := recCheck ws (getCtx s r.ctx).world
            if k = 0 then .next (answerLaunch (acceptRec w.2 r.ctx ws false 0) r d p (BitVec.ofNat 64 ((getCtx s r.ctx).nextSeq % 2 ^ 63)))
            else .next (refuse w.2 (256 * k + 2))
    | _ => .next s
  | none => .next s

/-! ### Events (R323 to R325) -/

/-- Number of the event that an instruction names (R323). -/
def evtNo (i : Issue) (x : EN) : Nat :=
  let b := if srcZero x.b then 0 else (rdOpd i.s i.t x.b.o true (lowest i.act)).bits.toNat
  (x.imm.toNat % 4096 + b % 4096) % 4096
/-- A source of an event instruction: B unless it is absent, A unless it is absent. -/
def evtSrcs (i : Issue) (x : EN) : List Rd :=
  (if srcZero x.a then [] else [rd i x.a true]) ++ (if srcZero x.b then [] else [rd i x.b true])
/-- A, or 1. -/
def evtArg (i : Issue) (x : EN) : DWord := if srcZero x.a then 1 else (rdOpd i.s i.t x.a.o true (lowest i.act)).bits
/-- The release that an earlier release fence makes of an event's add (R219, R324). -/
def evSent (t : Team) (q : Req) : Req :=
  let y := fenced t { q with strong := true, write := true }
  { q with rel := y.rel, relScope := y.relScope }
/-- EVSIG (R324). -/
def execEvsig (x : EN) (s : State) : Host.Outcome State Fault Refusal :=
  issue x.h (Instr.evsig x).wf x.rel (fun _ _ _ => true)
    (fun i =>
      match gate i (evtSrcs i x) [] with
      | some r => r
      | none =>
        let q := evSent i.t { mkReq i (lowest i.act) (.evAdd (evtNo i x) (evtArg i x)) with rel := x.rel, scope := x.scope, relScope := x.scope }
        .go (spendReplay (post i.s q) i.t.ctx i.t.seq)) s
/-- EVENT_ADD (R324): a release add follows every earlier access of its team. -/
def execEventAdd (id : Nat) (s : State) : Host.Outcome State Fault Refusal :=
  match getReq s id with
  | some r =>
    match r.kind with
    | .evAdd n a =>
      let held := r.rel && s.reqs.any fun q => q.core == r.core && q.tid == r.tid && isAccess q && decide (q.id < r.id) && !isTicketRead q
      .next (if held then s else reap (addEvent (dropReq s id) r.ctx n a) r.core r.slot)
    | _ => .next s
  | none => .next s
/-- EVWAIT (R325, R367). -/
def execEvwait (x : EN) (s : State) : Host.Outcome State Fault Refusal :=
  issue x.h (Instr.evwait x).wf false (fun _ _ _ => true)
    (fun i =>
      match gate i (evtSrcs i x) [] with
      | some r => r
      | none =>
        let n := ngetD 0 (getCtx i.s i.t.ctx).events (evtNo i x)
        if (evtArg i x).toNat ≤ n.toNat && acqPart i x.acq then .go i.s else .wait) s

/-! ### Command queues (R335 to R338) -/

/-- A 32-bit count at a physical address (R335). -/
def countWord (s : State) (pa : Nat) : Nat := leNat (getBytes s.mem pa 4)
/-- Write a count word. -/
def putCount (s : State) (pa n : Nat) : State := storeAt s (.hbm pa) (leBytes 8 (n % 2 ^ 32))
/-- Records in a queue that have not been taken, modulo 2^32. -/
def queued (s : State) (q : Queue) : Nat := wrap ((countWord s q.tail : Int) - q.taken.toNat) 32
/-- Whether queue `n` is the next with records waiting, in rotation after the last one served (R338). -/
def queueTurn (s : State) (k : Ctx) (n : Nat) : Bool :=
  let has (j : Nat) : Bool := match nget k.queues j with | some q => !q.stopped && queued s q != 0 && !queueHeld k j | none => false
  ((List.range 4).map fun d => (k.lastQueue + 1 + d) % 4).find? has == some n
/-- Virtual address of the next record of a queue (R327; log entry 25). -/
def nextRec (u : Queue) : Nat := u.base + 2048 * (u.taken.toNat % 2 ^ u.sizeLog2)
/-- The monitor takes the next record of queue `q`; a page that does not translate, or of the other world, holds the queue and leaves a fault
record (log entry 25). -/
def takeRecord (s : State) (ctx q : Nat) (u : Queue) : State :=
  let k := getCtx s ctx
  let w := recWords s (taskEng s ctx u.gone) u.early (nextRec u)
  match w.1 with
  | .fault v c i a => queueFault w.2 ctx (taskFault c v (engInfo c i q) a (queueGrp q))
  | .world => queueFault w.2 ctx (taskFault 5 (nextRec u) q 0 (queueGrp q))
  | .ok (ws, _) =>
    let d := recCheck ws k.world
    let s1 := putCount w.2 u.head (u.taken + 1).toNat
    let s2 := updCtx s1 ctx fun k =>
      { k with queues := nset k.queues q { u with taken := u.taken + 1, gone := [], early := [] }, lastQueue := q }
    let s3 := acceptRec s2 ctx ws k.fw d
    if d = 0 then s3 else finishLaunch s3 ctx k.nextSeq
/-- One word of the next record of queue `q` is read ahead of its taking (R216, R327). -/
def recordAhead (ctx q : Nat) (s : State) (k : Nat) : State :=
  match nget (getCtx s ctx).queues q with
  | none => s
  | some u =>
    match (recAccs (nextRec u))[k]? with
    | none => s
    | some a =>
      if queueHeld (getCtx s ctx) q || (aheadOf u.early k).isSome then s
      else
        let x := accNow s (taskEng s ctx u.gone) a
        match x.1 with
        | .ok v => updCtx x.2 ctx fun c => { c with queues := nset c.queues q { u with early := u.early ++ [(k, BitVec.ofNat 80 v.1)] } }
        | .fault v c i p => queueFault x.2 ctx (taskFault c v (engInfo c i q) p (queueGrp q))
        | .world => s
/-- QUEUE_TAIL_READ (R336 to R338, R332): the monitor reads the tail and takes one record, or stops the queue; where words of the record are
named, it has read these ahead. -/
def execQueueTailRead (ctx : Nat) (x : Parts) (s : State) : Host.Outcome State Fault Refusal :=
  let k := getCtx s ctx
  let q := x.id
  match nget k.queues q with
  | none => .next s
  | some u =>
    if u.stopped || k.st == .free || k.st == .resetting then .next s
    else
      let a := unitAcquire s (.hbm u.tail) 8
      if !a.1 then .next a.2
      else if 2 ^ u.sizeLog2 < queued a.2 u then
        .next (queueFault (updCtx a.2 ctx fun k => { k with queues := nset k.queues q { u with stopped := true } }) ctx
          (taskFault 4 0 q 0 0))
      else if queued a.2 u = 0 || decide (1024 ≤ waiting k) || !queueTurn a.2 k q || queueHeld k q then .next a.2
      else if !x.which.isEmpty then .next (x.which.foldl (recordAhead ctx q) a.2)
      else .next (takeRecord a.2 ctx q u)
/-- QUEUE_RESET (R337): a stopped queue is served again. -/
def execQueueReset (ctx q : Nat) (s : State) : Host.Outcome State Fault Refusal :=
  .next (updCtx s ctx fun k => { k with queues := nupd k.queues q fun u => { u with stopped := false, early := [] } })

/-! ### Start and completion (R339 to R345) -/

/-- Highest level bound to core, cluster or die: the level of the placement units, or that of the workgroups (R345). -/
def placeLevel (ws : List DWord) : Nat :=
  ((List.range (recTop ws + 1)).filter fun n => decide (2 ≤ n) && decide (recBind ws n ≤ 2)).getLast?.getD (wgLevel ws)
/-- Placement units of a launch (R345). -/
def unitCount (q : Launch) : Nat := q.grid * (teamsIn q.words (recTop q.words) / teamsIn q.words (placeLevel q.words))
/-- Chunk numbers of each die (R345). -/
def dieChunks (n chunk : Nat) : List (List Nat) :=
  let c := (n + chunk - 1) / chunk
  (List.range 4).map fun d => (List.range c).filter fun k => k % 4 == d
/-- Weight-store read regions of a record. -/
def wsReads (ws : List DWord) : List (Nat × Nat × Nat) := (readRegions ws).filter fun r => r.1 == 1
/-- Weight-store regions that a weight-load launch writes. -/
def wsWrites (ws : List DWord) : List (Nat × Nat × Nat) := (writeRegions ws).filter fun r => r.1 == 1 && recWload ws
/-- The weight-store rule (R205; nothing waits for a rejected record, R332): no weight-load launch starts beside a resident reader of its range,
and a reader waits for an earlier one. -/
def weightFree (s : State) (q : Launch) : Bool :=
  s.ctxs.all fun e => e.2.launches.all fun p =>
    p.st == .complete || p.num == q.num || p.reject != 0 ||
    (!(p.st == .started && anyMeet (wsWrites q.words) (wsReads p.words)) &&
     !(decide (p.num < q.num) && anyMeet (wsWrites p.words) (wsReads q.words)))
/-- Whether a launch may start (R339, R205, R379). -/
def mayStart (s : State) (x : Nat) (q : Launch) : Bool :=
  q.st == .accepted && q.fault == 0 && (getCtx s x).st == .running && s.ctl.mode == .running &&
  (q.after.all fun p => (getLaunch s x p).st == .complete) && weightFree s q
/-- A launch starts with grid `n`: the versions of its code count from here on (R90), its chunks go to the Drovers. -/
def startWith (s : State) (x seq n : Nat) : State :=
  let s1 := updLaunch s x seq fun q =>
    let q := { q with grid := n }
    { q with st := .started, begun := s.past.length, chunks := dieChunks (unitCount q) (recChunk q.words),
             inHand := List.replicate 4 [], left := unitCount q, live := 0, bars := [], ended := [] }
  if n = 0 then finishLaunch s1 x seq else s1
/-- LAUNCH_START (R339, R341, R343). -/
def execLaunchStart (ctx seq : Nat) (s : State) : Host.Outcome State Fault Refusal :=
  let q := getLaunch s ctx seq
  if !mayStart s ctx q then .next s
  else if !recLmode q.words then .next (startWith s ctx seq (recGrid q.words))
  else
    let va := recCntAddr q.words
    let h := engAt s (taskEng s ctx q.gone) false va 0
    match h.1 with
    | .ok none => .next (startWith h.2 ctx seq 0)
    | .ok (some l) =>
      let a := unitAcquire h.2 l 4
      .next (if a.1 then startWith a.2 ctx seq (leNat (readLoc a.2 l 4)) else a.2)
    | .world => .next (startWith (queueFault h.2 ctx (taskFault 5 va 0 0 0)) ctx seq 0)
    | .fault v c i a => .next (queueFault (updLaunch h.2 ctx seq fun q => { q with fault := c }) ctx (taskFault c v i a (launchGrp seq)))

/-- Whether a fetch belongs to a ticket entry, which holds no completion (R340). -/
def isFetch (r : Req) : Bool := match r.kind with | .fetch .. => true | _ => false
/-- Whether engines still hold work of a launch. -/
def engineWork (s : State) (x seq : Nat) : Bool :=
  (s.cores.any fun k =>
    (k.2.chans.any fun c => c.2.any fun m => m.ctx == x && m.seq == seq) || (k.2.tops.any fun o => o.ctx == x && o.seq == seq) ||
    (k.2.deliveries.any fun d => d.ctx == x && d.seq == seq)) ||
  (getCtx s x).colls.any fun m => m.seq == seq
/-- Write every dirty TLB entry that satisfies `f` back to its leaf (R361). -/
def harvest (f : TlbEntry → Bool) (s : State) : State :=
  let all := s.deviceTlb ++ s.cores.flatMap fun k => k.2.tlb
  let s1 := (all.filter f).foldl writeBack s
  let clean (e : TlbEntry) : TlbEntry := if f e then { e with dirty := false } else e
  { s1 with deviceTlb := s1.deviceTlb.map clean, cores := s1.cores.map fun k => (k.1, { k.2 with tlb := k.2.tlb.map clean }) }
/-- Whether a launch has completed (R340). -/
def launchOver (s : State) (x : Nat) (q : Launch) : Bool :=
  q.st == .started && q.fault == 0 &&
  (q.reject != 0 || (q.left == 0 && q.live == 0 && !engineWork s x q.seq && !q.poisoned &&
    s.reqs.all fun r => !(r.ctx == x && r.seq == q.seq) || isFetch r))
/-- LAUNCH_COMPLETE (R340, R344, R361). -/
def execLaunchComplete (ctx seq : Nat) (s : State) : Host.Outcome State Fault Refusal :=
  let q := getLaunch s ctx seq
  .next (if launchOver s ctx q && ctxActive s ctx then finishLaunch (harvest (fun e => e.ctx == ctx) s) ctx seq else s)

end Sys2Proof.Machine
end

