-- ==== Sys2Proof/Machine/Drover.lean ====
section
/-! DEFINITION. The Drovers (R162, R333, R345 to R347, R385, R463): placing units on cores, starting teams, stealing. -/

namespace Sys2Proof.Machine

/-! ### Levels of a unit (R160, R345) -/

/-- LVL1 to LVL7 of the team with number `g` in the grid. -/
def lvlsOf (ws : List DWord) (g : Nat) : List Nat :=
  (List.range 7).map fun k =>
    let n := k + 1
    if recTop ws < n then 0
    else if n = recTop ws then g / teamsIn ws n
    else g / teamsIn ws n % recExtent ws (n + 1)

/-! ### What a core holds -/

/-- Slots to which suspended teams of a core are to return (R386). -/
def reservedSlots (s : State) (c : Nat) : List Nat :=
  s.ctxs.flatMap fun x => x.2.saved.flatMap fun k => if k.core = c then k.teams.map (·.1) else []
/-- The `n` resident team slots that a workgroup takes (R463). -/
def takeSlots (s : State) (c n : Nat) : Option (List Nat) :=
  let free := (List.range Config.teamSlots).filter fun k => (nget (getCore s c).teams k).isNone
  let best := free.filter fun k => !(reservedSlots s c).contains k
  if n ≤ best.length then some (best.take n) else if n ≤ free.length then some (free.take n) else none
/-- Suspended shares of a core: context, first line, lines, lines already moved to the mirror (R385). -/
def suspendedShares (s : State) (c : Nat) : List (Nat × Nat × Nat × List Nat) :=
  s.ctxs.flatMap fun x => x.2.saved.flatMap fun k =>
    if k.core = c then k.wgs.map fun w => (x.1, w.shareLine, w.shareLines, k.mirrored) else []
/-- Whether `n` lines from `a` meet a run of lines. -/
def runMeets (a n b m : Nat) : Bool := decide (a < b + m) && decide (b < a + n)
/-- Whether a suspended share owns a line. -/
def heldBySuspended (s : State) (c line : Nat) : Bool :=
  (suspendedShares s c).any fun x => decide (x.2.1 ≤ line) && decide (line < x.2.1 + x.2.2.1) && !x.2.2.2.contains line
/-- First line of the share of `n` lines that a workgroup takes: the lowest run that no share owns, else the lowest that only suspended
shares own (R463, R385). -/
def takeLines (s : State) (c n : Nat) : Option Nat :=
  if n = 0 then some 0
  else
    let live := ((getCore s c).wgs.filter fun w => w.shareLines != 0).map fun w => (w.shareLine, w.shareLines)
    let susp := (suspendedShares s c).filter fun x => x.2.2.1 != 0
    let ends := sortAsc (0 :: live.map (fun r => r.1 + r.2) ++ susp.map (fun x => x.2.1 + x.2.2.1))
    let mirrored := susp.flatMap fun x => x.2.2.2
    let starts := sortAsc (ends ++ mirrored)
    let ok (a : Nat) : Bool := decide (a + n ≤ 8192) && live.all fun r => !runMeets a n r.1 r.2
    let free (a : Nat) : Bool := ok a && (susp.isEmpty || (List.range n).all fun j => !heldBySuspended s c (a + j))
    match starts.find? free with
    | some a => some a
    | none => starts.find? ok
/-- Entries of a map whose keys lie in a range, and the others. -/
def inRange {α : Type} (m : NMap α) (lo n : Nat) : NMap α := m.filter fun e => decide (lo ≤ e.1) && decide (e.1 < lo + n)
def outRange {α : Type} (m : NMap α) (lo n : Nat) : NMap α := m.filter fun e => !(decide (lo ≤ e.1) && decide (e.1 < lo + n))
/-! ### The save area (R384; log entry 82) -/

/-- First byte of the team record of slot `sl` of core `c`, and of a workgroup record and a line mirror, in a save area at `base`. -/
def teamRecordAt (base c sl : Nat) : Nat := base + Config.teamRecord * (c * Config.teamSlots + sl)
def wgRecordAt (base c n : Nat) : Nat := teamRecordAt base Config.cores 0 + Config.wgRecord * (c * Config.teamSlots + n)
def mirrorAt (base c : Nat) : Nat := wgRecordAt base Config.cores 0 + Config.lineMirror * c
/-- First byte of the undo area of slot `sl` of core `c`, which the save area has under the context's debug mode bit (R384, R390). -/
def undoAreaAt (base c sl : Nat) : Nat := mirrorAt base Config.cores + Config.undoArea * (c * Config.teamSlots + sl)
/-- The 16-B header of an entry: its kind, and the register or the place of the line (log entry 82). -/
def undoHead (kind a b : Nat) : List Byte := leBytes 8 (kind + 2 ^ 8 * b) ++ leBytes 8 a
/-- An entry of the undo log as the 320 B of its place in the undo area (R390; the order within it is that of log entry 82). -/
def undoBytes (u : Undo) : List Byte :=
  let one (es : List Elem) : List Byte :=
    (es.flatMap fun e => leBytes 4 e.val.toNat) ++ (es.map fun e => e.tag.setWidth 8) ++
      leBytes 4 (maskOf fun l => (nth default es l).full).toNat
  let bs : List Byte :=
    match u with
    | .vreg n es => undoHead 0 n 0 ++ one es
    | .sreg n e => undoHead 1 n 0 ++ leBytes 8 e.val.toNat ++ [e.tag.setWidth 8, if e.full then 1 else 0]
    | .preg n e => undoHead 2 n 0 ++ leBytes 4 e.val.toNat ++ leBytes 4 e.full.toNat
    | .memLine _ l old tags full =>
      (match l with
        | .hbm a => undoHead 3 a 0
        | .scratch c a => undoHead 4 a c
        | .weight a => undoHead 5 a 0
        | .remote chip key a => undoHead 6 a (remoteKey chip key)) ++ old ++ (tags.map fun t => t.setWidth 8) ++ [if full then 1 else 0]
    | .entry .. => []
  (bs ++ List.replicate 320 0).take 320
/-- The new entries of a team's undo log go to its undo area, a ring of 4,096 places (R390). -/
def flushUndo (s : State) (c sl : Nat) : State :=
  match getTeam s c sl with
  | none => s
  | some t =>
    if t.undoNew.isEmpty || !(getCtx s t.ctx).debug then s
    else
      let at_ (n : Nat) : Nat := undoAreaAt (getCtx s t.ctx).saveBase c sl + 320 * (n % 4096)
      let w := t.undoNew.reverse.foldl (fun (w : Nat × NMap Byte) u => (w.1 + 1, putBytes w.2 (at_ w.1) (undoBytes u))) (t.undoNum, s.mem)
      setTeam { s with mem := w.2 } c sl { t with undoNum := w.1, undoNew := [] }
/-- A scratchpad line in the line mirror at `m`: its bytes, its word tags of 6 bits, its F/E bit, each by line number. -/
def mirrorLine (k : Core) (m line : Nat) (mem : NMap Byte) : NMap Byte :=
  let tags := (List.range 32).foldl (fun x w => x + (ngetD 63 k.tags (32 * line + w)).toNat * 2 ^ (6 * w)) 0
  let fe := m + 2 ^ 20 + 196608 + line / 8
  let old := (ngetD 0 mem fe).toNat
  let bit := 2 ^ (line % 8)
  let rest := old - (if old.testBit (line % 8) then bit else 0)
  let m1 := putBytes mem (m + 128 * line) (getBytes k.bytes (128 * line) 128)
  let m2 := putBytes m1 (m + 2 ^ 20 + 24 * line) (leBytes 24 tags)
  nsetD 0 m2 fe (BitVec.ofNat 8 (rest + (if k.empty.contains line then 0 else bit)))
/-- Lines of `n` from `a` on that the suspended shares of a context on a core own in place. -/
def ownedLines (m : SavedCore) (a n : Nat) : List Nat :=
  (List.range n).filterMap fun j =>
    let line := a + j
    if (m.wgs.any fun w => decide (w.shareLine ≤ line) && decide (line < w.shareLine + w.shareLines)) && !m.mirrored.contains line
    then some line else none
/-- Lines of suspended shares, but those of context `but`, go to their line mirrors (R385). -/
def mirrorLines (s : State) (c a n : Nat) (but : Option Nat) : State :=
  let k := getCore s c
  let save (m : SavedCore) : SavedCore :=
    if m.core ≠ c then m
    else
      (ownedLines m a n).foldl
        (fun (m : SavedCore) line => { m with
          bytes := (inRange k.bytes (128 * line) 128).foldl (fun b e => nset b e.1 e.2) m.bytes,
          tags := (inRange k.tags (32 * line) 32).foldl (fun b e => nset b e.1 e.2) m.tags,
          empty := if k.empty.contains line then insAsc line m.empty else m.empty,
          mirrored := insAsc line m.mirrored }) m
  let ours (x : Nat × Ctx) : Bool := but != some x.1
  let image (mem : NMap Byte) (x : Nat × Ctx) : NMap Byte :=
    ((x.2.saved.filter fun m => m.core == c).flatMap fun m => ownedLines m a n).foldl
      (fun mem line => mirrorLine k (mirrorAt x.2.saveBase c) line mem) mem
  { s with
    mem := (s.ctxs.filter ours).foldl image s.mem,
    ctxs := s.ctxs.map fun x => if ours x then (x.1, { x.2 with saved := x.2.saved.map save }) else x }
/-- The lines of a new share: 0, tags 63, full (R196). -/
def clearLines (s : State) (c a n : Nat) : State :=
  updCore s c fun k => { k with
    bytes := outRange k.bytes (128 * a) (128 * n),
    tags := outRange k.tags (32 * a) (32 * n),
    empty := k.empty.filter fun l => !(decide (a ≤ l) && decide (l < a + n)) }

/-! ### Teams (R23, R30, R155, R333) -/

/-- A team as it starts. -/
def startTeam (ctx : Nat) (q : Launch) (w : Wg) (tid clock : Nat) (lvl : List Nat) : Team :=
  let ws := q.words
  let t : Team := { (default : Team) with
    tid := tid, ctx := ctx, seq := q.seq, wg := w.id, lvl := lvl, alloc := recRegs ws, lpc := List.replicate 32 0,
    live := BitVec.allOnes 32, key := clock, age := clock, lastIssue := clock, collNo := List.replicate 8 0,
    bufs := ((List.range 16).map fun n => (n, recBuf ws n)).filter fun e => e.2 != 0 }
  let t1 := (List.range 64).foldl (fun t n => setS t n ⟨recSVal ws n, true, recSTag ws n⟩) t
  let t2 := if recSbv ws then setS t1 (recShareBase ws) ⟨BitVec.ofNat 64 (128 * w.shareLine), true, 63⟩ else t1
  if recLscv ws then setS t2 (recLsc ws) ⟨BitVec.ofNat 64 (recListAddr ws + 16 * lvlOf lvl (recTop ws)), true, 63⟩ else t2

/-! ### Placement (R162, R347) -/

/-- The teams of a workgroup in the order in which they take resident team slots: ascending LVL1, equal ones by their number (R463; log
entry 81). -/
def byLvl1 (ws : List DWord) (g n : Nat) : List Nat :=
  let key (j : Nat) : Nat := lvlOf (lvlsOf ws (g + j)) 1 * n + j
  sortBy (fun a b => decide (key a < key b)) (List.range n)
/-- A core takes the workgroup whose first team has number `g` in the grid, if it can hold it (R162, R169, R456). -/
def takeWg (s : State) (c ctx : Nat) (q : Launch) (g : Nat) : Option State :=
  let k := getCore s c
  let ws := q.words
  let n := teamsIn ws (wgLevel ws)
  let len := 8 * recShare ws
  if k.world != q.world || !(growthQueue s c).isEmpty || decide (freeBlocks k < n * (recRegs ws / 16)) then none
  else
    match takeSlots s c n, takeLines s c len with
    | some slots, some a =>
      let w : Wg :=
        { id := s.nextId, ctx := ctx, seq := q.seq, unit := (lvlsOf ws g).drop (wgLevel ws - 1), teams := n, ended := [], shareLine := a,
          shareLines := len, granules := recPool ws, tileCount := recTiles ws, tiles := [], delivered := List.replicate 8 0 }
      let s1 := clearLines (mirrorLines s c a len none) c a len
      let s2 := updCore { s1 with nextId := s.nextId + 1 + n } c fun k => { k with wgs := k.wgs ++ [w] }
      let put (s : State) (e : Nat × Nat) : State :=
        let t := startTeam ctx q w (w.id + 1 + e.1) s.clock (lvlsOf ws (g + e.1))
        setTeam s c e.2 (if (getCtx s ctx).debug then { t with undo := [.entry 0 t.lpc t.live (snapOf t)] } else t)
      some (((byLvl1 ws g n).zip slots).foldl put s2)
    | _, _ => none
/-- Place workgroups on the lowest-numbered cores of `cores` that can hold them; `used` are the cores that this unit has taken, which
another of its workgroups may not take where `apart` (R162). -/
def placeWgs (ctx : Nat) (q : Launch) (cores : List Nat) (apart : Bool) : List Nat → List Nat → State → Option (State × List Nat)
  | [], used, s => some (s, used)
  | g :: gs, used, s =>
    let try_ (c : Nat) : Option (State × Nat) :=
      if apart && used.contains c then none else (takeWg s c ctx q g).map fun s => (s, c)
    match cores.findSome? try_ with
    | some (s1, c) => placeWgs ctx q cores apart gs (c :: used) s1
    | none => none
/-- Cores from `a` on. -/
def coreSpan (a n : Nat) : List Nat := (List.range n).map (a + ·)
/-- Place groups of workgroups, each on the lowest-numbered domain that can hold it. -/
def placeGroups (ctx : Nat) (q : Launch) (domains : List (List Nat)) (apart : Bool) : List (List Nat) → List Nat → State → Option State
  | [], _, s => some s
  | gs :: rest, used, s =>
    match domains.findSome? fun d => placeWgs ctx q d apart gs used s with
    | some (s1, used1) => placeGroups ctx q domains apart rest used1 s1
    | none => none
/-- First-team numbers of the workgroups of `n` teams from team `g` on. -/
def wgStarts (ws : List DWord) (g n : Nat) : List Nat := (List.range (n / teamsIn ws (wgLevel ws))).map fun j => g + j * teamsIn ws (wgLevel ws)
/-- Place unit `u` of a launch on die `die` (R162, R345). -/
def placeUnit (s : State) (die ctx : Nat) (q : Launch) (u : Nat) : Option State :=
  let ws := q.words
  let p := placeLevel ws
  let n := teamsIn ws p
  let bind := recBind ws p
  let whole := coreSpan (die * Config.coresPerDie) Config.coresPerDie
  let clusters := (List.range 6).map fun k => coreSpan (die * Config.coresPerDie + k * Config.coresPerCluster) Config.coresPerCluster
  let apart := decide (2 ≤ wgLevel ws) && decide (2 ≤ p) && (bind == 1 || bind == 2)
  let inner := (List.range p).filter fun k => decide (2 ≤ k) && recBind ws k == 1
  if decide (2 ≤ p) && bind == 1 then placeGroups ctx q clusters apart [wgStarts ws (u * n) n] [] s
  else match decide (2 ≤ p) && bind == 2, inner.getLast? with
    | true, some k =>
      let m := teamsIn ws k
      placeGroups ctx q clusters apart ((List.range (n / m)).map fun j => wgStarts ws (u * n + j * m) m) [] s
    | _, _ => placeGroups ctx q [whole] apart [wgStarts ws (u * n) n] [] s
/-- The unit that die `die` places next for a launch. -/
def nextUnit (q : Launch) (die : Nat) : Option Nat :=
  match nth [] q.inHand die, nth [] q.chunks die with
  | u :: _, _ => some u
  | [], c :: _ => some (c * recChunk q.words)
  | [], [] => none
/-- The launch after its next unit on a die has been placed. -/
def unitTaken (q : Launch) (die : Nat) : Launch :=
  let q1 := { q with left := q.left - 1, live := q.live + teamsIn q.words (placeLevel q.words) }
  match nth [] q.inHand die, nth [] q.chunks die with
  | _ :: us, _ => { q1 with inHand := setNth q.inHand die us }
  | [], c :: cs =>
    let lo := c * recChunk q.words
    let hi := min (lo + recChunk q.words) (unitCount q)
    { q1 with inHand := setNth q.inHand die ((List.range (hi - lo - 1)).map (lo + 1 + ·)), chunks := setNth q.chunks die cs }
  | [], [] => q
/-- Launches that a Drover considers, in the order of its choice: key, context, launch (R347). -/
def droverQueue (s : State) (die : Nat) : List (Nat × Nat × Launch) :=
  let last := ngetD 63 s.drovers die
  let all := s.ctxs.flatMap fun x =>
    if x.2.st != .running then []
    else (x.2.launches.filter fun q => q.st == .started && q.reject == 0 && (nextUnit q die).isSome).map fun q =>
      (((3 - recPrio q.words) * 64 + (x.1 + 128 - last - 1) % 64) * 2 ^ 64 + q.seq, x.1, q)
  sortBy (fun a b => decide (a.1 < b.1)) all
/-- The first launch of the queue whose next unit the die can hold now, placed. -/
def firstPlaced (s : State) (die : Nat) : Option (State × Nat × Launch) :=
  (droverQueue s die).findSome? fun e =>
    match nextUnit e.2.2 die with
    | some u => (placeUnit s die e.2.1 e.2.2 u).map fun s1 => (s1, e.2.1, e.2.2)
    | none => none
/-- DROVER_PLACEMENT (R345, R347). -/
def execDroverPlacement (die : Nat) (s : State) : Host.Outcome State Fault Refusal :=
  if s.ctl.mode != .running || decide (Config.dies ≤ die) then .next s
  else
    match firstPlaced s die with
    | some (s1, x, q) =>
      let s2 := updLaunch { s1 with drovers := nsetD 63 s1.drovers die x } x q.seq fun q => unitTaken q die
      .next (pulse (tally s2 (Config.cores + Config.slices + die) 0 1) x)
    | none => .next s

/-! ### Stealing (R346) -/

/-- The die with the most untaken chunks, ties to the lower. -/
def richest (q : Launch) : Nat :=
  (List.range 4).foldl (fun b d => if (nth [] q.chunks b).length < (nth [] q.chunks d).length then d else b) 0
/-- STEAL (R346). -/
def execSteal (die ctx seq : Nat) (s : State) : Host.Outcome State Fault Refusal :=
  let q := getLaunch s ctx seq
  let v := richest q
  let cs := nth [] q.chunks v
  let n := cs.length
  if q.st != .started || (getCtx s ctx).st != .running || !(nth [] q.chunks die).isEmpty || decide (n < 2) || decide (Config.dies ≤ die)
  then .next s
  else
    let s1 := updLaunch s ctx seq fun q =>
      { q with chunks := setNth (setNth q.chunks v (cs.take (n - n / 2))) die (cs.drop (n - n / 2)) }
    .next (tally s1 (Config.cores + Config.slices + die) 1 1)

end Sys2Proof.Machine
end

