-- ==== Sys2Proof/Machine/Tickets.lean ====
section
/-! DEFINITION. Tickets (R211 to R213, R238 to R245): the instructions, the slice's ticket table and its events. -/

namespace Sys2Proof.Machine

/-! ### Tables and tickets (R211, R212) -/

/-- A ticket entry that was never allocated: FREE, generation 0, end RECLAIMED (R212). -/
def freeEntry : TkEntry := ⟨.free, 0, false, 0, 0, 0, false, 0, 0, 0, ⟨.b8, false, 0, false⟩, 0, [], [], [], [], 0⟩
/-- Entry `e` of slice `k`. -/
def getEntry (s : State) (k e : Nat) : TkEntry := ngetD freeEntry (getSlice s k).tickets e
/-- Replace an entry. -/
def putEntry (s : State) (k e : Nat) (x : TkEntry) : State :=
  setSlice s k { getSlice s k with tickets := nsetD freeEntry (getSlice s k).tickets e x }
/-- Free an entry with its end mark; its data is gone. -/
def freeTicket (s : State) (k e : Nat) (spent : Bool) : State :=
  putEntry s k e { getEntry s k e with st := .free, spent := spent, vals := [], bytes := [], ltags := [], elems := [], pois := 0 }
/-- Fields of a ticket (R211). -/
def tkSlice (t : DWord) : Nat := bits t.toNat 63 56
def tkEntry (t : DWord) : Nat := bits t.toNat 55 45
def tkGen (t : DWord) : Nat := bits t.toNat 44 32
def tkSize (t : DWord) : Nat := bits t.toNat 31 28
def tkWld (t : DWord) : Bool := t.getLsbD 27
def tkCtx (t : DWord) : Nat := bits t.toNat 23 18
def tkInc (t : DWord) : Nat := bits t.toNat 17 0
/-- A ticket of a context. -/
def mkTicket (s : State) (slice entry gen : Nat) (lines : BitVec 4) (wld tRec : Bool) (ctx : Nat) : DWord :=
  BitVec.ofNat 64 (2 ^ 56 * slice + 2 ^ 45 * entry + 2 ^ 32 * gen + 2 ^ 28 * lines.toNat
    + (if wld then 2 ^ 27 else 0) + (if tRec then 2 ^ 26 else 0) + 2 ^ 18 * ctx + (getCtx s ctx).inc.toNat)
/-- Slice of a line-set's entry (R211): its home, or the place given when the home is unknown or is no slice. -/
def ticketSlice (r : Req) : Nat :=
  match r.loc with
  | some (.hbm pa) => sliceOf pa
  | _ => 64 * dieOf r.core + (bits r.va 12 9 ^^^ bits r.va 16 13)

/-! ### LDT (R238 to R240) -/

/-- In-bounds lanes of an LDT grouped by the 512-B block of their addresses, in ascending block order: lane, address,
shadow address. -/
def blocksOf (es : List (Nat × Nat × Nat)) : List (Nat × List (Nat × Nat × Nat)) :=
  (sortAsc (es.map fun e => e.2.1 / 512)).map fun b => (512 * b, es.filter fun e => e.2.1 / 512 == b)
/-- Give a line-set its home, and its shadow bytes theirs; a shadow byte that does not translate faults it as its data would (R214, R239). -/
def routeTicket (s : State) (r : Req) (shadow : List Nat) : Req × Bool × State :=
  let a := homeOf s r.core r.ctx false r.va
  let r1 := { r with loc := a.1.loc, fault := a.1.fault, info := a.1.info, shFault := 0, shadowVa := none, shLocs := [] }
  shadow.foldl
    (fun (x : Req × Bool × State) v =>
      let b := homeOf x.2.2 r.core r.ctx false v
      let r2 := { x.1 with shLocs := x.1.shLocs ++ [b.1.loc] }
      (if b.1.fault ≠ 0 && x.1.shFault == 0 then { r2 with shFault := b.1.fault, info := b.1.info, shadowVa := some v } else r2,
        x.2.1 || b.1.world, b.2))
    (r1, a.1.world, a.2)
/-- LDT (R238, R239). An out-of-bounds lane receives its SIZE = 0 ticket with register tag 63 (log entry 83). -/
def execLdt (x : MM) (s : State) : Host.Outcome State Fault Refusal :=
  issue x.h (Instr.ldt x).wf true (fun _ _ t => recBound t x && opdAlloc t x.d true && opdAlloc t x.a.o false)
    (fun i =>
      let a := rd i x.a false
      withPlan i x [a] [(x.d, true)] a (servedLanes i x.d) fun p =>
        let n := sizeBytes x.size
        let f := loadFmt (slotFmt (recSlot (wordsOf i) x.slot.toNat)) x.size
        let tRec := f.fp && brT p.buf
        let wld := brWld p.buf
        let es := p.ins.map fun e => (e.1, brAddr p.buf e.2 n, brShadow p.buf e.2)
        let one (g : Nat × List (Nat × Nat × Nat)) : Req :=
          let off := g.2.map fun e => (e.1, e.2.1 - g.1)
          let elems : List SetElem := if isV x.a.o then off else lanes.map fun l => (l, (off.map (·.2)).headD 0)
          let lines : BitVec 4 := elems.foldl (fun m e => m ||| (1#4 <<< (e.2 / 128))) 0
          let sh := if tRec then (if isV x.a.o then g.2.map (·.2.2) else lanes.map fun _ => (g.2.map (·.2.2)).headD 0) else []
          { mkReq i 0 (.ldt x.d g.1 lines (maskOfList (g.2.map (·.1))) elems f tRec sh wld) with
            va := g.1, n := 512, read := true, cache := p.pol }
        let vas := es.flatMap fun e => e.2.1 :: (if tRec then [e.2.2] else [])
        if walkHeld i.s i.core i.t.tid i.t.ctx vas then .wait else
        let t0 := markLoads i x.d true p
        let none_ := mkTicket i.s 0 0 0 0 wld false i.t.ctx
        let t1 := p.out.foldl (fun t l => putOpd t x.d true l none_ 63) t0
        let r := (blocksOf es).foldl
          (fun (z : Bool × State) g =>
            let q := one g
            let sh := match q.kind with | .ldt _ _ _ _ _ _ _ sh _ => sh | _ => []
            let y := routeTicket z.2 q sh
            (z.1 || y.2.1, post y.2.2 y.1))
          (false, setTeam i.s i.core i.slot t1)
        if r.1 then .trap (trapAt 0x0D i.pc i.act) else .go r.2) s
/-- An entry past the lifetime of its context is FREE again, with end RECLAIMED (R212). -/
def lapse (s : State) (k n : Nat) : State :=
  let e := getEntry s k n
  let live := e.st == .awaitTranslation || e.st == .inflight || e.st == .ready
  if live && decide (e.start + (getCtx s e.ctx).tickLife ≤ residentClock s e.ctx) then freeTicket s k n false else s
/-- LDT_TICKET_ALLOCATED (R211, R212, R238): a FREE entry of the line-set's slice takes it, and D receives the ticket. -/
def execLdtTicketAllocated (id entry : Nat) (s₀ : State) : Host.Outcome State Fault Refusal :=
  match getReq s₀ id with
  | some r =>
    match r.kind with
    | .ldt d _ lines ls elems f tRec sh wld =>
      let k := ticketSlice r
      let s := lapse s₀ k entry
      let e := getEntry s k entry
      if e.st = .free && decide (entry < Config.ticketEntries) then
        let gen := e.gen + 1
        let e' : TkEntry :=
          ⟨if isFaulted r then .awaitTranslation else .inflight, gen, false, r.ctx, r.seq, (getCtx s r.ctx).inc, wld,
           residentClock s r.ctx, id, 0, f, lines, elems, [], [], [], 0⟩
        let tk := mkTicket s k entry gen.toNat lines wld tRec r.ctx
        let s1 := tally (putReq (putEntry s k entry e') { r with kind := .fetch k entry lines sh }) (Config.cores + k) 5 1
        .next (pulse (withTeam s1 r fun t => (lanesOf ls).foldl (fun t l => land t d true l tk 63) t) r.ctx)
      else .next s₀
    | _ => .next s₀
  | none => .next s₀

/-! ### The fetch (R212, R240) -/

/-- The captured elements of a line-set, once all of it has been captured: values extended, with their tags (R62, R128). `sh` holds the shadow
bytes, element by element, where the ticket has T. -/
def captureVals (e : TkEntry) (tRec : Bool) (sh : BitVec 256) : NMap SElem :=
  (List.range e.elems.length).foldl
    (fun m k =>
      let el := nth (0, 0) e.elems k
      let raw := leNat (((ngetD [] e.bytes (el.2 / 128)).drop (el.2 % 128)).take (sizeBytes e.f.size))
      nset m el.1 ⟨extend e.f raw, true, loadTag e.f (if tRec then some (bits sh.toNat (8 * k + 7) (8 * k)) else none)⟩) []
/-- Word tags of line `i` of the block: the lowest captured tag of the elements in the word, 63 above every count (R243). -/
def captureTags (e : TkEntry) (vals : NMap SElem) (i : Nat) : List Tag :=
  lanes.map fun w =>
    e.elems.foldl
      (fun (m : Tag) el =>
        let first := el.2 / 4
        let last := (el.2 + sizeBytes e.f.size - 1) / 4
        let t := (ngetD ⟨0, true, 63⟩ vals el.1).tag
        if decide (first ≤ 32 * i + w) && decide (32 * i + w ≤ last) && decide (t.toNat < m.toNat) then t else m) 63
/-- The separate accesses of a line-set (R214, R216): word k of the block, and 64 + k for the shadow byte of its element k. -/
def fetchParts (e : TkEntry) (sh : List Nat) : List Nat :=
  ((List.range 64).filter fun k => e.lines.getLsbD (k / 16)) ++ (List.range sh.length).map (64 + ·)
/-- Marks of poisoned data in an entry: of the elements and the line that line `i` of the block holds (R448). -/
def poisonMarks (e : TkEntry) (i : Nat) : BitVec 36 :=
  (((e.elems.filter fun el => el.2 / 128 == i).map (·.1)) ++ [32 + i]).foldl (fun m k => m ||| (1#36 <<< k)) 0
/-- A part of a line-set at `l` is captured: a word into the entry, a shadow byte into the request's value. -/
def capturePart (s : State) (l : Loc) (z : TkEntry × Req) (k : Nat) : TkEntry × Req :=
  let e := z.1
  let r := { z.2 with got := insAsc k z.2.got }
  if k < 64 then
    let i := k / 16
    let old := ngetD (List.replicate 128 0) e.bytes i
    let a := locAdd l (8 * k)
    ({ e with
        bytes := nset e.bytes i (old.take (8 * (k % 16)) ++ readLoc s a 8 ++ old.drop (8 * (k % 16) + 8)),
        pois := if poisoned s a then e.pois ||| poisonMarks e i else e.pois }, r)
  else
    match nth none r.shLocs (k - 64) with
    | some q =>
      ({ e with pois := if poisoned s q then e.pois ||| (1#36 <<< (nth (0, 0) e.elems (k - 64)).1) else e.pois },
        { r with val := r.val ||| BitVec.ofNat 256 (leNat (readLoc s q 1) * 2 ^ (8 * (k - 64))) })
    | none => (e, r)
/-- An entry all of whose parts have been captured (R62, R240). -/
def captured (e : TkEntry) (r : Req) (tRec : Bool) : TkEntry :=
  let vals := captureVals e tRec r.val
  { e with vals := vals, ltags := ((List.range 4).filter fun i => e.lines.getLsbD i).map fun i => (i, captureTags e vals i) }
/-- Elements as a redeem of width `pair` delivers them (R243). -/
def deliverVals (e : TkEntry) (pair : Bool) : NMap SElem :=
  e.vals.map fun x => (x.1, if (e.f.size == .b64) == pair then x.2 else { x.2 with tag := 63 })
/-- Data for a waiting delivery. -/
def fillDelivery (s : State) (id : Nat) (e : TkEntry) (zero : Bool) : State :=
  match getReq s id with
  | some r =>
    match r.kind with
    | .deliver tk ls d pair sp _ _ _ _ =>
      putReq s { r with
        done := true, val := e.pois.setWidth 256, kind := .deliver tk ls d pair sp (deliverVals e pair) e.bytes e.ltags zero }
    | _ => s
  | none => s
/-- Whether a request fetches for an entry of a slice. -/
def fetchesFor (slice entry : Nat) (r : Req) : Bool := match r.kind with | .fetch k e _ _ => k == slice && e == entry | _ => false
/-- TICKET_DATA_ARRIVAL (R212, R214, R216, R240): parts of the fetch are performed, or all that are left where `x` names none; after the
last the data goes READY, or to a held redeem, or is discarded. -/
def execTicketDataArrival (slice : Nat) (x : Parts) (s₀ : State) : Host.Outcome State Fault Refusal :=
  let s := lapse s₀ slice x.id
  match s.reqs.find? fun r => fetchesFor slice x.id r && canPerform s r with
  | none => .next s₀
  | some r =>
    match r.kind, r.loc with
    | .fetch _ _ _ sh, some l =>
      let e := getEntry s slice x.id
      let expected := e.fetch == r.id && (e.st == .inflight || e.st == .held || e.st == .awaitTranslation)
      if !expected then .next (reap (pulse (dropReq s r.id) r.ctx) r.core r.slot)
      else if e.st == .held && (getReq s e.redeem).isNone then .next s   -- the slice keeps it while the context is suspended (R381)
      else
        let z := (partsNow (fetchParts e sh) r.got x.which).foldl (capturePart s l) (e, r)
        let s0 := if r.got.isEmpty then tallyAt s l 0 r.cache else s
        if !(fetchParts e sh).all z.2.got.contains then .next (putReq (putEntry s0 slice x.id z.1) z.2)
        else
          let e1 := captured z.1 z.2 (!sh.isEmpty)
          let s2 := pulse (dropReq s0 r.id) r.ctx
          if e.st == .held then .next (freeTicket (fillDelivery s2 e.redeem e1 false) slice x.id true)
          else .next (putEntry s2 slice x.id { e1 with st := .ready })
    | _, _ => .next s₀
/-- TICKET_LIFETIME_EXPIRY (R212). -/
def execTicketLifetimeExpiry (slice entry : Nat) (s : State) : Host.Outcome State Fault Refusal := .next (lapse s slice entry)

/-! ### RDM and TKDROP (R241 to R245) -/

/-- Groups of lanes with identical tickets (R242). -/
def ticketGroups (ls : List Nat) (tk : Nat → DWord) : List (DWord × List Nat) :=
  (ls.filter fun l => ls.all fun k => !(decide (k < l) && tk k == tk l)).map fun l => (tk l, ls.filter fun k => tk k == tk l)
/-- Destination of a scratchpad redeem: core and first byte, or out of bounds, or the other world (R243). -/
def redeemAt (i : Issue) (a : Nat) (tk : DWord) : ScrAt :=
  match scrCore i.core a with
  | none => .oob
  | some k =>
    if !scrZeroOk a then .oob
    else
      let line := a % 2 ^ 20 / 128
      let used := (List.range 4).filter fun j => tk.getLsbD (28 + j)
      let chk := used.map fun j => if line + j < 8192 then scrCheck i.s i.core i.t.wg i.t.ctx k (line + j) else .oob
      if chk.any (· == .world) then .world
      else if chk.all (· == .ok) then .at_ k (128 * line)
      else .oob
/-- Lines that a redeem of ticket `tk` to core `k`, byte `b` delivers to. -/
def redeemLines (tk : DWord) (k b : Nat) : List (Nat × Nat) :=
  ((List.range 4).filter fun j => tk.getLsbD (28 + j)).map fun j => (k, b / 128 + j)
/-- The parts of RDM and TKDROP: tickets, scratchpad address if any, destination if any, status predicate. -/
structure Redeem where
  a : Src
  b : Option Src
  d : Option (Opd × Bool)
  c : Opd
  drop : Bool
/-- Steps 3 to 7 of RDM and TKDROP (R242 to R245). -/
def redeemBody (z : Redeem) (i : Issue) : Res :=
  let a := rd i z.a true
  let b : Option Rd := z.b.map fun b => rd i b false
  match gate i ([a] ++ b.toList) (z.d.toList ++ [(z.c, false)]) with
  | some r => r
  | none =>
    if !z.drop && logFull i.s i.core then .wait else
    let tk (l : Nat) : DWord := BitVec.ofNat 64 (ival 64 z.a.m (a.at_ l))
    let act := lanesOf i.act
    let foreign (l : Nat) : Bool :=
      tkCtx (tk l) != i.t.ctx || tkInc (tk l) != (getCtx i.s i.t.ctx).inc.toNat || tkWld (tk l) != (getCore i.s i.core).world
    if act.any foreign then
      .trap { trapAt 6 i.pc (maskOfList (act.filter foreign)) with
        bytes := lanes.map fun l => if act.contains l && foreign l then 3 else 0 }
    else
      let stale := act.filter fun l => tkSize (tk l) == 0
      let groups := ticketGroups (act.filter fun l => tkSize (tk l) != 0) tk
      let at_ (g : DWord × List Nat) : ScrAt :=
        match b, z.b with
        | some r, some src => redeemAt i (ival 32 src.m (r.at_ (g.2.headD 0))) g.1
        | _, _ => .at_ 0 0
      if groups.any fun g => at_ g == .world then .trap (trapAt 0x0D i.pc i.act)
      else
        let sent := groups.filter fun g => match at_ g with | .at_ .. => true | _ => false
        let oob := groups.filter fun g => at_ g == .oob
        let lost := stale ++ oob.flatMap (·.2)
        let zero (t : Team) (l : Nat) : Team :=
          let t1 := putOpd t z.c false l 0 63
          match z.d with | some (d, p) => landZero t1 d p l | none => t1
        let t1 := lost.foldl zero (countOob i.t oob.length)
        let mark (t : Team) (l : Nat) : Team :=
          let t1 := markOpd t z.c false l false
          match z.d with | some (d, p) => markOpd t1 d p l false | none => t1
        let t2 := (sent.flatMap (·.2)).foldl mark t1
        let undo := undoOf i.t z.c false ++ (match z.d with | some (d, p) => undoOf i.t d p | none => [])
        let s1 := setTeam i.s i.core i.slot (pushUndo i.s t2 undo)
        let send (s : State) (g : DWord × List Nat) : State :=
          let sp : Option Nat := match at_ g, b with | .at_ k byte, some _ => some (k * 2 ^ 20 + byte) | _, _ => none
          let s := match sp with
            | some q => (redeemLines g.1 (q / 2 ^ 20) (q % 2 ^ 20)).foldl (markLine false) s
            | none => s
          let d : Opd × Bool := z.d.getD (.x 0, false)
          post s (mkReq i (g.2.headD 0) (.redeem g.1 (maskOfList g.2) z.drop z.c d.1 d.2 sp none))
        let s2 := sent.foldl send s1
        let status : List Byte := lanes.map fun l => if stale.contains l then 2 else 0
        if i.t.trapen.getLsbD 6 then
          if sent.isEmpty then
            (if stale.isEmpty then .go s2
             else .after s2 { trapAt 6 i.pc (maskOfList stale) with tpc := i.pc + 1, bytes := status })
          else .hold s2 (.verdicts (maskOfList stale))
        else .go s2
/-- RDM (R241 to R244). -/
def execRdm (x : RG) (s : State) : Host.Outcome State Fault Refusal :=
  let sp := x.sub.getLsbD 0
  let pair := x.sub.getLsbD 1
  issue x.h (Instr.rdm x).wf true
    (fun _ _ t => opdAlloc t x.a.o true && (if sp then opdAlloc t x.b.o false else opdAlloc t x.d pair))
    (redeemBody ⟨x.a, if sp then some x.b else none, if sp then none else some (x.d, pair), x.c.o, false⟩) s
/-- TKDROP (R245). -/
def execTkdrop (x : RG) (s : State) : Host.Outcome State Fault Refusal :=
  issue x.h (Instr.tkdrop x).wf true (fun _ _ t => opdAlloc t x.a.o true)
    (redeemBody ⟨x.a, none, none, x.d, true⟩) s

/-- What the slice answers a redeem or drop (R212, R213): 0 accepted, 1 SPENT, 2 STALE, 3 FOREIGN. -/
def verdictOf (e : TkEntry) (tk : DWord) (ctx : Nat) (inc : BitVec 18) (wld : Bool) : Nat :=
  if tkCtx tk != ctx || tkInc tk != inc.toNat || tkWld tk != wld then 3
  else if tkSize tk == 0 || tkGen tk != e.gen.toNat then 2
  else match e.st with
    | .free => if e.spent then 1 else 2
    | .held => 1
    | _ => 0
/-- Whether a redeem for an entry that the same die sent earlier over the link to the entry's die has still to arrive (R430). -/
def sentBefore (s : State) (r : Req) (tk : DWord) : Bool :=
  dieOf r.core != tkSlice tk / 64 && s.reqs.any fun q => decide (q.id < r.id) && dieOf q.core == dieOf r.core &&
    match q.kind with | .redeem t _ _ _ _ _ _ none => tkSlice t == tkSlice tk && tkEntry t == tkEntry tk | _ => false
/-- REDEEM_MATCH (R212, R213): requests to an entry are taken in their order of arrival, those of one die in the order sent (R430). -/
def execRedeemMatch (id : Nat) (s₀ : State) : Host.Outcome State Fault Refusal :=
  match getReq s₀ id with
  | some r =>
    match r.kind with
    | .redeem tk ls drop st d pair sp none =>
      let k := tkSlice tk
      let n := tkEntry tk
      let s := lapse s₀ k n
      let e := getEntry s k n
      if sentBefore s₀ r tk then .next s₀ else
      let v := verdictOf e tk r.ctx (getCtx s r.ctx).inc (getCore s r.core).world
      let s1 := tally (pulse (putReq s { r with kind := .redeem tk ls drop st d pair sp (some v) }) r.ctx) (Config.cores + k) 6 1
      if v ≠ 0 then .next s1
      else if drop then .next (freeTicket s1 k n true)
      else
        let del := { r with kind := .deliver tk ls d pair sp [] [] [] false }
        let s2 := post s1 del
        let did := s1.nextId
        if e.st == .ready then .next (freeTicket (fillDelivery s2 did e false) k n true)
        else .next (putEntry s2 k n { e with st := .held, redeem := did })
    | _ => .next s₀
  | none => .next s₀
/-- Statuses gathered while an RDM or TKDROP holds its team; the last one retires it and may raise TICKET (R244). -/
def noteVerdict (s : State) (r : Req) (ls : Mask) (v : Nat) : State :=
  match teamOf s r with
  | none => s
  | some t =>
    match t.hold with
    | none => s
    | some h =>
      match h.kind with
      | .verdicts stale =>
        if h.grp != r.grp then s else
        let stat : List Byte := lanes.map fun l => if inMask ls l then BitVec.ofNat 8 v else nth 0 h.status l
        let s1 := setTeam s r.core r.slot { t with hold := some { h with status := stat } }
        if s1.reqs.any fun q => q.grp == h.grp && q.core == r.core && (match q.kind with | .redeem .. => true | _ => false) then s1
        else
          let stat : List Byte := lanes.map fun l => if inMask stale l then 2 else nth 0 stat l
          let bad := maskOf fun l => nth 0 stat l != 0
          let s2 := retireHold s1 r.core r.slot
          if bad = 0 then s2
          else
            match getTeam s2 r.core r.slot with
            | some u => takeTrap s2 r.core r.slot u ⟨6, 0, h.pc, h.pc + 1, bad, 0, stat, false⟩
            | none => s2
      | _ => s
/-- RDM_VERDICT_RETURN (R242, R244): the verdict fills the status predicate; a failed group's destinations take 0, its lines
turn full unchanged. -/
def execRdmVerdictReturn (id : Nat) (s : State) : Host.Outcome State Fault Refusal :=
  match getReq s id with
  | some r =>
    match r.kind with
    | .redeem tk ls drop st d pair sp (some v) =>
      let s1 := dropReq s id
      let put (t : Team) : Team :=
        let t1 := (lanesOf ls).foldl (fun t l => land t st false l (if v = 0 then 1 else 0) 63) t
        if v ≠ 0 && !drop && sp.isNone then (lanesOf ls).foldl (fun t l => landZero t d pair l) t1 else t1
      let s2 := withTeam s1 r put
      let s3 := match sp with
        | some q => if v = 0 then s2 else (redeemLines tk (q / 2 ^ 20) (q % 2 ^ 20)).foldl (markLine true) s2
        | none => s2
      .next (noteVerdict s3 r ls v)
    | _ => .next s
  | none => .next s
/-- An 8-B word of a delivered line, with its two word tags (R216, R243). -/
def landWord (s : State) (k line w : Nat) (bs : List Byte) (ts : List Tag) : State :=
  updCore s k fun c =>
    { c with
      bytes := putBytes c.bytes (128 * line + 8 * w) ((bs.drop (8 * w)).take 8),
      tags := [2 * w, 2 * w + 1].foldl (fun m v => nsetD 63 m (32 * line + v) (nth 63 ts v)) c.tags }
/-- Parts of a scratchpad delivery of ticket `tk`: 16 * j + w for word `w` of line `j`. -/
def deliveryParts (tk : DWord) : List Nat :=
  ((List.range 4).filter fun j => tk.getLsbD (28 + j)).flatMap fun j => (List.range 16).map (16 * j + ·)
/-- The parts `now` of a scratchpad delivery to core `k`, line `first` on, land; a line whose last byte lands turns full (R201, R243). -/
def deliverSp (s : State) (r : Req) (k first : Nat) (lines : NMap (List Byte)) (ltags : NMap (List Tag)) (zero : Bool) (now : List Nat) : State :=
  let bs (j : Nat) : List Byte := if zero then List.replicate 128 0 else ngetD [] lines j
  let ts (j : Nat) : List Tag := if zero then List.replicate 32 0 else ngetD [] ltags j
  let s1 := now.foldl (fun s p => landWord s k (first + p / 16) (p % 16) (bs (p / 16)) (ts (p / 16))) s
  (sortAsc (now.map (· / 16))).foldl
    (fun s j =>
      let s2 := if !zero && r.val.getLsbD (32 + j) then poisonLine s (.scratch k (128 * (first + j))) else s
      if allParts ((List.range 16).map (16 * j + ·)) r.got now then markLine true s2 (k, first + j) else s2) s1
/-- RDM_DATA_DELIVERY (R216, R243): to scratchpad the parts that `x` names, or all that are left where it names none. -/
def execRdmDataDelivery (x : Parts) (s : State) : Host.Outcome State Fault Refusal :=
  match getReq s x.id with
  | some r =>
    match r.kind with
    | .deliver tk ls d pair sp vals lines ltags zero =>
      if !r.done then .next s
      else
        match sp with
        | none =>
          let s1 := dropReq s r.id
          let taken := (lanesOf ls).any fun l => r.val.getLsbD l
          .next (withTeam (if taken then takePoison s1 r.ctx r.seq else s1) r fun t =>
            (lanesOf ls).foldl
              (fun t l =>
                match nget vals l with
                | some e => if zero then landZero t d pair l else land t d pair l e.val e.tag
                | none => landZero t d pair l) t)
        | some q =>
          let now := partsNow (deliveryParts tk) r.got x.which
          let s1 := deliverSp s r (q / 2 ^ 20) (q % 2 ^ 20 / 128) lines ltags zero now
          if allParts (deliveryParts tk) r.got now then .next (withTeam (dropReq s1 r.id) r fun t => t)
          else .next (putReq s1 { r with got := now.foldl (fun g k => insAsc k g) r.got })
    | _ => .next s
  | none => .next s

end Sys2Proof.Machine
end

