-- ==== Sys2Proof/Machine/Rmw.lean ====
section
/-! DEFINITION. Read-modify-writes, exact reductions and queue appends at the home slice (R246 to R252), with their events. -/

namespace Sys2Proof.Machine

/-! ### Performing at the slice (R230, R246) -/

/-- Requests of the instruction of `r` that name its location, from the lowest lane on; they are one step. -/
def sameStep (s : State) (r : Req) : List Req :=
  s.reqs.filter fun q => q.grp == r.grp && q.core == r.core && q.tid == r.tid && !q.done && !isFaulted q && q.loc == r.loc &&
    decide (r.id ≤ q.id)
/-- The result of a performed read-modify-write reaches its lane (R247, R249). -/
def landRmw (s : State) (r : Req) : State :=
  match r.kind with
  | .atom _ _ _ _ d p => withTeam (pulse (dropReq s r.id) r.ctx) r fun t => land t d p r.lane (r.val.setWidth 64) 63
  | .xrd _ pol d p =>
    withTeam (pulse (dropReq s r.id) r.ctx) r fun t => landFlags (land t d p r.lane (r.val.setWidth 64) r.vtag) pol r.info r.vtag
  | .xred .. => pulse (dropReq s r.id) r.ctx
  | _ => s
/-- A read-modify-write takes its place at `l`: `new` is what it writes, `rec_` the release record before it. Its result lands
when the drains of its acquire part are over (R219, R220, R246). -/
def placeRmw (s : State) (r : Req) (l : Loc) (new : List Byte) (land : State → Req → State) : State :=
  let ds := if acquires r then drainsFor s r.scope r.core l r.n else []
  let wait := !(openDrains s ds).isEmpty
  let s0 := match r.kind with   -- R448: XRED returns nothing
    | .xred .. => s
    | _ => (linesAt l r.n).foldl (fun s x => consume s x r.ctx r.seq) s
  let s1 := observe (tallyAt s0 l 4 r.cache) r l r.n
  let s2 := performUpdate (if wait then s1 else clearRecord s1 l r.n ds) r l new
  if wait then putReq s2 { r with done := true, drains := ds } else land s2 r

/-- The new value of ATOM (R247). -/
def atomNew (fn n old b cmp : Nat) : Nat :=
  match fn with
  | 0 => (old + b) % 2 ^ n
  | 1 => min old b
  | 2 => max old b
  | 3 => if sx b n < sx old n then b else old
  | 4 => if sx old n < sx b n then b else old
  | 5 => old &&& b
  | 6 => old ||| b
  | 7 => old ^^^ b
  | 8 => b
  | _ => if old = cmp then b else old
/-- One lane's ATOM. -/
def performAtom (s : State) (r : Req) : State :=
  match r.kind, r.loc with
  | .atom fn w b cmp _ _, some l =>
    let n := wbits w
    let old := leNat (readLoc s l (n / 8))
    placeRmw s { r with val := BitVec.ofNat 256 old } l
      (leBytes (n / 8) (atomNew fn n old (b.toNat % 2 ^ n) (cmp.toNat % 2 ^ n))) landRmw
  | _, _ => s
/-- SLICE_RMW_PERFORM (R246, R247): the lanes that name one location, in ascending order. -/
def execSliceRmwPerform (id : Nat) (s : State) : Host.Outcome State Fault Refusal :=
  match getReq s id with
  | some r =>
    match r.kind with
    | .atom .. => .next (if canPerform s r then (sameStep s r).foldl performAtom s else s)
    | _ => .next s
  | none => .next s

/-- ATOM (R246, R247); `fn` is its function number. -/
def atomBody (ins : Instr) (fn : Nat) (x : MM) (s : State) : Host.Outcome State Fault Refusal :=
  let pair := pairSize x.size
  issue x.h ins.wf true
    (fun _ _ t => recBound t x && opdAlloc t x.d pair && opdAlloc t x.a.o false && opdAlloc t x.b.o pair)
    (fun i =>
      let a := rd i x.a false
      let b := rd i x.b pair
      let old := rd i ⟨x.d, false, false⟩ pair
      withPlan i x [a, b] [(x.d, pair)] a (servedLanes i x.d) fun p =>
        if releaseWaits i x true !p.ins.isEmpty then .wait else
        let reqs := p.ins.map fun e => fenced i.t
          { ordOf x true (mkReq i e.1
              (.atom fn (if pair then .w64 else .w32) (b.at_ e.1).bits (old.at_ e.1).bits x.d pair)) with
            va := brAddr p.buf e.2 (sizeBytes x.size), n := sizeBytes x.size, read := true, write := true }
        let cas : OpImage := if fn = 9 then { p.img with cmp := lanes.map fun l => if inMask i.act l then (old.at_ l).bits else 0 } else p.img
        match sendAll i { p with img := cas } (markLoads i x.d pair p) reqs with
        | .go s' => .go (spendReplay s' i.t.ctx i.t.seq)
        | r => r) s
/-- ATOM.ADD (R247). -/
def execAtomAdd (x : MM) (s : State) : Host.Outcome State Fault Refusal := atomBody (.atomAdd x) 0 x s
/-- ATOM.UMIN (R247). -/
def execAtomUmin (x : MM) (s : State) : Host.Outcome State Fault Refusal := atomBody (.atomUmin x) 1 x s
/-- ATOM.UMAX (R247). -/
def execAtomUmax (x : MM) (s : State) : Host.Outcome State Fault Refusal := atomBody (.atomUmax x) 2 x s
/-- ATOM.SMIN (R247). -/
def execAtomSmin (x : MM) (s : State) : Host.Outcome State Fault Refusal := atomBody (.atomSmin x) 3 x s
/-- ATOM.SMAX (R247). -/
def execAtomSmax (x : MM) (s : State) : Host.Outcome State Fault Refusal := atomBody (.atomSmax x) 4 x s
/-- ATOM.AND (R247). -/
def execAtomAnd (x : MM) (s : State) : Host.Outcome State Fault Refusal := atomBody (.atomAnd x) 5 x s
/-- ATOM.OR (R247). -/
def execAtomOr (x : MM) (s : State) : Host.Outcome State Fault Refusal := atomBody (.atomOr x) 6 x s
/-- ATOM.XOR (R247). -/
def execAtomXor (x : MM) (s : State) : Host.Outcome State Fault Refusal := atomBody (.atomXor x) 7 x s
/-- ATOM.EXCH (R247). -/
def execAtomExch (x : MM) (s : State) : Host.Outcome State Fault Refusal := atomBody (.atomExch x) 8 x s
/-- ATOM.CAS: the comparand is read from D (R247). -/
def execAtomCas (x : MM) (s : State) : Host.Outcome State Fault Refusal := atomBody (.atomCas x) 9 x s

/-! ### Exact accumulators (R210, R248, R249) -/

/-- Alignment of an accumulator (R210). -/
def accAlign (f : FW) : Nat := match f with | .f32 => 64 | .f64 => 512
/-- XRED (R248). -/
def xredBody (ins : Instr) (f : FW) (x : MM) (s : State) : Host.Outcome State Fault Refusal :=
  let pair := pairF f
  issue x.h ins.wf true (fun _ _ t => recBound t x && opdAlloc t x.a.o false && opdAlloc t x.b.o pair)
    (fun i =>
      let a := rd i x.a false
      let b := rd i x.b pair
      withPlan i x [a, b] [] a (lanesOf i.act) fun p =>
        if releaseWaits i x true !p.ins.isEmpty then .wait else
        let reqs := p.ins.map fun e => fenced i.t
          { ordOf x true (mkReq i e.1 (.xred f (b.at_ e.1).bits (b.at_ e.1).tag)) with
            va := brAddr p.buf e.2 (accAlign f), n := accBytes f, read := true, write := true }
        match sendAll i p (countOob i.t p.out.length) reqs with
        | .go s' => .go (spendReplay s' i.t.ctx i.t.seq)
        | r => r) s
/-- XRED.fp32 (R248). -/
def execXredFp32 (x : MM) (s : State) : Host.Outcome State Fault Refusal := xredBody (.xredFp32 x) .f32 x s
/-- XRED.fp64 (R248). -/
def execXredFp64 (x : MM) (s : State) : Host.Outcome State Fault Refusal := xredBody (.xredFp64 x) .f64 x s
/-- One lane's contribution (R56). -/
def performXred (s : State) (r : Req) : State :=
  match r.kind, r.loc with
  | .xred f x t, some l =>
    let acc := leNat (readLoc s l (accBytes f))
    placeRmw s r l (leBytes (accBytes f) (accAdd f (accFmt f) acc (x.toNat % 2 ^ (accFmt f).width) t.toNat)) landRmw
  | _, _ => s
/-- EXACT_CONTRIBUTION (R56, R210, R246). -/
def execExactContribution (id : Nat) (s : State) : Host.Outcome State Fault Refusal :=
  match getReq s id with
  | some r =>
    match r.kind with
    | .xred .. => .next (if canPerform s r then (sameStep s r).foldl performXred s else s)
    | _ => .next s
  | none => .next s
/-- XRD (R249). -/
def xrdBody (ins : Instr) (f : FW) (x : MM) (s : State) : Host.Outcome State Fault Refusal :=
  let pair := pairF f
  issue x.h ins.wf false (fun _ _ t => recBound t x && opdAlloc t x.d pair && opdAlloc t x.a.o false)
    (fun i =>
      let a := rd i x.a false
      withPlan i x [a] [(x.d, pair)] a (servedLanes i x.d) fun p =>
        let sl := recSlot (wordsOf i) x.slot.toNat
        if releaseWaits i x true !p.ins.isEmpty then .wait else
        let reqs := p.ins.map fun e => fenced i.t
          { ordOf x true (mkReq i e.1 (.xrd f ⟨slotMode sl, slotSigpol sl⟩ x.d pair)) with
            va := brAddr p.buf e.2 (accAlign f), n := accBytes f, read := true, write := true }
        sendAll i p (markLoads i x.d pair p) reqs) s
/-- XRD.fp32 (R249). -/
def execXrdFp32 (x : MM) (s : State) : Host.Outcome State Fault Refusal := xrdBody (.xrdFp32 x) .f32 x s
/-- XRD.fp64 (R249). -/
def execXrdFp64 (x : MM) (s : State) : Host.Outcome State Fault Refusal := xrdBody (.xrdFp64 x) .f64 x s
/-- One lane's readout (R57, R249). -/
def performXrd (s : State) (r : Req) : State :=
  match r.kind, r.loc with
  | .xrd f pol _ _, some l =>
    let bs := readLoc s l (accBytes f)
    let o := accRead f (accFmt f) pol.mode (leNat bs)
    placeRmw s { r with val := BitVec.ofNat 256 o.y, vtag := polTag pol.sigpol o.tag, info := o.fl } l bs landRmw
  | _, _ => s
/-- XRD_READOUT_ARRIVAL (R249). -/
def execXrdReadoutArrival (id : Nat) (s : State) : Host.Outcome State Fault Refusal :=
  match getReq s id with
  | some r =>
    match r.kind with
    | .xrd .. => .next (if canPerform s r then (sameStep s r).foldl performXrd s else s)
    | _ => .next s
  | none => .next s

/-! ### Queue appends (R250 to R252) -/

/-- EXPQ (R251): it holds its team until every result has returned. -/
def execExpq (x : MM) (s : State) : Host.Outcome State Fault Refusal :=
  issue x.h (Instr.expq x).wf true
    (fun _ _ t => recBound t x && opdAlloc t x.d false && opdAlloc t x.a.o false && opdAlloc t x.b.o true)
    (fun i =>
      let a := rd i x.a false
      let b := rd i x.b true
      withPlan i x [a, b] [(x.d, false)] a (servedLanes i x.d) fun p =>
        if releaseWaits i x true !p.ins.isEmpty then .wait else
        let reqs := p.ins.map fun e => fenced i.t
          { ordOf x true (mkReq i e.1
              (.expq ((b.at_ e.1).bits.setWidth 32) (((b.at_ e.1).bits >>> 32).setWidth 32) x.d)) with
            va := brAddr p.buf e.2 64, n := 64, read := true, write := true }
        let t1 := p.out.foldl (fun t l => landZero t x.d false l) (countOob i.t p.out.length)
        match sendAll i p (pushUndo i.s t1 (undoOf i.t x.d false)) reqs with
        | .go s' =>
          let s'' := spendReplay s' i.t.ctx i.t.seq
          if reqs.isEmpty then .go s'' else .hold s'' .request
        | r => r) s
/-- A queue header (R250). -/
structure QHead where
  entries : Nat
  count : Nat
  cap : Nat
  ovf : Nat
/-- The header at a location. -/
def readHead (s : State) (l : Loc) : QHead :=
  let x := leNat (readLoc s l 64)
  ⟨bits x 56 0, bits x 95 64, bits x 127 96, bits x 159 128⟩
/-- A fault that the append unit meets on an entry (R252): address, cause, INFO[7:0], ACC. -/
structure EntFault where
  va : Nat
  cause : Nat
  info : Nat
  acc : Nat
/-- How the append unit translates an entry: in the appending team's context (R252). -/
abbrev EntryHome := State → Bool → Nat → Home × State
/-- That of a team on this device. -/
def teamEntry (r : Req) : EntryHome := fun s write va => homeOf s r.core r.ctx write va
/-- Address of entry `k`, and its home. -/
def entryHome (s : State) (at_ : EntryHome) (h : QHead) (k : Nat) (write : Bool) : Nat × Home × State :=
  let va := wrap ((h.entries / 8 * 8 + 8 * k : Nat) : Int) 57
  let x := at_ s write va
  (va, x.1, x.2)
/-- The fault of an entry without a home; a leaf of the other world gives cause WORLD (R464). -/
def entFault (va : Nat) (h : Home) (acc : Nat) : EntFault := ⟨va, if h.world then 5 else h.fault, h.info, acc⟩
/-- The scan for a token among `n` entries from `k` on (R251). -/
def scanQueue (s : State) (at_ : EntryHome) (h : QHead) (token : Word) : Nat → Nat → Except EntFault (Option Nat)
  | 0, _ => .ok none
  | n + 1, k =>
    let e := entryHome s at_ h k false
    match e.2.1.loc with
    | none => .error (entFault e.1 e.2.1 0)
    | some l => if leNat (readLoc s l 4) = token.toNat then .ok (some k) else scanQueue s at_ h token n (k + 1)
/-- Replace a 32-bit word of a header. -/
def putHeadWord (s : State) (l : Loc) (ofs x : Nat) : State := writeLoc s (locAdd l ofs) (leBytes 4 x)
/-- One lane's append (R251): the result, or the fault of an entry, which leaves nothing of the lane done (R252). -/
def appendOne (s : State) (at_ : EntryHome) (l : Loc) (token payload : Word) : Except EntFault (Nat × State) :=
  let h := readHead s l
  let lim := min h.cap (2 ^ 24)
  match scanQueue s at_ h token (min h.count lim) 0 with
  | .error e => .error e
  | .ok (some k) => .ok (2 ^ 31 + k, s)
  | .ok none =>
    if lim ≤ h.count then .ok (0x40FFFFFF, putHeadWord s l 16 (min (h.ovf + 1) (2 ^ 32 - 1)))
    else
      let e := entryHome s at_ h h.count true
      match e.2.1.loc with
      | none => .error (entFault e.1 e.2.1 1)
      | some q =>
        .ok (h.count, putHeadWord (storeAt e.2.2 q (leBytes 8 (token.toNat + 2 ^ 32 * payload.toNat))) l 8 (h.count + 1))
/-- Results of an EXPQ whose lanes have all returned: D is written, the team retires, and full lanes raise XOVF (R251). -/
def finishExpq (s : State) (r : Req) : State :=
  let mine := s.reqs.filter fun q => q.grp == r.grp && q.core == r.core && q.tid == r.tid
  if mine.any fun q => !q.done || !q.drains.isEmpty then s
  else
    let s1 := mine.foldl (fun s q => dropReq s q.id) s
    match teamOf s1 r with
    | none => s1
    | some t =>
      match t.hold, r.kind with
      | some h, .expq _ _ d =>
        let t1 := mine.foldl (fun t q => if q.vtag == 63 then putOpd t d false q.lane (q.val.setWidth 64) 63 else landZero t d false q.lane) t
        let full := maskOfList ((mine.filter fun q => q.val.getLsbD 30).map (·.lane))
        let s2 := retireHold (setTeam s1 r.core r.slot t1) r.core r.slot
        if full = 0 then s2
        else match getTeam s2 r.core r.slot with
          | some u => takeTrap s2 r.core r.slot u ⟨0x0A, 0, h.pc, h.pc + 1, full, 0, [], false⟩
          | none => s2
      | _, _ => s1
/-- The result of a lane stays with its request until every lane has one. -/
def keepResult (s : State) (r : Req) : State := putReq s { r with done := true }
/-- One lane's EXPQ at its queue. -/
def performExpq (s : State) (r : Req) : State :=
  match r.kind, r.loc with
  | .expq token payload _, some l =>
    match appendOne s (teamEntry r) l token payload with
    | .error e => putReq s { r with shFault := e.cause, shadowVa := some e.va, info := e.info + 256 * e.acc }
    | .ok (res, s1) => placeRmw s1 { r with val := BitVec.ofNat 256 res, vtag := 63 } l (readLoc s1 l 64) keepResult
  | _, _ => s
/-- QUEUE_APPEND (R210, R251): the lanes that name one queue, in one step. -/
def execQueueAppend (id : Nat) (s : State) : Host.Outcome State Fault Refusal :=
  match getReq s id with
  | some r =>
    match r.kind with
    | .expq .. => .next (if canPerform s r then pulse (finishExpq ((sameStep s r).foldl performExpq s) r) r.ctx else s)
    | _ => .next s
  | none => .next s

/-! ### Drains of acquires (R220) -/

/-- Complete an acquire whose drains are over. -/
def completeAcquire (s : State) (r : Req) : State :=
  match r.loc with
  | none => s
  | some l =>
    let s1 := clearRecord s l r.n r.drains
    let r1 := { r with drains := [] }
    match r.kind with
    | .load .. | .lds .. | .brld _ => landRead s1 r1
    | .expq .. => finishExpq (putReq s1 r1) r1
    | _ => landRmw s1 r1
/-- PROMOTION_REQUEST (R220): core `core` makes its writes visible and acknowledges; the acquire of request `id` completes after
the last acknowledgement. -/
def execPromotionRequest (id core : Nat) (s : State) : Host.Outcome State Fault Refusal :=
  match getReq s id with
  | some r =>
    if r.done && r.drains.any fun o => o.core == core then
      let s1 := drainCore s core
      .next (if (openDrains s1 r.drains).isEmpty then completeAcquire s1 r else s1)
    else .next s
  | none => .next s
/-- RELEASE_RECORD_EVICT (R220): before a line with a release record leaves the slice, the named cores are promoted. -/
def execReleaseRecordEvict (line : Nat) (s : State) : Host.Outcome State Fault Refusal :=
  let q := ngetD ⟨[], false⟩ s.relRecs line
  let cs := if q.all then s.cores.map (·.1) else sortAsc (q.named.map (·.core))
  let s1 := cs.foldl drainCore s
  .next (if cs.any fun c => buffered s1 c s.nextId then s1 else { s1 with relRecs := ndel s1.relRecs line })

end Sys2Proof.Machine
end

