-- ==== Sys2Proof/Machine/Fabric.lean ====
section
/-! DEFINITION. Dies and devices (R430 to R447): multicast stores and reducing loads, routes and ports, leases, and the accesses of
other devices at this one. -/

namespace Sys2Proof.Machine

/-! ### MST and RLD (R444 to R447) -/

/-- Members that an access at an address reaches; 33 alone outside every multicast window (R445). -/
def membersOf (s : State) (ctx va : Nat) : List Nat :=
  match windowOf s ctx va with
  | some w => if winMode w = 2 then (List.range 33).filter (ngetD 0 s.groups (winChip w)).getLsbD else [33]
  | none => [33]
/-- A strong lane that reaches another device is performed at SYSTEM scope (R445). -/
def farScope (ms : List Nat) (r : Req) : Req := if r.strong && ms.any (· < 32) then { r with scope := .system, relScope := .system } else r
/-- A store of one lane, sent to each member. -/
def toMembers (s : State) (bs : List Byte) (r : Req) : List Req :=
  let ms := membersOf s r.ctx r.va
  ms.map fun m => { farScope ms r with kind := if m = 33 then .store bs else .mst bs m }
/-- MST (R445, R446). -/
def execMst (x : MM) (s : State) : Host.Outcome State Fault Refusal :=
  let pair := pairSize x.size
  issue x.h (Instr.mst x).wf false (fun _ _ t => recBound t x && opdAlloc t x.a.o false && opdAlloc t x.b.o pair)
    (fun i =>
      let a := rd i x.a false
      let b := rd i x.b pair
      withPlan i x [a, b] [] a (lanesOf i.act) fun p =>
        let spread (r : Req) : List Req := match r.kind with | .store bs => toMembers i.s bs r | _ => [r]
        let reqs := (storeReqs i x b p).flatMap spread
        if releaseWaits i x false !reqs.isEmpty then .wait
        else match sendAll i p (countOob i.t p.out.length) reqs with
        | .go s' => .go (spendReplay s' i.t.ctx i.t.seq)
        | r => r) s
/-- The readout of contributions, bits and tag (R56, R57). -/
def rldOut (f : FW) (mode : Nat) (cs : List (Nat × Nat)) : FO :=
  accRead f (accFmt f) mode (cs.foldl (fun acc c => accAdd f (accFmt f) acc c.1 c.2) 0)
/-- RLD (R445, R447): one request for each lane and member; a group without members gives the readout of no contribution. -/
def execRld (x : MM) (s : State) : Host.Outcome State Fault Refusal :=
  let pair := pairSize x.size
  let f : FW := if pair then .f64 else .f32
  issue x.h (Instr.rld x).wf false (fun _ _ t => recBound t x && opdAlloc t x.d pair && opdAlloc t x.a.o false)
    (fun i =>
      let a := rd i x.a false
      withPlan i x [a] [(x.d, pair)] a (servedLanes i x.d) fun p =>
        let n := sizeBytes x.size
        let sl := recSlot (wordsOf i) x.slot.toNat
        let pol : FpPol := ⟨slotMode sl, slotSigpol sl⟩
        let va (k : Int) : Nat := brAddr p.buf k n
        let ms (k : Int) : List Nat := membersOf i.s i.t.ctx (va k)
        let reqs := p.ins.flatMap fun e => (ms e.2).map fun m =>
          { farScope (ms e.2) (ordOf x false (mkReq i e.1 (.rld f pol x.d pair m))) with
            va := va e.2, n := n, read := true, shadowVa := if brT p.buf then some (brShadow p.buf e.2) else none }
        let none_ := p.ins.filter fun e => (ms e.2).isEmpty
        let o := rldOut f pol.mode []
        let t := none_.foldl
          (fun t e => landFlags (putOpd t x.d pair e.1 (BitVec.ofNat 64 o.y) (polTag pol.sigpol o.tag)) pol o.fl (polTag pol.sigpol o.tag))
          (markLoads i x.d pair p)
        sendAll i p t reqs) s
/-- Homes of a lane's contributions, walking again where this device's own member had none. -/
def rldHomes (s : State) : List Req → List Req × State
  | [] => ([], s)
  | q :: qs =>
    let lacks := !q.done && !isFaulted q && (q.loc.isNone || (q.shadowVa.isSome && q.shadow.isNone))
    let x := if lacks then reroute s q else (q, false, s)
    let y := rldHomes x.2.2 qs
    ((if x.2.1 then q else x.1) :: y.1, y.2)
/-- The contribution that a member's request has read: 0 with tag 0 where its firmware has discarded the access. -/
def contribOf (q : Req) : Nat × Nat := if q.done then (0, 0) else (q.val.toNat, q.vtag.toNat)
/-- Whether a member's contribution can be read. -/
def rldReady (s : State) (q : Req) : Bool := canPerform s q && q.loc.isSome && (q.shadowVa.isNone || q.shadow.isSome)
/-- The separate accesses of a lane: 64 * m + k for part `k` of its member's request `m` (R214, R216); and those that have been performed. -/
def rldParts (qs : List Req) : List Nat :=
  ((List.range qs.length).zip qs).flatMap fun e => if e.2.done then [] else (readParts e.2).map (64 * e.1 + ·)
def rldGot (qs : List Req) : List Nat := ((List.range qs.length).zip qs).flatMap fun e => e.2.got.map (64 * e.1 + ·)
/-- One part of a lane's reads is performed. -/
def readMember (z : List Req × State) (p : Nat) : List Req × State :=
  match z.1[p / 64]? with
  | some q => let y := readPart z.2 q (p % 64); (z.1.set (p / 64) y.1, y.2)
  | none => z
/-- A lane all of whose members have been read: its acquire completes once its drains are over (R220), and it receives the readout. -/
def landRld (s : State) (r : Req) (f : FW) (pol : FpPol) (d : Opd) (p : Bool) (qs : List Req) : State :=
  let ds := qs.flatMap (·.drains)
  let s1 := (sortAsc ((openDrains s ds).map (·.core))).foldl drainCore s
  if !(openDrains s1 ds).isEmpty then s1
  else
    let s2 := qs.foldl (fun s q => match q.loc with | some l => clearRecord s l q.n q.drains | none => s) s1
    let o := rldOut f pol.mode (qs.map contribOf)
    let tag := polTag pol.sigpol o.tag
    withTeam (pulse (qs.foldl (fun s q => dropReq s q.id) s2) r.ctx) r fun t => landFlags (land t d p r.lane (BitVec.ofNat 64 o.y) tag) pol o.fl tag
/-- RLD_READOUT_ARRIVAL (R447): members of the lane are read, and after the last the readout reaches the lane. -/
def execRldReadoutArrival (x : Parts) (s : State) : Host.Outcome State Fault Refusal :=
  match getReq s x.id with
  | some r =>
    match r.kind with
    | .rld f pol d p _ =>
      let h := rldHomes s (s.reqs.filter fun q => q.grp == r.grp && q.core == r.core && q.tid == r.tid && q.lane == r.lane)
      let now := partsNow (rldParts h.1) (rldGot h.1) x.which
      if !now.all fun k => (match h.1[k / 64]? with | some q => rldReady h.2 q | none => false) then .next (h.1.foldl putReq h.2)
      else
        let z := now.foldl readMember h
        let s1 := z.1.foldl putReq z.2
        .next (if allParts (rldParts h.1) (rldGot h.1) now then landRld s1 r f pol d p z.1 else s1)
    | _ => .next s
  | none => .next s

/-! ### Ports and routes (R434 to R436, R279) -/

/-- The port by which a location is reached, if it lies on another device. -/
def portOf (s : State) (l : Loc) : Option Nat :=
  match l with
  | .remote chip key _ => some (if 65 ≤ key then (key - 65) % 32 else (ngetD 0 s.routes (chip % 4096)).toNat % 32)
  | _ => none
/-- A write that a failing port loses may have been performed at its home (R436). -/
def loseWrite (s : State) (r : Req) : State :=
  match r.loc with
  | none => s
  | some l =>
    if !r.write || !canPerform s r then s
    else
      let s1 := { s with freshCount := s.freshCount + 1 }
      if !Config.lostWrite s.freshCount then s1
      else
        match r.kind with
        | .store bs | .mst bs _ => performWrite s1 r l bs
        | .atom fn w b cmp _ _ =>
          let n := wbits w
          let old := leNat (readLoc s1 l (n / 8))
          performUpdate s1 r l (leBytes (n / 8) (atomNew fn n old (b.toNat % 2 ^ n) (cmp.toNat % 2 ^ n)))
        | .xred f x t =>
          let acc := leNat (readLoc s1 l (accBytes f))
          performUpdate s1 r l (leBytes (accBytes f) (accAdd f (accFmt f) acc (x.toNat % 2 ^ (accFmt f).width) t.toNat))
        | .expq tok pay _ =>
          match appendOne s1 (teamEntry r) l tok pay with
          | .ok (_, s2) => performUpdate s2 r l (readLoc s2 l 64)
          | .error _ => s1
        | _ => s1
/-- The shadow bytes that a request reads: address and home. -/
def shadowsOf (r : Req) : List (Nat × Option Loc) :=
  match r.kind with
  | .fetch .. => (ticketShadows r).zip r.shLocs
  | _ => if r.read then (r.shadowVa.map fun v => (v, r.shadow)).toList else []
/-- A request that waits on a failed port meets PEER with reason LINK (R436). -/
def loseReq (port : Nat) (s : State) (id : Nat) : State :=
  match getReq s id with
  | none => s
  | some r =>
    let on (l : Option Loc) : Bool := match l with | some l => portOf s l == some port | none => false
    if r.done || isFaulted r then s
    else
      let lost : Option State :=
        if on r.loc then some (putReq (loseWrite s r) { r with loc := none, fault := 8, info := 1 })
        else ((shadowsOf r).find? fun x => on x.2).map fun x => putReq s { r with shadow := none, shadowVa := some x.1, shFault := 8, info := 1 }
      match lost with
      | none => s
      | some s1 =>
        match r.kind with
        | .fetch k e _ _ =>
          if (getEntry s1 k e).st == .inflight then putEntry s1 k e { getEntry s1 k e with st := .awaitTranslation } else s1
        | _ => s1
/-- Whether an entry of a route table names a port, and is present. -/
def namesPort (port : Nat) (e : BitVec 16) : Bool := e.getLsbD 15 && e.toNat % 32 == port
/-- Entries of a context's communicator tables: table and number. -/
def commEntries (k : Ctx) : List (Nat × Nat) := k.commTabs.flatMap fun tab => (List.range 64).map fun c => (tab, c)
/-- Every communicator of a context whose route table holds an entry with DOWN that names the port becomes BROKEN, and its collectives end
(R279, R435). -/
def breakComms (port : Nat) (s : State) (x : Nat × Ctx) : State :=
  let hit (e : BitVec 64) : Bool :=
    commState e == 1 && s.routes.any fun q => q.1 / 4096 == commRoute e && namesPort port q.2
  (commEntries x.2).foldl (fun s e => if hit (getComm s x.1 e.1 e.2) then breakComm s x.1 e.1 e.2 else s) s
/-- An entry of the controller's log of ECC and link events. -/
def logEcc (s : State) (k : Nat) : State := { s with ctl := { s.ctl with log := s.ctl.log ++ [k] } }
/-- PORT_FAILURE (R435): DOWN, then communicators, then waiting requests; an event of the error log (R460; its code is log entry 41's). -/
def execPortFailure (port : Nat) (s : State) : Host.Outcome State Fault Refusal :=
  let s1 := { logEcc s (256 + port) with
    downPorts := insAsc port s.downPorts,
    routes := s.routes.map fun e : Nat × BitVec 16 => if namesPort port e.2 then (e.1, e.2 ||| 0x4000) else e }
  let s2 := s1.ctxs.foldl (breakComms port) s1
  .next ((s2.reqs.map fun r : Req => r.id).foldl (loseReq port) s2)
/-- ROUTE_TABLE_REBUILD (R434, R435): system software writes a table afresh; a port that it names is in use again (log entry 40). -/
def execRouteTableRebuild (table : Nat) (entries : NMap (BitVec 16)) (s : State) : Host.Outcome State Fault Refusal :=
  if 1024 ≤ table then .next s
  else
    let kept := s.routes.filter fun e => e.1 / 4096 != table
    let es := entries.filter fun e => decide (e.1 < 4096)
    let used := (es.filter fun e => e.2.getLsbD 15).map fun e => e.2.toNat % 32
    .next { s with
      routes := es.foldl (fun m e => nsetD 0 m (4096 * table + e.1) (e.2 &&& 0x801F)) kept,
      downPorts := s.downPorts.filter fun p => !used.contains p }
/-- COMMUNICATOR_REBUILD (R273, R279, R434): system software writes an entry of a communicator table, which is 512-B aligned. One
whose ROUTE is 0 or above 1,023 is never made READY. -/
def execCommunicatorRebuild (ctx : Nat) (c : CommAt) (entry : BitVec 64) (s : State) : Host.Outcome State Fault Refusal :=
  if (getCtx s ctx).st == .free || c.tab == 0 || c.tab % 512 != 0 || decide (64 ≤ c.comm) || commState entry == 3 ||
      (commState entry == 1 && (commRoute entry == 0 || decide (1023 < commRoute entry))) then .next s
  else .next (updCtx (putComm s ctx c.tab c.comm entry) ctx fun k => { k with commTabs := insAsc c.tab k.commTabs })
/-- Firmware sets Gait (R458): k, m and the ring while it writes no records; on or off; records taken from the ring. -/
def setGait (s : State) (x : GaitSet) : State :=
  let g := s.gait
  match x with
  | .set k m ring =>
    if g.on || k < 10 || 24 < k || m < 4 || 16 < m then s
    else { s with gait := { g with k := k, m := m, ring := ring, written := 0, head := 0 } }
  | .write on => { s with gait := if on then { g with on := true, drop := if g.on then g.drop else 0, frozen := false } else { g with on := false } }
  | .taken n => { s with gait := { g with head := min g.written (g.head + n) } }
/-- Firmware sets the percentile and the action of a latency monitor (R459). -/
def setMonitor (s : State) (key percentile action : Nat) : State :=
  if 100 < percentile || 3 < action then s
  else { s with latency := nset s.latency key { ngetD ⟨0, 0, [], none, 0, 0⟩ s.latency key with percentile := percentile, action := action } }
/-- PEER_WINDOW_WRITE: firmware writes a peer window, of which bits [79:0] are Zero (R437), an export range, taken away by length 0 (R439),
an entry of the group table (R444), a setting of Gait, of the histogram engine or of a latency monitor (R458, R459). -/
def execPeerWindowWrite (x : FirmSet) (i : BitVec 12) (w : BitVec 256) (s : State) : Host.Outcome State Fault Refusal :=
  match x with
  | .window ctx =>
    if (getCtx s ctx).st == .free then .next s
    else .next (updCtx s ctx fun k => { k with windows := nsetD 0 k.windows (i.toNat % 16) ((w >>> 80) <<< 80) })
  | .exportRange base len devices world =>
    .next { s with exports := if len = 0 then ndel s.exports (i.toNat % 64) else nset s.exports (i.toNat % 64) ⟨base, len, devices, world⟩ }
  | .group => .next { s with groups := nsetD 0 s.groups i.toNat (w.setWidth 33) }
  | .gait g => .next (setGait s g)
  | .watch ctx start shift => .next { s with hist := { s.hist with ctx := ctx, start := start, shift := shift } }
  | .latency key percentile action => .next (setMonitor s key percentile action)

/-! ### Leases (R440) -/

/-- LEASE_REQUEST (R440): the first access through a leased window obtains a lease on the target page. -/
def execLeaseRequest (_core ctx : Nat) (va : Nat) (s : State) : Host.Outcome State Fault Refusal :=
  match windowOf s ctx va with
  | some w =>
    let l := (winChip w, winRctx w, leasePage (va - winVbase w + winRbase w))
    if winMode w = 1 && reachable s 0 (winChip w) && !s.leasesHeld.contains l then .next { s with leasesHeld := s.leasesHeld ++ [l] }
    else .next s
  | none => .next s
/-- Whether an access of this device to a page of a context of another device is in flight, one waiting after a fault too (R440). -/
def leaseBusy (s : State) (chip rctx page : Nat) : Bool :=
  let there (r : Req) : Bool :=
    !r.done &&
    (((r.loc :: r.shadow :: r.shLocs).any fun l =>
        match l with | some (.remote c k a) => c == chip && k == rctx + 1 && leasePage a == page | _ => false) ||
     (isFaulted r && (r.va :: r.shadowVa.toList ++ ticketShadows r).any fun v =>
        match windowOf s r.ctx v with
        | some w => winMode w == 1 && winChip w == chip && winRctx w == rctx && leasePage (v - winVbase w + winRbase w) == page
        | none => false))
  s.reqs.any there || s.ctxs.any fun x => x.2.savedReqs.any there
/-- LEASE_RECALL (R440): of a page of this device every holder has acknowledged and its lease ends; of a page of another device this one
drops its lease once its accesses to the page are performed. -/
def execLeaseRecall (chip rctx page : Nat) (s : State) : Host.Outcome State Fault Refusal :=
  if chip = s.deviceNumber.toNat then
    .next { s with leasesGranted := s.leasesGranted.filter fun l => !(l.2.1 == rctx && l.2.2 == page) }
  else if leaseBusy s chip rctx page then .next s
  else .next { s with leasesHeld := s.leasesHeld.filter fun l => l != (chip, rctx, page) }

/-! ### Accesses of other devices (R438 to R441, R443, R444) -/

/-- Bytes that a peer's access covers. -/
def peerLen : PeerAcc → Nat
  | .store bs => bs.length
  | .load n => n
  | .atom _ z _ _ => sizeBytes z
  | .exact f _ _ => accBytes f
  | .append .. => 64
/-- Whether an export range takes a direct access (R439). -/
def exported (s : State) (chip : Nat) (wld : Bool) (a n : Nat) : Bool :=
  s.exports.any fun e => decide (e.2.base ≤ a) && decide (a + n ≤ e.2.base + e.2.len) && e.2.devices.contains chip && e.2.world == wld
/-- The counter of its slice that counts a peer's access (R458). -/
def peerCounter (acc : PeerAcc) : Nat := match acc with | .load _ => 0 | .store _ => 1 | _ => 4
/-- A peer's access at its home, which its slice counts (R458): a load leaves nothing else here. `at_` translates the entries of a queue. -/
def peerPerform (s₀ : State) (at_ : EntryHome) (l : Loc) (acc : PeerAcc) : State :=
  let s := tallyAt s₀ l (peerCounter acc) 0
  match acc with
  | .store bs => storeAt s l bs
  | .load _ => s
  | .atom fn z b cmp =>
    let n := 8 * sizeBytes z
    let old := leNat (readLoc s l (n / 8))
    writeLoc s l (leBytes (n / 8) (atomNew fn.toNat n old (b.toNat % 2 ^ n) (cmp.toNat % 2 ^ n)))
  | .exact f x t =>
    let a := leNat (readLoc s l (accBytes f))
    writeLoc s l (leBytes (accBytes f) (accAdd f (accFmt f) a (x.toNat % 2 ^ (accFmt f).width) t.toNat))
  | .append token payload => match appendOne s at_ l token payload with | .ok (_, s1) => s1 | .error _ => s
/-- Entries of a queue that a direct access of device `chip` names by physical address, inside the export ranges. -/
def directEntry (chip : Nat) (wld : Bool) : EntryHome := fun s _ a =>
  (if exported s chip wld a 8 then ⟨some (.hbm a), 0, 0, false⟩ else ⟨none, 8, 2, false⟩, s)
/-- Entries that a leased access names by address of context `rctx`. -/
def leasedEntry (rctx : Nat) (wld : Bool) : EntryHome := fun s write a =>
  let x := tableAt s .device rctx wld write a none
  match x.1 with
  | .ok l => (⟨some l, 0, 0, false⟩, x.2)
  | .world => (⟨none, 5, 0, true⟩, x.2)
  | .fault k i => (⟨none, k, i, false⟩, x.2)
  | .multicast _ => (⟨none, 8, 2, false⟩, x.2)
/-- Whether an access changes what it names. -/
def peerWrites : PeerAcc → Bool
  | .load _ => false
  | _ => true
/-- The own processor of endpoint `chip` accesses its memory (R443). A store that lands between the read and the write of request `between`, a
read-modify-write of this device there, is lost in the 8-B words that it names. -/
def ownAccess (s : State) (chip addr : Nat) (acc : PeerAcc) (between : Option Nat) : State :=
  let at_ : EntryHome := fun s _ a => (⟨some (.remote chip 0 a), 0, 0, false⟩, s)
  match between with
  | none => peerPerform s at_ (.remote chip 0 addr) acc
  | some id =>
    match getReq s id, acc with
    | some r, .store bs =>
      match r.kind, r.loc with
      | .atom .., some (.remote c 0 a) =>
        if c = chip && canPerform s r then
          let s1 := performAtom s r
          (List.range bs.length).foldl
            (fun s k => if (addr + k) / 8 = a / 8 then s else storeAt s (.remote chip 0 (addr + k)) [nth 0 bs k]) s1
        else s
      | _, _ => s
    | _, _ => s
/-- PEER_ACCESS_AT_TARGET (R438 to R441, R443, R444): a direct access inside an export range, or one that context `rctx`'s table translates,
is performed; any other is refused. A leased access leaves a lease while the table of 16,384 has room; a multicast store or load that faults
here is told to this device's firmware, once until it has answered. -/
def execPeerAccessAtTarget (chip : BitVec 12) (wld : Bool) (mode : PeerMode) (addr : Nat) (acc : PeerAcc) (s : State) :
    Host.Outcome State Fault Refusal :=
  let via (rctx : Nat) (lease : Bool) : State :=
    let x := tableAt s .device rctx wld (peerWrites acc) addr none
    match x.1 with
    | .ok l =>
      let k := (chip.toNat, rctx, leasePage addr)
      let s1 :=
        if lease && !x.2.leasesGranted.contains k && decide (x.2.leasesGranted.length < 16384) then
          { x.2 with leasesGranted := x.2.leasesGranted ++ [k] }
        else x.2
      peerPerform s1 (leasedEntry rctx wld) l acc
    | .fault k _ =>
      let f : FaultRec := ⟨k, 0, if peerWrites acc then 1 else 0, 0, 0, 0, 0, 0, 0, 0, addr, 0, 0, 0, 2 ^ 67⟩
      let q := getCtx s rctx
      if lease || q.heldRecs.contains f || q.openRecs.any (·.2 == f) then s else queueFault s rctx f
    | _ => s
  if s.ctl.mode != .running then .next s
  else
    match mode with
    | .direct =>
      .next (if exported s chip.toNat wld addr (peerLen acc) then peerPerform s (directEntry chip.toNat wld) (.hbm addr) acc else s)
    | .leased rctx => .next (if (getCtx s rctx).st == .free then s else via rctx true)
    | .multicast rctx => .next (if (getCtx s rctx).st == .free then s else via rctx false)
    | .own between => .next (if chip = s.deviceNumber then s else ownAccess s chip.toNat addr acc between)

end Sys2Proof.Machine
end

