-- ==== Sys2Proof/Machine/Faults.lean ====
section
/-! DEFINITION. Translation faults, the operand log, fault records and acknowledgements (R363 to R370, R419 to R421, R464), the delivery of
traps (R373), the context watchdog (R378), TLB evictions (R361) and uncorrectable errors (R448 to R450). -/

namespace Sys2Proof.Machine

/-! ### What a faulted access reports (R369, R419) -/

/-- A page on which one lane's access faults. -/
structure Miss where
  lane : Nat
  va : Nat
  cause : Nat
  info : Nat
  acc : Nat
/-- The pages on which a request waits. -/
def missesOf (r : Req) : List Miss :=
  let acc := if r.write && r.shadowVa.isSome then 4 else if r.read && r.write then 2 else if r.write then 1 else 0
  (if r.fault = 0 then [] else [⟨r.lane, r.va, r.fault, r.info, acc⟩]) ++
  (if r.shFault = 0 then [] else [⟨r.lane, r.shadowVa.getD 0, r.shFault, r.info, 3⟩])
/-- One record for each page, ascending; `base` gives the fields that they share (R419). -/
def missRecs (base : FaultRec) (ms : List Miss) : List FaultRec :=
  (sortAsc (ms.map fun m => m.va / 65536)).filterMap fun p =>
    let here := sortBy (fun a b => decide (a.lane < b.lane)) (ms.filter fun m => m.va / 65536 == p)
    match here with
    | m :: _ => some { base with
        cause := m.cause, acc := m.acc, va := m.va, info := BitVec.ofNat 64 (engInfo m.cause m.info 0),
        fmask := maskOfList (here.map (·.lane)) }
    | [] => none
/-- Fields of a record of an instruction's access. -/
def recOf (r : Req) (src log : Nat) (pmask : Mask) (grp : Nat) : FaultRec :=
  ⟨0, src, 0, r.core, r.slot, log, 0, r.pc, pmask, 0, 0, 0, 0, r.rgncnt, grp⟩
/-- Hold records for writing. -/
def queueFaults (s : State) (x : Nat) (rs : List FaultRec) : State := rs.foldl (fun s r => queueFault s x r) s
/-- Whether the leaf of a request's data, and that of the shadow byte that it reads, is of the other world (R464). -/
def otherLeaves (s : State) (r : Req) : Bool × Bool :=
  let home (write : Bool) (va : Nat) : Bool :=
    match r.kind with
    | .mst _ m | .rld _ _ _ _ m => (memberHome s r.core r.ctx write va m).1.world
    | _ => (homeOf s r.core r.ctx write va).1.world
  (home r.write r.va, match r.shadowVa with | some v => !r.write && home false v | none => false)
/-- Walk again for each request; a leaf of the other world gives cause WORLD for its page (R464). A request that translates stays with its
log entry until it is performed (R367). -/
def rewalk : List Req → State → State
  | [], s => s
  | r :: rs, s =>
    let x := reroute s r
    let o := otherLeaves s r
    let r1 := { x.1 with fault := if o.1 then 5 else x.1.fault, shFault := if o.2 then 5 else x.1.shFault }
    rewalk rs (putReq x.2.2 { r1 with logged := if isFaulted r1 then none else r.logged, sent := false })

/-! ### The operand log (R363, R366, R419, R420) -/

/-- Requests of one instruction. -/
def sameInstr (r q : Req) : Bool := q.grp == r.grp && q.core == r.core && q.tid == r.tid
/-- The lowest-numbered free log entry of a core. -/
def freeLog (s : State) (c : Nat) : Option Nat :=
  findNat (fun n => match nget (getCore s c).log n with | some e => !logLive s c e | none => true) Config.logEntries 0
/-- PMASK now: lanes are added as they are performed (R370, R420). -/
def pmaskNow (s : State) (c : Nat) (e : LogEntry) : Mask :=
  e.pmask ||| (e.act &&& ~~~ maskOfList ((s.reqs.filter fun q => q.core == c && q.tid == e.tid && q.grp == e.grp && !q.done).map (·.lane)))
/-- Requests of an instruction that fault and have no entry yet take log entry `n`, and their records are held for writing. -/
def fileFaults (s : State) (r : Req) (n : Nat) (old : Option LogEntry) : State :=
  let bad := s.reqs.filter fun q => sameInstr r q && isFaulted q && q.logged.isNone
  let lost := maskOfList (bad.map (·.lane))
  let e : LogEntry :=
    match old with
    | some e => { e with pmask := pmaskNow s r.core e }
    | none =>
      { grp := r.grp, slot := r.slot, tid := r.tid, ctx := r.ctx, pc := r.pc, act := r.act, pmask := r.act &&& ~~~ lost,
        word := bytesOfWord r.word.toNat, img := r.img, discard := [] }
  let s1 := updCore s r.core fun k => { k with log := nset k.log n e, logWait := k.logWait.filter (· != r.grp) }
  let s2 := { s1 with reqs := s1.reqs.map fun q => if bad.any (·.id == q.id) then { q with logged := some n } else q }
  queueFaults s2 r.ctx (missRecs (recOf r 0 n e.pmask r.grp) (bad.flatMap missesOf))
/-- The log entry that an instruction already holds (R366). -/
def ownLog (s : State) (r : Req) : Option (Nat × LogEntry) :=
  (getCore s r.core).log.find? fun e => e.2.grp == r.grp && e.2.tid == r.tid && logLive s r.core e.2
/-- The faulted lanes of an instruction join its log entry, take a free one, or wait for one (R366, R419). -/
def takeLog (s : State) (r : Req) : State :=
  match ownLog s r with
  | some e => fileFaults s r e.1 (some e.2)
  | none =>
    match freeLog s r.core with
    | some n => tally (fileFaults s r n none) r.core 12 1
    | none => updCore s r.core fun k => { k with logWait := insAsc r.grp k.logWait }
/-- Lanes of an EXPQ whose queue entries faulted are held at the append unit (R252, R365). -/
def appendFaults (s : State) (r : Req) : State :=
  let bad := s.reqs.filter fun q => sameInstr r q && q.fault == 0 && q.shFault != 0 && q.logged.isNone
  let s1 := { s with reqs := s.reqs.map fun q => if bad.any (·.id == q.id) then { q with logged := some Config.logEntries } else q }
  let miss (q : Req) : Miss := ⟨q.lane, q.shadowVa.getD 0, q.shFault, q.info % 256, q.info / 256⟩
  queueFaults s1 r.ctx (missRecs (recOf r 4 0 0 r.grp) (bad.map miss))
/-- The pages on which a line-set whose request is `r` waits: its data, and shadow bytes of its elements (R239, R368). -/
def fetchMisses (s : State) (r : Req) (e : TkEntry) (sh : List Nat) : List Miss :=
  let ls := (e.elems.map (·.1)).filter fun l => inMask r.act l
  let dark (j : Nat) : List Miss :=
    let l := (nth (0, 0) e.elems j).1
    let h := (homeOf s r.core r.ctx false (nth 0 sh j)).1
    let told := r.shFault != 0 && r.shadowVa == some (nth 0 sh j)   -- a peer's answer is known to the request alone
    let cause := if h.world then 5 else if h.fault = 0 && told then r.shFault else h.fault
    if cause = 0 || !inMask r.act l then [] else [⟨l, nth 0 sh j, cause, if h.fault = 0 then r.info else h.info, 3⟩]
  (if r.fault = 0 then [] else ls.map fun l => ⟨l, r.va, r.fault, r.info, 0⟩) ++ (List.range sh.length).flatMap dark
/-- The records of a line-set whose request `r` faults: one for each page (R239, R365, R368). -/
def fileFetch (s : State) (r : Req) : State :=
  match r.kind with
  | .fetch k n lines sh =>
    let e := getEntry s k n
    let base : FaultRec := { recOf r 1 0 0 r.id with ticket := mkTicket s k n e.gen.toNat lines e.wld (!sh.isEmpty) r.ctx }
    queueFaults (putReq s { r with logged := some Config.logEntries }) r.ctx (missRecs base (fetchMisses s r e sh))
  | _ => s
/-- The walk of a line-set whose ticket waits for translation (R239, R365): the fetch goes out, or records name the pages. A leaf of the other
world gives cause WORLD (R464). -/
def walkFetch (s : State) (r : Req) : State :=
  match r.kind with
  | .fetch k n _ sh =>
    let e := getEntry s k n
    if e.fetch ≠ r.id || e.st = .free then { s with reqs := s.reqs.filter fun q => q.id != r.id }
    else
      let x := routeTicket s r sh
      let other (va : Nat) : Bool := (homeOf s r.core r.ctx false va).1.world
      let r1 := { x.1 with fault := if other r.va then 5 else x.1.fault, shFault := if sh.any other then 5 else x.1.shFault }
      if !isFaulted r1 then
        let s1 := putReq x.2.2 { r1 with logged := none }
        pulse (if e.st = .awaitTranslation then putEntry s1 k n { e with st := .inflight } else s1) r.ctx
      else fileFetch x.2.2 r1
  | _ => s
/-- Whether a home reached by an address is at a peer device's G9, which may refuse an access (R439) or fault it (R440). -/
def peerAt (s : State) (r : Req) (l : Option Loc) (va : Nat) : Bool :=
  match l with
  | some (.remote _ key _) => decide (key ≤ 64) && !hostAt s (.core r.core) r.ctx va
  | _ => false
/-- Whether an access in flight, or that of a shadow byte with it, has a peer as its home. -/
def atPeer (s : State) (r : Req) : Bool :=
  isAccess r && !r.done && (peerAt s r r.loc r.va || (shadowsOf r).any fun x => peerAt s r x.2 x.1)
/-- Source registers of the CVTQ that issued a scale read (R364). -/
def scaleSources (r : Req) : List Nat :=
  match r.kind, decodeWord r.word.toNat with
  | .scale _ _ g .., .ok (.cvtqQuantise x) => cvtqRegs true x g
  | .scale _ _ g .., .ok (.cvtqDequantise x) => cvtqRegs false x g
  | _, _ => []
/-- What a peer answers an access of the request to a home of its own: none where it performs it. -/
def peerSays (s : State) (r : Req) (l : Option Loc) (va : Nat) : Option (Nat × Nat) :=
  if peerAt s r l va then l.bind fun h => peerRefuses s h r.write (hostAt s (.core r.core) r.ctx va) else none
/-- The answers of peers to a request's shadow bytes, one after the other: the first refusal, with its address. -/
def shadowSays (r : Req) : List (Nat × Option Loc) → State → Option (Nat × Nat × Nat)
  | [], _ => none
  | x :: xs, s =>
    match peerSays s r x.2 x.1 with
    | some f => some (x.1, f)
    | none => shadowSays r xs { s with freshCount := s.freshCount + 1 }
/-- The request as the peers that are its homes have answered it: its data first, then its shadow bytes. -/
def afterPeers (s : State) (r : Req) : Option Req :=
  match peerSays s r r.loc r.va with
  | some f => some { r with loc := none, fault := f.1, info := f.2, logged := none, sent := true }
  | none =>
    match shadowSays r (shadowsOf r) { s with freshCount := s.freshCount + 1 } with
    | some x => some { r with shadow := none, shadowVa := some x.1, shFault := x.2.1, info := x.2.2, logged := none, sent := true }
    | none => none
/-- An access reaches the peers that are its homes, which answer it (R436, R439, R440). A refusal after a replay is one more fault of the
instruction, with a record of its own (R370). -/
def askPeer (s : State) (r : Req) : State :=
  let s1 := { s with freshCount := s.freshCount + 1 + (shadowsOf r).length }
  match afterPeers s r with
  | none => s1
  | some r1 =>
    match r.kind with
    | .fetch k n _ _ =>
      let e := getEntry s1 k n
      if e.st = .inflight then fileFetch (putEntry (putReq s1 r1) k n { e with st := .awaitTranslation }) r1 else s1
    | .ldt .. | .launch .. => s1
    | .scale .. =>
      let s2 := takeLog (putReq s1 r1) r1
      if (teamOf s2 r).isSome then holdSources s2 r.core r.slot r.grp (scaleSources r) else s2
    | _ => takeLog (putReq s1 r1) r1
/-- TRANSLATION_FAULT (R239, R252, R363 to R366, R419, R440): a walk here, or at the peer that is the access's home. -/
def execTranslationFault (id : Nat) (s : State) : Host.Outcome State Fault Refusal :=
  match getReq s id with
  | some r =>
    if !isFaulted r && atPeer s r && canPerform s r then .next (askPeer s r)
    else if !isFaulted r || r.logged.isSome then .next s
    else
      match r.kind with
      | .ldt .. | .launch .. => .next s
      | .fetch .. => .next (walkFetch s r)
      | .expq .. => .next (if r.fault = 0 then appendFaults s r else takeLog s r)
      | _ => .next (takeLog s r)
  | none => .next s

/-! ### Fault records (R368, R369) -/

/-- The 512 bits of a record. -/
def recBits (ctx : Nat) (r : FaultRec) (seq : Nat) (phase : Bool) : Nat :=
  packL [64, 64, 64, 64, 7, 57, 32, 32, 32, 32, 11, 3, 4, 6, 10, 6, 4, 4, 8, 7, 1]
    [0, r.rgncnt.toNat, r.info.toNat, r.ticket.toNat, 0, r.va, r.fmask.toNat, r.pmask.toNat, r.pc.toNat, seq, 0, r.chan,
      if r.src = 0 then r.log else 0, r.slot, if r.src = 4 then 0 else r.core, ctx, r.acc, r.src, r.cause, 0, if phase then 1 else 0]
/-- PMASK of a record as it is written (R369): for the access of an instruction, the lanes performed by then. -/
def recPmask (s : State) (r : FaultRec) : Mask :=
  if r.src = 0 then
    match nget (getCore s r.core).log r.log with
    | some e => if e.grp = r.grp && r.cause != 6 then pmaskNow s r.core e else r.pmask
    | none => r.pmask
  else r.pmask
/-- FAULT_RECORD_WRITE (R368, R378): the oldest held record, where the head leaves room. -/
def execFaultRecordWrite (ctx : Nat) (s : State) : Host.Outcome State Fault Refusal :=
  let k := getCtx s ctx
  match k.heldRecs with
  | [] => .next s
  | r0 :: rest =>
    let a := unitAcquire s (.hbm k.ringHead) 8
    let r := { r0 with pmask := recPmask s r0 }
    let size : Nat := 2 ^ k.ringLog2
    let seq : Nat := k.nextFault % 2 ^ 32
    if !a.1 then .next a.2
    else if wrap ((seq : Int) - countWord a.2 k.ringHead) 32 = size then .next a.2
    else
      let s1 := storeAt a.2 (.hbm (k.ringBase + 64 * (seq % size))) (leBytes 64 (recBits ctx r seq (seq / size % 2 == 0)))
      .next (pulse (updCtx (putCount s1 k.ringTail (seq + 1)) ctx fun k =>
        { k with heldRecs := rest, nextFault := k.nextFault + 1, openRecs := nset k.openRecs seq r }) ctx)

/-! ### Acknowledgements (R370, R421) -/

/-- No team of a context holds an issue slot any more. -/
def dropGrants (s : State) (f : Team → Bool) : State :=
  let core (k : Core) : Core :=
    { k with islots := k.islots.map fun e =>
        match e.2.holder with
        | some sl => if (nget k.teams sl).any f then (e.1, { e.2 with holder := none }) else e
        | none => e }
  { s with cores := s.cores.map fun e => (e.1, core e.2) }
/-- A context enters RESETTING (R379, R370 KILL). -/
def startReset (s : State) (ctx : Nat) : State :=
  updCtx (dropGrants s fun t => t.ctx == ctx) ctx fun k => if k.st = .free then k else { k with st := .resetting }
/-- Release a command that firmware has answered for; a discarded access is named. -/
def letGo (gone : List Nat) (key : Option Nat) : List Nat := match key with | some k => gone ++ [k] | none => gone
/-- Answer for a command of an engine, running or saved (R365, R370). -/
def answerCmd (s : State) (ctx id : Nat) (key : Option Nat) : State :=
  let cp (m : CopyCmd) : CopyCmd := if m.id = id then { m with fault := 0, gone := letGo m.gone key } else m
  let op (o : TileOp) : TileOp := if o.id = id then { o with fault := 0, gone := letGo o.gone key } else o
  let cl (m : CollCmd) : CollCmd := if m.id = id then { m with fault := 0, gone := letGo m.gone key } else m
  let ch (q : NMap (List CopyCmd)) : NMap (List CopyCmd) := q.map fun e => (e.1, e.2.map cp)
  let s1 := { s with cores := s.cores.map fun e => (e.1, { e.2 with chans := ch e.2.chans, tops := e.2.tops.map op }) }
  updCtx s1 ctx fun k => { k with
    colls := k.colls.map cl,
    saved := k.saved.map fun c => { c with chans := ch c.chans, tops := c.tops.map op } }
/-- Change the requests of a context, in flight or saved. -/
def mapReqs (s : State) (ctx : Nat) (f : Req → Req) : State :=
  updCtx { s with reqs := s.reqs.map fun q => if q.ctx = ctx then f q else q } ctx fun k => { k with savedReqs := k.savedReqs.map f }
/-- DISCARD for the logged accesses of a page: their requests are named in the entry, in place or saved (R421). -/
def discardLogged (s : State) (ctx grp page : Nat) : State :=
  let hit (q : Req) : Bool := q.ctx == ctx && q.grp == grp && (missesOf q).any fun m => m.va / 65536 == page
  let ids := ((s.reqs ++ (getCtx s ctx).savedReqs).filter hit).map (·.id)
  let log (m : NMap LogEntry) : NMap LogEntry :=
    m.map fun e => if e.2.grp = grp ∧ e.2.ctx = ctx then (e.1, { e.2 with discard := e.2.discard ++ ids }) else e
  let s1 := { s with cores := s.cores.map fun e => (e.1, { e.2 with log := log e.2.log }) }
  updCtx s1 ctx fun k => { k with saved := k.saved.map fun c => { c with log := log c.log } }
/-- DISCARD for a ticket that waits for translation: FREE with end RECLAIMED, or out-of-bounds values for the redeem that holds it. -/
def discardTicket (s : State) (r : Req) : State :=
  match r.kind with
  | .fetch k n _ _ =>
    let e := getEntry s k n
    let s1 := { s with reqs := s.reqs.filter fun q => q.id != r.id }
    if e.fetch ≠ r.id then s1
    else if e.st = .awaitTranslation then freeTicket s1 k n false
    else if e.st = .held then
      let fill (q : Req) : Req :=
        match q.kind with
        | .deliver tk ls d p sp _ _ _ _ => if q.id = e.redeem then { q with done := true, kind := .deliver tk ls d p sp [] [] [] true } else q
        | _ => q
      freeTicket (mapReqs s1 r.ctx fill) k n true
    else s1
  | _ => s
/-- Whether another record of a line-set's pages has still to be answered (R368). -/
def fetchWaits (s : State) (ctx id : Nat) : Bool :=
  let mine (f : FaultRec) : Bool := f.src == 1 && f.grp == id
  (getCtx s ctx).heldRecs.any mine || (getCtx s ctx).openRecs.any fun e => mine e.2
/-- DISCARD of an access at this device's own member (R370, R444): a store writes nothing there, a load contributes 0. -/
def discardMember (s : State) (id : Nat) : State :=
  let go (qs : List Req) : List Req :=
    (qs.filter fun q => !(q.id == id && q.write)).map fun q => if q.id = id then { q with done := true, loc := none, shadow := none } else q
  { s with reqs := go s.reqs, ctxs := s.ctxs.map fun e => (e.1, { e.2 with savedReqs := go e.2.savedReqs }) }
/-- RETRY or DISCARD of a record (R370). A record of cause QUEUE, TRAP or WATCHDOG holds nothing. -/
def answerRec (s : State) (ctx : Nat) (f : FaultRec) (discard : Bool) : State :=
  let key := if discard then some (goneKey f.va (f.acc == 1 || f.acc == 2 || f.acc == 4)) else none
  if f.cause = 4 || f.cause = 6 || f.cause = 7 then s
  else match f.src with
  | 0 =>
    if !discard then s
    else if 2 ^ 66 ≤ f.grp then discardMember s (f.grp - 2 ^ 66)
    else discardLogged s ctx f.grp (f.va / 65536)
  | 1 =>
    match getReq s f.grp with
    | some r =>
      if discard then discardTicket s r
      else if fetchWaits s ctx f.grp then s
      else walkFetch s { r with logged := none }
    | none => s
  | 4 =>
    let on (q : Req) : Bool := q.grp == f.grp && q.fault == 0 && q.shFault != 0 && inMask f.fmask q.lane
    let go (q : Req) : Req :=
      if !on q then q
      else if discard then { q with shFault := 0, logged := none, done := true, val := 0, vtag := 0 }
      else { q with shFault := 0, logged := none }
    let s1 := mapReqs s ctx go
    match s1.reqs.find? fun q => q.ctx == ctx && q.grp == f.grp with
    | some r => if discard then finishExpq s1 r else s1
    | none => s1
  | 6 =>
    if 2 ^ 65 ≤ f.grp then
      updCtx s ctx fun k => { k with
        queues := k.queues.map fun e => if queueGrp e.1 = f.grp then (e.1, { e.2 with gone := letGo e.2.gone key }) else e }
    else if f.grp % 2 = 1 then
      updLaunch s ctx (f.grp / 2) fun q => { q with fault := 0, gone := letGo q.gone key }
    else
      let s1 := mapReqs s ctx fun q =>
        if q.id ≠ f.grp / 2 then q
        else match q.kind with
          | .launch d p rel _ w => if discard then { q with fault := 0, kind := .launch d p rel true w } else { q with fault := 0 }
          | _ => q
      let notes := (getCtx s1 ctx).notes
      let notes1 := (notes.filter fun n => !(discard && n.id == f.grp / 2)).map fun n =>
        if n.id = f.grp / 2 then { n with fault := 0 } else n
      flushNotes ctx notes1.length (updCtx s1 ctx fun k => { k with notes := notes1 })
  | _ => answerCmd s ctx f.grp key
/-- ACK_READ (R370): the task unit acquires the tail and takes the next acknowledgement. -/
def execAckRead (ctx : Nat) (s : State) : Host.Outcome State Fault Refusal :=
  let k := getCtx s ctx
  if k.st == .free || k.st == .resetting then .next s
  else
    let a := unitAcquire s (.hbm k.ackTail) 8
    if !a.1 then .next a.2
    else if countWord a.2 k.ackTail = k.acksRead % 2 ^ 32 then .next a.2
    else
      let w := leNat (getBytes a.2.mem (k.ackBase + 8 * (k.acksRead % 2 ^ k.ringLog2)) 8)
      let seq := w % 2 ^ 32
      let act := bits w 33 32
      let s1 := updCtx a.2 ctx fun k => { k with acksRead := k.acksRead + 1 }
      match nget k.openRecs seq with
      | none => .next s1
      | some f =>
        if act = 3 then .next s1
        else
          let s2 := updCtx s1 ctx fun k => { k with openRecs := ndel k.openRecs seq }
          .next (if act = 2 then startReset s2 ctx else answerRec s2 ctx f (act == 1))

/-! ### Replay (R370, R464) -/

/-- Whether a record of a logged instruction still waits for its answer. -/
def unanswered (k : Ctx) (grp : Nat) : Bool :=
  let mine (f : FaultRec) : Bool := f.src == 0 && f.cause != 6 && f.grp == grp
  k.heldRecs.any mine || k.openRecs.any fun e => mine e.2
/-- A discarded access ends as an out-of-bounds one, without OOBCNT or OOBTRAP (R370). -/
def discardReq (s : State) (id : Nat) : State :=
  match getReq s id with
  | none => s
  | some r =>
    let s1 := dropReq s r.id
    match r.kind with
    | .load d p _ | .atom _ _ _ _ d p | .xrd _ _ d p => withTeam s1 r fun t => landZero t d p r.lane
    | .rld _ _ d p _ =>
      let rest := s1.reqs.filter fun q => !(sameInstr r q && q.lane == r.lane)
      withTeam { s1 with reqs := rest } r fun t => landZero t d p r.lane
    | .brld b =>
      match teamOf s1 r with
      | some t => if t.hold.isSome then retireHold (setTeam s1 r.core r.slot { t with bufs := nset t.bufs b 0 }) r.core r.slot else s1
      | none => s1
    | .scale .. => landScale s { r with fault := 0, shFault := 0 } 0 0
    | .expq .. => finishExpq (putReq s { r with fault := 0, shFault := 0, done := true, val := 0, vtag := 0 }) r
    | _ => s1
/-- REPLAY (R370): once every record of an entry has been answered, its unfinished lanes are re-issued; lanes that fault again keep the
entry and write new records. -/
def execReplay (core entry : Nat) (s : State) : Host.Outcome State Fault Refusal :=
  match nget (getCore s core).log entry with
  | none => .next s
  | some e =>
    let mine (q : Req) : Bool := q.core == core && q.tid == e.tid && q.grp == e.grp
    if unanswered (getCtx s e.ctx) e.grp || !ctxActive s e.ctx || !(s.reqs.any fun q => mine q && isFaulted q && q.logged == some entry) then .next s
    else
      let s1 := e.discard.foldl discardReq s
      let s2 := rewalk (s1.reqs.filter fun q => mine q && isFaulted q && q.logged.isSome) s1
      match s2.reqs.find? fun q => mine q && isFaulted q && q.logged.isNone with
      | some r => .next (pulse (fileFaults s2 r entry (some { e with discard := [] })) e.ctx)
      | none => .next (pulse s2 e.ctx)

/-! ### Traps and the watchdog (R373, R377, R378) -/

/-- TRAP_DELIVERY (R373): a raised trap takes effect once no log entry of its team is open. -/
def execTrapDelivery (core slot : Nat) (s : State) : Host.Outcome State Fault Refusal :=
  match getTeam s core slot with
  | some t =>
    match t.trap with
    | some ti => .next (if hasLog s core slot || !ctxActive s t.ctx then s else deliverTrap s core slot ti)
    | none => .next s
  | none => .next s
/-- Teams of a context on the cores: core, slot. -/
def teamsOf (s : State) (ctx : Nat) : List (Nat × Nat) :=
  s.cores.flatMap fun k => (k.2.teams.filter fun e => e.2.ctx == ctx).map fun e => (k.1, e.1)
/-- WATCHDOG at a team's issue address (R378); a halted team takes nothing, and one that waits for a trap takes that trap. -/
def takeWatchdog (ctx : Nat) (s : State) (p : Nat × Nat) : State :=
  match getTeam s p.1 p.2 with
  | some t =>
    if t.ctx != ctx || t.halted || t.live == 0 || t.trap.isSome then s
    else takeTrap s p.1 p.2 { t with hold := none } (trapAt 0x0C (issueAddr t) (executing t))
  | none => s
/-- WATCHDOG_EXPIRY (R378). -/
def execWatchdogExpiry (ctx : Nat) (s : State) : Host.Outcome State Fault Refusal :=
  let k := getCtx s ctx
  let work := !(teamsOf s ctx).isEmpty || k.launches.any fun q => q.st != .complete
  if k.st == .free || k.st == .suspended || !work || decide (s.clock < k.lastPulse + 2 ^ k.wdLog2) || s.ctl.mode != .running then .next s
  else
    let s1 := (teamsOf s ctx).foldl (takeWatchdog ctx) s
    .next (pulse (queueFault s1 ctx ⟨7, 6, 0, 0, 0, 0, 0, 0, 0, 0, 0, 0, 0, 0, 0⟩) ctx)

/-! ### TLB evictions (R361) -/

/-- TLB `n`: that of core `n`, or the device's above the cores. -/
def tlbNo (n : Nat) : TlbOf := if n < Config.cores then .core n else .device
/-- TLB_EVICTION (R360, R361). -/
def execTlbEviction (tlb index : Nat) (s : State) : Host.Outcome State Fault Refusal :=
  let es := tlbOf s (tlbNo tlb)
  match es[index]? with
  | some e => .next (setTlb (writeBack s e) (tlbNo tlb) (es.eraseIdx index))
  | none => .next s

/-! ### Fatal errors (R19, R460) -/

/-- A 64-B team summary of a dump (log entry 41 for the places of its words). -/
def teamSummary (t : Team) : List Byte :=
  leBytes 8 t.trapcause.toNat ++ leBytes 8 t.trappc.toNat ++ leBytes 8 t.trapmask.toNat ++ leBytes 8 t.rgncnt.toNat ++
  leBytes 8 t.retcnt.toNat ++ leBytes 8 (issueAddr t).toNat ++ List.replicate 16 0
/-- The 768 B of an operand log entry (R420). -/
def logImage (s : State) (c n : Nat) (e : LogEntry) : List Byte :=
  let k := getCtx s e.ctx
  let nrec := ((k.heldRecs ++ k.openRecs.map (·.2)).filter fun f => f.src == 0 && f.cause != 6 && f.grp == e.grp).length
  let head := packL [1, 15, 4, 6, 6, 32, 32, 32] [1, 0, n, e.slot, nrec, (pmaskNow s c e).toNat, e.act.toNat, e.pc.toNat]
  let pad (m : Nat) (bs : List Byte) : List Byte := (bs ++ List.replicate m 0).take m
  leBytes 16 head ++ pad 12 e.word ++ List.replicate 4 0 ++ leBytes 32 e.img.buf.toNat ++
  pad 128 (e.img.a.flatMap fun x => leBytes 4 x.toNat) ++ pad 256 (e.img.b.flatMap fun x => leBytes 8 x.toNat) ++
  pad 32 (e.img.btags.map fun t => t.setWidth 8) ++ List.replicate 32 0 ++ pad 256 (e.img.cmp.flatMap fun x => leBytes 8 x.toNat)
/-- Pad bytes with zeros to `n`. -/
def padTo (n : Nat) (bs : List Byte) : List Byte := (bs ++ List.replicate n 0).take n
/-- Core status of a dump: the core's world and the holders of its issue slots, none as 0 (log entry 41 for the layout). -/
def coreStatus (k : Core) : List Byte :=
  leBytes 8 (if k.world then 1 else 0) ++
  (List.range 4).flatMap fun i => leBytes 8 (match (ngetD default k.islots i).holder with | some n => n + 1 | none => 0)
/-- The slice record of a dump: the number of poisoned lines of the slice and their addresses. -/
def sliceRecord (s : State) (k : Nat) : List Byte :=
  let as_ := sortAsc (s.poison.filterMap fun l => match l with | .hbm a => if sliceOf a = k then some a else none | _ => none)
  leBytes 8 as_.length ++ (as_.take 127).flatMap (leBytes 8)
/-- The context record of a dump: state, fault-record head and tail, then number, head and tail of each queue. -/
def ctxRecord (s : State) (k : Ctx) : List Byte :=
  let st := match k.st with | .free => 0 | .running => 1 | .draining => 2 | .suspending => 3 | .suspended => 4 | .resetting => 5
  leBytes 8 st ++ leBytes 8 (countWord s k.ringHead) ++ leBytes 8 (k.nextFault % 2 ^ 32) ++
  k.queues.flatMap fun e => leBytes 8 e.1 ++ leBytes 8 (countWord s e.2.head) ++ leBytes 8 (countWord s e.2.tail)
/-- A dump (R460). -/
def dumpImage (s : State) (cause die : Nat) : NMap Byte :=
  let live := s.ctxs.foldl (fun m e => if e.2.st = .free then m else m + 2 ^ e.1) 0
  let head := packL [320, 64, 64, 32, 8, 8, 8, 7, 1] [0, live, s.clock, s.ctl.dumpSeq.toNat, 0, die, cause, 0, 1]
  let log := s.ctl.log.drop (s.ctl.log.length - 1008)
  let m0 := putBytes [] 0 (leBytes 64 head ++ log.flatMap (leBytes 4))
  let coreAt (c : Nat) : Nat := 0x1000 + 0x4000 * c
  let m1 := s.cores.foldl
    (fun m k =>
      let m1 := (k.2.log.filter fun e => logLive s k.1 e.2).foldl
        (fun m e => putBytes m (coreAt k.1 + 768 * e.1) (logImage s k.1 e.1 e.2)) m
      let m2 := k.2.teams.foldl (fun m e => putBytes m (coreAt k.1 + 768 * 16 + 64 * e.1) (teamSummary e.2)) m1
      putBytes m2 (coreAt k.1 + 768 * 16 + 64 * 48) (coreStatus k.2)) m0
  let hit := sortAsc (s.poison.filterMap fun l => match l with | .hbm a => some (sliceOf a) | _ => none)
  let m2 := hit.foldl (fun m k => putBytes m (0x910000 + 0x400 * k) (sliceRecord s k)) m1
  let m3 := s.ctxs.foldl (fun m e => putBytes m (0x950000 + 0x1000 * e.1) (padTo 0x1000 (ctxRecord s e.2))) m2
  let have_ := min 64 (min s.gait.written (2 ^ s.gait.m))
  (List.range have_).foldl
    (fun m j => putBytes m (0x1000000 + 0x10000 * j)
      (getBytes s.mem (s.gait.ring + 0x10000 * ((s.gait.written - have_ + j) % 2 ^ s.gait.m)) 0x10000)) m3
/-- The dump takes the place of what the dump region held (R460). -/
def writeDump (s : State) (img : NMap Byte) : State :=
  let b := s.ctl.dumpBase
  let rest := s.mem.filter fun e => !(decide (b ≤ e.1) && decide (e.1 < b + 2 ^ 26))
  { s with
    mem := img.foldl (fun m e => nsetD 0 m (b + e.1) e.2) rest,
    ctl := { s.ctl with dumpSeq := s.ctl.dumpSeq + 1 } }
/-- Byte `a` of the dump region. -/
def readDump (s : State) (a : Nat) : Byte := ngetD 0 s.mem (s.ctl.dumpBase + a)
/-- A fatal error (R460): issue and every engine stop and the dump is written; a further one is only counted. Safe mode is left by a cold
start alone (R452). -/
def fatal (s : State) (cause die : Nat) : State :=
  match s.ctl.mode with
  | .fatal =>
    let at_ := s.ctl.dumpBase + 60
    { s with mem := nsetD 0 s.mem at_ (BitVec.ofNat 8 (min 255 ((ngetD 0 s.mem at_).toNat + 1))) }
  | m =>
    let s1 := writeDump (dropGrants s fun _ => true) (dumpImage s cause die)
    { s1 with ctl := { s1.ctl with mode := if m = .safeMode then .safeMode else .fatal } }

/-! ### Uncorrectable errors (R448 to R450) -/

/-- UNCORRECTABLE_ERROR (R448): a line is poisoned; a register's error counts as consumed by the launch that holds it. The error log takes each
(R460; the codes are log entry 41's). -/
def execUncorrectableError (at_ : PoisonAt) (s : State) : Host.Outcome State Fault Refusal :=
  match at_ with
  | .line l => .next (poisonLine (logEcc s 3) l)
  | .lineScrub l => .next (poisonLine (logEcc s 1) l)
  | .register core slot _ _ =>
    match getTeam s core slot with
    | some t => .next (takePoison (logEcc s 4) t.ctx t.seq)
    | none => .next (logEcc s 2)
/-- Everything of the launches that `f` names leaves the machine, in place or saved: teams, workgroups, commands, requests and with them the
log entries, tickets (R450). -/
def discardWork (s : State) (f : Nat → Nat → Bool) : State :=
  let s1 := dropGrants s fun t => f t.ctx t.seq
  let core (k : Core) : Core :=
    { k with
      teams := k.teams.filter fun e => !f e.2.ctx e.2.seq,
      wgs := k.wgs.filter fun w => !f w.ctx w.seq,
      chans := k.chans.map fun e => (e.1, e.2.filter fun m => !f m.ctx m.seq),
      tops := k.tops.filter fun o => !f o.ctx o.seq,
      deliveries := k.deliveries.filter fun d => !f d.ctx d.seq }
  let saved (k : SavedCore) : SavedCore :=
    { k with
      teams := k.teams.filter fun e => !f e.2.ctx e.2.seq,
      wgs := k.wgs.filter fun w => !f w.ctx w.seq,
      chans := k.chans.map fun e => (e.1, e.2.filter fun m => !f m.ctx m.seq),
      tops := k.tops.filter fun o => !f o.ctx o.seq,
      deliveries := k.deliveries.filter fun d => !f d.ctx d.seq }
  let tk (k : Slice) : Slice :=
    { k with tickets := k.tickets.map fun e =>
        if e.2.st != .free && f e.2.ctx e.2.seq then
          (e.1, { e.2 with st := .free, spent := false, vals := [], bytes := [], ltags := [], elems := [] })
        else e }
  { s1 with
    cores := s1.cores.map fun e => (e.1, core e.2),
    slices := s1.slices.map fun e => (e.1, tk e.2),
    reqs := s1.reqs.filter fun r => !f r.ctx r.seq,
    ctxs := s1.ctxs.map fun e => (e.1, { e.2 with
      colls := e.2.colls.filter fun m => !f e.1 m.seq
      saved := e.2.saved.map saved
      savedReqs := e.2.savedReqs.filter fun r => !f r.ctx r.seq }) }
/-- POISON_CONSUMED (R450): a replayable launch is rolled back, at most three times, once every write already sent has been performed;
otherwise the error is fatal. -/
def execPoisonConsumed (ctx seq : Nat) (s : State) : Host.Outcome State Fault Refusal :=
  let q := getLaunch s ctx seq
  if !q.poisoned || q.st != .started || s.ctl.mode != .running then .next s
  else if !q.replayable || decide (3 ≤ q.poisonCount) then .next (fatal s 3 0xFF)
  else if s.reqs.any fun r => r.ctx == ctx && r.seq == seq && r.write && canPerform s r then .next s
  else
    let s1 := discardWork s fun x n => x == ctx && n == seq
    .next (updLaunch s1 ctx seq fun q =>
      { q with
        poisoned := false, poisonCount := q.poisonCount + 1, live := 0, left := unitCount q, chunks := dieChunks (unitCount q) (recChunk q.words),
        inHand := List.replicate 4 [], bars := [], ended := [] })

end Sys2Proof.Machine
end

