-- ==== Sys2Proof/Machine/Privileged.lean ====
section
/-! DEFINITION. The privileged system instructions (R88): DHARV and TLBINV (R360 to R362), DBGBRK and its stops (R389 to R393). -/

namespace Sys2Proof.Machine

/-- R88: only teams of a launch that firmware itself submitted execute these; in any other team they raise IL. -/
def privileged (s : State) (t : Team) : Bool := (getLaunch s t.ctx t.seq).firmware

/-! ### DHARV and TLBINV (R362) -/

/-- DHARV. -/
def execDharv (x : EN) (s : State) : Host.Outcome State Fault Refusal :=
  issue x.h (Instr.dharv x).wf false (fun s _ t => privileged s t)
    (fun i => .go (harvest (fun e => x.imm.getLsbD 6 || e.ctx == x.imm.toNat % 64) i.s)) s
/-- Drop the entries of every TLB that satisfy `f`. -/
def dropTlb (f : TlbEntry → Bool) (s : State) : State :=
  { s with
    deviceTlb := s.deviceTlb.filter fun e => !f e,
    cores := s.cores.map fun k => (k.1, { k.2 with tlb := k.2.tlb.filter fun e => !f e }) }
/-- The addresses through which a request is translated, with their contexts: at this device's own member of a multicast group by the table of
RCTX (R444). -/
def transAddrs (s : State) (r : Req) : List (Nat × Nat) :=
  let own (va : Nat) : Nat × Nat :=
    match r.kind, windowOf s r.ctx va with
    | .mst _ 32, some w | .rld _ _ _ _ 32, some w => (winRctx w, wrap ((va : Int) - winVbase w + winRbase w) 57)
    | _, _ => (r.ctx, va)
  ((r.va :: r.shadowVa.toList) ++ ticketShadows r).map own
/-- Whether an access in flight, a lane that waits in an operand log too, has been translated through an entry that satisfies `f`. -/
def translatedBy (s : State) (f : TlbEntry → Bool) (r : Req) : Bool :=
  isAccess r && !r.done && (r.loc.isSome || r.shadow.isSome || r.fault == 2 || r.fault == 8) &&
  (transAddrs s r).any fun a => (tlbOf s (.core r.core)).any fun e => f e && tlbHit e a.1 a.2
/-- TLBINV of the entries that satisfy `f`: it waits until the accesses translated through them have been performed; D bits go back and the
entries are dropped. Until then they may still be used (R360). -/
def tlbinv (i : Issue) (f : TlbEntry → Bool) : Res :=
  if i.s.reqs.any (translatedBy i.s f) then .wait else .go (dropTlb f (harvest f i.s))
/-- TLBINV.page. -/
def execTlbinvPage (x : EN) (s : State) : Host.Outcome State Fault Refusal :=
  issue x.h (Instr.tlbinvPage x).wf false (fun s _ t => privileged s t)
    (fun i =>
      let a := rd i x.a true
      match gate i [a] [] with
      | some r => r
      | none =>
        let va := (a.at_ (lowest i.act)).bits.toNat % 2 ^ 57
        let ctx := x.imm.toNat % 64
        tlbinv i fun e => tlbHit e ctx va) s
/-- TLBINV.ctx. -/
def execTlbinvCtx (x : EN) (s : State) : Host.Outcome State Fault Refusal :=
  issue x.h (Instr.tlbinvCtx x).wf false (fun s _ t => privileged s t)
    (fun i => tlbinv i fun e => e.ctx == x.imm.toNat % 64) s
/-- TLBINV.all. -/
def execTlbinvAll (x : EN) (s : State) : Host.Outcome State Fault Refusal :=
  issue x.h (Instr.tlbinvAll x).wf false (fun s _ t => privileged s t)
    (fun i => tlbinv i fun _ => true) s

/-! ### DBGBRK: operands (R392) -/

/-- What s(a), s(a + 1) and s(a + 2) name. -/
structure DbgArg where
  ctx : Nat
  core : Nat
  slot : Nat
  w1 : DWord
  w2 : Nat
/-- The point named. -/
def DbgArg.point (z : DbgArg) : Point := ⟨z.w1, BitVec.ofNat 64 z.w2⟩
/-- The target team, if it is resident. -/
def dbgTeam (s : State) (z : DbgArg) : Option Team :=
  match getTeam s z.core z.slot with
  | some t => if t.ctx = z.ctx then some t else none
  | none => none
/-- The common form: D is the status (tag 63); a target of another world gives 6. -/
def dbgBody (ins : Instr) (x : IM) (k : Issue → DbgArg → (State → Nat → Res) → Res) (s : State) : Host.Outcome State Fault Refusal :=
  let a := match x.a.o with | .s n => n.toNat | _ => 0
  let src (j : Nat) : Src := { x.a with o := .s (BitVec.ofNat 6 (a + j)) }
  issue x.h ins.wf false (fun s _ t => privileged s t)
    (fun i =>
      let r (j : Nat) : Rd := rd i (src j) true
      match gate i [r 0, r 1, r 2] [(x.d, false)] with
      | some w => w
      | none =>
        let v (j : Nat) : Nat := ival 64 x.a.m ((r j).at_ 0)
        let z : DbgArg := ⟨bits (v 0) 5 0, bits (v 0) 15 6, bits (v 0) 21 16, BitVec.ofNat 64 (v 1), v 2 % 2 ^ 32⟩
        let fin (s' : State) (st : Nat) : Res :=
          .go (match getTeam s' i.core i.slot with
            | some t => setTeam s' i.core i.slot
                (pushUndo s' (putLanes t x.d false i.act (fun _ => BitVec.ofNat 64 st) fun _ => 63) (undoOf t x.d false))
            | none => s')
        if (getCtx i.s z.ctx).st != .free && (getCtx i.s z.ctx).world != (getCore i.s i.core).world then fin i.s 6 else k i z fin) s
/-- Whether the target is the issuing team. -/
def dbgSelf (i : Issue) (z : DbgArg) : Bool := z.core == i.core && z.slot == i.slot
/-- The target with a change made. -/
def dbgSet (i : Issue) (z : DbgArg) (t : Team) : State := setTeam i.s z.core z.slot t
/-- Whether a team holds its issue slot. -/
def holding (s : State) (c sl : Nat) (t : Team) : Bool := (getISlot s c (islotOf t)).holder == some sl

/-! ### Halt, resume, step (R392, R393) -/

/-- DBGBRK.halt: at the next run boundary or wait of the target, after its handler if it is in one; of the issuing team once the status
is written. -/
def execDbgbrkHalt (x : IM) (s : State) : Host.Outcome State Fault Refusal :=
  dbgBody (.dbgbrkHalt x) x
    (fun i z fin =>
      if dbgSelf i z && i.t.ctx == z.ctx then (match fin i.s 0 with | .go s' => .stop s' | r => r)
      else
        match dbgTeam i.s z with
        | none => fin i.s 1
        | some t =>
          if t.halted then fin i.s 0
          else if holding i.s z.core z.slot t || t.saved.isSome || t.trap.isSome then .waitWith (dbgSet i z { t with stopSoon := true })
          else fin (dbgSet i z { t with halted := true, stopSoon := false }) 0) s
/-- DBGBRK.resume. -/
def execDbgbrkResume (x : IM) (s : State) : Host.Outcome State Fault Refusal :=
  dbgBody (.dbgbrkResume x) x
    (fun i z fin =>
      match dbgTeam i.s z with
      | some t => if t.halted then fin (dbgSet i z { t with halted := false }) 0 else fin i.s 2
      | none => fin i.s 2) s
/-- DBGBRK.step: the operation is over when the target has halted again, or is gone. -/
def execDbgbrkStep (x : IM) (s : State) : Host.Outcome State Fault Refusal :=
  dbgBody (.dbgbrkStep x) x
    (fun i z fin =>
      match dbgTeam i.s z with
      | some t =>
        if i.t.posted then (if t.halted then fin i.s 0 else .waitWith i.s)
        else if dbgSelf i z || !t.halted then fin i.s 2
        else if z.w2 = 0 then fin i.s 0
        else .waitWith (dbgSet i z { t with halted := false, steps := some z.w2 })
      | none => fin i.s (if i.t.posted then 0 else 2)) s

/-! ### Rolling back (R390, R391) -/

/-- Undo entries down to and with the entry of region `n`, and what that entry restores; none where the log does not reach it. -/
def undoTo (n : DWord) : List Undo → Option (List Undo × List Word × Mask × Snap)
  | [] => none
  | .entry k lpc live sn :: rest => if k = n then some ([], lpc, live, sn) else undoTo n rest
  | u :: rest => (undoTo n rest).map fun r => (u :: r.1, r.2)
/-- Put back what one entry holds. -/
def undoOne (c sl : Nat) (s : State) (u : Undo) : State :=
  match u with
  | .vreg n old => updTeam s c sl fun t => (List.range 32).foldl (fun t l => setV t n l (nth default old l)) t
  | .sreg n old => updTeam s c sl fun t => setS t n old
  | .preg n old => updTeam s c sl fun t => { t with p := nsetD ⟨0, BitVec.allOnes 32⟩ t.p n old }
  | .entry .. => s
  | .memLine _ l old tags full =>
    let s1 := writeLoc s l old
    match l with
    | .scratch k b =>
      let s2 := updCore s1 k fun q => { q with tags := (List.range tags.length).foldl (fun m w => nsetD 63 m (b / 4 + w) (nth 63 tags w)) q.tags }
      markLine full s2 (k, b / 128)
    | _ => s1
/-- The team at the entry of a region, before its first instruction. -/
def atEntry (t : Team) (n : DWord) (lpc : List Word) (live : Mask) (start : Bool) : Team :=
  { t with
    lpc := lpc, live := live, retcnt := 0, closed := false, posted := false, hold := none, enter := !start,
    rgncnt := if start then 0 else n - 1 }
/-- A team with the buffer records, control registers, allocation and trap state of a region entry (R391). -/
def withSnap (t : Team) (x : Snap) : Team :=
  { t with
    bufs := x.bufs, sigmin := x.sigmin, sigstat := x.sigstat, fltstat := x.fltstat, trapen := x.trapen, oobcnt := x.oobcnt,
    trapcause := x.trapcause, trappc := x.trappc, trapmask := x.trapmask, alloc := x.alloc, saved := x.saved }
/-- The state in which a halted team has been rolled back so that it can run forward to a point; none where the point is out of reach: the log
does not hold it, or the core no longer has the registers that the team then held. -/
def rollBack (i : Issue) (z : DbgArg) (t : Team) : Option State :=
  if (getCtx i.s t.ctx).debug then
    match undoTo z.w1 t.undo with
    | none => none
    | some (us, lpc, live, sn) =>
      if freeBlocks (getCore i.s z.core) + blocksHeld t < (sn.alloc + 15) / 16 then none
      else
        let s1 := us.foldl (undoOne z.core z.slot) (flushUndo i.s z.core z.slot)
        let start := z.w1 == 0
        some (updTeam s1 z.core z.slot fun t =>
          { withSnap (atEntry t z.w1 lpc live start) sn with
            undo := t.undo.drop (us.length + (if start then 0 else 1)), undoNum := t.undoNum - us.length })
  else if z.w1 ≠ t.rgncnt then none
  else
    let start := t.rgncnt == 0
    let lpc := lanes.map fun l => if inMask (executing t) l then (if start then 0 else t.rgnpc) else getLpc t l
    some (dbgSet i z (atEntry t t.rgncnt lpc t.live start))
/-- Whether a request that a team has issued may still change what a roll-back restores: ticket reads at their slices may not. -/
def inFlight (s : State) (c tid : Nat) : Bool := s.reqs.any fun q => q.core == c && q.tid == tid && !isFetch q
/-- DBGBRK.back: the target's accesses in flight end first. A target that ends, or passes the point, leaves it unreached; one that a trap
stops first has halted when it leaves its handler (R392), and its point is no longer armed. -/
def execDbgbrkBack (x : IM) (s : State) : Host.Outcome State Fault Refusal :=
  dbgBody (.dbgbrkBack x) x
    (fun i z fin =>
      match dbgTeam i.s z with
      | some t =>
        if i.t.posted then
          (if t.halted then fin (dbgSet i z { t with stops := t.stops.filter (· != z.point) }) 0
           else if t.stops.contains z.point then .waitWith i.s else fin (dbgSet i z { t with backing := false }) 3)
        else if dbgSelf i z || !t.halted then fin i.s 2
        else if inFlight i.s z.core t.tid then .wait
        else
          match rollBack i z t with
          | none => fin i.s 3
          | some s1 => .waitWith (updTeam s1 z.core z.slot fun t => { t with halted := false, backing := true, stops := t.stops ++ [z.point] })
      | none => fin i.s (if i.t.posted then 3 else 2)) s

/-! ### Stops (R389, R392) -/

/-- DBGBRK.brk. -/
def execDbgbrkBrk (x : IM) (s : State) : Host.Outcome State Fault Refusal :=
  dbgBody (.dbgbrkBrk x) x
    (fun i z fin =>
      match dbgTeam i.s z with
      | some t => if 8 ≤ t.stops.length then fin i.s 5 else fin (dbgSet i z { t with stops := t.stops ++ [z.point] }) 0
      | none => fin i.s 1) s
/-- DBGBRK.clr. -/
def execDbgbrkClr (x : IM) (s : State) : Host.Outcome State Fault Refusal :=
  dbgBody (.dbgbrkClr x) x
    (fun i z fin =>
      match dbgTeam i.s z with
      | some t => fin (dbgSet i z { t with stops := t.stops.filter (· != z.point) }) 0
      | none => fin i.s 1) s
/-- DBGBRK.dbg (R390): only while no team of the context is resident. -/
def execDbgbrkDbg (x : IM) (s : State) : Host.Outcome State Fault Refusal :=
  dbgBody (.dbgbrkDbg x) x
    (fun i z fin =>
      if !(teamsOf i.s z.ctx).isEmpty then fin i.s 4
      else if (getCtx i.s z.ctx).st == .free then fin i.s 1
      else fin (updCtx i.s z.ctx fun k => { k with debug := z.w1.getLsbD 0 }) 0) s
/-- Whether the instruction at the issue address of a team of core `c` carries RGN. -/
def rgnAhead (s : State) (c : Nat) (t : Team) : Bool :=
  match codeOf s c t (issueAddr t).toNat with
  | .at_ ls => nth 0 (unpackL wordFields (wordOfBytes (obtained s (getLaunch s t.ctx t.seq) ls))) 13 == 1
  | _ => false
/-- DEBUG_STOP_REACHED (R391, R392): a team that stands at an armed point halts there. -/
def execDebugStopReached (core slot : Nat) (s : State) : Host.Outcome State Fault Refusal :=
  match getTeam s core slot with
  | none => .next s
  | some t =>
    let t1 := enterRegion t (getCtx s t.ctx).debug (issueAddr t) (rgnAhead s core t)
    if t.halted || t.hold.isSome || t.trap.isSome || t.live == 0 || !(atStop t || atStop t1) then .next s
    else
      let p : Point := if atStop t then ⟨t.rgncnt, t.retcnt⟩ else ⟨t1.rgncnt, t1.retcnt⟩
      let s1 := flushUndo s core slot
      let u := (getTeam s1 core slot).getD t
      .next (endTenure s1 core slot { u with halted := true, steps := none, backing := false, stops := t.stops.filter (· != p) })

end Sys2Proof.Machine
end

