-- ==== Sys2Proof/Machine/Contexts.lean ====
section
/-! DEFINITION. Contexts: creation and teardown, the three stages of pre-emption, what suspension saves and restore puts back (R379 to R388,
R417, R421). -/

namespace Sys2Proof.Machine

/-! ### Creation and teardown (R21, R30, R275, R368, R378, R394) -/

/-- A number of clocks 2^n, n from `lo` to `hi`, or the default. -/
def inLimits (x : Option Nat) (lo hi : Nat) : Bool := match x with | some n => decide (lo ≤ n) && decide (n ≤ hi) | none => true
/-- Whether firmware creates the context: the ranges that the manual gives, and a slot range that meets no other. -/
def createOk (s : State) (ctx : Nat) (p : CtxParams) : Bool :=
  decide (ctx < Config.contexts) && s.ctl.mode == .running && (getCtx s ctx).st == .free &&
  inLimits p.tickLife (2 ^ 10) (2 ^ 32) && inLimits p.wdLog2 20 40 && inLimits p.joinLog2 20 40 &&
  decide (4 ≤ p.ringLog2) && decide (p.ringLog2 ≤ 16) && p.ringBase % 4096 == 0 && decide (p.queues.length ≤ 4) &&
  (p.queues.all fun q => q.1 % 2048 == 0 && decide (q.2.1 ≤ 16)) && decide (p.slotLo + p.slotN ≤ Config.seqSlots) &&
  s.ctxs.all fun e => e.2.st == .free || e.2.slotN == 0 || p.slotN == 0 || decide (e.2.slotLo + e.2.slotN ≤ p.slotLo) ||
    decide (p.slotLo + p.slotN ≤ e.2.slotLo)
/-- Every slot of a range becomes FREE (R417). -/
def freeSlots (s : State) (lo n : Nat) : State := { s with seqSlots := outRange s.seqSlots lo n }
/-- CONTEXT_CREATE: a request outside the limits creates nothing. -/
def execContextCreate (ctx : Nat) (p : CtxParams) (s : State) : Host.Outcome State Fault Refusal :=
  if !createOk s ctx p then .next s
  else
    let k : Ctx := { (default : Ctx) with
      st := .running, world := p.world, fw := p.fw, root := p.root, inc := (getCtx s ctx).inc + 1, tickLife := p.tickLife.getD (2 ^ 20),
      wdLog2 := p.wdLog2.getD 32, joinLog2 := p.joinLog2.getD 32, ringBase := p.ringBase, ringLog2 := p.ringLog2, ringTail := p.ringTail,
      ringHead := p.ringHead, ackBase := p.ackBase, ackTail := p.ackTail,
      queues := (List.range p.queues.length).map fun n =>
        let q := nth (0, 0, 0, 0) p.queues n
        (n, ⟨q.1, q.2.1, q.2.2.1, q.2.2.2, 0, false, [], []⟩),
      lastQueue := 3, slotLo := p.slotLo, slotN := p.slotN, lastPulse := s.clock, idleAt := s.clock, saveBase := p.saveBase }
    .next (setCtx (freeSlots s p.slotLo p.slotN) ctx k)
/-- Everything that a context holds leaves the machine; it becomes FREE and keeps only the count of its creations (R212, R360, R387,
R417). -/
def freeCtx (s : State) (ctx : Nat) : State :=
  let k := getCtx s ctx
  let s1 := dropTlb (fun e => e.ctx == ctx) (discardWork s fun x _ => x == ctx)
  setCtx (freeSlots s1 k.slotLo k.slotN) ctx { (default : Ctx) with st := .free, inc := k.inc }
/-- CONTEXT_TEARDOWN (R212, R360, R417): of a context without resident teams. -/
def execContextTeardown (ctx : Nat) (s : State) : Host.Outcome State Fault Refusal :=
  if (getCtx s ctx).st == .free || !(teamsOf s ctx).isEmpty then .next s else .next (freeCtx s ctx)

/-! ### The stages (R379, R380, R382) -/

/-- PREEMPT_REQUEST (R379): deadlines in clocks from the request; 0 stands for the default. -/
def execPreemptRequest (ctx d1 d2 : Nat) (s : State) : Host.Outcome State Fault Refusal :=
  let a := if d1 = 0 then 2 ^ 20 else d1
  let b := if d2 = 0 then a + 2 ^ 16 else d2
  if (getCtx s ctx).st == .running then
    .next (updCtx s ctx fun k => { k with st := .draining, d1 := s.clock + a, d2 := s.clock + b })
  else .next s
/-- DRAIN_DEADLINE_EXPIRY (R379, R380, R382): no team is granted any more; a tenure in progress runs to its end. `groups` names the K-steps
that tile operations have completed. -/
def execDrainDeadlineExpiry (ctx : Nat) (groups : List (Nat × Nat)) (s : State) : Host.Outcome State Fault Refusal :=
  let k := getCtx s ctx
  if k.st != .draining || decide (s.clock < k.d1) || (teamsOf s ctx).isEmpty then .next s
  else
    let s1 := s.cores.foldl (fun s e => (e.2.tops.filter fun o => o.ctx == ctx).foldl (stopOp e.1 groups) s) s
    .next (updCtx s1 ctx fun k => { k with st := .suspending })
/-- SUSPEND_DEADLINE_EXPIRY (R379, R387). -/
def execSuspendDeadlineExpiry (ctx : Nat) (s : State) : Host.Outcome State Fault Refusal :=
  let k := getCtx s ctx
  if (k.st == .suspending || k.st == .draining) && decide (k.d2 ≤ s.clock) then .next (startReset s ctx) else .next s

/-! ### Suspension (R381 to R385) -/

/-- Numbers of the accesses that wait for firmware, and of those of the same team that their order holds behind them. -/
def stuckReqs (rs : List Req) : List Nat :=
  (rs.foldl
    (fun (z : List Req) r =>
      let behind := isAccess r && !r.done && z.any fun q => q.tid == r.tid && q.core == r.core && precedes q r
      if isFaulted r || r.logged.isSome || behind then z ++ [r] else z) []).map (·.id)
/-- Whether a request of a suspending context may be saved as pending: it waits for firmware, at a slice, or behind such an access; the
results of an EXPQ that stay with it wait for its other lanes (R381). -/
def savable (stuck : List Nat) (r : Req) : Bool :=
  stuck.contains r.id || (match r.kind with | .deliver .. => !r.done | .expq .. => r.done && r.drains.isEmpty | _ => false)
/-- Whether suspension is complete (R380, R381, R383). -/
def suspendReady (s : State) (ctx : Nat) : Bool :=
  let mine := s.reqs.filter fun r => r.ctx == ctx && !isFetch r
  let stuck := stuckReqs mine
  let engines := s.cores.any fun k =>
    (k.2.chans.any fun e => e.2.any fun m => m.ctx == ctx) || k.2.tops.any (fun o => o.ctx == ctx) || k.2.deliveries.any fun d => d.ctx == ctx
  ((getCtx s ctx).st == .suspending || ((getCtx s ctx).st == .draining && (teamsOf s ctx).isEmpty && !engines)) &&
  ((teamsOf s ctx).all fun p => match getTeam s p.1 p.2 with | some t => !holding s p.1 p.2 t | none => true) &&
  mine.all (savable stuck)
/-- What a core holds of a context, as its save area keeps it (R384, R385). -/
def saveCore (s : State) (ctx c : Nat) (k : Core) : Option SavedCore :=
  let teams := k.teams.filter fun e => e.2.ctx == ctx
  let wgs := k.wgs.filter fun w => w.ctx == ctx
  let chans := (k.chans.map fun e => (e.1, e.2.filter fun m => m.ctx == ctx)).filter fun e => !e.2.isEmpty
  let tops := k.tops.filter fun o => o.ctx == ctx
  let dels := k.deliveries.filter fun d => d.ctx == ctx
  let log := k.log.filter fun e => e.2.ctx == ctx && logLive s c e.2
  if teams.isEmpty && wgs.isEmpty && chans.isEmpty && tops.isEmpty && dels.isEmpty && log.isEmpty then none
  else some ⟨c, teams, wgs, [], [], [], [], chans, tops, dels, log⟩
/-- The core without them; the lines of their shares stay (R385). -/
def unloadCore (ctx : Nat) (gone : List Nat) (k : Core) : Core :=
  { k with
    teams := k.teams.filter fun e => e.2.ctx != ctx,
    wgs := k.wgs.filter fun w => w.ctx != ctx,
    chans := k.chans.map fun e => (e.1, e.2.filter fun m => m.ctx != ctx),
    tops := k.tops.filter fun o => o.ctx != ctx,
    deliveries := k.deliveries.filter fun d => d.ctx != ctx,
    log := k.log.filter fun e => e.2.ctx != ctx,
    logWait := k.logWait.filter fun g => !gone.contains g }
/-- The team and workgroup records of a suspended context in its save area at `base` (R384): what the manual does not lay out of them is free
(log entry 82). -/
def saveRecords (s : State) (base : Nat) (saved : List SavedCore) : State :=
  let put (n : Nat) (mem : NMap Byte) (a : Nat) : NMap Byte :=
    putBytes mem a ((List.range n).map fun j => Config.saveByte s.freshCount (a + j))
  let one (mem : NMap Byte) (m : SavedCore) : NMap Byte :=
    ((List.range m.wgs.length).map (wgRecordAt base m.core)).foldl (put Config.wgRecord)
      ((m.teams.map fun e => teamRecordAt base m.core e.1).foldl (put Config.teamRecord) mem)
  { s with mem := saved.foldl one s.mem, freshCount := s.freshCount + 1 }
/-- SUSPENSION_COMPLETE (R379, R381, R383 to R385): D bits are in memory, teams and commands are saved, the slices keep what they hold. -/
def execSuspensionComplete (ctx : Nat) (s : State) : Host.Outcome State Fault Refusal :=
  if !suspendReady s ctx then .next s
  else
    let s1 := (teamsOf s ctx).foldl (fun s p => flushUndo s p.1 p.2) (harvest (fun e => e.ctx == ctx) s)
    let saved := s1.cores.filterMap fun e => saveCore s1 ctx e.1 e.2
    let mine := s1.reqs.filter fun r => r.ctx == ctx && !isFetch r
    let s2 := { s1 with
      reqs := s1.reqs.filter fun r => r.ctx != ctx || isFetch r,
      cores := s1.cores.map fun e => (e.1, unloadCore ctx (mine.map (·.grp)) e.2) }
    .next (updCtx (saveRecords s2 (getCtx s ctx).saveBase saved) ctx fun k => { k with st := .suspended, saved := saved, savedReqs := mine, pausedAt := s.clock })

/-! ### Restore (R386, R421) -/

/-- Whether a core can take back what was saved of it: the same slots, share lines and log entries, and room for the registers. -/
def fits (s : State) (m : SavedCore) : Bool :=
  let k := getCore s m.core
  (m.teams.all fun e => (nget k.teams e.1).isNone) &&
  (m.wgs.all fun w => k.wgs.all fun v => !runMeets w.shareLine w.shareLines v.shareLine v.shareLines) &&
  decide ((m.teams.map fun e => blocksHeld e.2).sum ≤ freeBlocks k) &&
  m.log.all fun e => match nget k.log e.1 with | some x => !logLive s m.core x | none => true
/-- Lines of a mirror go back into the core (R386). -/
def unmirror (m : SavedCore) (k : Core) : Core :=
  m.mirrored.foldl
    (fun k line => { k with
      bytes := (inRange m.bytes (128 * line) 128).foldl (fun b e => nset b e.1 e.2) (outRange k.bytes (128 * line) 128),
      tags := (inRange m.tags (32 * line) 32).foldl (fun b e => nset b e.1 e.2) (outRange k.tags (32 * line) 32),
      empty := if m.empty.contains line then insAsc line k.empty else k.empty.filter (· != line) }) k
/-- A core with what was saved of it for context `ctx` put back; lines that another suspended share owns go to its mirror first (R385). -/
def loadCore (ctx : Nat) (s : State) (m : SavedCore) : State :=
  let s1 := m.wgs.foldl (fun s w => mirrorLines s m.core w.shareLine w.shareLines (some ctx)) s
  updCore s1 m.core fun k =>
    let k1 := unmirror m k
    { k1 with
      teams := m.teams.foldl (fun b e => nset b e.1 e.2) k1.teams,
      wgs := k1.wgs ++ m.wgs,
      chans := m.chans.foldl (fun b e => nset b e.1 (ngetD [] b e.1 ++ e.2)) k1.chans,
      tops := k1.tops ++ m.tops,
      deliveries := k1.deliveries ++ m.deliveries,
      log := m.log.foldl (fun b e => nset b e.1 e.2) k1.log }
/-- CONTEXT_RESTORE (R379, R386): the whole context at once, where every core of it can take it (log entry 43); a workgroup whose last
command ended meanwhile leaves its core. -/
def execContextRestore (ctx : Nat) (s : State) : Host.Outcome State Fault Refusal :=
  let k := getCtx s ctx
  if k.st != .suspended || !k.saved.all (fits s) || s.ctl.mode != .running then .next s
  else
    let s1 := k.saved.foldl (loadCore ctx) s
    let gap := s.clock - k.pausedAt
    let s2 := { s1 with reqs := sortBy (fun a b => decide (a.id < b.id)) (s1.reqs ++ k.savedReqs) }
    let s3 := updCtx s2 ctx fun k =>
      { k with st := .running, saved := [], savedReqs := [], paused := k.paused + gap, lastPulse := k.lastPulse + gap, idleAt := k.idleAt + gap }
    .next (k.saved.foldl (fun s m => m.wgs.foldl (fun s w => reapWg s m.core w.id) s) s3)

/-! ### Reset (R387) -/

/-- The completion word of a launch that a reset ends: bit 63 and 0x03, and no event. A word that does not translate is not written. -/
def endLaunchByReset (x : Nat) (s : State) (q : Launch) : State :=
  let va := recCwAddr q.words
  if q.st = .complete || va = 0 then s
  else
    let h := engAt s (taskEng s x q.gone) true (va / 8 * 8) 1
    match h.1 with
    | .ok (some l) => storeAt h.2 l (leBytes 8 (2 ^ 63 + 3))
    | _ => s
/-- CONTEXT_RESET (R387). -/
def execContextReset (ctx : Nat) (s : State) : Host.Outcome State Fault Refusal :=
  let k := getCtx s ctx
  if k.st != .resetting then .next s
  else .next (freeCtx (k.launches.foldl (endLaunchByReset ctx) (discardWork s fun x _ => x == ctx)) ctx)

end Sys2Proof.Machine
end

