-- ==== Sys2Proof/Machine/Control.lean ====
section
/-! DEFINITION. Control flow, F/E bits, traps and control registers (R114 to R125, R207). -/

namespace Sys2Proof.Machine

/-! ### Branches (R114, R115) -/

/-- Target of a branch-format word at `pc` (R77). -/
def brTarget (pc : Word) (x : BR) : Int := (pc.toNat : Int) + sx x.ofs.toNat 38
/-- Whether the target lies in 0 to 2³² − 1 (R77, R89). -/
def brTargetOk (t : Team) (x : BR) : Bool :=
  decide (0 ≤ brTarget (issueAddr t) x) && decide (brTarget (issueAddr t) x < 2 ^ 32)
/-- BRA (R114). -/
def execBra (x : BR) (s : State) : Host.Outcome State Fault Refusal :=
  issue x.h (Instr.bra x).wf false (fun _ _ t => brTargetOk t x)
    (fun i => .jump i.s fun _ => BitVec.ofInt 32 (brTarget i.pc x)) s
/-- CALL: PC + 1 into the link register (R114). -/
def execCall (x : BR) (s : State) : Host.Outcome State Fault Refusal :=
  issue x.h (Instr.call x).wf false (fun _ _ t => brTargetOk t x && opdAlloc t x.d false)
    (fun i =>
      match gate i [] [(x.d, false)] with
      | some r => r
      | none =>
        .jump (commit i x.d false (putLanes i.t x.d false i.act (fun _ => (i.pc + 1).setWidth 64) fun _ => 63))
          fun _ => BitVec.ofInt 32 (brTarget i.pc x)) s
/-- The absolute branch of BRX and RET (R115). -/
def jumpAbs (ins : Instr) (x : RG) (s : State) : Host.Outcome State Fault Refusal :=
  issue x.h ins.wf false (fun _ _ t => opdAlloc t x.a.o false)
    (fun i =>
      let a := rdA i x false
      match gate i [a] [] with
      | some r => r
      | none => .jump i.s fun l => BitVec.ofNat 32 (ival 32 x.a.m (a.at_ l))) s
/-- BRX (R115). -/
def execBrx (x : RG) (s : State) : Host.Outcome State Fault Refusal := jumpAbs (.brx x) x s
/-- RET: the effect of BRX (R115). -/
def execRet (x : RG) (s : State) : Host.Outcome State Fault Refusal := jumpAbs (.ret x) x s
/-- EXIT (R117). -/
def execExit (x : RG) (s : State) : Host.Outcome State Fault Refusal :=
  issue x.h (Instr.exit x).wf false (fun _ _ _ => true) (fun i => .exit i.s) s
/-- HALT (R118). -/
def execHalt (x : RG) (s : State) : Host.Outcome State Fault Refusal :=
  issue x.h (Instr.halt x).wf false (fun _ _ _ => true) (fun i => .halt i.s) s
/-- NOP (R119). -/
def execNop (x : RG) (s : State) : Host.Outcome State Fault Refusal :=
  issue x.h (Instr.nop x).wf false (fun _ _ _ => true) (fun i => .go i.s) s

/-! ### F/E bits (R120, R121) -/

/-- FEWAIT: steps 3 and 4 on A (R120). -/
def execFewait (x : RG) (s : State) : Host.Outcome State Fault Refusal :=
  let wide := x.sub == 1
  issue x.h (Instr.fewait x).wf false (fun _ _ t => opdAlloc t x.a.o wide)
    (fun i =>
      match gate i [rdA i x wide] [] with
      | some r => r
      | none => .go i.s) s
/-- FESET and FECLR: no wait on the destination (R121). -/
def setFE (ins : Instr) (x : RG) (full : Bool) (s : State) : Host.Outcome State Fault Refusal :=
  let wide := x.sub == 1
  issue x.h ins.wf false (fun _ _ t => opdAlloc t x.d wide)
    (fun i => .go (commit i x.d wide (markLanes i.t x.d wide i.act full))) s
/-- FESET (R121). -/
def execFeset (x : RG) (s : State) : Host.Outcome State Fault Refusal := setFE (.feset x) x true s
/-- FECLR (R121). -/
def execFeclr (x : RG) (s : State) : Host.Outcome State Fault Refusal := setFE (.feclr x) x false s

/-! ### Traps (R122, R123) -/

/-- TRAP: BRK with IMM32 in s59 (R122, R373). -/
def execTrap (x : IM) (s : State) : Host.Outcome State Fault Refusal :=
  issue x.h (Instr.trap x).wf false (fun _ _ _ => true)
    (fun i => .trap { trapAt 0x0B i.pc i.act with info := x.imm.setWidth 64 }) s
/-- ERET of either form, legal only in a trap handler (R123). -/
def eretBody (ins : Instr) (x : RG) (skip : Bool) (s : State) : Host.Outcome State Fault Refusal :=
  issue x.h ins.wf false (fun _ _ t => t.saved.isSome)
    (fun i => .eret (setTeam i.s i.core i.slot (leaveHandler (pushUndo i.s i.t (undoTrapRegs i.t)) skip))) s
/-- ERET.restart (R123, R375). -/
def execEretRestart (x : RG) (s : State) : Host.Outcome State Fault Refusal := eretBody (.eretRestart x) x false s
/-- ERET.skip (R123). -/
def execEretSkip (x : RG) (s : State) : Host.Outcome State Fault Refusal := eretBody (.eretSkip x) x true s

/-! ### Control registers (R30, R124, R125) -/

/-- WSCAL at clock `k` (R206, R207). -/
def wscal (k : Nat) : DWord :=
  let phase := k % 32768
  let active := decide (phase % 2048 < 128)
  let group := if active then phase / 2048 else (phase / 2048 + 1) % 16
  BitVec.ofNat 64 (phase + 2 ^ 15 * (k / 32768 % 2 ^ 20) + (if active then 2 ^ 35 else 0) + 2 ^ 36 * group)
/-- Control register `n` as lane `l` reads it (R30). -/
def crRead (i : Issue) (n l : Nat) : DWord :=
  let t := i.t
  match n with
  | 0x00 => BitVec.ofNat 64 (i.core + 2 ^ 10 * i.slot)
  | 0x01 => BitVec.ofNat 64 t.ctx
  | 0x02 => if (getCore i.s i.core).world then 1 else 0
  | 0x08 => BitVec.ofNat 64 l
  | 0x10 => t.sigmin
  | 0x11 => t.sigstat
  | 0x12 => t.fltstat
  | 0x13 => t.trapen
  | 0x14 => t.oobcnt
  | 0x18 => t.rgncnt
  | 0x19 => t.retcnt
  | 0x20 => BitVec.ofNat 64 (getCtx i.s t.ctx).tickLife
  | 0x30 => wscal i.s.clock
  | 0x38 => t.trapcause
  | 0x39 => t.trappc
  | 0x3A => t.trapmask
  | _ =>
    if 9 ≤ n ∧ n ≤ 15 then BitVec.ofNat 64 (nth 0 t.lvl (n - 9))
    else if 0x28 ≤ n ∧ n ≤ 0x2F then nth 0 (getWg i.s i.core t.wg).delivered (n - 0x28)
    else 0
/-- A write of control register `n` under its access codes (R6, R30, R125). -/
def crWrite (t : Team) (n : Nat) (x : DWord) : Team :=
  match n with
  | 0x10 => { t with sigmin := x &&& 0x3F }
  | 0x11 => { t with sigstat := t.sigstat &&& ~~~ (x &&& 1) }
  | 0x12 => { t with fltstat := t.fltstat &&& ~~~ (x &&& 0x1F) }
  | 0x13 => { t with trapen := x &&& 0x1FF }
  | 0x14 => { t with oobcnt := x &&& 0xFFFFFFFF }
  | _ => t
/-- CRD (R124). -/
def execCrd (x : IM) (s : State) : Host.Outcome State Fault Refusal :=
  let wide := x.md == 1
  issue x.h (Instr.crd x).wf false (fun _ _ t => opdAlloc t x.d wide)
    (fun i =>
      match gate i [] [(x.d, wide)] with
      | some r => r
      | none => putRes i x.d wide (fun l => crRead i x.imm.toNat l) fun _ => 63) s
/-- CWR (R125). -/
def execCwr (x : IM) (s : State) : Host.Outcome State Fault Refusal :=
  let wide := x.md == 1
  issue x.h (Instr.cwr x).wf false (fun _ _ _ => true)
    (fun i =>
      let a := rd i x.a wide
      match gate i [a] [] with
      | some r => r
      | none =>
        .go (setTeam i.s i.core i.slot
          (crWrite i.t x.imm.toNat (BitVec.ofNat 64 (ival (pairBits wide) x.a.m (a.at_ (lowest i.act))))))) s

end Sys2Proof.Machine
end

