-- ==== Sys2Proof/Machine/CrossLane.lean ====
section
/-! DEFINITION. Cross-lane instructions, token routing and the counter-based generator (R172 to R180, R188 to R192). -/

namespace Sys2Proof.Machine

/-- A source as lane `q l` holds it; no such lane reads 0, tag 0, full (R73, R173). -/
def rdLane (i : Issue) (a : Src) (pair : Bool) (q : Nat → Int) : Rd :=
  ⟨a.e, fun l => if q l < 0 ∨ 31 < q l then ⟨0, 0, true⟩ else rdOpd i.s i.t a.o pair (q l).toNat⟩
/-- Move values of the lanes that `a` reads into D, with their tags (R61). -/
def moveLanes (i : Issue) (d : Opd) (pair : Bool) (a : Rd) : Res :=
  match gate i [a] [(d, pair)] with
  | some r => r
  | none => putRes i d pair (fun l => (a.at_ l).bits) fun l => (a.at_ l).tag

/-! ### Moves, votes, elections (R173 to R175, R179, R180) -/

/-- Source position of LSHF (R173): the edge treatment is SUB[1:0]. -/
def lshfPos (sub : Nat) (q : Int) : Int :=
  match sub % 4 with
  | 1 => q % 32
  | 2 => clamp q 0 31
  | _ => q
/-- LSHF (R173): in the indexed form step 3 and 4 treat B before A. -/
def execLshf (x : RG) (s : State) : Host.Outcome State Fault Refusal :=
  let w := x.sub.getLsbD 2
  issue x.h (Instr.lshf x).wf false (fun _ _ t => opdAlloc t x.d w && opdAlloc t x.a.o w && opdAlloc t x.b.o false)
    (fun i =>
      if x.xl = .none then
        let b := rd i x.b false
        match gate i [b] [] with
        | some r => r
        | none =>
          moveLanes i x.d w (rdLane i x.a w fun l => lshfPos x.sub.toNat (sx (ival 32 x.b.m (b.at_ l)) 32))
      else moveLanes i x.d w (rdLane i x.a w fun l => lshfPos x.sub.toNat (xlPos x.xl x.lane.toNat l))) s
/-- LBC (R174). -/
def execLbc (x : RG) (s : State) : Host.Outcome State Fault Refusal :=
  let w := x.sub.getLsbD 1
  issue x.h (Instr.lbc x).wf false (fun _ _ t => opdAlloc t x.d w && opdAlloc t x.a.o w)
    (fun i =>
      moveLanes i x.d w (rdLane i x.a w fun _ => if x.sub.getLsbD 0 then (lowest i.act : Int) else x.lane.toNat)) s
/-- Active lanes in which predicate A reads true. -/
def trueLanes (i : Issue) (a : Src) (r : Rd) : Mask := maskOf fun l => inMask i.act l && pval a.m (r.at_ l)
/-- LVOTE (R175). -/
def execLvote (x : RG) (s : State) : Host.Outcome State Fault Refusal :=
  issue x.h (Instr.lvote x).wf false (fun _ _ t => opdAlloc t x.d false)
    (fun i =>
      let a := rd i x.a false
      match gate i [a] [(x.d, false)] with
      | some r => r
      | none =>
        let m := trueLanes i x.a a
        let y : DWord :=
          match x.sub.toNat with
          | 0 => ofB (m == i.act)
          | 1 => ofB (m != 0)
          | 2 => ofB (m == i.act || m == 0)
          | _ => m.setWidth 64
        putRes i x.d false (fun _ => y) fun _ => 63) s
/-- LELECT (R179). -/
def execLelect (x : RG) (s : State) : Host.Outcome State Fault Refusal :=
  issue x.h (Instr.lelect x).wf false (fun _ _ _ => true)
    (fun i =>
      let a := rd i x.a false
      match gate i [a] [(x.d, false)] with
      | some r => r
      | none =>
        let ls := lanesOf (trueLanes i x.a a)
        let e := if x.sub == 0 then ls.head? else ls.getLast?
        putRes i x.d false (fun l => ofB (e == some l)) fun _ => 63) s
/-- LPC (R180). -/
def execLpc (x : RG) (s : State) : Host.Outcome State Fault Refusal :=
  issue x.h (Instr.lpc x).wf false (fun _ _ t => opdAlloc t x.d false)
    (fun i =>
      match gate i [] [(x.d, false)] with
      | some r => r
      | none =>
        let above : Mask := maskOf fun l => inMask i.t.live l && decide (i.pc.toNat < (getLpc i.t l).toNat)
        let y : Word :=
          match x.sub.toNat with
          | 0 => i.t.live
          | 1 => i.exec
          | 2 => i.act
          | 3 => above
          | _ => (lanesOf above).foldl
              (fun (m : Word) l => if (getLpc i.t l).toNat < m.toNat then getLpc i.t l else m) (BitVec.allOnes 32)
        putRes i x.d false (fun _ => y.setWidth 64) fun _ => 63) s

/-! ### Scans and reductions (R176 to R178) -/

/-- The combine of an operation code on values with tags (R176), for `n`-bit integers. -/
def combine (op n mode : Nat) (x y : VT) : FO :=
  let int (r : Int) : FO := ⟨wrap r n, 0, 63⟩
  match op with
  | 0 => int ((x.1 : Int) + y.1)
  | 1 => int (min x.1 y.1 : Nat)
  | 2 => int (max x.1 y.1 : Nat)
  | 3 => int (min (sx x.1 n) (sx y.1 n))
  | 4 => int (max (sx x.1 n) (sx y.1 n))
  | 5 => int (x.1 &&& y.1 : Nat)
  | 6 => int (x.1 ||| y.1 : Nat)
  | 7 => int (x.1 ^^^ y.1 : Nat)
  | 8 => oAdd fp32 mode x y (0, 0)
  | 9 => oMin fp32 mode x y (0, 0)
  | 10 => oMax fp32 mode x y (0, 0)
  | 11 => oAdd fp64 mode x y (0, 0)
  | 12 => oMin fp64 mode x y (0, 0)
  | _ => oMax fp64 mode x y (0, 0)
/-- The identity of an exclusive scan (R176). -/
def scanId (op n : Nat) : VT :=
  match op with
  | 1 | 5 => (2 ^ n - 1, 63)
  | 3 => (2 ^ (n - 1) - 1, 63)
  | 4 => (2 ^ (n - 1), 63)
  | 8 => (0, 24)
  | 9 => (infF fp32 false, 0)
  | 10 => (infF fp32 true, 0)
  | 11 => (0, 53)
  | 12 => (infF fp64 false, 0)
  | 13 => (infF fp64 true, 0)
  | _ => (0, 63)
/-- Two nodes of a tree or a chain: an empty one passes the other; flags accumulate (R178). -/
def joinNode (op n mode : Nat) (a b : Option (VT × Nat)) : Option (VT × Nat) :=
  match a, b with
  | none, y => y
  | x, none => x
  | some (x, f), some (y, g) => let r := combine op n mode x y; some ((r.y, r.tag.toNat), f ||| g ||| r.fl)
/-- One level of the tree of R178. -/
def pairUp (op n mode : Nat) : List (Option (VT × Nat)) → List (Option (VT × Nat))
  | a :: b :: rest => joinNode op n mode a b :: pairUp op n mode rest
  | rest => rest
/-- The serial scan of R177: results of lanes and the flags of every combine. -/
def scanLanes (op n mode : Nat) (ex : Bool) (at_ : Nat → VT) : List Nat → Option (VT × Nat) → List (Nat × VT) × Nat
  | [], acc => ([], (acc.map (·.2)).getD 0)
  | l :: ls, acc =>
    let acc' := joinNode op n mode acc (some (at_ l, 0))
    let here := if ex then (acc.map (·.1)).getD (scanId op n) else (acc'.map (·.1)).getD (0, 0)
    let r := scanLanes op n mode ex at_ ls acc'
    ((l, here) :: r.1, r.2)
/-- Results of LSCAN or LRED: flags of the instruction, SIGPOL and SIGMIN for an FP operation (R176). -/
def laneFinish (i : Issue) (x : RG) (pair : Bool) (val : Nat → VT) (fl : Nat) : Res :=
  if laneOp x < 8 then
    putRes i x.d pair (fun l => BitVec.ofNat 64 (val l).1) fun l => BitVec.ofNat 6 (val l).2
  else
    fpPut i x.d pair (slotSigpol (recSlot (wordsOf i) x.slot.toNat))
      fun l => ⟨(val l).1, fl, BitVec.ofNat 6 (val l).2⟩
/-- Steps 3 to 7 of LSCAN and LRED. -/
def laneBody (scan : Bool) (x : RG) (i : Issue) : Res :=
  let pair := lanePair x
  let a := rd i x.a pair
  match gate i [a] [(x.d, pair)] with
  | some r => r
  | none =>
    let n := pairBits pair
    let mode := rmode (wordsOf i) x.slot.toNat x.rnd
    let at_ (l : Nat) : VT := ((a.at_ l).bits.toNat, (a.at_ l).tag.toNat)
    if scan then
      let r := scanLanes (laneOp x) n mode (x.sub.getLsbD 5) at_ (lanesOf i.act) none
      laneFinish i x pair (fun l => ((r.1.find? fun e => e.1 == l).map (·.2)).getD (0, 0)) r.2
    else
      let leaf := lanes.map fun l => if inMask i.act l then some (at_ l, 0) else none
      let p := pairUp (laneOp x) n mode
      let root := (p (p (p (p (p leaf))))).headD none
      let r := root.getD ((0, 0), 0)
      laneFinish i x pair (fun _ => r.1) r.2
/-- LSCAN (R177). -/
def execLscan (x : RG) (s : State) : Host.Outcome State Fault Refusal :=
  issue x.h (Instr.lscan x).wf false (fun _ _ t => opdAlloc t x.d (lanePair x) && opdAlloc t x.a.o (lanePair x))
    (laneBody true x) s
/-- LRED (R178). -/
def execLred (x : RG) (s : State) : Host.Outcome State Fault Refusal :=
  issue x.h (Instr.lred x).wf false (fun _ _ t => opdAlloc t x.d (lanePair x) && opdAlloc t x.a.o (lanePair x))
    (laneBody false x) s

/-! ### Routing (R188 to R191) -/

/-- Whether a list entry precedes a candidate that is no NaN; a NaN entry never does (R189). -/
def topPrecedes (least : Bool) (s x : FV) (i ix : Nat) : Bool :=
  let better := if least then cmpF .lt s x else cmpF .gt s x
  let equal := cmpF .eq s x
  better.1 || (equal.1 && decide (i ≤ ix))
/-- The inserted list of one lane (R189); entries are scores and indices as register elements. -/
def topInsert (least : Bool) (es : List (Elem × Elem)) (x : VT) (ix : VT) : List (Elem × Elem) :=
  let v := decF fp32 x.1
  let k := es.length
  let j := (es.filter fun e => topPrecedes least (decF fp32 e.1.val.toNat) v e.2.val.toNat ix.1).length
  if isNaN v || k ≤ j then es
  else
    let e : Elem × Elem := (⟨BitVec.ofNat 32 x.1, true, regTag (BitVec.ofNat 6 x.2)⟩, ⟨BitVec.ofNat 32 ix.1, true, 63⟩)
    (es.take j ++ [e] ++ es.drop j).take k
/-- Write a lane's list back: scores from v(n), indices from v(n + k), every one full. -/
def putList (t : Team) (n k l : Nat) (es : List (Elem × Elem)) : Team :=
  (List.range k).foldl
    (fun t j =>
      let e := nth default es j
      setV (setV t (n + j) l { e.1 with full := true }) (n + k + j) l { e.2 with full := true }) t
/-- TOPKI (R188, R189). -/
def execTopki (x : RG) (s : State) : Host.Outcome State Fault Refusal :=
  let k := x.sub.toNat % 8 + 1
  let n := match x.d with | .v n => n.toNat | _ => 0
  issue x.h (Instr.topki x).wf false
    (fun _ _ t => rangeAlloc t x.d (2 * k) && opdAlloc t x.a.o false && opdAlloc t x.b.o false)
    (fun i =>
      let a := rdA i x false
      let b := rd i x.b false
      let dsts := (List.range (2 * k)).map fun j => (Opd.v (BitVec.ofNat 8 (n + j)), false)
      match gate i [a, b] dsts with
      | some r => r
      | none =>
        let one (t : Team) (l : Nat) : Team :=
          let es := (List.range k).map fun j => (getV i.t (n + j) l, getV i.t (n + k + j) l)
          putList t n k l (topInsert (x.sub.getLsbD 3) es (vt fp32 x.a.m (a.at_ l)) (ival 32 x.b.m (b.at_ l), 63))
        .go (setTeam i.s i.core i.slot
          (pushUndo i.s (foldLanes i.act one i.t) (dsts.flatMap fun d => undoOf i.t d.1 false)))) s

/-- One round of R191. -/
def rngRound (k : Nat) (x : Nat × Nat) (i : Nat) : Nat × Nat :=
  let key := if i % 2 = 0 then k % 2 ^ 32 else k / 2 ^ 32
  let rot := nth 0 [13, 29, 7, 19] i
  let x0 := (x.1 + x.2 + key + (i + 1) * 0x6C8E9CF5) % 2 ^ 32
  (x0, (x.2 * 2 ^ rot % 2 ^ 32 + x.2 / 2 ^ (32 - rot)) ^^^ x0)
/-- The output of RNG for key `k` and counter `c` (R191). -/
def rngOut (k c : Nat) : Nat :=
  let x := (List.range 4).foldl (rngRound k) (c % 2 ^ 32, c / 2 ^ 32 % 2 ^ 32)
  x.2 * 2 ^ 32 + x.1
/-- The FP32 pattern of out[63:40] × 2⁻²⁴ (R190). -/
def rngF32 (out : Nat) : Nat := (roundF fp32 0 false ⟨false, out / 2 ^ 40, -24, false⟩).1
/-- RNG (R190). -/
def execRng (x : RG) (s : State) : Host.Outcome State Fault Refusal :=
  let wide := x.sub == 0
  issue x.h (Instr.rng x).wf false (fun _ _ t => opdAlloc t x.d wide && opdAlloc t x.a.o true && opdAlloc t x.b.o true)
    (fun i =>
      let a := rdA i x true
      let b := rd i x.b true
      match gate i [a, b] [(x.d, wide)] with
      | some r => r
      | none =>
        let out (l : Nat) : Nat := rngOut (ival 64 false (a.at_ l)) (ival 64 x.b.m (b.at_ l))
        putRes i x.d wide (fun l => BitVec.ofNat 64 (if wide then out l else rngF32 (out l)))
          fun _ => if wide then 63 else 24) s

end Sys2Proof.Machine
end

