-- ==== Sys2Proof/Machine/Sync.lean ====
section
/-! DEFINITION. FENCE (R219, R227, R253). -/

namespace Sys2Proof.Machine

/-- What a request of the issuing team asks a fence to wait for (R227, R253, R367). A release of scope CORE, CLUSTER or DIE
waits only for logged writes (R221); a full fence waits for every access. -/
def fenceWaits (acq rel : Bool) (sc : Scope) (q : Req) : Bool :=
  isTicketRead q ||
  (rel && q.write && (acq || !(decide (1 ≤ scopeNum sc) && decide (scopeNum sc ≤ 3)) || unfinished q)) ||
  (acq && (q.read || (match q.kind with | .redeem .. => true | _ => false)))
/-- Whether FENCE is ready. -/
def fenceReady (i : Issue) (x : EN) : Bool :=
  !(i.s.reqs.any fun q => q.core == i.core && q.tid == i.t.tid && fenceWaits x.acq x.rel x.scope q) &&
  (!x.acq || i.t.observed.all fun v => (openDrains i.s (seenDrains i.s x.scope i.core v)).isEmpty)
/-- What a fence leaves of the release records that it has drained (R220). -/
def fenceClears (s : State) (sc : Scope) (c : Nat) (seen : List Seen) : State :=
  seen.foldl (fun s v => let ds := seenDrains s sc c v; if ds.isEmpty then s else clearLine s ds (.hbm (128 * v.line))) s
/-- FENCE (R253). -/
def execFence (x : EN) (s : State) : Host.Outcome State Fault Refusal :=
  issue x.h (Instr.fence x).wf false (fun _ _ _ => true)
    (fun i =>
      if fenceReady i x then
        .go (setTeam (if x.acq then fenceClears i.s x.scope i.core i.t.observed else i.s) i.core i.slot { i.t with
          relFence := if x.rel then some (match i.t.relFence with | some sc => widest sc x.scope | none => x.scope) else i.t.relFence
          observed := if x.acq then i.t.observed.filter fun v => (seenDrains i.s x.scope i.core v).isEmpty else i.t.observed })
      else .wait) s

end Sys2Proof.Machine
end

