-- ==== Sys2Proof/Machine/Shake.lean ====
section
/-! DEFINITION. SHAKE256 of FIPS 202, and XMSS of RFC 8391 over it with n = 32, Winternitz parameter 16 and tree height 20 (R453). -/

namespace Sys2Proof.Machine

/-! ### SHAKE256 -/

/-- Rotation offsets of the 25 lanes, lane x + 5y. -/
def keccakRot : List Nat := [0, 1, 62, 28, 27, 36, 44, 6, 55, 20, 3, 10, 43, 25, 39, 41, 45, 15, 21, 8, 18, 2, 61, 56, 14]
/-- Round constants. -/
def keccakRc : List DWord :=
  [0x0000000000000001, 0x0000000000008082, 0x800000000000808A, 0x8000000080008000, 0x000000000000808B, 0x0000000080000001,
   0x8000000080008081, 0x8000000000008009, 0x000000000000008A, 0x0000000000000088, 0x0000000080008009, 0x000000008000000A] ++
  [0x000000008000808B, 0x800000000000008B, 0x8000000000008089, 0x8000000000008003, 0x8000000000008002, 0x8000000000000080,
   0x000000000000800A, 0x800000008000000A, 0x8000000080008081, 0x8000000000008080, 0x0000000080000001, 0x8000000080008008]
/-- One round of Keccak-f[1600] on 25 lanes. -/
def keccakRound (a : List DWord) (rc : DWord) : List DWord :=
  let at_ (m : List DWord) (x y : Nat) : DWord := nth 0 m (x % 5 + 5 * (y % 5))
  let c := (List.range 5).map fun x => (List.range 5).foldl (fun z y => z ^^^ at_ a x y) 0
  let d := (List.range 5).map fun x => nth 0 c ((x + 4) % 5) ^^^ (nth 0 c ((x + 1) % 5)).rotateLeft 1
  let t := (List.range 25).map fun i => nth 0 a i ^^^ nth 0 d (i % 5)
  let b := (List.range 25).map fun i =>
    let j := (i % 5 + 3 * (i / 5)) % 5 + 5 * (i % 5)
    (nth 0 t j).rotateLeft (nth 0 keccakRot j)
  let z := (List.range 25).map fun i => at_ b i (i / 5) ^^^ (~~~ at_ b (i % 5 + 1) (i / 5) &&& at_ b (i % 5 + 2) (i / 5))
  setNth z 0 (nth 0 z 0 ^^^ rc)
/-- Keccak-f[1600]. -/
def keccakF (a : List DWord) : List DWord := keccakRc.foldl keccakRound a
/-- Absorb `n` blocks of 136 B. -/
def absorb : Nat → List DWord → List Byte → List DWord
  | 0, a, _ => a
  | n + 1, a, bs =>
    let b := bs.take 136
    absorb n (keccakF ((List.range 25).map fun i => nth 0 a i ^^^ BitVec.ofNat 64 (leNat ((b.drop (8 * i)).take 8)))) (bs.drop 136)
/-- SHAKE256 of bytes, 32 B of it. -/
def shake256 (bs : List Byte) : List Byte :=
  let pad := 136 - bs.length % 136
  let tail : List Byte := if pad = 1 then [0x9F] else 0x1F :: (List.replicate (pad - 2) 0 ++ [0x80])
  let a := absorb (bs.length / 136 + 1) (List.replicate 25 0) (bs ++ tail)
  (a.take 4).flatMap fun x => leBytes 8 x.toNat

/-! ### Hash functions and addresses of XMSS (RFC 8391) -/

/-- A number as `n` bytes, most significant first. -/
def beBytes (n x : Nat) : List Byte := (leBytes n x).reverse
/-- The keyed functions: 0 F, 1 H, 2 H_msg, 3 PRF. -/
def keyed (k : Nat) (key m : List Byte) : List Byte := shake256 (beBytes 32 k ++ key ++ m)
/-- Bytewise exclusive or. -/
def xorBytes (a b : List Byte) : List Byte := List.zipWith (· ^^^ ·) a b
/-- A hash address: its type, and its last four words. -/
def hashAddr (type a b c mask : Nat) : List Byte := List.replicate 12 0 ++ [type, a, b, c, mask].flatMap (beBytes 4)
/-- The chaining function: `n` steps from step `i` of chain `c` of one-time key `leaf`. -/
def wotsChain (seed : List Byte) (leaf c : Nat) : Nat → Nat → List Byte → List Byte
  | 0, _, x => x
  | n + 1, i, x =>
    let key := keyed 3 seed (hashAddr 0 leaf c i 0)
    let mask := keyed 3 seed (hashAddr 0 leaf c i 1)
    wotsChain seed leaf c n (i + 1) (keyed 0 key (xorBytes x mask))
/-- RAND_HASH of two nodes at an address of the given type, key, height and index. -/
def randHash (seed : List Byte) (type leaf height index : Nat) (l r : List Byte) : List Byte :=
  let prf (mask : Nat) : List Byte := keyed 3 seed (hashAddr type leaf height index mask)
  keyed 1 (prf 0) (xorBytes l (prf 1) ++ xorBytes r (prf 2))
/-- One level of an L-tree: adjacent nodes are joined, an odd last one rises. -/
def ltreeLevel (seed : List Byte) (leaf height : Nat) : Nat → List (List Byte) → List (List Byte)
  | i, l :: r :: rest => randHash seed 1 leaf height i l r :: ltreeLevel seed leaf height (i + 1) rest
  | _, ls => ls
/-- The root of an L-tree of 67 nodes: seven levels. -/
def ltree (seed : List Byte) (leaf : Nat) (ns : List (List Byte)) : List Byte :=
  ((List.range 7).foldl (fun ns h => ltreeLevel seed leaf h 0 ns) ns).headD []
/-- The 67 base-16 digits of a 32-B message with its checksum. -/
def wotsDigits (m : List Byte) : List Nat :=
  let ds := m.flatMap fun b => [b.toNat / 16, b.toNat % 16]
  let sum := (ds.map (15 - ·)).sum
  ds ++ [sum / 256 % 16, sum / 16 % 16, sum % 16]
/-- The public value of one-time key `leaf` from its signature of a message. -/
def wotsRecover (seed : List Byte) (leaf : Nat) (m : List Byte) (sig : List (List Byte)) : List Byte :=
  let ds := wotsDigits m
  ltree seed leaf ((List.range 67).map fun c => wotsChain seed leaf c (15 - nth 0 ds c) (nth 0 ds c) (nth [] sig c))
/-- Climb from node `x`, with index `i` at height `h`, along an authentication path. -/
def climb (seed : List Byte) : List (List Byte) → Nat → Nat → List Byte → List Byte
  | [], _, _, x => x
  | a :: rest, h, i, x =>
    climb seed rest (h + 1) (i / 2) (if i % 2 = 0 then randHash seed 2 0 h (i / 2) x a else randHash seed 2 0 h (i / 2) a x)

/-! ### Signatures (R453) -/

/-- Cut bytes into nodes of 32 B. -/
def nodesOf : Nat → List Byte → List (List Byte)
  | 0, _ => []
  | n + 1, bs => bs.take 32 :: nodesOf n (bs.drop 32)
/-- The digest of a message that one-time key `idx` signs: under the randomiser and the root. -/
def msgDigest (r root : List Byte) (idx : Nat) (msg : List Byte) : List Byte := keyed 2 (r ++ root ++ beBytes 32 idx) msg
/-- Whether 2,820 B are the signature of a message under a public key of 68 B: an identifier of 4 B, the root, the seed. -/
def xmssOk (key msg sig : List Byte) : Bool :=
  let root := (key.drop 4).take 32
  let seed := (key.drop 36).take 32
  let idx := leNat ((sig.take 4).reverse)
  let m := msgDigest ((sig.drop 4).take 32) root idx msg
  key.length == 68 && sig.length == 2820 && decide (idx < 2 ^ 20) &&
  climb seed (nodesOf 20 (sig.drop 2180)) 0 idx (wotsRecover seed idx m (nodesOf 67 (sig.drop 36))) == root
/-- A secret key: the secret of each chain of each one-time key, the public seed, and the key of the randomiser. -/
structure XmssKey where
  secret : Nat → Nat → List Byte
  seed : List Byte
  prf : List Byte
/-- Node `i` at a height of the tree of a key. -/
def xmssNode (k : XmssKey) : Nat → Nat → List Byte
  | 0, i => ltree k.seed i ((List.range 67).map fun c => wotsChain k.seed i c 15 0 (k.secret i c))
  | h + 1, i => randHash k.seed 2 0 h i (xmssNode k h (2 * i)) (xmssNode k h (2 * i + 1))
/-- The signature of a message with one-time key `idx` of a tree of height `h`: index, randomiser, chain values, path. -/
def xmssSign (k : XmssKey) (h idx : Nat) (msg : List Byte) : List Byte :=
  let r := keyed 3 k.prf (beBytes 32 idx)
  let ds := wotsDigits (msgDigest r (xmssNode k h 0) idx msg)
  beBytes 4 idx ++ r ++
  ((List.range 67).flatMap fun c => wotsChain k.seed idx c (nth 0 ds c) 0 (k.secret idx c)) ++
  (List.range h).flatMap fun j => xmssNode k j ((idx / 2 ^ j).xor 1)

end Sys2Proof.Machine
end

