-- ==== Sys2Proof/Machine/System.lean ====
section
/-! DEFINITION. Starts, attestation, the sideband and the debug port, worlds, Gait, the class table, power (R17 to R19, R398, R431, R451 to R461). -/

namespace Sys2Proof.Machine

/-! ### Fatal errors (R19, R431, R460) -/

/-- DIE_LINK_FAILURE (R431), an event of the error log (R460; its code is log entry 41's). -/
def execDieLinkFailure (die : Nat) (s : State) : Host.Outcome State Fault Refusal := .next (fatal (logEcc s (512 + die)) 2 die)
/-- THERMAL_TRIP (R19): the dump is written, or a further error counted, and the compute dies lose power; the next start is a cold one. It
is taken in every mode of the controller (log entry 78). -/
def execThermalTrip (die : Nat) (s : State) : Host.Outcome State Fault Refusal :=
  let s1 := fatal s 1 die
  .next { s1 with cores := [], ctl := { s1.ctl with nextCold := true } }
/-- FIRMWARE_CHECK_FAILURE (R460): of the module. -/
def execFirmwareCheckFailure (s : State) : Host.Outcome State Fault Refusal := .next (fatal s 4 0xFF)

/-! ### Starts (R451, R452, R454) -/

/-- Answer a request. -/
def answer (s : State) (a : Answer) : State := { s with ctl := { s.ctl with reply := a } }
/-- Whether the dump region holds a dump that the host has not cleared (R460). -/
def dumpValid (s : State) : Bool := (readDump s 63).getLsbD 7
/-- Whether the image of a kind is what the fuses ask for (R454): the public key's hash, the signature. -/
def imageSigned (kind : Nat) (x : Signed) : Bool :=
  x.key.length == 68 && x.sig.length == 2820 && shake256 x.key == leBytes 32 (Config.keyFuse kind).toNat && xmssOk x.key x.bytes x.sig
/-- The image of a kind that manufacture put there. -/
def factoryOf (s : State) (kind : Nat) : Factory := ngetD ⟨0, true, true⟩ s.ctl.factory kind
/-- Whether the image of a kind passes at a start (R454): version, key and signature, of the staged image or of the one of manufacture. -/
def imagePasses (s : State) (kind : Nat) : Bool :=
  let new (version : Nat) : Bool := decide (ngetD 0 s.ctl.rollback kind ≤ version)
  match nget s.ctl.images kind with
  | none => new (factoryOf s kind).version && (factoryOf s kind).keyOk && (factoryOf s kind).sigOk
  | some x => new x.version && imageSigned kind x.file
/-- Step 4 of a start (R451): the parameters of a new training, stored under the next index of the device key, which is spent with it (R455); or
the check of the stored ones. Log entry 37: a signature verifies for the bytes it was made for and no others. -/
def trainHbm (s : State) (warm : Bool) : Option State :=
  let c := s.ctl
  if warm then (if c.params.signed == c.params.bytes && decide (c.params.index < 2 ^ 20) then some s else none)
  else if 2 ^ 20 ≤ c.attIndex then none
  else
    let p := Config.trainedParams (c.trained + 1)
    some { s with ctl := { c with trained := c.trained + 1, params := ⟨p, c.attIndex, p⟩, attIndex := c.attIndex + 1 } }
/-- The measurements of images that a start has verified (R455). -/
def measure (s : State) (kinds : List Nat) : State :=
  let one (m : NMap (BitVec 256)) (k : Nat) : NMap (BitVec 256) :=
    match nget s.ctl.images k with
    | some x => nset m k (BitVec.ofNat 256 (leNat (shake256 x.file.bytes)))
    | none => ndel m k
  { s with ctl := { s.ctl with measured := kinds.foldl one s.ctl.measured } }
/-- The Secure-world leaves below a table: first byte, length (R359). -/
def secureLeaves (s : State) : List (Nat × Nat × Nat) → Nat → List (Nat × Nat)
  | [], _ => []
  | (sh, w, ok) :: rest, tab =>
    (List.range (2 ^ w)).flatMap fun j =>
      let p := readPte s (tab + 8 * j)
      if !pteV p then []
      else if pteSize p = 3 then secureLeaves s rest (pteFrame p)
      else if pteSize p = ok && pteWld p && pteTgt p == 0 then [(pteFrame p, 2 ^ sh)]
      else []
/-- Whether an address lies in one of some ranges. -/
def inRanges (rs : List (Nat × Nat)) (a : Nat) : Bool := rs.any fun r => decide (r.1 ≤ a) && decide (a < r.1 + r.2)
/-- The HBM of the Secure world: what a Secure leaf maps, and what a Secure slice homes (R456). -/
def secureHbm (s : State) (a : Nat) : Bool :=
  (getSlice s (sliceOf a)).world ||
  s.ctxs.any fun e => e.2.st != .free && inRanges (secureLeaves s levels e.2.root) a
/-- Step 6 of a cold start (R451): all HBM is 0 but a dump that is present, and no line of it is poisoned. -/
def scrubAll (s : State) : State :=
  let keep (a : Nat) : Bool := dumpValid s && decide (s.ctl.dumpBase ≤ a) && decide (a < s.ctl.dumpBase + 2 ^ 26)
  { s with
    mem := s.mem.filter fun e => keep e.1,
    poison := s.poison.filter fun l => match l with | .hbm a => keep a | _ => true }
/-- Step 6 of a warm start: what the Secure world held is 0. -/
def scrubSecure (s : State) : State :=
  { s with
    mem := s.mem.filter fun e => !secureHbm s e.1,
    poison := s.poison.filter fun l => match l with | .hbm a => !secureHbm s a | _ => true }
/-- Step 5 of a start: the weight store, or its regions of the Secure world, are 0. -/
def scrubWeights (s : State) (warm : Bool) : State :=
  let keep (w : Nat) : Bool := warm && !inRanges s.wsSecure w
  { s with
    wstore := s.wstore.filter fun e => keep e.1,
    poison := s.poison.filter fun l => match l with | .weight w => keep w | _ => true }
/-- Whether firmware can reserve the dump region at an address: within one stack (R208, R460). -/
def regionOk (region : Nat) : Bool := region % 0x10000 == 0 && decide (region < 2 ^ 40) && decide (region % 2 ^ 36 + 2 ^ 26 ≤ 48000000000)
/-- What a start that succeeds reports (R451). -/
def started (s : State) : State :=
  { s with ctl := { s.ctl with
    mode := .running, warmFails := 0, nextCold := false, reply := .data (leBytes 2 s.deviceNumber.toNat) } }
/-- Step 8 of a cold start (R451): what the fuses and the monotonic store hold stays, as do the images, a dump that is present and what other
endpoints hold. Firmware reserves a new dump region where none is present. -/
def coldState (s : State) (region : Nat) : State :=
  { State.reset with
    agenda := s.agenda, freshCount := s.freshCount, nextId := s.nextId, remote := s.remote, deviceNumber := s.deviceNumber, mem := s.mem,
    ctl := { State.reset.ctl with
      attIndex := s.ctl.attIndex, rollback := s.ctl.rollback, images := s.ctl.images, measured := s.ctl.measured,
      factory := s.ctl.factory, trained := s.ctl.trained, params := s.ctl.params, dumpSeq := s.ctl.dumpSeq,
      dumpBase := if dumpValid s || !regionOk region then s.ctl.dumpBase else region,
      debugFuse := s.ctl.debugFuse } }
/-- Step 8 of a warm start: every context FREE and the Bridle slots FREE. -/
def warmState (s : State) : State :=
  let s1 := (s.ctxs.map (·.1)).foldl freeCtx s
  { s1 with seqSlots := [], bridleCache := [] }
/-- Step `k` of a start (R451), `ok` its outcome where only the parts themselves decide it; none where the step fails. -/
def startStep (s : State) (warm : Bool) (k : Nat) (ok : Bool) (device : BitVec 12) (region : Nat) : Option State :=
  if !ok then none
  else match k with
  | 1 => some { s with deviceNumber := device }
  | 2 => if imagePasses s 0 then some (measure s [0]) else none
  | 3 => if [1, 2, 3, 4].all (imagePasses s) then some (measure s [1, 2, 3, 4]) else none
  | 4 => trainHbm s warm
  | 5 => some (scrubWeights s warm)
  | 6 => some (if warm then scrubSecure s else scrubAll s)
  | 7 => some { s with downPorts := [] }
  | _ => some (if warm then warmState s else coldState s region)
/-- A start fails (R452): safe mode after a cold one, in which the compute dies have no power. -/
def failStart (s : State) (warm : Bool) : State :=
  if warm then
    { s with ctl := { s.ctl with
      mode := .notStarted, warmFails := s.ctl.warmFails + 1, nextCold := decide (1 ≤ s.ctl.warmFails), reply := .refused } }
  else { s with cores := [], ctl := { s.ctl with mode := .safeMode, nextCold := false, reply := .refused } }
/-- The end of the step that a start has come to. -/
def goOn (s : State) (warm ok : Bool) (device : BitVec 12) (region : Nat) : State :=
  match s.ctl.mode with
  | .starting w k =>
    if w != warm then s
    else match startStep s warm k ok device region with
      | none => failStart s warm
      | some s1 => if k < 8 then { s1 with ctl := { s1.ctl with mode := .starting warm (k + 1) } } else started s1
  | _ => s
/-- Whether a start is under way (R452). -/
def inStart (s : State) : Bool := match s.ctl.mode with | .starting .. => true | _ => false
/-- A start begins. -/
def beginStart (s : State) (warm : Bool) : State := { s with ctl := { s.ctl with mode := .starting warm 1, reply := .ok } }
/-- COLD_START (R451, R452); a reset request is the start request it names (R461; log entry 78). -/
def execColdStart (x : StartEv) (device : BitVec 12) (s : State) : Host.Outcome State Fault Refusal :=
  match x with
  | .request | .reset => .next (if inStart s then answer s .busy else beginStart s false)
  | .done ok region => .next (goOn s false ok device region)
/-- WARM_START (R451, R452): after two failures, or a thermal trip (R19), the start is a cold one; none leaves safe mode. -/
def execWarmStart (x : StartEv) (device : BitVec 12) (s : State) : Host.Outcome State Fault Refusal :=
  match x with
  | .request | .reset =>
    .next (if inStart s then answer s .busy
      else if s.ctl.mode == .safeMode then answer s .refused
      else beginStart s !s.ctl.nextCold)
  | .done ok region => .next (goOn s true ok device region)

/-! ### Attestation and the sideband (R17, R453 to R455, R460, R461) -/

/-- The measurement of the image of a kind that is in force. -/
def measurement (s : State) (kind : Nat) : List Byte :=
  leBytes 32 (match nget s.ctl.measured kind with | some x => x | none => Config.factoryImage kind).toNat
/-- The world of every core, then of every slice (R456). -/
def worlds (s : State) : List Bool :=
  (List.range Config.cores).map (fun c => (getCore s c).world) ++ (List.range Config.slices).map fun k => (getSlice s k).world
/-- The 512-B report (R455). -/
def attReport (s : State) (nonce : List Byte) : List Byte :=
  padTo 32 nonce ++ leBytes 32 Config.fuseIdentity.toNat ++ (List.range 5).flatMap (measurement s) ++
  shake256 s.ctl.params.bytes ++ leBytes 32 (Config.worldHash (worlds s)).toNat ++ leBytes 4 s.ctl.attIndex ++
  List.replicate 220 0
/-- The device key (R455). -/
def deviceKey : XmssKey :=
  ⟨fun i c => leBytes 32 (Config.deviceSecret i c).toNat, leBytes 32 Config.deviceSeed.toNat, leBytes 32 Config.devicePrf.toNat⟩
/-- The signature of a report (R453). -/
def attSignature (idx : Nat) (report : List Byte) : List Byte := xmssSign deviceKey 20 idx report
/-- ATTESTATION_REQUEST (R455): the index is committed with the answer. -/
def execAttestationRequest (nonce : List (BitVec 8)) (s : State) : Host.Outcome State Fault Refusal :=
  if s.ctl.mode == .safeMode || inStart s then .next (answer s .busy)
  else if 2 ^ 20 ≤ s.ctl.attIndex then .next (answer s .exhausted)
  else
    let r := attReport s nonce
    .next { s with ctl := { s.ctl with attIndex := s.ctl.attIndex + 1, reply := .data (r ++ attSignature s.ctl.attIndex r) } }
/-- POWER_CAP_SET (R17). DESIGN CHOICE (log entry 78): a cap outside the range is refused and the old one stays. -/
def execPowerCapSet (watts : Nat) (s : State) : Host.Outcome State Fault Refusal :=
  if 1800 ≤ watts ∧ watts ≤ 3400 then .next { answer s .ok with powerCap := watts } else .next (answer s .refused)
/-- DUMP_READ: what a host reads over the sideband (R433, R460, R461); each reading of a sensor is a free value. -/
def execDumpRead (x : SideRead) (n : Nat) (s : State) : Host.Outcome State Fault Refusal :=
  match x with
  | .dump offset =>
    if 2 ^ 26 < offset + n then .next (answer s .refused)
    else .next (answer s (.data ((List.range n).map fun i => readDump s (offset + i))))
  | .region => .next (answer s (.data (leBytes 8 s.ctl.dumpBase)))
  | .device => .next (answer s (.data (leBytes 2 s.deviceNumber.toNat)))
  | .powerCap => .next (answer s (.data (leBytes 2 s.powerCap)))
  | .temperature die =>
    if Config.dies ≤ die then .next (answer s .refused)
    else .next { answer s (.data (leBytes 2 (Config.sensor s.freshCount die).toNat)) with freshCount := s.freshCount + 1 }
  | .power => .next { answer s (.data (leBytes 2 (Config.sensor s.freshCount 4).toNat)) with freshCount := s.freshCount + 1 }
/-- VALID (R460): the host clears it. -/
def execValid (s : State) : Host.Outcome State Fault Refusal :=
  .next (answer { s with mem := nsetD 0 s.mem (s.ctl.dumpBase + 63) (readDump s 63 &&& 0x7F) } .ok)
/-- FIRMWARE_STAGING (R461): only what is signed is taken; a later start checks it again, with its version (R454). -/
def execFirmwareStaging (kind version : Nat) (x : Signed) (s : State) : Host.Outcome State Fault Refusal :=
  if decide (kind < 5) && imageSigned kind x then .next (answer { s with ctl := { s.ctl with images := nset s.ctl.images kind ⟨version, x⟩ } } .ok)
  else .next (answer s .refused)
/-- Whether the debug port may reach a core (R461): the fuse opens the Non-secure units, a request of the Secure world opens all. -/
def debugAllowed (s : State) (core : Nat) : Bool :=
  decide (core < Config.cores) && (s.ctl.debugUnlocked || (s.ctl.debugFuse && !(getCore s core).world))
/-- Register `reg` of a team, lane `lane`: 0 to 255 v, then 64 s, then 8 p, as bytes. -/
def debugReg (t : Team) (reg lane : Nat) : List Byte :=
  if reg < 256 then leBytes 4 (getV t reg lane).val.toNat
  else if reg < 320 then leBytes 8 (getS t (reg - 256)).val.toNat
  else leBytes 4 (getP t (reg - 320)).val.toNat
/-- DEBUG_PORT_ACCESS (R461): boundary scan reads the pins only; only a request of the Secure world unlocks the port. -/
def execDebugPortAccess (acc : DebugAcc) (s : State) : Host.Outcome State Fault Refusal :=
  match acc with
  | .boundaryScan => .next s
  | .unlock secure on =>
    if secure then .next (answer { s with ctl := { s.ctl with debugUnlocked := on } } .ok) else .next (answer s .refused)
  | .read core byte =>
    if debugAllowed s core && decide (byte < 2 ^ 20) then .next (answer s (.data (readLoc s (.scratch core byte) 1)))
    else .next (answer s .refused)
  | .write core byte x =>
    if debugAllowed s core && decide (byte < 2 ^ 20) then .next (answer (storeAt s (.scratch core byte) [x]) .ok)
    else .next (answer s .refused)
  | .readReg core slot reg lane =>
    match getTeam s core slot with
    | some t => .next (answer s (if debugAllowed s core && decide (reg < 328) then .data (debugReg t reg lane) else .refused))
    | none => .next (answer s .refused)

/-! ### Worlds (R456, R457) -/

/-- Whether a kernel runs, or waits suspended (R457). -/
def kernelRuns (s : State) : Bool := s.ctxs.any fun e => e.2.launches.any fun q => q.st == .started
/-- Whether work of a context is on a core, or is to return to it (R386). -/
def coreBusy (s : State) (c : Nat) : Bool :=
  let k := getCore s c
  !k.teams.isEmpty || !k.wgs.isEmpty || !k.tops.isEmpty || !k.deliveries.isEmpty || (k.chans.any fun e => !e.2.isEmpty) ||
  (s.reqs.any fun r => r.core == c && isAccess r && !r.done) || s.ctxs.any fun e => e.2.saved.any fun m => m.core == c
/-- A core in its new world: scratchpad, register files, tile tables and TLBs are zero (R457); D bits go to memory first (R361). -/
def moveCore (s : State) (c : Nat) (world : Bool) : State :=
  let k := getCore s c
  let s1 := k.tlb.foldl writeBack s
  setCore s1 c { (default : Core) with world := world, islots := k.islots }
/-- A slice in its new world: its cache is invalid and its ticket entries are FREE with end RECLAIMED (R457). -/
def moveSlice (s : State) (k : Nat) (world : Bool) : State :=
  let tk (e : TkEntry) : TkEntry :=
    if e.st = .free then e else { e with st := .free, spent := false, vals := [], bytes := [], ltags := [], elems := [], pois := 0 }
  { s with
    slices := nset s.slices k ⟨world, (getSlice s k).tickets.map fun e => (e.1, tk e.2), []⟩,
    reqs := s.reqs.filter fun r => match r.kind with | .fetch j _ _ _ => j != k | _ => true }
/-- Whether a request to a slice is in flight. -/
def sliceBusy (s : State) (k : Nat) : Bool :=
  s.reqs.any fun r => !isFetch r && !r.done && (match r.loc with | some (.hbm pa) => sliceOf pa == k | _ => false)
/-- WORLD_REASSIGNMENT (R236, R451, R456, R457): of a core, a slice or a region of the weight store. -/
def execWorldReassignment (u : WorldUnit) (n : Nat) (world : Bool) (s : State) : Host.Outcome State Fault Refusal :=
  if kernelRuns s then .next s
  else match u with
  | .core => .next (if Config.cores ≤ n || (getCore s n).world == world || coreBusy s n then s else moveCore s n world)
  | .slice => .next (if Config.slices ≤ n || (getSlice s n).world == world || sliceBusy s n then s else moveSlice s n world)
  | .weights len =>
    let rest := s.wsSecure.filter fun r => r != (n, len)
    .next { s with wsSecure := if world && decide (0 < len) && decide (n + len ≤ 2 ^ 31) then rest ++ [(n, len)] else rest }
/-- CLASS_TABLE_WRITE (R398): while no context that owns slots is resident; zero bits stay zero. -/
def execClassTableWrite (i : BitVec 8) (e : BitVec 32) (s : State) : Host.Outcome State Fault Refusal :=
  if s.ctxs.any fun x => x.2.st != .free && x.2.st != .suspended && x.2.slotN != 0 then .next s
  else .next { s with classTable := nsetD 0 s.classTable i.toNat (e &&& 0x9F0FFFFF) }

/-! ### Gait and the latency monitors (R458, R459) -/

/-- The threshold of a monitor: the first bin at which the cumulative count reaches its percentile. -/
def setThreshold (m : Latency) : Latency :=
  let total := (m.bins.map (·.2)).sum
  let upTo (b : Nat) : Nat := ((m.bins.filter fun e => decide (e.1 ≤ b)).map (·.2)).sum
  if total = 0 then m else { m with threshold := findNat (fun b => decide (m.percentile * total ≤ 100 * upTo b)) 64 0 }
/-- Whether word `i` of the blocks counts what has no place in the model: busy and conflict clocks, stalls, flits (log entry 39). -/
def timingWord (i : Nat) : Bool :=
  let b := i / 16
  (if b < 576 then [8, 10, 13, 14] else if b < 832 then [7, 8] else if b < 836 then [2, 3] else [3, 4]).contains (i % 16)
/-- Word `i` of the blocks. -/
def gaitWord (s : State) (i : Nat) : Nat :=
  if timingWord i then (Config.timingCount (s.freshCount + i)).toNat else min (ngetD 0 s.gait.counters i) 0xFFFFFFFF
/-- The 53,632 B of a record. -/
def gaitRecord (s : State) : List Byte :=
  let g := s.gait
  leBytes 64 (packL [408, 32, 8, 64] [0, g.drop.toNat, g.k, s.clock / 2 ^ g.k]) ++
  (List.range (837 * 16)).flatMap fun i => leBytes 4 (gaitWord s i)
/-- Write the record of the interval, or count it where the ring is full. -/
def writeRecord (s : State) : State :=
  let g := s.gait
  if g.written - g.head < 2 ^ g.m then
    { s with
      mem := putBytes s.mem (g.ring + 0x10000 * (g.written % 2 ^ g.m)) (gaitRecord s), gait := { g with written := g.written + 1 },
      freshCount := s.freshCount + 837 * 16 }
  else { s with gait := { g with drop := g.drop + 1 } }
/-- The tick at the clock that is a multiple of 2^k, which it ends, so that every event of the clock counts in the interval that closes (R458,
R459). START opens a series with no records dropped; STOP and FREEZE write the interval's record and end it. -/
def gaitTick (s : State) : State :=
  let g := s.gait
  if s.clock % 2 ^ g.k ≠ 0 || g.frozen then s
  else
    let s1 := if g.trig = 1 && !g.on then { s with gait := { g with on := true, drop := 0 } } else s
    let s2 := if s1.gait.on || decide (2 ≤ g.trig) then writeRecord s1 else s1
    { s2 with
      clock := s2.clock + 1,
      latency := s2.latency.map fun e => (e.1, setThreshold e.2),
      gait := { s2.gait with
        counters := [], trig := 0, on := s2.gait.on && decide (g.trig < 2), frozen := g.trig == 3 } }
/-- GAIT_TICK (R458). -/
def execGaitTick (s : State) : Host.Outcome State Fault Refusal := .next (gaitTick s)
/-- ISSUE_GATING (R18): grants and new command starts are withheld, or no longer. -/
def execIssueGating (on : Bool) (s : State) : Host.Outcome State Fault Refusal := .next { s with gated := on }

/-! ### What a stopped module still does (R19, R452, R460) -/

/-- Rows that the controller serves in any mode, and the errors that a fatal error counts. -/
def controllerRow : Instr → Bool
  | .coldStart .. | .warmStart .. | .attestationRequest .. | .powerCapSet .. | .dumpRead .. | .valid | .firmwareStaging ..
  | .debugPortAccess .. | .thermalTrip .. | .dieLinkFailure .. | .firmwareCheckFailure => true
  | _ => false
/-- Whether the machine takes part in an event: every one while it runs, the controller's own otherwise. -/
def serves (s : State) (i : Instr) : Bool := s.ctl.mode == .running || controllerRow i

end Sys2Proof.Machine
end

