-- ==== Sys2Proof/Machine/Ready.lean ====
section
/-! DEFINITION. Which teams are ready (R164), the grant of a tenure (R165, R167) and the samples of the histogram engine (R459). -/

namespace Sys2Proof.Machine

/-- An instruction of a team; no event. -/
def runInstr (i : Instr) (s : State) : Host.Outcome State Fault Refusal :=
  match i with
  | .iadd a b => execIadd a b s
  | .iaddIm a b => execIaddIm a b s
  | .isub a b => execIsub a b s
  | .isubIm a b => execIsubIm a b s
  | .imul a b => execImul a b s
  | .imulIm a b => execImulIm a b s
  | .imulh a b => execImulh a b s
  | .imad a b => execImad a b s
  | .idiv a b => execIdiv a b s
  | .irem a b => execIrem a b s
  | .imin a b => execImin a b s
  | .iminIm a b => execIminIm a b s
  | .imax a b => execImax a b s
  | .imaxIm a b => execImaxIm a b s
  | .iabs a b => execIabs a b s
  | .and a b => execAnd a b s
  | .andIm a b => execAndIm a b s
  | .or a b => execOr a b s
  | .orIm a b => execOrIm a b s
  | .xor a b => execXor a b s
  | .xorIm a b => execXorIm a b s
  | .andn a b => execAndn a b s
  | .andnIm a b => execAndnIm a b s
  | .shl a b => execShl a b s
  | .shlIm a b => execShlIm a b s
  | .shr a b => execShr a b s
  | .shrIm a b => execShrIm a b s
  | .sar a b => execSar a b s
  | .sarIm a b => execSarIm a b s
  | .rol a b => execRol a b s
  | .rolIm a b => execRolIm a b s
  | .popc a b => execPopc a b s
  | .clz a b => execClz a b s
  | .brev a b => execBrev a b s
  | .bfx a b => execBfx a b s
  | .bfi a b => execBfi a b s
  | .sel a b => execSel a b s
  | .mov a b => execMov a b s
  | .movi a b => execMovi a b s
  | .movh a b => execMovh a b s
  | .icmp a b c d => execIcmp a b c d s
  | .icmpIm a b c d => execIcmpIm a b c d s
  | .fcmp a b c => execFcmp a b c s
  | .pset a => execPset a s
  | .pmov a => execPmov a s
  | .fclass a b => execFclass a b s
  | .cvt a b c => execCvt a b c s
  | .cvtqQuantise a => execCvtqQuantise a s
  | .cvtqDequantise a => execCvtqDequantise a s
  | .fadd a => execFadd a s
  | .faddIm a => execFaddIm a s
  | .fsub a => execFsub a s
  | .fsubIm a => execFsubIm a s
  | .fmul a => execFmul a s
  | .fmulIm a => execFmulIm a s
  | .ffma a => execFfma a s
  | .fmin a => execFmin a s
  | .fminIm a => execFminIm a s
  | .fmax a => execFmax a s
  | .fmaxIm a => execFmaxIm a s
  | .fdiv a => execFdiv a s
  | .fsqrt a => execFsqrt a s
  | .frcp a => execFrcp a s
  | .fexp2 a => execFexp2 a s
  | .flog2 a => execFlog2 a s
  | .hadd2 a b => execHadd2 a b s
  | .hmul2 a b => execHmul2 a b s
  | .hfma2 a b => execHfma2 a b s
  | .dadd a => execDadd a s
  | .dsub a => execDsub a s
  | .dmul a => execDmul a s
  | .dfma a => execDfma a s
  | .dmin a => execDmin a s
  | .dmax a => execDmax a s
  | .ddiv a => execDdiv a s
  | .dsqrt a => execDsqrt a s
  | .tagrd a => execTagrd a s
  | .tagwr a => execTagwr a s
  | .psig a b => execPsig a b s
  | .bra a => execBra a s
  | .call a => execCall a s
  | .brx a => execBrx a s
  | .ret a => execRet a s
  | .exit a => execExit a s
  | .halt a => execHalt a s
  | .nop a => execNop a s
  | .fewait a => execFewait a s
  | .feset a => execFeset a s
  | .feclr a => execFeclr a s
  | .rgrow a => execRgrow a s
  | .rshr a => execRshr a s
  | .trap a => execTrap a s
  | .eretRestart a => execEretRestart a s
  | .eretSkip a => execEretSkip a s
  | .crd a => execCrd a s
  | .cwr a => execCwr a s
  | .lshf a => execLshf a s
  | .lbc a => execLbc a s
  | .lvote a => execLvote a s
  | .lscan a => execLscan a s
  | .lred a => execLred a s
  | .lelect a => execLelect a s
  | .lpc a => execLpc a s
  | .barSync a => execBarSync a s
  | .barArv a => execBarArv a s
  | .barWait a => execBarWait a s
  | .topki a => execTopki a s
  | .rng a => execRng a s
  | .ld a => execLd a s
  | .st a => execSt a s
  | .pref a => execPref a s
  | .brld a => execBrld a s
  | .brmk a => execBrmk a s
  | .lds a => execLds a s
  | .sts a => execSts a s
  | .ldw a => execLdw a s
  | .ldt a => execLdt a s
  | .rdm a => execRdm a s
  | .tkdrop a => execTkdrop a s
  | .atomAdd a => execAtomAdd a s
  | .atomUmin a => execAtomUmin a s
  | .atomUmax a => execAtomUmax a s
  | .atomSmin a => execAtomSmin a s
  | .atomSmax a => execAtomSmax a s
  | .atomAnd a => execAtomAnd a s
  | .atomOr a => execAtomOr a s
  | .atomXor a => execAtomXor a s
  | .atomExch a => execAtomExch a s
  | .atomCas a => execAtomCas a s
  | .xredFp32 a => execXredFp32 a s
  | .xredFp64 a => execXredFp64 a s
  | .xrdFp32 a => execXrdFp32 a s
  | .xrdFp64 a => execXrdFp64 a s
  | .expq a => execExpq a s
  | .fence a => execFence a s
  | .lnwait a => execLnwait a s
  | .lnset a => execLnset a s
  | .lnclr a => execLnclr a s
  | .spl a => execSpl a s
  | .fil a => execFil a s
  | .cpy a => execCpy a s
  | .cpyc a => execCpyc a s
  | .wpwait a => execWpwait a s
  | .talloc a => execTalloc a s
  | .tfree a => execTfree a s
  | .tzero a => execTzero a s
  | .tld a => execTld a s
  | .tlr a => execTlr a s
  | .tst a => execTst a s
  | .tinfo a => execTinfo a s
  | .twait a => execTwait a s
  | .tmul a => execTmul a s
  | .tadd a => execTadd a s
  | .trnd a => execTrnd a s
  | .tdns a => execTdns a s
  | .tfac a => execTfac a s
  | .ttrs a => execTtrs a s
  | .coll a => execColl a s
  | .launch a => execLaunch a s
  | .evsig a => execEvsig a s
  | .evwait a => execEvwait a s
  | .seqcm a => execSeqcm a s
  | .seqcmT a => execSeqcmT a s
  | .seqcf a => execSeqcf a s
  | .seqfn a => execSeqfn a s
  | .seqrdNext a => execSeqrdNext a s
  | .seqrdPeek a => execSeqrdPeek a s
  | .seqrdTrap a => execSeqrdTrap a s
  | .seqwpEnt a => execSeqwpEnt a s
  | .seqwpCtr a => execSeqwpCtr a s
  | .seqwpInit a => execSeqwpInit a s
  | .seqwpNrec a => execSeqwpNrec a s
  | .seqrelGo a => execSeqrelGo a s
  | .seqrelStop a => execSeqrelStop a s
  | .seqrelFree a => execSeqrelFree a s
  | .mst a => execMst a s
  | .rld a => execRld a s
  | .dharv a => execDharv a s
  | .tlbinvPage a => execTlbinvPage a s
  | .tlbinvCtx a => execTlbinvCtx a s
  | .tlbinvAll a => execTlbinvAll a s
  | .dbgbrkHalt a => execDbgbrkHalt a s
  | .dbgbrkResume a => execDbgbrkResume a s
  | .dbgbrkStep a => execDbgbrkStep a s
  | .dbgbrkBack a => execDbgbrkBack a s
  | .dbgbrkBrk a => execDbgbrkBrk a s
  | .dbgbrkClr a => execDbgbrkClr a s
  | .dbgbrkDbg a => execDbgbrkDbg a s
  | _ => .next s

/-- The team in slot `sl` of core `c`, as if it held its issue slot. -/
def asHolder (s : State) (c sl : Nat) (t : Team) : State :=
  let i := getISlot s c (islotOf t)
  { setISlot (setTeam s c sl { t with blocked := false }) c (islotOf t) { i with holder := some sl } with turn := (c, islotOf t) }
/-- Whether an outcome shows that the team's instruction did not wait: it retired, trapped, or was taken to wait for its own condition. -/
def progressed (c sl : Nat) (t : Team) (o : Host.Outcome State Fault Refusal) : Bool :=
  match o with
  | .next s =>
    match getTeam s c sl with
    | none => true
    | some u => !u.blocked || (!t.posted && u.posted)
  | _ => false
/-- Whether a team is ready (R164): the instruction at its issue address would pass step 4 of R37 without waiting, or would post what it
then waits for. Teams of a context that is suspending or resetting are not granted (R379). -/
def ready (s : State) (c sl : Nat) (t : Team) : Bool :=
  let s1 := asHolder s c sl t
  ctxActive s t.ctx &&
  match fetchFor s1 c t with
  | .wait => false
  | .illegal .. | .world => true
  | .ok i w s2 => progressed c sl t (runInstr i (setTeam s2 c sl { t with word := w, blocked := false }))
/-- The resident teams of an issue slot in the order of rank keys, ties to the lower resident slot (R167). -/
def ranked (s : State) (c isl : Nat) : List (Nat × Team) :=
  sortBy (fun a b => decide (a.2.key < b.2.key)) ((getCore s c).teams.filter fun e => islotOf e.2 == isl)
/-- TENURE_GRANT (R18, R165, R167): a free issue slot grants the ready team with the smallest key; a gated one does not, and
Gait counts it. In debug mode the granted team's undo area takes what it has logged (R390). -/
def execTenureGrant (core isl : Nat) (s : State) : Host.Outcome State Fault Refusal :=
  let i := getISlot s core isl
  if i.holder.isSome || decide (Config.cores ≤ core) || decide (4 ≤ isl) then .next s
  else if s.gated then .next (tally s core 6 1)
  else
    match (ranked s core isl).find? fun e => ready s core e.1 e.2 with
    | some e =>
      let s1 := flushUndo s core e.1
      .next (setISlot (updTeam s1 core e.1 fun t => { t with blocked := false }) core isl { i with holder := some e.1 })
    | none => .next (tally s core 5 1)

/-! ### The histogram engine (R459) -/

/-- Barrier, event, engine and Bridle instructions. -/
def unitInstr : Instr → Bool
  | .barSync .. | .barArv .. | .barWait .. | .evsig .. | .evwait .. | .cpy .. | .cpyc .. | .wpwait .. | .talloc .. | .tfree .. | .tzero ..
  | .tld .. | .tlr .. | .tst .. | .tinfo .. | .twait .. | .tmul .. | .tadd .. | .trnd .. | .tdns .. | .tfac .. | .ttrs .. | .coll ..
  | .launch .. | .seqcm .. | .seqcmT .. | .seqcf .. | .seqfn .. | .seqrdNext .. | .seqrdPeek .. | .seqrdTrap .. | .seqwpEnt ..
  | .seqwpCtr .. | .seqwpInit .. | .seqwpNrec .. | .seqrelGo .. | .seqrelStop .. | .seqrelFree .. => true
  | _ => false
/-- The reason of a sample: 0 issuing, 1 an empty element or line, 2 a barrier, event, engine or Bridle instruction, 3 not granted. -/
def reasonOf (s : State) (c isl : Nat) (e : Nat × Team) : Nat :=
  if (getISlot s c isl).holder == some e.1 then 0
  else if ready s c e.1 e.2 then 3
  else
    match e.2.hold with
    | some h => (match h.kind with | .barrier .. => 2 | _ => 1)
    | none => (match fetchFor s c e.2 with | .ok i .. => if unitInstr i then 2 else 1 | _ => 1)
/-- Once every 64 clocks, the resident team of the watched context with the smallest key whose issue address lies in the range is sampled. A
halted team waits for none of the four reasons. -/
def sampleSlot (s : State) (core isl : Nat) : State :=
  let h := s.hist
  if s.gait.frozen || s.clock % 64 != 0 || nget h.last (4 * core + isl) == some s.clock then s
  else
    match (ranked s core isl).find? fun e =>
        e.2.ctx == h.ctx && !e.2.halted && e.2.live != 0 && decide (h.start ≤ (issueAddr e.2).toNat) with
    | none => s
    | some e =>
      let k := 4 * min (((issueAddr e.2).toNat - h.start) / 2 ^ h.shift) 1023 + reasonOf s core isl e
      { s with hist := { h with
        bins := nset h.bins k (min (ngetD 0 h.bins k + 1) (2 ^ 32 - 1)), last := nset h.last (4 * core + isl) s.clock } }
/-- HISTOGRAM_SAMPLE (R459). -/
def execHistogramSample (core isl : Nat) (s : State) : Host.Outcome State Fault Refusal := .next (sampleSlot s core isl)

end Sys2Proof.Machine
end

