-- ==== Sys2Proof/Machine/Dispatch.lean ====
section
/-! DEFINITION. The dispatch of every instruction and event to its meaning. -/

namespace Sys2Proof.Machine

/-- One instruction or event. -/
def exec (i : Instr) (s : State) : Host.Outcome State Fault Refusal :=
  match i with
  | .iadd a b => Sys2Proof.Machine.execIadd a b s
  | .iaddIm a b => Sys2Proof.Machine.execIaddIm a b s
  | .isub a b => Sys2Proof.Machine.execIsub a b s
  | .isubIm a b => Sys2Proof.Machine.execIsubIm a b s
  | .imul a b => Sys2Proof.Machine.execImul a b s
  | .imulIm a b => Sys2Proof.Machine.execImulIm a b s
  | .imulh a b => Sys2Proof.Machine.execImulh a b s
  | .imad a b => Sys2Proof.Machine.execImad a b s
  | .idiv a b => Sys2Proof.Machine.execIdiv a b s
  | .irem a b => Sys2Proof.Machine.execIrem a b s
  | .imin a b => Sys2Proof.Machine.execImin a b s
  | .iminIm a b => Sys2Proof.Machine.execIminIm a b s
  | .imax a b => Sys2Proof.Machine.execImax a b s
  | .imaxIm a b => Sys2Proof.Machine.execImaxIm a b s
  | .iabs a b => Sys2Proof.Machine.execIabs a b s
  | .and a b => Sys2Proof.Machine.execAnd a b s
  | .andIm a b => Sys2Proof.Machine.execAndIm a b s
  | .or a b => Sys2Proof.Machine.execOr a b s
  | .orIm a b => Sys2Proof.Machine.execOrIm a b s
  | .xor a b => Sys2Proof.Machine.execXor a b s
  | .xorIm a b => Sys2Proof.Machine.execXorIm a b s
  | .andn a b => Sys2Proof.Machine.execAndn a b s
  | .andnIm a b => Sys2Proof.Machine.execAndnIm a b s
  | .shl a b => Sys2Proof.Machine.execShl a b s
  | .shlIm a b => Sys2Proof.Machine.execShlIm a b s
  | .shr a b => Sys2Proof.Machine.execShr a b s
  | .shrIm a b => Sys2Proof.Machine.execShrIm a b s
  | .sar a b => Sys2Proof.Machine.execSar a b s
  | .sarIm a b => Sys2Proof.Machine.execSarIm a b s
  | .rol a b => Sys2Proof.Machine.execRol a b s
  | .rolIm a b => Sys2Proof.Machine.execRolIm a b s
  | .popc a b => Sys2Proof.Machine.execPopc a b s
  | .clz a b => Sys2Proof.Machine.execClz a b s
  | .brev a b => Sys2Proof.Machine.execBrev a b s
  | .bfx a b => Sys2Proof.Machine.execBfx a b s
  | .bfi a b => Sys2Proof.Machine.execBfi a b s
  | .sel a b => Sys2Proof.Machine.execSel a b s
  | .mov a b => Sys2Proof.Machine.execMov a b s
  | .movi a b => Sys2Proof.Machine.execMovi a b s
  | .movh a b => Sys2Proof.Machine.execMovh a b s
  | .icmp a b c d => Sys2Proof.Machine.execIcmp a b c d s
  | .icmpIm a b c d => Sys2Proof.Machine.execIcmpIm a b c d s
  | .fcmp a b c => Sys2Proof.Machine.execFcmp a b c s
  | .pset a => Sys2Proof.Machine.execPset a s
  | .pmov a => Sys2Proof.Machine.execPmov a s
  | .fclass a b => Sys2Proof.Machine.execFclass a b s
  | .cvt a b c => Sys2Proof.Machine.execCvt a b c s
  | .cvtqQuantise a => Sys2Proof.Machine.execCvtqQuantise a s
  | .cvtqDequantise a => Sys2Proof.Machine.execCvtqDequantise a s
  | .fadd a => Sys2Proof.Machine.execFadd a s
  | .faddIm a => Sys2Proof.Machine.execFaddIm a s
  | .fsub a => Sys2Proof.Machine.execFsub a s
  | .fsubIm a => Sys2Proof.Machine.execFsubIm a s
  | .fmul a => Sys2Proof.Machine.execFmul a s
  | .fmulIm a => Sys2Proof.Machine.execFmulIm a s
  | .ffma a => Sys2Proof.Machine.execFfma a s
  | .fmin a => Sys2Proof.Machine.execFmin a s
  | .fminIm a => Sys2Proof.Machine.execFminIm a s
  | .fmax a => Sys2Proof.Machine.execFmax a s
  | .fmaxIm a => Sys2Proof.Machine.execFmaxIm a s
  | .fdiv a => Sys2Proof.Machine.execFdiv a s
  | .fsqrt a => Sys2Proof.Machine.execFsqrt a s
  | .frcp a => Sys2Proof.Machine.execFrcp a s
  | .fexp2 a => Sys2Proof.Machine.execFexp2 a s
  | .flog2 a => Sys2Proof.Machine.execFlog2 a s
  | .hadd2 a b => Sys2Proof.Machine.execHadd2 a b s
  | .hmul2 a b => Sys2Proof.Machine.execHmul2 a b s
  | .hfma2 a b => Sys2Proof.Machine.execHfma2 a b s
  | .dadd a => Sys2Proof.Machine.execDadd a s
  | .dsub a => Sys2Proof.Machine.execDsub a s
  | .dmul a => Sys2Proof.Machine.execDmul a s
  | .dfma a => Sys2Proof.Machine.execDfma a s
  | .dmin a => Sys2Proof.Machine.execDmin a s
  | .dmax a => Sys2Proof.Machine.execDmax a s
  | .ddiv a => Sys2Proof.Machine.execDdiv a s
  | .dsqrt a => Sys2Proof.Machine.execDsqrt a s
  | .tagrd a => Sys2Proof.Machine.execTagrd a s
  | .tagwr a => Sys2Proof.Machine.execTagwr a s
  | .psig a b => Sys2Proof.Machine.execPsig a b s
  | .bra a => Sys2Proof.Machine.execBra a s
  | .call a => Sys2Proof.Machine.execCall a s
  | .brx a => Sys2Proof.Machine.execBrx a s
  | .ret a => Sys2Proof.Machine.execRet a s
  | .exit a => Sys2Proof.Machine.execExit a s
  | .halt a => Sys2Proof.Machine.execHalt a s
  | .nop a => Sys2Proof.Machine.execNop a s
  | .fewait a => Sys2Proof.Machine.execFewait a s
  | .feset a => Sys2Proof.Machine.execFeset a s
  | .feclr a => Sys2Proof.Machine.execFeclr a s
  | .rgrow a => Sys2Proof.Machine.execRgrow a s
  | .rshr a => Sys2Proof.Machine.execRshr a s
  | .trap a => Sys2Proof.Machine.execTrap a s
  | .eretRestart a => Sys2Proof.Machine.execEretRestart a s
  | .eretSkip a => Sys2Proof.Machine.execEretSkip a s
  | .crd a => Sys2Proof.Machine.execCrd a s
  | .cwr a => Sys2Proof.Machine.execCwr a s
  | .lshf a => Sys2Proof.Machine.execLshf a s
  | .lbc a => Sys2Proof.Machine.execLbc a s
  | .lvote a => Sys2Proof.Machine.execLvote a s
  | .lscan a => Sys2Proof.Machine.execLscan a s
  | .lred a => Sys2Proof.Machine.execLred a s
  | .lelect a => Sys2Proof.Machine.execLelect a s
  | .lpc a => Sys2Proof.Machine.execLpc a s
  | .barSync a => Sys2Proof.Machine.execBarSync a s
  | .barArv a => Sys2Proof.Machine.execBarArv a s
  | .barWait a => Sys2Proof.Machine.execBarWait a s
  | .topki a => Sys2Proof.Machine.execTopki a s
  | .rng a => Sys2Proof.Machine.execRng a s
  | .ld a => Sys2Proof.Machine.execLd a s
  | .st a => Sys2Proof.Machine.execSt a s
  | .pref a => Sys2Proof.Machine.execPref a s
  | .brld a => Sys2Proof.Machine.execBrld a s
  | .brmk a => Sys2Proof.Machine.execBrmk a s
  | .lds a => Sys2Proof.Machine.execLds a s
  | .sts a => Sys2Proof.Machine.execSts a s
  | .ldw a => Sys2Proof.Machine.execLdw a s
  | .ldt a => Sys2Proof.Machine.execLdt a s
  | .rdm a => Sys2Proof.Machine.execRdm a s
  | .tkdrop a => Sys2Proof.Machine.execTkdrop a s
  | .atomAdd a => Sys2Proof.Machine.execAtomAdd a s
  | .atomUmin a => Sys2Proof.Machine.execAtomUmin a s
  | .atomUmax a => Sys2Proof.Machine.execAtomUmax a s
  | .atomSmin a => Sys2Proof.Machine.execAtomSmin a s
  | .atomSmax a => Sys2Proof.Machine.execAtomSmax a s
  | .atomAnd a => Sys2Proof.Machine.execAtomAnd a s
  | .atomOr a => Sys2Proof.Machine.execAtomOr a s
  | .atomXor a => Sys2Proof.Machine.execAtomXor a s
  | .atomExch a => Sys2Proof.Machine.execAtomExch a s
  | .atomCas a => Sys2Proof.Machine.execAtomCas a s
  | .xredFp32 a => Sys2Proof.Machine.execXredFp32 a s
  | .xredFp64 a => Sys2Proof.Machine.execXredFp64 a s
  | .xrdFp32 a => Sys2Proof.Machine.execXrdFp32 a s
  | .xrdFp64 a => Sys2Proof.Machine.execXrdFp64 a s
  | .expq a => Sys2Proof.Machine.execExpq a s
  | .fence a => Sys2Proof.Machine.execFence a s
  | .lnwait a => Sys2Proof.Machine.execLnwait a s
  | .lnset a => Sys2Proof.Machine.execLnset a s
  | .lnclr a => Sys2Proof.Machine.execLnclr a s
  | .spl a => Sys2Proof.Machine.execSpl a s
  | .fil a => Sys2Proof.Machine.execFil a s
  | .cpy a => Sys2Proof.Machine.execCpy a s
  | .cpyc a => Sys2Proof.Machine.execCpyc a s
  | .wpwait a => Sys2Proof.Machine.execWpwait a s
  | .talloc a => Sys2Proof.Machine.execTalloc a s
  | .tfree a => Sys2Proof.Machine.execTfree a s
  | .tzero a => Sys2Proof.Machine.execTzero a s
  | .tld a => Sys2Proof.Machine.execTld a s
  | .tlr a => Sys2Proof.Machine.execTlr a s
  | .tst a => Sys2Proof.Machine.execTst a s
  | .tinfo a => Sys2Proof.Machine.execTinfo a s
  | .twait a => Sys2Proof.Machine.execTwait a s
  | .tmul a => Sys2Proof.Machine.execTmul a s
  | .tadd a => Sys2Proof.Machine.execTadd a s
  | .trnd a => Sys2Proof.Machine.execTrnd a s
  | .tdns a => Sys2Proof.Machine.execTdns a s
  | .tfac a => Sys2Proof.Machine.execTfac a s
  | .ttrs a => Sys2Proof.Machine.execTtrs a s
  | .coll a => Sys2Proof.Machine.execColl a s
  | .launch a => Sys2Proof.Machine.execLaunch a s
  | .evsig a => Sys2Proof.Machine.execEvsig a s
  | .evwait a => Sys2Proof.Machine.execEvwait a s
  | .seqcm a => Sys2Proof.Machine.execSeqcm a s
  | .seqcmT a => Sys2Proof.Machine.execSeqcmT a s
  | .seqcf a => Sys2Proof.Machine.execSeqcf a s
  | .seqfn a => Sys2Proof.Machine.execSeqfn a s
  | .seqrdNext a => Sys2Proof.Machine.execSeqrdNext a s
  | .seqrdPeek a => Sys2Proof.Machine.execSeqrdPeek a s
  | .seqrdTrap a => Sys2Proof.Machine.execSeqrdTrap a s
  | .seqwpEnt a => Sys2Proof.Machine.execSeqwpEnt a s
  | .seqwpCtr a => Sys2Proof.Machine.execSeqwpCtr a s
  | .seqwpInit a => Sys2Proof.Machine.execSeqwpInit a s
  | .seqwpNrec a => Sys2Proof.Machine.execSeqwpNrec a s
  | .seqrelGo a => Sys2Proof.Machine.execSeqrelGo a s
  | .seqrelStop a => Sys2Proof.Machine.execSeqrelStop a s
  | .seqrelFree a => Sys2Proof.Machine.execSeqrelFree a s
  | .mst a => Sys2Proof.Machine.execMst a s
  | .rld a => Sys2Proof.Machine.execRld a s
  | .dharv a => Sys2Proof.Machine.execDharv a s
  | .tlbinvPage a => Sys2Proof.Machine.execTlbinvPage a s
  | .tlbinvCtx a => Sys2Proof.Machine.execTlbinvCtx a s
  | .tlbinvAll a => Sys2Proof.Machine.execTlbinvAll a s
  | .dbgbrkHalt a => Sys2Proof.Machine.execDbgbrkHalt a s
  | .dbgbrkResume a => Sys2Proof.Machine.execDbgbrkResume a s
  | .dbgbrkStep a => Sys2Proof.Machine.execDbgbrkStep a s
  | .dbgbrkBack a => Sys2Proof.Machine.execDbgbrkBack a s
  | .dbgbrkBrk a => Sys2Proof.Machine.execDbgbrkBrk a s
  | .dbgbrkClr a => Sys2Proof.Machine.execDbgbrkClr a s
  | .dbgbrkDbg a => Sys2Proof.Machine.execDbgbrkDbg a s
  | .tenureGrant a b => Sys2Proof.Machine.execTenureGrant a b s
  | .loadDataArrival a => Sys2Proof.Machine.execLoadDataArrival a s
  | .ldsDataArrival a => Sys2Proof.Machine.execLdsDataArrival a s
  | .cvtqScaleArrival a => Sys2Proof.Machine.execCvtqScaleArrival a s
  | .ldtTicketAllocated a b => Sys2Proof.Machine.execLdtTicketAllocated a b s
  | .ticketDataArrival a b => Sys2Proof.Machine.execTicketDataArrival a b s
  | .ticketLifetimeExpiry a b => Sys2Proof.Machine.execTicketLifetimeExpiry a b s
  | .redeemMatch a => Sys2Proof.Machine.execRedeemMatch a s
  | .rdmVerdictReturn a => Sys2Proof.Machine.execRdmVerdictReturn a s
  | .rdmDataDelivery a => Sys2Proof.Machine.execRdmDataDelivery a s
  | .sliceRmwPerform a => Sys2Proof.Machine.execSliceRmwPerform a s
  | .exactContribution a => Sys2Proof.Machine.execExactContribution a s
  | .xrdReadoutArrival a => Sys2Proof.Machine.execXrdReadoutArrival a s
  | .queueAppend a => Sys2Proof.Machine.execQueueAppend a s
  | .filImageArrival a => Sys2Proof.Machine.execFilImageArrival a s
  | .rldReadoutArrival a => Sys2Proof.Machine.execRldReadoutArrival a s
  | .seqReply a => Sys2Proof.Machine.execSeqReply a s
  | .launchTaken a => Sys2Proof.Machine.execLaunchTaken a s
  | .barrierPhaseComplete a b c d e => Sys2Proof.Machine.execBarrierPhaseComplete a b c d e s
  | .rgrowGrant a => Sys2Proof.Machine.execRgrowGrant a s
  | .rgrowDeny a => Sys2Proof.Machine.execRgrowDeny a s
  | .trapDelivery a b => Sys2Proof.Machine.execTrapDelivery a b s
  | .faultRecordWrite a => Sys2Proof.Machine.execFaultRecordWrite a s
  | .ackRead a => Sys2Proof.Machine.execAckRead a s
  | .replay a b => Sys2Proof.Machine.execReplay a b s
  | .watchdogExpiry a => Sys2Proof.Machine.execWatchdogExpiry a s
  | .promotionRequest a b => Sys2Proof.Machine.execPromotionRequest a b s
  | .releaseRecordEvict a => Sys2Proof.Machine.execReleaseRecordEvict a s
  | .weightStoreRefresh => Sys2Proof.Machine.execWeightStoreRefresh s
  | .copyCommandStart a b => Sys2Proof.Machine.execCopyCommandStart a b s
  | .cpycCommandStart a b => Sys2Proof.Machine.execCpycCommandStart a b s
  | .copyLineLands a b => Sys2Proof.Machine.execCopyLineLands a b s
  | .copyCommandEnd a b => Sys2Proof.Machine.execCopyCommandEnd a b s
  | .tileOpStart a b => Sys2Proof.Machine.execTileOpStart a b s
  | .tileOpCommit a b => Sys2Proof.Machine.execTileOpCommit a b s
  | .remoteTileServe a b c => Sys2Proof.Machine.execRemoteTileServe a b c s
  | .multicastDelivery a b c => Sys2Proof.Machine.execMulticastDelivery a b c s
  | .multicastBufferDrain a => Sys2Proof.Machine.execMulticastBufferDrain a s
  | .collJoin a b c => Sys2Proof.Machine.execCollJoin a b c s
  | .joinLimitExpiry a b c => Sys2Proof.Machine.execJoinLimitExpiry a b c s
  | .zephyrChunkLands a b c d e f g => Sys2Proof.Machine.execZephyrChunkLands a b c d e f g s
  | .zephyrReadout a b c => Sys2Proof.Machine.execZephyrReadout a b c s
  | .collComplete a b => Sys2Proof.Machine.execCollComplete a b s
  | .seqCommitEval a => Sys2Proof.Machine.execSeqCommitEval a s
  | .seqTentativeEval a => Sys2Proof.Machine.execSeqTentativeEval a s
  | .seqConfirmation a => Sys2Proof.Machine.execSeqConfirmation a s
  | .bridleRecordFetch a => Sys2Proof.Machine.execBridleRecordFetch a s
  | .queueTailRead a b => Sys2Proof.Machine.execQueueTailRead a b s
  | .queueReset a b => Sys2Proof.Machine.execQueueReset a b s
  | .launchStart a b => Sys2Proof.Machine.execLaunchStart a b s
  | .launchComplete a b => Sys2Proof.Machine.execLaunchComplete a b s
  | .droverPlacement a => Sys2Proof.Machine.execDroverPlacement a s
  | .steal a b c => Sys2Proof.Machine.execSteal a b c s
  | .contextCreate a b => Sys2Proof.Machine.execContextCreate a b s
  | .contextTeardown a => Sys2Proof.Machine.execContextTeardown a s
  | .preemptRequest a b c => Sys2Proof.Machine.execPreemptRequest a b c s
  | .drainDeadlineExpiry a b => Sys2Proof.Machine.execDrainDeadlineExpiry a b s
  | .suspensionComplete a => Sys2Proof.Machine.execSuspensionComplete a s
  | .suspendDeadlineExpiry a => Sys2Proof.Machine.execSuspendDeadlineExpiry a s
  | .contextReset a => Sys2Proof.Machine.execContextReset a s
  | .contextRestore a => Sys2Proof.Machine.execContextRestore a s
  | .debugStopReached a b => Sys2Proof.Machine.execDebugStopReached a b s
  | .portFailure a => Sys2Proof.Machine.execPortFailure a s
  | .routeTableRebuild a b => Sys2Proof.Machine.execRouteTableRebuild a b s
  | .communicatorRebuild a b c => Sys2Proof.Machine.execCommunicatorRebuild a b c s
  | .dieLinkFailure a => Sys2Proof.Machine.execDieLinkFailure a s
  | .leaseRequest a b c => Sys2Proof.Machine.execLeaseRequest a b c s
  | .leaseRecall a b c => Sys2Proof.Machine.execLeaseRecall a b c s
  | .poisonConsumed a b => Sys2Proof.Machine.execPoisonConsumed a b s
  | .thermalTrip a => Sys2Proof.Machine.execThermalTrip a s
  | .coldStart a b => Sys2Proof.Machine.execColdStart a b s
  | .warmStart a b => Sys2Proof.Machine.execWarmStart a b s
  | .attestationRequest a => Sys2Proof.Machine.execAttestationRequest a s
  | .powerCapSet a => Sys2Proof.Machine.execPowerCapSet a s
  | .dumpRead a b => Sys2Proof.Machine.execDumpRead a b s
  | .valid => Sys2Proof.Machine.execValid s
  | .firmwareStaging a b c => Sys2Proof.Machine.execFirmwareStaging a b c s
  | .worldReassignment a b c => Sys2Proof.Machine.execWorldReassignment a b c s
  | .classTableWrite a b => Sys2Proof.Machine.execClassTableWrite a b s
  | .peerWindowWrite a b c => Sys2Proof.Machine.execPeerWindowWrite a b c s
  | .gaitTick => Sys2Proof.Machine.execGaitTick s
  | .histogramSample a b => Sys2Proof.Machine.execHistogramSample a b s
  | .issueGating a => Sys2Proof.Machine.execIssueGating a s
  | .translationFault a => Sys2Proof.Machine.execTranslationFault a s
  | .writePerformed a => Sys2Proof.Machine.execWritePerformed a s
  | .eventAdd a => Sys2Proof.Machine.execEventAdd a s
  | .tlbEviction a b => Sys2Proof.Machine.execTlbEviction a b s
  | .uncorrectableError a => Sys2Proof.Machine.execUncorrectableError a s
  | .firmwareCheckFailure => Sys2Proof.Machine.execFirmwareCheckFailure s
  | .peerAccessAtTarget a b c d e => Sys2Proof.Machine.execPeerAccessAtTarget a b c d e s
  | .debugPortAccess a => Sys2Proof.Machine.execDebugPortAccess a s

end Sys2Proof.Machine
end

