-- ==== Sys2Proof/Machine/Step.lean ====
section
/-! DEFINITION. One step of the machine, and the placing of an instruction word. -/

namespace Sys2Proof.Machine

/-- An issue of the issue slot whose turn it is (R156, R163): the instruction at the team's issue address. -/
def issueStep (s : State) : Host.Outcome State Fault Refusal :=
  match curTeam s with
  | none => .next s
  | some (c, sl, t) =>
    match fetchFor s c t with
    | .wait => .next (waitTeam s c sl t)
    | .illegal rgn s1 => .next (raiseTrap s1 c sl t { trapAt 1 (issueAddr t) (executing t) with rgn := rgn && !t.closed })
    | .world => .next (raiseTrap s c sl t (trapAt 13 (issueAddr t) (executing t)))
    | .ok i w s1 => exec i (setTeam s1 c sl { t with word := w })

/-- One step: the next move of the agenda, or, with an empty agenda, an issue of the slot whose turn it is. -/
def step (s : State) : Host.Outcome State Fault Refusal :=
  match s.agenda with
  | (clk, .event i) :: rest =>
    let s1 := { s with agenda := rest, clock := max s.clock clk }
    if serves s1 i then exec i s1 else .next s1
  | (clk, .issue c isl) :: rest =>
    let s1 := { s with agenda := rest, clock := max s.clock clk, turn := (c, isl) }
    if s.ctl.mode = .running then issueStep s1 else .next s1
  | [] => if s.ctl.mode = .running then issueStep s else .next s

/-- The word `w`, with bits above `nbits` zero, where the next step fetches. Log entry 7. -/
def State.withFetchWord (s : State) (nbits w : Nat) : State := placeWord s (bytesOfWord (w % 2 ^ (min nbits 96)))

end Sys2Proof.Machine
end

