-- ==== Sys2Proof/Safety.lean ====
section
/-! DEFINITION. The terms in which claims are stated: when a team can issue an instruction (R37, R156), when its operands are
ready, and what an instruction leaves as it was. -/

namespace Sys2Proof.Safety

open Sys2Proof.Machine

/-! ### An instruction that can issue -/

/-- The active lanes of an instruction of team `t` with guard `h` (R37 step 2). -/
def active (t : Team) (h : Head) : Mask :=
  executing t &&& (if h.gn then ~~~ (getP t h.gp.toNat).val else (getP t h.gp.toNat).val)
/-- The team after step 2 of R37: a region entry with RGN = 1 or after a return from a trap (R38, R371). -/
def entered (s : State) (t : Team) (h : Head) : Team := enterRegion t (getCtx s t.ctx).debug (issueAddr t) h.rgn
/-- The team in slot `sl` of core `c` holds the issue slot whose turn it is, nothing holds it back, its guard is full, and
some lane is active (R37, R156, R164, R392). -/
structure CanIssue (s : State) (c sl : Nat) (t : Team) (h : Head) : Prop where
  turn : curTeam s = some (c, sl, t)
  running : t.halted = false
  free : t.hold = none
  noTrap : t.trap = none
  live : t.live ≠ 0
  noStop : atStop t = false ∧ atStop (entered s t h) = false
  guardFull : executing t &&& ~~~ (getP t h.gp.toNat).full = 0
  some : active t h ≠ 0
/-- The head of an instruction's fields. -/
def headOf : Body → Head
  | .rg x => x.h
  | .im x => x.h
  | .mm x => x.h
  | .en x => x.h
  | .br x => x.h
/-- What the body of that instruction works on. -/
def issueOf (s : State) (c sl : Nat) (t : Team) (h : Head) : Issue :=
  ⟨{ setTeam s c sl (entered s t h) with nextId := s.nextId + 1 }, c, sl, entered s t h, issueAddr t, executing t, active t h, h,
    s.nextId⟩
/-- The state after step 8 of an instruction whose steps 5 to 7 gave `s'`: its lanes are at PC + 1. -/
def retired (i : Issue) (closes : Bool) (s' : State) : State :=
  retire s' i.core i.slot i.pc i.exec i.act i.head closes false false fun _ => i.pc + 1
/-- Sources are full and destinations are full and not held (R37 steps 3 and 4) in every active lane. -/
structure Ready (i : Issue) (srcs : List Rd) (dsts : List (Opd × Bool)) : Prop where
  src : ∀ r ∈ srcs, ∀ l ∈ lanesOf i.act, (r.at_ l).full = true
  dst : ∀ d ∈ dsts, ∀ l ∈ lanesOf i.act, dstFree i.t d.1 d.2 l = true

/-! ### Frames -/

/-- Whether `d` names lane register `n`, as one element or as part of a pair (R24). -/
def namesV (d : Opd) (pair : Bool) (n : Nat) : Bool :=
  match d with
  | .v k => n == k.toNat || (pair && n == k.toNat + 1)
  | _ => false
/-- Whether `d` names scalar `n`. -/
def namesS (d : Opd) (n : Nat) : Bool := match d with | .s k => n == k.toNat | _ => false
/-- Whether `d` names predicate `n`. -/
def namesP (d : Opd) (n : Nat) : Bool := match d with | .p k => n == k.toNat | _ => false
/-- Every register element that is not one of destination `d` in a lane of `m` is unchanged: value, F/E bit and tag. -/
structure SameRegs (t u : Team) (d : Opd) (pair : Bool) (m : Mask) : Prop where
  v : ∀ n l, l < 32 → (namesV d pair n && inMask m l) = false → getV u n l = getV t n l
  s : ∀ n, namesS d n = false → getS u n = getS t n
  p : ∀ n l, l < 32 → (namesP d n && inMask m l) = false →
    inMask (getP u n).val l = inMask (getP t n).val l ∧ inMask (getP u n).full l = inMask (getP t n).full l
/-- The control registers that hold flags (R30): FLTSTAT, SIGSTAT, OOBCNT. -/
def SameFlags (t u : Team) : Prop := u.fltstat = t.fltstat ∧ u.sigstat = t.sigstat ∧ u.oobcnt = t.oobcnt
/-- The other control and exception registers, the buffer records, the allocation and the live lanes. -/
structure SameControl (t u : Team) : Prop where
  sigmin : u.sigmin = t.sigmin
  trapen : u.trapen = t.trapen
  trapcause : u.trapcause = t.trapcause
  trappc : u.trappc = t.trappc
  trapmask : u.trapmask = t.trapmask
  saved : u.saved = t.saved
  bufs : u.bufs = t.bufs
  alloc : u.alloc = t.alloc
  live : u.live = t.live
  place : u.tid = t.tid ∧ u.ctx = t.ctx ∧ u.seq = t.seq ∧ u.wg = t.wg ∧ u.lvl = t.lvl
  trap : u.trap = t.trap
  owed : u.owed = t.owed
/-- RGNCNT and RGNPC (R371) as the entry of the instruction leaves them, RETCNT one more (R30). -/
structure SameRegion (t u : Team) : Prop where
  rgncnt : u.rgncnt = t.rgncnt
  rgnpc : u.rgnpc = t.rgnpc
  retcnt : u.retcnt = t.retcnt + 1
/-- Every byte of memory, of the weight store, of other endpoints and of every scratchpad, every scratchpad tag and line F/E
bit is unchanged. -/
structure SameMemory (s s' : State) : Prop where
  mem : s'.mem = s.mem
  wstore : s'.wstore = s.wstore
  remote : s'.remote = s.remote
  scratch : ∀ c, (getCore s' c).bytes = (getCore s c).bytes ∧ (getCore s' c).tags = (getCore s c).tags ∧
    (getCore s' c).empty = (getCore s c).empty
/-- Requests, tickets, sequence slots, tiles and engine queues are unchanged. -/
structure SameUnits (s s' : State) : Prop where
  reqs : s'.reqs = s.reqs
  slices : s'.slices = s.slices
  seqSlots : s'.seqSlots = s.seqSlots
  wgs : ∀ c, (getCore s' c).wgs = (getCore s c).wgs
  chans : ∀ c, (getCore s' c).chans = (getCore s c).chans
  tops : ∀ c, (getCore s' c).tops = (getCore s c).tops
/-- Every other team is unchanged. -/
def SameOthers (s s' : State) (c sl : Nat) : Prop := ∀ c' sl', (c', sl') ≠ (c, sl) → getTeam s' c' sl' = getTeam s c' sl'
/-- The executing lanes stand at PC + 1; the others where they stood (R37 step 8). -/
def Advanced (t u : Team) : Prop := ∀ l < 32, getLpc u l = if inMask (executing t) l then issueAddr t + 1 else getLpc t l
/-- Active lanes `m` went to `tgt`, the other executing lanes to PC + 1 (R114). -/
def Branched (t u : Team) (m : Mask) (tgt : Nat → Word) : Prop :=
  ∀ l < 32, getLpc u l = if inMask (executing t) l then (if inMask m l then tgt l else issueAddr t + 1) else getLpc t l
/-- No register element changed. -/
def SameAllRegs (t u : Team) : Prop := (∀ n l, l < 32 → getV u n l = getV t n l) ∧ (∀ n, getS u n = getS t n) ∧ ∀ n, getP u n = getP t n

/-- What an instruction leaves that computes from registers into destination `d` of its active lanes, and does nothing else but
set flags: `t` is its team as step 2 left it. -/
structure RegisterOnly (s s' : State) (c sl : Nat) (t u : Team) (d : Opd) (pair : Bool) (m : Mask) : Prop where
  here : getTeam s' c sl = some u
  regs : SameRegs t u d pair m
  control : SameControl t u
  region : SameRegion t u
  lpc : Advanced t u
  memory : SameMemory s s'
  units : SameUnits s s'
  others : SameOthers s s' c sl

/-! ### Results -/

/-- Source A, B or C of an integer instruction in a lane, as a number of its width, M applied (R69, R105). -/
def numA (i : Issue) (x : RG) (w : Width) (l : Nat) : Nat := ival (wbits w) x.a.m ((rdA i x (isPair w)).at_ l)
def numB (i : Issue) (x : RG) (w : Width) (l : Nat) : Nat := ival (wbits w) x.b.m ((rd i x.b (isPair w)).at_ l)
def numC (i : Issue) (x : RG) (w : Width) (l : Nat) : Nat := ival (wbits w) x.c.m ((rd i x.c (isPair w)).at_ l)
/-- Source A and the immediate of an IM instruction (R74, R107). -/
def numImA (i : Issue) (x : IM) (w : Width) (l : Nat) : Nat := ival (wbits w) x.a.m ((rd i x.a (isPair w)).at_ l)
def numImm (x : IM) (w : Width) : Nat := wrap (sx x.imm.toNat 32) (wbits w)

/-- A destination that registers hold. -/
def isReg : Opd → Bool
  | .v _ | .s _ | .p _ => true
  | _ => false
/-- What a destination element reads as after `x` with tag `tag` was written: full; 32 bits zero the upper half; tags 54 to 62
become 63; a predicate keeps whether `x` is not 0, and p7 reads 1 (R24 to R26, R58, R105). -/
def written (d : Opd) (pair : Bool) (x : DWord) (tag : Tag) : Val :=
  match d with
  | .p n => if n.toNat = 7 then ⟨1, 63, true⟩ else ⟨if x != 0 then 1 else 0, 63, true⟩
  | _ => ⟨if pair then x else (x.setWidth 32).setWidth 64, regTag tag, true⟩
/-- The lane whose result lane `l` of destination `d` shows: its own, the lowest active lane for a scalar (R25). -/
def shownLane (d : Opd) (m : Mask) (l : Nat) : Nat := if isS d then lowest m else l
/-- The instruction with head `h` of team `t` completes: `out` is a next state in which destination `d` shows `val` and `tag` of
each active lane and all else is as `RegisterOnly` says, flags too. -/
def Yields (s : State) (c sl : Nat) (t : Team) (h : Head) (out : Host.Outcome State Fault Refusal) (d : Opd) (pair : Bool)
    (val : Nat → DWord) (tag : Nat → Tag) : Prop :=
  ∃ s' u, out = .next s' ∧ RegisterOnly s s' c sl (entered s t h) u d pair (active t h) ∧ SameFlags (entered s t h) u ∧
    ∀ l ∈ lanesOf (active t h), rdOpd s' u d pair l =
      written d pair (val (shownLane d (active t h) l)) (tag (shownLane d (active t h) l))
/-- The same of an FP instruction: FLTSTAT also takes the flags `fl`, and SIGSTAT[0] becomes 1 where `low` holds (R51, R63). -/
def YieldsFp (s : State) (c sl : Nat) (t : Team) (h : Head) (out : Host.Outcome State Fault Refusal) (d : Opd) (pair : Bool)
    (val : Nat → DWord) (tag : Nat → Tag) (fl : Nat) (low : Bool) : Prop :=
  ∃ s' u, out = .next s' ∧ RegisterOnly s s' c sl (entered s t h) u d pair (active t h) ∧
    u.fltstat = t.fltstat ||| BitVec.ofNat 64 fl ∧ u.sigstat = (if low then t.sigstat ||| 1 else t.sigstat) ∧ u.oobcnt = t.oobcnt ∧
    ∀ l ∈ lanesOf (active t h), rdOpd s' u d pair l =
      written d pair (val (shownLane d (active t h) l)) (tag (shownLane d (active t h) l))

/-- The condition of a comparison (R81, R111): eq, ne, lt, le, gt, ge. -/
def holds (k : Cond) (a b : Int) : Bool :=
  decide ((k = .eq ∧ a = b) ∨ (k = .ne ∧ a ≠ b) ∨ (k = .lt ∧ a < b) ∨ (k = .le ∧ a ≤ b) ∨ (k = .gt ∧ a > b) ∨ (k = .ge ∧ a ≥ b))
/-- No trap of an FP instruction is enabled for its results `r` under policy `pol`: neither ARITH nor SIG (R51, R63). -/
def NoFpTrap (t : Team) (h : Head) (pol : Nat) (r : Nat → FO) : Prop :=
  (∀ l ∈ lanesOf (active t h), (r l).fl &&& (t.trapen.toNat % 32) = 0) ∧
  (t.trapen.getLsbD 5 = false ∨ ∀ l ∈ lanesOf (active t h), sigFails pol t.sigmin (polTag pol (r l).tag) = false)
/-- The FP instruction completes with results `r` under policy `pol`. -/
def FpDone (s : State) (c sl : Nat) (t : Team) (h : Head) (out : Host.Outcome State Fault Refusal) (d : Opd) (pair : Bool)
    (pol : Nat) (r : Nat → FO) : Prop :=
  YieldsFp s c sl t h out d pair (fun l => BitVec.ofNat 64 (r l).y) (fun l => polTag pol (r l).tag)
    (foldLanes (active t h) (fun a l => a ||| (r l).fl) 0)
    ((lanesOf (active t h)).any fun l => sigFails pol t.sigmin (polTag pol (r l).tag))
/-- Launch record of team `t`. -/
def recordOf (s : State) (t : Team) : List DWord := (getLaunch s t.ctx t.seq).words

/-- The instruction completes and sends its active lanes to `tgt`; registers but destination `d`, flags, control state, memory,
units and other teams are as they were. -/
def Branches (s : State) (c sl : Nat) (t : Team) (h : Head) (out : Host.Outcome State Fault Refusal) (d : Opd) (tgt : Nat → Word)
    (s' : State) (u : Team) : Prop :=
  out = .next s' ∧ getTeam s' c sl = some u ∧ SameRegs t u d false (active t h) ∧ SameFlags t u ∧ SameControl t u ∧
  SameRegion (entered s t h) u ∧ Branched t u (active t h) tgt ∧ SameMemory s s' ∧ SameUnits s s' ∧ SameOthers s s' c sl
/-- The instruction completes with no effect but the advance of its lanes. -/
def OnlyAdvances (s : State) (c sl : Nat) (t : Team) (h : Head) (out : Host.Outcome State Fault Refusal) : Prop :=
  ∃ s' u, out = .next s' ∧ getTeam s' c sl = some u ∧ SameAllRegs t u ∧ SameFlags t u ∧ SameControl t u ∧
    SameRegion (entered s t h) u ∧ Advanced t u ∧ SameMemory s s' ∧ SameUnits s s' ∧ SameOthers s s' c sl
/-- A trap of the team in slot `sl` of core `c` can be delivered at once and has a handler (R373, R375). -/
def TrapReady (s : State) (c sl : Nat) (t : Team) (cause : BitVec 8) : Prop :=
  hasLog s c sl = false ∧ t.saved = none ∧ handlerEntry (recordOf s t) cause ≠ 0xFFFFFFFF
/-- What taking a trap leaves (R373): the control registers name it, every live lane stands at the handler's entry, the lanes' `lpc` and
s56 to s63 are saved, s56 to s63 hold the trap record, full and with tag 63 (byte `l` of its last 32 is that of lane `l`), and nothing else of
registers, memory or units changed. -/
structure TookTrap (s : State) (c sl : Nat) (t : Team) (ti : TrapInfo) (s' : State) (u : Team) : Prop where
  here : getTeam s' c sl = some u
  cause : u.trapcause = ti.cause.setWidth 64
  pc : u.trappc = ti.tpc.setWidth 64
  mask : u.trapmask = ti.mask.setWidth 64
  lpc : ∀ l < 32, getLpc u l = if inMask t.live l then BitVec.ofNat 32 (handlerEntry (recordOf s t) ti.cause) else getLpc t l
  saved : u.saved = some ⟨t.lpc, (List.range 8).map fun k => getS t (56 + k), t.rgnpc, t.rgncnt, t.retcnt, t.enter, ti.rgn⟩
  word : (getS u 56).val = BitVec.ofNat 64 (ti.cause.toNat + 2 ^ 8 * ti.detail.toNat + 2 ^ 32 * ti.opc.toNat)
  lanes : (getS u 57).val = BitVec.ofNat 64 (ti.mask.toNat + 2 ^ 32 * t.retcnt.toNat)
  count : (getS u 58).val = t.rgncnt
  info : (getS u 59).val = ti.info
  bytes : ∀ l < 32, (getS u (60 + l / 8)).val.toNat / 2 ^ (8 * (l % 8)) % 256 = (nth 0 ti.bytes l).toNat
  record : ∀ n, 56 ≤ n → n < 64 → (getS u n).full = true ∧ (getS u n).tag = 63
  regs : (∀ n l, l < 32 → getV u n l = getV t n l) ∧ (∀ n, n < 56 → getS u n = getS t n) ∧ ∀ n, getP u n = getP t n
  flags : SameFlags t u
  live : u.live = t.live
  memory : SameMemory s s'
  units : s'.reqs = s.reqs ∧ s'.slices = s.slices
  others : SameOthers s s' c sl

/-! ### Memory instructions -/

/-- What a request asks for: issuing lane, virtual address, bytes, direction, ordering (scopes of the acquire and of the release part), kind. -/
structure Ask where
  lane : Nat
  va : Nat
  n : Nat
  read : Bool
  write : Bool
  strong : Bool
  acq : Bool
  rel : Bool
  scope : Scope
  relScope : Scope
  kind : ReqKind
  deriving DecidableEq, Repr
/-- What request `r` asks for. -/
def askOf (r : Req) : Ask := ⟨r.lane, r.va, r.n, r.read, r.write, r.strong, r.acq, r.rel, r.scope, r.relScope, r.kind⟩
/-- The ask of lane `l` of an MM access (R75, R216): a read-modify-write without ORD is acq-rel; an earlier release fence of the team
makes a strong write a release of the wider scope, and leaves its acquire part the scope that it names (R219). -/
def askMM (t : Team) (x : MM) (rmw rd_ wr : Bool) (l va n : Nat) (k : ReqKind) : Ask :=
  let strong := rmw || x.ord != .weak
  let rel := x.ord == .rel || (rmw && x.ord == .weak)
  let f : Bool × Scope :=
    match t.relFence with
    | some sc => if strong && wr then (true, if rel then widest x.scope sc else sc) else (rel, x.scope)
    | none => (rel, x.scope)
  ⟨l, va, n, rd_, wr, strong, x.ord == .acq || (rmw && x.ord == .weak), f.1, x.scope, f.2, k⟩
/-- The ask of an access without ordering. -/
def askPlain (rd_ wr : Bool) (l va n : Nat) (k : ReqKind) : Ask := ⟨l, va, n, rd_, wr, false, false, false, .team, .team, k⟩
/-- A strong ask that reaches another device is made at SYSTEM scope (R445). -/
def farAsk (ms : List Nat) (a : Ask) : Ask := if a.strong && ms.any (· < 32) then { a with scope := .system, relScope := .system } else a
/-- A store of no bytes. -/
def blank (a : Ask) : Ask := { a with kind := match a.kind with | .sts _ t p => .sts [] t p | _ => .store [] }
/-- Of asks at one address that of the highest lane stores (R129); the others write no bytes, and still translate and fault (R419). -/
def lastStores (as : List Ask) : List Ask := as.map fun a => if as.any fun b => b.va == a.va && decide (a.lane < b.lane) then blank a else a
/-- Of asks at one location that of the highest lane stores (R234). -/
def lastStoresAt (as : List (Ask × Loc)) : List (Ask × Loc) :=
  as.map fun a => if as.any fun b => b.2 == a.2 && decide (a.1.lane < b.1.lane) then (blank a.1, a.2) else a
/-- A request of the team in slot `sl` of core `c`, not yet performed. -/
def Mine (c sl : Nat) (t : Team) (q : Req) : Prop :=
  q.core = c ∧ q.slot = sl ∧ q.tid = t.tid ∧ q.ctx = t.ctx ∧ q.seq = t.seq ∧ q.done = false ∧ q.logged = none ∧ q.got = [] ∧ q.val = 0
/-- Exactly these requests went out, behind the earlier ones. -/
def Sent (s s' : State) (c sl : Nat) (t : Team) (as : List Ask) : Prop :=
  ∃ qs, s'.reqs = s.reqs ++ qs ∧ qs.map askOf = as ∧ ∀ q ∈ qs, Mine c sl t q
/-- The same, of requests to known locations. -/
def SentAt (s s' : State) (c sl : Nat) (t : Team) (as : List (Ask × Loc)) : Prop :=
  ∃ qs, s'.reqs = s.reqs ++ qs ∧ qs.map (fun q => (askOf q, q.loc)) = as.map (fun a => (a.1, some a.2)) ∧ ∀ q ∈ qs, Mine c sl t q
/-- Tickets, sequence slots, tiles and engine queues are unchanged; what the slice caches hold is not meant. -/
structure SameEngines (s s' : State) : Prop where
  slices : ∀ k, (getSlice s' k).world = (getSlice s k).world ∧ (getSlice s' k).tickets = (getSlice s k).tickets
  seqSlots : s'.seqSlots = s.seqSlots
  wgs : ∀ c, (getCore s' c).wgs = (getCore s c).wgs
  chans : ∀ c, (getCore s' c).chans = (getCore s c).chans
  tops : ∀ c, (getCore s' c).tops = (getCore s c).tops
/-- The counters of R371 after an instruction that closes its region, or does not. -/
def RegionAfter (closes : Bool) (t u : Team) : Prop :=
  if closes then u.rgncnt = t.rgncnt + 1 ∧ u.rgnpc = issueAddr t + 1 ∧ u.retcnt = 0 else SameRegion t u
/-- What a memory instruction leaves that has sent its requests: `t` is its team as step 2 left it, `d` its destination, `oob` the new
OOBCNT. No byte of memory changes before a request is performed. -/
structure Sends (s s' : State) (c sl : Nat) (t u : Team) (d : Opd) (pair : Bool) (m : Mask) (closes : Bool) (oob : DWord) : Prop where
  here : getTeam s' c sl = some u
  regs : SameRegs t u d pair m
  control : SameControl t u
  region : RegionAfter closes t u
  lpc : Advanced t u
  memory : SameMemory s s'
  engines : SameEngines s s'
  others : SameOthers s s' c sl
  flags : u.fltstat = t.fltstat ∧ u.sigstat = t.sigstat ∧ u.oobcnt = oob
/-- The destination elements of lanes `ins` turned empty and keep value and tag until the data arrives (R37 step 6); those of lanes `out`
hold 0 with tag 0, full (R35). -/
def Awaits (s s' : State) (t u : Team) (d : Opd) (pair : Bool) (ins out : List Nat) : Prop :=
  (∀ l ∈ ins, rdOpd s' u d pair l = { rdOpd s t d pair l with full := false }) ∧ ∀ l ∈ out, rdOpd s' u d pair l = written d pair 0 0
/-- The instruction has been issued and holds its team (R132, R183, R251): its lanes have not moved. -/
structure HeldAt (t u : Team) (h : Head) (kind : HoldKind) : Prop where
  hold : ∃ k, u.hold = some k ∧ k.kind = kind ∧ k.pc = issueAddr t ∧ k.exec = executing t ∧ k.act = active t h
  lpc : u.lpc = t.lpc

/-- Lanes that a destination serves: of a scalar the lowest active one (R128, R246). -/
def served (d : Opd) (m : Mask) : List Nat := if isS d then [lowest m] else lanesOf m
/-- Index of a lane (R126), and the lanes of `ls` whose index is in bounds, or not (R35). -/
def idxOf (i : Issue) (x : MM) (l : Nat) : Int := memIdx ((rd i x.a false).at_ l) x.ofs
def insOf (i : Issue) (x : MM) (ls : List Nat) : List Nat := ls.filter fun l => brIn (bufOf i.t x.brec.toNat) (idxOf i x l)
def outOf (i : Issue) (x : MM) (ls : List Nat) : List Nat := ls.filter fun l => !brIn (bufOf i.t x.brec.toNat) (idxOf i x l)
/-- Address of a lane's access of `n` bytes, and of its shadow byte (R62, R126). -/
def vaOf (i : Issue) (x : MM) (n l : Nat) : Nat := brAddr (bufOf i.t x.brec.toNat) (idxOf i x l) n
def shOf (i : Issue) (x : MM) (l : Nat) : Nat := brShadow (bufOf i.t x.brec.toNat) (idxOf i x l)
/-- An access through a record can be sent: the record is bound and of the core's world, the operand log has room, and no lane is out of
bounds under OOBTRAP (R28, R35, R127, R366). -/
structure CanAccess (i : Issue) (x : MM) (ls : List Nat) : Prop where
  bound : recBound i.t x = true
  log : logFull i.s i.core = false
  world : brWld (bufOf i.t x.brec.toNat) = (getCore i.s i.core).world
  oob : brOobTrap (bufOf i.t x.brec.toNat) = false ∨ outOf i x ls = []
/-- None of these addresses lies on a page, or behind a window, of the other world (R359, R437), and none waits for its walk (R360). -/
def Own (s : State) (c : Nat) (t : Team) (write : Bool) (vas : List Nat) : Prop :=
  ∀ va ∈ vas, (homeOf s c t.ctx write va).1.world = false ∧ walkHeld s c t.tid t.ctx [va] = false
/-- No walk to these addresses reads a table entry that an earlier store or acquire of team `t` still precedes (R360). -/
def Walks (s : State) (c : Nat) (t : Team) (vas : List Nat) : Prop := ∀ va ∈ vas, walkHeld s c t.tid t.ctx [va] = false

/-- Every byte and word tag is unchanged; line F/E bits are not meant. -/
structure SameBytes (s s' : State) : Prop where
  mem : s'.mem = s.mem
  wstore : s'.wstore = s.wstore
  remote : s'.remote = s.remote
  scratch : ∀ c, (getCore s' c).bytes = (getCore s c).bytes ∧ (getCore s' c).tags = (getCore s c).tags
/-- Exactly the lines of `ls` (core, line) have turned full, or empty; the others stay as they were (R195, R202). -/
def LinesSet (s s' : State) (full : Bool) (ls : List (Nat × Nat)) : Prop :=
  ∀ c n, lineFull s' c n = if (c, n) ∈ ls then full else lineFull s c n

/-! ### Engine instructions -/

/-- The parameter block of an engine instruction can be read and is `b` (R300, R302, R37): its base is full, it lies in the team's share,
its lines are full, no earlier access of the team holds it back, and its completion word is allowed. -/
structure BlockReady (i : Issue) (x : EN) (b : List DWord) : Prop where
  base : srcZero x.b = true ∨ ∀ l ∈ lanesOf i.act, ((rd i x.b false).at_ l).full = true
  place : ∃ byte, blockByte i x = some byte ∧ b = blockWords i.s i.core byte ∧ lineFull i.s i.core (byte / 128) = true ∧
    lineFull i.s i.core ((byte + 63) / 128) = true ∧ blockBehind i byte = false
  tail : tailOk i b = true
/-- What an engine instruction leaves outside its engine: the team has moved on, and nothing has been transferred yet. -/
structure Queued (s s' : State) (c sl : Nat) (t u : Team) (closes : Bool) : Prop where
  here : getTeam s' c sl = some u
  regs : SameAllRegs t u
  flags : SameFlags t u
  control : SameControl t u
  region : RegionAfter closes t u
  lpc : Advanced t u
  bytes : SameBytes s s'
  reqs : s'.reqs = s.reqs
  slices : s'.slices = s.slices
  seqSlots : s'.seqSlots = s.seqSlots
  others : SameOthers s s' c sl
/-- The tile engine of core `c` has one more operation, of this kind and operands; its destination's FE bit is 0 unless it stores a
tile, and the other tiles of the workgroup are as they were (R284, R285). -/
def Accepted (s s' : State) (c : Nat) (t : Team) (kind : TKind) (dst src : Nat) (b : List DWord) : Prop :=
  ∃ o, (getCore s' c).tops = (getCore s c).tops ++ [o] ∧ o.kind = kind ∧ o.dst = dst ∧ o.src = src ∧ o.blk = b ∧ o.started = false ∧
    o.wg = t.wg ∧ o.tid = t.tid ∧ (kind ≠ .tst → ∀ w ∈ (getCore s' c).wgs, w.id = t.wg → (getTile w dst).fe = false) ∧
    ∀ n, (kind = .tst ∨ n ≠ dst) → getTile (getWg s' c t.wg) n = getTile (getWg s c t.wg) n
/-- Every TLB entry of the device. -/
def allTlbs (s : State) : List TlbEntry := s.deviceTlb ++ s.cores.flatMap fun k => k.2.tlb
/-- The D bit of every dirty TLB entry that satisfies `f` stands in its leaf; no other byte of memory differs (R361). -/
def Harvested (s s' : State) (f : TlbEntry → Bool) : Prop :=
  (∀ e ∈ allTlbs s, f e = true → e.dirty = true → (ngetD 0 s'.mem (e.leafPa + 7)).getLsbD 5 = true) ∧
  ∀ a, (∀ e ∈ allTlbs s, f e = true → e.dirty = true → e.leafPa + 7 ≠ a) → ngetD 0 s'.mem a = ngetD 0 s.mem a

/-! ### Events -/

/-- Request `r` is in flight, for team `t`, which still holds its slot. -/
structure Asked (s : State) (r : Req) (t : Team) : Prop where
  req : getReq s r.id = some r
  team : getTeam s r.core r.slot = some t
  tid : t.tid = r.tid
  live : t.live ≠ 0
  lane : r.lane < 32
/-- What remains the same of a team that no event of its own has moved: registers, flags, control, exception and region registers, buffer
records, positions of its lanes. -/
structure SameTeam (t u : Team) : Prop where
  regs : SameAllRegs t u
  flags : SameFlags t u
  control : SameControl t u
  region : u.rgncnt = t.rgncnt ∧ u.rgnpc = t.rgnpc ∧ u.retcnt = t.retcnt
  lpc : u.lpc = t.lpc
/-- Every team with a live lane is still there, as it was. -/
def TeamsKept (s s' : State) : Prop := ∀ c sl t, getTeam s c sl = some t → t.live ≠ 0 → ∃ u, getTeam s' c sl = some u ∧ SameTeam t u
/-- Exactly the requests of `gone` have left; those that stay are as they were. -/
def Left (s s' : State) (gone : Req → Prop) : Prop := ∀ q, q ∈ s'.reqs ↔ q ∈ s.reqs ∧ ¬gone q
/-- All that a result leaves as it was: every register but destinations `ds` in the lane of `r`, positions, control registers,
engines and the other teams; the requests of `gone` are over. -/
structure Arrived (s s' : State) (r : Req) (t u : Team) (ds : List (Opd × Bool)) (gone : Req → Prop) : Prop where
  here : getTeam s' r.core r.slot = some u
  vec : ∀ n l, l < 32 → (l = r.lane → ∀ d ∈ ds, namesV d.1 d.2 n = false) → getV u n l = getV t n l
  sca : ∀ n, (∀ d ∈ ds, namesS d.1 n = false) → getS u n = getS t n
  prd : ∀ n l, l < 32 → (l = r.lane → ∀ d ∈ ds, namesP d.1 n = false) →
    inMask (getP u n).val l = inMask (getP t n).val l ∧ inMask (getP u n).full l = inMask (getP t n).full l
  control : SameControl t u
  region : u.rgncnt = t.rgncnt ∧ u.rgnpc = t.rgnpc ∧ u.retcnt = t.retcnt
  lpc : u.lpc = t.lpc
  engines : SameEngines s s'
  others : SameOthers s s' r.core r.slot
  left : Left s s' gone
/-- The result `x` with tag `tag` has reached destination `d` in the lane of `r`; a register shrunk away takes nothing (R187). -/
def Holds (s' : State) (r : Req) (t u : Team) (d : Opd) (pair : Bool) (x : DWord) (tag : Tag) : Prop :=
  if opdAlloc t d pair then rdOpd s' u d pair r.lane = written d pair x tag else ∀ n l, l < 32 → namesV d pair n = true → getV u n l = getV t n l
/-- The flags of an FP result that lands late (R150, R249). -/
def LateFlags (t u : Team) (pol : FpPol) (fl : Nat) (tag : Tag) : Prop :=
  u.fltstat = t.fltstat ||| BitVec.ofNat 64 fl ∧ u.sigstat = (if sigFails pol.sigpol t.sigmin tag then t.sigstat ||| 1 else t.sigstat) ∧
  u.oobcnt = t.oobcnt
/-- No acquire of `r` at `l` has anything to drain: it is none, or the lines have no release record (R220). -/
def NoDrain (s : State) (r : Req) (l : Loc) : Prop := r.drains = [] ∧ (r.acq = false ∨ ∀ k ≤ r.n, relRec s (locAdd l k) = ⟨[], false⟩)
/-- No part of a read has been performed yet (R216). -/
def Unread (r : Req) : Prop := r.got = [] ∧ r.val = 0

/-- A location of this device or of one of the 4,096 devices (R433). -/
def Known (l : Loc) : Prop := match l with | .remote chip _ _ => chip < 4096 | _ => True
/-- Entry `c` of the communicator table at `tab` has become `e` (R273): its home takes it, and no other byte changes; none at all where the
table has no home. -/
structure CommSet (s s' : State) (ctx tab c : Nat) (e : BitVec 64) : Prop where
  entry : ∀ l, tab ≠ 0 → (engAt s (zephyr s ctx []) false (tab + 8 * c) 0).1 = .ok (some l) → Known l →
    readLoc s' l 8 = leBytes 8 e.toNat ∧ ∀ a, Known a → overlap a 1 l 8 = false → readLoc s' a 1 = readLoc s a 1
  unread : (tab = 0 ∨ ∀ l, (engAt s (zephyr s ctx []) false (tab + 8 * c) 0).1 ≠ .ok (some l)) → SameMemory s s'
  teams : TeamsKept s s'
  reqs : s'.reqs = s.reqs
/-- The communicator has become BROKEN (R273, R279). -/
def Broken (s s' : State) (ctx tab c : Nat) : Prop := CommSet s s' ctx tab c (withState (getComm s ctx tab c) 2)
/-- Every byte of every memory reads as before. -/
def SameReads (s s' : State) : Prop := ∀ m, Known m → readLoc s' m 1 = readLoc s m 1
/-- From `l` on stand the bytes `bs`; every other byte of every memory reads as before. -/
def Stored (s s' : State) (l : Loc) (bs : List Byte) : Prop :=
  readLoc s' l bs.length = bs ∧ ∀ m, Known m → overlap m 1 l bs.length = false → readLoc s' m 1 = readLoc s m 1
/-- Tag of a scratchpad word (R195), and those of every core unchanged. -/
def tagAt (s : State) (c w : Nat) : Tag := ngetD 63 (getCore s c).tags w
def SameTags (s s' : State) : Prop := ∀ c w, tagAt s' c w = tagAt s c w
/-- What a performed write leaves beside its bytes: teams, engines and line F/E bits as they were, its request over, and the release
record of its line, which names the core of a narrow release; the bytes of earlier releases that it takes the place of no longer stand (R219, R220). A
store of no bytes records nothing. -/
structure Performed (s s' : State) (r : Req) (l : Loc) (n : Nat) : Prop where
  teams : TeamsKept s s'
  engines : SameEngines s s'
  lines : ∀ c n, lineFull s' c n = lineFull s c n
  left : Left s s' (fun q => q.id = r.id)
  release : if n = 0 then s'.relRecs = s.relRecs
    else if isNarrow r then ∀ pa, l = .hbm pa → observedOf r pa ∈ (relRec s' l).named else s'.relRecs = (unstand s l n).relRecs
/-- What the release record of a line is after a read-modify-write with nothing to drain (R219, R220): a narrow release part has added its
core; otherwise every record is as it was, and what stands still stands. -/
def RmwRecord (s s' : State) (r : Req) (l : Loc) : Prop :=
  if isNarrow r then ∀ pa, l = .hbm pa → observedOf r pa ∈ (relRec s' l).named else s'.relRecs = s.relRecs

/-- No byte of memory changes but in the undo area that the team's slot has in its context's save area, and there only where the context is in debug
mode (R384, R390). -/
structure UndoOnly (s s' : State) (c sl : Nat) (t : Team) : Prop where
  mem : ∀ a, (let b := undoAreaAt (getCtx s t.ctx).saveBase c sl
    (getCtx s t.ctx).debug = false ∨ a < b ∨ b + Config.undoArea ≤ a) → ngetD 0 s'.mem a = ngetD 0 s.mem a
  rest : s'.wstore = s.wstore ∧ s'.remote = s.remote ∧ ∀ c, (getCore s' c).bytes = (getCore s c).bytes ∧ (getCore s' c).tags = (getCore s c).tags ∧
    (getCore s' c).empty = (getCore s c).empty

/-! ### Memory -/

/-- Canonical form of every memory of the machine. -/
def Canonical (s : State) : Prop :=
  memWf s.mem = true ∧ memWf s.wstore = true ∧ ∀ k, memWf (ngetD [] s.remote k) = true

end Sys2Proof.Safety
end

