-- ==== Sys2Proof/Certificates/Slice0/Obligations.lean ====
section
/-! DEFINITION. The statements. -/

section

open Sys2Proof Sys2Proof.Machine Sys2Proof.Safety

/-! ### Integer and logic instructions -/

/-- R107: the results of the two- and three-operand arithmetic instructions, wrapped to the width, with tag 63, and their frame:
each completes whenever its team can issue, its sources are full and its destination is free. -/
def Obligations.IntegerArithmeticResults : Prop :=
  ∀ (w : Width) (x : RG) (s : State) (c sl : Nat) (t : Team), CanIssue s c sl t x.h → allocRG (isPair w) x t = true →
    let i := issueOf s c sl t x.h
    let n := wbits w
    let A := fun l => (numA i x w l : Int)
    let B := fun l => (numB i x w l : Int)
    let C := fun l => (numC i x w l : Int)
    let sA := fun l => if x.sub.getLsbD 0 then sx (numA i x w l) n else A l
    let sB := fun l => if x.sub.getLsbD 0 then sx (numB i x w l) n else B l
    let Done := fun out (f : Nat → Int) => Yields s c sl t x.h out x.d (isPair w) (fun l => wrapW (f l) n) fun _ => 63
    (Ready i [rdA i x (isPair w), rd i x.b (isPair w)] [(x.d, isPair w)] →
      ((Instr.iadd w x).wf = true → Done (exec (.iadd w x) s) fun l => A l + B l) ∧
      ((Instr.isub w x).wf = true → Done (exec (.isub w x) s) fun l => A l - B l) ∧
      ((Instr.imul w x).wf = true → Done (exec (.imul w x) s) fun l => A l * B l) ∧
      ((Instr.imulh w x).wf = true → Done (exec (.imulh w x) s) fun l => (sA l * sB l) / 2 ^ n) ∧
      ((Instr.imin w x).wf = true → Done (exec (.imin w x) s) fun l => min (sA l) (sB l)) ∧
      ((Instr.imax w x).wf = true → Done (exec (.imax w x) s) fun l => max (sA l) (sB l))) ∧
    (Ready i [rdA i x (isPair w), rd i x.b (isPair w), rd i x.c (isPair w)] [(x.d, isPair w)] →
      (Instr.imad w x).wf = true → Done (exec (.imad w x) s) fun l => A l * B l + C l) ∧
    (Ready i [rdA i x (isPair w)] [(x.d, isPair w)] →
      (Instr.iabs w x).wf = true → Done (exec (.iabs w x) s) fun l => |sx (numA i x w l) n|)

/-- R108: IDIV and IREM truncate toward zero; a divisor 0 and the signed division of the least number by −1 have the results fixed there. -/
def Obligations.DivisionResults : Prop :=
  ∀ (w : Width) (x : RG) (s : State) (c sl : Nat) (t : Team), CanIssue s c sl t x.h → allocRG (isPair w) x t = true →
    let i := issueOf s c sl t x.h
    Ready i [rdA i x (isPair w), rd i x.b (isPair w)] [(x.d, isPair w)] →
    let n := wbits w
    let signed := x.sub.getLsbD 0
    let a := fun l => if signed then sx (numA i x w l) n else (numA i x w l : Int)
    let b := fun l => if signed then sx (numB i x w l) n else (numB i x w l : Int)
    let q := fun l => if signed then (a l).sign * (b l).sign * (|a l| / |b l|) else a l / b l
    let corner := fun l => signed = true ∧ a l = -2 ^ (n - 1) ∧ b l = -1
    let Done := fun out (f : Nat → Int) => Yields s c sl t x.h out x.d (isPair w) (fun l => wrapW (f l) n) fun _ => 63
    ((Instr.idiv w x).wf = true → Done (exec (.idiv w x) s) fun l => if b l = 0 then -1 else if corner l then -2 ^ (n - 1) else q l) ∧
    ((Instr.irem w x).wf = true → Done (exec (.irem w x) s) fun l => if b l = 0 then a l else if corner l then 0 else a l - q l * b l)

/-- R107, R109: the results of the logic, shift and bit instructions, and their frame; a shift takes the whole unsigned value of B. BFX and
BFI take the field B names, POS = B[7:0] and LEN = B[15:8], as far as it lies in the word. -/
def Obligations.LogicAndBitFieldResults : Prop :=
  (∀ (w : Width) (x : RG) (s : State) (c sl : Nat) (t : Team), CanIssue s c sl t x.h → allocRG (isPair w) x t = true →
    let i := issueOf s c sl t x.h
    let n := wbits w
    let A := fun l => BitVec.ofNat n (numA i x w l)
    let B := fun l => BitVec.ofNat n (numB i x w l)
    let Done := fun out (f : Nat → BitVec n) => Yields s c sl t x.h out x.d (isPair w) (fun l => (f l).setWidth 64) fun _ => 63
    (Ready i [rdA i x (isPair w), rd i x.b (isPair w)] [(x.d, isPair w)] →
      ((Instr.and w x).wf = true → Done (exec (.and w x) s) fun l => A l &&& B l) ∧
      ((Instr.or w x).wf = true → Done (exec (.or w x) s) fun l => A l ||| B l) ∧
      ((Instr.xor w x).wf = true → Done (exec (.xor w x) s) fun l => A l ^^^ B l) ∧
      ((Instr.andn w x).wf = true → Done (exec (.andn w x) s) fun l => A l &&& ~~~ B l) ∧
      ((Instr.shl w x).wf = true → Done (exec (.shl w x) s) fun l => A l <<< (B l).toNat) ∧
      ((Instr.shr w x).wf = true → Done (exec (.shr w x) s) fun l => A l >>> (B l).toNat) ∧
      ((Instr.sar w x).wf = true → Done (exec (.sar w x) s) fun l => (A l).sshiftRight (B l).toNat) ∧
      ((Instr.rol w x).wf = true → Done (exec (.rol w x) s) fun l => (A l).rotateLeft ((B l).toNat % n))) ∧
    (Ready i [rdA i x (isPair w)] [(x.d, isPair w)] →
      ((Instr.popc w x).wf = true → Done (exec (.popc w x) s) fun l =>
        BitVec.ofNat n ((List.range n).countP fun k => (A l).getLsbD k)) ∧
      ((Instr.clz w x).wf = true → Done (exec (.clz w x) s) fun l => (A l).clz) ∧
      ((Instr.brev w x).wf = true → Done (exec (.brev w x) s) fun l => (A l).reverse))) ∧
  (∀ (w : Width) (x : RG) (s : State) (c sl : Nat) (t : Team), CanIssue s c sl t x.h → allocRG (isPair w) x t = true →
    let i := issueOf s c sl t x.h
    let n := wbits w
    let A := fun l => BitVec.ofNat n (numA i x w l)
    let C := fun l => BitVec.ofNat n (numC i x w l)
    let pos := fun l => numB i x w l % 256
    let len := fun l => numB i x w l / 256 % 256
    let inside := fun l k => decide (pos l ≤ k) && decide (k < pos l + len l) && decide (k < n)
    (Ready i [rdA i x (isPair w), rd i x.b (isPair w)] [(x.d, isPair w)] → (Instr.bfx w x).wf = true →
      ∃ v : Nat → BitVec n, Yields s c sl t x.h (exec (.bfx w x) s) x.d (isPair w) (fun l => (v l).setWidth 64) (fun _ => 63) ∧
        ∀ l k, k < n → (v l).getLsbD k =
          if k < len l ∧ pos l + k < n then (A l).getLsbD (pos l + k)
          else x.sub.getLsbD 0 && decide (0 < len l) && decide (pos l < n) && (A l).getLsbD (min (pos l + len l) n - 1)) ∧
    (Ready i [rdA i x (isPair w), rd i x.b (isPair w), rd i x.c (isPair w)] [(x.d, isPair w)] → (Instr.bfi w x).wf = true →
      ∃ v : Nat → BitVec n, Yields s c sl t x.h (exec (.bfi w x) s) x.d (isPair w) (fun l => (v l).setWidth 64) (fun _ => 63) ∧
        ∀ l k, k < n → (v l).getLsbD k = if inside l k then (A l).getLsbD (k - pos l) else (C l).getLsbD k))

/-- R74, R107: the immediate forms take the immediate, sign-extended at .64, as source B. -/
def Obligations.IntegerImmediateResults : Prop :=
  ∀ (w : Width) (x : IM) (s : State) (c sl : Nat) (t : Team), CanIssue s c sl t x.h →
    (opdAlloc t x.d (isPair w) && opdAlloc t x.a.o (isPair w)) = true →
    Ready (issueOf s c sl t x.h) [rd (issueOf s c sl t x.h) x.a (isPair w)] [(x.d, isPair w)] →
    let i := issueOf s c sl t x.h
    let n := wbits w
    let A := fun l => BitVec.ofNat n (numImA i x w l)
    let B := BitVec.ofNat n (numImm x w)
    let sgn := x.md.getLsbD 0
    let less := fun (a b : BitVec n) => if sgn then BitVec.slt a b else BitVec.ult a b
    let Done := fun out (f : Nat → BitVec n) => Yields s c sl t x.h out x.d (isPair w) (fun l => (f l).setWidth 64) fun _ => 63
    ((Instr.iaddIm w x).wf = true → Done (exec (.iaddIm w x) s) fun l => A l + B) ∧
    ((Instr.isubIm w x).wf = true → Done (exec (.isubIm w x) s) fun l => A l - B) ∧
    ((Instr.imulIm w x).wf = true → Done (exec (.imulIm w x) s) fun l => A l * B) ∧
    ((Instr.iminIm w x).wf = true → Done (exec (.iminIm w x) s) fun l => if less B (A l) then B else A l) ∧
    ((Instr.imaxIm w x).wf = true → Done (exec (.imaxIm w x) s) fun l => if less (A l) B then B else A l) ∧
    ((Instr.andIm w x).wf = true → Done (exec (.andIm w x) s) fun l => A l &&& B) ∧
    ((Instr.orIm w x).wf = true → Done (exec (.orIm w x) s) fun l => A l ||| B) ∧
    ((Instr.xorIm w x).wf = true → Done (exec (.xorIm w x) s) fun l => A l ^^^ B) ∧
    ((Instr.andnIm w x).wf = true → Done (exec (.andnIm w x) s) fun l => A l &&& ~~~ B) ∧
    ((Instr.shlIm w x).wf = true → Done (exec (.shlIm w x) s) fun l => A l <<< B.toNat) ∧
    ((Instr.shrIm w x).wf = true → Done (exec (.shrIm w x) s) fun l => A l >>> B.toNat) ∧
    ((Instr.sarIm w x).wf = true → Done (exec (.sarIm w x) s) fun l => (A l).sshiftRight B.toNat) ∧
    ((Instr.rolIm w x).wf = true → Done (exec (.rolIm w x) s) fun l => (A l).rotateLeft (B.toNat % n))

/-- R107, R110, R61: MOV and SEL deliver a source with its tag; MOVI the immediate; MOVH puts it into the upper half and keeps the
lower. -/
def Obligations.MoveResults : Prop :=
  ∀ (w : Width) (s : State) (c sl : Nat) (t : Team),
    (∀ x : RG, CanIssue s c sl t x.h → allocRG (isPair w) x t = true →
      let i := issueOf s c sl t x.h
      let a := rdA i x (isPair w)
      let b := rd i x.b (isPair w)
      let p := rd i x.c false
      let pick := fun l => ((p.at_ l).bits != 0) != x.c.m
      (Ready i [a] [(x.d, isPair w)] → (Instr.mov w x).wf = true →
        Yields s c sl t x.h (exec (.mov w x) s) x.d (isPair w) (fun l => BitVec.ofNat 64 (numA i x w l)) fun l => (a.at_ l).tag) ∧
      (Ready i [a, b, p] [(x.d, isPair w)] → (Instr.sel w x).wf = true →
        Yields s c sl t x.h (exec (.sel w x) s) x.d (isPair w)
          (fun l => BitVec.ofNat 64 (if pick l then numA i x w l else numB i x w l))
          fun l => if pick l then (a.at_ l).tag else (b.at_ l).tag)) ∧
    (∀ x : IM, CanIssue s c sl t x.h → opdAlloc t x.d (isPair w) = true →
      let i := issueOf s c sl t x.h
      let old := fun l => ((rdOpd i.s i.t x.d (isPair w) l).bits.toNat)
      let h := wbits w / 2
      (Ready i [] [(x.d, isPair w)] → (Instr.movi w x).wf = true →
        Yields s c sl t x.h (exec (.movi w x) s) x.d (isPair w) (fun _ => BitVec.ofNat 64 (numImm x w)) fun _ => 63) ∧
      (Ready i [] [(x.d, isPair w)] → (Instr.movh w x).wf = true →
        Yields s c sl t x.h (exec (.movh w x) s) x.d (isPair w)
          (fun l => BitVec.ofNat 64 (old l % 2 ^ h + 2 ^ h * (x.imm.toNat % 2 ^ h))) fun _ => 63))

/-! ### Compare and predicate instructions -/

/-- R112: the encoding of PSET, and the value that it writes for each active lane. -/
def Obligations.PredicateFunctions : Prop :=
  ∀ x : RG, parts (.pset x) = some (0x13, 0, .rg x) ∧
    ((Instr.pset x).wf = true → isP x.d = true ∧ isP x.a.o = true ∧ isP x.b.o = true ∧ x.sub.toNat / 16 = 0) ∧
    (∀ (d a b : BitVec 3) (am bm : Bool) (f : BitVec 8), f.toNat < 16 → x.h.gn = false →
      (Instr.pset ⟨x.h, .p d, ⟨.p a, false, am⟩, ⟨.p b, false, bm⟩, ⟨.v 0, false, false⟩, 0, .slot, .none, 0, f⟩).wf = true) ∧
    ∀ (s : State) (c sl : Nat) (t : Team), CanIssue s c sl t x.h → (Instr.pset x).wf = true →
      let i := issueOf s c sl t x.h
      let a := fun l => (((rd i x.a false).at_ l).bits != 0) != x.a.m
      let b := fun l => (((rd i x.b false).at_ l).bits != 0) != x.b.m
      Ready i [rd i x.a false, rd i x.b false] [(x.d, false)] →
        Yields s c sl t x.h (exec (.pset x) s) x.d false
          (fun l => if x.sub.toNat.testBit (2 * (if a l then 1 else 0) + if b l then 1 else 0) then 1 else 0) fun _ => 63

/-- R111, R113, R145: ICMP, PMOV and FCLASS, and their frame. -/
def Obligations.CompareResults : Prop :=
  ∀ (s : State) (c sl : Nat) (t : Team),
    (∀ (k : Cond) (sg : Bool) (w : Width) (x : RG), CanIssue s c sl t x.h →
      (opdAlloc t x.a.o (isPair w) && opdAlloc t x.b.o (isPair w)) = true →
      let i := issueOf s c sl t x.h
      let a := fun l => if sg then sx (numA i x w l) (wbits w) else (numA i x w l : Int)
      let b := fun l => if sg then sx (numB i x w l) (wbits w) else (numB i x w l : Int)
      Ready i [rdA i x (isPair w), rd i x.b (isPair w)] [(x.d, false)] → (Instr.icmp k sg w x).wf = true →
        Yields s c sl t x.h (exec (.icmp k sg w x) s) x.d false (fun l => if holds k (a l) (b l) then 1 else 0) fun _ => 63) ∧
    (∀ (k : Cond) (sg : Bool) (w : Width) (x : IM), CanIssue s c sl t x.h → opdAlloc t x.a.o (isPair w) = true →
      let i := issueOf s c sl t x.h
      let a := fun l => if sg then sx (numImA i x w l) (wbits w) else (numImA i x w l : Int)
      let b := if sg then sx (numImm x w) (wbits w) else (numImm x w : Int)
      Ready i [rd i x.a (isPair w)] [(x.d, false)] → (Instr.icmpIm k sg w x).wf = true →
        Yields s c sl t x.h (exec (.icmpIm k sg w x) s) x.d false (fun l => if holds k (a l) b then 1 else 0) fun _ => 63) ∧
    (∀ x : RG, CanIssue s c sl t x.h → (opdAlloc t x.d false && opdAlloc t x.a.o (x.sub == 2)) = true →
      let i := issueOf s c sl t x.h
      let a := rdA i x (x.sub == 2)
      Ready i [a] [(x.d, false)] → (Instr.pmov x).wf = true →
        Yields s c sl t x.h (exec (.pmov x) s) x.d false
          (fun l => if (if isP x.a.o then pval x.a.m (a.at_ l) else ival (if x.sub = 2 then 64 else 32) x.a.m (a.at_ l) != 0) then 1 else 0)
          fun _ => 63) ∧
    (∀ (f : FW) (x : RG), CanIssue s c sl t x.h → opdAlloc t x.a.o (pairF f) = true →
      let i := issueOf s c sl t x.h
      let v := fun l => decF (fmtOfFW f) (fval (fmtOfFW f) x.a.m ((rdA i x (pairF f)).at_ l))
      let hit := fun l => x.sub.getLsbD (classOf (fmtOfFW f) (v l)) &&
        (isNaN (v l) || (x.sub.toNat / 64 == 0) || ((x.sub.toNat / 64 == 2) == sgn (v l)))
      Ready i [rdA i x (pairF f)] [(x.d, false)] → (Instr.fclass f x).wf = true →
        Yields s c sl t x.h (exec (.fclass f x) s) x.d false (fun l => if hit l then 1 else 0) fun _ => 63)

/-! ### Floating-point and significance instructions -/

/-- R136 to R139: the FP32 instructions complete with the results of their operations, the tags that go with them, and accrued
flags, where no enabled trap stops them. -/
def Obligations.SingleResults : Prop :=
  ∀ (x : RG) (s : State) (c sl : Nat) (t : Team), CanIssue s c sl t x.h → allocRG false x t = true →
    let i := issueOf s c sl t x.h
    let ws := recordOf s t
    let mode := rmode ws x.slot.toNat x.rnd
    let pol := slotSigpol (recSlot ws x.slot.toNat)
    let a := fun l => vt fp32 x.a.m ((rdA i x false).at_ l)
    let b := fun l => vt fp32 x.b.m ((rd i x.b false).at_ l)
    let e := fun l => vt fp32 x.c.m ((rd i x.c false).at_ l)
    let Done := fun out (r : Nat → FO) => NoFpTrap t x.h pol r → FpDone s c sl t x.h out x.d false pol r
    (Ready i [rdA i x false, rd i x.b false] [(x.d, false)] →
      ((Instr.fadd x).wf = true → Done (exec (.fadd x) s) fun l => opAdd fp32 mode false (a l).1 (a l).2 (b l).1 (b l).2) ∧
      ((Instr.fsub x).wf = true → Done (exec (.fsub x) s) fun l => opAdd fp32 mode true (a l).1 (a l).2 (b l).1 (b l).2) ∧
      ((Instr.fmul x).wf = true → Done (exec (.fmul x) s) fun l => opMul fp32 mode (a l).1 (a l).2 (b l).1 (b l).2) ∧
      ((Instr.fdiv x).wf = true → Done (exec (.fdiv x) s) fun l => opDiv fp32 mode (a l).1 (a l).2 (b l).1 (b l).2) ∧
      ((Instr.fmin x).wf = true → Done (exec (.fmin x) s) fun l => opMinMax fp32 true (a l).1 (a l).2 (b l).1 (b l).2) ∧
      ((Instr.fmax x).wf = true → Done (exec (.fmax x) s) fun l => opMinMax fp32 false (a l).1 (a l).2 (b l).1 (b l).2)) ∧
    (Ready i [rdA i x false, rd i x.b false, rd i x.c false] [(x.d, false)] →
      ((Instr.ffma x).wf = true → Done (exec (.ffma x) s) fun l =>
        opFma fp32 mode (a l).1 (a l).2 (b l).1 (b l).2 (e l).1 (e l).2)) ∧
    (Ready i [rdA i x false] [(x.d, false)] →
      ((Instr.fsqrt x).wf = true → Done (exec (.fsqrt x) s) fun l => opSqrt fp32 mode (a l).1 (a l).2) ∧
      ((Instr.frcp x).wf = true → Done (exec (.frcp x) s) fun l => opRcp fp32 mode (a l).1 (a l).2) ∧
      ((Instr.fexp2 x).wf = true → Done (exec (.fexp2 x) s) fun l => opExp2 fp32 mode (a l).1 (a l).2) ∧
      ((Instr.flog2 x).wf = true → Done (exec (.flog2 x) s) fun l => opLog2 fp32 mode (a l).1 (a l).2))

/-- R143: the FP64 instructions on pairs, in the same way. -/
def Obligations.DoubleResults : Prop :=
  ∀ (x : RG) (s : State) (c sl : Nat) (t : Team), CanIssue s c sl t x.h → allocRG true x t = true →
    let i := issueOf s c sl t x.h
    let ws := recordOf s t
    let mode := rmode ws x.slot.toNat x.rnd
    let pol := slotSigpol (recSlot ws x.slot.toNat)
    let a := fun l => vt fp64 x.a.m ((rdA i x true).at_ l)
    let b := fun l => vt fp64 x.b.m ((rd i x.b true).at_ l)
    let e := fun l => vt fp64 x.c.m ((rd i x.c true).at_ l)
    let Done := fun out (r : Nat → FO) => NoFpTrap t x.h pol r → FpDone s c sl t x.h out x.d true pol r
    (Ready i [rdA i x true, rd i x.b true] [(x.d, true)] →
      ((Instr.dadd x).wf = true → Done (exec (.dadd x) s) fun l => opAdd fp64 mode false (a l).1 (a l).2 (b l).1 (b l).2) ∧
      ((Instr.dsub x).wf = true → Done (exec (.dsub x) s) fun l => opAdd fp64 mode true (a l).1 (a l).2 (b l).1 (b l).2) ∧
      ((Instr.dmul x).wf = true → Done (exec (.dmul x) s) fun l => opMul fp64 mode (a l).1 (a l).2 (b l).1 (b l).2) ∧
      ((Instr.ddiv x).wf = true → Done (exec (.ddiv x) s) fun l => opDiv fp64 mode (a l).1 (a l).2 (b l).1 (b l).2) ∧
      ((Instr.dmin x).wf = true → Done (exec (.dmin x) s) fun l => opMinMax fp64 true (a l).1 (a l).2 (b l).1 (b l).2) ∧
      ((Instr.dmax x).wf = true → Done (exec (.dmax x) s) fun l => opMinMax fp64 false (a l).1 (a l).2 (b l).1 (b l).2)) ∧
    (Ready i [rdA i x true, rd i x.b true, rd i x.c true] [(x.d, true)] →
      ((Instr.dfma x).wf = true → Done (exec (.dfma x) s) fun l =>
        opFma fp64 mode (a l).1 (a l).2 (b l).1 (b l).2 (e l).1 (e l).2)) ∧
    (Ready i [rdA i x true] [(x.d, true)] →
      ((Instr.dsqrt x).wf = true → Done (exec (.dsqrt x) s) fun l => opSqrt fp64 mode (a l).1 (a l).2))

/-- R141, R142: the immediate forms take IMM32 as an FP32 value with tag 24; the packed forms work on both halves of an element
under its one tag. -/
def Obligations.ImmediateAndPackedResults : Prop :=
  ∀ (s : State) (c sl : Nat) (t : Team),
    (∀ x : IM, CanIssue s c sl t x.h → (opdAlloc t x.d false && opdAlloc t x.a.o false) = true →
      let i := issueOf s c sl t x.h
      let ws := recordOf s t
      let mode := rmode ws (x.md.toNat % 8) (mdRnd x.md)
      let pol := slotSigpol (recSlot ws (x.md.toNat % 8))
      let a := fun l => vt fp32 x.a.m ((rd i x.a false).at_ l)
      let k := x.imm.toNat
      let Done := fun out (r : Nat → FO) => NoFpTrap t x.h pol r → FpDone s c sl t x.h out x.d false pol r
      Ready i [rd i x.a false] [(x.d, false)] →
        ((Instr.faddIm x).wf = true → Done (exec (.faddIm x) s) fun l => opAdd fp32 mode false (a l).1 (a l).2 k 24) ∧
        ((Instr.fsubIm x).wf = true → Done (exec (.fsubIm x) s) fun l => opAdd fp32 mode true (a l).1 (a l).2 k 24) ∧
        ((Instr.fmulIm x).wf = true → Done (exec (.fmulIm x) s) fun l => opMul fp32 mode (a l).1 (a l).2 k 24) ∧
        ((Instr.fminIm x).wf = true → Done (exec (.fminIm x) s) fun l => opMinMax fp32 true (a l).1 (a l).2 k 24) ∧
        ((Instr.fmaxIm x).wf = true → Done (exec (.fmaxIm x) s) fun l => opMinMax fp32 false (a l).1 (a l).2 k 24)) ∧
    (∀ (h : Half) (x : RG), CanIssue s c sl t x.h → allocRG false x t = true →
      let i := issueOf s c sl t x.h
      let ws := recordOf s t
      let mode := rmode ws x.slot.toNat x.rnd
      let pol := slotSigpol (recSlot ws x.slot.toNat)
      let f := halfFmt h
      let a := fun k l => halfOf k (vtH x.a.m ((rdA i x false).at_ l))
      let b := fun k l => halfOf k (vtH x.b.m ((rd i x.b false).at_ l))
      let e := fun k l => halfOf k (vtH x.c.m ((rd i x.c false).at_ l))
      let Done := fun out (r : Nat → Nat → FO) =>
        NoFpTrap t x.h pol (fun l => packHalves (r 0 l) (r 1 l)) → FpDone s c sl t x.h out x.d false pol fun l => packHalves (r 0 l) (r 1 l)
      (Ready i [rdA i x false, rd i x.b false] [(x.d, false)] →
        ((Instr.hadd2 h x).wf = true → Done (exec (.hadd2 h x) s) fun k l =>
          opAdd f mode false (a k l).1 (a k l).2 (b k l).1 (b k l).2) ∧
        ((Instr.hmul2 h x).wf = true → Done (exec (.hmul2 h x) s) fun k l => opMul f mode (a k l).1 (a k l).2 (b k l).1 (b k l).2)) ∧
      (Ready i [rdA i x false, rd i x.b false, rd i x.c false] [(x.d, false)] →
        ((Instr.hfma2 h x).wf = true → Done (exec (.hfma2 h x) s) fun k l =>
          opFma f mode (a k l).1 (a k l).2 (b k l).1 (b k l).2 (e k l).1 (e k l).2)))

/-- R144, R146, R147: FCMP puts the condition into a predicate; CVT converts one value, into half 1 of the destination with SUB[1],
under the tag and flag rules of its types. The tag of half 1 under SIGPOL = OFF is the model's choice (log entry 50). -/
def Obligations.ConversionResults : Prop :=
  ∀ (s : State) (c sl : Nat) (t : Team) (x : RG), CanIssue s c sl t x.h →
    let i := issueOf s c sl t x.h
    let ws := recordOf s t
    (∀ (k : Cond) (f : FW),
      (opdAlloc t x.a.o (pairF f) && opdAlloc t x.b.o (pairF f)) = true →
      let v := fun (m : Bool) (r : Rd) l => decF (fmtOfFW f) (fval (fmtOfFW f) m (r.at_ l))
      let q := fun l => cmpF k (v x.a.m (rdA i x (pairF f)) l) (v x.b.m (rd i x.b (pairF f)) l)
      Ready i [rdA i x (pairF f), rd i x.b (pairF f)] [(x.d, false)] → (Instr.fcmp k f x).wf = true →
        (∀ l ∈ lanesOf (active t x.h), (q l).2 &&& (t.trapen.toNat % 32) = 0) →
        YieldsFp s c sl t x.h (exec (.fcmp k f x) s) x.d false (fun l => if (q l).1 then 1 else 0) (fun _ => 63)
          (foldLanes (active t x.h) (fun a l => a ||| (q l).2) 0) false) ∧
    (∀ (dst src : CvtT), (opdAlloc t x.d (cvtWide dst) && opdAlloc t x.a.o (cvtWide src)) = true →
      let a := rdA i x (cvtWide src)
      let old := fun l => rdOpd i.s i.t x.d (cvtWide dst) l
      let high := x.sub.getLsbD 1
      let pol := if (cvtFmt dst).isSome then slotSigpol (recSlot ws x.slot.toNat) else 2
      let r := fun l => cvtF1 dst src (rmode ws x.slot.toNat x.rnd) (cvtSrc src (x.sub.getLsbD 0) x.a.m (a.at_ l)) (a.at_ l).tag.toNat
      let o := fun l => if high
        then ({ r l with y := (old l).bits.toNat % 2 ^ 16 + 2 ^ 16 * (r l).y, tag := dh1Tag (old l).tag (polTag pol (r l).tag) } : FO)
        else { r l with tag := polTag pol (r l).tag }
      Ready i [a] [(x.d, cvtWide dst)] → (Instr.cvt dst src x).wf = true → NoFpTrap t x.h pol o →
        YieldsFp s c sl t x.h (exec (.cvt dst src x) s) x.d (cvtWide dst) (fun l => BitVec.ofNat 64 (o l).y) (fun l => (o l).tag)
          (foldLanes (active t x.h) (fun a l => a ||| (o l).fl) 0)
          ((lanesOf (active t x.h)).any fun l => sigFails pol t.sigmin (polTag pol (o l).tag)))

/-- R151 to R153: TAGRD reads a tag, TAGWR sets one beside the value, PSIG compares one with its immediate; none raises a flag. That AM and BM invert
TAGWR's operand bits is the model's choice (log entry 16). -/
def Obligations.SignificanceResults : Prop :=
  ∀ (s : State) (c sl : Nat) (t : Team),
    (∀ x : RG, CanIssue s c sl t x.h →
      let i := issueOf s c sl t x.h
      let wide := x.sub == 1
      let a := rdA i x wide
      ((opdAlloc t x.d false && opdAlloc t x.a.o wide) = true → Ready i [a] [(x.d, false)] → (Instr.tagrd x).wf = true →
        Yields s c sl t x.h (exec (.tagrd x) s) x.d false (fun l => (a.at_ l).tag.setWidth 64) fun _ => 63) ∧
      ((opdAlloc t x.d wide && opdAlloc t x.a.o wide && opdAlloc t x.b.o false) = true →
        Ready i [a, rd i x.b false] [(x.d, wide)] → (Instr.tagwr x).wf = true →
        Yields s c sl t x.h (exec (.tagwr x) s) x.d wide (fun l => BitVec.ofNat 64 (ival (if wide then 64 else 32) x.a.m (a.at_ l)))
          fun l => BitVec.ofNat 6 (ival 32 x.b.m ((rd i x.b false).at_ l)))) ∧
    (∀ (k : Cond) (x : IM), CanIssue s c sl t x.h → opdAlloc t x.a.o (x.md == 2) = true →
      let i := issueOf s c sl t x.h
      let a := rd i x.a (x.md == 2)
      let g := fun l => if x.md = 0 then (a.at_ l).tag.toNat
        else if x.md = 1 then (eff fp32 (decF fp32 ((a.at_ l).bits.toNat % 2 ^ 32)) (a.at_ l).tag.toNat).toNat
        else (eff fp64 (decF fp64 (a.at_ l).bits.toNat) (a.at_ l).tag.toNat).toNat
      Ready i [a] [(x.d, false)] → (Instr.psig k x).wf = true →
        Yields s c sl t x.h (exec (.psig k x) s) x.d false (fun l => if holds k (g l) x.imm.toNat then 1 else 0) fun _ => 63)

/-! ### Traps and control flow -/

/-- R373: what taking a trap saves, the trap record that it writes into s56 to s63, and where it goes, from any state in which it is delivered to a
handler. -/
def Obligations.TrapEntry : Prop :=
  ∀ (s : State) (c sl : Nat) (t : Team) (ti : TrapInfo), getTeam s c sl = some t → TrapReady s c sl t ti.cause →
    ∃ u, TookTrap s c sl t ti (raiseTrap s c sl t ti) u

/-- R37 steps 1 and 3, R51, R63, R88, R89, R123: whatever the instruction, a word that fails a check of its legality takes trap cause 1 (IL) at
its own address for the executing lanes, as do an ERET outside a trap handler and every privileged word outside firmware; an E = 1 source that is
empty takes cause 2 (EMPTY) for its lanes; an FP exception whose TRAPEN bit is set takes cause 4 (ARITH) for the lanes that raised it; a result
below SIGMIN, where TRAPEN[5] is set and no such exception stands, takes cause 3 (SIG) with the tags that would have been written, one byte a
lane. EMPTY is shown of IADD, ARITH and SIG of FADD. None of them writes a register. The tag bytes of lanes that are not active are 0 by the
model's choice (log entry 83). -/
def Obligations.InstructionTraps : Prop :=
  (∀ (s : State) (c sl : Nat) (t : Team), curTeam s = some (c, sl, t) → t.halted = false → t.hold = none → t.trap = none → t.live ≠ 0 →
    TrapReady s c sl t 1 →
    let il := fun (h : Head) => { trapAt 1 (issueAddr t) (executing t) with rgn := h.rgn && !t.closed }
    let illegal := fun ins h => ∃ s' u, exec ins s = .next s' ∧ TookTrap s c sl t (il h) s' u
    (∀ ins maj fn b, parts ins = some (maj, fn, b) → ins.wf = false → illegal ins (headOf b)) ∧
    (t.saved = none → ∀ x, illegal (.eretSkip x) x.h ∧ illegal (.eretRestart x) x.h) ∧
    ((getLaunch s t.ctx t.seq).firmware = false →
      (∀ x, ∀ ins ∈ [Instr.dharv x, .tlbinvPage x, .tlbinvCtx x, .tlbinvAll x], illegal ins x.h) ∧
      ∀ x, ∀ ins ∈ [Instr.dbgbrkHalt x, .dbgbrkResume x, .dbgbrkStep x, .dbgbrkBack x, .dbgbrkBrk x, .dbgbrkClr x, .dbgbrkDbg x],
        illegal ins x.h)) ∧
  (∀ (w : Width) (x : RG) (s : State) (c sl : Nat) (t : Team), CanIssue s c sl t x.h → allocRG (isPair w) x t = true →
    (Instr.iadd w x).wf = true → x.a.e = true →
    let i := issueOf s c sl t x.h
    let m := maskOf fun l => inMask (active t x.h) l && !((rdA i x (isPair w)).at_ l).full
    m ≠ 0 → TrapReady (setTeam s c sl (entered s t x.h)) c sl (entered s t x.h) 2 →
      ∃ s' u, exec (.iadd w x) s = .next s' ∧
        TookTrap (setTeam s c sl (entered s t x.h)) c sl (entered s t x.h) (trapAt 2 (issueAddr t) m) s' u) ∧
  (∀ (x : RG) (s : State) (c sl : Nat) (t : Team), CanIssue s c sl t x.h → allocRG false x t = true → (Instr.fadd x).wf = true →
    let i := issueOf s c sl t x.h
    let a := fun l => vt fp32 x.a.m ((rdA i x false).at_ l)
    let b := fun l => vt fp32 x.b.m ((rd i x.b false).at_ l)
    let r := fun l => opAdd fp32 (rmode (recordOf s t) x.slot.toNat x.rnd) false (a l).1 (a l).2 (b l).1 (b l).2
    let m := maskOf fun l => inMask (active t x.h) l && ((r l).fl &&& (t.trapen.toNat % 32)) != 0
    let pol := slotSigpol (recSlot (recordOf s t) x.slot.toNat)
    let low := maskOf fun l => inMask (active t x.h) l && sigFails pol t.sigmin (polTag pol (r l).tag)
    let tags := (List.range 32).map fun l => if inMask (active t x.h) l then BitVec.ofNat 8 (polTag pol (r l).tag).toNat else 0
    Ready i [rdA i x false, rd i x.b false] [(x.d, false)] →
    (m ≠ 0 → TrapReady (setTeam s c sl (entered s t x.h)) c sl (entered s t x.h) 4 →
      ∃ s' u, exec (.fadd x) s = .next s' ∧
        TookTrap (setTeam s c sl (entered s t x.h)) c sl (entered s t x.h) (trapAt 4 (issueAddr t) m) s' u) ∧
    (m = 0 → low ≠ 0 → t.trapen.getLsbD 5 = true → TrapReady (setTeam s c sl (entered s t x.h)) c sl (entered s t x.h) 3 →
      ∃ s' u, exec (.fadd x) s = .next s' ∧ TookTrap (setTeam s c sl (entered s t x.h)) c sl (entered s t x.h)
        { trapAt 3 (issueAddr t) low with bytes := tags } s' u))

/-- R122, R123, R375: TRAP takes cause 0x0B with IMM32 in s59. A return brings the saved scalars back; the lanes whose saved `lpc` is
TRAPPC go to TRAPPC + 1 under *skip* and to the region entry (PC 0 in the start region) under *restart*, the other live lanes to their saved
`lpc`. A region entry that the skipped instruction had still to make is made (R39). The counters that a return leaves, and the region entry
that is still to be made after it, are the model's choice (log entry 17). -/
def Obligations.TrapAndReturn : Prop :=
  (∀ (x : IM) (s : State) (c sl : Nat) (t : Team), CanIssue s c sl t x.h → (Instr.trap x).wf = true →
    TrapReady (setTeam s c sl (entered s t x.h)) c sl (entered s t x.h) 0x0B →
      ∃ s' u, exec (.trap x) s = .next s' ∧ TookTrap (setTeam s c sl (entered s t x.h)) c sl (entered s t x.h)
        { trapAt 0x0B (issueAddr t) (active t x.h) with info := x.imm.setWidth 64 } s' u) ∧
  (∀ (x : RG) (s : State) (c sl : Nat) (t : Team) (sv : Saved), CanIssue s c sl t x.h → t.saved = some sv → x.h.rgn = false →
    t.enter = false →
    let tpc : Word := t.trappc.setWidth 32
    let back := fun (u : Team) (away : Word) => u.saved = none ∧ (∀ k, k < 8 → getS u (56 + k) = nth default sv.s56 k) ∧
      (∀ n l, l < 32 → getV u n l = getV t n l) ∧ (∀ n, n < 56 → getS u n = getS t n) ∧ (∀ n, getP u n = getP t n) ∧
      u.trapcause = t.trapcause ∧ u.trappc = t.trappc ∧ u.trapmask = t.trapmask ∧
      ∀ l < 32, getLpc u l = if !inMask t.live l then getLpc t l else if nth 0 sv.lpc l = tpc then away else nth 0 sv.lpc l
    ((Instr.eretSkip x).wf = true → ∃ s' u, exec (.eretSkip x) s = .next s' ∧ getTeam s' c sl = some u ∧ back u (tpc + 1) ∧
      (if sv.enter || sv.rgn then u.rgnpc = tpc ∧ u.rgncnt = sv.rgncnt + 1 ∧ u.retcnt = 1
        else u.rgnpc = sv.rgnpc ∧ u.rgncnt = sv.rgncnt ∧ u.retcnt = sv.retcnt + 1) ∧ SameMemory s s' ∧ SameOthers s s' c sl) ∧
    ((Instr.eretRestart x).wf = true → ∃ s' u, exec (.eretRestart x) s = .next s' ∧ getTeam s' c sl = some u ∧
      back u (if sv.rgncnt = 0 ∧ sv.enter = false then 0 else sv.rgnpc) ∧ u.rgnpc = sv.rgnpc ∧ u.retcnt = 0 ∧ SameMemory s s' ∧ SameOthers s s' c sl))

/-- R77, R114, R115: the branches send their active lanes to the target, CALL also puts PC + 1 into its link register. That AM inverts
the target of BRX and RET is the model's choice (log entry 16). -/
def Obligations.BranchResults : Prop :=
  ∀ (s : State) (c sl : Nat) (t : Team),
    (∀ x : BR, CanIssue s c sl t x.h →
      let target : Int := ((issueAddr t).toNat : Int) + sx x.ofs.toNat 38
      0 ≤ target → target < 2 ^ 32 →
      ((Instr.bra x).wf = true → ∃ s' u, Branches s c sl t x.h (exec (.bra x) s) .lpc (fun _ => BitVec.ofInt 32 target) s' u) ∧
      ((Instr.call x).wf = true → opdAlloc t x.d false = true → Ready (issueOf s c sl t x.h) [] [(x.d, false)] →
        ∃ s' u, Branches s c sl t x.h (exec (.call x) s) x.d (fun _ => BitVec.ofInt 32 target) s' u ∧
          ∀ l ∈ lanesOf (active t x.h), rdOpd s' u x.d false l = written x.d false ((issueAddr t + 1).setWidth 64) 63)) ∧
    (∀ x : RG, CanIssue s c sl t x.h → opdAlloc t x.a.o false = true → Ready (issueOf s c sl t x.h) [rdA (issueOf s c sl t x.h) x false] [] →
      let target := fun l => BitVec.ofNat 32 (ival 32 x.a.m ((rdA (issueOf s c sl t x.h) x false).at_ l))
      ((Instr.brx x).wf = true → ∃ s' u, Branches s c sl t x.h (exec (.brx x) s) .lpc target s' u) ∧
      ((Instr.ret x).wf = true → ∃ s' u, Branches s c sl t x.h (exec (.ret x) s) .lpc target s' u))

/-- R119: the encoding of NOP, the reserved FN values beside it, and that it only advances its lanes. -/
def Obligations.NopResults : Prop :=
  (∀ w < 2 ^ 96, w / 2 ^ 88 = 0x41 →
    let fn := w / 2 ^ 82 % 64
    (fn = 4 → w / 2 ^ 78 % 16 ≠ 15 → w / 2 ^ 72 % 8 = 0 →
      (w % 2 ^ 72 = 0 → ∃ x, decode (bytesOfWord w) = .ok (.nop x, [])) ∧ (w % 2 ^ 72 ≠ 0 → ∃ e, decode (bytesOfWord w) = .error e)) ∧
    (5 ≤ fn → ∃ e, decode (bytesOfWord w) = .error e)) ∧
  ∀ (x : RG) (s : State) (c sl : Nat) (t : Team), CanIssue s c sl t x.h → (Instr.nop x).wf = true →
    OnlyAdvances s c sl t x.h (exec (.nop x) s)

/-- R39: whatever the instruction, with executing lanes but no active one it takes steps 1, 2 and 8 alone, where step 1 does not raise IL. -/
def Obligations.GuardedOff : Prop :=
  ∀ (ins : Instr) (maj fn : Nat) (b : Body) (s : State) (c sl : Nat) (t : Team), parts ins = some (maj, fn, b) →
    let h := headOf b
    curTeam s = some (c, sl, t) → t.halted = false → t.hold = none → t.trap = none → t.live ≠ 0 →
    atStop t = false → atStop (entered s t h) = false → executing t &&& ~~~ (getP t h.gp.toNat).full = 0 → active t h = 0 →
    exec ins s ≠ .next (raiseTrap s c sl t { trapAt 1 (issueAddr t) (executing t) with rgn := h.rgn && !t.closed }) →
    OnlyAdvances s c sl t h (exec ins s) ∧
    ∀ s' u, exec ins s = .next s' → getTeam s' c sl = some u →
      u.retcnt = (entered s t h).retcnt + 1 ∧ u.relFence = t.relFence ∧ u.observed = t.observed ∧ u.arrivals = t.arrivals ∧
        u.collNo = t.collNo ∧ s'.relRecs = s.relRecs ∧ s'.nextId = s.nextId ∧ s'.freshCount = s.freshCount

/-- R117, R118, R120, R121: FEWAIT on a full source only advances; FESET and FECLR set the F/E bits of their destination elements,
whatever they were, and keep values and tags. EXIT ends its active lanes, whose `lpc` reads 0xFFFF_FFFF; the last one
ends the team, which leaves its slot once no producer into its registers is in flight. HALT halts the team at the next instruction. -/
def Obligations.ExitHaltAndFullEmptyResults : Prop :=
  (∀ (x : RG) (s : State) (c sl : Nat) (t : Team), CanIssue s c sl t x.h →
    ((Instr.fewait x).wf = true → opdAlloc t x.a.o (x.sub == 1) = true →
      Ready (issueOf s c sl t x.h) [rdA (issueOf s c sl t x.h) x (x.sub == 1)] [] → OnlyAdvances s c sl t x.h (exec (.fewait x) s))) ∧
  (∀ (x : RG) (s : State) (c sl : Nat) (t : Team), CanIssue s c sl t x.h →
    ((Instr.exit x).wf = true → ∃ s', exec (.exit x) s = .next s' ∧ SameMemory s s' ∧
      (t.live &&& ~~~ active t x.h ≠ 0 → ∃ u, getTeam s' c sl = some u ∧ u.live = t.live &&& ~~~ active t x.h ∧ SameAllRegs t u ∧
        SameOthers s s' c sl ∧ ∀ l < 32, getLpc u l = if inMask (active t x.h) l then 0xFFFFFFFF
          else if inMask (executing t) l then issueAddr t + 1 else getLpc t l) ∧
      (t.live &&& ~~~ active t x.h = 0 → (∀ r ∈ s.reqs, ¬ (r.core = c ∧ r.slot = sl)) → getTeam s' c sl = none)) ∧
    ((Instr.halt x).wf = true → ∃ s' u, exec (.halt x) s = .next s' ∧ getTeam s' c sl = some u ∧ u.halted = true ∧ SameAllRegs t u ∧
      SameFlags t u ∧ SameControl t u ∧ Advanced t u ∧ SameMemory s s' ∧ SameUnits s s' ∧ SameOthers s s' c sl)) ∧
  (∀ (x : RG) (s : State) (c sl : Nat) (t : Team), CanIssue s c sl t x.h → opdAlloc t x.d (x.sub == 1) = true →
    let marks := fun out (f : Bool) => ∃ s' u, out = .next s' ∧
      RegisterOnly s s' c sl (entered s t x.h) u x.d (x.sub == 1) (active t x.h) ∧ SameFlags t u ∧
      (x.d ≠ .p 7 → ∀ l ∈ lanesOf (active t x.h), rdOpd s' u x.d (x.sub == 1) l =
        { rdOpd s t x.d (x.sub == 1) l with full := f })
    ((Instr.feset x).wf = true → marks (exec (.feset x) s) true) ∧
    ((Instr.feclr x).wf = true → marks (exec (.feclr x) s) false))

/-- R30, R124, R125, R207: CRD reads a control register, whichever it names, in every lane its own; CWR writes SIGMIN, TRAPEN and OOBCNT, and
clears the bits it writes 1 to in SIGSTAT and FLTSTAT, from the lowest active lane. That M inverts CWR's source is the model's choice (log entry
16), and so is the clock that WSCAL counts (log entry 9). -/
def Obligations.ControlRegisterResults : Prop :=
  ∀ (x : IM) (s : State) (c sl : Nat) (t : Team), CanIssue s c sl t x.h →
    let i := issueOf s c sl t x.h
    let v : DWord := BitVec.ofNat 64 (ival (if x.md = 1 then 64 else 32) x.a.m ((rd i x.a (x.md == 1)).at_ (lowest (active t x.h))))
    ((Instr.crd x).wf = true → opdAlloc t x.d (x.md == 1) = true → Ready i [] [(x.d, x.md == 1)] →
      ∃ g : Nat → DWord, Yields s c sl t x.h (exec (.crd x) s) x.d (x.md == 1) g (fun _ => 63) ∧
        (x.imm = 0x00 → g = fun _ => BitVec.ofNat 64 (c + 2 ^ 10 * sl)) ∧
        (x.imm = 0x01 → g = fun _ => BitVec.ofNat 64 t.ctx) ∧
        (x.imm = 0x02 → g = fun _ => if (getCore s c).world then 1 else 0) ∧
        (x.imm = 0x08 → g = fun l => BitVec.ofNat 64 l) ∧
        (∀ k, 1 ≤ k → k ≤ 7 → x.imm.toNat = 0x08 + k → g = fun _ => BitVec.ofNat 64 (nth 0 t.lvl (k - 1))) ∧
        (x.imm = 0x10 → g = fun _ => t.sigmin) ∧ (x.imm = 0x11 → g = fun _ => t.sigstat) ∧
        (x.imm = 0x12 → g = fun _ => t.fltstat) ∧ (x.imm = 0x13 → g = fun _ => t.trapen) ∧
        (x.imm = 0x18 → g = fun _ => (entered s t x.h).rgncnt) ∧ (x.imm = 0x19 → g = fun _ => (entered s t x.h).retcnt) ∧
        (x.imm = 0x20 → g = fun _ => BitVec.ofNat 64 (getCtx s t.ctx).tickLife) ∧
        (∀ k < 8, x.imm.toNat = 0x28 + k → g = fun _ => nth 0 (getWg s c t.wg).delivered k) ∧
        (x.imm = 0x30 →
          let phase := s.clock % 32768
          ∃ w : DWord, (g = fun _ => w) ∧ w.toNat % 2 ^ 15 = phase ∧ w.toNat / 2 ^ 15 % 2 ^ 20 = s.clock / 32768 % 2 ^ 20 ∧
            (w.getLsbD 35 = true ↔ phase % 2048 < 128) ∧
            w.toNat / 2 ^ 36 = if phase % 2048 < 128 then phase / 2048 else (phase / 2048 + 1) % 16) ∧
        (x.imm = 0x14 → g = fun _ => t.oobcnt) ∧ (x.imm = 0x38 → g = fun _ => t.trapcause) ∧
        (x.imm = 0x39 → g = fun _ => t.trappc) ∧ (x.imm = 0x3A → g = fun _ => t.trapmask)) ∧
    ((Instr.cwr x).wf = true → Ready i [rd i x.a (x.md == 1)] [] →
      ∃ s' u, exec (.cwr x) s = .next s' ∧ getTeam s' c sl = some u ∧ SameAllRegs t u ∧ Advanced t u ∧ SameMemory s s' ∧ SameUnits s s' ∧
        SameOthers s s' c sl ∧ u.trapcause = t.trapcause ∧ u.trappc = t.trappc ∧ u.trapmask = t.trapmask ∧ u.saved = t.saved ∧
        u.bufs = t.bufs ∧ u.alloc = t.alloc ∧ u.live = t.live ∧
        u.sigmin = (if x.imm = 0x10 then v &&& 0x3F else t.sigmin) ∧
        u.sigstat = (if x.imm = 0x11 then t.sigstat &&& ~~~ (v &&& 1) else t.sigstat) ∧
        u.fltstat = (if x.imm = 0x12 then t.fltstat &&& ~~~ (v &&& 0x1F) else t.fltstat) ∧
        u.trapen = (if x.imm = 0x13 then v &&& 0x1FF else t.trapen) ∧
        u.oobcnt = (if x.imm = 0x14 then v &&& 0xFFFFFFFF else t.oobcnt))

/-! ### Cross-lane instructions, barriers, growth -/

/-- R173 to R175, R179, R180: LSHF and LBC move values between lanes with their tags, LVOTE and LELECT decide over the active lanes, LPC
reads masks of the team. -/
def Obligations.CrossLaneResults : Prop :=
  ∀ (x : RG) (s : State) (c sl : Nat) (t : Team), CanIssue s c sl t x.h →
    let i := issueOf s c sl t x.h
    let act := active t x.h
    let from_ := fun (wide : Bool) (q : Int) => if q < 0 ∨ 31 < q then (⟨0, 0, true⟩ : Val) else rdOpd i.s i.t x.a.o wide q.toNat
    let edge := fun (q : Int) => if x.sub.toNat % 4 = 1 then q % 32 else if x.sub.toNat % 4 = 2 then max 0 (min q 31) else q
    let dist := fun l => sx (ival 32 x.b.m ((rd i x.b false).at_ l)) 32
    let lane := fun l : Nat => edge (match x.xl with
      | .none => dist l | .bc => x.lane.toNat | .up => (l : Int) - x.lane.toNat | .dn => (l : Int) + x.lane.toNat
      | .xr => (l ^^^ x.lane.toNat : Nat))
    let moves := fun out (wide : Bool) (q : Nat → Int) => (∀ l ∈ lanesOf act, (from_ wide (q l)).full = true) →
      Ready i [] [(x.d, wide)] → Yields s c sl t x.h out x.d wide (fun l => (from_ wide (q l)).bits) fun l => (from_ wide (q l)).tag
    let yes := fun l => inMask act l && pval x.a.m ((rd i x.a false).at_ l)
    let above := fun l => inMask t.live l && decide ((issueAddr t).toNat < (getLpc t l).toNat)
    ((Instr.lshf x).wf = true → (opdAlloc t x.d (x.sub.getLsbD 2) && opdAlloc t x.a.o (x.sub.getLsbD 2) && opdAlloc t x.b.o false) = true →
      (x.xl = .none → Ready i [rd i x.b false] []) → moves (exec (.lshf x) s) (x.sub.getLsbD 2) lane) ∧
    ((Instr.lbc x).wf = true → (opdAlloc t x.d (x.sub.getLsbD 1) && opdAlloc t x.a.o (x.sub.getLsbD 1)) = true →
      moves (exec (.lbc x) s) (x.sub.getLsbD 1) fun _ => if x.sub.getLsbD 0 then (lowest act : Int) else x.lane.toNat) ∧
    ((Instr.lvote x).wf = true → opdAlloc t x.d false = true → Ready i [rd i x.a false] [(x.d, false)] →
      ∃ v : DWord, Yields s c sl t x.h (exec (.lvote x) s) x.d false (fun _ => v) (fun _ => 63) ∧
        (x.sub = 0 → v = if ∀ l ∈ lanesOf act, yes l = true then 1 else 0) ∧
        (x.sub = 1 → v = if ∃ l ∈ lanesOf act, yes l = true then 1 else 0) ∧
        (x.sub = 2 → v = if (∀ l ∈ lanesOf act, yes l = true) ∨ ∀ l ∈ lanesOf act, yes l = false then 1 else 0) ∧
        (x.sub = 3 → v = (maskOf yes).setWidth 64)) ∧
    ((Instr.lelect x).wf = true → Ready i [rd i x.a false] [(x.d, false)] →
      Yields s c sl t x.h (exec (.lelect x) s) x.d false (fun _ => 0) (fun _ => 63) ∧ (∀ l, yes l = false) ∨
      ∃ k, yes k = true ∧ (∀ l, yes l = true → if x.sub = 0 then k ≤ l else l ≤ k) ∧
        Yields s c sl t x.h (exec (.lelect x) s) x.d false (fun l => if l = k then 1 else 0) fun _ => 63) ∧
    ((Instr.lpc x).wf = true → opdAlloc t x.d false = true → Ready i [] [(x.d, false)] →
      ∃ v : Word, Yields s c sl t x.h (exec (.lpc x) s) x.d false (fun _ => v.setWidth 64) (fun _ => 63) ∧
        (x.sub = 0 → v = t.live) ∧ (x.sub = 1 → v = executing t) ∧ (x.sub = 2 → v = act) ∧ (x.sub = 3 → v = maskOf above) ∧
        (x.sub = 4 → (∀ l < 32, above l = true → v.toNat ≤ (getLpc t l).toNat) ∧
          ((v = 0xFFFFFFFF ∧ ∀ l < 32, above l = false) ∨ ∃ l < 32, above l = true ∧ v = getLpc t l)))

/-- R176 to R178: LSCAN gives each active lane the serial combine up to it, LRED gives every active lane the root of the fixed tree over
the 32 leaves; integer operations raise no flag, FP operations follow the slot's policy. -/
def Obligations.ScanAndReduceResults : Prop :=
  ∀ (x : RG) (s : State) (c sl : Nat) (t : Team), CanIssue s c sl t x.h →
    (opdAlloc t x.d (lanePair x) && opdAlloc t x.a.o (lanePair x)) = true →
    let i := issueOf s c sl t x.h
    let ws := recordOf s t
    let act := active t x.h
    let n := if lanePair x then 64 else 32
    let op := laneOp x
    let mode := rmode ws x.slot.toNat x.rnd
    let pol := slotSigpol (recSlot ws x.slot.toNat)
    let v := fun l : Nat => (((rd i x.a (lanePair x)).at_ l).bits.toNat, ((rd i x.a (lanePair x)).at_ l).tag.toNat)
    let serial := scanLanes op n mode (x.sub.getLsbD 5) v (lanesOf act) none
    let up := pairUp op n mode
    let tree := ((up (up (up (up (up (lanes.map fun l => if inMask act l then some (v l, 0) else none)))))).headD none).getD ((0, 0), 0)
    let scanAt := fun l => ((serial.1.find? fun e => e.1 == l).map (·.2)).getD (0, 0)
    let fo := fun (r : Nat → VT) (fl : Nat) (l : Nat) => (⟨(r l).1, fl, BitVec.ofNat 6 (r l).2⟩ : FO)
    let ends := fun out (r : Nat → VT) (fl : Nat) =>
      (op < 8 → Yields s c sl t x.h out x.d (lanePair x) (fun l => BitVec.ofNat 64 (r l).1) fun l => BitVec.ofNat 6 (r l).2) ∧
      (8 ≤ op → NoFpTrap t x.h pol (fo r fl) → FpDone s c sl t x.h out x.d (lanePair x) pol (fo r fl))
    Ready i [rd i x.a (lanePair x)] [(x.d, lanePair x)] →
      ((Instr.lscan x).wf = true → ends (exec (.lscan x) s) scanAt serial.2) ∧
      ((Instr.lred x).wf = true → ends (exec (.lred x) s) (fun _ => tree.1) tree.2)

/-- R188 to R191: TOPKI inserts each lane's candidate into its list and touches no other register; RNG computes its output from key and
counter. That BM inverts RNG's counter operand is the model's choice (log entry 16). -/
def Obligations.RoutingResults : Prop :=
  ∀ (x : RG) (s : State) (c sl : Nat) (t : Team), CanIssue s c sl t x.h →
    let i := issueOf s c sl t x.h
    let k := x.sub.toNat % 8 + 1
    let n := match x.d with | .v n => n.toNat | _ => 0
    let list := fun (u : Team) l => (List.range k).map fun j => (getV u (n + j) l, getV u (n + k + j) l)
    let out := fun l => rngOut (ival 64 false ((rdA i x true).at_ l)) (ival 64 x.b.m ((rd i x.b true).at_ l))
    ((Instr.topki x).wf = true → (rangeAlloc t x.d (2 * k) && opdAlloc t x.a.o false && opdAlloc t x.b.o false) = true →
      Ready i [rdA i x false, rd i x.b false] ((List.range (2 * k)).map fun j => (Opd.v (BitVec.ofNat 8 (n + j)), false)) →
      ∃ s' u, exec (.topki x) s = .next s' ∧ getTeam s' c sl = some u ∧ SameFlags t u ∧ SameControl t u ∧ Advanced t u ∧ SameMemory s s' ∧
        SameUnits s s' ∧ SameOthers s s' c sl ∧
        (∀ l ∈ lanesOf (active t x.h), list u l = (topInsert (x.sub.getLsbD 3) (list t l) (vt fp32 x.a.m ((rdA i x false).at_ l))
          (ival 32 x.b.m ((rd i x.b false).at_ l), 63)).map fun e => ({ e.1 with full := true }, { e.2 with full := true })) ∧
        (∀ m l, l < 32 → ¬ (n ≤ m ∧ m < n + 2 * k ∧ inMask (active t x.h) l = true) → getV u m l = getV t m l) ∧
        (∀ m, getS u m = getS t m) ∧ ∀ m, getP u m = getP t m) ∧
    ((Instr.rng x).wf = true → (opdAlloc t x.d (x.sub == 0) && opdAlloc t x.a.o true && opdAlloc t x.b.o true) = true →
      Ready i [rdA i x true, rd i x.b true] [(x.d, x.sub == 0)] →
      Yields s c sl t x.h (exec (.rng x) s) x.d (x.sub == 0) (fun l => BitVec.ofNat 64 (if x.sub = 0 then out l else rngF32 (out l)))
        fun _ => if x.sub = 0 then 63 else 24)

/-- R182, R183, R185 to R187: a team arrives at a barrier with BAR.ARV and goes on, arrives with BAR.SYNC and is held, passes BAR.WAIT once the
phase of its arrival is over. RGROW past 256 registers delivers 0, else it waits for its grant, which adds registers, or its denial; RSHR gives
registers back. -/
def Obligations.BarrierAndGrowthResults : Prop :=
  (∀ (x : IM) (s : State) (c sl : Nat) (t : Team), CanIssue s c sl t x.h →
    let L := x.imm.toNat % 8
    let bid := x.imm.toNat / 8 % 32
    barLevelOk (recordOf s t) L = true → pendingArrival s t L bid = false →
    (∀ q ∈ s.reqs, ¬ (q.core = c ∧ q.tid = t.tid ∧ isAccess q = true)) →
    let b := teamBar s t L bid
    let me := teamNo (recordOf s t) t.lvl L
    let arrived := fun (s' : State) (u : Team) => (∃ q ∈ (getCtx s t.ctx).launches, q.seq = t.seq) →
      (teamBar s' u L bid).phase = b.phase ∧ (teamBar s' u L bid).arrived = insAsc me b.arrived ∧ pendingArrival s' u L bid = true
    ((Instr.barArv x).wf = true → ∃ s' u, exec (.barArv x) s = .next s' ∧ getTeam s' c sl = some u ∧ arrived s' u ∧ Advanced t u ∧
      SameAllRegs t u ∧ SameMemory s s' ∧ SameOthers s s' c sl) ∧
    ((Instr.barSync x).wf = true → ∃ s' u, exec (.barSync x) s = .next s' ∧ getTeam s' c sl = some u ∧ arrived s' u ∧
      (∃ k, u.hold = some k ∧ k.kind = .barrier L bid ∧ k.pc = issueAddr t ∧ k.exec = executing t ∧ k.act = active t x.h) ∧
      u.lpc = t.lpc ∧ SameAllRegs t u ∧ SameMemory s s' ∧ SameOthers s s' c sl) ∧
    ((Instr.barWait x).wf = true → OnlyAdvances s c sl t x.h (exec (.barWait x) s))) ∧
  (∀ (x : IM) (s : State) (c sl : Nat) (t : Team), CanIssue s c sl t x.h →
    let m := x.imm.toNat
    ((Instr.rgrow x).wf = true → Ready (issueOf s c sl t x.h) [] [(x.d, false)] →
      (256 < t.alloc + m → Yields s c sl t x.h (exec (.rgrow x) s) x.d false (fun _ => 0) fun _ => 63) ∧
      (t.alloc + m ≤ 256 → t.growth = none → ∃ s' u, exec (.rgrow x) s = .next s' ∧ getTeam s' c sl = some u ∧ u.growth = none ∧
        u.lpc = t.lpc ∧ SameAllRegs t u ∧ u.alloc = t.alloc ∧ SameMemory s s' ∧ SameUnits s s' ∧ SameOthers s s' c sl) ∧
      (t.alloc + m ≤ 256 → t.growth = some 0 → Yields s c sl t x.h (exec (.rgrow x) s) x.d false (fun _ => 0) fun _ => 63) ∧
      (∀ k, t.alloc + m ≤ 256 → t.growth = some (k + 1) → ∃ s' u, exec (.rgrow x) s = .next s' ∧ getTeam s' c sl = some u ∧
        u.alloc = t.alloc + m ∧ u.growth = none ∧ Advanced t u ∧ SameFlags t u ∧ SameMemory s s' ∧ SameUnits s s' ∧ SameOthers s s' c sl ∧
        (∀ l ∈ lanesOf (active t x.h), rdOpd s' u x.d false l = written x.d false 1 63) ∧
        (∀ n l, l < 32 → getV u n l = if t.alloc ≤ n ∧ n < t.alloc + m then ⟨0, true, 63⟩ else getV t n l) ∧
        (∀ n, getS u n = getS t n) ∧ ∀ n, namesP x.d n = false → getP u n = getP t n)) ∧
    ((Instr.rshr x).wf = true → m + 32 ≤ t.alloc → (∀ q ∈ s.reqs, q.tid ≠ t.tid) → t.heldRegs = [] →
      ∃ s' u, exec (.rshr x) s = .next s' ∧ getTeam s' c sl = some u ∧ u.alloc = t.alloc - m ∧ Advanced t u ∧
        (∀ n l, l < 32 → n < t.alloc - m → getV u n l = getV t n l) ∧ (∀ n, getS u n = getS t n) ∧ (∀ n, getP u n = getP t n) ∧
        SameFlags t u ∧ SameMemory s s' ∧ SameUnits s s' ∧ SameOthers s s' c sl))

/-- R169, R170, R182, R183, R186: a barrier opens its next phase when every team of the unit has arrived or ended and at least one has arrived.
The oldest growth request that fits is granted; when every team of a core that could act waits for registers and the oldest request does not fit,
the youngest is denied. That a phase ends only if a team has arrived, and not while its context is suspended, is the model's choice (log entry
57). -/
def Obligations.BarrierAndGrowthEvents : Prop :=
  (∀ (ctx seq L unit bid : Nat) (s : State), (∃ q ∈ (getCtx s ctx).launches, q.seq = seq) →
    let q := getLaunch s ctx seq
    let b := getBar q L unit bid
    let present := sortAsc (b.arrived ++ endedIn q L unit)
    ((getCtx s ctx).st ≠ .suspended ∧ b.arrived ≠ [] ∧ teamsIn q.words L ≤ present.length → ∃ s', exec (.barrierPhaseComplete ctx seq L unit bid) s = .next s' ∧
      SameMemory s s' ∧ (getBar (getLaunch s' ctx seq) L unit bid).phase = b.phase + 1 ∧
      (getBar (getLaunch s' ctx seq) L unit bid).arrived = []) ∧
    ((getCtx s ctx).st = .suspended ∨ b.arrived = [] ∨ present.length < teamsIn q.words L → exec (.barrierPhaseComplete ctx seq L unit bid) s = .next s)) ∧
  (∀ (core : Nat) (s : State),
    let k := getCore s core
    let answer := fun (sl m : Nat) (s' : State) => SameMemory s s' ∧ SameOthers s s' core sl ∧
      ∀ t, getTeam s core sl = some t → getTeam s' core sl = some { t with growth := some m }
    (∀ sl m, grantable s core = some (sl, m) → ∃ s', exec (.rgrowGrant core) s = .next s' ∧ answer sl m s') ∧
    (grantable s core = none → exec (.rgrowGrant core) s = .next s) ∧
    (∀ e sl m, (growthQueue s core).getLast? = some (e, sl, m) → grantable s core = none →
      (∀ z ∈ k.teams, z.2.halted = false → z.2.live ≠ 0 → (growthOf s core z.2).isSome = true) →
      (∃ z ∈ k.teams, z.2.halted = false ∧ z.2.live ≠ 0) →
      ∃ s', exec (.rgrowDeny core) s = .next s' ∧ answer sl 0 s'))

/-! ### Memory instructions -/

/-- R126, R128, R129, R131: LD empties the destination of its in-bounds lanes and sends one read for each, out-of-bounds lanes take 0; ST sends
one write for each lane, of which the highest at an address carries the bytes, and through a T record their shadow bytes; PREF sends no request
and may only fetch lines into the slice caches. -/
def Obligations.LoadAndStoreIssue : Prop :=
  ∀ (x : MM) (s : State) (c sl : Nat) (t : Team), CanIssue s c sl t x.h → opdAlloc t x.a.o false = true →
    let i := issueOf s c sl t x.h
    let pair := pairSize x.size
    let n := sizeBytes x.size
    let buf := bufOf t x.brec.toNat
    ((Instr.ld x).wf = true → opdAlloc t x.d pair = true → Ready i [rd i x.a false] [(x.d, pair)] →
      let ls := served x.d (active t x.h)
      let f := loadFmt (slotFmt (recSlot (recordOf s t) x.slot.toNat)) x.size
      CanAccess i x ls → Own s c t false ((insOf i x ls).map (vaOf i x n)) →
      (f.fp = true → brT buf = true → Own s c t false ((insOf i x ls).map (shOf i x))) →
      ∃ s' u, exec (.ld x) s = .next s' ∧
        Sends s s' c sl (entered s t x.h) u x.d pair (active t x.h) false (satAdd32 t.oobcnt (outOf i x ls).length) ∧
        Awaits s s' t u x.d pair (insOf i x ls) (outOf i x ls) ∧
        Sent s s' c sl t ((insOf i x ls).map fun l => askMM t x false true false l (vaOf i x n l) n (.load x.d pair f))) ∧
    ((Instr.st x).wf = true → opdAlloc t x.b.o pair = true → Ready i [rd i x.a false, rd i x.b pair] [] →
      let ls := lanesOf (active t x.h)
      let v := fun l => (rd i x.b pair).at_ l
      CanAccess i x ls → Own s c t true ((insOf i x ls).map (vaOf i x n)) →
      (brT buf = true → Own s c t true ((insOf i x ls).map (shOf i x))) →
      releaseWaits i x false (!(insOf i x ls).isEmpty) = false →
      let tags := (insOf i x ls).map fun l =>
        { askPlain false true l (shOf i x l) 1 (.store [(v l).tag.setWidth 8]) with acq := x.ord == .acq, scope := x.scope }
      let data := (insOf i x ls).map fun l => askMM t x false false true l (vaOf i x n l) n (.store (leBytes n (v l).bits.toNat))
      ∃ s' u, exec (.st x) s = .next s' ∧
        Sends s s' c sl (entered s t x.h) u (.x 0) false 0 (x.ord == .rel) (satAdd32 t.oobcnt (outOf i x ls).length) ∧
        Sent s s' c sl t (lastStores (if brT buf then tags else []) ++ lastStores data)) ∧
    ((Instr.pref x).wf = true → recBound t x = true → Ready i [rd i x.a false] [] → logFull s c = false →
      Walks s c t ((insOf i x (lanesOf (active t x.h))).map (vaOf i x n)) →
      ∃ s' u, exec (.pref x) s = .next s' ∧ s'.reqs = s.reqs ∧
        Sends s s' c sl (entered s t x.h) u (.x 0) false 0 false t.oobcnt)

/-- R34, R132, R133: BRLD sends the read of its record and holds its team, or takes the zero record where its index is out of bounds;
BRMK builds the record from four scalars, and takes trap IL where it fails the check of R34. That AM inverts BRMK's sources (log entry 16) and
which lanes its trap names (log entry 61) are the model's choices. -/
def Obligations.BufferRecords : Prop :=
  ∀ (s : State) (c sl : Nat) (t : Team),
    (∀ x : MM, CanIssue s c sl t x.h → (Instr.brld x).wf = true →
      let i := issueOf s c sl t x.h
      let l := lowest (active t x.h)
      Ready i [rd i x.a false] [] → CanAccess i x [l] →
      (brIn (bufOf t x.brec.toNat) (idxOf i x l) = true → Own s c t false [vaOf i x 32 l] →
        ∃ s' u, exec (.brld x) s = .next s' ∧ getTeam s' c sl = some u ∧ HeldAt t u x.h .request ∧ SameAllRegs t u ∧ SameFlags t u ∧
          SameMemory s s' ∧ SameEngines s s' ∧ SameOthers s s' c sl ∧
          Sent s s' c sl t [askMM t x false true false l (vaOf i x 32 l) 32 (.brld (xNum x.d))]) ∧
      (brIn (bufOf t x.brec.toNat) (idxOf i x l) = false →
        ∃ s' u, exec (.brld x) s = .next s' ∧ getTeam s' c sl = some u ∧ SameAllRegs t u ∧ Advanced t u ∧ u.oobcnt = satAdd32 t.oobcnt 1 ∧
          (∀ n, bufOf u n = if n = xNum x.d then 0 else bufOf t n) ∧ SameMemory s s' ∧ SameUnits s s' ∧ SameOthers s s' c sl)) ∧
    (∀ x : RG, CanIssue s c sl t x.h → (Instr.brmk x).wf = true →
      let i := issueOf s c sl t x.h
      let m := match x.a.o with | .s m => m.toNat | _ => 0
      let src := fun k => rd i { x.a with o := .s (BitVec.ofNat 6 (m + k)) } true
      let w := fun k => ival 64 x.a.m ((src k).at_ 0)
      let r : BitVec 256 := BitVec.ofNat 256 (w 0 + 2 ^ 64 * w 1 + 2 ^ 128 * w 2 + 2 ^ 192 * w 3)
      Ready i [src 0, src 1, src 2, src 3] [] →
      (brOk r = true → ∃ s' u, exec (.brmk x) s = .next s' ∧ getTeam s' c sl = some u ∧ SameAllRegs t u ∧ SameFlags t u ∧ Advanced t u ∧
        (∀ n, bufOf u n = if n = xNum x.d then r else bufOf t n) ∧ SameMemory s s' ∧ SameUnits s s' ∧ SameOthers s s' c sl) ∧
      (brOk r = false → TrapReady s c sl t 1 → ∃ s' u, exec (.brmk x) s = .next s' ∧
        TookTrap s c sl (entered s t x.h) (trapAt 1 (issueAddr t) (executing t)) s' u))

/-- R231 to R236: LDS and LDW empty their destination and send one read for each in-bounds lane, STS one write, of which the highest lane's at an
address carries the bytes; LDS and STS wait for full lines unless the cache hint forgoes it. -/
def Obligations.ScratchpadIssue : Prop :=
  ∀ (x : MM) (s : State) (c sl : Nat) (t : Team), CanIssue s c sl t x.h → logFull s c = false →
    let i := issueOf s c sl t x.h
    let pair := pairSize x.size
    let n := sizeBytes x.size
    let f := loadFmt (slotFmt (recSlot (recordOf s t) x.slot.toNat)) x.size
    let place := fun l => match scrLane i x l with | .at_ k b => some (Loc.scratch k b) | _ => none
    let fine := fun ls => (∀ l ∈ ls, scrLane i x l ≠ .world) ∧
      (x.cache = 0 → ∀ l ∈ ls, ∀ k b, scrLane i x l = .at_ k b → lineFull s k (b / 128) = true)
    let ins := fun (p : Nat → Option Loc) (ls : List Nat) => ls.filter fun l => (p l).isSome
    let out := fun (p : Nat → Option Loc) (ls : List Nat) => ls.filter fun l => (p l).isNone
    let asks := fun (p : Nat → Option Loc) (ls : List Nat) (k : Nat → Ask) => ls.filterMap fun l => (p l).map fun z => (k l, z)
    let loads := fun (o : Host.Outcome State Fault Refusal) (p : Nat → Option Loc) (k : Nat → Ask) =>
      let ls := served x.d (active t x.h)
      ∃ s' u, o = .next s' ∧
        Sends s s' c sl (entered s t x.h) u x.d pair (active t x.h) false (satAdd32 t.oobcnt (out p ls).length) ∧
        Awaits s s' t u x.d pair (ins p ls) (out p ls) ∧ SentAt s s' c sl t (asks p ls k)
    ((Instr.lds x).wf = true → (opdAlloc t x.d pair && scrAlloc t x) = true → Ready i (scrSrcs i x) [(x.d, pair)] →
      layoutLegal i x = true → fine (served x.d (active t x.h)) →
      loads (exec (.lds x) s) place fun l => askMM t x false true false l 0 n (.lds x.d pair f)) ∧
    ((Instr.sts x).wf = true → (opdAlloc t x.d pair && scrAlloc t x) = true → Ready i (scrSrcs i x ++ [rd i ⟨x.d, false, false⟩ pair]) [] →
      layoutLegal i x = true → fine (lanesOf (active t x.h)) →
      (x.ord = .rel → (∀ l ∈ lanesOf (active t x.h), place l = none) → teamDone s c t.tid (fun q => !isTicketRead q) = true) →
      let ls := lanesOf (active t x.h)
      let v := fun l => rdOpd i.s i.t x.d pair l
      ∃ s' u, exec (.sts x) s = .next s' ∧
        Sends s s' c sl (entered s t x.h) u (.x 0) false 0 (x.ord == .rel) (satAdd32 t.oobcnt (out place ls).length) ∧
        SentAt s s' c sl t (lastStoresAt (asks place ls fun l =>
          askMM t x false false true l 0 n (.sts (leBytes n (v l).bits.toNat) (v l).tag pair)))) ∧
    ((Instr.ldw x).wf = true → (opdAlloc t x.d pair && opdAlloc t x.a.o false) = true → Ready i [rd i x.a false] [(x.d, pair)] →
      let w := fun l => weightAt c (x.brec == 1) (((rd i x.a false).at_ l).bits.toNat % 2 ^ 32) (sx x.ofs.toNat 21) n
      (∀ l ∈ served x.d (active t x.h), ∀ b, w l = some b → weightSecure s b = (getCore s c).world) →
      loads (exec (.ldw x) s) (fun l => (w l).map Loc.weight) fun l => askPlain true false l 0 n (.load x.d pair f))

/-- R254 to R257: LNSET and LNCLR turn exactly the named lines of the team's reach full or empty, LNWAIT passes when every one is full, and each
lane that named a line out of bounds counts. SPL sends the lines of the register image; FIL empties every element that the image will restore and
sends its read; an image out of bounds is not stored, and restores 0 with tag 0, full, and counts once: where an image is out of bounds is the model's
choice (log entry 64). -/
def Obligations.LinesSpillAndFill : Prop :=
  (∀ (x : RG) (s : State) (c sl : Nat) (t : Team), CanIssue s c sl t x.h → (opdAlloc t x.a.o false && opdAlloc t x.b.o false) = true →
    let i := issueOf s c sl t x.h
    let named := fun l => namedLines i (ival 32 x.a.m ((rd i x.a false).at_ l)) (ival 32 x.b.m ((rd i x.b false).at_ l))
    let ls := (lanesOf (active t x.h)).flatMap fun l => (named l).lines
    let skips := ((lanesOf (active t x.h)).filter fun l => (named l).skip).length
    let passes := fun out => ∃ s' u, out = .next s' ∧
      Sends s s' c sl (entered s t x.h) u (.x 0) false 0 false (satAdd32 t.oobcnt skips) ∧ s'.reqs = s.reqs
    let marks := fun out full => ∃ s' u, out = .next s' ∧ getTeam s' c sl = some u ∧ SameAllRegs t u ∧ Advanced t u ∧
      u.oobcnt = satAdd32 t.oobcnt skips ∧ SameControl t u ∧ SameBytes s s' ∧ s'.reqs = s.reqs ∧ SameEngines s s' ∧ SameOthers s s' c sl ∧
      LinesSet s s' full ls
    Ready i [rd i x.a false, rd i x.b false] [] → (∀ l ∈ lanesOf (active t x.h), (named l).world = false) →
      ((Instr.lnwait x).wf = true → (∀ z ∈ ls, lineFull s z.1 z.2 = true) → passes (exec (.lnwait x) s)) ∧
      ((Instr.lnset x).wf = true → marks (exec (.lnset x) s) true) ∧
      ((Instr.lnclr x).wf = true → marks (exec (.lnclr x) s) false)) ∧
  (∀ (x : RG) (s : State) (c sl : Nat) (t : Team), CanIssue s c sl t x.h → logFull s c = false → t.alloc ≤ 256 →
    let i := issueOf s c sl t x.h
    let m := x.sub.toNat + 1
    let adr := ival 32 x.b.m ((rd i x.b false).at_ 0)
    Ready i [rd i x.b false] [] →
    ((Instr.spl x).wf = true → rangeAlloc t x.a.o m = true →
      (∀ q ∈ s.reqs, ¬ (q.core = c ∧ q.tid = t.tid ∧ ∃ r ∈ producesInto q.kind, r ∈ imageRegs x.a.o m)) →
      (∀ k b, imageAt i adr (imageLines x.a.o m) = .at_ k b → imageFull s k b (imageLines x.a.o m) = true →
        ∃ s' u, exec (.spl x) s = .next s' ∧ Sends s s' c sl (entered s t x.h) u (.x 0) false 0 false t.oobcnt ∧
          SentAt s s' c sl t ((List.range (imageLines x.a.o m)).map fun j =>
            let w := nth ([], []) (imageOf t x.a.o m) j
            (askPlain false true 0 0 128 (.spl w.1 w.2), .scratch k (b + 128 * j)))) ∧
      (imageAt i adr (imageLines x.a.o m) = .oob →
        ∃ s' u, exec (.spl x) s = .next s' ∧ Sends s s' c sl (entered s t x.h) u (.x 0) false 0 false (satAdd32 t.oobcnt 1) ∧
          s'.reqs = s.reqs)) ∧
    ((Instr.fil x).wf = true → rangeAlloc t x.d m = true → (imageRegs x.d m).all (regFree t) = true →
      let hit := fun r => (imageRegs x.d m).contains r
      (imageAt i adr (imageLines x.d m) = .oob → ∃ s' u, exec (.fil x) s = .next s' ∧ getTeam s' c sl = some u ∧ u.fltstat = t.fltstat ∧
        u.sigstat = t.sigstat ∧ u.oobcnt = satAdd32 t.oobcnt 1 ∧ SameControl t u ∧ Advanced t u ∧ SameMemory s s' ∧ SameUnits s s' ∧
        SameOthers s s' c sl ∧
        (∀ n l, l < 32 → getV u n l = if hit n && decide (n < 256) then ⟨0, true, 0⟩ else getV t n l) ∧
        (∀ n, n < 64 → getS u n = if hit (256 + n) then ⟨0, true, 0⟩ else getS t n) ∧
        ∀ n l, n < 7 → l < 32 → inMask (getP u n).val l = (inMask (getP t n).val l && !hit (320 + n)) ∧
          inMask (getP u n).full l = (inMask (getP t n).full l || hit (320 + n))) ∧
      ∀ k b, imageAt i adr (imageLines x.d m) = .at_ k b → imageFull s k b (imageLines x.d m) = true →
        ∃ s' u, exec (.fil x) s = .next s' ∧ getTeam s' c sl = some u ∧ SameFlags t u ∧ SameControl t u ∧ Advanced t u ∧ SameMemory s s' ∧
          SameEngines s s' ∧ SameOthers s s' c sl ∧
          (∀ n l, l < 32 → getV u n l = if hit n && decide (n < 256) then { getV t n l with full := false } else getV t n l) ∧
          (∀ n, n < 64 → getS u n = if hit (256 + n) then { getS t n with full := false } else getS t n) ∧
          (∀ n l, n < 8 → l < 32 → inMask (getP u n).val l = inMask (getP t n).val l ∧
            inMask (getP u n).full l = (inMask (getP t n).full l && !hit (320 + n))) ∧
          SentAt s s' c sl t [(askPlain true false 0 0 (128 * imageLines x.d m) (.fil x.d m), .scratch k b)]))

/-! ### Tickets, read-modify-writes, fences -/

/-- R238, R239: LDT sends one line-set for each 512-B block that its in-bounds lanes name, in ascending order, and the lanes await its
ticket; out-of-bounds lanes take a ticket of SIZE 0. -/
def Obligations.TicketIssue : Prop :=
  ∀ (x : MM) (s : State) (c sl : Nat) (t : Team), CanIssue s c sl t x.h → (Instr.ldt x).wf = true →
    (opdAlloc t x.d true && opdAlloc t x.a.o false) = true →
    let i := issueOf s c sl t x.h
    let n := sizeBytes x.size
    let buf := bufOf t x.brec.toNat
    let f := loadFmt (slotFmt (recSlot (recordOf s t) x.slot.toNat)) x.size
    let ls := served x.d (active t x.h)
    let ins := insOf i x ls
    Ready i [rd i x.a false] [(x.d, true)] → CanAccess i x ls → Own s c t false (ins.map fun l => vaOf i x n l / 512 * 512) →
    Walks s c t (ins.map (vaOf i x n)) → (f.fp = true → brT buf = true → Own s c t false (ins.map (shOf i x))) →
    ∃ s' u, exec (.ldt x) s = .next s' ∧
      Sends s s' c sl (entered s t x.h) u x.d true (active t x.h) true (satAdd32 t.oobcnt (outOf i x ls).length) ∧
      (∀ l ∈ ins, rdOpd s' u x.d true l = { rdOpd s t x.d true l with full := false }) ∧
      (∀ l ∈ outOf i x ls, rdOpd s' u x.d true l = written x.d true (mkTicket s 0 0 0 0 (brWld buf) false t.ctx) 63) ∧
      ∃ qs, s'.reqs = s.reqs ++ qs ∧ (∀ q ∈ qs, Mine c sl t q) ∧
        qs.map (fun q => (q.va, q.n, q.read, q.write)) = (sortAsc (ins.map fun l => vaOf i x n l / 512)).map (fun b => (512 * b, 512, true, false)) ∧
        ∀ q ∈ qs, ∃ lines lanes elems sh, q.kind = .ldt x.d q.va lines lanes elems f (f.fp && brT buf) sh (brWld buf) ∧
          ∀ l < 32, inMask lanes l = (ins.contains l && vaOf i x n l / 512 == q.va / 512)

/-- R241 to R245: RDM and TKDROP send one request for each group of lanes with one ticket, in the order of their lowest lanes; the lanes of a
group await its verdict, and its data where RDM asks for it; a ticket of SIZE 0, or a group out of bounds, fails at once. That AM inverts the
ticket operand is the model's choice (log entry 16). -/
def Obligations.RedeemIssue : Prop :=
  ∀ (x : RG) (s : State) (c sl : Nat) (t : Team), CanIssue s c sl t x.h → opdAlloc t x.a.o true = true →
    let i := issueOf s c sl t x.h
    let act := lanesOf (active t x.h)
    let tk := fun l => BitVec.ofNat 64 (ival 64 x.a.m ((rd i x.a true).at_ l))
    let groups := ticketGroups (act.filter fun l => tkSize (tk l) != 0) tk
    let stale := act.filter fun l => tkSize (tk l) == 0
    let sp := x.sub.getLsbD 0
    let pair := x.sub.getLsbD 1
    let at_ := fun g : DWord × List Nat => redeemAt i (ival 32 x.b.m ((rd i x.b false).at_ (g.2.headD 0))) g.1
    (∀ l ∈ act, tkCtx (tk l) = t.ctx ∧ tkInc (tk l) = (getCtx s t.ctx).inc.toNat ∧ tkWld (tk l) = (getCore s c).world) →
    let frame := fun (u : Team) (st d : Opd) => (∀ n l, l < 32 → (namesV d pair n && inMask (active t x.h) l) = false → getV u n l = getV t n l) ∧
      (∀ n, getS u n = getS t n) ∧ (∀ n l, l < 32 → (namesP st n && inMask (active t x.h) l) = false →
        inMask (getP u n).val l = inMask (getP t n).val l ∧ inMask (getP u n).full l = inMask (getP t n).full l)
    let rest := fun s' (u : Team) oob => getTeam s' c sl = some u ∧ u.fltstat = t.fltstat ∧ u.sigstat = t.sigstat ∧
      u.oobcnt = satAdd32 t.oobcnt oob ∧ SameControl t u ∧ SameBytes s s' ∧ SameEngines s s' ∧ SameOthers s s' c sl
    let waits := fun s' (u : Team) (st : Opd) ls => st ≠ .p 7 → ∀ l ∈ ls, (rdOpd s' u st false l).full = false
    let fails := fun s' (u : Team) (st : Opd) ls => ∀ l ∈ ls, rdOpd s' u st false l = written st false 0 63
    let ask := fun (st : Opd) (d : Opd × Bool) drop (g : DWord × List Nat) (q : Option Nat) =>
      askPlain false false (g.2.headD 0) 0 0 (.redeem g.1 (maskOfList g.2) drop st d.1 d.2 q none)
    ((Instr.rdm x).wf = true → sp = false → opdAlloc t x.d pair = true → Ready i [rd i x.a true] [(x.d, pair), (x.c.o, false)] →
      t.trapen.getLsbD 6 = false →
      ∃ s' u, exec (.rdm x) s = .next s' ∧ rest s' u 0 ∧ frame u x.c.o x.d ∧ RegionAfter true (entered s t x.h) u ∧ Advanced t u ∧
        waits s' u x.c.o (groups.flatMap (·.2)) ∧ (∀ l ∈ groups.flatMap (·.2), (rdOpd s' u x.d pair l).full = false) ∧
        fails s' u x.c.o stale ∧ (∀ l ∈ stale, rdOpd s' u x.d pair l = written x.d pair 0 0) ∧
        Sent s s' c sl t (groups.map fun g => ask x.c.o (x.d, pair) false g none)) ∧
    ((Instr.rdm x).wf = true → sp = true → opdAlloc t x.b.o false = true → Ready i [rd i x.a true, rd i x.b false] [(x.c.o, false)] →
      t.trapen.getLsbD 6 = false → (∀ g ∈ groups, at_ g ≠ .world) →
      let sent := groups.filter fun g => at_ g != .oob
      let to_ := fun g => match at_ g with | .at_ k b => k * 2 ^ 20 + b | _ => 0
      ∃ s' u, exec (.rdm x) s = .next s' ∧ rest s' u (groups.filter fun g => at_ g == .oob).length ∧ frame u x.c.o (.x 0) ∧
        RegionAfter true (entered s t x.h) u ∧ Advanced t u ∧ waits s' u x.c.o (sent.flatMap (·.2)) ∧
        fails s' u x.c.o (stale ++ (groups.filter fun g => at_ g == .oob).flatMap (·.2)) ∧
        LinesSet s s' false (sent.flatMap fun g => redeemLines g.1 (to_ g / 2 ^ 20) (to_ g % 2 ^ 20)) ∧
        Sent s s' c sl t (sent.map fun g => ask x.c.o (.x 0, false) false g (some (to_ g)))) ∧
    ((Instr.tkdrop x).wf = true → Ready i [rd i x.a true] [(x.d, false)] → t.trapen.getLsbD 6 = false →
      ∃ s' u, exec (.tkdrop x) s = .next s' ∧ rest s' u 0 ∧ frame u x.d (.x 0) ∧ RegionAfter true (entered s t x.h) u ∧ Advanced t u ∧
        waits s' u x.d (groups.flatMap (·.2)) ∧ fails s' u x.d stale ∧
        Sent s s' c sl t (groups.map fun g => ask x.d (.x 0, false) true g none)) ∧
    ((Instr.tkdrop x).wf = true → Ready i [rd i x.a true] [(x.d, false)] → t.trapen.getLsbD 6 = true → groups ≠ [] →
      ∃ s' u, exec (.tkdrop x) s = .next s' ∧ rest s' u 0 ∧ HeldAt t u x.h (.verdicts (maskOfList stale)) ∧
        Sent s s' c sl t (groups.map fun g => ask x.d (.x 0, false) true g none))

/-- R219, R227, R246, R247, R253: an ATOM empties the destination of its in-bounds lanes, closes its region and sends one read-modify-write for
each, acquire and release where ORD says nothing, with the lane's B and, as comparand, the old destination. FENCE passes once the accesses it
orders are performed and the releases it synchronises with are drained; a release fence makes the team's later strong writes releases of its
scope. -/
def Obligations.AtomicAndFenceResults : Prop :=
  (∀ (x : MM) (s : State) (c sl : Nat) (t : Team), CanIssue s c sl t x.h →
    let i := issueOf s c sl t x.h
    let pair := pairSize x.size
    let n := sizeBytes x.size
    let ls := served x.d (active t x.h)
    let b := rd i x.b pair
    (opdAlloc t x.d pair && opdAlloc t x.a.o false && opdAlloc t x.b.o pair) = true →
    Ready i [rd i x.a false, b] [(x.d, pair)] → CanAccess i x ls → Own s c t true ((insOf i x ls).map (vaOf i x n)) →
    releaseWaits i x true (!(insOf i x ls).isEmpty) = false →
    ∀ e ∈ [(Instr.atomAdd x, 0), (.atomUmin x, 1), (.atomUmax x, 2), (.atomSmin x, 3), (.atomSmax x, 4), (.atomAnd x, 5), (.atomOr x, 6),
        (.atomXor x, 7), (.atomExch x, 8), (.atomCas x, 9)], e.1.wf = true →
      ∃ s' u, exec e.1 s = .next s' ∧
        Sends s s' c sl (entered s t x.h) u x.d pair (active t x.h) true (satAdd32 t.oobcnt (outOf i x ls).length) ∧
        Awaits s s' t u x.d pair (insOf i x ls) (outOf i x ls) ∧
        Sent s s' c sl t ((insOf i x ls).map fun l => askMM t x true true true l (vaOf i x n l) n
          (.atom e.2 (if pair then .w64 else .w32) (b.at_ l).bits (rdOpd s t x.d pair l).bits x.d pair))) ∧
  (∀ (x : EN) (s : State) (c sl : Nat) (t : Team), CanIssue s c sl t x.h → (Instr.fence x).wf = true →
    (∀ q ∈ s.reqs, ¬ (q.core = c ∧ q.tid = t.tid ∧ fenceWaits x.acq x.rel x.scope q = true)) →
    (x.acq = true → ∀ v ∈ t.observed, ∀ o ∈ seenDrains s x.scope c v, buffered s o.core o.bound = false) →
    OnlyAdvances s c sl t x.h (exec (.fence x) s) ∧
    ∀ s' u, exec (.fence x) s = .next s' → getTeam s' c sl = some u →
      u.relFence = (if x.rel then some (match t.relFence with | some sc => widest sc x.scope | none => x.scope) else t.relFence) ∧
      (x.acq = true → ∀ v ∈ u.observed, seenDrains s x.scope c v = []))

/-- R210, R248 to R251: XRED sends contributions to exact accumulators, XRD reads them out into its destination, EXPQ appends to queues
and holds its team until the results are back; each is acquire and release where ORD says nothing. -/
def Obligations.ExactAndQueueIssue : Prop :=
  ∀ (x : MM) (s : State) (c sl : Nat) (t : Team), CanIssue s c sl t x.h → opdAlloc t x.a.o false = true →
    let i := issueOf s c sl t x.h
    let all := lanesOf (active t x.h)
    let ls := served x.d (active t x.h)
    let sl_ := recSlot (recordOf s t) x.slot.toNat
    let xred := fun (ins : Instr) (f : FW) (align n : Nat) =>
      let b := rd i x.b (pairF f)
      ins.wf = true → opdAlloc t x.b.o (pairF f) = true → Ready i [rd i x.a false, b] [] → CanAccess i x all →
      Own s c t true ((insOf i x all).map (vaOf i x align)) → releaseWaits i x true (!(insOf i x all).isEmpty) = false →
      ∃ s' u, exec ins s = .next s' ∧
        Sends s s' c sl (entered s t x.h) u (.x 0) false 0 true (satAdd32 t.oobcnt (outOf i x all).length) ∧
        Sent s s' c sl t ((insOf i x all).map fun l => askMM t x true true true l (vaOf i x align l) n
          (.xred f (b.at_ l).bits (b.at_ l).tag))
    let xrd := fun (ins : Instr) (f : FW) (align n : Nat) =>
      ins.wf = true → opdAlloc t x.d (pairF f) = true → Ready i [rd i x.a false] [(x.d, pairF f)] → CanAccess i x ls →
      Own s c t true ((insOf i x ls).map (vaOf i x align)) → releaseWaits i x true (!(insOf i x ls).isEmpty) = false →
      ∃ s' u, exec ins s = .next s' ∧
        Sends s s' c sl (entered s t x.h) u x.d (pairF f) (active t x.h) false (satAdd32 t.oobcnt (outOf i x ls).length) ∧
        Awaits s s' t u x.d (pairF f) (insOf i x ls) (outOf i x ls) ∧
        Sent s s' c sl t ((insOf i x ls).map fun l => askMM t x true true true l (vaOf i x align l) n
          (.xrd f ⟨slotMode sl_, slotSigpol sl_⟩ x.d (pairF f)))
    xred (.xredFp32 x) .f32 64 48 ∧ xred (.xredFp64 x) .f64 512 272 ∧ xrd (.xrdFp32 x) .f32 64 48 ∧ xrd (.xrdFp64 x) .f64 512 272 ∧
    ((Instr.expq x).wf = true → (opdAlloc t x.d false && opdAlloc t x.b.o true) = true →
      let b := rd i x.b true
      Ready i [rd i x.a false, b] [(x.d, false)] → CanAccess i x ls → Own s c t true ((insOf i x ls).map (vaOf i x 64)) →
      insOf i x ls ≠ [] →
      ∃ s' u, exec (.expq x) s = .next s' ∧ getTeam s' c sl = some u ∧ HeldAt t u x.h .request ∧ SameRegs t u x.d false (active t x.h) ∧
        (∀ l ∈ insOf i x ls, rdOpd s' u x.d false l = rdOpd s t x.d false l) ∧ (∀ l ∈ outOf i x ls, rdOpd s' u x.d false l = written x.d false 0 0) ∧
        u.oobcnt = satAdd32 t.oobcnt (outOf i x ls).length ∧ SameMemory s s' ∧ SameEngines s s' ∧ SameOthers s s' c sl ∧
        Sent s s' c sl t ((insOf i x ls).map fun l => askMM t x true true true l (vaOf i x 64 l) 64
          (.expq ((b.at_ l).bits.setWidth 32) (((b.at_ l).bits >>> 32).setWidth 32) x.d)))

/-- R444 to R447: MST sends each lane's store to every member of the group behind its address, RLD reads every member for each lane; an
address outside every multicast window has one member, its home. A strong lane that reaches another device is performed at SYSTEM scope. -/
def Obligations.MulticastIssue : Prop :=
  ∀ (x : MM) (s : State) (c sl : Nat) (t : Team), CanIssue s c sl t x.h → opdAlloc t x.a.o false = true →
    let i := issueOf s c sl t x.h
    let pair := pairSize x.size
    let n := sizeBytes x.size
    let buf := bufOf t x.brec.toNat
    let own := fun write (via of : Nat → Nat) ls => ∀ l ∈ ls, ∀ m ∈ membersOf s t.ctx (via l), (memberHome s c t.ctx write (of l) m).1.world = false
    ((Instr.mst x).wf = true → opdAlloc t x.b.o pair = true → Ready i [rd i x.a false, rd i x.b pair] [] →
      let ls := lanesOf (active t x.h)
      let v := fun l => (rd i x.b pair).at_ l
      CanAccess i x ls → own true (vaOf i x n) (vaOf i x n) (insOf i x ls) → (brT buf = true → own true (shOf i x) (shOf i x) (insOf i x ls)) →
      Walks s c t ((insOf i x ls).map (vaOf i x n)) → (brT buf = true → Walks s c t ((insOf i x ls).map (shOf i x))) →
      let tags := (insOf i x ls).map fun l =>
        { askPlain false true l (shOf i x l) 1 (.store [(v l).tag.setWidth 8]) with acq := x.ord == .acq, scope := x.scope }
      let data := (insOf i x ls).map fun l => askMM t x false false true l (vaOf i x n l) n (.store (leBytes n (v l).bits.toNat))
      let spread := fun a : Ask => (membersOf s t.ctx a.va).map fun m =>
        let b := farAsk (membersOf s t.ctx a.va) a
        if m = 33 then b else { b with kind := .mst (match a.kind with | .store bs => bs | _ => []) m }
      let asks := (lastStores (if brT buf then tags else []) ++ lastStores data).flatMap spread
      releaseWaits i x false (!asks.isEmpty) = false →
      ∃ s' u, exec (.mst x) s = .next s' ∧
        Sends s s' c sl (entered s t x.h) u (.x 0) false 0 false (satAdd32 t.oobcnt (outOf i x ls).length) ∧
        Sent s s' c sl t asks) ∧
    ((Instr.rld x).wf = true → opdAlloc t x.d pair = true → Ready i [rd i x.a false] [(x.d, pair)] →
      let ls := served x.d (active t x.h)
      let f := if pair then FW.f64 else .f32
      let sl_ := recSlot (recordOf s t) x.slot.toNat
      CanAccess i x ls → own false (vaOf i x n) (vaOf i x n) (insOf i x ls) → (brT buf = true → own false (vaOf i x n) (shOf i x) (insOf i x ls)) →
      Walks s c t ((insOf i x ls).map (vaOf i x n)) → (brT buf = true → Walks s c t ((insOf i x ls).map (shOf i x))) →
      (∀ l ∈ insOf i x ls, membersOf s t.ctx (vaOf i x n l) ≠ []) →
      ∃ s' u, exec (.rld x) s = .next s' ∧
        Sends s s' c sl (entered s t x.h) u x.d pair (active t x.h) false (satAdd32 t.oobcnt (outOf i x ls).length) ∧
        Awaits s s' t u x.d pair (insOf i x ls) (outOf i x ls) ∧
        Sent s s' c sl t ((insOf i x ls).flatMap fun l => (membersOf s t.ctx (vaOf i x n l)).map fun m =>
          farAsk (membersOf s t.ctx (vaOf i x n l)) (askMM t x false true false l (vaOf i x n l) n
            (.rld f ⟨slotMode sl_, slotSigpol sl_⟩ x.d pair m))))

/-- R148 to R150: an unscaled CVTQ converts a lane's group into one element, or one element into its group, with the tag and flag rules of
R149; a scaled one reads each lane's scale through the slot's record and its destinations await it. -/
def Obligations.QuantisedConversions : Prop :=
  ∀ (quant : Bool) (x : RG) (s : State) (c sl : Nat) (t : Team), CanIssue s c sl t x.h →
    let ins := if quant then Instr.cvtqQuantise x else Instr.cvtqDequantise x
    let i := issueOf s c sl t x.h
    let sl_ := recSlot (recordOf s t) x.slot.toNat
    let fmt := slotFmt sl_
    let g := cvtqG fmt
    let mode := rmode (recordOf s t) x.slot.toNat x.rnd
    let pol := slotSigpol sl_
    let srcs := if quant then (groupOpds x.a.o g).map fun o => rd i ⟨o, x.a.e, x.a.m⟩ false else [rdA i x false]
    let ds := if quant then [x.d] else groupOpds x.d g
    let bits_ := fun (r : Rd) l => if quant then fval fp32 x.a.m (r.at_ l) else (r.at_ l).bits.toNat % 2 ^ 32
    let xs := fun l => srcs.map fun r => (bits_ r l, (r.at_ l).tag.toNat)
    let res := fun l => cvtqLane quant fmt mode (slotSat sl_) x.a.m (xs l) (.fin false 1 0) 24
    let regs := fun (u : Team) => (∀ n l, l < 32 → ((ds.any fun o => namesV o false n) && inMask (active t x.h) l) = false → getV u n l = getV t n l) ∧
      (∀ n, getS u n = getS t n) ∧ ∀ n, getP u n = getP t n
    ins.wf = true → cvtqDyn quant x s t = true →
    (slotScale sl_ = 0 → Ready i srcs (ds.map fun o => (o, false)) → NoFpTrap t x.h pol (fun l => cvtqJoin (res l)) →
      ∃ s' u, exec ins s = .next s' ∧ getTeam s' c sl = some u ∧ regs u ∧ SameControl t u ∧ SameRegion (entered s t x.h) u ∧ Advanced t u ∧
        SameMemory s s' ∧ SameUnits s s' ∧ SameOthers s s' c sl ∧ u.oobcnt = t.oobcnt ∧
        u.fltstat = t.fltstat ||| BitVec.ofNat 64 (foldLanes (active t x.h) (fun a l => a ||| (cvtqJoin (res l)).fl) 0) ∧
        u.sigstat = (if (lanesOf (active t x.h)).any fun l => sigFails pol t.sigmin (polTag pol (cvtqJoin (res l)).tag)
          then t.sigstat ||| 1 else t.sigstat) ∧
        ∀ l ∈ lanesOf (active t x.h), ∀ e ∈ ds.zip (res l), rdOpd s' u e.1 false l =
          written e.1 false (BitVec.ofNat 64 e.2.y) (polTag pol e.2.tag)) ∧
    (slotScale sl_ ≠ 0 → Ready i (srcs ++ [rd i x.b false]) (ds.map fun o => (o, false)) →
      let buf := bufOf t (slotScb sl_)
      let idx := fun l => sx (ival 32 x.b.m ((rd i x.b false).at_ l)) 32
      logFull s c = false → brWld buf = (getCore s c).world → (∀ l ∈ lanesOf (active t x.h), brIn buf (idx l) = true) →
      Own s c t false ((lanesOf (active t x.h)).map fun l => brAddr buf (idx l) 4) →
      (brT buf = true → Own s c t false ((lanesOf (active t x.h)).map fun l => brShadow buf (idx l))) →
      ∃ s' u, exec ins s = .next s' ∧ getTeam s' c sl = some u ∧ regs u ∧ SameControl t u ∧ Advanced t u ∧ SameMemory s s' ∧ SameEngines s s' ∧
        SameOthers s s' c sl ∧ u.fltstat = t.fltstat ∧ u.sigstat = t.sigstat ∧ u.oobcnt = satAdd32 t.oobcnt 0 ∧
        (∀ l ∈ lanesOf (active t x.h), ∀ o ∈ ds, rdOpd s' u o false l = { rdOpd s t o false l with full := false }) ∧
        Sent s s' c sl t ((lanesOf (active t x.h)).map fun l => askPlain true false l (brAddr buf (idx l) 4) 4
          (.scale quant x.d g fmt (slotSat sl_) ⟨mode, pol⟩ ((xs l).map fun v => BitVec.ofNat 64 (v.1 + if x.a.m then 2 ^ 32 else 0))
            ((xs l).map fun v => BitVec.ofNat 6 v.2))))

/-! ### Engines -/

/-- R264 to R275, R315 to R319, R321: CPY queues a command with its block, CPYC joins its team's slice to the collective of its workgroup; the
scratchpad lines that the command will write turn empty. WPWAIT passes once the count is reached. COLL reads its communicator's entry from the
table in memory: on a READY one without a local fault it hands Zephyr a command whose join limit starts now and empties the destination lines; on
a FREE or BROKEN one it ends at once and Zephyr takes nothing; where the table does not translate the command is held. That the entry is read at
the issue, and the command held where it cannot be, is the model's choice (log entry 81). -/
def Obligations.CopyAndCollectiveIssue : Prop :=
  (∀ (x : EN) (s : State) (c sl : Nat) (t : Team), CanIssue s c sl t x.h →
    let i := issueOf s c sl t x.h
    let ch := x.chan.toNat
    let q := chanOf s c ch
    let k := nth 0 t.collNo ch
    (∀ b, BlockReady i x b → cpBound t b = true →
      let slice := sliceOfTeam i x b
      let ls := cpLines i.s ⟨c, t.wg, t.ctx⟩ slice
      let rest := fun s' u => Queued s s' c sl (entered s t x.h) u x.rel ∧ LinesSet s s' false (ls.filterMap scrLineOf) ∧
        ∀ n, n ≠ ch → chanOf s' c n = chanOf s c n
      let new := fun (m : CopyCmd) coll => m.slices = [slice] ∧ m.lines = ls ∧ m.started = false ∧ m.landed = 0 ∧ m.status = 0 ∧
        m.wg = t.wg ∧ m.coll = coll
      ((Instr.cpy x).wf = true → q.length < 16 →
        ∃ s' u m, exec (.cpy x) s = .next s' ∧ rest s' u ∧ chanOf s' c ch = q ++ [m] ∧ new m none) ∧
      ((Instr.cpyc x).wf = true → q.length < 16 → collIn q t.wg k = none →
        ∃ s' u m, exec (.cpyc x) s = .next s' ∧ rest s' u ∧ chanOf s' c ch = q ++ [m] ∧ new m (some k)) ∧
      ((Instr.cpyc x).wf = true → ∀ m, collIn q t.wg k = some m →
        ∃ s' u, exec (.cpyc x) s = .next s' ∧ rest s' u ∧
          chanOf s' c ch = q.map fun y => if y.id = m.id then addSlice m slice ls else y)) ∧
    ((Instr.wpwait x).wf = true → opdAlloc t x.a.o false = true → Ready i [rd i x.a (!isV x.a.o)] [] → acqPart i x.acq = true →
      (∀ l ∈ lanesOf (active t x.h), wpReached x.a.o (nth 0 (getWg s c t.wg).delivered ch) ((rd i x.a (!isV x.a.o)).at_ l).bits = true) →
      OnlyAdvances s c sl t x.h (exec (.wpwait x) s))) ∧
  (∀ (x : EN) (s : State) (c sl : Nat) (t : Team) (b : List DWord), CanIssue s c sl t x.h → (Instr.coll x).wf = true →
    let i := issueOf s c sl t x.h
    let ch := x.chan.toNat
    let k := getCtx s t.ctx
    let n := ngetD 0 k.commNo ch
    let m := collOf i x b n
    BlockReady i x b → k.colls.length < 64 → clBound t b = true →
    let queued := fun s' u ms => exec (.coll x) s = .next s' ∧ Queued s s' c sl (entered s t x.h) u x.rel ∧
      (getCtx s' t.ctx).colls = k.colls ++ ms ∧ ngetD 0 (getCtx s' t.ctx).commNo ch = n + 1
    (∀ e, (readComm i.s t.ctx m.tab ch []).1 = .ok e →
      (commState e = 1 → clBad i.s t.ctx e m = false → clOther (getCore s c).world m = false →
        ∃ s' u, queued s' u [{ m with ent := e }] ∧ m.started = false ∧ m.blk = b ∧ m.joinLeft = residentClock s t.ctx + 2 ^ k.joinLog2 ∧
          LinesSet s s' false ((clAll i.s t.ctx e m).flatMap fun x => plLines (elBytes (clEz b)) x.2.2)) ∧
      (startStatus i.s t.ctx e m ≠ 0 → relReady i.s c t.tid x.rel m.first = true → bfb b 511 = false → bfb b 510 = false →
        ∃ s' u, queued s' u [] ∧ SameMemory s s') ∧
      (startStatus i.s t.ctx e m ≠ 0 → relReady i.s c t.tid x.rel m.first = false →
        ∃ s' u, queued s' u [{ m with status := startStatus i.s t.ctx e m }] ∧ SameMemory s s')) ∧
    (∀ va cause info acc, (readComm i.s t.ctx m.tab ch []).1 = .fault va cause info acc →
      ∃ s' u, queued s' u [{ m with fault := cause }] ∧ SameMemory s s'))

/-- R284, R285, R300 to R314: a tile instruction hands the tile engine an operation with its block, its tiles and its team's records, and
the destination's FE bit turns 0; TINFO delivers the descriptor, TWAIT passes when the tile is at rest. -/
def Obligations.TileIssue : Prop :=
  ∀ (x : EN) (s : State) (c sl : Nat) (t : Team), CanIssue s c sl t x.h → t.owed = [] →
    let i := issueOf s c sl t x.h
    let room := (getCore s c).tops.length < 32
    let takes := fun ins kind b => ∃ s' u, exec ins s = .next s' ∧ Queued s s' c sl (entered s t x.h) u x.rel ∧ SameMemory s s' ∧
      Accepted s s' c t kind (xNum x.d) (xNum x.a.o) b
    (∀ b, BlockReady i x b → room → bf b 88 8 = 0 →
      ∀ z ∈ [(Instr.talloc x, TKind.talloc, false), (.tld x, .tld, true), (.tlr x, .tlr, true), (.tst x, .tst, true), (.tmul x, .tmul, false),
          (.tadd x, .tadd, false)],
        z.1.wf = true → tileOk s c t (if z.2.1 = .tst then x.a.o else x.d) = true →
        (z.2.2 = true → bf b 106 2 = 0 → recIsBound t (bf b 102 4) = true) → namedOk i z.2.1 b = true → takes z.1 z.2.1 b) ∧
    (room → tileOk s c t x.d = true →
      ∀ z ∈ [(Instr.tfree x, TKind.tfree), (.tzero x, .tzero), (.trnd x, .trnd), (.tdns x, .tdns), (.tfac x, .tfac),
          (.ttrs x, .ttrs (x.imm.toNat % 4))],
        z.1.wf = true → (z.2 = .ttrs (x.imm.toNat % 4) → tileOk s c t x.a.o = true) → takes z.1 z.2 []) ∧
    ((Instr.tinfo x).wf = true → (tileOk s c t x.a.o && rangeAlloc t x.d 4) = true → Ready i [] (infoDsts x.d) →
      let w := descOf (getTile (getWg s c t.wg) (xNum x.a.o))
      let n := if isS x.d then 64 else 32
      ∃ s' u, exec (.tinfo x) s = .next s' ∧ getTeam s' c sl = some u ∧ SameFlags t u ∧ SameControl t u ∧ Advanced t u ∧ SameMemory s s' ∧
        SameUnits s s' ∧ SameOthers s s' c sl ∧
        (∀ e ∈ (infoDsts x.d).zip (List.range 4), ∀ l ∈ lanesOf (active t x.h),
          rdOpd s' u e.1.1 e.1.2 l = written e.1.1 e.1.2 (BitVec.ofNat 64 (w / 2 ^ (n * e.2) % 2 ^ n)) 63) ∧
        (∀ r l, l < 32 → (((infoDsts x.d).any fun d => namesV d.1 false r) && inMask (active t x.h) l) = false → getV u r l = getV t r l) ∧
        (∀ r, (infoDsts x.d).any (fun d => namesS d.1 r) = false → getS u r = getS t r) ∧ ∀ r, getP u r = getP t r) ∧
    ((Instr.twait x).wf = true → tileOk s c t x.a.o = true → (getTile (getWg s c t.wg) (xNum x.a.o)).fe = true →
      (∀ o ∈ (getCore s c).tops, ¬ (o.wg = (getWg s c t.wg).id ∧ xNum x.a.o ∈ opReads o)) →
      acqPart i x.acq = true → OnlyAdvances s c sl t x.h (exec (.twait x) s))

/-- R322 to R325: LAUNCH sends its record's address to the task unit and awaits the answer, EVSIG sends an addition to an event, EVWAIT
passes once the event has reached its argument. That the record's address is aligned down to 128 B is the model's choice (log entry 51). -/
def Obligations.TaskIssue : Prop :=
  ∀ (x : EN) (s : State) (c sl : Nat) (t : Team), CanIssue s c sl t x.h →
    let i := issueOf s c sl t x.h
    let l := lowest (active t x.h)
    let r := bufOf t (xNum x.b.o)
    let idx := sx ((rd i x.a false).at_ l).bits.toNat 32
    ((Instr.launch x).wf = true → (bound t x.b.o && opdAlloc t x.d true) = true → Ready i [rd i x.a false] [(x.d, true)] →
      waiting (getCtx s t.ctx) < 1024 → (brIn r idx = true ∨ brOobTrap r = false) →
      ∃ s' u, exec (.launch x) s = .next s' ∧
        Sends s s' c sl (entered s t x.h) u x.d true (active t x.h) x.rel (satAdd32 t.oobcnt (if brIn r idx then 0 else 1)) ∧
        Awaits s s' t u x.d true (lanesOf (active t x.h)) [] ∧
        Sent s s' c sl t [⟨l, brAddr r idx 128, 0, false, false, false, false, x.rel, x.scope, x.scope,
          .launch x.d true x.rel (!brIn r idx || brWld r != (getCore s c).world) []⟩]) ∧
    ((Instr.evsig x).wf = true → Ready i (evtSrcs i x) [] →
      let f : Bool × Scope := match t.relFence with
        | some sc => (true, if x.rel then widest x.scope sc else sc)
        | none => (x.rel, x.scope)
      ∃ s' u, exec (.evsig x) s = .next s' ∧ Sends s s' c sl (entered s t x.h) u (.x 0) false 0 x.rel t.oobcnt ∧
        Sent s s' c sl t [⟨l, 0, 0, false, false, false, false, f.1, x.scope, f.2, .evAdd (evtNo i x) (evtArg i x)⟩]) ∧
    ((Instr.evwait x).wf = true → Ready i (evtSrcs i x) [] → (evtArg i x).toNat ≤ (ngetD 0 (getCtx s t.ctx).events (evtNo i x)).toNat →
      (x.acq = true → ∀ q ∈ s.reqs, ¬ (q.core = c ∧ q.tid = t.tid ∧ isAccess q = true ∧ q.read = true ∧ unfinished q = true ∧
        isTicketRead q = false)) → OnlyAdvances s c sl t x.h (exec (.evwait x) s))

/-- R408 to R415: SEQCM and SEQCM.T send one request for each active lane, another Bridle instruction one for each lane that its destination serves,
and they await the answers; all but SEQRD close their region. SEQFN passes once the team's tokens are evaluated and no slot owes it a trap. That the
others make one request for a scalar destination is the model's choice (log entry 81). -/
def Obligations.BridleIssue : Prop :=
  ∀ (s : State) (c sl : Nat) (t : Team),
    (∀ x : RG, CanIssue s c sl t x.h →
      let i := issueOf s c sl t x.h
      let a := rd i x.a false
      let b := rd i x.b false
      let all := lanesOf (active t x.h)
      let ls := served x.d (active t x.h)
      let own := fun slot : Nat → Nat => ∀ l ∈ all, ∀ o, slotOwner s (slot l) = some o → (getCtx s o).world = (getCore s c).world
      let asks := fun (ls : List Nat) ins pair closes (k : Nat → ReqKind) => ∃ s' u, exec ins s = .next s' ∧
        Sends s s' c sl (entered s t x.h) u x.d pair (active t x.h) closes t.oobcnt ∧ Awaits s s' t u x.d pair ls [] ∧
        Sent s s' c sl t (ls.map fun l => askPlain false false l 0 0 (k l))
      let sends := asks ls
      (seqAlloc t x false false = true → Ready i (a :: b :: if x.sub == 1 then [rd i x.c false] else []) [(x.d, false)] → own (seqNo a) →
        ((Instr.seqcm x).wf = true → asks all (.seqcm x) false true fun l =>
          .seqCommit (seqNo a l) (tokenOf b l) (x.sub == 1 && pval x.c.m ((rd i x.c false).at_ l)) x.d)) ∧
      (seqAlloc t x false false = true → Ready i [a, b] [(x.d, false)] → own (seqNo a) →
        ((Instr.seqcmT x).wf = true → asks all (.seqcmT x) false true fun l => .seqTent (seqNo a l) (tokenOf b l) x.d) ∧
        ((Instr.seqcf x).wf = true → sends (.seqcf x) false true fun l => .seqConf (seqNo a l) ((b.at_ l).bits.setWidth 32) x.d)) ∧
      (seqAlloc t x false false = true → Ready i [a] [(x.d, false)] → own (seqNo a) →
        ((Instr.seqwpInit x).wf = true → sends (.seqwpInit x) false true fun l => .seqWp 2 (seqNo a l) 0 0 0 x.d) ∧
        ((Instr.seqrelGo x).wf = true → sends (.seqrelGo x) false true fun l => .seqRel 0 (seqNo a l) x.d) ∧
        ((Instr.seqrelStop x).wf = true → sends (.seqrelStop x) false true fun l => .seqRel 1 (seqNo a l) x.d) ∧
        ((Instr.seqrelFree x).wf = true → sends (.seqrelFree x) false true fun l => .seqRel 2 (seqNo a l) x.d)) ∧
      (seqAlloc t x true false = true → Ready i [a] [(x.d, true)] → own (seqNo a) →
        ((Instr.seqrdNext x).wf = true → sends (.seqrdNext x) true false fun l => .seqRd 0 (seqNo a l) x.d true) ∧
        ((Instr.seqrdPeek x).wf = true → sends (.seqrdPeek x) true false fun l => .seqRd 1 (seqNo a l) x.d true)) ∧
      ((Instr.seqrdTrap x).wf = true → opdAlloc t x.d true = true → Ready i [] [(x.d, true)] →
        sends (.seqrdTrap x) true false fun _ => .seqRd 2 0 x.d true) ∧
      ((Instr.seqwpCtr x).wf = true → seqAlloc t x false true = true → Ready i [a, b, rd i x.c true] [(x.d, false)] → own (seqNo a) →
        sends (.seqwpCtr x) false true fun l =>
          .seqWp 1 (seqNo a l) (b.at_ l).bits (BitVec.ofNat 64 (ival 64 x.c.m ((rd i x.c true).at_ l))) 0 x.d) ∧
      ((Instr.seqwpNrec x).wf = true → (opdAlloc t x.d false && bound t x.b.o) = true → Ready i [] [(x.d, false)] →
        sends (.seqwpNrec x) false true fun _ => .seqWp 3 0 0 0 (bufOf t (xNum x.b.o)) x.d) ∧
      ((Instr.seqwpEnt x).wf = true → (seqAlloc t x false false && opdAlloc t x.c.o false) = true →
        Ready i [a, b, rd i x.c false] [(x.d, false)] → own (seqNo a) → (∀ l ∈ lanesOf (active t x.h), (b.at_ l).bits.toNat % 2 ^ 32 < 8) →
        let img := fun l => directOf i (ival 32 x.c.m ((rd i x.c false).at_ l)) 1
        (∀ l ∈ all, img l ≠ .world) → (∀ l ∈ ls, ∀ k y, img l = .at_ k y → lineFull s k (y / 128) = true) →
        sends (.seqwpEnt x) false true fun l => .seqWp 0 (seqNo a l) (b.at_ l).bits 0 0 x.d)) ∧
    (∀ x : EN, CanIssue s c sl t x.h → (Instr.seqfn x).wf = true →
      let i := issueOf s c sl t x.h
      fenceDone i = true → (∀ n ∈ frozenFor s t.ctx c sl, (getSeq s n).tv = false) →
      ∃ s' u, exec (.seqfn x) s = .next s' ∧ Queued s s' c sl (entered s t x.h) u true ∧ SameMemory s s' ∧ SameEngines s s')

/-! ### Privileged instructions -/

/-- R88, R360 to R362: in a launch of firmware DHARV puts D bits into their leaves and TLBINV does so and drops the entries, once no
access translated through them is in flight; in any other launch each takes trap cause 1 (IL). That TLBINV waits before it drops is the model's choice
(log entry 42). -/
def Obligations.TlbInstructions : Prop :=
  (∀ (x : EN) (s : State) (c sl : Nat) (t : Team), curTeam s = some (c, sl, t) → t.halted = false → t.hold = none → t.trap = none → t.live ≠ 0 →
    TrapReady s c sl t 1 → (getLaunch s t.ctx t.seq).firmware = false →
    ∀ ins ∈ [Instr.dharv x, .tlbinvPage x, .tlbinvCtx x, .tlbinvAll x], ∃ s' u, exec ins s = .next s' ∧
      TookTrap s c sl t { trapAt 1 (issueAddr t) (executing t) with rgn := x.h.rgn && !t.closed } s' u) ∧
  ∀ (x : EN) (s : State) (c sl : Nat) (t : Team), CanIssue s c sl t x.h → (getLaunch s t.ctx t.seq).firmware = true →
    let i := issueOf s c sl t x.h
    let k := x.imm.toNat % 64
    let va := ((rd i x.a true).at_ (lowest (active t x.h))).bits.toNat % 2 ^ 57
    let done := fun out (f : TlbEntry → Bool) (p : State → Prop) => ∃ s' u, out = .next s' ∧ getTeam s' c sl = some u ∧ SameAllRegs t u ∧
      SameFlags t u ∧ SameControl t u ∧ Advanced t u ∧ SameUnits s s' ∧ SameOthers s s' c sl ∧ Harvested s s' f ∧ p s'
    let drops := fun ins (f : TlbEntry → Bool) => (∀ q ∈ s.reqs, translatedBy s f q = false) →
      done (exec ins s) f fun s' => ∀ e ∈ allTlbs s', f e = false
    ((Instr.dharv x).wf = true →
      let f := fun e : TlbEntry => x.imm.getLsbD 6 || e.ctx == k
      done (exec (.dharv x) s) f fun s' => ∀ e ∈ allTlbs s', f e = true → e.dirty = false) ∧
    ((Instr.tlbinvPage x).wf = true → Ready i [rd i x.a true] [] →
      drops (.tlbinvPage x) fun e => tlbHit e k va) ∧
    ((Instr.tlbinvCtx x).wf = true → drops (.tlbinvCtx x) fun e => e.ctx == k) ∧
    ((Instr.tlbinvAll x).wf = true → drops (.tlbinvAll x) fun _ => true)

/-- R389 to R393: DBGBRK answers 6 for a context of the other world and 2, 1 or 5 where it has no target; else it halts its own team, resumes or
steps a halted team, rolls one back to a region's entry (its registers, records, control registers, memory and positions are what they were
there), lets it run to the point named and answers once it has halted, arms and clears stops, and switches a context's debug mode. The order in
which the statuses are tested, 1 of .brk and 3 of .back without a target, and what a step gives back are the model's choices (log entries 31, 34).
-/
def Obligations.DebugInstructions : Prop :=
  ∀ (x : IM) (s : State) (c sl : Nat) (t : Team), CanIssue s c sl t x.h → (getLaunch s t.ctx t.seq).firmware = true →
    let i := issueOf s c sl t x.h
    let a := match x.a.o with | .s n => n.toNat | _ => 0
    let src := fun j => rd i { x.a with o := .s (BitVec.ofNat 6 (a + j)) } true
    let v := fun j => ival 64 x.a.m ((src j).at_ 0)
    let z : DbgArg := ⟨bits (v 0) 5 0, bits (v 0) 15 6, bits (v 0) 21 16, BitVec.ofNat 64 (v 1), v 2 % 2 ^ 32⟩
    let tells := fun ins (n : DWord) => Yields s c sl t x.h (exec ins s) x.d false (fun _ => n) fun _ => 63
    let alien := (getCtx s z.ctx).st ≠ .free ∧ (getCtx s z.ctx).world ≠ (getCore s c).world
    let other := (z.core, z.slot) ≠ (c, sl)
    let answers := fun s' (u : Team) (n : DWord) => getTeam s' c sl = some u ∧ Advanced t u ∧ SameMemory s s' ∧
      SameRegs t u x.d false (active t x.h) ∧ ∀ l ∈ lanesOf (active t x.h), rdOpd s' u x.d false l = written x.d false n 63
    Ready i [src 0, src 1, src 2] [(x.d, false)] →
    (alien → ∀ ins ∈ [Instr.dbgbrkHalt x, .dbgbrkResume x, .dbgbrkStep x, .dbgbrkBack x, .dbgbrkBrk x, .dbgbrkClr x, .dbgbrkDbg x],
      ins.wf = true → tells ins 6) ∧
    (¬ alien →
      ((Instr.dbgbrkHalt x).wf = true → (z.core, z.slot) = (c, sl) → z.ctx = t.ctx →
        ∃ s' u, exec (.dbgbrkHalt x) s = .next s' ∧ answers s' u 0 ∧ u.halted = true) ∧
      (∀ y, other → getTeam s z.core z.slot = some y → y.ctx = z.ctx → y.halted = true →
        ((Instr.dbgbrkResume x).wf = true → ∃ s' u y', exec (.dbgbrkResume x) s = .next s' ∧ answers s' u 0 ∧
          getTeam s' z.core z.slot = some y' ∧ y'.halted = false ∧ SameAllRegs y y' ∧ y'.lpc = y.lpc) ∧
        ((Instr.dbgbrkStep x).wf = true → t.posted = false → z.w2 ≠ 0 → ∃ s' u y', exec (.dbgbrkStep x) s = .next s' ∧
          getTeam s' c sl = some u ∧ u.posted = true ∧ u.lpc = t.lpc ∧ getTeam s' z.core z.slot = some y' ∧ y'.halted = false ∧
          y'.steps = some z.w2 ∧ SameAllRegs y y' ∧ y'.lpc = y.lpc) ∧
        ((Instr.dbgbrkStep x).wf = true → t.posted = true → tells (.dbgbrkStep x) 0) ∧
        ((Instr.dbgbrkBack x).wf = true → t.posted = true → ∃ s' u y', exec (.dbgbrkBack x) s = .next s' ∧ answers s' u 0 ∧
          getTeam s' z.core z.slot = some y' ∧ y' = { y with stops := y.stops.filter (· != z.point) }) ∧
        ((Instr.dbgbrkBack x).wf = true → t.posted = false → inFlight s z.core y.tid = false →
          let runs := fun s' (u y' : Team) => exec (.dbgbrkBack x) s = .next s' ∧ getTeam s' c sl = some u ∧ u.posted = true ∧ u.lpc = t.lpc ∧
            getTeam s' z.core z.slot = some y' ∧ y'.halted = false ∧ z.point ∈ y'.stops ∧ y'.retcnt = 0
          ((getCtx s y.ctx).debug = false → z.w1 ≠ y.rgncnt → tells (.dbgbrkBack x) 3) ∧
          ((getCtx s y.ctx).debug = false → z.w1 = y.rgncnt → ∃ s' u y', runs s' u y' ∧ SameAllRegs y y' ∧ SameMemory s s' ∧
            ∀ l < 32, getLpc y' l = if inMask (executing y) l then (if y.rgncnt = 0 then 0 else y.rgnpc) else getLpc y l) ∧
          ((getCtx s y.ctx).debug = true → undoTo z.w1 y.undo = none → tells (.dbgbrkBack x) 3) ∧
          (∀ us lpc live sn, (getCtx s y.ctx).debug = true → undoTo z.w1 y.undo = some (us, lpc, live, sn) →
            (freeBlocks (getCore i.s z.core) + blocksHeld y < (sn.alloc + 15) / 16 → tells (.dbgbrkBack x) 3) ∧
            (¬ freeBlocks (getCore i.s z.core) + blocksHeld y < (sn.alloc + 15) / 16 →
              let s0 := us.foldl (undoOne z.core z.slot) (flushUndo i.s z.core z.slot)
              ∃ s' u y' y0, runs s' u y' ∧ getTeam s0 z.core z.slot = some y0 ∧ SameAllRegs y0 y' ∧ SameMemory s0 s' ∧ y'.lpc = lpc ∧
                y'.live = live ∧ y'.bufs = sn.bufs ∧ y'.alloc = sn.alloc ∧ y'.saved = sn.saved ∧
                (y'.sigmin, y'.sigstat, y'.fltstat, y'.trapen, y'.oobcnt) = (sn.sigmin, sn.sigstat, sn.fltstat, sn.trapen, sn.oobcnt) ∧
                (y'.trapcause, y'.trappc, y'.trapmask) = (sn.trapcause, sn.trappc, sn.trapmask))))) ∧
      (∀ y, getTeam s z.core z.slot = some y → y.ctx = z.ctx → other →
        ((Instr.dbgbrkBrk x).wf = true → 8 ≤ y.stops.length → tells (.dbgbrkBrk x) 5) ∧
        ((Instr.dbgbrkBrk x).wf = true → y.stops.length < 8 → ∃ s' u y', exec (.dbgbrkBrk x) s = .next s' ∧ answers s' u 0 ∧
          getTeam s' z.core z.slot = some y' ∧ y' = { y with stops := y.stops ++ [z.point] }) ∧
        ((Instr.dbgbrkClr x).wf = true → ∃ s' u y', exec (.dbgbrkClr x) s = .next s' ∧ answers s' u 0 ∧
          getTeam s' z.core z.slot = some y' ∧ y' = { y with stops := y.stops.filter (· != z.point) })) ∧
      (dbgTeam s z = none → t.posted = true → (Instr.dbgbrkBack x).wf = true → tells (.dbgbrkBack x) 3) ∧
      (dbgTeam s z = none → t.posted = false →
        ((Instr.dbgbrkResume x).wf = true → tells (.dbgbrkResume x) 2) ∧ ((Instr.dbgbrkStep x).wf = true → tells (.dbgbrkStep x) 2) ∧
        ((Instr.dbgbrkBack x).wf = true → tells (.dbgbrkBack x) 2) ∧ ((Instr.dbgbrkBrk x).wf = true → tells (.dbgbrkBrk x) 1) ∧
        ((Instr.dbgbrkClr x).wf = true → tells (.dbgbrkClr x) 1)) ∧
      ((Instr.dbgbrkDbg x).wf = true → (teamsOf s z.ctx ≠ [] → tells (.dbgbrkDbg x) 4) ∧
        (teamsOf s z.ctx = [] → (getCtx s z.ctx).st ≠ .free → ∃ s' u, exec (.dbgbrkDbg x) s = .next s' ∧ answers s' u 0 ∧
          (getCtx s' z.ctx).debug = z.w1.getLsbD 0)))

/-- R128, R132, R150, R233, R236, R249, R257, R447: a result reaches the register of its lane when its request is performed, and not before:
the bytes as they stand then, extended, with their tag; a BRLD's record its buffer register, whose team goes on; the converted group of a
scaled CVTQ; the readout of an RLD over all its members; the image of a FIL. All else is as it was. -/
def Obligations.ResultArrivals : Prop :=
  (∀ (s : State) (r : Req) (t : Team) (l : Loc), Asked s r t → r.loc = some l →
    (∀ d p f, r.kind = .load d p f → canRead s r = false → exec (.loadDataArrival ⟨r.id, []⟩) s = .next s) ∧
    (∀ d p f, r.kind = .load d p f → canRead s r = true → NoDrain s r l → Unread r → 0 < r.n → r.n ≤ 8 → isReg d = true →
      ∃ s' u, exec (.loadDataArrival ⟨r.id, []⟩) s = .next s' ∧ Arrived s s' r t u [(d, p)] (fun q => q.id = r.id) ∧ SameFlags t u ∧ SameMemory s s' ∧
        Holds s' r t u d (p || isS d) (extend f (leNat (readLoc s l r.n))) (loadTag f (r.shadow.map fun b => leNat (readLoc s b 1)))) ∧
    (∀ d p f c b, r.kind = .lds d p f → l = .scratch c b → canRead s r = true → NoDrain s r l → Unread r → 0 < r.n → r.n ≤ 8 → isReg d = true →
      ∃ s' u, exec (.ldsDataArrival r.id) s = .next s' ∧ Arrived s s' r t u [(d, p)] (fun q => q.id = r.id) ∧ SameFlags t u ∧ SameMemory s s' ∧
        Holds s' r t u d (p || isS d) (extend f (leNat (getBytes (getCore s c).bytes b r.n)))
          (if f.fp then regTag (ngetD 63 (getCore s c).tags (b / 4)) else 63)) ∧
    (∀ n h, r.kind = .brld n → t.hold = some h → canRead s r = true → NoDrain s r l → Unread r → r.n = 32 → r.shadow = none →
      let x : BitVec 256 := BitVec.ofNat 256 (leNat (readLoc s l r.n))
      ∃ s' u, exec (.loadDataArrival ⟨r.id, []⟩) s = .next s' ∧ getTeam s' r.core r.slot = some u ∧ u.hold = none ∧ SameMemory s s' ∧
        (brOk x = true → SameAllRegs t u ∧ bufOf u n = x ∧ (∀ k, k ≠ n → bufOf u k = bufOf t k) ∧
          ∀ l < 32, getLpc u l = if inMask h.exec l then h.pc + 1 else getLpc t l) ∧
        (brOk x = false → u.trap = some (trapAt 1 h.pc h.exec) ∨ u.trapcause = 1)) ∧
    (∀ quant d g fmt sat pol xs ts, r.kind = .scale quant d g fmt sat pol xs ts → g = cvtqG fmt → isV d = true → canRead s r = true → Unread r → r.n = 4 →
      let sc := scaleOf (leNat (readLoc s l 4))
        (loadTag ⟨.b32, true, 24, false⟩ (r.shadow.map fun b => leNat (readLoc s b 1))).toNat
      let os := cvtqLane quant fmt pol.mode sat (!quant && (xs.headD 0).getLsbD 32)
        ((xs.zip ts).map fun e => (e.1.toNat % 2 ^ 32, e.2.toNat)) sc.1 sc.2
      let ds := if quant then [d] else groupOpds d g
      let all := cvtqJoin os
      ∃ s' u, exec (.cvtqScaleArrival ⟨r.id, []⟩) s = .next s' ∧ Arrived s s' r t u (ds.map fun o => (o, false)) (fun q => q.id = r.id) ∧
        SameMemory s s' ∧ LateFlags t u pol all.fl (polTag pol.sigpol all.tag) ∧
        ∀ e ∈ ds.zip os, Holds s' r t u e.1 false (BitVec.ofNat 64 e.2.y) (polTag pol.sigpol e.2.tag)) ∧
    (∀ f pol d p m, r.kind = .rld f pol d p m → isReg d = true →
      let same := fun q : Req => q.grp = r.grp ∧ q.core = r.core ∧ q.tid = r.tid ∧ q.lane = r.lane
      let mine := s.reqs.filter fun q => q.grp == r.grp && q.core == r.core && q.tid == r.tid && q.lane == r.lane
      (∀ q ∈ mine, q.acq = false ∧ q.done = false ∧ canPerform s q = true ∧ q.loc ≠ none ∧ (q.shadowVa = none ∨ q.shadow ≠ none) ∧ Unread q ∧
        0 < q.n ∧ q.n ≤ 8) →
      let has := fun q : Req => ((match q.loc with | some b => leNat (readLoc s b q.n) | none => 0),
        (readTag s q (q.shadow.map fun b => leNat (readLoc s b 1))).toNat)
      let o := rldOut f pol.mode (mine.map has)
      ∃ s' u, exec (.rldReadoutArrival ⟨r.id, []⟩) s = .next s' ∧ Arrived s s' r t u [(d, p)] same ∧
        SameMemory s s' ∧ LateFlags t u pol o.fl (polTag pol.sigpol o.tag) ∧ Holds s' r t u d p (BitVec.ofNat 64 o.y) (polTag pol.sigpol o.tag))) ∧
  (∀ (s : State) (r : Req) (t : Team) (m k byte : Nat), Asked s r t → r.loc = some (.scratch k byte) → (canPerform s r && linesReady s r) = true → Unread r →
    let w := fun n => imageWord s k byte n
    let done := fun s' u => getTeam s' r.core r.slot = some u ∧ SameControl t u ∧ SameFlags t u ∧ u.lpc = t.lpc ∧ SameMemory s s' ∧
      SameOthers s s' r.core r.slot ∧ Left s s' (fun q => q.id = r.id)
    (∀ a, r.kind = .fil (.v a) m → a.toNat + m ≤ 256 → ∃ s' u, exec (.filImageArrival ⟨r.id, []⟩) s = .next s' ∧ done s' u ∧
      (∀ n, getS u n = getS t n ∧ getP u n = getP t n) ∧
      ∀ n l, l < 32 → getV u n l = if a.toNat ≤ n ∧ n < a.toNat + m ∧ n < t.alloc then
        let j := n - a.toNat
        ⟨BitVec.ofNat 32 (w (32 * j + l)).1, (w (32 * m + j)).1.testBit l, regTag (w (32 * j + l)).2⟩ else getV t n l) ∧
    (∀ a, r.kind = .fil (.s a) m → a.toNat + m ≤ 64 → ∃ s' u, exec (.filImageArrival ⟨r.id, []⟩) s = .next s' ∧ done s' u ∧
      (∀ n l, l < 32 → getV u n l = getV t n l) ∧ (∀ n, getP u n = getP t n) ∧
      ∀ n, getS u n = if a.toNat ≤ n ∧ n < a.toNat + m then
        let j := n - a.toNat
        ⟨BitVec.ofNat 64 ((w (2 * j)).1 + 2 ^ 32 * (w (2 * j + 1)).1), (w 30).1.testBit j, regTag (w (2 * j)).2⟩ else getS t n) ∧
    (∀ a, r.kind = .fil (.p a) m → ∃ s' u, exec (.filImageArrival ⟨r.id, []⟩) s = .next s' ∧ done s' u ∧
      (∀ n l, l < 32 → getV u n l = getV t n l) ∧ (∀ n, getS u n = getS t n) ∧
      ∀ n l, n < 7 → l < 32 → inMask (getP u n).val l = (w n).1.testBit l ∧ inMask (getP u n).full l = (w (8 + n)).1.testBit l))

/-- R195, R218, R220, R224, R202, R234, R256, R446: a store, when it is performed and not before, and where it finds its scratchpad lines full,
puts its bytes at its home and leaves every other byte as it was; an STS and a SPL also set the tags of their words; a narrow release enters its
line's release record. No register changes. -/
def Obligations.WritesPerformed : Prop :=
  ∀ (s : State) (r : Req) (l : Loc), getReq s r.id = some r → r.loc = some l → Known l →
    (isStore r = true → (canPerform s r && linesReady s r) = false → exec (.writePerformed ⟨r.id, []⟩) s = .next s) ∧
    (∀ bs, (r.kind = .store bs ∨ ∃ m, r.kind = .mst bs m) → (canPerform s r && linesReady s r) = true →
      ∃ s', exec (.writePerformed ⟨r.id, []⟩) s = .next s' ∧ Stored s s' l bs ∧ SameTags s s' ∧ Performed s s' r l bs.length) ∧
    (∀ bs tag w c b, r.kind = .sts bs tag w → l = .scratch c b → (canPerform s r && linesReady s r) = true →
      ∃ s', exec (.writePerformed ⟨r.id, []⟩) s = .next s' ∧ Stored s s' l bs ∧ Performed s s' r l bs.length ∧
        ∀ k n, tagAt s' k n =
          if k = c ∧ n = b / 4 then (if bs.length = 4 ∨ bs.length = 8 then tag else minTag tag (tagAt s c n))
          else if k = c ∧ n = b / 4 + 1 ∧ bs.length = 8 then 63 else tagAt s k n) ∧
    (∀ ws ts c b, r.kind = .spl ws ts → l = .scratch c b → Unread r → (canPerform s r && linesReady s r) = true →
      ∃ s', exec (.writePerformed ⟨r.id, []⟩) s = .next s' ∧ Stored s s' l (ws.flatMap fun w => leBytes 4 w.toNat) ∧ Performed s s' r l (4 * ws.length) ∧
        ∀ k n, tagAt s' k n = if k = c ∧ b / 4 ≤ n ∧ n < b / 4 + ts.length then nth 63 ts (n - b / 4) else tagAt s k n)

/-- R56, R57, R210, R219, R246 to R251: at its home slice an ATOM replaces the value of its location by that of the table of R247 and delivers the
old one, an XRED adds its contribution to an exact accumulator, an XRD reads one out and leaves it, and an EXPQ finds its token in the queue,
appends its entry, or meets a full queue, after which its team goes on. Each is one step, and no other byte changes. -/
def Obligations.ReadModifyWrites : Prop :=
  ∀ (s : State) (r : Req) (l : Loc), r.loc = some l → Known l → canPerform s r = true → NoDrain s r l → sameStep s r = [r] →
    (∀ (t : Team) fn w b cmp d p, Asked s r t → r.kind = .atom fn w b cmp d p → isReg d = true →
      let n := wbits w
      let old := leNat (readLoc s l (n / 8))
      let y := b.toNat % 2 ^ n
      ∃ s' u v, exec (.sliceRmwPerform r.id) s = .next s' ∧ Stored s s' l (leBytes (n / 8) v) ∧
        (fn = 0 → v = (old + y) % 2 ^ n) ∧ (fn = 1 → v = min old y) ∧ (fn = 2 → v = max old y) ∧
        (fn = 3 → sx v n = min (sx old n) (sx y n)) ∧ (fn = 4 → sx v n = max (sx old n) (sx y n)) ∧
        (fn = 5 → v = old &&& y) ∧ (fn = 6 → v = old ||| y) ∧ (fn = 7 → v = old ^^^ y) ∧ (fn = 8 → v = y) ∧
        (fn = 9 → v = if old = cmp.toNat % 2 ^ n then y else old) ∧
        Arrived s s' r t u [(d, p)] (fun q => q.id = r.id) ∧ SameFlags t u ∧ SameTags s s' ∧ RmwRecord s s' r l ∧
        Holds s' r t u d p (BitVec.ofNat 64 old) 63) ∧
    (∀ f x tag, getReq s r.id = some r → r.kind = .xred f x tag →
      ∃ s', exec (.exactContribution r.id) s = .next s' ∧ SameTags s s' ∧ TeamsKept s s' ∧ SameEngines s s' ∧ RmwRecord s s' r l ∧
        Left s s' (fun q => q.id = r.id) ∧
        Stored s s' l (leBytes (accBytes f)
          (accAdd f (accFmt f) (leNat (readLoc s l (accBytes f))) (x.toNat % 2 ^ (accFmt f).width) tag.toNat))) ∧
    (∀ (t : Team) f pol d p, Asked s r t → r.kind = .xrd f pol d p → isReg d = true →
      let o := accRead f (accFmt f) pol.mode (leNat (readLoc s l (accBytes f)))
      ∃ s' u, exec (.xrdReadoutArrival r.id) s = .next s' ∧ SameReads s s' ∧ SameTags s s' ∧ RmwRecord s s' r l ∧
        Arrived s s' r t u [(d, p)] (fun q => q.id = r.id) ∧ LateFlags t u pol o.fl (polTag pol.sigpol o.tag) ∧
        Holds s' r t u d p (BitVec.ofNat 64 o.y) (polTag pol.sigpol o.tag)) ∧
    (∀ (t : Team) (h : Hold) (token payload : Word) (n : BitVec 8), Asked s r t → t.hold = some h → r.kind = .expq token payload (.v n) →
      (∀ q ∈ s.reqs, q.grp = r.grp → q.core = r.core → q.tid = r.tid → q = r) →
      let hd := readHead s l
      let lim := min hd.cap (2 ^ 24)
      let entry := fun k => (entryHome s (teamEntry r) hd k false).2.1.loc
      let token_ := fun (a : Loc) => leNat (readLoc s a 4)
      let back := fun (s' : State) (u : Team) (x : Nat) => exec (.queueAppend r.id) s = .next s' ∧ SameTags s s' ∧ SameEngines s s' ∧
        Left s s' (fun q => q.id = r.id) ∧ getTeam s' r.core r.slot = some u ∧ u.hold = none ∧ SameFlags t u ∧
        SameOthers s s' r.core r.slot ∧ getV u n.toNat r.lane = ⟨BitVec.ofNat 32 x, true, 63⟩ ∧
        ∀ k a, a < 32 → (k ≠ n.toNat ∨ a ≠ r.lane) → getV u k a = getV t k a
      let goneOn := fun (u : Team) => SameControl t u ∧ (∀ k, getS u k = getS t k ∧ getP u k = getP t k) ∧
        ∀ a < 32, getLpc u a = if inMask h.exec a then h.pc + 1 else getLpc t a
      (∀ k, k < min hd.count lim → (∀ j < k, ∃ a, entry j = some a ∧ token_ a ≠ token.toNat) →
        (∃ a, entry k = some a ∧ token_ a = token.toNat) → ∃ s' u, back s' u (2 ^ 31 + k) ∧ goneOn u ∧ SameReads s s') ∧
      ((∀ j < min hd.count lim, ∃ a, entry j = some a ∧ token_ a ≠ token.toNat) →
        (∀ q, hd.count < lim → (entryHome s (teamEntry r) hd hd.count true).2.1.loc = some q → Known q → overlap q 8 l 64 = false →
          ∃ s' u, back s' u hd.count ∧ goneOn u ∧ readLoc s' q 8 = leBytes 8 (token.toNat + 2 ^ 32 * payload.toNat) ∧
            readLoc s' (locAdd l 8) 4 = leBytes 4 (hd.count + 1) ∧
            ∀ m, Known m → overlap m 1 q 8 = false → overlap m 1 (locAdd l 8) 4 = false → readLoc s' m 1 = readLoc s m 1) ∧
        (lim ≤ hd.count → ∃ s' u, back s' u 0x40FFFFFF ∧ (u.trapcause = 0x0A ∨ ∃ ti, u.trap = some ti ∧ ti.cause = 0x0A ∧ ti.tpc = h.pc + 1) ∧
          Stored s s' (locAdd l 16) (leBytes 4 (min (hd.ovf + 1) (2 ^ 32 - 1))))))

/-- R201, R211 to R213, R238 to R244: the life of a ticket. Allocation takes a FREE entry, raises its generation and gives every lane of the
line-set the ticket; arriving data turns the entry READY, or goes to the redeem that holds it; an entry past its lifetime is FREE and RECLAIMED,
whatever meets it first; a redeem, once those that its die sent before it over the same link have arrived, meets the verdict of R213's checks in
their order. The verdict fills the status predicate of its lanes and gives the D elements of a failed group 0 with tag 0; the data of an accepted
one goes into the lanes' D elements, 0 for a lane without an element, or into its scratchpad lines, which turn full. -/
def Obligations.TicketAndRedeemEvents : Prop :=
  ((∀ (s : State) (r : Req) (t : Team) d blk lines ls elems f tRec sh wld entry, Asked s r t →
    r.kind = .ldt d blk lines ls elems f tRec sh wld → isReg d = true →
    let k := ticketSlice r
    let e := getEntry (lapse s k entry) k entry
    (e.st ≠ .free → exec (.ldtTicketAllocated r.id entry) s = .next s) ∧
    (e.st = .free → entry < 2048 →
      let tk := mkTicket s k entry (e.gen + 1).toNat lines wld tRec r.ctx
      ∃ s' u, exec (.ldtTicketAllocated r.id entry) s = .next s' ∧ getTeam s' r.core r.slot = some u ∧ SameRegs t u d true ls ∧
        SameControl t u ∧ SameFlags t u ∧ u.lpc = t.lpc ∧ SameMemory s s' ∧ SameOthers s s' r.core r.slot ∧
        (opdAlloc t d true = true → ∀ l ∈ lanesOf ls, rdOpd s' u d true l = written d true tk 63) ∧
        getReq s' r.id = some { r with kind := .fetch k entry lines sh } ∧
        getEntry s' k entry = ⟨if isFaulted r then .awaitTranslation else .inflight, e.gen + 1, false, r.ctx, r.seq, (getCtx s r.ctx).inc, wld,
          residentClock s r.ctx, r.id, 0, f, lines, elems, [], [], [], 0⟩ ∧
        ∀ k' n, (k', n) ≠ (k, entry) → getEntry s' k' n = getEntry s k' n)) ∧
  (∀ (s : State) (r : Req) slice entry lines sh l, r ∈ s.reqs → r.kind = .fetch slice entry lines sh → r.loc = some l → canPerform s r = true →
    (∀ q ∈ s.reqs, (∃ b c, q.kind = .fetch slice entry b c) → q = r) → (getEntry s slice entry).fetch = r.id → Unread r →
    let e := getEntry (lapse s slice entry) slice entry
    (sh = [] ∨ sh.length = e.elems.length) → e.elems.length ≤ 32 →
    (∀ y ∈ e.elems, e.lines.getLsbD (y.2 / 128) = true ∧ y.2 % 128 + sizeBytes e.f.size ≤ 128) →
    let here := fun (s' : State) => exec (.ticketDataArrival slice ⟨entry, []⟩) s = .next s' ∧ SameMemory s s' ∧ TeamsKept s s' ∧
      ∀ k' n, (k', n) ≠ (slice, entry) → getEntry s' k' n = getEntry s k' n
    let data := fun (vals : NMap SElem) (bytes : NMap (List Byte)) =>
      (∀ i < 4, e.lines.getLsbD i = true → nget bytes i = some (readLoc s (locAdd l (128 * i)) 128)) ∧
      ∀ j < e.elems.length, (∀ k < e.elems.length, (nth (0, 0) e.elems k).1 = (nth (0, 0) e.elems j).1 → k = j) →
        ∃ x, nget vals (nth (0, 0) e.elems j).1 = some x ∧ x.full = true ∧
          x.val = extend e.f (leNat (readLoc s (locAdd l (nth (0, 0) e.elems j).2) (sizeBytes e.f.size))) ∧
          (sh = [] → x.tag = loadTag e.f none) ∧
          ∀ q, sh ≠ [] → (homeOf s r.core r.ctx false (nth 0 sh j)).1.loc = some q → x.tag = loadTag e.f (some (leNat (readLoc s q 1)))
    ((e.st = .inflight ∨ e.st = .awaitTranslation) → ∃ s', here s' ∧ Left s s' (fun q => q.id = r.id) ∧
      let n := getEntry s' slice entry
      n.st = .ready ∧ n.gen = e.gen ∧ n.start = e.start ∧ n.ctx = e.ctx ∧ data n.vals n.bytes ∧ (s.poison = [] → n.pois = e.pois)) ∧
    (∀ q tk ls d pair sp v b g z, e.st = .held → getReq s e.redeem = some q → q.id ≠ r.id → q.kind = .deliver tk ls d pair sp v b g z →
      ∃ s' vals bytes tags pois, here s' ∧ data vals bytes ∧ (getEntry s' slice entry).st = .free ∧ (getEntry s' slice entry).spent = true ∧
        let xs := vals.map fun x => (x.1, if (e.f.size == .b64) == pair then x.2 else { x.2 with tag := 63 })
        getReq s' q.id = some { q with done := true, val := pois, kind := .deliver tk ls d pair sp xs bytes tags false })) ∧
  (∀ (s : State) slice entry,
    let e := getEntry s slice entry
    let over_ := (e.st = .awaitTranslation ∨ e.st = .inflight ∨ e.st = .ready) ∧ e.start + (getCtx s e.ctx).tickLife ≤ residentClock s e.ctx
    (¬over_ → exec (.ticketLifetimeExpiry slice entry) s = .next s) ∧
    (over_ → ∃ s', exec (.ticketLifetimeExpiry slice entry) s = .next s' ∧ (getEntry s' slice entry).st = .free ∧
      (getEntry s' slice entry).spent = false ∧ (getEntry s' slice entry).gen = e.gen ∧ (getEntry s' slice entry).vals = [] ∧
      s'.cores = s.cores ∧ s'.mem = s.mem ∧ s'.reqs = s.reqs ∧
      ∀ k' n, (k', n) ≠ (slice, entry) → getEntry s' k' n = getEntry s k' n)) ∧
  (∀ (s : State) (r : Req) tk ls drop st d pair sp, getReq s r.id = some r → r.kind = .redeem tk ls drop st d pair sp none →
    (∀ q ∈ s.reqs, q.id < s.nextId) →
    let k := tkSlice tk
    let n := tkEntry tk
    let e := getEntry (lapse s k n) k n
    let v := if tkCtx tk ≠ r.ctx ∨ tkInc tk ≠ (getCtx s r.ctx).inc.toNat ∨ tkWld tk ≠ (getCore s r.core).world then 3
      else if tkSize tk = 0 ∨ tkGen tk ≠ e.gen.toNat ∨ (e.st = .free ∧ e.spent = false) then 2
      else if e.st = .free ∨ e.st = .held then 1 else 0
    (sentBefore s r tk = true → exec (.redeemMatch r.id) s = .next s) ∧
    (sentBefore s r tk = false → ∃ s', exec (.redeemMatch r.id) s = .next s' ∧ SameMemory s s' ∧ TeamsKept s s' ∧
      getReq s' r.id = some { r with kind := .redeem tk ls drop st d pair sp (some v) } ∧
      (∀ k' n', (k', n') ≠ (k, n) → getEntry s' k' n' = getEntry s k' n') ∧
      (v ≠ 0 → getEntry s' k n = e ∧ s'.nextId = s.nextId) ∧
      (v = 0 → drop = true → (getEntry s' k n).st = .free ∧ (getEntry s' k n).spent = true ∧ s'.nextId = s.nextId) ∧
      (v = 0 → drop = false → ∃ q ∈ s'.reqs, q.id = s.nextId ∧ q.core = r.core ∧ q.slot = r.slot ∧ q.tid = r.tid ∧
        (e.st = .ready → (getEntry s' k n).st = .free ∧ (getEntry s' k n).spent = true ∧ q.done = true ∧
          q.kind = .deliver tk ls d pair sp (deliverVals e pair) e.bytes e.ltags false) ∧
        (e.st ≠ .ready → (getEntry s' k n).st = .held ∧ (getEntry s' k n).redeem = q.id ∧ q.kind = .deliver tk ls d pair sp [] [] [] false))))) ∧
  ((∀ (s : State) (r : Req) (t : Team) tk ls drop (p : BitVec 3) d pair sp v, Asked s r t → t.hold = none →
    r.kind = .redeem tk ls drop (.p p) d pair sp (some v) → (drop = false → sp = none → isV d = true) →
    let fails := v ≠ 0 ∧ drop = false ∧ sp = none
    ∃ s' u, exec (.rdmVerdictReturn r.id) s = .next s' ∧ getTeam s' r.core r.slot = some u ∧ SameControl t u ∧ SameFlags t u ∧ u.lpc = t.lpc ∧
      SameBytes s s' ∧ SameOthers s s' r.core r.slot ∧ Left s s' (fun q => q.id = r.id) ∧ s'.slices = s.slices ∧
      (∀ l ∈ lanesOf ls, rdOpd s' u (.p p) false l = written (.p p) false (if v = 0 then 1 else 0) 63) ∧
      (fails → opdAlloc t d pair = true → ∀ l ∈ lanesOf ls, rdOpd s' u d pair l = written d pair 0 0) ∧
      (∀ n l, l < 32 → ¬(fails ∧ inMask ls l = true ∧ namesV d pair n = true) → getV u n l = getV t n l) ∧ (∀ n, getS u n = getS t n) ∧
      (∀ n l, l < 32 → (n ≠ p.toNat ∨ inMask ls l = false) →
        inMask (getP u n).val l = inMask (getP t n).val l ∧ inMask (getP u n).full l = inMask (getP t n).full l) ∧
      LinesSet s s' true (match sp with | some q => if v = 0 then [] else redeemLines tk (q / 2 ^ 20) (q % 2 ^ 20) | none => [])) ∧
  (∀ (s : State) (r : Req) (t : Team) tk ls d pair sp vals lines ltags zero, Asked s r t → r.done = true →
    r.kind = .deliver tk ls d pair sp vals lines ltags zero →
    (sp = none → isV d = true → ∃ s' u, exec (.rdmDataDelivery ⟨r.id, []⟩) s = .next s' ∧ getTeam s' r.core r.slot = some u ∧ SameRegs t u d pair ls ∧
      SameControl t u ∧ SameFlags t u ∧ u.lpc = t.lpc ∧ SameMemory s s' ∧ SameOthers s s' r.core r.slot ∧ Left s s' (fun q => q.id = r.id) ∧
      (opdAlloc t d pair = true → ∀ l ∈ lanesOf ls, rdOpd s' u d pair l =
        match nget vals l with
        | some e => if zero then written d pair 0 0 else written d pair e.val e.tag
        | none => written d pair 0 0)) ∧
    (∀ q, sp = some q → r.got = [] →
      let k := q / 2 ^ 20
      let first := q % 2 ^ 20 / 128
      let used := (List.range 4).filter fun j => tk.getLsbD (28 + j)
      (∀ j ∈ used, (ngetD [] lines j).length = 128 ∧ (ngetD [] ltags j).length = 32) →
      ∃ s', exec (.rdmDataDelivery ⟨r.id, []⟩) s = .next s' ∧ TeamsKept s s' ∧ Left s s' (fun q => q.id = r.id) ∧
        LinesSet s s' true (redeemLines tk k (q % 2 ^ 20)) ∧
        (∀ j ∈ used, readLoc s' (.scratch k (128 * (first + j))) 128 = (if zero then List.replicate 128 0 else ngetD [] lines j) ∧
          ∀ w < 32, tagAt s' k (32 * (first + j) + w) = if zero then 0 else nth 63 (ngetD [] ltags j) w) ∧
        (∀ m, Known m → (∀ j ∈ used, overlap m 1 (.scratch k (128 * (first + j))) 128 = false) → readLoc s' m 1 = readLoc s m 1) ∧
        ∀ c w, (∀ j ∈ used, (c, w / 32) ≠ (k, first + j)) → tagAt s' c w = tagAt s c w)))

/-! ### Events: faults, order, issue -/

/-- R363 to R370, R419 to R421, R439, R440: the lanes of an instruction that still fault take one log entry, or wait for one, and a record names
each page; an access at a peer's G9 is performed, refused as WINDOW, or faulted by the peer's own table, with INFO[63] set (which of the three is
the peer's, and free in this model: log entry 73); the oldest held record is written where the ring has room, its tail after it; an
acknowledgement retries, discards, kills, or leaves its record open; a replay re-issues the unfinished lanes once every record is answered, and a
discarded lane ends as an out-of-bounds one. -/
def Obligations.FaultRecords : Prop :=
  (∀ (s : State) (r : Req), getReq s r.id = some r →
    ((isFaulted r = false ∧ (atPeer s r && canPerform s r) = false) ∨ (isFaulted r = true ∧ r.logged ≠ none) → exec (.translationFault r.id) s = .next s) ∧
    (isFaulted r = false → isTicketRead r = false → (∃ s', exec (.translationFault r.id) s = .next s' ∧ SameMemory s s' ∧ TeamsKept s s' ∧
      ∀ q, getReq s' r.id = some q → q = r ∨
        let k := if q.fault = 0 then q.shFault else q.fault
        (k = 8 ∧ q.info = 2) ∨ (k ∈ [1, 2, 3, 5] ∧ q.info = 2 ^ 63))) ∧
    (isFaulted r = true → r.logged = none → (∀ q ∈ s.reqs, sameInstr r q = true → q.logged = none) → isTicketRead r = false →
      (∀ d p x y z, r.kind ≠ .launch d p x y z) → (∀ x y d, r.kind ≠ .expq x y d) →
      ∃ s', exec (.translationFault r.id) s = .next s' ∧ SameMemory s s' ∧ TeamsKept s s' ∧
        ∀ q ∈ s'.reqs, sameInstr r q = true →
          (isFaulted q = true → q.logged ≠ none ∨ r.grp ∈ (getCore s' r.core).logWait) ∧
          (∀ n, q.logged = some n → q.fault ≠ 0 → q.lane < 32 → ∃ f ∈ (getCtx s' r.ctx).heldRecs,
            f.grp = r.grp ∧ f.src = 0 ∧ f.log = n ∧ f.va / 65536 = q.va / 65536 ∧ inMask f.fmask q.lane = true))) ∧
  (∀ (s : State) (ctx : Nat) (r : FaultRec) (rest : List FaultRec),
    let k := getCtx s ctx
    let size : Nat := 2 ^ k.ringLog2
    let seq := k.nextFault % 2 ^ 32
    let at_ := k.ringBase + 64 * (seq % size)
    let now := { r with pmask := recPmask s r }
    k.heldRecs = r :: rest → (∀ j < 8, relRec s (.hbm (k.ringHead + j)) = ⟨[], false⟩) →
    (wrap ((seq : Int) - countWord s k.ringHead) 32 = size → ∃ s', exec (.faultRecordWrite ctx) s = .next s' ∧ s'.mem = s.mem ∧ s'.ctxs = s.ctxs) ∧
    (wrap ((seq : Int) - countWord s k.ringHead) 32 ≠ size → overlap (.hbm k.ringTail) 8 (.hbm at_) 64 = false →
      ∃ s', exec (.faultRecordWrite ctx) s = .next s' ∧ s'.cores = s.cores ∧ s'.reqs = s.reqs ∧
        leNat (getBytes s'.mem at_ 64) = recBits ctx now seq (seq / size % 2 == 0) % 2 ^ 512 ∧ countWord s' k.ringTail = (seq + 1) % 2 ^ 32 ∧
        (∀ m, Known m → overlap m 1 (.hbm at_) 64 = false → overlap m 1 (.hbm k.ringTail) 8 = false → readLoc s' m 1 = readLoc s m 1) ∧
        (getCtx s' ctx).heldRecs = rest ∧ (getCtx s' ctx).nextFault = k.nextFault + 1 ∧ nget (getCtx s' ctx).openRecs seq = some now)) ∧
  (∀ (s : State) (ctx : Nat) (f : FaultRec),
    let k := getCtx s ctx
    let w := leNat (getBytes s.mem (k.ackBase + 8 * (k.acksRead % 2 ^ k.ringLog2)) 8)
    let act := bits w 33 32
    k.st ≠ .free → k.st ≠ .resetting → (∀ j < 8, relRec s (.hbm (k.ackTail + j)) = ⟨[], false⟩) → countWord s k.ackTail ≠ k.acksRead % 2 ^ 32 →
    nget k.openRecs (w % 2 ^ 32) = some f →
      ∃ s', exec (.ackRead ctx) s = .next s' ∧ (getCtx s' ctx).acksRead = k.acksRead + 1 ∧ (f.src ≠ 6 → SameReads s s') ∧
        nget (getCtx s' ctx).openRecs (w % 2 ^ 32) = (if act = 3 then some f else none) ∧
        (∀ n, n ≠ w % 2 ^ 32 → nget (getCtx s' ctx).openRecs n = nget k.openRecs n) ∧
        (act = 2 → (getCtx s' ctx).st = .resetting) ∧ (act ≠ 2 → (getCtx s' ctx).st = k.st) ∧
        (f.src = 0 → f.grp < 2 ^ 66 → f.cause ≠ 4 → f.cause ≠ 6 → f.cause ≠ 7 → TeamsKept s s' ∧ s'.reqs = s.reqs ∧
          (act = 1 → ∀ q ∈ s.reqs, q.ctx = ctx → q.grp = f.grp → (∃ m ∈ missesOf q, m.va / 65536 = f.va / 65536) →
            ∀ e ∈ s'.cores, ∀ x ∈ e.2.log, x.2.grp = f.grp → x.2.ctx = ctx → q.id ∈ x.2.discard))) ∧
  (∀ (s : State) (r : Req) (n : Nat) (e : LogEntry), getReq s r.id = some r → r.logged = some n →
    nget (getCore s r.core).log n = some e → e.tid = r.tid → e.grp = r.grp → isFaulted r = true →
    (unanswered (getCtx s e.ctx) e.grp = true → exec (.replay r.core n) s = .next s) ∧
    (unanswered (getCtx s e.ctx) e.grp = false → ctxActive s e.ctx = true → (∀ q ∈ s.reqs, sameInstr r q = true → q = r) →
      (e.discard = [] → isFaulted (reroute s r).1 = false → otherLeaves s r = (false, false) →
        ∃ s', exec (.replay r.core n) s = .next s' ∧ SameMemory s s' ∧ TeamsKept s s' ∧
          getReq s' r.id = some { (reroute s r).1 with logged := some n, sent := false }) ∧
      (∀ (t : Team) d p f, e.discard = [r.id] → Asked s r t → r.kind = .load d p f → isReg d = true →
        ∃ s' u, exec (.replay r.core n) s = .next s' ∧ Arrived s s' r t u [(d, p)] (fun q => q.id = r.id) ∧ SameFlags t u ∧ SameMemory s s' ∧
          Holds s' r t u d p 0 0)))

/-- R18, R165, R167, R206, R220, R361, R373, R378, R459: a free issue slot grants the ready team with the smallest key; a raised trap is taken
once its team's log entries are over; the watchdog traps every running team of a silent context; an evicted entry's D bit goes to its leaf; a
promoted core's writes are visible before the acquire completes; a record of releases leaves its line once they are performed; a refresh window
passes; a sample counts one team, once for a slot in a sampling clock, and firmware sets what is watched. That a team which already waits for a
trap keeps it at a watchdog is the model's choice (log entry 35), as are what Gait counts as gated and not ready and the reasons of a sample (log
entry 39). -/
def Obligations.OrderAndIssueEvents : Prop :=
  (∀ (s : State) (core isl : Nat), core < 576 → isl < 4 →
    ((getISlot s core isl).holder ≠ none → exec (.tenureGrant core isl) s = .next s) ∧
    ((getISlot s core isl).holder = none → s.gated = true → exec (.tenureGrant core isl) s = .next (tally s core 6 1)) ∧
    ((getISlot s core isl).holder = none → s.gated = false → (∀ e ∈ (getCore s core).teams, islotOf e.2 = isl → ready s core e.1 e.2 = false) →
      exec (.tenureGrant core isl) s = .next (tally s core 5 1))) ∧
  (∀ (s : State) (core isl sl : Nat) (t : Team), (getISlot s core isl).holder = none → s.gated = false → core < 576 → isl < 4 →
    (sl, t) ∈ (getCore s core).teams → islotOf t = isl → ready s core sl t = true →
    (∀ e ∈ (getCore s core).teams, islotOf e.2 = isl → ready s core e.1 e.2 = true → e ≠ (sl, t) → t.key < e.2.key) →
      ∃ s' u, exec (.tenureGrant core isl) s = .next s' ∧ (getISlot s' core isl).holder = some sl ∧ getTeam s' core sl = some u ∧
        SameTeam t u ∧ u.blocked = false ∧ u.key = t.key ∧ UndoOnly s s' core sl t ∧ SameUnits s s' ∧ SameOthers s s' core sl) ∧
  (∀ (s : State) (c sl : Nat) (t : Team) (ti : TrapInfo), getTeam s c sl = some t → t.trap = some ti →
    (hasLog s c sl = true → exec (.trapDelivery c sl) s = .next s) ∧
    (hasLog s c sl = false → ctxActive s t.ctx = true → TrapReady s c sl t ti.cause →
      ∃ s' u, exec (.trapDelivery c sl) s = .next s' ∧ TookTrap s c sl t ti s' u)) ∧
  (∀ (s : State) (ctx : Nat), (getCtx s ctx).st ≠ .free → (getCtx s ctx).st ≠ .suspended → s.ctl.mode = .running →
    (s.clock < (getCtx s ctx).lastPulse + 2 ^ (getCtx s ctx).wdLog2 → exec (.watchdogExpiry ctx) s = .next s) ∧
    ((getCtx s ctx).lastPulse + 2 ^ (getCtx s ctx).wdLog2 ≤ s.clock → teamsOf s ctx ≠ [] →
      ∃ s', exec (.watchdogExpiry ctx) s = .next s' ∧ SameMemory s s' ∧ s'.reqs = s.reqs ∧ (∃ f ∈ (getCtx s' ctx).heldRecs, f.cause = 7) ∧
        (getCtx s' ctx).lastPulse = s.clock ∧
        ∀ c sl t, getTeam s c sl = some t → ∃ u, getTeam s' c sl = some u ∧
          (t.ctx ≠ ctx ∨ t.halted = true ∨ t.live = 0 ∨ t.trap ≠ none → u = t) ∧
          (t.ctx = ctx → t.halted = false → t.live ≠ 0 → t.trap = none → (∃ ti, u.trap = some ti ∧ ti.cause = 0x0C) ∨ u.trapcause = 0x0C))) ∧
  (∀ (s : State) (n k : Nat) (e : TlbEntry), (tlbOf s (tlbNo n))[k]? = some e →
    ∃ s', exec (.tlbEviction n k) s = .next s' ∧ tlbOf s' (tlbNo n) = (tlbOf s (tlbNo n)).eraseIdx k ∧ TeamsKept s s' ∧ s'.reqs = s.reqs ∧
      (e.dirty = true → (ngetD 0 s'.mem (e.leafPa + 7)).getLsbD 5 = true) ∧
      ∀ a, (a ≠ e.leafPa + 7 ∨ e.dirty = false) → ngetD 0 s'.mem a = ngetD 0 s.mem a) ∧
  (∀ (s : State) (r : Req) (t : Team) (l : Loc) (o : Observed) d p f, Asked s r t → r.loc = some l → r.kind = .load d p f → r.done = true →
    r.drains = [o] → isReg d = true →
    ((∀ q ∈ s.reqs, q.core = o.core → isStore q = false) → buffered s o.core o.bound = false →
      ∃ s' u, exec (.promotionRequest r.id o.core) s = .next s' ∧ Arrived s s' r t u [(d, p)] (fun q => q.id = r.id) ∧ SameFlags t u ∧
        SameMemory s s' ∧ Holds s' r t u d (p || isS d) (extend f r.val.toNat) r.vtag) ∧
    (∀ q lq bs, (s.reqs.filter fun q => q.core == o.core && isStore q) = [q] → getReq s q.id = some q → q.kind = .store bs → q.loc = some lq →
      Known lq → canPerform s q = true → linesReady s q = true → ∃ s', exec (.promotionRequest r.id o.core) s = .next s' ∧ Stored s s' lq bs)) ∧
  (∀ (s : State) (line : Nat),
    let q := ngetD ⟨[], false⟩ s.relRecs line
    q.all = false → (∀ o ∈ q.named, ∀ r ∈ s.reqs, r.core = o.core → isStore r = false) →
    exec (.releaseRecordEvict line) s = .next (if q.named.any fun o => buffered s o.core s.nextId then s else { s with relRecs := ndel s.relRecs line })) ∧
  (∀ s : State, exec .weightStoreRefresh s =
    .next (if s.clock % 2048 < 128 then s else { s with clock := (s.clock / 2048 + 1) * 2048 })) ∧
  (∀ (s : State) (core isl sl : Nat) (t : Team),
    (s.gait.frozen = true ∨ s.clock % 64 ≠ 0 ∨ nget s.hist.last (4 * core + isl) = some s.clock →
      exec (.histogramSample core isl) s = .next s) ∧
    (s.gait.frozen = false → s.clock % 64 = 0 → nget s.hist.last (4 * core + isl) ≠ some s.clock → (sl, t) ∈ (getCore s core).teams → islotOf t = isl → t.ctx = s.hist.ctx → t.halted = false →
      t.live ≠ 0 → s.hist.start ≤ (issueAddr t).toNat →
      (∀ e ∈ (getCore s core).teams, islotOf e.2 = isl → e.2.ctx = s.hist.ctx → e ≠ (sl, t) → t.key < e.2.key) →
      let k := 4 * min (((issueAddr t).toNat - s.hist.start) / 2 ^ s.hist.shift) 1023 + reasonOf s core isl (sl, t)
      ∃ h, exec (.histogramSample core isl) s = .next { s with hist := h } ∧ ngetD 0 h.bins k = min (ngetD 0 s.hist.bins k + 1) (2 ^ 32 - 1) ∧
        nget h.last (4 * core + isl) = some s.clock ∧ ∀ n, n ≠ k → ngetD 0 h.bins n = ngetD 0 s.hist.bins n) ∧
    (∀ ctx start shift i w, exec (.peerWindowWrite (.watch ctx start shift) i w) s =
      .next { s with hist := { s.hist with ctx := ctx, start := start, shift := shift } }) ∧
    (∀ key percentile action i w, percentile ≤ 100 → action ≤ 3 →
      ∃ s' m, exec (.peerWindowWrite (.latency key percentile action) i w) s = .next s' ∧ s' = { s with latency := nset s.latency key m } ∧
        m.percentile = percentile ∧ m.action = action))

/-! ### Events: engines -/

/-- R201, R206, R228, R266 to R272, R302, R316: a channel's head command starts once its acquires allow, with the status of its first bad slice;
its lines land one by one in address order once its releases and the weight store's refresh allow, from source words read then or ahead, each
counted as delivered and turned full, or hold the channel at a faulting access; a command that ends early counts the rest at once, and its entry
frees with its completion words and events. -/
def Obligations.CopyEvents : Prop :=
  ∀ (s : State) (core ch : Nat) (m : CopyCmd) (rest : List CopyCmd), chanOf s core ch = m :: rest →
    let a : CpAt := ⟨core, m.wg, m.ctx⟩
    let bad := (m.slices.map (cpStatus s a (recWload (getLaunch s m.ctx m.seq).words))).find? (· != 0)
    let started := fun (o : Host.Outcome State Fault Refusal) => ∃ s', o = .next s' ∧ SameBytes s s' ∧ s'.reqs = s.reqs ∧
      (∀ c n, lineFull s' c n = lineFull s c n) ∧ chanOf s' core ch = { m with started := true, status := bad.getD 0 } :: rest ∧
      ∀ q t, m.slices = [q] → bad = none → getTeam s core q.slot = some t → t.tid = q.tid →
        ∃ u, getTeam s' core q.slot = some u ∧ SameAllRegs t u ∧ u.oobcnt = satAdd32 t.oobcnt (cpOobs s a q)
    let word := fun (s' : State) (st : Nat) => ∀ q, m.slices = [q] → bfb q.blk 511 = true →
      readLoc s' (.scratch core (bf q.blk 448 32 % 2 ^ 20)) 8 = leBytes 8 (st % 256 + 2 ^ 32 * bf q.blk 416 32)
    let count := fun (s' : State) => (nth 0 (getWg s' core m.wg).delivered ch).toNat
    (m.coll = none → copyMayStart s core m = true → started (exec (.copyCommandStart core ch) s)) ∧
    (m.coll ≠ none ∨ copyMayStart s core m = false → exec (.copyCommandStart core ch) s = .next s) ∧
    (m.coll ≠ none → slicesIn s core m = true → copyMayStart s core m = true → started (exec (.cpycCommandStart core ch) s)) ∧
    (m.coll = none ∨ slicesIn s core m = false ∨ copyMayStart s core m = false → exec (.cpycCommandStart core ch) s = .next s) ∧
    (m.started = true → m.status = 0 → m.fault = 0 → m.landed < m.lines.length → ctxActive s m.ctx = true →
      (∃ w ∈ (getCore s core).wgs, w.id = m.wg) → ch < (getWg s core m.wg).delivered.length →
      let key := nth 0 m.lines m.landed
      let parts := (lineParts s a m key).map (·.2)
      let ws := lineWords parts
      let low := wordsBefore s a m m.landed
      let g := gather (copyEng s core m) (fun w => (m.early.find? fun e => e.1 == low + ws.idxOf w).map (·.2)) parts s
      (copyReleased s core m = true → (∀ w ∈ ws, plWaits s 4 w = false) →
        (∀ els, g.1 = .ok els → ∃ s', exec (.copyLineLands core ⟨ch, []⟩) s = .next s' ∧
          chanOf s' core ch = { m with landed := m.landed + 1, early := m.early.filter fun e => decide (low + ws.length ≤ e.1) } :: rest ∧
          s'.reqs = s.reqs ∧ (nth 0 (getWg s' core m.wg).delivered ch) = nth 0 (getWg s core m.wg).delivered ch + 1 ∧
          LinesSet s s' true ((scrLineOf key).toList) ∧ (m.landed + 1 = m.lines.length → word s' 0) ∧
          (∀ e l, els = [e] → e.dst = some l → e.nib = none → Known l → m.landed + 1 < m.lines.length → Stored s s' l e.bs)) ∧
        (∀ va c i acc, g.1 = .fault va c i acc → ∃ s', exec (.copyLineLands core ⟨ch, []⟩) s = .next s' ∧ SameMemory s s' ∧
          chanOf s' core ch = { m with fault := c } :: rest ∧ count s' = count s ∧
          ∃ f ∈ (getCtx s' m.ctx).heldRecs, f.grp = m.id ∧ f.cause = c ∧ f.src = 2 ∧ f.va = va ∧ f.chan = ch) ∧
        (g.1 = .world → ∃ s', exec (.copyLineLands core ⟨ch, []⟩) s = .next s' ∧ SameMemory s s' ∧
          chanOf s' core ch = { m with status := 4 } :: rest)) ∧
      (∀ p w v, (allWords s a m)[p]? = some w → low ≤ p → (∀ e ∈ m.early, e.1 ≠ p) → plWaits s 4 w = false →
        (plRead s (copyEng s core m) 4 w).1 = .ok v → ∃ s', exec (.copyLineLands core ⟨ch, [p]⟩) s = .next s' ∧ SameMemory s s' ∧
          s'.reqs = s.reqs ∧ chanOf s' core ch = { m with early := m.early ++ [(p, BitVec.ofNat 64 v.1)] } :: rest)) ∧
    (copyReleased s core m = false → exec (.copyLineLands core ⟨ch, []⟩) s = .next s ∧ exec (.copyCommandEnd core ch) s = .next s) ∧
    (m.started = true → m.fault = 0 → copyReleased s core m = true → m.status ≠ 0 ∨ m.landed = m.lines.length → (∃ w ∈ (getCore s core).wgs, w.id = m.wg) →
      ch < (getWg s core m.wg).delivered.length → (∃ e ∈ (getCore s core).teams, e.2.wg = m.wg) →
      ∃ s', exec (.copyCommandEnd core ch) s = .next s' ∧ chanOf s' core ch = rest ∧ s'.reqs = s.reqs ∧
        (nth 0 (getWg s' core m.wg).delivered ch) = nth 0 (getWg s core m.wg).delivered ch + BitVec.ofNat 64 (m.lines.length - m.landed) ∧
        LinesSet s s' true ((m.lines.drop m.landed).filterMap scrLineOf) ∧ (m.status ≠ 0 → word s' m.status) ∧
        ∀ q, m.slices = [q] → ∀ n, ngetD 0 (getCtx s' m.ctx).events n =
          ngetD 0 (getCtx s m.ctx).events n + if bfb q.blk 510 = true ∧ n = bf q.blk 498 12 then 1 else 0) ∧
    (m.started = false ∨ m.fault ≠ 0 ∨ (m.status = 0 ∧ m.landed ≠ m.lines.length) → exec (.copyCommandEnd core ch) s = .next s)

/-- R284 to R287, R290, R302, R350: a tile operation starts once no earlier one stands in its way, and commits in one step: on a failure the
tile takes the status alone, else its new value in its pool lines and its descriptor; FE returns to 1 with the last write of the tile, FLTSTAT
takes the flags, and the completion word is written. A remote operand is served once its FE is 1; a delivery enters its receiver's queue, its
lines wait in the buffer as far as its 64 lines go, or it is dropped and counted. -/
def Obligations.TileEvents : Prop :=
  (∀ (s : State) (core op : Nat) (o : TileOp), getOp s core op = some o →
    let ws := (getLaunch s o.ctx o.seq).words
    let n := statusTile o
    let w := getWg s core o.wg
    let t := getTile w n
    let free := o.started = false ∧ s.gated = false ∧ stalled s core = false ∧ ctxActive s o.ctx = true ∧
      acqReady s core o.tid o.acq o.first = true ∧ ∀ x ∈ earlierOps s core op, mayPass s core x o = true
    (free → ∃ s', exec (.tileOpStart core op) s = .next s' ∧ getOp s' core op = some { o with started := true } ∧ SameMemory s s' ∧ TeamsKept s s' ∧
      ∀ c, (getCore s' c).wgs = (getCore s c).wgs) ∧
    (¬free → exec (.tileOpStart core op) s = .next s) ∧
    (o.started = true → o.fault = 0 → ctxActive s o.ctx = true → delivering s core op = false → stalled s core = false →
      relReady s core o.tid o.rel o.first = true →
      (runOp s core o = .wait → exec (.tileOpCommit core ⟨op, []⟩) s = .next s) ∧
      (∀ s1 v k i acc, runOp s core o = .fault s1 v k i acc → ∃ s', exec (.tileOpCommit core ⟨op, []⟩) s = .next s' ∧
        getOp s' core op = some { o with fault := k } ∧ (∀ c, (getCore s' c).wgs = (getCore s c).wgs) ∧
        ∃ f ∈ (getCtx s' o.ctx).heldRecs, f.grp = o.id ∧ f.cause = k ∧ f.src = 3 ∧ f.va = v) ∧
      (∀ s1 r, runOp s core o = .done s1 r → (∃ x ∈ (getCore s core).wgs, x.id = o.wg) → (∃ e ∈ (getCore s core).teams, e.2.wg = o.wg) →
        (resizes ws t r = false ∨ earlierOps s core op = []) → t.val = ⟨[], [], []⟩ →
        let rest := (getCore s core).tops.filter fun q => q.id != o.id
        let busy := rest.any fun q => q.wg == o.wg && (opWrites q).contains n
        ∃ s' x, exec (.tileOpCommit core ⟨op, []⟩) s = .next s' ∧ (getCore s' core).tops = rest ∧ getTile (getWg s' core o.wg) n = x ∧
          (∀ k, k ≠ n → getTile (getWg s' core o.wg) k = getTile w k) ∧ x.fe = (if o.kind = .tst then t.fe else !busy) ∧
          (∀ st, r = .fail st → x = { t with status := st, kprog := 0, fe := x.fe }) ∧
          (r = .keep → x = { t with status := 0, kprog := 0, fe := x.fe }) ∧
          (∀ y, r = .desc y → x = { y with status := 0, fe := x.fe, val := ⟨[], [], []⟩ }) ∧
          (∀ kind rank val tag f, r = .ok kind rank val tag f →
            let fl := f ||| o.sofar
            match placeFor ws w n t o.room kind rank with
            | none => x = { t with status := 1, kprog := 0, fe := x.fe }
            | some p =>
              x.status = 0 ∧ x.kprog = 0 ∧ x.kind = kind ∧ x.rank = rank ∧ (x.uofs, x.vofs) = p ∧ x.flags = t.flags ||| BitVec.ofNat 5 fl ∧
              x.satf = (t.satf || fl.testBit 5) ∧ x.rows = t.rows ∧ x.cols = t.cols ∧ x.slot = t.slot ∧ x.val = ⟨[], [], []⟩ ∧
              (bfb o.blk 511 = false → o.kind ≠ .tst → s'.mem = s.mem ∧ s'.wstore = s.wstore ∧ s'.remote = s.remote ∧
                ∀ c, (getCore s' c).bytes =
                  (getCore (if val = ⟨[], [], []⟩ then s else putVal s core w ws { x with val := val }) c).bytes) ∧
              ∀ u, getTeam s core o.slot = some u → u.tid = o.tid →
                ∃ u', getTeam s' core o.slot = some u' ∧ u'.fltstat = u.fltstat ||| BitVec.ofNat 64 (fl % 32)) ∧
          (bfb o.blk 511 = true → o.blk ≠ [] → readLoc s' (.scratch core (bf o.blk 448 32 % 2 ^ 20)) 8 =
            leBytes 8 (wordStatus x.status + 2 ^ 32 * bf o.blk 416 32)) ∧
          (bfb o.blk 511 = false → o.kind ≠ .tst → (∃ st, r = .fail st) ∨ r = .keep → SameMemory s s')))) ∧
  (∀ (s : State) (core op k : Nat) (o : TileOp) (g : Nat × Wg), getOp s core op = some o → o.started = true → tBad o.blk = false →
    (o.kind = .tmul ∧ k < 2 ∨ o.kind = .tadd ∧ k = 0) →
    let x := operandOf o.blk k
    let ws := (getLaunch s o.ctx o.seq).words
    x.1 = true → x.2.1 < 24 → (if k = 0 then o.remA else o.remB) = none → remoteWg s core (getWg s core o.wg) ws x.2.1 = some g →
    let t := fullTile s g.1 g.2 ws x.2.2
    (t.fe = false ∨ stalled s g.1 = true → exec (.remoteTileServe core op k) s = .next s) ∧
    (t.fe = true → stalled s g.1 = false → ∃ s' y, exec (.remoteTileServe core op k) s = .next s' ∧ getOp s' core op = some y ∧
      (if k = 0 then y.remA else y.remB) = some t ∧ SameMemory s s' ∧ (∀ c, (getCore s' c).wgs = (getCore s c).wgs) ∧
      (bf o.blk 64 32 = 0 → (getCore s' core).deliveries = (getCore s core).deliveries) ∧
      ∀ d ∈ (getCore s' core).deliveries, d ∈ (getCore s core).deliveries ∨ (d.op = o.id ∧ d.val = t ∧ d.tile = bf o.blk 96 6 ∧
        d.sent = 0 ∧ d.drained = 0 ∧ bit (bf o.blk 64 32) (d.core - 24 * clusterOf core) = true))) ∧
  (∀ (s : State) (core op target : Nat) (d : Delivery) (rest : List Delivery), (getCore s core).deliveries = d :: rest → d.op = op → d.core = target →
    24 * clusterOf core + target % 24 = target → d ∉ rest →
    let out := exec (.multicastDelivery core op target) s
    let sends := ∃ s', out = .next s' ∧ (getCore s' core).deliveries =
      { d with sent := d.sent + min (64 - bufferUsed s core) (deliveryLines s d - d.sent) } :: rest ∧ SameMemory s s' ∧ TeamsKept s s'
    (∀ g, receiver s core d = some g → d.sent = d.drained → ∃ s' o, out = .next s' ∧
      (getCore s' target).tops = (getCore s target).tops ++ [o] ∧ o.kind = .recv d.val ∧ o.dst = d.tile ∧ o.wg = g.2.id ∧
      (getTile (getWg s' target g.2.id) d.tile).fe = false ∧ (getCore s' core).deliveries = rest ∧ SameMemory s s' ∧ TeamsKept s s') ∧
    (∀ g, receiver s core d = some g → d.sent ≠ d.drained → sends) ∧
    (receiver s core d = none → unitPending s core d = true → sends) ∧
    (receiver s core d = none → unitPending s core d = false → ∃ s', out = .next s' ∧ (getCore s' core).deliveries = rest ∧
      (getCore s' core).dropped = (getCore s core).dropped + 1 ∧ SameMemory s s' ∧ TeamsKept s s')) ∧
  (∀ (s : State) (core src : Nat) (d : Delivery), clusterOf src = clusterOf core → (getCore s src).deliveries = [d] →
    (∀ c, clusterOf c = clusterOf core → c ≠ src → (getCore s c).deliveries = []) → d.core = core →
    let out := exec (.multicastBufferDrain core) s
    (d.sent ≤ d.drained → out = .next s) ∧
    (d.drained < d.sent →
      (∀ g, receiver s src d = some g → d.sent = deliveryLines s d → ∃ s' o, out = .next s' ∧
        (getCore s' core).tops = (getCore s core).tops ++ [o] ∧ o.kind = .recv d.val ∧ o.dst = d.tile ∧ o.wg = g.2.id ∧
        (getTile (getWg s' core g.2.id) d.tile).fe = false ∧ (getCore s' src).deliveries = [] ∧ SameMemory s s' ∧ TeamsKept s s') ∧
      (∀ g, receiver s src d = some g → d.sent ≠ deliveryLines s d → ∃ s', out = .next s' ∧
        (getCore s' src).deliveries = [{ d with drained := d.sent }] ∧ SameMemory s s' ∧ TeamsKept s s') ∧
      (receiver s src d = none → unitPending s src d = true → out = .next s) ∧
      (receiver s src d = none → unitPending s src d = false → ∃ s', out = .next s' ∧ (getCore s' src).deliveries = [] ∧
        (getCore s' src).dropped = (getCore s src).dropped + 1 ∧ SameMemory s s' ∧ TeamsKept s s')))

/-- R273 to R279, R302: a collective takes its table entry and the first messages of other ranks; it starts when those of all ranks agree, and ends
MISMATCH with a BROKEN communicator when they do not, or BROKEN when its join limit passes or another rank's break reaches it; contributions enter the
exact accumulators of their elements in the staging region, once those are free; a chunk lands in order, its bytes before its signal word, which rises
by the chunk's lines; the owner reads out a chunk once every rank has contributed; at its end the command leaves Zephyr with its completion
word and event, and the lines that it has not delivered turn full where a leaf of the other world ends it. Where the accumulators lie in the staging
region is the model's choice (log entry 81). -/
def Obligations.CollectiveEvents : Prop :=
  (∀ (s : State) (ctx tab c : Nat),
    (commState (getComm s ctx tab c) ≠ 1 → exec (.joinLimitExpiry ctx tab (some c)) s = .next s) ∧
    (commState (getComm s ctx tab c) = 1 → ∃ s', exec (.joinLimitExpiry ctx tab (some c)) s = .next s' ∧ Broken s s' ctx tab c ∧
      (getCtx s' ctx).colls = (getCtx s ctx).colls.map fun m => if m.comm = c ∧ m.tab = tab then brokenBy m else m)) ∧
  ∀ (s : State) (ctx cmd : Nat) (m : CollCmd), getColl s ctx cmd = some m →
    let e := m.ent
    let b := m.blk
    let n := elBytes (clEz b)
    let ends := fun (o : Host.Outcome State Fault Refusal) (m : CollCmd) (st : Nat) => ∃ s', o = .next s' ∧
      getColl s' ctx cmd = some { m with status := st } ∧ Broken s s' ctx m.tab m.comm ∧
      ∀ q ∈ (getCtx s ctx).colls, q.id ≠ cmd → (if q.comm = m.comm ∧ q.tab = m.tab then brokenBy q else q) ∈ (getCtx s' ctx).colls
    let stays := fun (o : Host.Outcome State Fault Refusal) (m : CollCmd) => ∃ s', o = .next s' ∧ getColl s' ctx cmd = some m ∧
      SameMemory s s' ∧ TeamsKept s s'
    let lands := fun (o : Host.Outcome State Fault Refusal) (h0 : State) (m : CollCmd) (seg chunk : Nat) (els : List ChunkEl) =>
      let key := (seg, chunk)
      ∀ hs h1 home h2, placeSome h0 ctx m key (clOut h0 ctx m seg els) [] = (.ok hs, h1) → clWordHome h1 ctx m seg = (.ok home, h2) →
        let m1 := { m with
          landed := m.landed ++ [key], placed := m.placed.filter (·.1 != key), early := m.early.filter (·.1 != key) }
        ∃ s', o = .next s' ∧ getColl s' ctx cmd = some m1 ∧ s'.reqs = s.reqs ∧
          ∀ x q l w, els = [x] → (∀ y ∈ m.placed, y.1 ≠ key) → clEz b ≠ 0 → home = some w → (bfb b 511 = false ∨ clLanded e m1 = false) →
            let p := clDst h0 ctx m (segBase b seg + x.j)
            let k := locAdd l (plAt p - plAt q)
            clPuts m [p] = [.word q] → plAt p + n ≤ plAt q + 8 → (accHome h0 (clEng h0 ctx m) (.word q)).1 = .ok (some l) →
            Known k → Known w → overlap k n w 8 = false →
            readLoc s' k n = leBytes n x.bits ∧ readLoc s' w 8 = leBytes 8 (leNat (readLoc s w 8) + clChunk b) ∧
            ∀ a, Known a → overlap a 1 k n = false → overlap a 1 w 8 = false → readLoc s' a 1 = readLoc s a 1
    let enters := fun (o : Host.Outcome State Fault Refusal) (h0 : State) (rank chunk : Nat) (els : List ChunkEl) =>
      ∀ ls h, stageHomes (clEng h0 ctx m) e b true (els.map (·.j)) h0 = (.ok ls, h) →
        let first := ∀ x ∈ m.contrib, x.2 ≠ chunk
        let k := accBytes (clAcc b)
        ∃ s', o = .next s' ∧ getColl s' ctx cmd = some { m with
          contrib := m.contrib ++ [(rank, chunk)], early := m.early.filter (·.1 != (rank, chunk)) } ∧ s'.reqs = s.reqs ∧ TeamsKept s s' ∧
          ∀ x l, els = [x] → ls = [some l] → Known l →
            (first → readLoc s' l k = leBytes k (accAdd (clAcc b) (clF b) 0 x.bits x.tag)) ∧
            (¬first → readLoc s' l k = leBytes k (accAdd (clAcc b) (clF b) (leNat (readLoc s l k)) x.bits x.tag)) ∧
            ∀ a, Known a → overlap a 1 l k = false → readLoc s' a 1 = readLoc s a 1
    (∀ msgs, m.started = false → m.status = 0 →
      let out := exec (.collJoin ctx cmd msgs) s
      let m1 := takeMsgs m msgs
      let s0 := putColl s ctx m1
      let agree := fun (q : CollParams) => q.op = clOp b ∧ q.fmt = clFmt b ∧ q.n = clN b ∧ q.root = clRoot b ∧ q.cm1 + 1 = clChunk b
      let all := allIn m1 = true ∧ acqReady s m.core m.tid m.acq m.first = true
      let late := m.joinLeft ≤ residentClock s ctx ∧ allIn m = false
      let goes := m.fault = 0 ∧ s.gated = false ∧ clRuns s ctx = true
      (late → ends out m 6) ∧
      (¬late → ¬goes → stays out m1) ∧
      (¬late → goes → commState e ≠ 1 →
        (clGoes s ctx m = false → stays out m1) ∧
        ∀ x h, clGoes s ctx m = true → readComm s0 ctx m.tab m.comm m.gone = (.ok x, h) →
          (startStatus h ctx x m1 = 0 → ∃ s', out = .next s' ∧ getColl s' ctx cmd = some { m1 with ent := x } ∧ SameBytes s s' ∧ TeamsKept s s' ∧
            LinesSet s s' false ((clAll s ctx x m).flatMap fun y => plLines n y.2.2)) ∧
          (startStatus h ctx x m1 ≠ 0 → stays out { m1 with status := startStatus h ctx x m1 })) ∧
      (¬late → goes → commState e = 1 →
        (¬all → stays out m1) ∧
        (all → (∀ q ∈ m1.arrived, q.rank = commRank e ∨ commRanks e ≤ q.rank ∨ agree q) → stays out { m1 with started := true }) ∧
        (all → (∃ q ∈ m1.arrived, q.rank ≠ commRank e ∧ q.rank < commRanks e ∧ ¬agree q) → ends out m1 5))) ∧
    (m.started = false → m.status = 0 → (getCtx s ctx).st ≠ .suspended →
      let late := m.joinLeft ≤ residentClock s ctx ∧ allIn m = false
      (late → ends (exec (.joinLimitExpiry ctx cmd none) s) m 6) ∧
      (¬late → exec (.joinLimitExpiry ctx cmd none) s = .next s)) ∧
    (∀ rank chunk (vals : List (BitVec 64)) (tags : List (BitVec 6)), m.started = true → m.status = 0 → m.fault = 0 → rank < commRanks e →
      let fits := fun (js : List Nat) => vals.length = js.length ∧ tags.length = js.length
      let out := exec (.zephyrChunkLands ctx ⟨cmd, []⟩ false rank chunk vals tags) s
      let js := chunkRange b chunk
      let taken := (rank, chunk) ∈ m.contrib ∨ accFree s ctx m chunk = false
      let here := landEls m rank chunk
      let lies := clGoes s ctx m = true ∧ nextChunk m rank chunk = true ∧ mayLand s ctx m rank chunk = true
      let own := if clOp b = 1 then clRoot b = commRank e else rank = commRank e
      (clReduces b = true → chunk < chunkCount b → clRuns s ctx = true → rank ≠ commRank e → vals ≠ [] →
        (taken → out = .next s) ∧ (¬taken → fits js → enters out s rank chunk (remoteEls b js vals tags))) ∧
      (clReduces b = true → chunk < chunkCount b → clRuns s ctx = true → rank = commRank e →
        (taken → out = .next s) ∧
        ∀ els h, ¬taken → clSource s ctx m (rank, chunk) js = (.ok els, h) →
          enters out (if els.any (·.2.2) then takePoison h ctx m.seq else h) rank chunk
            ((js.zip els).map fun y => ⟨y.1, y.2.1, y.2.2.1, false⟩)) ∧
      (clReduces b = true → chunk < chunkCount b → clRuns s ctx = true → rank ≠ commRank e → vals = [] →
        ((rank, chunk) ∈ m.sent → out = .next s) ∧
        ∀ els h, (rank, chunk) ∉ m.sent → clSource s ctx m (rank, chunk) js = (.ok els, h) →
          ∃ s', out = .next s' ∧ getColl s' ctx cmd = some { m with
            sent := m.sent ++ [(rank, chunk)], early := m.early.filter (·.1 != (rank, chunk)) } ∧ SameMemory s s') ∧
      (clReduces b = false → ¬lies → out = .next s) ∧
      (clReduces b = false → lies → ¬own → fits here →
        lands out s m rank chunk ((remoteEls b here vals tags).map fun y => { y with tag := 63 })) ∧
      (∀ els h, clReduces b = false → lies → own → clSource s ctx m (rank, chunk) here = (.ok els, h) →
        lands out h m rank chunk ((here.zip els).map fun y => ⟨y.1, y.2.1, 63, y.2.2.2⟩)) ∧
      (clOp b = 3 → lies → rank ≠ commRank e → fits here →
        lands (exec (.zephyrChunkLands ctx ⟨cmd, []⟩ true rank chunk vals tags) s) s m rank chunk (remoteEls b here vals tags))) ∧
    (∀ chunk, m.started = true → m.status = 0 → m.fault = 0 → clGoes s ctx m = true → clReduces b = true →
      let out := exec (.zephyrReadout ctx ⟨cmd, []⟩ chunk) s
      let js := landEls m (commRank e) chunk
      let ready := (∀ j ∈ js, ∀ r < commRanks e, (r, j / chunkEls b) ∈ m.contrib) ∧ nextChunk m (commRank e) chunk = true ∧
        mayLand s ctx m (commRank e) chunk = true
      (¬ready → out = .next s) ∧
      ∀ ls h, ready → stageHomes (clEng s ctx m) e b false js s = (.ok ls, h) →
        let read := (js.zip ls).map fun x => (x.1, accRead (clAcc b) (clF b) 0 (accAt h b x.2))
        lands out (ls.foldl (takeAcc ctx m.seq (accBytes (clAcc b))) h)
          { m with flags := m.flags ||| BitVec.ofNat 5 (read.foldl (fun a x => a ||| x.2.fl) 0) } (commRank e) chunk
          (read.map fun x => ⟨x.1, x.2.y, x.2.tag.toNat, false⟩)) ∧
    (let done_ := clLeaves s ctx m = true ∧ (m.status ≠ 0 ∨ (m.started = true ∧ clDone e m = true)) ∧
        relReady s m.core m.tid m.rel m.first = true
      let out := exec (.collComplete ctx cmd) s
      (¬done_ → out = .next s) ∧
      (done_ → ∃ s', out = .next s' ∧
        (∀ q, q ∈ (getCtx s' ctx).colls ↔ q ∈ (getCtx s ctx).colls ∧ q.id ≠ m.id) ∧ s'.reqs = s.reqs ∧
        (∀ k, ngetD 0 (getCtx s' ctx).events k = ngetD 0 (getCtx s ctx).events k + if bfb b 510 = true ∧ k = bf b 498 12 then 1 else 0) ∧
        (m.status ≠ 0 → bfb b 511 = true → readLoc s' (.scratch m.core (bf b 448 32 % 2 ^ 20)) 8 =
          leBytes 8 (m.status % 256 + 256 * (m.flags.toNat % 32) + 2 ^ 32 * bf b 416 32)) ∧
        (m.status = 0 ∨ bfb b 511 = false → SameReads s s') ∧
        (m.started = true → m.status = 4 → (∃ t ∈ (getCore s m.core).teams, t.2.wg = m.wg) →
          LinesSet s s' true ((clAll s ctx e m).flatMap fun y => plLines n y.2.2))))

/-! ### Events: the Bridle unit, tasks, contexts, fabric, system -/

/-- R394, R396, R399 to R405, R408 to R411, R414, R415: a request of the Bridle unit is taken in the order of its team once its slot's record is
cached; a commit evaluates its token at POS and applies what matched, a tentative one only notes it beside the ring, a confirmation enters its
tokens into the ring and applies what they matched as far as CLIP allows; a reply acts where the request has not, and fills D with tag 63; of
several answers to a scalar D that of the lowest lane is written. That drafts are kept beside the ring and which answer a scalar D takes are the
model's choices (log entry 81), as are the order of NCUR, the record and the answer and the statuses of .init (log entry 48). -/
def Obligations.BridleEvents : Prop :=
  (∀ (s : State) (n : Nat), ∃ s', exec (.bridleRecordFetch n) s = .next s' ∧ s'.seqSlots = s.seqSlots ∧ s'.reqs = s.reqs ∧ s'.cores = s.cores ∧
    (n < 8192 → n ∈ s'.bridleCache) ∧ (s.bridleCache.length ≤ 1024 → s'.bridleCache.length ≤ 1024)) ∧
  (∀ (s : State) (r : Req), getReq s r.id = some r →
    let ctx := getCtx s r.ctx
    let said := fun (s' : State) (x : Nat) => getReq s' r.id = some { r with done := true, val := BitVec.ofNat 256 x } ∧ TeamsKept s s'
    let refused := fun (o : Host.Outcome State Fault Refusal) x => ∃ s', o = .next s' ∧ said s' x ∧ s'.seqSlots = s.seqSlots ∧ SameMemory s s'
    let stays := fun (o : Host.Outcome State Fault Refusal) n (k : Nat) => seqTurn s r = true →
      let own := ownStatus s r.ctx n
      (own ≠ 0 → refused o (k * own)) ∧ (own = 0 → (getSeq s n).st = .stopped → refused o (k * 1)) ∧
      (own = 0 → (getSeq s n).st = .frozen → refused o (k * 2))
    let runs := fun n => seqTurn s r = true ∧ ownStatus s r.ctx n = 0 ∧ (getSeq s n).st = .active
    (∀ n tok doubt d, r.kind = .seqCommit n tok doubt d →
      let p := getSeq s n
      let q := p.pos
      let out := exec (.seqCommitEval r.id) s
      let p1 := { p with ring := setNth p.ring (q.toNat % 16) (BitVec.ofNat 24 (tok.toNat + if doubt then 2 ^ 21 else 0)) }
      let h := evalToken s p1 q.toNat p.ctr
      let nx := { p1 with ctr := h.ctr, pos := q + 1 }
      let forks := (steerOf p1 h.m).any fun i => weAction (entOf p i) == 1
      (seqTurn s r = false → out = .next s) ∧ stays out n 1 ∧ (runs n → p.tcnt ≠ 0 → refused out 6) ∧
      (runs n → p.tcnt = 0 → ∃ s', out = .next s' ∧ said s' 0 ∧
        (getCtx s' r.ctx).ncur = ctx.ncur + BitVec.ofNat 32 ((notifyOf p1 h.m).length + if forks then 1 else 0) ∧
        (forks = false → ∀ k, k ≠ n → getSeq s' k = getSeq s k) ∧
        ((∀ i < 8, weEn (entOf p i) = false) →
          getSeq s' n = { p1 with pos := q + 1, ctr := setNth p.ctr 0 (BitVec.ofNat 32 (min ((nth 0 p.ctr 0).toNat + 1) (2 ^ 32 - 1))) }) ∧
        (steerOf p1 h.m = none → getSeq s' n = nx) ∧
        ∀ i, steerOf p1 h.m = some i →
          (weAction (entOf p i) = 0 → getSeq s' n = { nx with st := .stopped, why := 1 }) ∧
          (weAction (entOf p i) = 2 → ∃ ring, getSeq s' n = { nx with ring := ring, pos := q + 1 + BitVec.ofNat 32 (weNinj (entOf p i)) }) ∧
          (weAction (entOf p i) = 4 → getSeq s' n =
            { nx with st := .frozen, tent := i, tpos := q, tteam := BitVec.ofNat 16 (64 * r.core + r.slot), tv := true, td := false }) ∧
          (weAction (entOf p i) = 1 →
            (∀ c, ((List.range ctx.slotN).map (ctx.slotLo + ·)).find? (fun k => (getSeq s k).st == .free) = some c →
              getSeq s' n = { nx with child := c } ∧ getSeq s' c = { newSlot with
                pos := nx.pos, rpos := nx.rpos, ring := nx.ring, ctr := nx.ctr, lim := nx.lim, ents := nx.ents, parent := n, sib := nx.child }) ∧
            (((List.range ctx.slotN).map (ctx.slotLo + ·)).find? (fun k => (getSeq s k).st == .free) = none →
              getSeq s' n = { nx with st := .stopped, why := 2 })))) ∧
    (∀ n tok d, r.kind = .seqTent n tok d →
      let p := getSeq s n
      let q := (p.pos.toNat + p.tcnt) % 2 ^ 32
      let out := exec (.seqTentativeEval r.id) s
      let p1 := { p with drafts := p.drafts ++ [BitVec.ofNat 24 (tok.toNat + 2 ^ 23)] }
      let h := evalToken s p1 q (if p.tcnt = 0 then p.ctr else p.shadow)
      let st := steerOf p1 h.m
      (seqTurn s r = false → out = .next s) ∧ stays out n 1 ∧ (runs n → 8 ≤ p.tcnt → refused out 5) ∧
      (runs n → p.tcnt < 8 → ∃ s' mask, out = .next s' ∧ said s' 0 ∧ SameMemory s s' ∧ (∀ k, k ≠ n → getSeq s' k = getSeq s k) ∧
        (∀ i < 8, mask.getLsbD i = (notifyOf p1 h.m).contains i) ∧
        getSeq s' n = { p1 with
          shadow := h.ctr, shadows := p.shadows ++ [h.ctr], tcnt := p.tcnt + 1, 
          pend := p.pend ++ [⟨st.isSome, st.getD 0, mask, countOf p1 h.m⟩],
          clip := if st.isSome then min p.clip p.tcnt else p.clip })) ∧
    (∀ n c d, r.kind = .seqConf n c d →
      let p := getSeq s n
      let out := exec (.seqConfirmation r.id) s
      let m := min c.toNat (min p.tcnt (if p.clip = 15 then p.tcnt else p.clip + 1))
      (seqTurn s r = false → out = .next s) ∧ stays out n 256 ∧
      (runs n → ∃ s', out = .next s' ∧ said s' m ∧ (getSeq s' n).tcnt = 0 ∧ (getSeq s' n).clip = 15 ∧ (getSeq s' n).pend = [] ∧
        (getSeq s' n).drafts = [] ∧
        ((∀ k < m, nth default p.pend k = ⟨false, 0, 0, false⟩) → p.shadows.length = p.tcnt → p.tcnt ≤ 8 → p.ring.length = 16 →
          ∃ ring, SameMemory s s' ∧
          (∀ k < m, nth 0 ring ((p.pos.toNat + k) % 16) = nth 0 p.drafts k &&& ~~~ (1#24 <<< 23)) ∧
          (∀ j, (∀ k < m, (p.pos.toNat + k) % 16 ≠ j) → nth 0 ring j = nth 0 p.ring j) ∧
          (∀ k, k ≠ n → getSeq s' k = getSeq s k) ∧ getSeq s' n = { p with
            drafts := [], tcnt := 0, clip := 15, pend := [], shadows := [], pos := p.pos + BitVec.ofNat 32 m, ring := ring,
            ctr := if m = 0 then p.ctr else nth [] p.shadows (m - 1) }))) ∧
    (∀ t, Asked s r t →
      let lands := fun (d : Opd) (pair : Bool) (x : DWord) (seq : State → Prop) => isV d = true ∨ (isS d = true ∧ r.lane = lowest r.act) → ∃ s' u,
        exec (.seqReply r.id) s = .next s' ∧ Arrived s s' r t u [(d, pair)] (fun q => q.id = r.id) ∧ SameFlags t u ∧ SameMemory s s' ∧
        Holds s' r t u d pair x 63 ∧ seq s'
      let only := fun n (x : SeqSlot) (s' : State) => getSeq s' n = x ∧ ∀ k, k ≠ n → getSeq s' k = getSeq s k
      (r.done = true →
        (∀ n tok dbt d, r.kind = .seqCommit n tok dbt d → lands d false (r.val.setWidth 64) fun s' => s'.seqSlots = s.seqSlots) ∧
        (∀ n tok d, r.kind = .seqTent n tok d → lands d false (r.val.setWidth 64) fun s' => s'.seqSlots = s.seqSlots) ∧
        (∀ n c d, r.kind = .seqConf n c d → lands d false (r.val.setWidth 64) fun s' => s'.seqSlots = s.seqSlots) ∧
        ∀ n tok dbt d, r.kind = .seqCommit n tok dbt d ∨ r.kind = .seqTent n tok d → isS d = true → r.lane ≠ lowest r.act →
          ∃ s', exec (.seqReply r.id) s = .next s' ∧ s'.cores = s.cores ∧ s'.seqSlots = s.seqSlots ∧ SameMemory s s' ∧
            Left s s' (fun q => q.id = r.id)) ∧
      (seqTurn s r = true →
        (∀ form n d pair, r.kind = .seqRd form n d pair → form < 2 → ownStatus s r.ctx n = 0 →
          let p := getSeq s n
          let lost := p.rpos.toNat + 16 < p.pos.toNat
          let at_ := if lost then p.pos.toNat - 16 else p.rpos.toNat
          let e := nth 0 p.ring (at_ % 16)
          let after := if at_ < p.pos.toNat then at_ + 1 else at_
          let stn := if p.st = .active then 1 else if p.st = .stopped then 2 else 3
          lands d pair (BitVec.ofNat 64 (2 ^ 32 * at_ + 2 ^ 24 * stn + (if after < p.pos.toNat then 2 ^ 27 else 0) + (if lost then 2 ^ 28 else 0) +
              (if at_ < p.pos.toNat then e.toNat % 2 ^ 20 + (if e.getLsbD 21 then 2 ^ 21 else 0) + (if e.getLsbD 22 then 2 ^ 22 else 0) + 2 ^ 26
               else 0)))
            (only n (if form = 0 then { p with rpos := BitVec.ofNat 32 after } else p))) ∧
        (∀ form n d, r.kind = .seqRel form n d →
          let p := getSeq s n
          (ownStatus s r.ctx n ≠ 0 → lands d false (BitVec.ofNat 64 (ownStatus s r.ctx n)) (only n p)) ∧
          (ownStatus s r.ctx n = 0 →
            (form = 2 → lands d false 0 fun s' => (getSeq s' n).st = .free ∧ ∀ k, k ≠ n → getSeq s' k = getSeq s k) ∧
            (form < 2 → p.st ≠ .frozen → lands d false 7 (only n p)) ∧
            (form = 0 → p.st = .frozen → lands d false 0 (only n { p with st := .active, tv := false, td := false })) ∧
            (form = 1 → p.st = .frozen → lands d false 0 (only n { p with st := .stopped, why := 3, tv := false, td := false })))) ∧
        (∀ n b c rec_ d, r.kind = .seqWp 2 n b c rec_ d → slotOwner s n = some r.ctx → imageReady s r = true →
          ((getSeq s n).st = .free → lands d false 0 (only n newSlot)) ∧ ((getSeq s n).st ≠ .free → lands d false 8 (only n (getSeq s n)))) ∧
        (∀ n b c rec_ d i, r.kind = .seqWp 1 n b c rec_ d → ownStatus s r.ctx n = 0 → (getSeq s n).tcnt = 0 → imageReady s r = true →
          b.toNat % 2 ^ 32 = i → i < 4 →
          lands d false 0 (only n { getSeq s n with
            ctr := setNth (getSeq s n).ctr i (c.setWidth 32), lim := setNth (getSeq s n).lim i ((c >>> 32).setWidth 32) })))))

/-- R322, R324, R331 to R333, R336 to R347, R361: the task unit answers a LAUNCH with the number of the accepted launch or with the first check
that its record failed; it takes records from command queues while their counts stay within the ring; a launch starts after those it depends on,
with memory as it stands for its code, is placed unit by unit with fresh teams, lets a die without chunks take half of the richest die's, and at
completion writes its completion word and then adds to its event. Words of a record may be read ahead of its taking. That a queue's tail and head
words have physical addresses is the model's choice (log entry 25), as is a completion word aligned down to 8 B (log entry 51). -/
def Obligations.TaskEvents : Prop :=
  (∀ (s : State) (r : Req) n a, getReq s r.id = some r → r.kind = .evAdd n a →
    let held := r.rel = true ∧ ∃ q ∈ s.reqs, q.core = r.core ∧ q.tid = r.tid ∧ isAccess q = true ∧ q.id < r.id ∧ isTicketRead q = false
    (held → exec (.eventAdd r.id) s = .next s) ∧
    (¬held → ∃ s', exec (.eventAdd r.id) s = .next s' ∧ SameMemory s s' ∧ TeamsKept s s' ∧ Left s s' (fun q => q.id = r.id) ∧
      ∀ x k, ngetD 0 (getCtx s' x).events k = ngetD 0 (getCtx s x).events k + if x = r.ctx ∧ k = n then a else 0)) ∧
  (∀ (s : State) (r : Req) (t : Team) d p rel no early, Asked s r t → r.kind = .launch d p rel no early → isV d = true ∨ isS d = true →
    let k := getCtx s r.ctx
    let out := exec (.launchTaken ⟨r.id, []⟩) s
    let answers := fun (x : DWord) (new : State → Prop) => ∃ s' u, out = .next s' ∧ getTeam s' r.core r.slot = some u ∧ SameRegs t u d p r.act ∧
      SameControl t u ∧ SameFlags t u ∧ u.lpc = t.lpc ∧ SameOthers s s' r.core r.slot ∧ Left s s' (fun q => q.id = r.id) ∧ new s' ∧
      (opdAlloc t d p = true → ∀ l ∈ lanesOf r.act, rdOpd s' u d p l = written d p x 63)
    let none_ := fun s' => (getCtx s' r.ctx).launches = k.launches
    (no = true → answers (BitVec.ofNat 64 (2 ^ 63 + 1)) none_) ∧
    (no = false → isFaulted r = true ∨ 1024 ≤ waiting k → out = .next s) ∧
    (∀ j a v, no = false → isFaulted r = false → (recAccs r.va)[j]? = some a → aheadOf early j = none →
      (accNow s (taskEng s r.ctx []) a).1 = .ok v → launchHeld s r rel v.2.toList = false →
      ∃ s', exec (.launchTaken ⟨r.id, [j]⟩) s = .next s' ∧ SameMemory s s' ∧ TeamsKept s s' ∧
        getReq s' r.id = some { r with kind := .launch d p rel no (early ++ [(j, BitVec.ofNat 80 v.1)]) }) ∧
    (∀ ws ls w, no = false → isFaulted r = false → waiting k < 1024 → recWords s (taskEng s r.ctx []) early r.va = (.ok (ws, ls), w) →
      launchHeld s r rel ls = false →
      (recCheck ws k.world ≠ 0 → answers (BitVec.ofNat 64 (2 ^ 63 + (256 * recCheck ws k.world + 2))) none_) ∧
      (recCheck ws k.world = 0 → answers (BitVec.ofNat 64 (k.nextSeq % 2 ^ 63)) fun s' =>
        (getCtx s' r.ctx).nextSeq = k.nextSeq + 1 ∧
        ∃ q, (getCtx s' r.ctx).launches = k.launches ++ [q] ∧ q.seq = k.nextSeq ∧ q.words = ws ∧ q.st = .accepted ∧ q.firmware = false ∧
          ∀ n, n ∈ q.after ↔ ∃ y ∈ k.launches, y.seq = n ∧ y.st ≠ .complete ∧ y.reject = 0 ∧ dependsOn y.words ws = true))) ∧
  (∀ (s : State) (ctx n : Nat) (u : Queue),
    let k := getCtx s ctx
    let out := exec (.queueTailRead ctx ⟨n, []⟩) s
    let lag := wrap ((countWord s u.tail : Int) - u.taken.toNat) 32
    (nget k.queues n = none → out = .next s) ∧
    (nget k.queues n = some u → u.stopped = true ∨ k.st = .free ∨ k.st = .resetting → out = .next s) ∧
    (nget k.queues n = some u → u.stopped = false → k.st ≠ .free → k.st ≠ .resetting →
      (∀ j ≤ 8, relRec s (locAdd (.hbm u.tail) j) = ⟨[], false⟩) →
      (2 ^ u.sizeLog2 < lag → ∃ s', out = .next s' ∧ SameMemory s s' ∧ nget (getCtx s' ctx).queues n = some { u with stopped := true } ∧
        ∃ f ∈ (getCtx s' ctx).heldRecs, f.cause = 4 ∧ f.src = 6 ∧ f.info = BitVec.ofNat 64 n) ∧
      (lag = 0 ∨ (lag ≤ 2 ^ u.sizeLog2 ∧ (1024 ≤ waiting k ∨ queueHeld k n = true)) → ∃ s', out = .next s' ∧ s'.mem = s.mem ∧ s'.ctxs = s.ctxs ∧ s'.cores = s.cores) ∧
      (0 < lag → lag ≤ 2 ^ u.sizeLog2 → waiting k < 1024 → queueHeld k n = false → queueTurn s k n = true → ∀ ws ls h,
        recWords s (taskEng s ctx u.gone) u.early (nextRec u) = (.ok (ws, ls), h) →
        recCheck ws k.world = 0 → ∃ s' q, out = .next s' ∧ (getCtx s' ctx).launches = k.launches ++ [q] ∧ q.seq = k.nextSeq ∧ q.words = ws ∧
          q.st = .accepted ∧ q.firmware = k.fw ∧ nget (getCtx s' ctx).queues n = some { u with taken := u.taken + 1, gone := [], early := [] } ∧
          countWord s' u.head = (u.taken.toNat + 1) % 2 ^ 32 ∧
          ∀ m, Known m → overlap m 1 (.hbm u.head) 8 = false → readLoc s' m 1 = readLoc s m 1) ∧
      (0 < lag → lag ≤ 2 ^ u.sizeLog2 → waiting k < 1024 → queueHeld k n = false → queueTurn s k n = true → ∀ j a v,
        (recAccs (nextRec u))[j]? = some a → aheadOf u.early j = none → (accNow s (taskEng s ctx u.gone) a).1 = .ok v →
        ∃ s', exec (.queueTailRead ctx ⟨n, [j]⟩) s = .next s' ∧ SameMemory s s' ∧
          nget (getCtx s' ctx).queues n = some { u with early := u.early ++ [(j, BitVec.ofNat 80 v.1)] }) ∧
      (0 < lag → lag ≤ 2 ^ u.sizeLog2 → waiting k < 1024 → queueHeld k n = false → queueTurn s k n = true → ∀ v c i a h,
        recWords s (taskEng s ctx u.gone) u.early (nextRec u) = (.fault v c i a, h) →
        ∃ s', out = .next s' ∧ SameMemory s s' ∧ nget (getCtx s' ctx).queues n = some u ∧
          ∃ f ∈ (getCtx s' ctx).heldRecs, f.cause = c ∧ f.src = 6 ∧ f.va = v ∧ f.grp = queueGrp n))) ∧
  (∀ (s : State) (ctx n : Nat), ∃ s', exec (.queueReset ctx n) s = .next s' ∧ SameMemory s s' ∧ s'.reqs = s.reqs ∧
    ∀ m, nget (getCtx s' ctx).queues m =
      (nget (getCtx s ctx).queues m).map fun u => if m = n then { u with stopped := false, early := [] } else u) ∧
  (∀ (s : State) (ctx seq : Nat), (∃ q ∈ (getCtx s ctx).launches, q.seq = seq) →
    let q := getLaunch s ctx seq
    let begun := fun (s' : State) (grid : Nat) =>
      let p := getLaunch s' ctx seq
      p.st = .started ∧ p.words = q.words ∧ p.grid = grid ∧ p.begun = s.past.length ∧ p.live = 0 ∧ p.left = unitCount p ∧
      ∀ d < 4, ∀ k, k ∈ nth [] p.chunks d ↔ k % 4 = d ∧ k * recChunk q.words < unitCount p
    (mayStart s ctx q = false → exec (.launchStart ctx seq) s = .next s) ∧
    (mayStart s ctx q = true → recChunk q.words ≠ 0 →
      (recLmode q.words = false → recGrid q.words ≠ 0 →
        ∃ s', exec (.launchStart ctx seq) s = .next s' ∧ SameMemory s s' ∧ TeamsKept s s' ∧ begun s' (recGrid q.words)) ∧
      (∀ l h, recLmode q.words = true → engAt s (taskEng s ctx q.gone) false (recCntAddr q.words) 0 = (.ok (some l), h) →
        (∀ j ≤ 4, relRec h (locAdd l j) = ⟨[], false⟩) → leNat (readLoc h l 4) ≠ 0 →
        ∃ s', exec (.launchStart ctx seq) s = .next s' ∧ TeamsKept s s' ∧ begun s' (leNat (readLoc h l 4))))) ∧
  (∀ (s : State) (ctx seq : Nat), (∃ q ∈ (getCtx s ctx).launches, q.seq = seq) →
    let q := getLaunch s ctx seq
    let g := harvest (fun e => e.ctx == ctx) s
    let va := recCwAddr q.words
    let over_ := fun (s' : State) => exec (.launchComplete ctx seq) s = .next s' ∧ TeamsKept s s' ∧ s'.reqs = s.reqs ∧
      (getLaunch s' ctx seq).st = .complete ∧
      ∀ n, ngetD 0 (getCtx s' ctx).events n = ngetD 0 (getCtx s ctx).events n + if recEve q.words = true ∧ n = recEvt q.words then 1 else 0
    (launchOver s ctx q = false ∨ ctxActive s ctx = false → exec (.launchComplete ctx seq) s = .next s) ∧
    (launchOver s ctx q = true → ctxActive s ctx = true →
      (va = 0 → ∃ s', over_ s' ∧ Harvested s s' fun e => e.ctx == ctx) ∧
      (∀ l h, va ≠ 0 → Known l → engAt g (taskEng g ctx q.gone) true (va / 8 * 8) 1 = (.ok (some l), h) → ∃ s', over_ s' ∧
        Stored h s' l (leBytes 8 (if q.reject = 0 then q.seq % 2 ^ 63 else 2 ^ 63 + 256 * q.reject + 2))) ∧
      (∀ v c i a h, va ≠ 0 → engAt g (taskEng g ctx q.gone) true (va / 8 * 8) 1 = (.fault v c i a, h) →
        ∃ s', exec (.launchComplete ctx seq) s = .next s' ∧ (getLaunch s' ctx seq).st = q.st ∧ (getLaunch s' ctx seq).fault = c ∧
          ∃ f ∈ (getCtx s' ctx).heldRecs, f.cause = c ∧ f.src = 6 ∧ f.va = v))) ∧
  (∀ (s : State) (die : Nat),
    let out := exec (.droverPlacement die) s
    (s.ctl.mode ≠ .running ∨ 4 ≤ die ∨ firstPlaced s die = none → out = .next s) ∧
    (∀ s1 x q, s.ctl.mode = .running → die < 4 → firstPlaced s die = some (s1, x, q) → getLaunch s x q.seq = q →
      (getCtx s x).st = .running →
      ∃ s', out = .next s' ∧ TeamsKept s s' ∧ ((∀ e ∈ s.ctxs, e.2.saved = []) → s'.mem = s.mem) ∧ s'.reqs = s.reqs ∧
        ngetD 63 s'.drovers die = x ∧
        q.st = .started ∧ (nextUnit q die).isSome = true ∧ (getLaunch s' x q.seq).left = q.left - 1 ∧
        (getLaunch s' x q.seq).live = q.live + teamsIn q.words (placeLevel q.words) ∧
        ∀ c sl u, getTeam s' c sl = some u → getTeam s c sl = some u ∨
          (getTeam s c sl = none ∧ c / 144 = die ∧ (getCore s c).world = q.world ∧ u.ctx = x ∧ u.seq = q.seq ∧ u.live = BitVec.allOnes 32 ∧
            u.alloc = recRegs q.words ∧ (∀ l < 32, getLpc u l = 0) ∧ (∀ n l, getV u n l = ⟨0, true, 63⟩) ∧
            u.sigmin = 0 ∧ u.sigstat = 0 ∧ u.fltstat = 0 ∧ u.trapen = 0 ∧ u.oobcnt = 0 ∧ u.rgncnt = 0 ∧ u.saved = none ∧
            ∀ n < 64, (recSbv q.words = false ∨ n ≠ recShareBase q.words) → (recLscv q.words = false ∨ n ≠ recLsc q.words) →
              getS u n = ⟨recSVal q.words n, true, recSTag q.words n⟩))) ∧
  (∀ (s : State) (die ctx seq : Nat), (∃ q ∈ (getCtx s ctx).launches, q.seq = seq) →
    let q := getLaunch s ctx seq
    let out := exec (.steal die ctx seq) s
    ((∀ d < 4, (nth [] q.chunks d).length < 2) → out = .next s) ∧
    (∀ v < 4, q.st = .started → (getCtx s ctx).st = .running → die < 4 → q.chunks.length = 4 → nth [] q.chunks die = [] →
      2 ≤ (nth [] q.chunks v).length → (∀ d < 4, d ≠ v → (nth [] q.chunks d).length < (nth [] q.chunks v).length) →
      ∃ s', out = .next s' ∧ SameMemory s s' ∧ TeamsKept s s' ∧
        let p := getLaunch s' ctx seq
        nth [] p.chunks v ++ nth [] p.chunks die = nth [] q.chunks v ∧ (nth [] p.chunks die).length = (nth [] q.chunks v).length / 2 ∧
        ∀ d, d ≠ v → d ≠ die → nth [] p.chunks d = nth [] q.chunks d))

/-- R212, R275, R368, R379 to R387, R390 to R392, R394, R417: firmware creates a context inside the limits of its parameters; a pre-emption
request drains it until the first deadline, suspends it, and resets it after the second; a suspended context has left every core but keeps what
its teams and requests were, and a restore puts them back where they stood; a teardown or reset frees it; an armed stop halts the team that
reaches it. The model's choices among this: a deadline of 0 stands for the default (log entry 33), a teardown with resident teams does nothing
(log entry 32), and the layout of the save area, when an undo area takes its entries, and what a restore reads back (log entry 82). -/
def Obligations.ContextEvents : Prop :=
  (∀ (s : State) (ctx : Nat) (p : CtxParams),
    (createOk s ctx p = false → exec (.contextCreate ctx p) s = .next s) ∧
    (createOk s ctx p = true → ∃ s', exec (.contextCreate ctx p) s = .next s' ∧ SameMemory s s' ∧ s'.reqs = s.reqs ∧ TeamsKept s s' ∧
      (∀ x, x ≠ ctx → getCtx s' x = getCtx s x) ∧
      (∀ n, getSeq s' n = if p.slotLo ≤ n ∧ n < p.slotLo + p.slotN then freeSlot else getSeq s n) ∧
      let k := getCtx s' ctx
      k.st = .running ∧ k.world = p.world ∧ k.root = p.root ∧ k.inc = (getCtx s ctx).inc + 1 ∧ k.tickLife = p.tickLife.getD (2 ^ 20) ∧
      k.wdLog2 = p.wdLog2.getD 32 ∧ k.joinLog2 = p.joinLog2.getD 32 ∧ k.ringBase = p.ringBase ∧ k.ringLog2 = p.ringLog2 ∧ k.nextFault = 0 ∧
      k.acksRead = 0 ∧ k.nextSeq = 0 ∧ k.launches = [] ∧ k.events = [] ∧ k.nrec = none ∧ k.debug = false ∧ k.saveBase = p.saveBase ∧ k.slotLo = p.slotLo ∧ k.slotN = p.slotN ∧
      ∀ n < p.queues.length, ∃ q, nget k.queues n = some q ∧ q.taken = 0 ∧ q.stopped = false ∧ q.base = (nth (0, 0, 0, 0) p.queues n).1)) ∧
  (∀ (s : State) (ctx : Nat),
    let k := getCtx s ctx
    let freed := fun (s' : State) => (getCtx s' ctx).st = .free ∧ (getCtx s' ctx).inc = k.inc ∧ (∀ c sl u, getTeam s' c sl = some u → u.ctx ≠ ctx) ∧
      (∀ q ∈ s'.reqs, q.ctx ≠ ctx) ∧ (∀ e ∈ allTlbs s', e.ctx ≠ ctx) ∧ (∀ n ∈ slotRange k, getSeq s' n = freeSlot) ∧
      (∀ c sl t, getTeam s c sl = some t → t.ctx ≠ ctx → getTeam s' c sl = some t) ∧ ∀ q ∈ s.reqs, q.ctx ≠ ctx → q ∈ s'.reqs
    let moves := fun (o : Host.Outcome State Fault Refusal) (f : Ctx → Ctx) => ∃ s', o = .next s' ∧ getCtx s' ctx = f k ∧ SameMemory s s' ∧
      TeamsKept s s' ∧ s'.reqs = s.reqs ∧ ∀ x, x ≠ ctx → getCtx s' x = getCtx s x
    (k.st = .free ∨ teamsOf s ctx ≠ [] → exec (.contextTeardown ctx) s = .next s) ∧
    (k.st ≠ .free → teamsOf s ctx = [] → ∃ s', exec (.contextTeardown ctx) s = .next s' ∧ freed s' ∧ SameMemory s s') ∧
    (k.st ≠ .resetting → exec (.contextReset ctx) s = .next s) ∧
    (k.st = .resetting → ∃ s', exec (.contextReset ctx) s = .next s' ∧ freed s' ∧
      ((∀ q ∈ k.launches, q.st = .complete ∨ recCwAddr q.words = 0) → SameMemory s s')) ∧
    (∀ d1 d2, (k.st ≠ .running → exec (.preemptRequest ctx d1 d2) s = .next s) ∧
      (k.st = .running → moves (exec (.preemptRequest ctx d1 d2) s) fun k => { k with
        st := .draining, d1 := s.clock + (if d1 = 0 then 2 ^ 20 else d1),
        d2 := s.clock + (if d2 = 0 then (if d1 = 0 then 2 ^ 20 else d1) + 2 ^ 16 else d2) })) ∧
    (∀ groups, (k.st ≠ .draining ∨ s.clock < k.d1 ∨ teamsOf s ctx = [] → exec (.drainDeadlineExpiry ctx groups) s = .next s) ∧
      (k.st = .draining → k.d1 ≤ s.clock → teamsOf s ctx ≠ [] →
        (groups = [] → moves (exec (.drainDeadlineExpiry ctx groups) s) fun k => { k with st := .suspending }) ∧
        ∃ s', exec (.drainDeadlineExpiry ctx groups) s = .next s' ∧ (getCtx s' ctx).st = .suspending ∧ TeamsKept s s' ∧ s'.reqs = s.reqs ∧
          s'.mem = s.mem ∧ s'.wstore = s.wstore ∧ s'.remote = s.remote ∧ ∀ c, ∀ o ∈ (getCore s' c).tops, o.ctx = ctx → o.started = false)) ∧
    ((k.st = .suspending ∨ k.st = .draining) ∧ k.d2 ≤ s.clock →
      moves (exec (.suspendDeadlineExpiry ctx) s) fun k => { k with st := .resetting }) ∧
    ((k.st ≠ .suspending ∧ k.st ≠ .draining) ∨ s.clock < k.d2 → exec (.suspendDeadlineExpiry ctx) s = .next s) ∧
    (suspendReady s ctx = false → exec (.suspensionComplete ctx) s = .next s) ∧
    (suspendReady s ctx = true → ∃ s', exec (.suspensionComplete ctx) s = .next s' ∧ (getCtx s' ctx).st = .suspended ∧
      (getCtx s' ctx).pausedAt = s.clock ∧ (getCtx s' ctx).launches = k.launches ∧
      (let saved := (getCtx s' ctx).saved
       let apart := fun a => ∀ m ∈ saved,
         (∀ e ∈ m.teams, (a < teamRecordAt k.saveBase m.core e.1 ∨ teamRecordAt k.saveBase m.core e.1 + Config.teamRecord ≤ a) ∧
           (k.debug = false ∨ a < undoAreaAt k.saveBase m.core e.1 ∨ undoAreaAt k.saveBase m.core e.1 + Config.undoArea ≤ a)) ∧
         ∀ n < m.wgs.length, a < wgRecordAt k.saveBase m.core n ∨ wgRecordAt k.saveBase m.core n + Config.wgRecord ≤ a
       (∀ e ∈ allTlbs s, e.ctx = ctx → e.dirty = true → apart (e.leafPa + 7) → (ngetD 0 s'.mem (e.leafPa + 7)).getLsbD 5 = true) ∧
       ∀ a, apart a → (∀ e ∈ allTlbs s, e.ctx = ctx → e.dirty = true → e.leafPa + 7 ≠ a) → ngetD 0 s'.mem a = ngetD 0 s.mem a) ∧
      (∀ q, q ∈ (getCtx s' ctx).savedReqs ↔ q ∈ s.reqs ∧ q.ctx = ctx ∧ isFetch q = false) ∧
      (∀ q, q ∈ s'.reqs ↔ q ∈ s.reqs ∧ (q.ctx ≠ ctx ∨ isFetch q = true)) ∧ (∀ c sl u, getTeam s' c sl = some u → u.ctx ≠ ctx) ∧
      (∀ c, (getCore s' c).bytes = (getCore s c).bytes ∧ (getCore s' c).tags = (getCore s c).tags) ∧
      ∀ c sl t, getTeam s c sl = some t →
        (t.ctx ≠ ctx → getTeam s' c sl = some t) ∧ (t.ctx = ctx → ∃ m ∈ (getCtx s' ctx).saved, m.core = c ∧
          ∃ u, nget m.teams sl = some u ∧ SameTeam t u ∧ (k.debug = false → u = t))) ∧
    (k.st ≠ .suspended ∨ s.ctl.mode ≠ .running ∨ (∃ m ∈ k.saved, fits s m = false) → exec (.contextRestore ctx) s = .next s) ∧
    (k.st = .suspended → s.ctl.mode = .running → (∀ m ∈ k.saved, fits s m = true) →
      ∃ s', exec (.contextRestore ctx) s = .next s' ∧ TeamsKept s s' ∧ ((∀ e ∈ s.ctxs, e.1 ≠ ctx → e.2.saved = []) → s'.mem = s.mem) ∧
        (getCtx s' ctx).st = .running ∧
        (getCtx s' ctx).saved = [] ∧ (getCtx s' ctx).savedReqs = [] ∧ (getCtx s' ctx).paused = k.paused + (s.clock - k.pausedAt) ∧
        (∀ q, q ∈ s'.reqs ↔ q ∈ s.reqs ∨ q ∈ k.savedReqs) ∧
        ∀ m, k.saved = [m] → (m.teams.map (·.1)).Nodup → ∀ sl t, nget m.teams sl = some t → getTeam s' m.core sl = some t)) ∧
  (∀ (s : State) (c sl : Nat) (t : Team), getTeam s c sl = some t → t.live ≠ 0 →
    let e := enterRegion t (getCtx s t.ctx).debug (issueAddr t) (rgnAhead s c t)
    (t.halted = true ∨ t.hold ≠ none ∨ t.trap ≠ none ∨ (atStop t = false ∧ atStop e = false) → exec (.debugStopReached c sl) s = .next s) ∧
    (t.halted = false → t.hold = none → t.trap = none → atStop t = true ∨ atStop e = true → ∃ s' u, exec (.debugStopReached c sl) s = .next s' ∧
      getTeam s' c sl = some u ∧ u.halted = true ∧ SameTeam t u ∧ UndoOnly s s' c sl t ∧ SameUnits s s' ∧ SameOthers s s' c sl ∧
      u.stops = t.stops.filter (· != if atStop t then ⟨t.rgncnt, t.retcnt⟩ else ⟨e.rgncnt, e.retcnt⟩) ∧
      (getISlot s' c (islotOf t)).holder ≠ some sl))

/-- R279, R398, R434 to R440, R444, R457: a failing port sets DOWN on the routes through it, breaks the communicators that use them and makes the
waiting accesses fault with PEER; system software rebuilds tables; a lease begins with the first access through its window and ends when its
accesses are performed; a peer's access is performed where an export range or a context's table takes it, and else refused; a core or slice
changes its world, zeroed, while no kernel runs. The model's choices among this: how bytes at other endpoints are named (log entry 3), what the
lease tables record (log entry 68), and what keeps a core or slice from changing its world and how regions of the weight store change theirs (log
entry 46). -/
def Obligations.FabricEvents : Prop :=
  (∀ (s : State) (port : Nat), ∃ s', exec (.portFailure port) s = .next s' ∧ TeamsKept s s' ∧ port ∈ s'.downPorts ∧
    (∀ k, ngetD 0 s'.routes k = if namesPort port (ngetD 0 s.routes k) = true then ngetD 0 s.routes k ||| 0x4000 else ngetD 0 s.routes k) ∧
    (let s1 := { logEcc s (256 + port) with
       downPorts := insAsc port s.downPorts,
       routes := s.routes.map fun e : Nat × BitVec 16 => if namesPort port e.2 then (e.1, e.2 ||| 0x4000) else e }
     let hit := fun e => commState e = 1 ∧ ∃ q ∈ s.routes, q.1 / 4096 = commRoute e ∧ namesPort port q.2 = true
     (∀ r ∈ s.reqs, ∀ tok pay z, r.kind ≠ .expq tok pay z) →
     ((∀ x ∈ s.ctxs, ∀ y ∈ commEntries x.2, ¬hit (getComm s1 x.1 y.1 y.2)) → s'.mem = s.mem ∧
       ∀ x, (getCtx s' x).colls = (getCtx s x).colls) ∧
     ∀ x k tab c pa, s.ctxs = [(x, k)] → k.commTabs = [tab] → tab ≠ 0 → c < 64 →
       (engAt s1 (zephyr s1 x []) false (tab + 8 * c) 0).1 = .ok (some (.hbm pa)) →
       let e := withState (getComm s1 x tab c) 2
       hit (getComm s1 x tab c) → (∀ d < 64, d ≠ c → ¬hit (getComm s1 x tab d)) →
       (∀ d < 64, getComm (storeAt s1 (.hbm pa) (leBytes 8 e.toNat)) x tab d = if d = c then e else getComm s1 x tab d) →
       readLoc s' (.hbm pa) 8 = leBytes 8 e.toNat ∧
       (getCtx s' x).colls = k.colls.map fun m => if m.comm = c ∧ m.tab = tab then brokenBy m else m) ∧
    ∀ r l, getReq s r.id = some r → r.done = false → isFaulted r = false → r.loc = some l →
      (portOf s l = some port → (∀ k e b c, r.kind ≠ .fetch k e b c) → getReq s' r.id = some { r with loc := none, fault := 8, info := 1 }) ∧
      (portOf s l ≠ some port → r.shadow = none → r.shLocs = [] → getReq s' r.id = some r)) ∧
  (∀ (s : State) (table : Nat) (es : NMap (BitVec 16)),
    (1024 ≤ table → exec (.routeTableRebuild table es) s = .next s) ∧
    (table < 1024 → (es.map (·.1)).Nodup → ∃ s', exec (.routeTableRebuild table es) s = .next s' ∧ SameMemory s s' ∧ TeamsKept s s' ∧
      s'.reqs = s.reqs ∧ (∀ k, k / 4096 ≠ table → ngetD 0 s'.routes k = ngetD 0 s.routes k) ∧
      ∀ n < 4096, ngetD 0 s'.routes (4096 * table + n) = ngetD 0 es n &&& 0x801F)) ∧
  (∀ (s : State) (ctx : Nat),
    (∀ tab n e,
      let good := (getCtx s ctx).st ≠ .free ∧ tab ≠ 0 ∧ tab % 512 = 0 ∧ n < 64 ∧ commState e < 3 ∧
        (commState e = 1 → 1 ≤ commRoute e ∧ commRoute e ≤ 1023)
      (good → ∃ s', exec (.communicatorRebuild ctx ⟨tab, n⟩ e) s = .next s' ∧ CommSet s s' ctx tab n e ∧ tab ∈ (getCtx s' ctx).commTabs ∧
        (getCtx s' ctx).colls = (getCtx s ctx).colls) ∧
      (¬good → exec (.communicatorRebuild ctx ⟨tab, n⟩ e) s = .next s)) ∧
    (let sets := fun x (i : BitVec 12) (w : BitVec 256) (p : State → Prop) => ∃ s', exec (.peerWindowWrite x i w) s = .next s' ∧ SameMemory s s' ∧ TeamsKept s s' ∧
       s'.reqs = s.reqs ∧ p s'
     (∀ i w, i.toNat < 16 → (getCtx s ctx).st ≠ .free → sets (.window ctx) i w fun s' =>
        ∀ j, ngetD 0 (getCtx s' ctx).windows j = if j = i.toNat then (w >>> 80) <<< 80 else ngetD 0 (getCtx s ctx).windows j) ∧
     (∀ i w base len ds wld, i.toNat < 64 → sets (.exportRange base len ds wld) i w fun s' =>
        ∀ j, nget s'.exports j = if j = i.toNat then (if len = 0 then none else some ⟨base, len, ds, wld⟩) else nget s.exports j) ∧
     ∀ i w, sets .group i w fun s' => ∀ j, ngetD 0 s'.groups j = if j = i.toNat then w.setWidth 33 else ngetD 0 s.groups j) ∧
    (∀ core va w, windowOf s ctx va = some w →
      let l := (winChip w, winRctx w, leasePage (va - winVbase w + winRbase w))
      (winMode w = 1 → reachable s 0 (winChip w) = true → ∃ s', exec (.leaseRequest core ctx va) s = .next s' ∧ l ∈ s'.leasesHeld ∧
        s'.leasesHeld.length ≤ s.leasesHeld.length + 1 ∧ s'.cores = s.cores ∧ s'.mem = s.mem) ∧
      (winMode w ≠ 1 ∨ reachable s 0 (winChip w) = false → exec (.leaseRequest core ctx va) s = .next s)) ∧
    (∀ chip page, (chip = s.deviceNumber.toNat → ∃ s', exec (.leaseRecall chip ctx page) s = .next s' ∧ s'.leasesHeld = s.leasesHeld ∧
        s'.cores = s.cores ∧ s'.mem = s.mem ∧ ∀ l, l ∈ s'.leasesGranted ↔ l ∈ s.leasesGranted ∧ ¬(l.2.1 = ctx ∧ l.2.2 = page)) ∧
      (chip ≠ s.deviceNumber.toNat → leaseBusy s chip ctx page = true → exec (.leaseRecall chip ctx page) s = .next s) ∧
      (chip ≠ s.deviceNumber.toNat → leaseBusy s chip ctx page = false → ∃ s', exec (.leaseRecall chip ctx page) s = .next s' ∧
        s'.cores = s.cores ∧ s'.mem = s.mem ∧ ∀ l, l ∈ s'.leasesHeld ↔ l ∈ s.leasesHeld ∧ l ≠ (chip, ctx, page)))) ∧
  (∀ (s : State) (chip : BitVec 12) (wld : Bool) (addr : Nat), s.ctl.mode = .running →
    let open_ := fun acc => ∃ e ∈ s.exports, e.2.base ≤ addr ∧ addr + peerLen acc ≤ e.2.base + e.2.len ∧ chip.toNat ∈ e.2.devices ∧ e.2.world = wld
    let out := fun acc => exec (.peerAccessAtTarget chip wld .direct addr acc) s
    let l := Loc.hbm addr
    (∀ bs, open_ (.store bs) → ∃ s', out (.store bs) = .next s' ∧ TeamsKept s s' ∧ Stored s s' l bs) ∧
    (∀ n, open_ (.load n) → ∃ s', out (.load n) = .next s' ∧ SameMemory s s' ∧ TeamsKept s s' ∧ s'.reqs = s.reqs) ∧
    (∀ z b cmp, open_ (.atom 0 z b cmp) → ∃ s', out (.atom 0 z b cmp) = .next s' ∧ TeamsKept s s' ∧
      Stored s s' l (leBytes (sizeBytes z) ((leNat (readLoc s l (sizeBytes z)) + b.toNat) % 2 ^ (8 * sizeBytes z)))) ∧
    (∀ f x tag, open_ (.exact f x tag) → ∃ s', out (.exact f x tag) = .next s' ∧ TeamsKept s s' ∧
      Stored s s' l (leBytes (accBytes f) (accAdd f (accFmt f) (leNat (readLoc s l (accBytes f))) (x.toNat % 2 ^ (accFmt f).width) tag.toNat))) ∧
    (∀ acc, ¬open_ acc → out acc = .next s) ∧
    (∀ bs, let own := exec (.peerAccessAtTarget chip wld (.own none) addr (.store bs)) s
      (chip = s.deviceNumber → own = .next s) ∧
      (chip ≠ s.deviceNumber → ∃ s', own = .next s' ∧ TeamsKept s s' ∧ Stored s s' (.remote chip.toNat 0 addr) bs)) ∧
    (∀ rctx acc, (getCtx s rctx).st = .free → exec (.peerAccessAtTarget chip wld (.leased rctx) addr acc) s = .next s ∧
      exec (.peerAccessAtTarget chip wld (.multicast rctx) addr acc) s = .next s) ∧
    (∀ rctx bs l h, (getCtx s rctx).st ≠ .free → Known l → tableAt s .device rctx wld true addr none = (.ok l, h) →
      (∃ s', exec (.peerAccessAtTarget chip wld (.leased rctx) addr (.store bs)) s = .next s' ∧ TeamsKept s s' ∧ Stored h s' l bs ∧
        (s.leasesGranted.length < 16384 → (chip.toNat, rctx, leasePage addr) ∈ s'.leasesGranted)) ∧
      ∃ s', exec (.peerAccessAtTarget chip wld (.multicast rctx) addr (.store bs)) s = .next s' ∧ TeamsKept s s' ∧ Stored h s' l bs)) ∧
  (∀ (s : State) (unit : Nat) (world : Bool),
    (kernelRuns s = true → ∀ u, exec (.worldReassignment u unit world) s = .next s) ∧
    (kernelRuns s = false → unit < 576 → (getCore s unit).world ≠ world → coreBusy s unit = false →
      ∃ s', exec (.worldReassignment .core unit world) s = .next s' ∧ s'.reqs = s.reqs ∧ (getCore s' unit).world = world ∧
        (getCore s' unit).bytes = [] ∧ (getCore s' unit).tags = [] ∧ (getCore s' unit).tlb = [] ∧
        (∀ e ∈ (getCore s unit).tlb, e.dirty = true → (ngetD 0 s'.mem (e.leafPa + 7)).getLsbD 5 = true) ∧
        ∀ c, c ≠ unit → getCore s' c = getCore s c) ∧
    (kernelRuns s = false → coreBusy s unit = true → exec (.worldReassignment .core unit world) s = .next s) ∧
    (kernelRuns s = false → unit < 256 → (getSlice s unit).world ≠ world → sliceBusy s unit = false →
      ∃ s', exec (.worldReassignment .slice unit world) s = .next s' ∧ SameMemory s s' ∧ TeamsKept s s' ∧ (getSlice s' unit).world = world ∧
        (getSlice s' unit).cache = [] ∧
        (∀ n, (getEntry s' unit n).st = .free ∧ ((getEntry s unit n).st ≠ .free → (getEntry s' unit n).spent = false)) ∧
        ∀ k, k ≠ unit → getSlice s' k = getSlice s k) ∧
    (kernelRuns s = false → ∀ base len, ∃ s', exec (.worldReassignment (.weights len) base world) s = .next s' ∧ SameMemory s s' ∧
      TeamsKept s s' ∧ s'.reqs = s.reqs ∧
      ∀ r, r ∈ s'.wsSecure ↔ (r ∈ s.wsSecure ∧ r ≠ (base, len)) ∨ (r = (base, len) ∧ world = true ∧ 0 < len ∧ base + len ≤ 2 ^ 31))) ∧
  (∀ (s : State) (i : BitVec 8) (e : BitVec 32),
    let held := ∃ x ∈ s.ctxs, x.2.st ≠ .free ∧ x.2.st ≠ .suspended ∧ x.2.slotN ≠ 0
    (held → exec (.classTableWrite i e) s = .next s) ∧
    (¬held → exec (.classTableWrite i e) s = .next { s with classTable := nsetD 0 s.classTable i.toNat (e &&& 0x9F0FFFFF) }))

/-- R17 to R19, R431, R448 to R455, R458 to R461: a fatal error stops issue and writes a dump once; starts, with the images and the HBM parameters
that they check; attestation while an index is left; the power cap in its range; the dump, staging and debug port; poison, and what consuming it
does; a Gait record at each tick; gating. The model's choices among this: a power cap outside the range is refused, and a reset request is a start
request (log entry 78); what the debug port reaches (log entry 45); Gait's settings change only while it is off, and which of its words are free
(log entry 39); the events of a start, the check of stored parameters, and what a failed start leaves (log entry 37); NEXTRA and the dump in safe
mode (log entry 38); the codes of the error log (log entry 41). -/
def Obligations.SystemEvents : Prop :=
  (∀ (s : State),
    let b := s.ctl.dumpBase
    let inside := (∀ e ∈ s.cores, e.1 < 576 ∧ (∀ t ∈ e.2.teams, t.1 < 48) ∧ ∀ g ∈ e.2.log, g.1 < 16) ∧ ∀ e ∈ s.ctxs, e.1 < 64
    let dumped := fun (s' : State) (cause die : Nat) => s'.ctl.mode = (if s.ctl.mode = .safeMode then .safeMode else .fatal) ∧
      s'.ctl.dumpSeq = s.ctl.dumpSeq + 1 ∧ s'.ctl.dumpBase = b ∧ readDump s' 60 = 0 ∧ readDump s' 61 = BitVec.ofNat 8 die ∧
      readDump s' 62 = BitVec.ofNat 8 cause ∧ readDump s' 63 = 0x80 ∧ s'.reqs = s.reqs ∧ s'.wstore = s.wstore ∧ s'.remote = s.remote ∧
      ∀ a, a < b ∨ (inside ∧ b + 2 ^ 26 ≤ a) → ngetD 0 s'.mem a = ngetD 0 s.mem a
    let idle := fun (s' : State) => (∀ c isl sl, (getISlot s' c isl).holder = some sl → getTeam s' c sl = none) ∧ TeamsKept s s'
    let counted := fun (s' : State) => s'.ctl.mode = .fatal ∧ s'.ctl.dumpSeq = s.ctl.dumpSeq ∧
      readDump s' 60 = BitVec.ofNat 8 (min 255 ((readDump s 60).toNat + 1)) ∧ ∀ a, a ≠ b + 60 → ngetD 0 s'.mem a = ngetD 0 s.mem a
    (s.ctl.mode ≠ .fatal →
      (∀ die < 256, ∃ s', exec (.dieLinkFailure die) s = .next s' ∧ dumped s' 2 die ∧ idle s') ∧
      (∀ die < 256, ∃ s', exec (.thermalTrip die) s = .next s' ∧ dumped s' 1 die ∧ s'.cores = [] ∧ s'.ctl.nextCold = true) ∧
      (∃ s', exec .firmwareCheckFailure s = .next s' ∧ dumped s' 4 0xFF ∧ idle s')) ∧
    (s.ctl.mode = .fatal →
      (∀ die, ∃ s', exec (.dieLinkFailure die) s = .next s' ∧ counted s' ∧ s'.cores = s.cores) ∧
      (∀ die, ∃ s', exec (.thermalTrip die) s = .next s' ∧ counted s' ∧ s'.cores = [] ∧ s'.ctl.nextCold = true) ∧
      (∃ s', exec .firmwareCheckFailure s = .next s' ∧ counted s' ∧ s'.cores = s.cores))) ∧
  (∀ (s : State) (dev : BitVec 12),
    let tells := fun (o : Host.Outcome State Fault Refusal) (a : Answer) => o = .next { s with ctl := { s.ctl with reply := a } }
    let begins := fun (o : Host.Outcome State Fault Refusal) warm =>
      o = .next { s with ctl := { s.ctl with mode := .starting warm 1, reply := .ok } }
    ∀ x ∈ [StartEv.request, .reset],
      (inStart s = true → tells (exec (.coldStart x dev) s) .busy ∧ tells (exec (.warmStart x dev) s) .busy) ∧
      (inStart s = false → begins (exec (.coldStart x dev) s) false ∧
        (s.ctl.mode = .safeMode → tells (exec (.warmStart x dev) s) .refused) ∧
        (s.ctl.mode ≠ .safeMode → begins (exec (.warmStart x dev) s) !s.ctl.nextCold))) ∧
  (∀ (s : State) (warm ok : Bool) (dev : BitVec 12) (region k : Nat),
    let out := if warm then exec (.warmStart (.done ok region) dev) s else exec (.coldStart (.done ok region) dev) s
    let fails := ∃ s', out = .next s' ∧ s'.mem = s.mem ∧ s'.ctl.reply = .refused ∧
      (warm = true → s'.ctl.mode = .notStarted ∧ s'.ctl.warmFails = s.ctl.warmFails + 1 ∧ (s'.ctl.nextCold = true ↔ 1 ≤ s.ctl.warmFails)) ∧
      (warm = false → s'.ctl.mode = .safeMode ∧ s'.cores = [])
    let goes := fun (p : State → Prop) => ∃ s', out = .next s' ∧ s'.ctl.mode = .starting warm (k + 1) ∧ p s'
    let same := fun (s' : State) => SameMemory s s' ∧ TeamsKept s s'
    let measures := fun (s' : State) (kinds : List Nat) => ∀ j, nget s'.ctl.measured j =
      if j ∈ kinds then (nget s.ctl.images j).map fun x => BitVec.ofNat 256 (leNat (shake256 x.file.bytes)) else nget s.ctl.measured j
    ((∀ j, s.ctl.mode ≠ .starting warm j) → out = .next s) ∧
    (s.ctl.mode = .starting warm k → ok = false → fails) ∧
    (s.ctl.mode = .starting warm k → ok = true →
      (k = 1 → goes fun s' => s'.deviceNumber = dev ∧ same s') ∧
      (k = 2 → (imagePasses s 0 = true → goes fun s' => measures s' [0] ∧ same s') ∧ (imagePasses s 0 = false → fails)) ∧
      (k = 3 → ((∀ j, 1 ≤ j → j ≤ 4 → imagePasses s j = true) → goes fun s' => measures s' [1, 2, 3, 4] ∧ same s') ∧
        ((∃ j, 1 ≤ j ∧ j ≤ 4 ∧ imagePasses s j = false) → fails)) ∧
      (k = 4 →
        (warm = true → s.ctl.params.signed = s.ctl.params.bytes → s.ctl.params.index < 2 ^ 20 → goes same) ∧
        (warm = true → s.ctl.params.signed ≠ s.ctl.params.bytes ∨ 2 ^ 20 ≤ s.ctl.params.index → fails) ∧
        (warm = false → s.ctl.attIndex < 2 ^ 20 → goes fun s' => same s' ∧ s'.ctl.attIndex = s.ctl.attIndex + 1 ∧
          s'.ctl.trained = s.ctl.trained + 1 ∧ s'.ctl.params.index = s.ctl.attIndex ∧ s'.ctl.params.signed = s'.ctl.params.bytes) ∧
        (warm = false → 2 ^ 20 ≤ s.ctl.attIndex → fails)) ∧
      (k = 5 → goes fun s' => s'.mem = s.mem ∧ s'.cores = s.cores ∧
        ∀ a, ngetD 0 s'.wstore a = if warm = true ∧ inRanges s.wsSecure a = false then ngetD 0 s.wstore a else 0) ∧
      (k = 6 → goes fun s' => s'.wstore = s.wstore ∧ s'.cores = s.cores ∧
        ∀ a, (warm = true → ngetD 0 s'.mem a = if secureHbm s a then 0 else ngetD 0 s.mem a) ∧
          (warm = false → ngetD 0 s'.mem a =
            if dumpValid s = true ∧ s.ctl.dumpBase ≤ a ∧ a < s.ctl.dumpBase + 2 ^ 26 then ngetD 0 s.mem a else 0)) ∧
      (k = 7 → goes fun s' => s'.downPorts = [] ∧ same s') ∧
      (k = 8 → ∃ s', out = .next s' ∧ s'.ctl.mode = .running ∧ s'.ctl.warmFails = 0 ∧ s'.ctl.nextCold = false ∧
        s'.ctl.reply = .data (leBytes 2 s.deviceNumber.toNat) ∧ s'.deviceNumber = s.deviceNumber ∧ s'.mem = s.mem ∧ s'.seqSlots = [] ∧
        (∀ x, (getCtx s' x).st = .free) ∧ s'.ctl.attIndex = s.ctl.attIndex ∧ s'.ctl.rollback = s.ctl.rollback ∧ s'.ctl.params = s.ctl.params ∧
        (warm = true → s'.exports = s.exports ∧ s'.classTable = s.classTable ∧ s'.wstore = s.wstore) ∧
        (warm = false → s'.cores = [] ∧ s'.ctxs = [] ∧ s'.reqs = [] ∧ s'.slices = [] ∧ s'.exports = [] ∧ s'.downPorts = [] ∧
          s'.wstore = [] ∧ s'.powerCap = 3400)))) ∧
  (∀ (s : State),
    let tells := fun (o : Host.Outcome State Fault Refusal) (a : Answer) => o = .next { s with ctl := { s.ctl with reply := a } }
    (∀ nonce,
      (s.ctl.mode = .safeMode ∨ inStart s = true → tells (exec (.attestationRequest nonce) s) .busy) ∧
      (s.ctl.mode ≠ .safeMode → inStart s = false → 2 ^ 20 ≤ s.ctl.attIndex → tells (exec (.attestationRequest nonce) s) .exhausted) ∧
      (s.ctl.mode ≠ .safeMode → inStart s = false → s.ctl.attIndex < 2 ^ 20 → nonce.length = 32 →
        ∃ s' a c, exec (.attestationRequest nonce) s = .next s' ∧
          s'.ctl.attIndex = s.ctl.attIndex + 1 ∧ SameMemory s s' ∧ TeamsKept s s' ∧ a.length = 256 ∧ c.length = 2816 ∧
          s'.ctl.reply = .data (nonce ++ a ++ leBytes 4 s.ctl.attIndex ++ List.replicate 220 0 ++ (leBytes 4 s.ctl.attIndex).reverse ++ c))) ∧
    (∀ w, (1800 ≤ w ∧ w ≤ 3400 → ∃ s', exec (.powerCapSet w) s = .next s' ∧ s'.powerCap = w ∧ s'.cores = s.cores ∧ s'.mem = s.mem) ∧
      (w < 1800 ∨ 3400 < w → tells (exec (.powerCapSet w) s) .refused)) ∧
    (∀ a n, (a + n ≤ 2 ^ 26 → tells (exec (.dumpRead (.dump a) n) s) (.data ((List.range n).map fun i => readDump s (a + i)))) ∧
      (2 ^ 26 < a + n → tells (exec (.dumpRead (.dump a) n) s) .refused)) ∧
    (∀ n, tells (exec (.dumpRead .region n) s) (.data (leBytes 8 s.ctl.dumpBase)) ∧
      tells (exec (.dumpRead .device n) s) (.data (leBytes 2 s.deviceNumber.toNat)) ∧
      tells (exec (.dumpRead .powerCap n) s) (.data (leBytes 2 s.powerCap)) ∧
      (∀ die, 4 ≤ die → tells (exec (.dumpRead (.temperature die) n) s) .refused) ∧
      ∀ x, x = SideRead.power ∨ (∃ die < 4, x = .temperature die) → ∃ s' b, exec (.dumpRead x n) s = .next s' ∧ b.length = 2 ∧
        s'.ctl.reply = .data b ∧ SameMemory s s' ∧ TeamsKept s s' ∧ s'.reqs = s.reqs) ∧
    (∃ s', exec .valid s = .next s' ∧ (readDump s' 63).getLsbD 7 = false ∧ s'.ctl.mode = s.ctl.mode ∧ s'.cores = s.cores ∧
      ∀ a, a ≠ s.ctl.dumpBase + 63 → ngetD 0 s'.mem a = ngetD 0 s.mem a) ∧
    (∀ kind version x,
      let taken := kind < 5 ∧ imageSigned kind x = true
      (¬taken → tells (exec (.firmwareStaging kind version x) s) .refused) ∧
      (taken → ∃ s', exec (.firmwareStaging kind version x) s = .next s' ∧ nget s'.ctl.images kind = some ⟨version, x⟩ ∧ s'.ctl.rollback = s.ctl.rollback ∧
        SameMemory s s' ∧ TeamsKept s s')) ∧
    exec (.debugPortAccess .boundaryScan) s = .next s ∧
    (∀ on, tells (exec (.debugPortAccess (.unlock false on)) s) .refused ∧ ∃ s', exec (.debugPortAccess (.unlock true on)) s = .next s' ∧
      s'.ctl.debugUnlocked = on ∧ SameMemory s s' ∧ TeamsKept s s') ∧
    (∀ core byte, core < 576 → byte < 2 ^ 20 →
      let open_ := s.ctl.debugUnlocked = true ∨ (s.ctl.debugFuse = true ∧ (getCore s core).world = false)
      (open_ → tells (exec (.debugPortAccess (.read core byte)) s) (.data [ngetD 0 (getCore s core).bytes byte]) ∧
        ∀ x, ∃ s', exec (.debugPortAccess (.write core byte x)) s = .next s' ∧ TeamsKept s s' ∧ Stored s s' (.scratch core byte) [x]) ∧
      (¬open_ → tells (exec (.debugPortAccess (.read core byte)) s) .refused ∧
        ∀ x, tells (exec (.debugPortAccess (.write core byte x)) s) .refused) ∧
      ∀ sl t n lane, getTeam s core sl = some t → n < 256 →
        tells (exec (.debugPortAccess (.readReg core sl n lane)) s)
          (if s.ctl.debugUnlocked = true ∨ (s.ctl.debugFuse = true ∧ (getCore s core).world = false)
           then .data (leBytes 4 (getV t n lane).val.toNat) else .refused)) ∧
    (∀ l, ∃ s', exec (.uncorrectableError (.line l)) s = .next s' ∧ lineOf l ∈ s'.poison ∧ s'.ctl.log = s.ctl.log ++ [3] ∧
      SameMemory s s' ∧ TeamsKept s s') ∧
    (∀ l, ∃ s', exec (.uncorrectableError (.lineScrub l)) s = .next s' ∧ lineOf l ∈ s'.poison ∧ s'.ctl.log = s.ctl.log ++ [1] ∧
      SameMemory s s' ∧ TeamsKept s s') ∧
    (∀ core slot reg lane t, getTeam s core slot = some t → (∃ q ∈ (getCtx s t.ctx).launches, q.seq = t.seq) →
      ∃ s', exec (.uncorrectableError (.register core slot reg lane)) s = .next s' ∧ (getLaunch s' t.ctx t.seq).poisoned = true ∧
        s'.ctl.log = s.ctl.log ++ [4] ∧ SameMemory s s' ∧ TeamsKept s s') ∧
    (∀ core slot reg lane, getTeam s core slot = none → exec (.uncorrectableError (.register core slot reg lane)) s =
      .next { s with ctl := { s.ctl with log := s.ctl.log ++ [2] } }) ∧
    (∀ ctx seq, (∃ q ∈ (getCtx s ctx).launches, q.seq = seq) →
      let q := getLaunch s ctx seq
      (q.poisoned = false ∨ q.st ≠ .started ∨ s.ctl.mode ≠ .running → exec (.poisonConsumed ctx seq) s = .next s) ∧
      (q.poisoned = true → q.st = .started → s.ctl.mode = .running →
        (q.replayable = false ∨ 3 ≤ q.poisonCount → ∃ s', exec (.poisonConsumed ctx seq) s = .next s' ∧ s'.ctl.mode = .fatal ∧
          readDump s' 62 = 3) ∧
        (q.replayable = true → q.poisonCount < 3 → (∀ r ∈ s.reqs, ¬(r.ctx = ctx ∧ r.seq = seq ∧ r.write = true)) →
          ∃ s', exec (.poisonConsumed ctx seq) s = .next s' ∧ SameMemory s s' ∧ (getLaunch s' ctx seq).poisoned = false ∧
            (getLaunch s' ctx seq).poisonCount = q.poisonCount + 1 ∧ (getLaunch s' ctx seq).st = .started ∧
            (getLaunch s' ctx seq).left = unitCount q ∧ (∀ c sl u, getTeam s' c sl = some u → ¬(u.ctx = ctx ∧ u.seq = seq)) ∧
            ∀ c sl t, getTeam s c sl = some t → ¬(t.ctx = ctx ∧ t.seq = seq) → getTeam s' c sl = some t))) ∧
    (∀ g, g = s.gait →
      (∀ k m ring i w,
        (g.on = false → 10 ≤ k → k ≤ 24 → 4 ≤ m → m ≤ 16 → exec (.peerWindowWrite (.gait (.set k m ring)) i w) s =
          .next { s with gait := { g with k := k, m := m, ring := ring, written := 0, head := 0 } }) ∧
        (g.on = true ∨ k < 10 ∨ 24 < k ∨ m < 4 ∨ 16 < m → exec (.peerWindowWrite (.gait (.set k m ring)) i w) s = .next s)) ∧
      (∀ on i w, ∃ s', exec (.peerWindowWrite (.gait (.write on)) i w) s = .next s' ∧ s'.gait.on = on ∧ (on = true → s'.gait.frozen = false) ∧
        s' = { s with gait := s'.gait }) ∧
      (∀ n i w, exec (.peerWindowWrite (.gait (.taken n)) i w) s = .next { s with gait := { g with head := min g.written (g.head + n) } }) ∧
      (s.clock % 2 ^ g.k ≠ 0 ∨ g.frozen = true → exec .gaitTick s = .next s) ∧
      (s.clock % 2 ^ g.k = 0 → g.frozen = false → ∃ s', exec .gaitTick s = .next s' ∧ s'.clock = s.clock + 1 ∧ s'.gait.counters = [] ∧ s'.gait.trig = 0 ∧ s'.cores = s.cores ∧
        (g.on = false → g.trig = 0 → s'.mem = s.mem ∧ s'.gait.written = g.written) ∧
        (g.on = true → g.trig = 0 → g.written < g.head + 2 ^ g.m → g.head ≤ g.written → s'.gait.on = true ∧ s'.gait.written = g.written + 1 ∧
          (∀ a, ¬(g.ring + 0x10000 * (g.written % 2 ^ g.m) ≤ a ∧ a < g.ring + 0x10000 * (g.written % 2 ^ g.m) + 53632) →
            ngetD 0 s'.mem a = ngetD 0 s.mem a) ∧
          ∀ b < 837, ∀ i < 16, timingWord (16 * b + i) = false → leNat (getBytes s'.mem (g.ring + 0x10000 * (g.written % 2 ^ g.m) + 64 + 64 * b + 4 * i) 4) =
            min (ngetD 0 g.counters (16 * b + i)) (2 ^ 32 - 1)) ∧
        (g.on = true → g.trig = 0 → g.head + 2 ^ g.m ≤ g.written → s'.mem = s.mem ∧ s'.gait.drop = g.drop + 1))) ∧
    ∀ on, exec (.issueGating on) s = .next { s with gated := on })

/-! ### Encoding, stepping, reset, memory -/

/-- R64, R65, R72 to R77, R80 to R88: words written out field by field decode to the instructions that they stand for, the worked word of R78's
example among them. -/
def Obligations.DecodeWords : Prop :=
  let hd : Head := ⟨false, 7, false, false, false⟩
  let no : Src := ⟨.v 0, false, false⟩
  let reads := fun (w : Nat) (i : Instr) => decode (bytesOfWord w) = .ok (i, [])
  decode [0x02, 0xA0, 0x0C, 0x20, 0x80, 0x01, 0x10, 0x00, 0x00, 0x00, 0x00, 0x40] = .ok (.ffma ⟨⟨false, 2, true, false, false⟩, .v 8,
    ⟨.v 2, false, false⟩, ⟨.v 3, false, false⟩, ⟨.v 8, false, false⟩, 0, .slot, .none, 0, 0⟩, []) ∧
  reads 0b00000000_101100_0_111_0_0_0_000_00_00110000_0_01_00010111_0_0_00_00000010_0_0_10_00100101_0_000_000_000_000000_000_00000000
    (.bfi .w32 ⟨hd, .v 48, ⟨.s 23, false, false⟩, ⟨.v 2, false, false⟩, ⟨.c 5, false, false⟩, 0, .slot, .none, 0, 0⟩) ∧
  reads 0b00010000_010010_0_111_0_0_0_000_10_00000001_0_00_00001001_1_0_01_00000011_0_0_00_00000000_0_000_000_000_000000_000_00000000
    (.icmp .lt true .w32 ⟨hd, .p 1, ⟨.v 9, false, true⟩, ⟨.s 3, false, false⟩, no, 0, .slot, .none, 0, 0⟩) ∧
  reads 0b01000000_000000_0_111_0_0_0_000_00_00000000_0_00_00000000_0_0_00_00000000_0_11111111111111111111111111111111111111
    (.bra ⟨hd, .v 0, 274877906943⟩) ∧
  reads 0b01010000_000000_0_111_0_0_0_000_00_00000001_0_00_00000010_0_0_00_00000000_0_0_00_00000000_0_000_000_100_010000_000_00000000
    (.lshf ⟨hd, .v 1, ⟨.v 2, false, false⟩, no, no, 0, .slot, .xr, 16, 0⟩) ∧
  reads 0b01100000_000000_0_111_0_0_0_000_00_00000100_0_00_00000001_0_0_00_00000000_0_0001_010_10_010_010_01_111111111111111111101
    (.ld ⟨hd, .v 4, ⟨.v 1, false, false⟩, no, 1, .cluster, .acq, .b32, 2, 1, 2097149⟩) ∧
  reads 0b01110000_000000_0_111_0_0_0_000_00_00000000_0_00_00000000_0_0_01_00000011_0_0000_011_1_0_000_000111_00000000000001000000
    (.cpy ⟨hd, .v 0, no, ⟨.s 3, false, false⟩, .die, true, false, 0, 7, 64⟩) ∧
  reads 0b10001000_000010_0_111_0_0_0_000_00_00000001_0_00_00000010_0_0_00_00000011_0_0_00_00000000_0_000_000_000_000000_000_00000000
    (.seqcf ⟨hd, .v 1, ⟨.v 2, false, false⟩, ⟨.v 3, false, false⟩, no, 0, .slot, .none, 0, 0⟩) ∧
  reads 0b10010000_000000_0_111_0_0_0_000_00_00000000_0_00_00000001_0_0_00_00000110_0_0101_000_00_010_000_00_000000000000000000000
    (.mst ⟨hd, .v 0, ⟨.v 1, false, false⟩, ⟨.v 6, false, false⟩, 5, .team, .weak, .b32, 0, 0, 0⟩) ∧
  reads 0b11110000_000001_0_111_0_0_0_000_00_00000000_0_01_00000100_0_0_00_00000000_0_0000_000_0_0_000_000000_00000000000000111111
    (.tlbinvPage ⟨hd, .v 0, ⟨.s 4, false, false⟩, no, .team, false, false, 0, 0, 63⟩) ∧
  reads 0b11110000_000010_0_111_0_0_0_000_01_00000001_0_01_00001000_0_0_00_00000000_0_000000_00000000000000000000000000000010
    (.dbgbrkStep ⟨hd, .s 1, ⟨.s 8, false, false⟩, 0, 2⟩)

/-- R64 to R88: decoding is the inverse of encoding on every well-formed instruction, with every operand at every value that its field admits: the
word fits 96 bits, and its 12 bytes decode to the instruction, whatever follows them. -/
def Obligations.DecodeEncode : Prop :=
  ∀ (i : Instr) (rest : List Byte), i.wf = true → parts i ≠ none →
    ∃ w, encode i = some w ∧ w < 2 ^ 96 ∧ (bytesOfWord w).length = 12 ∧ decode (bytesOfWord w ++ rest) = .ok (i, rest)

/-- R29, R89, R90, R156, R164, R359: a step of a running machine whose turn's team can issue runs the instruction that the 12 bytes at its issue
address decode to; each is of a version that its line has had since the launch; a word that is no instruction, or lies beyond the code extent,
takes trap IL, one of the other world WORLD; an unmapped one is waited for. An event is executed as its row says while the machine serves it. That
an unmapped fetch waits, and that one of the other world raises WORLD at its instruction, are the model's choices (log entry 6). -/
def Obligations.StepRunsDecoded : Prop :=
  (∀ (s : State) clk i rest, s.agenda = (clk, .event i) :: rest →
    let s1 := { s with agenda := rest, clock := max s.clock clk }
    (serves s1 i = true → step s = exec i s1) ∧ (serves s1 i = false → step s = .next s1)) ∧
  ∀ (s s1 : State), s.ctl.mode = .running →
    (s.agenda = [] ∧ s1 = s) ∨ (∃ clk c isl rest, s.agenda = (clk, .issue c isl) :: rest ∧
      s1 = { s with agenda := rest, clock := max s.clock clk, turn := (c, isl) }) →
    (curTeam s1 = none → step s = .next s1) ∧
    ∀ (c sl : Nat) (t : Team), curTeam s1 = some (c, sl, t) → t.halted = false → t.hold = none → t.trap = none → t.live ≠ 0 → atStop t = false →
      let q := getLaunch s1 t.ctx t.seq
      let pc := (issueAddr t).toNat
      let il := trapAt 1 (issueAddr t) (executing t)
      (recCodeExt q.words ≤ pc → step s = .next (raiseTrap s1 c sl t il)) ∧
      (pc < recCodeExt q.words →
        (codeOf s1 c t pc = .wait → ∃ s' u, step s = .next s' ∧ getTeam s' c sl = some u ∧ SameTeam t u ∧ SameMemory s1 s' ∧
          SameUnits s1 s' ∧ SameOthers s1 s' c sl) ∧
        (codeOf s1 c t pc = .world → step s = .next (raiseTrap s1 c sl t (trapAt 13 (issueAddr t) (executing t)))) ∧
        ∀ ls, codeOf s1 c t pc = .at_ ls →
          let bs := obtained s1 q ls
          let w := wordOfBytes bs
          let s2 := if settled s1 q ls then s1 else { s1 with freshCount := s1.freshCount + 2 }
          bs.length = 12 ∧ (∀ k < 12, nth 0 bs k ∈ codeVersions s1 q (nth default ls k)) ∧
          ((∀ e ∈ s1.past.take (s1.past.length - q.begun), ∀ l ∈ ls, e.1 ≠ lineOf l) → ∀ k < 12, readLoc s1 (nth default ls k) 1 = [nth 0 bs k]) ∧
          (∀ i rest, decode bs = .ok (i, rest) → step s = exec i (setTeam s2 c sl { t with word := BitVec.ofNat 96 w })) ∧
          (∀ e, decode bs = .error e →
            step s = .next (raiseTrap s2 c sl t { il with rgn := w.testBit 76 && !t.closed })))

/-- The memories keep their canonical form (addresses rising, no byte equal to what an unlisted address reads as) over every step, whatever it
executes: so equal memories are equal data. The form is the model's own. -/
def Obligations.MemoryCanonical : Prop :=
  ∀ s s' : State, Canonical s → step s = .next s' → Canonical s'

/-- R17, R204, R347, R451: after a cold start every byte of memory, of the weight store and of every scratchpad reads 0, every scratchpad tag is
63 and every line full, every context, ticket entry and sequence slot is FREE, no team is resident, no TLB entry is held, the Drovers' last
context is 63 and the power cap is 3,400 W; the memories have their canonical form. That bytes at other endpoints read 0 (log entry 3), that no
line is poisoned and no TLB entry is held (log entry 4), and what a scratchpad holds that no share has been given (log entry 5) are the model's
choices. -/
def Obligations.ResetState : Prop :=
  let s := State.reset
  s.ctl.mode = .running ∧ (∀ l, Known l → readLoc s l 1 = [0]) ∧ (∀ c w, tagAt s c w = 63) ∧ (∀ c n, lineFull s c n = true) ∧
  (∀ x, (getCtx s x).st = .free) ∧ (∀ k e, (getEntry s k e).st = .free) ∧ (∀ n, (getSeq s n).st = .free) ∧ (∀ c sl, getTeam s c sl = none) ∧
  allTlbs s = [] ∧ s.reqs = [] ∧ s.poison = [] ∧ (∀ die, ngetD 63 s.drovers die = 63) ∧ s.powerCap = 3400 ∧ Canonical s

end
end

