-- ==== Sys2Proof/Laws/Maps.lean ====
section
/-! SUPPORT. Laws of the sparse maps, of masks and of byte order: what is read after a write, and the canonical form. -/

namespace Sys2Proof.Laws

open Sys2Proof.Machine

/-! ### Sparse maps -/

variable {α : Type}

@[simp] theorem nget_nset_same (m : NMap α) (k : Nat) (x : α) : nget (nset m k x) k = some x := by
  induction m with
  | nil => simp [nset, nget]
  | cons e rest ih =>
    obtain ⟨k', y⟩ := e
    simp only [nset]
    split
    · simp [nget]
    · split
      · simp [nget]
      · rename_i h
        simp [nget, h, ih]

theorem nget_nset_other (m : NMap α) {k j : Nat} (x : α) (h : j ≠ k) : nget (nset m k x) j = nget m j := by
  induction m with
  | nil => simp [nset, nget, Ne.symm h]
  | cons e rest ih =>
    obtain ⟨k', y⟩ := e
    simp only [nset]
    split
    · simp [nget, Ne.symm h]
    · split
      · rename_i e
        subst e
        simp [nget, Ne.symm h]
      · simp [nget, ih]

theorem nget_nset (m : NMap α) (k j : Nat) (x : α) : nget (nset m k x) j = if j = k then some x else nget m j := by
  by_cases h : j = k
  · subst h; simp
  · simp [h, nget_nset_other]

theorem nget_ndel (m : NMap α) (k j : Nat) : nget (ndel m k) j = if j = k then none else nget m j := by
  induction m with
  | nil => simp [ndel, nget]
  | cons e rest ih =>
    obtain ⟨k', y⟩ := e
    simp only [ndel]
    split
    · rename_i e
      subst e
      rw [ih]
      by_cases h : j = k'
      · simp [h]
      · simp [h, nget, Ne.symm h]
    · rename_i e
      by_cases h : k' = j
      · subst h; simp [nget, e]
      · simp [nget, h, ih]

theorem ngetD_nset (d : α) (m : NMap α) (k j : Nat) (x : α) :
    ngetD d (nset m k x) j = if j = k then x else ngetD d m j := by
  unfold ngetD
  rw [nget_nset]
  split <;> rfl

theorem ngetD_nsetD [DecidableEq α] (d : α) (m : NMap α) (k j : Nat) (x : α) :
    ngetD d (nsetD d m k x) j = if j = k then x else ngetD d m j := by
  unfold nsetD
  split
  · rename_i e
    subst e
    unfold ngetD
    rw [nget_ndel]
    split <;> rfl
  · exact ngetD_nset d m k j x

theorem nwf_weaken [DecidableEq α] {d : α} {lo lo' : Nat} {m : NMap α} (h : nwfFrom d lo m = true) (h' : lo' ≤ lo) :
    nwfFrom d lo' m = true := by
  cases m with
  | nil => rfl
  | cons e rest =>
    obtain ⟨k, x⟩ := e
    simp only [nwfFrom, Bool.and_eq_true, decide_eq_true_eq] at h ⊢
    exact ⟨⟨h'.trans h.1.1, h.1.2⟩, h.2⟩

theorem nwf_nset [DecidableEq α] {d : α} {lo : Nat} {m : NMap α} {k : Nat} {x : α} (h : nwfFrom d lo m = true)
    (hk : lo ≤ k) (hx : x ≠ d) : nwfFrom d lo (nset m k x) = true := by
  induction m generalizing lo with
  | nil => simp [nset, nwfFrom, hk, hx]
  | cons e rest ih =>
    obtain ⟨k', y⟩ := e
    simp only [nwfFrom, Bool.and_eq_true, decide_eq_true_eq] at h
    simp only [nset]
    split
    · rename_i lt
      simp only [nwfFrom, Bool.and_eq_true, decide_eq_true_eq]
      exact ⟨⟨hk, hx⟩, ⟨⟨lt, h.1.2⟩, h.2⟩⟩
    · split
      · simp only [nwfFrom, Bool.and_eq_true, decide_eq_true_eq]
        rename_i e
        subst e
        exact ⟨⟨hk, hx⟩, h.2⟩
      · simp only [nwfFrom, Bool.and_eq_true, decide_eq_true_eq]
        exact ⟨h.1, ih h.2 (by omega)⟩

theorem nwf_ndel [DecidableEq α] {d : α} {lo : Nat} {m : NMap α} {k : Nat} (h : nwfFrom d lo m = true) :
    nwfFrom d lo (ndel m k) = true := by
  induction m generalizing lo with
  | nil => rfl
  | cons e rest ih =>
    obtain ⟨k', y⟩ := e
    simp only [nwfFrom, Bool.and_eq_true, decide_eq_true_eq] at h
    simp only [ndel]
    split
    · exact nwf_weaken (ih h.2) (by omega)
    · simp only [nwfFrom, Bool.and_eq_true, decide_eq_true_eq]
      exact ⟨h.1, ih h.2⟩

theorem nwf_nsetD [DecidableEq α] {d : α} {lo : Nat} {m : NMap α} {k : Nat} {x : α} (h : nwfFrom d lo m = true)
    (hk : lo ≤ k) : nwfFrom d lo (nsetD d m k x) = true := by
  unfold nsetD
  split
  · exact nwf_ndel h
  · rename_i hx
    exact nwf_nset h hk hx

/-! ### Bytes -/

theorem ngetD_putBytes (bs : List Byte) (m : NMap Byte) (a j : Nat) :
    ngetD 0 (putBytes m a bs) j = if a ≤ j ∧ j < a + bs.length then bs.getD (j - a) 0 else ngetD 0 m j := by
  induction bs generalizing m a with
  | nil =>
    have : ¬ (a ≤ j ∧ j < a + ([] : List Byte).length) := by simp only [List.length_nil]; omega
    simp only [putBytes, this, if_false]
  | cons b rest ih =>
    simp only [putBytes, ih, ngetD_nsetD, List.length_cons]
    by_cases h1 : j = a
    · subst h1
      simp
    · by_cases h2 : a + 1 ≤ j ∧ j < a + 1 + rest.length
      · have h3 : a ≤ j ∧ j < a + (rest.length + 1) := by omega
        have h4 : j - a = (j - (a + 1)) + 1 := by omega
        simp [h2, h3, h4]
      · have h3 : ¬ (a ≤ j ∧ j < a + (rest.length + 1)) := by omega
        rw [if_neg h2, if_neg h1, if_neg h3]

/-- A store leaves every other byte as it was. -/
theorem ngetD_putBytes_outside {bs : List Byte} {m : NMap Byte} {a j : Nat} (h : j < a ∨ a + bs.length ≤ j) :
    ngetD 0 (putBytes m a bs) j = ngetD 0 m j := by
  rw [ngetD_putBytes, if_neg (by omega)]

/-- A load of the bytes just stored. -/
theorem getBytes_putBytes_same (bs : List Byte) (m : NMap Byte) (a : Nat) : getBytes (putBytes m a bs) a bs.length = bs := by
  apply List.ext_getElem
  · simp [getBytes]
  · intro i h1 h2
    simp only [getBytes, List.getElem_map, List.getElem_range]
    rw [ngetD_putBytes, if_pos ⟨by omega, by omega⟩]
    simp [h2]

/-- A load of bytes that a store does not meet. -/
theorem getBytes_putBytes_outside {bs : List Byte} {m : NMap Byte} {a j n : Nat} (h : j + n ≤ a ∨ a + bs.length ≤ j) :
    getBytes (putBytes m a bs) j n = getBytes m j n := by
  apply List.map_congr_left
  intro i hi
  have := List.mem_range.mp hi
  exact ngetD_putBytes_outside (by omega)

theorem memWf_nsetD {m : NMap Byte} (h : memWf m = true) (k : Nat) (x : Byte) : memWf (nsetD 0 m k x) = true :=
  nwf_nsetD h (Nat.zero_le k)

/-- Every store keeps the canonical form of memory. -/
theorem memWf_putBytes {m : NMap Byte} (h : memWf m = true) (a : Nat) (bs : List Byte) : memWf (putBytes m a bs) = true := by
  induction bs generalizing m a with
  | nil => exact h
  | cons b rest ih => exact ih (memWf_nsetD h a b) (a + 1)

@[simp] theorem length_leBytes (n x : Nat) : (leBytes n x).length = n := by
  induction n generalizing x with
  | zero => rfl
  | succ n ih => simp [leBytes, ih]

theorem leNat_leBytes (n x : Nat) : leNat (leBytes n x) = x % 2 ^ (8 * n) := by
  induction n generalizing x with
  | zero => simp [leBytes, leNat, Nat.mod_one]
  | succ n ih =>
    have e : 2 ^ (8 * (n + 1)) = 256 * 2 ^ (8 * n) := by rw [Nat.mul_add, Nat.pow_add]; ring
    simp only [leBytes, leNat, ih, BitVec.toNat_ofNat]
    rw [e, Nat.mod_mul]

theorem leNat_lt (bs : List Byte) : leNat bs < 256 ^ bs.length := by
  induction bs with
  | nil => simp [leNat]
  | cons b rest ih =>
    simp only [leNat, List.length_cons, Nat.pow_succ]
    have := b.isLt
    omega

/-- A wide value read back from the bytes it was stored as. -/
theorem leNat_getBytes_putBytes (m : NMap Byte) (a n x : Nat) :
    leNat (getBytes (putBytes m a (leBytes n x)) a n) = x % 2 ^ (8 * n) := by
  have h := getBytes_putBytes_same (leBytes n x) m a
  rw [length_leBytes] at h
  rw [h, leNat_leBytes]

/-! ### Fields -/

/-- Values that fit widths. -/
def Fits : List Nat → List Nat → Prop
  | [], [] => True
  | w :: ws, v :: vs => v < 2 ^ w ∧ Fits ws vs
  | _, _ => False

/-- Packed fields that fit come back. -/
theorem unpackL_packL (ws vs : List Nat) (h : Fits ws vs) : unpackL ws (packL ws vs) = vs := by
  induction ws generalizing vs with
  | nil =>
    cases vs with
    | nil => rfl
    | cons v vs => exact absurd h (by simp [Fits])
  | cons w ws ih =>
    cases vs with
    | nil => exact absurd h (by simp [Fits])
    | cons v vs =>
      obtain ⟨hv, hr⟩ := h
      have hp : 0 < 2 ^ w := Nat.two_pow_pos w
      simp only [packL, unpackL, Nat.mod_eq_of_lt hv, Nat.add_mul_mod_self_left, List.cons.injEq, true_and]
      rw [Nat.add_mul_div_left _ _ hp, Nat.div_eq_of_lt hv, Nat.zero_add]
      exact ih vs hr

/-! ### Masks -/

theorem mem_lanes {l : Nat} : l ∈ lanes ↔ l < 32 := List.mem_range

theorem foldl_or_getLsbD (f : Nat → Bool) (ls : List Nat) (m : Mask) (i : Nat) (hi : i < 32) (hl : ∀ l ∈ ls, l < 32) :
    (ls.foldl (fun m l => if f l then m ||| (1#32 <<< l) else m) m).getLsbD i = (m.getLsbD i || (ls.contains i && f i)) := by
  induction ls generalizing m with
  | nil => simp
  | cons a rest ih =>
    have ha : a < 32 := hl a (by simp)
    simp only [List.foldl_cons]
    rw [ih _ (fun l h => hl l (by simp [h]))]
    by_cases e : i = a
    · subst e
      cases hf : f i <;> simp [hi]
    · have h1 : (1#32 <<< a).getLsbD i = false := by
        rw [BitVec.getLsbD_shiftLeft, BitVec.getLsbD_one]
        by_cases h : i < a
        · simp [h]
        · have : ¬ (i - a = 0) := by omega
          simp [this]
      have h2 : (a :: rest).contains i = rest.contains i := by simp [e]
      rw [h2]
      cases hf : f a
      · simp only [Bool.false_eq_true, if_false]
      · simp only [if_true, BitVec.getLsbD_or, h1, Bool.or_false]

@[simp] theorem inMask_maskOf (f : Nat → Bool) {l : Nat} (h : l < 32) : inMask (maskOf f) l = f l := by
  have := foldl_or_getLsbD f lanes 0 l h (fun l h => mem_lanes.mp h)
  unfold inMask maskOf
  rw [this]
  simp [mem_lanes.mpr h]

theorem mem_lanesOf {m : Mask} {l : Nat} : l ∈ lanesOf m ↔ l < 32 ∧ inMask m l = true := by
  simp [lanesOf, mem_lanes]

theorem lanesOf_nodup (m : Mask) : (lanesOf m).Nodup := List.Nodup.filter _ List.nodup_range

end Sys2Proof.Laws
end

