-- ==== Sys2Proof/Laws/State.lean ====
section
/-! SUPPORT. What each named update of the state leaves as it was: one lemma for each field and update, and what reads back
after a write of a core, team, context or issue slot. -/

namespace Sys2Proof.Laws

open Sys2Proof.Machine

/-! ### Updates of one field -/

@[simp] theorem setCore_clock (s : State) (c : Nat) (k : Core) : (setCore s c k).clock = s.clock := rfl
@[simp] theorem setCore_agenda (s : State) (c : Nat) (k : Core) : (setCore s c k).agenda = s.agenda := rfl
@[simp] theorem setCore_turn (s : State) (c : Nat) (k : Core) : (setCore s c k).turn = s.turn := rfl
@[simp] theorem setCore_freshCount (s : State) (c : Nat) (k : Core) : (setCore s c k).freshCount = s.freshCount := rfl
@[simp] theorem setCore_nextId (s : State) (c : Nat) (k : Core) : (setCore s c k).nextId = s.nextId := rfl
@[simp] theorem setCore_mem (s : State) (c : Nat) (k : Core) : (setCore s c k).mem = s.mem := rfl
@[simp] theorem setCore_wstore (s : State) (c : Nat) (k : Core) : (setCore s c k).wstore = s.wstore := rfl
@[simp] theorem setCore_wsSecure (s : State) (c : Nat) (k : Core) : (setCore s c k).wsSecure = s.wsSecure := rfl
@[simp] theorem setCore_remote (s : State) (c : Nat) (k : Core) : (setCore s c k).remote = s.remote := rfl
@[simp] theorem setCore_poison (s : State) (c : Nat) (k : Core) : (setCore s c k).poison = s.poison := rfl
@[simp] theorem setCore_relRecs (s : State) (c : Nat) (k : Core) : (setCore s c k).relRecs = s.relRecs := rfl
@[simp] theorem setCore_past (s : State) (c : Nat) (k : Core) : (setCore s c k).past = s.past := rfl
@[simp] theorem setCore_reqs (s : State) (c : Nat) (k : Core) : (setCore s c k).reqs = s.reqs := rfl
@[simp] theorem setCore_deviceTlb (s : State) (c : Nat) (k : Core) : (setCore s c k).deviceTlb = s.deviceTlb := rfl
@[simp] theorem setCore_slices (s : State) (c : Nat) (k : Core) : (setCore s c k).slices = s.slices := rfl
@[simp] theorem setCore_ctxs (s : State) (c : Nat) (k : Core) : (setCore s c k).ctxs = s.ctxs := rfl
@[simp] theorem setCore_routes (s : State) (c : Nat) (k : Core) : (setCore s c k).routes = s.routes := rfl
@[simp] theorem setCore_downPorts (s : State) (c : Nat) (k : Core) : (setCore s c k).downPorts = s.downPorts := rfl
@[simp] theorem setCore_exports (s : State) (c : Nat) (k : Core) : (setCore s c k).exports = s.exports := rfl
@[simp] theorem setCore_groups (s : State) (c : Nat) (k : Core) : (setCore s c k).groups = s.groups := rfl
@[simp] theorem setCore_leasesHeld (s : State) (c : Nat) (k : Core) : (setCore s c k).leasesHeld = s.leasesHeld := rfl
@[simp] theorem setCore_leasesGranted (s : State) (c : Nat) (k : Core) : (setCore s c k).leasesGranted = s.leasesGranted := rfl
@[simp] theorem setCore_deviceNumber (s : State) (c : Nat) (k : Core) : (setCore s c k).deviceNumber = s.deviceNumber := rfl
@[simp] theorem setCore_classTable (s : State) (c : Nat) (k : Core) : (setCore s c k).classTable = s.classTable := rfl
@[simp] theorem setCore_seqSlots (s : State) (c : Nat) (k : Core) : (setCore s c k).seqSlots = s.seqSlots := rfl
@[simp] theorem setCore_bridleCache (s : State) (c : Nat) (k : Core) : (setCore s c k).bridleCache = s.bridleCache := rfl
@[simp] theorem setCore_drovers (s : State) (c : Nat) (k : Core) : (setCore s c k).drovers = s.drovers := rfl
@[simp] theorem setCore_powerCap (s : State) (c : Nat) (k : Core) : (setCore s c k).powerCap = s.powerCap := rfl
@[simp] theorem setCore_gated (s : State) (c : Nat) (k : Core) : (setCore s c k).gated = s.gated := rfl
@[simp] theorem setCore_gait (s : State) (c : Nat) (k : Core) : (setCore s c k).gait = s.gait := rfl
@[simp] theorem setCore_hist (s : State) (c : Nat) (k : Core) : (setCore s c k).hist = s.hist := rfl
@[simp] theorem setCore_latency (s : State) (c : Nat) (k : Core) : (setCore s c k).latency = s.latency := rfl
@[simp] theorem setCore_ctl (s : State) (c : Nat) (k : Core) : (setCore s c k).ctl = s.ctl := rfl

@[simp] theorem updCore_clock (s : State) (c : Nat) (f : Core → Core) : (updCore s c f).clock = s.clock := rfl
@[simp] theorem updCore_agenda (s : State) (c : Nat) (f : Core → Core) : (updCore s c f).agenda = s.agenda := rfl
@[simp] theorem updCore_turn (s : State) (c : Nat) (f : Core → Core) : (updCore s c f).turn = s.turn := rfl
@[simp] theorem updCore_freshCount (s : State) (c : Nat) (f : Core → Core) : (updCore s c f).freshCount = s.freshCount := rfl
@[simp] theorem updCore_nextId (s : State) (c : Nat) (f : Core → Core) : (updCore s c f).nextId = s.nextId := rfl
@[simp] theorem updCore_mem (s : State) (c : Nat) (f : Core → Core) : (updCore s c f).mem = s.mem := rfl
@[simp] theorem updCore_wstore (s : State) (c : Nat) (f : Core → Core) : (updCore s c f).wstore = s.wstore := rfl
@[simp] theorem updCore_wsSecure (s : State) (c : Nat) (f : Core → Core) : (updCore s c f).wsSecure = s.wsSecure := rfl
@[simp] theorem updCore_remote (s : State) (c : Nat) (f : Core → Core) : (updCore s c f).remote = s.remote := rfl
@[simp] theorem updCore_poison (s : State) (c : Nat) (f : Core → Core) : (updCore s c f).poison = s.poison := rfl
@[simp] theorem updCore_relRecs (s : State) (c : Nat) (f : Core → Core) : (updCore s c f).relRecs = s.relRecs := rfl
@[simp] theorem updCore_past (s : State) (c : Nat) (f : Core → Core) : (updCore s c f).past = s.past := rfl
@[simp] theorem updCore_reqs (s : State) (c : Nat) (f : Core → Core) : (updCore s c f).reqs = s.reqs := rfl
@[simp] theorem updCore_deviceTlb (s : State) (c : Nat) (f : Core → Core) : (updCore s c f).deviceTlb = s.deviceTlb := rfl
@[simp] theorem updCore_slices (s : State) (c : Nat) (f : Core → Core) : (updCore s c f).slices = s.slices := rfl
@[simp] theorem updCore_ctxs (s : State) (c : Nat) (f : Core → Core) : (updCore s c f).ctxs = s.ctxs := rfl
@[simp] theorem updCore_routes (s : State) (c : Nat) (f : Core → Core) : (updCore s c f).routes = s.routes := rfl
@[simp] theorem updCore_downPorts (s : State) (c : Nat) (f : Core → Core) : (updCore s c f).downPorts = s.downPorts := rfl
@[simp] theorem updCore_exports (s : State) (c : Nat) (f : Core → Core) : (updCore s c f).exports = s.exports := rfl
@[simp] theorem updCore_groups (s : State) (c : Nat) (f : Core → Core) : (updCore s c f).groups = s.groups := rfl
@[simp] theorem updCore_leasesHeld (s : State) (c : Nat) (f : Core → Core) : (updCore s c f).leasesHeld = s.leasesHeld := rfl
@[simp] theorem updCore_leasesGranted (s : State) (c : Nat) (f : Core → Core) : (updCore s c f).leasesGranted = s.leasesGranted := rfl
@[simp] theorem updCore_deviceNumber (s : State) (c : Nat) (f : Core → Core) : (updCore s c f).deviceNumber = s.deviceNumber := rfl
@[simp] theorem updCore_classTable (s : State) (c : Nat) (f : Core → Core) : (updCore s c f).classTable = s.classTable := rfl
@[simp] theorem updCore_seqSlots (s : State) (c : Nat) (f : Core → Core) : (updCore s c f).seqSlots = s.seqSlots := rfl
@[simp] theorem updCore_bridleCache (s : State) (c : Nat) (f : Core → Core) : (updCore s c f).bridleCache = s.bridleCache := rfl
@[simp] theorem updCore_drovers (s : State) (c : Nat) (f : Core → Core) : (updCore s c f).drovers = s.drovers := rfl
@[simp] theorem updCore_powerCap (s : State) (c : Nat) (f : Core → Core) : (updCore s c f).powerCap = s.powerCap := rfl
@[simp] theorem updCore_gated (s : State) (c : Nat) (f : Core → Core) : (updCore s c f).gated = s.gated := rfl
@[simp] theorem updCore_gait (s : State) (c : Nat) (f : Core → Core) : (updCore s c f).gait = s.gait := rfl
@[simp] theorem updCore_hist (s : State) (c : Nat) (f : Core → Core) : (updCore s c f).hist = s.hist := rfl
@[simp] theorem updCore_latency (s : State) (c : Nat) (f : Core → Core) : (updCore s c f).latency = s.latency := rfl
@[simp] theorem updCore_ctl (s : State) (c : Nat) (f : Core → Core) : (updCore s c f).ctl = s.ctl := rfl

@[simp] theorem setTeam_clock (s : State) (c t : Nat) (x : Team) : (setTeam s c t x).clock = s.clock := rfl
@[simp] theorem setTeam_agenda (s : State) (c t : Nat) (x : Team) : (setTeam s c t x).agenda = s.agenda := rfl
@[simp] theorem setTeam_turn (s : State) (c t : Nat) (x : Team) : (setTeam s c t x).turn = s.turn := rfl
@[simp] theorem setTeam_freshCount (s : State) (c t : Nat) (x : Team) : (setTeam s c t x).freshCount = s.freshCount := rfl
@[simp] theorem setTeam_nextId (s : State) (c t : Nat) (x : Team) : (setTeam s c t x).nextId = s.nextId := rfl
@[simp] theorem setTeam_mem (s : State) (c t : Nat) (x : Team) : (setTeam s c t x).mem = s.mem := rfl
@[simp] theorem setTeam_wstore (s : State) (c t : Nat) (x : Team) : (setTeam s c t x).wstore = s.wstore := rfl
@[simp] theorem setTeam_wsSecure (s : State) (c t : Nat) (x : Team) : (setTeam s c t x).wsSecure = s.wsSecure := rfl
@[simp] theorem setTeam_remote (s : State) (c t : Nat) (x : Team) : (setTeam s c t x).remote = s.remote := rfl
@[simp] theorem setTeam_poison (s : State) (c t : Nat) (x : Team) : (setTeam s c t x).poison = s.poison := rfl
@[simp] theorem setTeam_relRecs (s : State) (c t : Nat) (x : Team) : (setTeam s c t x).relRecs = s.relRecs := rfl
@[simp] theorem setTeam_past (s : State) (c t : Nat) (x : Team) : (setTeam s c t x).past = s.past := rfl
@[simp] theorem setTeam_reqs (s : State) (c t : Nat) (x : Team) : (setTeam s c t x).reqs = s.reqs := rfl
@[simp] theorem setTeam_deviceTlb (s : State) (c t : Nat) (x : Team) : (setTeam s c t x).deviceTlb = s.deviceTlb := rfl
@[simp] theorem setTeam_slices (s : State) (c t : Nat) (x : Team) : (setTeam s c t x).slices = s.slices := rfl
@[simp] theorem setTeam_ctxs (s : State) (c t : Nat) (x : Team) : (setTeam s c t x).ctxs = s.ctxs := rfl
@[simp] theorem setTeam_routes (s : State) (c t : Nat) (x : Team) : (setTeam s c t x).routes = s.routes := rfl
@[simp] theorem setTeam_downPorts (s : State) (c t : Nat) (x : Team) : (setTeam s c t x).downPorts = s.downPorts := rfl
@[simp] theorem setTeam_exports (s : State) (c t : Nat) (x : Team) : (setTeam s c t x).exports = s.exports := rfl
@[simp] theorem setTeam_groups (s : State) (c t : Nat) (x : Team) : (setTeam s c t x).groups = s.groups := rfl
@[simp] theorem setTeam_leasesHeld (s : State) (c t : Nat) (x : Team) : (setTeam s c t x).leasesHeld = s.leasesHeld := rfl
@[simp] theorem setTeam_leasesGranted (s : State) (c t : Nat) (x : Team) : (setTeam s c t x).leasesGranted = s.leasesGranted := rfl
@[simp] theorem setTeam_deviceNumber (s : State) (c t : Nat) (x : Team) : (setTeam s c t x).deviceNumber = s.deviceNumber := rfl
@[simp] theorem setTeam_classTable (s : State) (c t : Nat) (x : Team) : (setTeam s c t x).classTable = s.classTable := rfl
@[simp] theorem setTeam_seqSlots (s : State) (c t : Nat) (x : Team) : (setTeam s c t x).seqSlots = s.seqSlots := rfl
@[simp] theorem setTeam_bridleCache (s : State) (c t : Nat) (x : Team) : (setTeam s c t x).bridleCache = s.bridleCache := rfl
@[simp] theorem setTeam_drovers (s : State) (c t : Nat) (x : Team) : (setTeam s c t x).drovers = s.drovers := rfl
@[simp] theorem setTeam_powerCap (s : State) (c t : Nat) (x : Team) : (setTeam s c t x).powerCap = s.powerCap := rfl
@[simp] theorem setTeam_gated (s : State) (c t : Nat) (x : Team) : (setTeam s c t x).gated = s.gated := rfl
@[simp] theorem setTeam_gait (s : State) (c t : Nat) (x : Team) : (setTeam s c t x).gait = s.gait := rfl
@[simp] theorem setTeam_hist (s : State) (c t : Nat) (x : Team) : (setTeam s c t x).hist = s.hist := rfl
@[simp] theorem setTeam_latency (s : State) (c t : Nat) (x : Team) : (setTeam s c t x).latency = s.latency := rfl
@[simp] theorem setTeam_ctl (s : State) (c t : Nat) (x : Team) : (setTeam s c t x).ctl = s.ctl := rfl

@[simp] theorem setISlot_clock (s : State) (c i : Nat) (x : IssueSlot) : (setISlot s c i x).clock = s.clock := rfl
@[simp] theorem setISlot_agenda (s : State) (c i : Nat) (x : IssueSlot) : (setISlot s c i x).agenda = s.agenda := rfl
@[simp] theorem setISlot_turn (s : State) (c i : Nat) (x : IssueSlot) : (setISlot s c i x).turn = s.turn := rfl
@[simp] theorem setISlot_freshCount (s : State) (c i : Nat) (x : IssueSlot) : (setISlot s c i x).freshCount = s.freshCount := rfl
@[simp] theorem setISlot_nextId (s : State) (c i : Nat) (x : IssueSlot) : (setISlot s c i x).nextId = s.nextId := rfl
@[simp] theorem setISlot_mem (s : State) (c i : Nat) (x : IssueSlot) : (setISlot s c i x).mem = s.mem := rfl
@[simp] theorem setISlot_wstore (s : State) (c i : Nat) (x : IssueSlot) : (setISlot s c i x).wstore = s.wstore := rfl
@[simp] theorem setISlot_wsSecure (s : State) (c i : Nat) (x : IssueSlot) : (setISlot s c i x).wsSecure = s.wsSecure := rfl
@[simp] theorem setISlot_remote (s : State) (c i : Nat) (x : IssueSlot) : (setISlot s c i x).remote = s.remote := rfl
@[simp] theorem setISlot_poison (s : State) (c i : Nat) (x : IssueSlot) : (setISlot s c i x).poison = s.poison := rfl
@[simp] theorem setISlot_relRecs (s : State) (c i : Nat) (x : IssueSlot) : (setISlot s c i x).relRecs = s.relRecs := rfl
@[simp] theorem setISlot_past (s : State) (c i : Nat) (x : IssueSlot) : (setISlot s c i x).past = s.past := rfl
@[simp] theorem setISlot_reqs (s : State) (c i : Nat) (x : IssueSlot) : (setISlot s c i x).reqs = s.reqs := rfl
@[simp] theorem setISlot_deviceTlb (s : State) (c i : Nat) (x : IssueSlot) : (setISlot s c i x).deviceTlb = s.deviceTlb := rfl
@[simp] theorem setISlot_slices (s : State) (c i : Nat) (x : IssueSlot) : (setISlot s c i x).slices = s.slices := rfl
@[simp] theorem setISlot_ctxs (s : State) (c i : Nat) (x : IssueSlot) : (setISlot s c i x).ctxs = s.ctxs := rfl
@[simp] theorem setISlot_routes (s : State) (c i : Nat) (x : IssueSlot) : (setISlot s c i x).routes = s.routes := rfl
@[simp] theorem setISlot_downPorts (s : State) (c i : Nat) (x : IssueSlot) : (setISlot s c i x).downPorts = s.downPorts := rfl
@[simp] theorem setISlot_exports (s : State) (c i : Nat) (x : IssueSlot) : (setISlot s c i x).exports = s.exports := rfl
@[simp] theorem setISlot_groups (s : State) (c i : Nat) (x : IssueSlot) : (setISlot s c i x).groups = s.groups := rfl
@[simp] theorem setISlot_leasesHeld (s : State) (c i : Nat) (x : IssueSlot) : (setISlot s c i x).leasesHeld = s.leasesHeld := rfl
@[simp] theorem setISlot_leasesGranted (s : State) (c i : Nat) (x : IssueSlot) : (setISlot s c i x).leasesGranted = s.leasesGranted := rfl
@[simp] theorem setISlot_deviceNumber (s : State) (c i : Nat) (x : IssueSlot) : (setISlot s c i x).deviceNumber = s.deviceNumber := rfl
@[simp] theorem setISlot_classTable (s : State) (c i : Nat) (x : IssueSlot) : (setISlot s c i x).classTable = s.classTable := rfl
@[simp] theorem setISlot_seqSlots (s : State) (c i : Nat) (x : IssueSlot) : (setISlot s c i x).seqSlots = s.seqSlots := rfl
@[simp] theorem setISlot_bridleCache (s : State) (c i : Nat) (x : IssueSlot) : (setISlot s c i x).bridleCache = s.bridleCache := rfl
@[simp] theorem setISlot_drovers (s : State) (c i : Nat) (x : IssueSlot) : (setISlot s c i x).drovers = s.drovers := rfl
@[simp] theorem setISlot_powerCap (s : State) (c i : Nat) (x : IssueSlot) : (setISlot s c i x).powerCap = s.powerCap := rfl
@[simp] theorem setISlot_gated (s : State) (c i : Nat) (x : IssueSlot) : (setISlot s c i x).gated = s.gated := rfl
@[simp] theorem setISlot_gait (s : State) (c i : Nat) (x : IssueSlot) : (setISlot s c i x).gait = s.gait := rfl
@[simp] theorem setISlot_hist (s : State) (c i : Nat) (x : IssueSlot) : (setISlot s c i x).hist = s.hist := rfl
@[simp] theorem setISlot_latency (s : State) (c i : Nat) (x : IssueSlot) : (setISlot s c i x).latency = s.latency := rfl
@[simp] theorem setISlot_ctl (s : State) (c i : Nat) (x : IssueSlot) : (setISlot s c i x).ctl = s.ctl := rfl

@[simp] theorem updWg_clock (s : State) (c i : Nat) (f : Wg → Wg) : (updWg s c i f).clock = s.clock := rfl
@[simp] theorem updWg_agenda (s : State) (c i : Nat) (f : Wg → Wg) : (updWg s c i f).agenda = s.agenda := rfl
@[simp] theorem updWg_turn (s : State) (c i : Nat) (f : Wg → Wg) : (updWg s c i f).turn = s.turn := rfl
@[simp] theorem updWg_freshCount (s : State) (c i : Nat) (f : Wg → Wg) : (updWg s c i f).freshCount = s.freshCount := rfl
@[simp] theorem updWg_nextId (s : State) (c i : Nat) (f : Wg → Wg) : (updWg s c i f).nextId = s.nextId := rfl
@[simp] theorem updWg_mem (s : State) (c i : Nat) (f : Wg → Wg) : (updWg s c i f).mem = s.mem := rfl
@[simp] theorem updWg_wstore (s : State) (c i : Nat) (f : Wg → Wg) : (updWg s c i f).wstore = s.wstore := rfl
@[simp] theorem updWg_wsSecure (s : State) (c i : Nat) (f : Wg → Wg) : (updWg s c i f).wsSecure = s.wsSecure := rfl
@[simp] theorem updWg_remote (s : State) (c i : Nat) (f : Wg → Wg) : (updWg s c i f).remote = s.remote := rfl
@[simp] theorem updWg_poison (s : State) (c i : Nat) (f : Wg → Wg) : (updWg s c i f).poison = s.poison := rfl
@[simp] theorem updWg_relRecs (s : State) (c i : Nat) (f : Wg → Wg) : (updWg s c i f).relRecs = s.relRecs := rfl
@[simp] theorem updWg_past (s : State) (c i : Nat) (f : Wg → Wg) : (updWg s c i f).past = s.past := rfl
@[simp] theorem updWg_reqs (s : State) (c i : Nat) (f : Wg → Wg) : (updWg s c i f).reqs = s.reqs := rfl
@[simp] theorem updWg_deviceTlb (s : State) (c i : Nat) (f : Wg → Wg) : (updWg s c i f).deviceTlb = s.deviceTlb := rfl
@[simp] theorem updWg_slices (s : State) (c i : Nat) (f : Wg → Wg) : (updWg s c i f).slices = s.slices := rfl
@[simp] theorem updWg_ctxs (s : State) (c i : Nat) (f : Wg → Wg) : (updWg s c i f).ctxs = s.ctxs := rfl
@[simp] theorem updWg_routes (s : State) (c i : Nat) (f : Wg → Wg) : (updWg s c i f).routes = s.routes := rfl
@[simp] theorem updWg_downPorts (s : State) (c i : Nat) (f : Wg → Wg) : (updWg s c i f).downPorts = s.downPorts := rfl
@[simp] theorem updWg_exports (s : State) (c i : Nat) (f : Wg → Wg) : (updWg s c i f).exports = s.exports := rfl
@[simp] theorem updWg_groups (s : State) (c i : Nat) (f : Wg → Wg) : (updWg s c i f).groups = s.groups := rfl
@[simp] theorem updWg_leasesHeld (s : State) (c i : Nat) (f : Wg → Wg) : (updWg s c i f).leasesHeld = s.leasesHeld := rfl
@[simp] theorem updWg_leasesGranted (s : State) (c i : Nat) (f : Wg → Wg) : (updWg s c i f).leasesGranted = s.leasesGranted := rfl
@[simp] theorem updWg_deviceNumber (s : State) (c i : Nat) (f : Wg → Wg) : (updWg s c i f).deviceNumber = s.deviceNumber := rfl
@[simp] theorem updWg_classTable (s : State) (c i : Nat) (f : Wg → Wg) : (updWg s c i f).classTable = s.classTable := rfl
@[simp] theorem updWg_seqSlots (s : State) (c i : Nat) (f : Wg → Wg) : (updWg s c i f).seqSlots = s.seqSlots := rfl
@[simp] theorem updWg_bridleCache (s : State) (c i : Nat) (f : Wg → Wg) : (updWg s c i f).bridleCache = s.bridleCache := rfl
@[simp] theorem updWg_drovers (s : State) (c i : Nat) (f : Wg → Wg) : (updWg s c i f).drovers = s.drovers := rfl
@[simp] theorem updWg_powerCap (s : State) (c i : Nat) (f : Wg → Wg) : (updWg s c i f).powerCap = s.powerCap := rfl
@[simp] theorem updWg_gated (s : State) (c i : Nat) (f : Wg → Wg) : (updWg s c i f).gated = s.gated := rfl
@[simp] theorem updWg_gait (s : State) (c i : Nat) (f : Wg → Wg) : (updWg s c i f).gait = s.gait := rfl
@[simp] theorem updWg_hist (s : State) (c i : Nat) (f : Wg → Wg) : (updWg s c i f).hist = s.hist := rfl
@[simp] theorem updWg_latency (s : State) (c i : Nat) (f : Wg → Wg) : (updWg s c i f).latency = s.latency := rfl
@[simp] theorem updWg_ctl (s : State) (c i : Nat) (f : Wg → Wg) : (updWg s c i f).ctl = s.ctl := rfl

@[simp] theorem setCtx_clock (s : State) (x : Nat) (k : Ctx) : (setCtx s x k).clock = s.clock := rfl
@[simp] theorem setCtx_agenda (s : State) (x : Nat) (k : Ctx) : (setCtx s x k).agenda = s.agenda := rfl
@[simp] theorem setCtx_turn (s : State) (x : Nat) (k : Ctx) : (setCtx s x k).turn = s.turn := rfl
@[simp] theorem setCtx_freshCount (s : State) (x : Nat) (k : Ctx) : (setCtx s x k).freshCount = s.freshCount := rfl
@[simp] theorem setCtx_nextId (s : State) (x : Nat) (k : Ctx) : (setCtx s x k).nextId = s.nextId := rfl
@[simp] theorem setCtx_mem (s : State) (x : Nat) (k : Ctx) : (setCtx s x k).mem = s.mem := rfl
@[simp] theorem setCtx_wstore (s : State) (x : Nat) (k : Ctx) : (setCtx s x k).wstore = s.wstore := rfl
@[simp] theorem setCtx_wsSecure (s : State) (x : Nat) (k : Ctx) : (setCtx s x k).wsSecure = s.wsSecure := rfl
@[simp] theorem setCtx_remote (s : State) (x : Nat) (k : Ctx) : (setCtx s x k).remote = s.remote := rfl
@[simp] theorem setCtx_poison (s : State) (x : Nat) (k : Ctx) : (setCtx s x k).poison = s.poison := rfl
@[simp] theorem setCtx_relRecs (s : State) (x : Nat) (k : Ctx) : (setCtx s x k).relRecs = s.relRecs := rfl
@[simp] theorem setCtx_past (s : State) (x : Nat) (k : Ctx) : (setCtx s x k).past = s.past := rfl
@[simp] theorem setCtx_reqs (s : State) (x : Nat) (k : Ctx) : (setCtx s x k).reqs = s.reqs := rfl
@[simp] theorem setCtx_deviceTlb (s : State) (x : Nat) (k : Ctx) : (setCtx s x k).deviceTlb = s.deviceTlb := rfl
@[simp] theorem setCtx_cores (s : State) (x : Nat) (k : Ctx) : (setCtx s x k).cores = s.cores := rfl
@[simp] theorem setCtx_slices (s : State) (x : Nat) (k : Ctx) : (setCtx s x k).slices = s.slices := rfl
@[simp] theorem setCtx_routes (s : State) (x : Nat) (k : Ctx) : (setCtx s x k).routes = s.routes := rfl
@[simp] theorem setCtx_downPorts (s : State) (x : Nat) (k : Ctx) : (setCtx s x k).downPorts = s.downPorts := rfl
@[simp] theorem setCtx_exports (s : State) (x : Nat) (k : Ctx) : (setCtx s x k).exports = s.exports := rfl
@[simp] theorem setCtx_groups (s : State) (x : Nat) (k : Ctx) : (setCtx s x k).groups = s.groups := rfl
@[simp] theorem setCtx_leasesHeld (s : State) (x : Nat) (k : Ctx) : (setCtx s x k).leasesHeld = s.leasesHeld := rfl
@[simp] theorem setCtx_leasesGranted (s : State) (x : Nat) (k : Ctx) : (setCtx s x k).leasesGranted = s.leasesGranted := rfl
@[simp] theorem setCtx_deviceNumber (s : State) (x : Nat) (k : Ctx) : (setCtx s x k).deviceNumber = s.deviceNumber := rfl
@[simp] theorem setCtx_classTable (s : State) (x : Nat) (k : Ctx) : (setCtx s x k).classTable = s.classTable := rfl
@[simp] theorem setCtx_seqSlots (s : State) (x : Nat) (k : Ctx) : (setCtx s x k).seqSlots = s.seqSlots := rfl
@[simp] theorem setCtx_bridleCache (s : State) (x : Nat) (k : Ctx) : (setCtx s x k).bridleCache = s.bridleCache := rfl
@[simp] theorem setCtx_drovers (s : State) (x : Nat) (k : Ctx) : (setCtx s x k).drovers = s.drovers := rfl
@[simp] theorem setCtx_powerCap (s : State) (x : Nat) (k : Ctx) : (setCtx s x k).powerCap = s.powerCap := rfl
@[simp] theorem setCtx_gated (s : State) (x : Nat) (k : Ctx) : (setCtx s x k).gated = s.gated := rfl
@[simp] theorem setCtx_gait (s : State) (x : Nat) (k : Ctx) : (setCtx s x k).gait = s.gait := rfl
@[simp] theorem setCtx_hist (s : State) (x : Nat) (k : Ctx) : (setCtx s x k).hist = s.hist := rfl
@[simp] theorem setCtx_latency (s : State) (x : Nat) (k : Ctx) : (setCtx s x k).latency = s.latency := rfl
@[simp] theorem setCtx_ctl (s : State) (x : Nat) (k : Ctx) : (setCtx s x k).ctl = s.ctl := rfl

@[simp] theorem updCtx_clock (s : State) (x : Nat) (f : Ctx → Ctx) : (updCtx s x f).clock = s.clock := rfl
@[simp] theorem updCtx_agenda (s : State) (x : Nat) (f : Ctx → Ctx) : (updCtx s x f).agenda = s.agenda := rfl
@[simp] theorem updCtx_turn (s : State) (x : Nat) (f : Ctx → Ctx) : (updCtx s x f).turn = s.turn := rfl
@[simp] theorem updCtx_freshCount (s : State) (x : Nat) (f : Ctx → Ctx) : (updCtx s x f).freshCount = s.freshCount := rfl
@[simp] theorem updCtx_nextId (s : State) (x : Nat) (f : Ctx → Ctx) : (updCtx s x f).nextId = s.nextId := rfl
@[simp] theorem updCtx_mem (s : State) (x : Nat) (f : Ctx → Ctx) : (updCtx s x f).mem = s.mem := rfl
@[simp] theorem updCtx_wstore (s : State) (x : Nat) (f : Ctx → Ctx) : (updCtx s x f).wstore = s.wstore := rfl
@[simp] theorem updCtx_wsSecure (s : State) (x : Nat) (f : Ctx → Ctx) : (updCtx s x f).wsSecure = s.wsSecure := rfl
@[simp] theorem updCtx_remote (s : State) (x : Nat) (f : Ctx → Ctx) : (updCtx s x f).remote = s.remote := rfl
@[simp] theorem updCtx_poison (s : State) (x : Nat) (f : Ctx → Ctx) : (updCtx s x f).poison = s.poison := rfl
@[simp] theorem updCtx_relRecs (s : State) (x : Nat) (f : Ctx → Ctx) : (updCtx s x f).relRecs = s.relRecs := rfl
@[simp] theorem updCtx_past (s : State) (x : Nat) (f : Ctx → Ctx) : (updCtx s x f).past = s.past := rfl
@[simp] theorem updCtx_reqs (s : State) (x : Nat) (f : Ctx → Ctx) : (updCtx s x f).reqs = s.reqs := rfl
@[simp] theorem updCtx_deviceTlb (s : State) (x : Nat) (f : Ctx → Ctx) : (updCtx s x f).deviceTlb = s.deviceTlb := rfl
@[simp] theorem updCtx_cores (s : State) (x : Nat) (f : Ctx → Ctx) : (updCtx s x f).cores = s.cores := rfl
@[simp] theorem updCtx_slices (s : State) (x : Nat) (f : Ctx → Ctx) : (updCtx s x f).slices = s.slices := rfl
@[simp] theorem updCtx_routes (s : State) (x : Nat) (f : Ctx → Ctx) : (updCtx s x f).routes = s.routes := rfl
@[simp] theorem updCtx_downPorts (s : State) (x : Nat) (f : Ctx → Ctx) : (updCtx s x f).downPorts = s.downPorts := rfl
@[simp] theorem updCtx_exports (s : State) (x : Nat) (f : Ctx → Ctx) : (updCtx s x f).exports = s.exports := rfl
@[simp] theorem updCtx_groups (s : State) (x : Nat) (f : Ctx → Ctx) : (updCtx s x f).groups = s.groups := rfl
@[simp] theorem updCtx_leasesHeld (s : State) (x : Nat) (f : Ctx → Ctx) : (updCtx s x f).leasesHeld = s.leasesHeld := rfl
@[simp] theorem updCtx_leasesGranted (s : State) (x : Nat) (f : Ctx → Ctx) : (updCtx s x f).leasesGranted = s.leasesGranted := rfl
@[simp] theorem updCtx_deviceNumber (s : State) (x : Nat) (f : Ctx → Ctx) : (updCtx s x f).deviceNumber = s.deviceNumber := rfl
@[simp] theorem updCtx_classTable (s : State) (x : Nat) (f : Ctx → Ctx) : (updCtx s x f).classTable = s.classTable := rfl
@[simp] theorem updCtx_seqSlots (s : State) (x : Nat) (f : Ctx → Ctx) : (updCtx s x f).seqSlots = s.seqSlots := rfl
@[simp] theorem updCtx_bridleCache (s : State) (x : Nat) (f : Ctx → Ctx) : (updCtx s x f).bridleCache = s.bridleCache := rfl
@[simp] theorem updCtx_drovers (s : State) (x : Nat) (f : Ctx → Ctx) : (updCtx s x f).drovers = s.drovers := rfl
@[simp] theorem updCtx_powerCap (s : State) (x : Nat) (f : Ctx → Ctx) : (updCtx s x f).powerCap = s.powerCap := rfl
@[simp] theorem updCtx_gated (s : State) (x : Nat) (f : Ctx → Ctx) : (updCtx s x f).gated = s.gated := rfl
@[simp] theorem updCtx_gait (s : State) (x : Nat) (f : Ctx → Ctx) : (updCtx s x f).gait = s.gait := rfl
@[simp] theorem updCtx_hist (s : State) (x : Nat) (f : Ctx → Ctx) : (updCtx s x f).hist = s.hist := rfl
@[simp] theorem updCtx_latency (s : State) (x : Nat) (f : Ctx → Ctx) : (updCtx s x f).latency = s.latency := rfl
@[simp] theorem updCtx_ctl (s : State) (x : Nat) (f : Ctx → Ctx) : (updCtx s x f).ctl = s.ctl := rfl

@[simp] theorem updLaunch_clock (s : State) (x q : Nat) (f : Launch → Launch) : (updLaunch s x q f).clock = s.clock := rfl
@[simp] theorem updLaunch_agenda (s : State) (x q : Nat) (f : Launch → Launch) : (updLaunch s x q f).agenda = s.agenda := rfl
@[simp] theorem updLaunch_turn (s : State) (x q : Nat) (f : Launch → Launch) : (updLaunch s x q f).turn = s.turn := rfl
@[simp] theorem updLaunch_freshCount (s : State) (x q : Nat) (f : Launch → Launch) : (updLaunch s x q f).freshCount = s.freshCount := rfl
@[simp] theorem updLaunch_nextId (s : State) (x q : Nat) (f : Launch → Launch) : (updLaunch s x q f).nextId = s.nextId := rfl
@[simp] theorem updLaunch_mem (s : State) (x q : Nat) (f : Launch → Launch) : (updLaunch s x q f).mem = s.mem := rfl
@[simp] theorem updLaunch_wstore (s : State) (x q : Nat) (f : Launch → Launch) : (updLaunch s x q f).wstore = s.wstore := rfl
@[simp] theorem updLaunch_wsSecure (s : State) (x q : Nat) (f : Launch → Launch) : (updLaunch s x q f).wsSecure = s.wsSecure := rfl
@[simp] theorem updLaunch_remote (s : State) (x q : Nat) (f : Launch → Launch) : (updLaunch s x q f).remote = s.remote := rfl
@[simp] theorem updLaunch_poison (s : State) (x q : Nat) (f : Launch → Launch) : (updLaunch s x q f).poison = s.poison := rfl
@[simp] theorem updLaunch_relRecs (s : State) (x q : Nat) (f : Launch → Launch) : (updLaunch s x q f).relRecs = s.relRecs := rfl
@[simp] theorem updLaunch_past (s : State) (x q : Nat) (f : Launch → Launch) : (updLaunch s x q f).past = s.past := rfl
@[simp] theorem updLaunch_reqs (s : State) (x q : Nat) (f : Launch → Launch) : (updLaunch s x q f).reqs = s.reqs := rfl
@[simp] theorem updLaunch_deviceTlb (s : State) (x q : Nat) (f : Launch → Launch) : (updLaunch s x q f).deviceTlb = s.deviceTlb := rfl
@[simp] theorem updLaunch_cores (s : State) (x q : Nat) (f : Launch → Launch) : (updLaunch s x q f).cores = s.cores := rfl
@[simp] theorem updLaunch_slices (s : State) (x q : Nat) (f : Launch → Launch) : (updLaunch s x q f).slices = s.slices := rfl
@[simp] theorem updLaunch_routes (s : State) (x q : Nat) (f : Launch → Launch) : (updLaunch s x q f).routes = s.routes := rfl
@[simp] theorem updLaunch_downPorts (s : State) (x q : Nat) (f : Launch → Launch) : (updLaunch s x q f).downPorts = s.downPorts := rfl
@[simp] theorem updLaunch_exports (s : State) (x q : Nat) (f : Launch → Launch) : (updLaunch s x q f).exports = s.exports := rfl
@[simp] theorem updLaunch_groups (s : State) (x q : Nat) (f : Launch → Launch) : (updLaunch s x q f).groups = s.groups := rfl
@[simp] theorem updLaunch_leasesHeld (s : State) (x q : Nat) (f : Launch → Launch) : (updLaunch s x q f).leasesHeld = s.leasesHeld := rfl
@[simp] theorem updLaunch_leasesGranted (s : State) (x q : Nat) (f : Launch → Launch) : (updLaunch s x q f).leasesGranted = s.leasesGranted := rfl
@[simp] theorem updLaunch_deviceNumber (s : State) (x q : Nat) (f : Launch → Launch) : (updLaunch s x q f).deviceNumber = s.deviceNumber := rfl
@[simp] theorem updLaunch_classTable (s : State) (x q : Nat) (f : Launch → Launch) : (updLaunch s x q f).classTable = s.classTable := rfl
@[simp] theorem updLaunch_seqSlots (s : State) (x q : Nat) (f : Launch → Launch) : (updLaunch s x q f).seqSlots = s.seqSlots := rfl
@[simp] theorem updLaunch_bridleCache (s : State) (x q : Nat) (f : Launch → Launch) : (updLaunch s x q f).bridleCache = s.bridleCache := rfl
@[simp] theorem updLaunch_drovers (s : State) (x q : Nat) (f : Launch → Launch) : (updLaunch s x q f).drovers = s.drovers := rfl
@[simp] theorem updLaunch_powerCap (s : State) (x q : Nat) (f : Launch → Launch) : (updLaunch s x q f).powerCap = s.powerCap := rfl
@[simp] theorem updLaunch_gated (s : State) (x q : Nat) (f : Launch → Launch) : (updLaunch s x q f).gated = s.gated := rfl
@[simp] theorem updLaunch_gait (s : State) (x q : Nat) (f : Launch → Launch) : (updLaunch s x q f).gait = s.gait := rfl
@[simp] theorem updLaunch_hist (s : State) (x q : Nat) (f : Launch → Launch) : (updLaunch s x q f).hist = s.hist := rfl
@[simp] theorem updLaunch_latency (s : State) (x q : Nat) (f : Launch → Launch) : (updLaunch s x q f).latency = s.latency := rfl
@[simp] theorem updLaunch_ctl (s : State) (x q : Nat) (f : Launch → Launch) : (updLaunch s x q f).ctl = s.ctl := rfl

@[simp] theorem pulse_clock (s : State) (x : Nat) : (pulse s x).clock = s.clock := rfl
@[simp] theorem pulse_agenda (s : State) (x : Nat) : (pulse s x).agenda = s.agenda := rfl
@[simp] theorem pulse_turn (s : State) (x : Nat) : (pulse s x).turn = s.turn := rfl
@[simp] theorem pulse_freshCount (s : State) (x : Nat) : (pulse s x).freshCount = s.freshCount := rfl
@[simp] theorem pulse_nextId (s : State) (x : Nat) : (pulse s x).nextId = s.nextId := rfl
@[simp] theorem pulse_mem (s : State) (x : Nat) : (pulse s x).mem = s.mem := rfl
@[simp] theorem pulse_wstore (s : State) (x : Nat) : (pulse s x).wstore = s.wstore := rfl
@[simp] theorem pulse_wsSecure (s : State) (x : Nat) : (pulse s x).wsSecure = s.wsSecure := rfl
@[simp] theorem pulse_remote (s : State) (x : Nat) : (pulse s x).remote = s.remote := rfl
@[simp] theorem pulse_poison (s : State) (x : Nat) : (pulse s x).poison = s.poison := rfl
@[simp] theorem pulse_relRecs (s : State) (x : Nat) : (pulse s x).relRecs = s.relRecs := rfl
@[simp] theorem pulse_past (s : State) (x : Nat) : (pulse s x).past = s.past := rfl
@[simp] theorem pulse_reqs (s : State) (x : Nat) : (pulse s x).reqs = s.reqs := rfl
@[simp] theorem pulse_deviceTlb (s : State) (x : Nat) : (pulse s x).deviceTlb = s.deviceTlb := rfl
@[simp] theorem pulse_cores (s : State) (x : Nat) : (pulse s x).cores = s.cores := rfl
@[simp] theorem pulse_slices (s : State) (x : Nat) : (pulse s x).slices = s.slices := rfl
@[simp] theorem pulse_routes (s : State) (x : Nat) : (pulse s x).routes = s.routes := rfl
@[simp] theorem pulse_downPorts (s : State) (x : Nat) : (pulse s x).downPorts = s.downPorts := rfl
@[simp] theorem pulse_exports (s : State) (x : Nat) : (pulse s x).exports = s.exports := rfl
@[simp] theorem pulse_groups (s : State) (x : Nat) : (pulse s x).groups = s.groups := rfl
@[simp] theorem pulse_leasesHeld (s : State) (x : Nat) : (pulse s x).leasesHeld = s.leasesHeld := rfl
@[simp] theorem pulse_leasesGranted (s : State) (x : Nat) : (pulse s x).leasesGranted = s.leasesGranted := rfl
@[simp] theorem pulse_deviceNumber (s : State) (x : Nat) : (pulse s x).deviceNumber = s.deviceNumber := rfl
@[simp] theorem pulse_classTable (s : State) (x : Nat) : (pulse s x).classTable = s.classTable := rfl
@[simp] theorem pulse_seqSlots (s : State) (x : Nat) : (pulse s x).seqSlots = s.seqSlots := rfl
@[simp] theorem pulse_bridleCache (s : State) (x : Nat) : (pulse s x).bridleCache = s.bridleCache := rfl
@[simp] theorem pulse_drovers (s : State) (x : Nat) : (pulse s x).drovers = s.drovers := rfl
@[simp] theorem pulse_powerCap (s : State) (x : Nat) : (pulse s x).powerCap = s.powerCap := rfl
@[simp] theorem pulse_gated (s : State) (x : Nat) : (pulse s x).gated = s.gated := rfl
@[simp] theorem pulse_gait (s : State) (x : Nat) : (pulse s x).gait = s.gait := rfl
@[simp] theorem pulse_hist (s : State) (x : Nat) : (pulse s x).hist = s.hist := rfl
@[simp] theorem pulse_latency (s : State) (x : Nat) : (pulse s x).latency = s.latency := rfl
@[simp] theorem pulse_ctl (s : State) (x : Nat) : (pulse s x).ctl = s.ctl := rfl

@[simp] theorem queueFault_clock (s : State) (x : Nat) (r : FaultRec) : (queueFault s x r).clock = s.clock := rfl
@[simp] theorem queueFault_agenda (s : State) (x : Nat) (r : FaultRec) : (queueFault s x r).agenda = s.agenda := rfl
@[simp] theorem queueFault_turn (s : State) (x : Nat) (r : FaultRec) : (queueFault s x r).turn = s.turn := rfl
@[simp] theorem queueFault_freshCount (s : State) (x : Nat) (r : FaultRec) : (queueFault s x r).freshCount = s.freshCount := rfl
@[simp] theorem queueFault_nextId (s : State) (x : Nat) (r : FaultRec) : (queueFault s x r).nextId = s.nextId := rfl
@[simp] theorem queueFault_mem (s : State) (x : Nat) (r : FaultRec) : (queueFault s x r).mem = s.mem := rfl
@[simp] theorem queueFault_wstore (s : State) (x : Nat) (r : FaultRec) : (queueFault s x r).wstore = s.wstore := rfl
@[simp] theorem queueFault_wsSecure (s : State) (x : Nat) (r : FaultRec) : (queueFault s x r).wsSecure = s.wsSecure := rfl
@[simp] theorem queueFault_remote (s : State) (x : Nat) (r : FaultRec) : (queueFault s x r).remote = s.remote := rfl
@[simp] theorem queueFault_poison (s : State) (x : Nat) (r : FaultRec) : (queueFault s x r).poison = s.poison := rfl
@[simp] theorem queueFault_relRecs (s : State) (x : Nat) (r : FaultRec) : (queueFault s x r).relRecs = s.relRecs := rfl
@[simp] theorem queueFault_past (s : State) (x : Nat) (r : FaultRec) : (queueFault s x r).past = s.past := rfl
@[simp] theorem queueFault_reqs (s : State) (x : Nat) (r : FaultRec) : (queueFault s x r).reqs = s.reqs := rfl
@[simp] theorem queueFault_deviceTlb (s : State) (x : Nat) (r : FaultRec) : (queueFault s x r).deviceTlb = s.deviceTlb := rfl
@[simp] theorem queueFault_cores (s : State) (x : Nat) (r : FaultRec) : (queueFault s x r).cores = s.cores := rfl
@[simp] theorem queueFault_slices (s : State) (x : Nat) (r : FaultRec) : (queueFault s x r).slices = s.slices := rfl
@[simp] theorem queueFault_routes (s : State) (x : Nat) (r : FaultRec) : (queueFault s x r).routes = s.routes := rfl
@[simp] theorem queueFault_downPorts (s : State) (x : Nat) (r : FaultRec) : (queueFault s x r).downPorts = s.downPorts := rfl
@[simp] theorem queueFault_exports (s : State) (x : Nat) (r : FaultRec) : (queueFault s x r).exports = s.exports := rfl
@[simp] theorem queueFault_groups (s : State) (x : Nat) (r : FaultRec) : (queueFault s x r).groups = s.groups := rfl
@[simp] theorem queueFault_leasesHeld (s : State) (x : Nat) (r : FaultRec) : (queueFault s x r).leasesHeld = s.leasesHeld := rfl
@[simp] theorem queueFault_leasesGranted (s : State) (x : Nat) (r : FaultRec) : (queueFault s x r).leasesGranted = s.leasesGranted := rfl
@[simp] theorem queueFault_deviceNumber (s : State) (x : Nat) (r : FaultRec) : (queueFault s x r).deviceNumber = s.deviceNumber := rfl
@[simp] theorem queueFault_classTable (s : State) (x : Nat) (r : FaultRec) : (queueFault s x r).classTable = s.classTable := rfl
@[simp] theorem queueFault_seqSlots (s : State) (x : Nat) (r : FaultRec) : (queueFault s x r).seqSlots = s.seqSlots := rfl
@[simp] theorem queueFault_bridleCache (s : State) (x : Nat) (r : FaultRec) : (queueFault s x r).bridleCache = s.bridleCache := rfl
@[simp] theorem queueFault_drovers (s : State) (x : Nat) (r : FaultRec) : (queueFault s x r).drovers = s.drovers := rfl
@[simp] theorem queueFault_powerCap (s : State) (x : Nat) (r : FaultRec) : (queueFault s x r).powerCap = s.powerCap := rfl
@[simp] theorem queueFault_gated (s : State) (x : Nat) (r : FaultRec) : (queueFault s x r).gated = s.gated := rfl
@[simp] theorem queueFault_gait (s : State) (x : Nat) (r : FaultRec) : (queueFault s x r).gait = s.gait := rfl
@[simp] theorem queueFault_hist (s : State) (x : Nat) (r : FaultRec) : (queueFault s x r).hist = s.hist := rfl
@[simp] theorem queueFault_latency (s : State) (x : Nat) (r : FaultRec) : (queueFault s x r).latency = s.latency := rfl
@[simp] theorem queueFault_ctl (s : State) (x : Nat) (r : FaultRec) : (queueFault s x r).ctl = s.ctl := rfl

/-! ### Updates that decide -/

@[simp] theorem updTeam_agenda (s : State) (c t : Nat) (f : Team → Team) : (updTeam s c t f).agenda = s.agenda := by
  unfold updTeam; split <;> rfl
@[simp] theorem updTeam_turn (s : State) (c t : Nat) (f : Team → Team) : (updTeam s c t f).turn = s.turn := by
  unfold updTeam; split <;> rfl
@[simp] theorem updTeam_nextId (s : State) (c t : Nat) (f : Team → Team) : (updTeam s c t f).nextId = s.nextId := by
  unfold updTeam; split <;> rfl
@[simp] theorem updTeam_mem (s : State) (c t : Nat) (f : Team → Team) : (updTeam s c t f).mem = s.mem := by
  unfold updTeam; split <;> rfl
@[simp] theorem updTeam_wstore (s : State) (c t : Nat) (f : Team → Team) : (updTeam s c t f).wstore = s.wstore := by
  unfold updTeam; split <;> rfl
@[simp] theorem updTeam_remote (s : State) (c t : Nat) (f : Team → Team) : (updTeam s c t f).remote = s.remote := by
  unfold updTeam; split <;> rfl
@[simp] theorem updTeam_poison (s : State) (c t : Nat) (f : Team → Team) : (updTeam s c t f).poison = s.poison := by
  unfold updTeam; split <;> rfl
@[simp] theorem updTeam_relRecs (s : State) (c t : Nat) (f : Team → Team) : (updTeam s c t f).relRecs = s.relRecs := by
  unfold updTeam; split <;> rfl
@[simp] theorem updTeam_reqs (s : State) (c t : Nat) (f : Team → Team) : (updTeam s c t f).reqs = s.reqs := by
  unfold updTeam; split <;> rfl
@[simp] theorem updTeam_slices (s : State) (c t : Nat) (f : Team → Team) : (updTeam s c t f).slices = s.slices := by
  unfold updTeam; split <;> rfl
@[simp] theorem updTeam_seqSlots (s : State) (c t : Nat) (f : Team → Team) : (updTeam s c t f).seqSlots = s.seqSlots := by
  unfold updTeam; split <;> rfl
@[simp] theorem updTeam_deviceTlb (s : State) (c t : Nat) (f : Team → Team) : (updTeam s c t f).deviceTlb = s.deviceTlb := by
  unfold updTeam; split <;> rfl
@[simp] theorem updTeam_ctl (s : State) (c t : Nat) (f : Team → Team) : (updTeam s c t f).ctl = s.ctl := by
  unfold updTeam; split <;> rfl
@[simp] theorem updTeam_ctxs (s : State) (c t : Nat) (f : Team → Team) : (updTeam s c t f).ctxs = s.ctxs := by
  unfold updTeam; split <;> rfl

@[simp] theorem tally_agenda (s : State) (b w n : Nat) : (tally s b w n).agenda = s.agenda := by
  unfold tally; split <;> rfl
@[simp] theorem tally_turn (s : State) (b w n : Nat) : (tally s b w n).turn = s.turn := by
  unfold tally; split <;> rfl
@[simp] theorem tally_nextId (s : State) (b w n : Nat) : (tally s b w n).nextId = s.nextId := by
  unfold tally; split <;> rfl
@[simp] theorem tally_mem (s : State) (b w n : Nat) : (tally s b w n).mem = s.mem := by
  unfold tally; split <;> rfl
@[simp] theorem tally_wstore (s : State) (b w n : Nat) : (tally s b w n).wstore = s.wstore := by
  unfold tally; split <;> rfl
@[simp] theorem tally_remote (s : State) (b w n : Nat) : (tally s b w n).remote = s.remote := by
  unfold tally; split <;> rfl
@[simp] theorem tally_poison (s : State) (b w n : Nat) : (tally s b w n).poison = s.poison := by
  unfold tally; split <;> rfl
@[simp] theorem tally_relRecs (s : State) (b w n : Nat) : (tally s b w n).relRecs = s.relRecs := by
  unfold tally; split <;> rfl
@[simp] theorem tally_reqs (s : State) (b w n : Nat) : (tally s b w n).reqs = s.reqs := by
  unfold tally; split <;> rfl
@[simp] theorem tally_slices (s : State) (b w n : Nat) : (tally s b w n).slices = s.slices := by
  unfold tally; split <;> rfl
@[simp] theorem tally_seqSlots (s : State) (b w n : Nat) : (tally s b w n).seqSlots = s.seqSlots := by
  unfold tally; split <;> rfl
@[simp] theorem tally_deviceTlb (s : State) (b w n : Nat) : (tally s b w n).deviceTlb = s.deviceTlb := by
  unfold tally; split <;> rfl
@[simp] theorem tally_ctl (s : State) (b w n : Nat) : (tally s b w n).ctl = s.ctl := by
  unfold tally; split <;> rfl
@[simp] theorem tally_cores (s : State) (b w n : Nat) : (tally s b w n).cores = s.cores := by
  unfold tally; split <;> rfl
@[simp] theorem tally_ctxs (s : State) (b w n : Nat) : (tally s b w n).ctxs = s.ctxs := by
  unfold tally; split <;> rfl

@[simp] theorem freeISlot_agenda (s : State) (c sl i : Nat) : (freeISlot s c sl i).agenda = s.agenda := rfl
@[simp] theorem freeISlot_turn (s : State) (c sl i : Nat) : (freeISlot s c sl i).turn = s.turn := rfl
@[simp] theorem freeISlot_nextId (s : State) (c sl i : Nat) : (freeISlot s c sl i).nextId = s.nextId := rfl
@[simp] theorem freeISlot_mem (s : State) (c sl i : Nat) : (freeISlot s c sl i).mem = s.mem := rfl
@[simp] theorem freeISlot_wstore (s : State) (c sl i : Nat) : (freeISlot s c sl i).wstore = s.wstore := rfl
@[simp] theorem freeISlot_remote (s : State) (c sl i : Nat) : (freeISlot s c sl i).remote = s.remote := rfl
@[simp] theorem freeISlot_poison (s : State) (c sl i : Nat) : (freeISlot s c sl i).poison = s.poison := rfl
@[simp] theorem freeISlot_relRecs (s : State) (c sl i : Nat) : (freeISlot s c sl i).relRecs = s.relRecs := rfl
@[simp] theorem freeISlot_reqs (s : State) (c sl i : Nat) : (freeISlot s c sl i).reqs = s.reqs := rfl
@[simp] theorem freeISlot_slices (s : State) (c sl i : Nat) : (freeISlot s c sl i).slices = s.slices := rfl
@[simp] theorem freeISlot_seqSlots (s : State) (c sl i : Nat) : (freeISlot s c sl i).seqSlots = s.seqSlots := rfl
@[simp] theorem freeISlot_deviceTlb (s : State) (c sl i : Nat) : (freeISlot s c sl i).deviceTlb = s.deviceTlb := rfl
@[simp] theorem freeISlot_ctl (s : State) (c sl i : Nat) : (freeISlot s c sl i).ctl = s.ctl := rfl
@[simp] theorem freeISlot_ctxs (s : State) (c sl i : Nat) : (freeISlot s c sl i).ctxs = s.ctxs := rfl

@[simp] theorem endRun_agenda (s : State) (c sl : Nat) (t : Team) : (endRun s c sl t).agenda = s.agenda := rfl
@[simp] theorem endRun_turn (s : State) (c sl : Nat) (t : Team) : (endRun s c sl t).turn = s.turn := rfl
@[simp] theorem endRun_nextId (s : State) (c sl : Nat) (t : Team) : (endRun s c sl t).nextId = s.nextId := rfl
@[simp] theorem endRun_mem (s : State) (c sl : Nat) (t : Team) : (endRun s c sl t).mem = s.mem := rfl
@[simp] theorem endRun_wstore (s : State) (c sl : Nat) (t : Team) : (endRun s c sl t).wstore = s.wstore := rfl
@[simp] theorem endRun_remote (s : State) (c sl : Nat) (t : Team) : (endRun s c sl t).remote = s.remote := rfl
@[simp] theorem endRun_poison (s : State) (c sl : Nat) (t : Team) : (endRun s c sl t).poison = s.poison := rfl
@[simp] theorem endRun_relRecs (s : State) (c sl : Nat) (t : Team) : (endRun s c sl t).relRecs = s.relRecs := rfl
@[simp] theorem endRun_reqs (s : State) (c sl : Nat) (t : Team) : (endRun s c sl t).reqs = s.reqs := rfl
@[simp] theorem endRun_slices (s : State) (c sl : Nat) (t : Team) : (endRun s c sl t).slices = s.slices := rfl
@[simp] theorem endRun_seqSlots (s : State) (c sl : Nat) (t : Team) : (endRun s c sl t).seqSlots = s.seqSlots := rfl
@[simp] theorem endRun_deviceTlb (s : State) (c sl : Nat) (t : Team) : (endRun s c sl t).deviceTlb = s.deviceTlb := rfl
@[simp] theorem endRun_ctl (s : State) (c sl : Nat) (t : Team) : (endRun s c sl t).ctl = s.ctl := rfl
@[simp] theorem endRun_ctxs (s : State) (c sl : Nat) (t : Team) : (endRun s c sl t).ctxs = s.ctxs := rfl

@[simp] theorem endTenure_agenda (s : State) (c sl : Nat) (t : Team) : (endTenure s c sl t).agenda = s.agenda := rfl
@[simp] theorem endTenure_turn (s : State) (c sl : Nat) (t : Team) : (endTenure s c sl t).turn = s.turn := rfl
@[simp] theorem endTenure_nextId (s : State) (c sl : Nat) (t : Team) : (endTenure s c sl t).nextId = s.nextId := rfl
@[simp] theorem endTenure_mem (s : State) (c sl : Nat) (t : Team) : (endTenure s c sl t).mem = s.mem := rfl
@[simp] theorem endTenure_wstore (s : State) (c sl : Nat) (t : Team) : (endTenure s c sl t).wstore = s.wstore := rfl
@[simp] theorem endTenure_remote (s : State) (c sl : Nat) (t : Team) : (endTenure s c sl t).remote = s.remote := rfl
@[simp] theorem endTenure_poison (s : State) (c sl : Nat) (t : Team) : (endTenure s c sl t).poison = s.poison := rfl
@[simp] theorem endTenure_relRecs (s : State) (c sl : Nat) (t : Team) : (endTenure s c sl t).relRecs = s.relRecs := rfl
@[simp] theorem endTenure_reqs (s : State) (c sl : Nat) (t : Team) : (endTenure s c sl t).reqs = s.reqs := rfl
@[simp] theorem endTenure_slices (s : State) (c sl : Nat) (t : Team) : (endTenure s c sl t).slices = s.slices := rfl
@[simp] theorem endTenure_seqSlots (s : State) (c sl : Nat) (t : Team) : (endTenure s c sl t).seqSlots = s.seqSlots := rfl
@[simp] theorem endTenure_deviceTlb (s : State) (c sl : Nat) (t : Team) : (endTenure s c sl t).deviceTlb = s.deviceTlb := rfl
@[simp] theorem endTenure_ctl (s : State) (c sl : Nat) (t : Team) : (endTenure s c sl t).ctl = s.ctl := rfl
@[simp] theorem endTenure_ctxs (s : State) (c sl : Nat) (t : Team) : (endTenure s c sl t).ctxs = s.ctxs := rfl

@[simp] theorem waitTeam_agenda (s : State) (c sl : Nat) (t : Team) : (waitTeam s c sl t).agenda = s.agenda := by
  simp [waitTeam]
@[simp] theorem waitTeam_turn (s : State) (c sl : Nat) (t : Team) : (waitTeam s c sl t).turn = s.turn := by
  simp [waitTeam]
@[simp] theorem waitTeam_nextId (s : State) (c sl : Nat) (t : Team) : (waitTeam s c sl t).nextId = s.nextId := by
  simp [waitTeam]
@[simp] theorem waitTeam_mem (s : State) (c sl : Nat) (t : Team) : (waitTeam s c sl t).mem = s.mem := by
  simp [waitTeam]
@[simp] theorem waitTeam_wstore (s : State) (c sl : Nat) (t : Team) : (waitTeam s c sl t).wstore = s.wstore := by
  simp [waitTeam]
@[simp] theorem waitTeam_remote (s : State) (c sl : Nat) (t : Team) : (waitTeam s c sl t).remote = s.remote := by
  simp [waitTeam]
@[simp] theorem waitTeam_poison (s : State) (c sl : Nat) (t : Team) : (waitTeam s c sl t).poison = s.poison := by
  simp [waitTeam]
@[simp] theorem waitTeam_relRecs (s : State) (c sl : Nat) (t : Team) : (waitTeam s c sl t).relRecs = s.relRecs := by
  simp [waitTeam]
@[simp] theorem waitTeam_reqs (s : State) (c sl : Nat) (t : Team) : (waitTeam s c sl t).reqs = s.reqs := by
  simp [waitTeam]
@[simp] theorem waitTeam_slices (s : State) (c sl : Nat) (t : Team) : (waitTeam s c sl t).slices = s.slices := by
  simp [waitTeam]
@[simp] theorem waitTeam_seqSlots (s : State) (c sl : Nat) (t : Team) : (waitTeam s c sl t).seqSlots = s.seqSlots := by
  simp [waitTeam]
@[simp] theorem waitTeam_deviceTlb (s : State) (c sl : Nat) (t : Team) : (waitTeam s c sl t).deviceTlb = s.deviceTlb := by
  simp [waitTeam]
@[simp] theorem waitTeam_ctl (s : State) (c sl : Nat) (t : Team) : (waitTeam s c sl t).ctl = s.ctl := by
  simp [waitTeam]
@[simp] theorem waitTeam_ctxs (s : State) (c sl : Nat) (t : Team) : (waitTeam s c sl t).ctxs = s.ctxs := by
  simp [waitTeam]

@[simp] theorem reportSeq_agenda (s : State) (x c sl : Nat) (k : BitVec 8) : (reportSeq s x c sl k).agenda = s.agenda := by
  unfold reportSeq; split <;> rfl
@[simp] theorem reportSeq_turn (s : State) (x c sl : Nat) (k : BitVec 8) : (reportSeq s x c sl k).turn = s.turn := by
  unfold reportSeq; split <;> rfl
@[simp] theorem reportSeq_nextId (s : State) (x c sl : Nat) (k : BitVec 8) : (reportSeq s x c sl k).nextId = s.nextId := by
  unfold reportSeq; split <;> rfl
@[simp] theorem reportSeq_mem (s : State) (x c sl : Nat) (k : BitVec 8) : (reportSeq s x c sl k).mem = s.mem := by
  unfold reportSeq; split <;> rfl
@[simp] theorem reportSeq_wstore (s : State) (x c sl : Nat) (k : BitVec 8) : (reportSeq s x c sl k).wstore = s.wstore := by
  unfold reportSeq; split <;> rfl
@[simp] theorem reportSeq_remote (s : State) (x c sl : Nat) (k : BitVec 8) : (reportSeq s x c sl k).remote = s.remote := by
  unfold reportSeq; split <;> rfl
@[simp] theorem reportSeq_poison (s : State) (x c sl : Nat) (k : BitVec 8) : (reportSeq s x c sl k).poison = s.poison := by
  unfold reportSeq; split <;> rfl
@[simp] theorem reportSeq_relRecs (s : State) (x c sl : Nat) (k : BitVec 8) : (reportSeq s x c sl k).relRecs = s.relRecs := by
  unfold reportSeq; split <;> rfl
@[simp] theorem reportSeq_reqs (s : State) (x c sl : Nat) (k : BitVec 8) : (reportSeq s x c sl k).reqs = s.reqs := by
  unfold reportSeq; split <;> rfl
@[simp] theorem reportSeq_slices (s : State) (x c sl : Nat) (k : BitVec 8) : (reportSeq s x c sl k).slices = s.slices := by
  unfold reportSeq; split <;> rfl
@[simp] theorem reportSeq_deviceTlb (s : State) (x c sl : Nat) (k : BitVec 8) : (reportSeq s x c sl k).deviceTlb = s.deviceTlb := by
  unfold reportSeq; split <;> rfl
@[simp] theorem reportSeq_ctl (s : State) (x c sl : Nat) (k : BitVec 8) : (reportSeq s x c sl k).ctl = s.ctl := by
  unfold reportSeq; split <;> rfl
@[simp] theorem reportSeq_cores (s : State) (x c sl : Nat) (k : BitVec 8) : (reportSeq s x c sl k).cores = s.cores := by
  unfold reportSeq; split <;> rfl
@[simp] theorem reportSeq_ctxs (s : State) (x c sl : Nat) (k : BitVec 8) : (reportSeq s x c sl k).ctxs = s.ctxs := by
  unfold reportSeq; split <;> rfl

@[simp] theorem deliverTrap_agenda (s : State) (c sl : Nat) (ti : TrapInfo) : (deliverTrap s c sl ti).agenda = s.agenda := by
  unfold deliverTrap; split
  · rfl
  · dsimp only; split <;> simp
@[simp] theorem deliverTrap_turn (s : State) (c sl : Nat) (ti : TrapInfo) : (deliverTrap s c sl ti).turn = s.turn := by
  unfold deliverTrap; split
  · rfl
  · dsimp only; split <;> simp
@[simp] theorem deliverTrap_nextId (s : State) (c sl : Nat) (ti : TrapInfo) : (deliverTrap s c sl ti).nextId = s.nextId := by
  unfold deliverTrap; split
  · rfl
  · dsimp only; split <;> simp
@[simp] theorem deliverTrap_mem (s : State) (c sl : Nat) (ti : TrapInfo) : (deliverTrap s c sl ti).mem = s.mem := by
  unfold deliverTrap; split
  · rfl
  · dsimp only; split <;> simp
@[simp] theorem deliverTrap_wstore (s : State) (c sl : Nat) (ti : TrapInfo) : (deliverTrap s c sl ti).wstore = s.wstore := by
  unfold deliverTrap; split
  · rfl
  · dsimp only; split <;> simp
@[simp] theorem deliverTrap_remote (s : State) (c sl : Nat) (ti : TrapInfo) : (deliverTrap s c sl ti).remote = s.remote := by
  unfold deliverTrap; split
  · rfl
  · dsimp only; split <;> simp
@[simp] theorem deliverTrap_poison (s : State) (c sl : Nat) (ti : TrapInfo) : (deliverTrap s c sl ti).poison = s.poison := by
  unfold deliverTrap; split
  · rfl
  · dsimp only; split <;> simp
@[simp] theorem deliverTrap_relRecs (s : State) (c sl : Nat) (ti : TrapInfo) : (deliverTrap s c sl ti).relRecs = s.relRecs := by
  unfold deliverTrap; split
  · rfl
  · dsimp only; split <;> simp
@[simp] theorem deliverTrap_reqs (s : State) (c sl : Nat) (ti : TrapInfo) : (deliverTrap s c sl ti).reqs = s.reqs := by
  unfold deliverTrap; split
  · rfl
  · dsimp only; split <;> simp
@[simp] theorem deliverTrap_slices (s : State) (c sl : Nat) (ti : TrapInfo) : (deliverTrap s c sl ti).slices = s.slices := by
  unfold deliverTrap; split
  · rfl
  · dsimp only; split <;> simp
@[simp] theorem deliverTrap_deviceTlb (s : State) (c sl : Nat) (ti : TrapInfo) : (deliverTrap s c sl ti).deviceTlb = s.deviceTlb := by
  unfold deliverTrap; split
  · rfl
  · dsimp only; split <;> simp
@[simp] theorem deliverTrap_ctl (s : State) (c sl : Nat) (ti : TrapInfo) : (deliverTrap s c sl ti).ctl = s.ctl := by
  unfold deliverTrap; split
  · rfl
  · dsimp only; split <;> simp

@[simp] theorem takeTrap_agenda (s : State) (c sl : Nat) (t : Team) (ti : TrapInfo) : (takeTrap s c sl t ti).agenda = s.agenda := by
  simp only [takeTrap]; split <;> simp
@[simp] theorem takeTrap_turn (s : State) (c sl : Nat) (t : Team) (ti : TrapInfo) : (takeTrap s c sl t ti).turn = s.turn := by
  simp only [takeTrap]; split <;> simp
@[simp] theorem takeTrap_nextId (s : State) (c sl : Nat) (t : Team) (ti : TrapInfo) : (takeTrap s c sl t ti).nextId = s.nextId := by
  simp only [takeTrap]; split <;> simp
@[simp] theorem takeTrap_mem (s : State) (c sl : Nat) (t : Team) (ti : TrapInfo) : (takeTrap s c sl t ti).mem = s.mem := by
  simp only [takeTrap]; split <;> simp
@[simp] theorem takeTrap_wstore (s : State) (c sl : Nat) (t : Team) (ti : TrapInfo) : (takeTrap s c sl t ti).wstore = s.wstore := by
  simp only [takeTrap]; split <;> simp
@[simp] theorem takeTrap_remote (s : State) (c sl : Nat) (t : Team) (ti : TrapInfo) : (takeTrap s c sl t ti).remote = s.remote := by
  simp only [takeTrap]; split <;> simp
@[simp] theorem takeTrap_poison (s : State) (c sl : Nat) (t : Team) (ti : TrapInfo) : (takeTrap s c sl t ti).poison = s.poison := by
  simp only [takeTrap]; split <;> simp
@[simp] theorem takeTrap_relRecs (s : State) (c sl : Nat) (t : Team) (ti : TrapInfo) : (takeTrap s c sl t ti).relRecs = s.relRecs := by
  simp only [takeTrap]; split <;> simp
@[simp] theorem takeTrap_reqs (s : State) (c sl : Nat) (t : Team) (ti : TrapInfo) : (takeTrap s c sl t ti).reqs = s.reqs := by
  simp only [takeTrap]; split <;> simp
@[simp] theorem takeTrap_slices (s : State) (c sl : Nat) (t : Team) (ti : TrapInfo) : (takeTrap s c sl t ti).slices = s.slices := by
  simp only [takeTrap]; split <;> simp
@[simp] theorem takeTrap_deviceTlb (s : State) (c sl : Nat) (t : Team) (ti : TrapInfo) : (takeTrap s c sl t ti).deviceTlb = s.deviceTlb := by
  simp only [takeTrap]; split <;> simp
@[simp] theorem takeTrap_ctl (s : State) (c sl : Nat) (t : Team) (ti : TrapInfo) : (takeTrap s c sl t ti).ctl = s.ctl := by
  simp only [takeTrap]; split <;> simp

@[simp] theorem raiseTrap_agenda (s : State) (c sl : Nat) (t : Team) (ti : TrapInfo) : (raiseTrap s c sl t ti).agenda = s.agenda := by
  simp [raiseTrap]
@[simp] theorem raiseTrap_turn (s : State) (c sl : Nat) (t : Team) (ti : TrapInfo) : (raiseTrap s c sl t ti).turn = s.turn := by
  simp [raiseTrap]
@[simp] theorem raiseTrap_nextId (s : State) (c sl : Nat) (t : Team) (ti : TrapInfo) : (raiseTrap s c sl t ti).nextId = s.nextId := by
  simp [raiseTrap]
@[simp] theorem raiseTrap_mem (s : State) (c sl : Nat) (t : Team) (ti : TrapInfo) : (raiseTrap s c sl t ti).mem = s.mem := by
  simp [raiseTrap]
@[simp] theorem raiseTrap_wstore (s : State) (c sl : Nat) (t : Team) (ti : TrapInfo) : (raiseTrap s c sl t ti).wstore = s.wstore := by
  simp [raiseTrap]
@[simp] theorem raiseTrap_remote (s : State) (c sl : Nat) (t : Team) (ti : TrapInfo) : (raiseTrap s c sl t ti).remote = s.remote := by
  simp [raiseTrap]
@[simp] theorem raiseTrap_poison (s : State) (c sl : Nat) (t : Team) (ti : TrapInfo) : (raiseTrap s c sl t ti).poison = s.poison := by
  simp [raiseTrap]
@[simp] theorem raiseTrap_relRecs (s : State) (c sl : Nat) (t : Team) (ti : TrapInfo) : (raiseTrap s c sl t ti).relRecs = s.relRecs := by
  simp [raiseTrap]
@[simp] theorem raiseTrap_reqs (s : State) (c sl : Nat) (t : Team) (ti : TrapInfo) : (raiseTrap s c sl t ti).reqs = s.reqs := by
  simp [raiseTrap]
@[simp] theorem raiseTrap_slices (s : State) (c sl : Nat) (t : Team) (ti : TrapInfo) : (raiseTrap s c sl t ti).slices = s.slices := by
  simp [raiseTrap]
@[simp] theorem raiseTrap_deviceTlb (s : State) (c sl : Nat) (t : Team) (ti : TrapInfo) : (raiseTrap s c sl t ti).deviceTlb = s.deviceTlb := by
  simp [raiseTrap]
@[simp] theorem raiseTrap_ctl (s : State) (c sl : Nat) (t : Team) (ti : TrapInfo) : (raiseTrap s c sl t ti).ctl = s.ctl := by
  simp [raiseTrap]

@[simp] theorem reapWg_agenda (s : State) (c i : Nat) : (reapWg s c i).agenda = s.agenda := by
  simp only [reapWg]; split <;> rfl
@[simp] theorem reapWg_turn (s : State) (c i : Nat) : (reapWg s c i).turn = s.turn := by
  simp only [reapWg]; split <;> rfl
@[simp] theorem reapWg_nextId (s : State) (c i : Nat) : (reapWg s c i).nextId = s.nextId := by
  simp only [reapWg]; split <;> rfl
@[simp] theorem reapWg_mem (s : State) (c i : Nat) : (reapWg s c i).mem = s.mem := by
  simp only [reapWg]; split <;> rfl
@[simp] theorem reapWg_wstore (s : State) (c i : Nat) : (reapWg s c i).wstore = s.wstore := by
  simp only [reapWg]; split <;> rfl
@[simp] theorem reapWg_remote (s : State) (c i : Nat) : (reapWg s c i).remote = s.remote := by
  simp only [reapWg]; split <;> rfl
@[simp] theorem reapWg_poison (s : State) (c i : Nat) : (reapWg s c i).poison = s.poison := by
  simp only [reapWg]; split <;> rfl
@[simp] theorem reapWg_relRecs (s : State) (c i : Nat) : (reapWg s c i).relRecs = s.relRecs := by
  simp only [reapWg]; split <;> rfl
@[simp] theorem reapWg_reqs (s : State) (c i : Nat) : (reapWg s c i).reqs = s.reqs := by
  simp only [reapWg]; split <;> rfl
@[simp] theorem reapWg_slices (s : State) (c i : Nat) : (reapWg s c i).slices = s.slices := by
  simp only [reapWg]; split <;> rfl
@[simp] theorem reapWg_seqSlots (s : State) (c i : Nat) : (reapWg s c i).seqSlots = s.seqSlots := by
  simp only [reapWg]; split <;> rfl
@[simp] theorem reapWg_deviceTlb (s : State) (c i : Nat) : (reapWg s c i).deviceTlb = s.deviceTlb := by
  simp only [reapWg]; split <;> rfl
@[simp] theorem reapWg_ctl (s : State) (c i : Nat) : (reapWg s c i).ctl = s.ctl := by
  simp only [reapWg]; split <;> rfl
@[simp] theorem reapWg_ctxs (s : State) (c i : Nat) : (reapWg s c i).ctxs = s.ctxs := by
  simp only [reapWg]; split <;> rfl

@[simp] theorem reap_agenda (s : State) (c sl : Nat) : (reap s c sl).agenda = s.agenda := by
  unfold reap; repeat' split
  all_goals simp
@[simp] theorem reap_turn (s : State) (c sl : Nat) : (reap s c sl).turn = s.turn := by
  unfold reap; repeat' split
  all_goals simp
@[simp] theorem reap_nextId (s : State) (c sl : Nat) : (reap s c sl).nextId = s.nextId := by
  unfold reap; repeat' split
  all_goals simp
@[simp] theorem reap_mem (s : State) (c sl : Nat) : (reap s c sl).mem = s.mem := by
  unfold reap; repeat' split
  all_goals simp
@[simp] theorem reap_wstore (s : State) (c sl : Nat) : (reap s c sl).wstore = s.wstore := by
  unfold reap; repeat' split
  all_goals simp
@[simp] theorem reap_remote (s : State) (c sl : Nat) : (reap s c sl).remote = s.remote := by
  unfold reap; repeat' split
  all_goals simp
@[simp] theorem reap_poison (s : State) (c sl : Nat) : (reap s c sl).poison = s.poison := by
  unfold reap; repeat' split
  all_goals simp
@[simp] theorem reap_relRecs (s : State) (c sl : Nat) : (reap s c sl).relRecs = s.relRecs := by
  unfold reap; repeat' split
  all_goals simp
@[simp] theorem reap_reqs (s : State) (c sl : Nat) : (reap s c sl).reqs = s.reqs := by
  unfold reap; repeat' split
  all_goals simp
@[simp] theorem reap_slices (s : State) (c sl : Nat) : (reap s c sl).slices = s.slices := by
  unfold reap; repeat' split
  all_goals simp
@[simp] theorem reap_seqSlots (s : State) (c sl : Nat) : (reap s c sl).seqSlots = s.seqSlots := by
  unfold reap; repeat' split
  all_goals simp
@[simp] theorem reap_deviceTlb (s : State) (c sl : Nat) : (reap s c sl).deviceTlb = s.deviceTlb := by
  unfold reap; repeat' split
  all_goals simp
@[simp] theorem reap_ctl (s : State) (c sl : Nat) : (reap s c sl).ctl = s.ctl := by
  unfold reap; repeat' split
  all_goals simp
@[simp] theorem reap_ctxs (s : State) (c sl : Nat) : (reap s c sl).ctxs = s.ctxs := by
  unfold reap; repeat' split
  all_goals simp

@[simp] theorem endTeam_agenda (s : State) (c sl : Nat) (t : Team) : (endTeam s c sl t).agenda = s.agenda := by
  simp [endTeam]
@[simp] theorem endTeam_turn (s : State) (c sl : Nat) (t : Team) : (endTeam s c sl t).turn = s.turn := by
  simp [endTeam]
@[simp] theorem endTeam_nextId (s : State) (c sl : Nat) (t : Team) : (endTeam s c sl t).nextId = s.nextId := by
  simp [endTeam]
@[simp] theorem endTeam_mem (s : State) (c sl : Nat) (t : Team) : (endTeam s c sl t).mem = s.mem := by
  simp [endTeam]
@[simp] theorem endTeam_wstore (s : State) (c sl : Nat) (t : Team) : (endTeam s c sl t).wstore = s.wstore := by
  simp [endTeam]
@[simp] theorem endTeam_remote (s : State) (c sl : Nat) (t : Team) : (endTeam s c sl t).remote = s.remote := by
  simp [endTeam]
@[simp] theorem endTeam_poison (s : State) (c sl : Nat) (t : Team) : (endTeam s c sl t).poison = s.poison := by
  simp [endTeam]
@[simp] theorem endTeam_relRecs (s : State) (c sl : Nat) (t : Team) : (endTeam s c sl t).relRecs = s.relRecs := by
  simp [endTeam]
@[simp] theorem endTeam_reqs (s : State) (c sl : Nat) (t : Team) : (endTeam s c sl t).reqs = s.reqs := by
  simp [endTeam]
@[simp] theorem endTeam_slices (s : State) (c sl : Nat) (t : Team) : (endTeam s c sl t).slices = s.slices := by
  simp [endTeam]
@[simp] theorem endTeam_seqSlots (s : State) (c sl : Nat) (t : Team) : (endTeam s c sl t).seqSlots = s.seqSlots := by
  simp [endTeam]
@[simp] theorem endTeam_deviceTlb (s : State) (c sl : Nat) (t : Team) : (endTeam s c sl t).deviceTlb = s.deviceTlb := by
  simp [endTeam]
@[simp] theorem endTeam_ctl (s : State) (c sl : Nat) (t : Team) : (endTeam s c sl t).ctl = s.ctl := by
  simp [endTeam]

@[simp] theorem countForced_agenda (s : State) (c i : Nat) (y : Bool) : (countForced s c i y).agenda = s.agenda := by
  unfold countForced; split <;> simp
@[simp] theorem countForced_turn (s : State) (c i : Nat) (y : Bool) : (countForced s c i y).turn = s.turn := by
  unfold countForced; split <;> simp
@[simp] theorem countForced_nextId (s : State) (c i : Nat) (y : Bool) : (countForced s c i y).nextId = s.nextId := by
  unfold countForced; split <;> simp
@[simp] theorem countForced_mem (s : State) (c i : Nat) (y : Bool) : (countForced s c i y).mem = s.mem := by
  unfold countForced; split <;> simp
@[simp] theorem countForced_wstore (s : State) (c i : Nat) (y : Bool) : (countForced s c i y).wstore = s.wstore := by
  unfold countForced; split <;> simp
@[simp] theorem countForced_remote (s : State) (c i : Nat) (y : Bool) : (countForced s c i y).remote = s.remote := by
  unfold countForced; split <;> simp
@[simp] theorem countForced_poison (s : State) (c i : Nat) (y : Bool) : (countForced s c i y).poison = s.poison := by
  unfold countForced; split <;> simp
@[simp] theorem countForced_relRecs (s : State) (c i : Nat) (y : Bool) : (countForced s c i y).relRecs = s.relRecs := by
  unfold countForced; split <;> simp
@[simp] theorem countForced_reqs (s : State) (c i : Nat) (y : Bool) : (countForced s c i y).reqs = s.reqs := by
  unfold countForced; split <;> simp
@[simp] theorem countForced_slices (s : State) (c i : Nat) (y : Bool) : (countForced s c i y).slices = s.slices := by
  unfold countForced; split <;> simp
@[simp] theorem countForced_seqSlots (s : State) (c i : Nat) (y : Bool) : (countForced s c i y).seqSlots = s.seqSlots := by
  unfold countForced; split <;> simp
@[simp] theorem countForced_deviceTlb (s : State) (c i : Nat) (y : Bool) : (countForced s c i y).deviceTlb = s.deviceTlb := by
  unfold countForced; split <;> simp
@[simp] theorem countForced_ctl (s : State) (c i : Nat) (y : Bool) : (countForced s c i y).ctl = s.ctl := by
  unfold countForced; split <;> simp
@[simp] theorem countForced_ctxs (s : State) (c i : Nat) (y : Bool) : (countForced s c i y).ctxs = s.ctxs := by
  unfold countForced; split <;> simp

@[simp] theorem boundary_agenda (s : State) (c sl : Nat) (u : Team) (o : Bool) : (boundary s c sl u o).agenda = s.agenda := by
  simp only [boundary]; repeat' split
  all_goals simp
@[simp] theorem boundary_turn (s : State) (c sl : Nat) (u : Team) (o : Bool) : (boundary s c sl u o).turn = s.turn := by
  simp only [boundary]; repeat' split
  all_goals simp
@[simp] theorem boundary_nextId (s : State) (c sl : Nat) (u : Team) (o : Bool) : (boundary s c sl u o).nextId = s.nextId := by
  simp only [boundary]; repeat' split
  all_goals simp
@[simp] theorem boundary_mem (s : State) (c sl : Nat) (u : Team) (o : Bool) : (boundary s c sl u o).mem = s.mem := by
  simp only [boundary]; repeat' split
  all_goals simp
@[simp] theorem boundary_wstore (s : State) (c sl : Nat) (u : Team) (o : Bool) : (boundary s c sl u o).wstore = s.wstore := by
  simp only [boundary]; repeat' split
  all_goals simp
@[simp] theorem boundary_remote (s : State) (c sl : Nat) (u : Team) (o : Bool) : (boundary s c sl u o).remote = s.remote := by
  simp only [boundary]; repeat' split
  all_goals simp
@[simp] theorem boundary_poison (s : State) (c sl : Nat) (u : Team) (o : Bool) : (boundary s c sl u o).poison = s.poison := by
  simp only [boundary]; repeat' split
  all_goals simp
@[simp] theorem boundary_relRecs (s : State) (c sl : Nat) (u : Team) (o : Bool) : (boundary s c sl u o).relRecs = s.relRecs := by
  simp only [boundary]; repeat' split
  all_goals simp
@[simp] theorem boundary_reqs (s : State) (c sl : Nat) (u : Team) (o : Bool) : (boundary s c sl u o).reqs = s.reqs := by
  simp only [boundary]; repeat' split
  all_goals simp
@[simp] theorem boundary_slices (s : State) (c sl : Nat) (u : Team) (o : Bool) : (boundary s c sl u o).slices = s.slices := by
  simp only [boundary]; repeat' split
  all_goals simp
@[simp] theorem boundary_seqSlots (s : State) (c sl : Nat) (u : Team) (o : Bool) : (boundary s c sl u o).seqSlots = s.seqSlots := by
  simp only [boundary]; repeat' split
  all_goals simp
@[simp] theorem boundary_deviceTlb (s : State) (c sl : Nat) (u : Team) (o : Bool) : (boundary s c sl u o).deviceTlb = s.deviceTlb := by
  simp only [boundary]; repeat' split
  all_goals simp
@[simp] theorem boundary_ctl (s : State) (c sl : Nat) (u : Team) (o : Bool) : (boundary s c sl u o).ctl = s.ctl := by
  simp only [boundary]; repeat' split
  all_goals simp
@[simp] theorem boundary_ctxs (s : State) (c sl : Nat) (u : Team) (o : Bool) : (boundary s c sl u o).ctxs = s.ctxs := by
  simp only [boundary]; repeat' split
  all_goals simp

@[simp] theorem retire_agenda (s : State) (c sl : Nat) (pc : Word) (e a : Mask) (h : Head) (x b z : Bool) (g : Nat → Word) : (retire s c sl pc e a h x b z g).agenda = s.agenda := by
  unfold retire; split <;> simp
@[simp] theorem retire_turn (s : State) (c sl : Nat) (pc : Word) (e a : Mask) (h : Head) (x b z : Bool) (g : Nat → Word) : (retire s c sl pc e a h x b z g).turn = s.turn := by
  unfold retire; split <;> simp
@[simp] theorem retire_nextId (s : State) (c sl : Nat) (pc : Word) (e a : Mask) (h : Head) (x b z : Bool) (g : Nat → Word) : (retire s c sl pc e a h x b z g).nextId = s.nextId := by
  unfold retire; split <;> simp
@[simp] theorem retire_mem (s : State) (c sl : Nat) (pc : Word) (e a : Mask) (h : Head) (x b z : Bool) (g : Nat → Word) : (retire s c sl pc e a h x b z g).mem = s.mem := by
  unfold retire; split <;> simp
@[simp] theorem retire_wstore (s : State) (c sl : Nat) (pc : Word) (e a : Mask) (h : Head) (x b z : Bool) (g : Nat → Word) : (retire s c sl pc e a h x b z g).wstore = s.wstore := by
  unfold retire; split <;> simp
@[simp] theorem retire_remote (s : State) (c sl : Nat) (pc : Word) (e a : Mask) (h : Head) (x b z : Bool) (g : Nat → Word) : (retire s c sl pc e a h x b z g).remote = s.remote := by
  unfold retire; split <;> simp
@[simp] theorem retire_poison (s : State) (c sl : Nat) (pc : Word) (e a : Mask) (h : Head) (x b z : Bool) (g : Nat → Word) : (retire s c sl pc e a h x b z g).poison = s.poison := by
  unfold retire; split <;> simp
@[simp] theorem retire_relRecs (s : State) (c sl : Nat) (pc : Word) (e a : Mask) (h : Head) (x b z : Bool) (g : Nat → Word) : (retire s c sl pc e a h x b z g).relRecs = s.relRecs := by
  unfold retire; split <;> simp
@[simp] theorem retire_reqs (s : State) (c sl : Nat) (pc : Word) (e a : Mask) (h : Head) (x b z : Bool) (g : Nat → Word) : (retire s c sl pc e a h x b z g).reqs = s.reqs := by
  unfold retire; split <;> simp
@[simp] theorem retire_slices (s : State) (c sl : Nat) (pc : Word) (e a : Mask) (h : Head) (x b z : Bool) (g : Nat → Word) : (retire s c sl pc e a h x b z g).slices = s.slices := by
  unfold retire; split <;> simp
@[simp] theorem retire_seqSlots (s : State) (c sl : Nat) (pc : Word) (e a : Mask) (h : Head) (x b z : Bool) (g : Nat → Word) : (retire s c sl pc e a h x b z g).seqSlots = s.seqSlots := by
  unfold retire; split <;> simp
@[simp] theorem retire_deviceTlb (s : State) (c sl : Nat) (pc : Word) (e a : Mask) (h : Head) (x b z : Bool) (g : Nat → Word) : (retire s c sl pc e a h x b z g).deviceTlb = s.deviceTlb := by
  unfold retire; split <;> simp
@[simp] theorem retire_ctl (s : State) (c sl : Nat) (pc : Word) (e a : Mask) (h : Head) (x b z : Bool) (g : Nat → Word) : (retire s c sl pc e a h x b z g).ctl = s.ctl := by
  unfold retire; split <;> simp

@[simp] theorem holdTeam_agenda (s : State) (c sl : Nat) (h : Hold) : (holdTeam s c sl h).agenda = s.agenda := by
  unfold holdTeam; split <;> simp
@[simp] theorem holdTeam_turn (s : State) (c sl : Nat) (h : Hold) : (holdTeam s c sl h).turn = s.turn := by
  unfold holdTeam; split <;> simp
@[simp] theorem holdTeam_nextId (s : State) (c sl : Nat) (h : Hold) : (holdTeam s c sl h).nextId = s.nextId := by
  unfold holdTeam; split <;> simp
@[simp] theorem holdTeam_mem (s : State) (c sl : Nat) (h : Hold) : (holdTeam s c sl h).mem = s.mem := by
  unfold holdTeam; split <;> simp
@[simp] theorem holdTeam_wstore (s : State) (c sl : Nat) (h : Hold) : (holdTeam s c sl h).wstore = s.wstore := by
  unfold holdTeam; split <;> simp
@[simp] theorem holdTeam_remote (s : State) (c sl : Nat) (h : Hold) : (holdTeam s c sl h).remote = s.remote := by
  unfold holdTeam; split <;> simp
@[simp] theorem holdTeam_poison (s : State) (c sl : Nat) (h : Hold) : (holdTeam s c sl h).poison = s.poison := by
  unfold holdTeam; split <;> simp
@[simp] theorem holdTeam_relRecs (s : State) (c sl : Nat) (h : Hold) : (holdTeam s c sl h).relRecs = s.relRecs := by
  unfold holdTeam; split <;> simp
@[simp] theorem holdTeam_reqs (s : State) (c sl : Nat) (h : Hold) : (holdTeam s c sl h).reqs = s.reqs := by
  unfold holdTeam; split <;> simp
@[simp] theorem holdTeam_slices (s : State) (c sl : Nat) (h : Hold) : (holdTeam s c sl h).slices = s.slices := by
  unfold holdTeam; split <;> simp
@[simp] theorem holdTeam_seqSlots (s : State) (c sl : Nat) (h : Hold) : (holdTeam s c sl h).seqSlots = s.seqSlots := by
  unfold holdTeam; split <;> simp
@[simp] theorem holdTeam_deviceTlb (s : State) (c sl : Nat) (h : Hold) : (holdTeam s c sl h).deviceTlb = s.deviceTlb := by
  unfold holdTeam; split <;> simp
@[simp] theorem holdTeam_ctl (s : State) (c sl : Nat) (h : Hold) : (holdTeam s c sl h).ctl = s.ctl := by
  unfold holdTeam; split <;> simp

@[simp] theorem exitLanes_agenda (s : State) (c sl : Nat) (pc : Word) (e a : Mask) (h : Head) : (exitLanes s c sl pc e a h).agenda = s.agenda := by
  simp only [exitLanes]; repeat' split
  all_goals simp
@[simp] theorem exitLanes_turn (s : State) (c sl : Nat) (pc : Word) (e a : Mask) (h : Head) : (exitLanes s c sl pc e a h).turn = s.turn := by
  simp only [exitLanes]; repeat' split
  all_goals simp
@[simp] theorem exitLanes_nextId (s : State) (c sl : Nat) (pc : Word) (e a : Mask) (h : Head) : (exitLanes s c sl pc e a h).nextId = s.nextId := by
  simp only [exitLanes]; repeat' split
  all_goals simp
@[simp] theorem exitLanes_mem (s : State) (c sl : Nat) (pc : Word) (e a : Mask) (h : Head) : (exitLanes s c sl pc e a h).mem = s.mem := by
  simp only [exitLanes]; repeat' split
  all_goals simp
@[simp] theorem exitLanes_wstore (s : State) (c sl : Nat) (pc : Word) (e a : Mask) (h : Head) : (exitLanes s c sl pc e a h).wstore = s.wstore := by
  simp only [exitLanes]; repeat' split
  all_goals simp
@[simp] theorem exitLanes_remote (s : State) (c sl : Nat) (pc : Word) (e a : Mask) (h : Head) : (exitLanes s c sl pc e a h).remote = s.remote := by
  simp only [exitLanes]; repeat' split
  all_goals simp
@[simp] theorem exitLanes_poison (s : State) (c sl : Nat) (pc : Word) (e a : Mask) (h : Head) : (exitLanes s c sl pc e a h).poison = s.poison := by
  simp only [exitLanes]; repeat' split
  all_goals simp
@[simp] theorem exitLanes_relRecs (s : State) (c sl : Nat) (pc : Word) (e a : Mask) (h : Head) : (exitLanes s c sl pc e a h).relRecs = s.relRecs := by
  simp only [exitLanes]; repeat' split
  all_goals simp
@[simp] theorem exitLanes_reqs (s : State) (c sl : Nat) (pc : Word) (e a : Mask) (h : Head) : (exitLanes s c sl pc e a h).reqs = s.reqs := by
  simp only [exitLanes]; repeat' split
  all_goals simp
@[simp] theorem exitLanes_slices (s : State) (c sl : Nat) (pc : Word) (e a : Mask) (h : Head) : (exitLanes s c sl pc e a h).slices = s.slices := by
  simp only [exitLanes]; repeat' split
  all_goals simp
@[simp] theorem exitLanes_seqSlots (s : State) (c sl : Nat) (pc : Word) (e a : Mask) (h : Head) : (exitLanes s c sl pc e a h).seqSlots = s.seqSlots := by
  simp only [exitLanes]; repeat' split
  all_goals simp
@[simp] theorem exitLanes_deviceTlb (s : State) (c sl : Nat) (pc : Word) (e a : Mask) (h : Head) : (exitLanes s c sl pc e a h).deviceTlb = s.deviceTlb := by
  simp only [exitLanes]; repeat' split
  all_goals simp
@[simp] theorem exitLanes_ctl (s : State) (c sl : Nat) (pc : Word) (e a : Mask) (h : Head) : (exitLanes s c sl pc e a h).ctl = s.ctl := by
  simp only [exitLanes]; repeat' split
  all_goals simp

@[simp] theorem retireHold_agenda (s : State) (c sl : Nat) : (retireHold s c sl).agenda = s.agenda := by
  simp only [retireHold]; repeat' split
  all_goals simp
@[simp] theorem retireHold_turn (s : State) (c sl : Nat) : (retireHold s c sl).turn = s.turn := by
  simp only [retireHold]; repeat' split
  all_goals simp
@[simp] theorem retireHold_nextId (s : State) (c sl : Nat) : (retireHold s c sl).nextId = s.nextId := by
  simp only [retireHold]; repeat' split
  all_goals simp
@[simp] theorem retireHold_mem (s : State) (c sl : Nat) : (retireHold s c sl).mem = s.mem := by
  simp only [retireHold]; repeat' split
  all_goals simp
@[simp] theorem retireHold_wstore (s : State) (c sl : Nat) : (retireHold s c sl).wstore = s.wstore := by
  simp only [retireHold]; repeat' split
  all_goals simp
@[simp] theorem retireHold_remote (s : State) (c sl : Nat) : (retireHold s c sl).remote = s.remote := by
  simp only [retireHold]; repeat' split
  all_goals simp
@[simp] theorem retireHold_poison (s : State) (c sl : Nat) : (retireHold s c sl).poison = s.poison := by
  simp only [retireHold]; repeat' split
  all_goals simp
@[simp] theorem retireHold_relRecs (s : State) (c sl : Nat) : (retireHold s c sl).relRecs = s.relRecs := by
  simp only [retireHold]; repeat' split
  all_goals simp
@[simp] theorem retireHold_reqs (s : State) (c sl : Nat) : (retireHold s c sl).reqs = s.reqs := by
  simp only [retireHold]; repeat' split
  all_goals simp
@[simp] theorem retireHold_slices (s : State) (c sl : Nat) : (retireHold s c sl).slices = s.slices := by
  simp only [retireHold]; repeat' split
  all_goals simp
@[simp] theorem retireHold_seqSlots (s : State) (c sl : Nat) : (retireHold s c sl).seqSlots = s.seqSlots := by
  simp only [retireHold]; repeat' split
  all_goals simp
@[simp] theorem retireHold_deviceTlb (s : State) (c sl : Nat) : (retireHold s c sl).deviceTlb = s.deviceTlb := by
  simp only [retireHold]; repeat' split
  all_goals simp
@[simp] theorem retireHold_ctl (s : State) (c sl : Nat) : (retireHold s c sl).ctl = s.ctl := by
  simp only [retireHold]; repeat' split
  all_goals simp

/-! ### Reading back -/

theorem getCore_setCore (s : State) (c j : Nat) (k : Core) : getCore (setCore s c k) j = if j = c then k else getCore s j :=
  ngetD_nset default s.cores c j k
@[simp] theorem getCore_setCore_same (s : State) (c : Nat) (k : Core) : getCore (setCore s c k) c = k := by
  simp [getCore_setCore]
theorem getCore_updCore (s : State) (c j : Nat) (f : Core → Core) :
    getCore (updCore s c f) j = if j = c then f (getCore s c) else getCore s j := getCore_setCore s c j _
@[simp] theorem getCore_updCore_same (s : State) (c : Nat) (f : Core → Core) : getCore (updCore s c f) c = f (getCore s c) := by
  simp [getCore_updCore]
theorem getTeam_setTeam (s : State) (c t d u : Nat) (x : Team) :
    getTeam (setTeam s c t x) d u = if d = c ∧ u = t then some x else getTeam s d u := by
  unfold getTeam setTeam
  rw [getCore_updCore]
  by_cases hd : d = c
  · subst hd; simp only [if_true, nget_nset, true_and]
  · simp [hd]
@[simp] theorem getTeam_setTeam_same (s : State) (c t : Nat) (x : Team) : getTeam (setTeam s c t x) c t = some x := by
  simp [getTeam_setTeam]
/-- An update of a core that keeps its teams. -/
theorem getTeam_updCore (s : State) (c d u : Nat) (f : Core → Core) (h : (f (getCore s c)).teams = (getCore s c).teams) :
    getTeam (updCore s c f) d u = getTeam s d u := by
  unfold getTeam
  rw [getCore_updCore]
  split
  · rename_i e; subst e; rw [h]
  · rfl
@[simp] theorem getTeam_setISlot (s : State) (c i d u : Nat) (x : IssueSlot) :
    getTeam (setISlot s c i x) d u = getTeam s d u := getTeam_updCore s c d u _ rfl
@[simp] theorem getTeam_setCtx (s : State) (x : Nat) (k : Ctx) (d u : Nat) : getTeam (setCtx s x k) d u = getTeam s d u := rfl
@[simp] theorem getTeam_updCtx (s : State) (x : Nat) (f : Ctx → Ctx) (d u : Nat) : getTeam (updCtx s x f) d u = getTeam s d u := rfl
@[simp] theorem getTeam_pulse (s : State) (x d u : Nat) : getTeam (pulse s x) d u = getTeam s d u := rfl
@[simp] theorem getTeam_tally (s : State) (b w n d u : Nat) : getTeam (tally s b w n) d u = getTeam s d u := by
  unfold getTeam getCore; rw [tally_cores]
theorem getCtx_setCtx (s : State) (x y : Nat) (k : Ctx) : getCtx (setCtx s x k) y = if y = x then k else getCtx s y :=
  ngetD_nset _ s.ctxs x y k
@[simp] theorem getCtx_setCore (s : State) (c x : Nat) (k : Core) : getCtx (setCore s c k) x = getCtx s x := rfl
@[simp] theorem getCtx_setTeam (s : State) (c t x : Nat) (k : Team) : getCtx (setTeam s c t k) x = getCtx s x := rfl
@[simp] theorem getCtx_setISlot (s : State) (c i x : Nat) (k : IssueSlot) : getCtx (setISlot s c i k) x = getCtx s x := rfl
@[simp] theorem getCtx_updCore (s : State) (c x : Nat) (f : Core → Core) : getCtx (updCore s c f) x = getCtx s x := rfl
@[simp] theorem getCtx_tally (s : State) (b w n x : Nat) : getCtx (tally s b w n) x = getCtx s x := by
  unfold getCtx; rw [tally_ctxs]

/-! ### Registers -/

theorem getV_setV (t : Team) (n l m k : Nat) (e : Elem) :
    getV (setV t n l e) m k = if 32 * m + k = 32 * n + l then e else getV t m k := ngetD_nsetD _ t.v _ _ e
@[simp] theorem getV_setV_same (t : Team) (n l : Nat) (e : Elem) : getV (setV t n l e) n l = e := by simp [getV_setV]
theorem getV_setV_other (t : Team) {n l m k : Nat} (e : Elem) (hl : l < 32) (hk : k < 32) (h : m ≠ n ∨ k ≠ l) :
    getV (setV t n l e) m k = getV t m k := by
  rw [getV_setV, if_neg (by omega)]
theorem getS_setS (t : Team) (n m : Nat) (e : SElem) : getS (setS t n e) m = if m = n then e else getS t m := ngetD_nsetD _ t.s n m e
@[simp] theorem getS_setS_same (t : Team) (n : Nat) (e : SElem) : getS (setS t n e) n = e := by simp [getS_setS]
@[simp] theorem getS_setV (t : Team) (n l m : Nat) (e : Elem) : getS (setV t n l e) m = getS t m := rfl
@[simp] theorem getP_setV (t : Team) (n l m : Nat) (e : Elem) : getP (setV t n l e) m = getP t m := rfl
@[simp] theorem getV_setS (t : Team) (n m k : Nat) (e : SElem) : getV (setS t n e) m k = getV t m k := rfl
@[simp] theorem getP_setS (t : Team) (n m : Nat) (e : SElem) : getP (setS t n e) m = getP t m := rfl
@[simp] theorem getV_setPBit (t : Team) (n l m k : Nat) (v f : Bool) : getV (setPBit t n l v f) m k = getV t m k := by
  unfold setPBit; split <;> rfl
@[simp] theorem getS_setPBit (t : Team) (n l m : Nat) (v f : Bool) : getS (setPBit t n l v f) m = getS t m := by
  unfold setPBit; split <;> rfl
/-- p7 reads true and full (R26). -/
@[simp] theorem getP_seven (t : Team) : getP t 7 = ⟨BitVec.allOnes 32, BitVec.allOnes 32⟩ := rfl
/-- A write to p7 is discarded (R26). -/
@[simp] theorem setPBit_seven (t : Team) (l : Nat) (v f : Bool) : setPBit t 7 l v f = t := rfl
theorem getP_setPBit_other (t : Team) {n l m : Nat} (v f : Bool) (h : m ≠ n) : getP (setPBit t n l v f) m = getP t m := by
  unfold setPBit
  split
  · rfl
  · simp only [getP]
    split
    · rfl
    · rw [ngetD_nsetD, if_neg h]

end Sys2Proof.Laws
end

