-- ==== Sys2Proof/Laws/Issue.lean ====
section
/-! SUPPORT. One instruction from guard to advance (R37): what `issue` answers for a team that can issue, what the write-back of
a result does to registers, and what step 8 leaves. -/

namespace Sys2Proof.Laws

open Sys2Proof.Machine Sys2Proof.Safety

/-! ### Entry and gate -/

section entry
variable (t : Team) (b : Bool) (pc : Word) (r : Bool)
@[simp] theorem enterRegion_halted : (enterRegion t b pc r).halted = t.halted := by unfold enterRegion; split; rfl; split <;> rfl
@[simp] theorem enterRegion_hold : (enterRegion t b pc r).hold = t.hold := by unfold enterRegion; split; rfl; split <;> rfl
@[simp] theorem enterRegion_trap : (enterRegion t b pc r).trap = t.trap := by unfold enterRegion; split; rfl; split <;> rfl
@[simp] theorem enterRegion_live : (enterRegion t b pc r).live = t.live := by unfold enterRegion; split; rfl; split <;> rfl
@[simp] theorem enterRegion_lpc : (enterRegion t b pc r).lpc = t.lpc := by unfold enterRegion; split; rfl; split <;> rfl
@[simp] theorem enterRegion_v : (enterRegion t b pc r).v = t.v := by unfold enterRegion; split; rfl; split <;> rfl
@[simp] theorem enterRegion_s : (enterRegion t b pc r).s = t.s := by unfold enterRegion; split; rfl; split <;> rfl
@[simp] theorem enterRegion_p : (enterRegion t b pc r).p = t.p := by unfold enterRegion; split; rfl; split <;> rfl
@[simp] theorem enterRegion_ctx : (enterRegion t b pc r).ctx = t.ctx := by unfold enterRegion; split; rfl; split <;> rfl
@[simp] theorem enterRegion_seq : (enterRegion t b pc r).seq = t.seq := by unfold enterRegion; split; rfl; split <;> rfl
@[simp] theorem enterRegion_lvl : (enterRegion t b pc r).lvl = t.lvl := by unfold enterRegion; split; rfl; split <;> rfl
@[simp] theorem enterRegion_wg : (enterRegion t b pc r).wg = t.wg := by unfold enterRegion; split; rfl; split <;> rfl
@[simp] theorem enterRegion_tid : (enterRegion t b pc r).tid = t.tid := by unfold enterRegion; split; rfl; split <;> rfl
@[simp] theorem enterRegion_alloc : (enterRegion t b pc r).alloc = t.alloc := by unfold enterRegion; split; rfl; split <;> rfl
@[simp] theorem enterRegion_bufs : (enterRegion t b pc r).bufs = t.bufs := by unfold enterRegion; split; rfl; split <;> rfl
@[simp] theorem enterRegion_saved : (enterRegion t b pc r).saved = t.saved := by unfold enterRegion; split; rfl; split <;> rfl
@[simp] theorem enterRegion_steps : (enterRegion t b pc r).steps = t.steps := by unfold enterRegion; split; rfl; split <;> rfl
@[simp] theorem enterRegion_heldRegs : (enterRegion t b pc r).heldRegs = t.heldRegs := by unfold enterRegion; split; rfl; split <;> rfl
@[simp] theorem enterRegion_trapen : (enterRegion t b pc r).trapen = t.trapen := by unfold enterRegion; split; rfl; split <;> rfl
@[simp] theorem enterRegion_sigmin : (enterRegion t b pc r).sigmin = t.sigmin := by unfold enterRegion; split; rfl; split <;> rfl
end entry

/-- The executing lanes depend on the live lanes and `lpc` alone. -/
theorem executing_congr {t u : Team} (h1 : u.live = t.live) (h2 : u.lpc = t.lpc) : executing u = executing t := by
  unfold executing issueAddr getLpc; rw [h1, h2]
theorem issueAddr_congr {t u : Team} (h1 : u.live = t.live) (h2 : u.lpc = t.lpc) : issueAddr u = issueAddr t := by
  unfold issueAddr getLpc; rw [h1, h2]
@[simp] theorem executing_entered (s : State) (t : Team) (h : Head) : executing (entered s t h) = executing t :=
  executing_congr (enterRegion_live ..) (enterRegion_lpc ..)
@[simp] theorem issueAddr_entered (s : State) (t : Team) (h : Head) : issueAddr (entered s t h) = issueAddr t :=
  issueAddr_congr (enterRegion_live ..) (enterRegion_lpc ..)

theorem inMask_and (a b : Mask) (l : Nat) : inMask (a &&& b) l = (inMask a l && inMask b l) := by simp [inMask]

/-- Active lanes execute. -/
theorem active_executing {t : Team} {h : Head} {l : Nat} (hl : inMask (active t h) l = true) : inMask (executing t) l = true := by
  unfold active at hl
  rw [inMask_and, Bool.and_eq_true] at hl
  exact hl.1

/-- What `issue` answers for a team that can issue: its body decides. -/
theorem issue_eq {s : State} {c sl : Nat} {t : Team} {h : Head} (ci : CanIssue s c sl t h) {legal closes : Bool}
    {dyn : State → Nat → Team → Bool} (body : Issue → Res) (hl : legal = true) (hd : dyn s c t = true) :
    issue h legal closes dyn body s =
      (match body (issueOf s c sl t h) with
       | .wait => .next (waitTeam s c sl t)
       | .waitWith s' => .next (waitTeam s' c sl { t with posted := true })
       | .trap ti => .next (raiseTrap (setTeam s c sl (entered s t h)) c sl (entered s t h) ti)
       | .go s' => .next (retired (issueOf s c sl t h) closes s')
       | .jump s' tgt => .next (retire s' c sl (issueAddr t) (executing t) (active t h) h closes true false tgt)
       | .hold s' k => .next (holdTeam s' c sl ⟨k, s.nextId, issueAddr t, executing t, active t h, h, closes, []⟩)
       | .exit s' => .next (exitLanes s' c sl (issueAddr t) (executing t) (active t h) h)
       | .halt s' => .next (match getTeam s' c sl with
           | some u => retire (setTeam s' c sl { u with halted := true, steps := none }) c sl (issueAddr t) (executing t) 0 h false false true
               (fun _ => issueAddr t + 1)
           | none => s')
       | .stop s' => .next (match getTeam s' c sl with
           | some u => retire (setTeam s' c sl { u with halted := true, steps := none }) c sl (issueAddr t) (executing t) 0 h false false false
               (fun _ => issueAddr t + 1)
           | none => s')
       | .eret s' => .next (match getTeam s' c sl with
           | some u => boundary (pulse s' u.ctx) c sl (stepDone (issued u s'.clock h)) true
           | none => s')
       | .after s' ti => .next (match getTeam (retired (issueOf s c sl t h) closes s') c sl with
           | some u => takeTrap (retired (issueOf s c sl t h) closes s') c sl u ti
           | none => retired (issueOf s c sl t h) closes s')) := by
  have h1 : (t.live == 0) = false := by simpa using ci.live
  have hs : atStop t = false ∧ atStop (enterRegion t (getCtx s t.ctx).debug (issueAddr t) h.rgn) = false := ci.noStop
  have ha : ¬ executing t &&& (if h.gn then ~~~ (getP t h.gp.toNat).val else (getP t h.gp.toNat).val) = 0 := ci.some
  unfold issue
  rw [ci.turn]
  simp only [ci.running, ci.free, ci.noTrap, h1, hl, hd, hs.1, hs.2, Option.isSome_none, Bool.or_false, Bool.false_eq_true,
    if_false, Bool.and_true, Bool.not_true, bne_iff_ne, ne_eq, ci.guardFull, not_true_eq_false, if_neg ha]
  rfl

/-- An illegal word, or one that names what its team does not have, takes trap cause 1 (R37 step 1). -/
theorem issue_illegal {s : State} {c sl : Nat} {t : Team} {h : Head} {legal closes : Bool} {dyn : State → Nat → Team → Bool}
    (body : Issue → Res) (hc : curTeam s = some (c, sl, t)) (hr : t.halted = false) (hh : t.hold = none) (ht : t.trap = none)
    (hv : t.live ≠ 0) (hl : (legal && dyn s c t) = false) :
    issue h legal closes dyn body s = .next (raiseTrap s c sl t { trapAt 1 (issueAddr t) (executing t) with rgn := h.rgn && !t.closed }) := by
  have h1 : (t.live == 0) = false := by simpa using hv
  unfold issue
  rw [hc]
  simp only [hr, hh, ht, h1, hl, Option.isSome_none, Bool.or_false, Bool.false_eq_true, if_false, Bool.not_false, if_true]

/-- Ready sources and destinations pass steps 3 and 4. -/
theorem gate_ready {i : Issue} {srcs : List Rd} {dsts : List (Opd × Bool)} (h : Ready i srcs dsts) : gate i srcs dsts = none := by
  have h1 : (srcs.find? fun r => r.e && (lanesOf i.act).any fun l => !(r.at_ l).full) = none := by
    rw [List.find?_eq_none]
    intro r hr
    have : ((lanesOf i.act).any fun l => !(r.at_ l).full) = false := by
      rw [List.any_eq_false]
      intro l hl
      simp [h.src r hr l hl]
    simp [this]
  have h2 : (srcs.any fun r => !r.e && (lanesOf i.act).any fun l => !(r.at_ l).full) = false := by
    rw [List.any_eq_false]
    intro r hr
    have : ((lanesOf i.act).any fun l => !(r.at_ l).full) = false := by
      rw [List.any_eq_false]
      intro l hl
      simp [h.src r hr l hl]
    simp [this]
  have h3 : (dsts.any fun d => (lanesOf i.act).any fun l => !dstFree i.t d.1 d.2 l) = false := by
    rw [List.any_eq_false]
    intro d hd
    have : ((lanesOf i.act).any fun l => !dstFree i.t d.1 d.2 l) = false := by
      rw [List.any_eq_false]
      intro l hl
      simp [h.dst d hd l hl]
    simp [this]
  unfold gate
  simp only [h1, h2, h3, Bool.or_self, Bool.false_eq_true, if_false]

end Sys2Proof.Laws
end

