-- ==== Sys2Proof/Laws/Registers.lean ====
section
/-! SUPPORT. What the write-back of a result does to the registers of a team (R24 to R27, R37 step 7), and what step 8 leaves of
a state (R37, R165). -/

namespace Sys2Proof.Laws

open Sys2Proof.Machine Sys2Proof.Safety

/-! ### One element -/

theorem putOpd_v (t : Team) (k : BitVec 8) (pair : Bool) (l : Nat) (x : DWord) (g : Tag) (n m : Nat) (hl : l < 32) (hm : m < 32)
    (h : (namesV (.v k) pair n && m == l) = false) : getV (putOpd t (.v k) pair l x g) n m = getV t n m := by
  unfold putOpd
  simp only [namesV, Bool.and_eq_false_iff, Bool.or_eq_false_iff, beq_eq_false_iff_ne] at h
  cases pair
  · simp only [Bool.false_eq_true, if_false, getV_setV]
    rw [if_neg (by simp at h; omega)]
  · simp only [if_true, getV_setV]
    rw [if_neg (by simp at h; omega), if_neg (by simp at h; omega)]

section fields
variable (t : Team) (d : Opd) (pair : Bool) (l : Nat) (x : DWord) (g : Tag)
theorem setPBit_only (n l : Nat) (v f : Bool) : ∃ p, setPBit t n l v f = { t with p := p } := by
  unfold setPBit; split
  · exact ⟨t.p, rfl⟩
  · exact ⟨_, rfl⟩
/-- A result changes registers and nothing else of a team. -/
theorem putOpd_only : ∃ v s p, putOpd t d pair l x g = { t with v := v, s := s, p := p } := by
  cases d with
  | v n => cases pair <;> exact ⟨_, t.s, t.p, rfl⟩
  | s n => exact ⟨t.v, _, t.p, rfl⟩
  | p n =>
    obtain ⟨p, h⟩ := setPBit_only t n.toNat l (x != 0) true
    exact ⟨t.v, t.s, p, h⟩
  | lpc => exact ⟨t.v, t.s, t.p, rfl⟩
  | c n => exact ⟨t.v, t.s, t.p, rfl⟩
  | x n => exact ⟨t.v, t.s, t.p, rfl⟩
/-- So does a mark of its F/E bit. -/
theorem markOpd_only (f : Bool) : ∃ v s p, markOpd t d pair l f = { t with v := v, s := s, p := p } := by
  cases d with
  | v n => cases pair <;> exact ⟨_, t.s, t.p, rfl⟩
  | s n => exact ⟨t.v, _, t.p, rfl⟩
  | p n =>
    obtain ⟨p, h⟩ := setPBit_only t n.toNat l (inMask (getP t n.toNat).val l) f
    exact ⟨t.v, t.s, p, h⟩
  | lpc => exact ⟨t.v, t.s, t.p, rfl⟩
  | c n => exact ⟨t.v, t.s, t.p, rfl⟩
  | x n => exact ⟨t.v, t.s, t.p, rfl⟩
end fields

/-- Lane `m` of a mask with lane `l` put to `b`. -/
theorem inMask_put (x : Mask) (l m : Nat) (b : Bool) (hl : l < 32) (hm : m < 32) :
    inMask (if b then x ||| (1#32 <<< l) else x &&& ~~~ (1#32 <<< l)) m = if m = l then b else inMask x m := by
  have hb : (1#32 <<< l).getLsbD m = decide (m = l) := by
    rw [BitVec.getLsbD_shiftLeft, BitVec.getLsbD_one]
    by_cases e : m = l
    · subst e; simp [hm]
    · by_cases h : m < l
      · simp [h, e]
      · have : ¬ (m - l = 0) := by omega
        simp [this, e]
  unfold inMask
  cases b
  · simp only [Bool.false_eq_true, if_false, BitVec.getLsbD_and, BitVec.getLsbD_not, hb, hm, decide_true, Bool.true_and]
    by_cases e : m = l <;> simp [e]
  · simp only [if_true, BitVec.getLsbD_or, hb]
    by_cases e : m = l <;> simp [e]

theorem getP_setPBit (t : Team) (n l m : Nat) (v f : Bool) (hn : n ≠ 7) (hl : l < 32) (hm : m < 32) :
    inMask (getP (setPBit t n l v f) n).val m = (if m = l then v else inMask (getP t n).val m) ∧
    inMask (getP (setPBit t n l v f) n).full m = (if m = l then f else inMask (getP t n).full m) := by
  have e : getP (setPBit t n l v f) n = ⟨if v then (getP t n).val ||| (1#32 <<< l) else (getP t n).val &&& ~~~ (1#32 <<< l),
      if f then (getP t n).full ||| (1#32 <<< l) else (getP t n).full &&& ~~~ (1#32 <<< l)⟩ := by
    unfold setPBit
    rw [if_neg hn]
    show getP _ n = _
    conv_lhs => unfold getP
    rw [if_neg hn, ngetD_nsetD, if_pos rfl]
    rfl
  rw [e]
  exact ⟨inMask_put _ l m v hl hm, inMask_put _ l m f hl hm⟩

/-- Frame of one element: all but element `l` of `d`. -/
theorem putOpd_frame (t : Team) (d : Opd) (pair : Bool) (l : Nat) (x : DWord) (g : Tag) (hl : l < 32) (m : Mask)
    (hin : inMask m l = true) : SameRegs t (putOpd t d pair l x g) d pair m := by
  constructor
  · intro n k hk h
    cases d with
    | v q =>
      apply putOpd_v t q pair l x g n k hl hk
      by_cases e : k = l
      · subst e; simp only [hin, Bool.and_true] at h; simp [h]
      · simp [e]
    | p q => simp [putOpd]
    | s q => simp [putOpd]
    | lpc => rfl
    | c q => rfl
    | x q => rfl
  · intro n h
    cases d with
    | s q =>
      simp only [namesS, beq_eq_false_iff_ne] at h
      simp [putOpd, getS_setS, h]
    | v q => cases pair <;> simp [putOpd]
    | p q => simp [putOpd]
    | lpc => rfl
    | c q => rfl
    | x q => rfl
  · intro n k hk h
    cases d with
    | p q =>
      simp only [putOpd]
      by_cases e : n = q.toNat
      · subst e
        by_cases h7 : q.toNat = 7
        · rw [h7]; simp
        · have hkl : k ≠ l := by
            intro e
            subst e
            simp [namesP, hin] at h
          obtain ⟨h1, h2⟩ := getP_setPBit t q.toNat l k (x != 0) true h7 hl hk
          rw [h1, h2, if_neg hkl, if_neg hkl]
          exact ⟨rfl, rfl⟩
      · rw [getP_setPBit_other _ _ _ e]; exact ⟨rfl, rfl⟩
    | v q => cases pair <;> simp [putOpd]
    | s q => simp [putOpd]
    | lpc => exact ⟨rfl, rfl⟩
    | c q => exact ⟨rfl, rfl⟩
    | x q => exact ⟨rfl, rfl⟩

theorem markOpd_frame (t : Team) (d : Opd) (pair : Bool) (l : Nat) (f : Bool) (hl : l < 32) (m : Mask)
    (hin : inMask m l = true) : SameRegs t (markOpd t d pair l f) d pair m := by
  constructor
  · intro n k hk h
    cases d with
    | v q =>
      have hne : (namesV (.v q) pair n && k == l) = false := by
        by_cases e : k = l
        · subst e; simp only [hin, Bool.and_true] at h; simp [h]
        · simp [e]
      simp only [namesV, Bool.and_eq_false_iff, Bool.or_eq_false_iff, beq_eq_false_iff_ne] at hne
      unfold markOpd
      cases pair
      · simp only [Bool.false_eq_true, if_false, getV_setV]
        rw [if_neg (by simp at hne; omega)]
      · simp only [if_true, getV_setV]
        rw [if_neg (by simp at hne; omega), if_neg (by simp at hne; omega)]
    | p q => simp [markOpd]
    | s q => simp [markOpd]
    | lpc => rfl
    | c q => rfl
    | x q => rfl
  · intro n h
    cases d with
    | s q =>
      simp only [namesS, beq_eq_false_iff_ne] at h
      simp [markOpd, getS_setS, h]
    | v q => cases pair <;> simp [markOpd]
    | p q => simp [markOpd]
    | lpc => rfl
    | c q => rfl
    | x q => rfl
  · intro n k hk h
    cases d with
    | p q =>
      simp only [markOpd]
      by_cases e : n = q.toNat
      · subst e
        by_cases h7 : q.toNat = 7
        · rw [h7]; simp
        · have hkl : k ≠ l := by
            intro e
            subst e
            simp [namesP, hin] at h
          obtain ⟨h1, h2⟩ := getP_setPBit t q.toNat l k (inMask (getP t q.toNat).val l) f h7 hl hk
          rw [h1, h2, if_neg hkl, if_neg hkl]
          exact ⟨rfl, rfl⟩
      · rw [getP_setPBit_other _ _ _ e]; exact ⟨rfl, rfl⟩
    | v q => cases pair <;> simp [markOpd]
    | s q => simp [markOpd]
    | lpc => exact ⟨rfl, rfl⟩
    | c q => exact ⟨rfl, rfl⟩
    | x q => exact ⟨rfl, rfl⟩

theorem sameRegs_refl (t : Team) (d : Opd) (pair : Bool) (m : Mask) : SameRegs t t d pair m :=
  ⟨fun _ _ _ _ => rfl, fun _ _ => rfl, fun _ _ _ _ => ⟨rfl, rfl⟩⟩
theorem sameRegs_trans {t u w : Team} {d : Opd} {pair : Bool} {m : Mask} (h : SameRegs t u d pair m) (k : SameRegs u w d pair m) :
    SameRegs t w d pair m :=
  ⟨fun n l hl hn => (k.v n l hl hn).trans (h.v n l hl hn), fun n hn => (k.s n hn).trans (h.s n hn),
   fun n l hl hn => ⟨(k.p n l hl hn).1.trans (h.p n l hl hn).1, (k.p n l hl hn).2.trans (h.p n l hl hn).2⟩⟩
/-- A team with the same register maps. -/
theorem sameRegs_of_eq {t u : Team} (d : Opd) (pair : Bool) (m : Mask) (hv : u.v = t.v) (hs : u.s = t.s) (hp : u.p = t.p) :
    SameRegs t u d pair m := by
  refine ⟨fun n l _ _ => ?_, fun n _ => ?_, fun n l _ _ => ?_⟩
  · unfold getV; rw [hv]
  · unfold getS; rw [hs]
  · unfold getP; rw [hp]; exact ⟨rfl, rfl⟩

theorem inMask_maskOf_all {l : Nat} (hl : l < 32) : inMask (4294967295#32) l = true := by
  have : (4294967295#32) = BitVec.allOnes 32 := by decide
  rw [this, inMask, BitVec.getLsbD_allOnes]
  simpa using hl
/-- What a destination element reads as after its write. -/
theorem rdOpd_putOpd_same (s : State) (t : Team) (d : Opd) (pair : Bool) (l : Nat) (x : DWord) (g : Tag) (hl : l < 32)
    (hd : isReg d = true) : rdOpd s (putOpd t d pair l x g) d pair l = written d pair x g := by
  cases d with
  | v n =>
    unfold putOpd rdOpd written
    cases pair
    · simp [getV_setV]
    · simp only [if_true, getPair, getV_setV]
      have h1 : ¬ (32 * n.toNat + l = 32 * (n.toNat + 1) + l) := by omega
      simp only [h1, if_false, if_true, Bool.and_self]
      congr 1
      apply BitVec.eq_of_toNat_eq
      simp only [BitVec.toNat_ofNat, BitVec.toNat_setWidth, BitVec.toNat_ushiftRight, Nat.shiftRight_eq_div_pow]
      have := x.isLt
      omega
  | s n => cases pair <;> simp [putOpd, rdOpd, written, getS_setS]
  | p n =>
    simp only [putOpd, rdOpd, written]
    by_cases h7 : n.toNat = 7
    · have hb : inMask (4294967295#32) l = true := inMask_maskOf_all hl
      simp [h7, hb]
    · obtain ⟨h1, h2⟩ := getP_setPBit t n.toNat l l (x != 0) true h7 hl hl
      simp only [h1, h2, if_true, if_neg h7]
  | lpc => simp [isReg] at hd
  | c n => simp [isReg] at hd
  | x n => simp [isReg] at hd

/-! ### All active lanes -/

theorem foldLanes_only {m : Mask} {f : Team → Nat → Team} (h : ∀ t l, ∃ v s p, f t l = { t with v := v, s := s, p := p }) (t : Team) :
    ∃ v s p, foldLanes m f t = { t with v := v, s := s, p := p } := by
  unfold foldLanes
  generalize lanesOf m = ls
  induction ls generalizing t with
  | nil => exact ⟨t.v, t.s, t.p, rfl⟩
  | cons a rest ih =>
    obtain ⟨v, s, p, e⟩ := h t a
    obtain ⟨v', s', p', e'⟩ := ih (f t a)
    rw [List.foldl_cons, e', e]
    exact ⟨v', s', p', rfl⟩

/-- Results change registers and nothing else of a team. -/
theorem putLanes_only (t : Team) (d : Opd) (pair : Bool) (m : Mask) (val : Nat → DWord) (tag : Nat → Tag) :
    ∃ v s p, putLanes t d pair m val tag = { t with v := v, s := s, p := p } := by
  unfold putLanes
  split
  · split
    · exact ⟨t.v, t.s, t.p, rfl⟩
    · exact putOpd_only ..
  · exact foldLanes_only (fun t l => putOpd_only t d pair l (val l) (tag l)) t
theorem markLanes_only (t : Team) (d : Opd) (pair : Bool) (m : Mask) (f : Bool) :
    ∃ v s p, markLanes t d pair m f = { t with v := v, s := s, p := p } := by
  unfold markLanes
  split
  · split
    · exact ⟨t.v, t.s, t.p, rfl⟩
    · exact markOpd_only ..
  · exact foldLanes_only (fun t l => markOpd_only t d pair l f) t

theorem exists_lane {m : Mask} (h : m ≠ 0) : ∃ l, l < 32 ∧ inMask m l = true := by
  by_contra hc
  apply h
  apply BitVec.eq_of_getLsbD_eq
  intro i hi
  have : ¬ (i < 32 ∧ inMask m i = true) := fun hh => hc ⟨i, hh⟩
  simpa [inMask, hi] using this

theorem lowest_mem {m : Mask} (h : m ≠ 0) : lowest m ∈ lanesOf m := by
  obtain ⟨l, hl⟩ := exists_lane h
  have hm : l ∈ lanesOf m := mem_lanesOf.mpr hl
  unfold lowest
  cases e : lanesOf m with
  | nil => rw [e] at hm; cases hm
  | cons a rest => simp

theorem putLanes_frame (t : Team) (d : Opd) (pair : Bool) (m : Mask) (val : Nat → DWord) (tag : Nat → Tag) :
    SameRegs t (putLanes t d pair m val tag) d pair m := by
  have fold : SameRegs t (foldLanes m (fun t l => putOpd t d pair l (val l) (tag l)) t) d pair m := by
    have key : ∀ ls : List Nat, (∀ l ∈ ls, l < 32 ∧ inMask m l = true) → ∀ t,
        SameRegs t (ls.foldl (fun t l => putOpd t d pair l (val l) (tag l)) t) d pair m := by
      intro ls
      induction ls with
      | nil => intro _ t; exact sameRegs_refl t d pair m
      | cons a rest ih =>
        intro h t
        have ha := h a (by simp)
        exact sameRegs_trans (putOpd_frame t d pair a (val a) (tag a) ha.1 m ha.2) (ih (fun l hl => h l (by simp [hl])) _)
    exact key (lanesOf m) (fun l hl => mem_lanesOf.mp hl) t
  unfold putLanes
  split
  · split
    · exact sameRegs_refl ..
    · rename_i h
      have := mem_lanesOf.mp (lowest_mem h)
      exact putOpd_frame _ _ _ _ _ _ this.1 m this.2
  · exact fold

theorem markLanes_frame (t : Team) (d : Opd) (pair : Bool) (m : Mask) (f : Bool) :
    SameRegs t (markLanes t d pair m f) d pair m := by
  have fold : SameRegs t (foldLanes m (fun t l => markOpd t d pair l f) t) d pair m := by
    have key : ∀ ls : List Nat, (∀ l ∈ ls, l < 32 ∧ inMask m l = true) → ∀ t,
        SameRegs t (ls.foldl (fun t l => markOpd t d pair l f) t) d pair m := by
      intro ls
      induction ls with
      | nil => intro _ t; exact sameRegs_refl t d pair m
      | cons a rest ih =>
        intro h t
        have ha := h a (by simp)
        exact sameRegs_trans (markOpd_frame t d pair a f ha.1 m ha.2) (ih (fun l hl => h l (by simp [hl])) _)
    exact key (lanesOf m) (fun l hl => mem_lanesOf.mp hl) t
  unfold markLanes
  split
  · split
    · exact sameRegs_refl ..
    · rename_i h
      have := mem_lanesOf.mp (lowest_mem h)
      exact markOpd_frame _ _ _ _ _ this.1 m this.2
  · exact fold

/-- Reading an element depends on that element alone. -/
theorem rdOpd_congr {s : State} {t u : Team} {d : Opd} {pair : Bool} {l : Nat} {m : Mask} (hl : l < 32) (hm : inMask m l = false)
    (hd : ∀ k, d ≠ .s k) (h : SameRegs t u d pair m) (hr : isReg d = true) : rdOpd s u d pair l = rdOpd s t d pair l := by
  cases d with
  | v n =>
    have e (k : Nat) : getV u k l = getV t k l := h.v k l hl (by simp [hm])
    simp only [rdOpd, getPair, e]
  | s n => exact absurd rfl (hd n)
  | p n =>
    have e := h.p n.toNat l hl (by simp [hm])
    simp only [rdOpd, e.1, e.2]
  | lpc => simp [isReg] at hr
  | c n => simp [isReg] at hr
  | x n => simp [isReg] at hr

/-- What a destination reads as in an active lane after the write-back: the lane's own result, a scalar the lowest lane's (R25). -/
theorem rdOpd_putLanes (s : State) (t : Team) (d : Opd) (pair : Bool) (m : Mask) (val : Nat → DWord) (tag : Nat → Tag) (l : Nat)
    (hl : l ∈ lanesOf m) (hr : isReg d = true) :
    rdOpd s (putLanes t d pair m val tag) d pair l =
      (let k := if isS d then lowest m else l; written d pair (val k) (tag k)) := by
  have hm : m ≠ 0 := by
    rintro rfl
    have := (mem_lanesOf.mp hl).2
    simp [inMask] at this
  cases hs : isS d with
  | true =>
    cases d <;> simp [isS] at hs
    rename_i n
    have h := mem_lanesOf.mp (lowest_mem hm)
    simp only [putLanes, if_neg hm, if_true]
    have := rdOpd_putOpd_same s t (.s n) pair (lowest m) (val (lowest m)) (tag (lowest m)) h.1 rfl
    simpa [rdOpd] using this
  | false =>
    have hns : ∀ k, d ≠ .s k := by rintro k rfl; simp [isS] at hs
    have key : ∀ ls : List Nat, ls.Nodup → (∀ k ∈ ls, k < 32) → l ∈ ls → ∀ t,
        rdOpd s (ls.foldl (fun t k => putOpd t d pair k (val k) (tag k)) t) d pair l = written d pair (val l) (tag l) := by
      intro ls
      induction ls with
      | nil => intro _ _ h; cases h
      | cons a rest ih =>
        intro nd lt hin t
        rw [List.foldl_cons]
        have ndr := (List.nodup_cons.mp nd)
        by_cases hr' : l ∈ rest
        · exact ih ndr.2 (fun k hk => lt k (by simp [hk])) hr' _
        · have ha : l = a := by simpa [hr'] using hin
          subst ha
          have fr : ∀ ls : List Nat, (∀ k ∈ ls, k < 32 ∧ k ≠ l) → ∀ t,
              rdOpd s (ls.foldl (fun t k => putOpd t d pair k (val k) (tag k)) t) d pair l = rdOpd s t d pair l := by
            intro ls
            induction ls with
            | nil => intro _ t; rfl
            | cons b bs ihb =>
              intro hb t
              rw [List.foldl_cons, ihb (fun k hk => hb k (by simp [hk]))]
              have hb' := hb b (by simp)
              have hin' : inMask (1#32 <<< b) b = true := by
                simp [inMask, hb'.1]
              have hout : inMask (1#32 <<< b) l = false := by
                have hll : l < 32 := lt l (by simp)
                simp only [inMask, BitVec.getLsbD_shiftLeft, BitVec.getLsbD_one]
                by_cases h : l < b
                · simp [h]
                · have : ¬ (l - b = 0) := by omega
                  simp [this]
              exact rdOpd_congr (lt l (by simp)) hout hns (putOpd_frame t d pair b (val b) (tag b) hb'.1 _ hin') hr
          rw [fr rest (fun k hk => ⟨lt k (by simp [hk]), fun e => hr' (e ▸ hk)⟩)]
          exact rdOpd_putOpd_same s t d pair l (val l) (tag l) (lt l (by simp)) hr
    have e : putLanes t d pair m val tag = foldLanes m (fun t k => putOpd t d pair k (val k) (tag k)) t := by
      unfold putLanes
      split
      · exact absurd rfl (hns _)
      · rfl
    rw [e]
    simp only [Bool.false_eq_true, if_false]
    exact key (lanesOf m) (lanesOf_nodup m) (fun k hk => (mem_lanesOf.mp hk).1) hl t

end Sys2Proof.Laws
end

