-- ==== Sys2Proof/Laws/Retire.lean ====
section
/-! SUPPORT. What step 8 of an instruction leaves (R37, R165): the advanced team, every other team, memory and the units. -/

namespace Sys2Proof.Laws

open Sys2Proof.Machine Sys2Proof.Safety

/-! ### The advanced team -/

/-- A team without what issue, step 8 and the boundaries of a run may change: `lpc`, RETCNT, the hold, and the bookkeeping of the run,
of stops and of the undo log. -/
def stripped (t : Team) : Team :=
  { t with lpc := [], retcnt := 0, run := 0, runYld := false, key := 0, lastIssue := 0, blocked := false, posted := false, closed := false,
           hold := none, growth := none, steps := none, halted := false, stopSoon := false, stops := [], undo := [],
           undoNum := 0, undoNew := [], backing := false }
/-- All else of the team is carried over. -/
def Carried (t u : Team) : Prop := stripped u = stripped t
/-- A part of the team that does not look at what may change is carried over. -/
theorem Carried.part {t u : Team} (h : Carried t u) {α : Type} (f : Team → α) (hf : ∀ x, f (stripped x) = f x) : f u = f t :=
  (hf u).symm.trans ((congrArg f h).trans (hf t))
theorem carried_trans {t u w : Team} (h : Carried t u) (k : Carried u w) : Carried t w := Eq.trans k h
/-- The control state in the terms of the claims. -/
theorem Carried.control {t u : Team} (h : Carried t u) : SameControl t u := by
  constructor
  case place =>
    have e := h.part (fun x => (x.tid, x.ctx, x.seq, x.wg, x.lvl)) fun _ => rfl
    simpa only [Prod.mk.injEq] using e
  all_goals exact h.part _ fun _ => rfl
theorem Carried.flags {t u : Team} (h : Carried t u) : SameFlags t u := by
  have e := h.part (fun x => (x.fltstat, x.sigstat, x.oobcnt)) fun _ => rfl
  simpa only [Prod.mk.injEq, SameFlags] using e
theorem Carried.region {t u : Team} (h : Carried t u) : u.rgncnt = t.rgncnt ∧ u.rgnpc = t.rgnpc := by
  have e := h.part (fun x => (x.rgncnt, x.rgnpc)) fun _ => rfl
  simpa only [Prod.mk.injEq] using e
theorem Carried.maps {t u : Team} (h : Carried t u) : u.v = t.v ∧ u.s = t.s ∧ u.p = t.p := by
  have e := h.part (fun x => (x.v, x.s, x.p)) fun _ => rfl
  simpa only [Prod.mk.injEq] using e

theorem stepDone_carried (t : Team) : Carried t (stepDone t) ∧ (stepDone t).lpc = t.lpc ∧ (stepDone t).retcnt = t.retcnt := by
  unfold stepDone
  repeat' split
  all_goals exact ⟨rfl, rfl, rfl⟩
theorem endRunTeam_carried (t : Team) : Carried t (endRunTeam t) ∧ (endRunTeam t).lpc = t.lpc ∧ (endRunTeam t).retcnt = t.retcnt := by
  unfold endRunTeam haltIfAsked
  repeat' split
  all_goals exact ⟨rfl, rfl, rfl⟩

/-- Step 8 without a region closure: the executing lanes go to their targets, the rest of the team is carried over. -/
theorem advance_carried (t : Team) (b : Bool) (pc : Word) (e a : Mask) (g : Nat → Word) :
    Carried t (advance t b pc e a false g) ∧
    (advance t b pc e a false g).lpc = (lanes.map fun l => if inMask e l then (if inMask a l then g l else pc + 1) else getLpc t l) ∧
    (advance t b pc e a false g).retcnt = t.retcnt + 1 := by
  unfold advance
  simp only [Bool.false_eq_true, if_false]
  obtain ⟨h1, h2, h3⟩ := stepDone_carried { t with
    lpc := lanes.map fun l => if inMask e l then (if inMask a l then g l else pc + 1) else getLpc t l,
    retcnt := t.retcnt + 1, closed := false, blocked := false, hold := none, growth := none }
  exact ⟨carried_trans rfl h1, h2, h3⟩
/-- What step 8 leaves of the team that issued without a region closure. -/
structure Stepped (t u : Team) (pc : Word) (e a : Mask) (g : Nat → Word) : Prop where
  carried : Carried t u
  lpc : u.lpc = lanes.map fun l => if inMask e l then (if inMask a l then g l else pc + 1) else getLpc t l
  retcnt : u.retcnt = t.retcnt + 1

theorem getLpc_map (f : Nat → Word) (t : Team) (h : t.lpc = lanes.map f) {l : Nat} (hl : l < 32) : getLpc t l = f l := by
  unfold getLpc nth
  rw [h, List.getD_eq_getElem _ _ (by simpa [lanes] using hl)]
  simp [lanes]

/-! ### The state around it -/

/-- A state that differs from `s` in the team at `sl` of core `c`, its issue slot, contexts' pulses, counters and the clock alone. -/
structure TeamOnly (s s' : State) (c sl : Nat) : Prop where
  mem : s'.mem = s.mem
  wstore : s'.wstore = s.wstore
  remote : s'.remote = s.remote
  reqs : s'.reqs = s.reqs
  slices : s'.slices = s.slices
  seqSlots : s'.seqSlots = s.seqSlots
  core : ∀ k, (getCore s' k).bytes = (getCore s k).bytes ∧ (getCore s' k).tags = (getCore s k).tags ∧
    (getCore s' k).empty = (getCore s k).empty ∧ (getCore s' k).wgs = (getCore s k).wgs ∧
    (getCore s' k).chans = (getCore s k).chans ∧ (getCore s' k).tops = (getCore s k).tops
  others : ∀ c' sl', (c', sl') ≠ (c, sl) → getTeam s' c' sl' = getTeam s c' sl'

theorem teamOnly_refl (s : State) (c sl : Nat) : TeamOnly s s c sl :=
  ⟨rfl, rfl, rfl, rfl, rfl, rfl, fun _ => ⟨rfl, rfl, rfl, rfl, rfl, rfl⟩, fun _ _ _ => rfl⟩
theorem teamOnly_trans {s s' s'' : State} {c sl : Nat} (h : TeamOnly s s' c sl) (k : TeamOnly s' s'' c sl) : TeamOnly s s'' c sl :=
  ⟨k.mem.trans h.mem, k.wstore.trans h.wstore, k.remote.trans h.remote, k.reqs.trans h.reqs, k.slices.trans h.slices,
   k.seqSlots.trans h.seqSlots,
   fun x => ⟨(k.core x).1.trans (h.core x).1, (k.core x).2.1.trans (h.core x).2.1, (k.core x).2.2.1.trans (h.core x).2.2.1,
     (k.core x).2.2.2.1.trans (h.core x).2.2.2.1, (k.core x).2.2.2.2.1.trans (h.core x).2.2.2.2.1,
     (k.core x).2.2.2.2.2.trans (h.core x).2.2.2.2.2⟩,
   fun a b n => (k.others a b n).trans (h.others a b n)⟩

theorem TeamOnly.sameMemory {s s' : State} {c sl : Nat} (h : TeamOnly s s' c sl) : SameMemory s s' :=
  ⟨h.mem, h.wstore, h.remote, fun k => ⟨(h.core k).1, (h.core k).2.1, (h.core k).2.2.1⟩⟩
theorem TeamOnly.sameUnits {s s' : State} {c sl : Nat} (h : TeamOnly s s' c sl) : SameUnits s s' :=
  ⟨h.reqs, h.slices, h.seqSlots, fun k => (h.core k).2.2.2.1, fun k => (h.core k).2.2.2.2.1, fun k => (h.core k).2.2.2.2.2⟩

/-- A change of a core that keeps all but its teams and issue slots. -/
theorem core_updCore (s : State) (c : Nat) (f : Core → Core) (hf : ∀ k, (f k).bytes = k.bytes ∧ (f k).tags = k.tags ∧
    (f k).empty = k.empty ∧ (f k).wgs = k.wgs ∧ (f k).chans = k.chans ∧ (f k).tops = k.tops) (x : Nat) :
    (getCore (updCore s c f) x).bytes = (getCore s x).bytes ∧ (getCore (updCore s c f) x).tags = (getCore s x).tags ∧
    (getCore (updCore s c f) x).empty = (getCore s x).empty ∧ (getCore (updCore s c f) x).wgs = (getCore s x).wgs ∧
    (getCore (updCore s c f) x).chans = (getCore s x).chans ∧ (getCore (updCore s c f) x).tops = (getCore s x).tops := by
  rw [getCore_updCore]
  split
  · rename_i e; subst e; exact hf _
  · exact ⟨rfl, rfl, rfl, rfl, rfl, rfl⟩

theorem teamOnly_setTeam (s : State) (c sl : Nat) (x : Team) : TeamOnly s (setTeam s c sl x) c sl :=
  ⟨rfl, rfl, rfl, rfl, rfl, rfl, core_updCore s c _ fun _ => ⟨rfl, rfl, rfl, rfl, rfl, rfl⟩, fun a b n => by
    rw [getTeam_setTeam, if_neg]
    rintro ⟨rfl, rfl⟩
    exact n rfl⟩
theorem teamOnly_setISlot (s : State) (c i sl : Nat) (x : IssueSlot) : TeamOnly s (setISlot s c i x) c sl :=
  ⟨rfl, rfl, rfl, rfl, rfl, rfl, core_updCore s c _ fun _ => ⟨rfl, rfl, rfl, rfl, rfl, rfl⟩, fun _ _ _ => getTeam_setISlot ..⟩
theorem teamOnly_tally (s : State) (b w n c sl : Nat) : TeamOnly s (tally s b w n) c sl := by
  refine ⟨by simp, by simp, by simp, by simp, by simp, by simp, fun x => ?_, fun _ _ _ => getTeam_tally ..⟩
  have : getCore (tally s b w n) x = getCore s x := by unfold getCore; rw [tally_cores]
  rw [this]; exact ⟨rfl, rfl, rfl, rfl, rfl, rfl⟩
theorem teamOnly_pulse (s : State) (x c sl : Nat) : TeamOnly s (pulse s x) c sl :=
  ⟨rfl, rfl, rfl, rfl, rfl, rfl, fun _ => ⟨rfl, rfl, rfl, rfl, rfl, rfl⟩, fun _ _ _ => rfl⟩
theorem teamOnly_clock (s : State) (k c sl : Nat) : TeamOnly s { s with clock := k } c sl :=
  ⟨rfl, rfl, rfl, rfl, rfl, rfl, fun _ => ⟨rfl, rfl, rfl, rfl, rfl, rfl⟩, fun _ _ _ => rfl⟩
theorem teamOnly_nextId (s : State) (k c sl : Nat) : TeamOnly s { s with nextId := k } c sl :=
  ⟨rfl, rfl, rfl, rfl, rfl, rfl, fun _ => ⟨rfl, rfl, rfl, rfl, rfl, rfl⟩, fun _ _ _ => rfl⟩
theorem teamOnly_endRun (s : State) (c sl : Nat) (t : Team) : TeamOnly s (endRun s c sl t) c sl :=
  teamOnly_trans (teamOnly_setTeam ..) (teamOnly_setISlot ..)
theorem teamOnly_endTenure (s : State) (c sl : Nat) (t : Team) : TeamOnly s (endTenure s c sl t) c sl :=
  teamOnly_trans (teamOnly_setTeam ..) (teamOnly_setISlot ..)
theorem teamOnly_countForced (s : State) (c i sl : Nat) (y : Bool) : TeamOnly s (countForced s c i y) c sl := by
  unfold countForced
  split
  · exact teamOnly_trans (teamOnly_setISlot ..) (teamOnly_tally ..)
  · exact teamOnly_refl ..

@[simp] theorem getTeam_countForced (s : State) (c i d u : Nat) (y : Bool) : getTeam (countForced s c i y) d u = getTeam s d u := by
  unfold countForced
  split
  · rw [getTeam_tally, getTeam_setISlot]
  · rfl

/-- The boundary of a run (R165): the team is `u`, `u` at its run's end or `u` at its tenure's end, and nothing else changes. -/
theorem boundary_spec (s : State) (c sl : Nat) (u : Team) (own : Bool) :
    TeamOnly s (boundary s c sl u own) c sl ∧
    ∃ w, getTeam (boundary s c sl u own) c sl = some w ∧ (w = u ∨ w = endRunTeam u ∨ w = pauseTeam u) := by
  have base : TeamOnly s (tally (setTeam s c sl u) c (islotOf u) 1) c sl := teamOnly_trans (teamOnly_setTeam ..) (teamOnly_tally ..)
  simp only [boundary]
  constructor
  · refine teamOnly_trans (teamOnly_trans ?_ (teamOnly_countForced ..)) (teamOnly_clock ..)
    split
    · exact teamOnly_trans base (teamOnly_endRun ..)
    · split
      · exact teamOnly_trans base (teamOnly_endTenure ..)
      · exact base
  · show ∃ w, getTeam (countForced _ _ _ _) _ _ = _ ∧ _
    simp only [getTeam_countForced]
    split
    · exact ⟨_, by simp only [endRun, freeISlot, getTeam_setISlot, getTeam_setTeam_same], .inr (.inl rfl)⟩
    · split
      · exact ⟨_, by simp only [endTenure, freeISlot, getTeam_setISlot, getTeam_setTeam_same], .inr (.inr rfl)⟩
      · exact ⟨u, by simp, .inl rfl⟩

/-- Step 8: the team advances, at a run's end its tenure ends too, and nothing else changes. -/
theorem retire_spec {s : State} {c sl : Nat} {t : Team} (ht : getTeam s c sl = some t) (pc : Word) (e a : Mask) (h : Head)
    (branch stop : Bool) (g : Nat → Word) :
    TeamOnly s (retire s c sl pc e a h false branch stop g) c sl ∧
    ∃ u, getTeam (retire s c sl pc e a h false branch stop g) c sl = some u ∧ Stepped t u pc e a g := by
  unfold retire
  rw [ht]
  dsimp only
  obtain ⟨a1, a2, a3⟩ := advance_carried (issued t s.clock h) (getCtx s t.ctx).debug pc e a g
  generalize advance (issued t s.clock h) (getCtx s t.ctx).debug pc e a false g = u at a1 a2 a3
  obtain ⟨b1, b2⟩ := boundary_spec (pulse s t.ctx) c sl u (endsRun pc e a h branch stop g)
  have a0 : Carried t u := carried_trans (u := issued t s.clock h) rfl a1
  obtain ⟨w, b, rfl | rfl | rfl⟩ := b2
  · exact ⟨teamOnly_trans (teamOnly_pulse s t.ctx c sl) b1, _, b, a0, a2, a3⟩
  · obtain ⟨e1, e2, e3⟩ := endRunTeam_carried u
    exact ⟨teamOnly_trans (teamOnly_pulse s t.ctx c sl) b1, _, b, carried_trans a0 e1, e2.trans a2, e3.trans a3⟩
  · exact ⟨teamOnly_trans (teamOnly_pulse s t.ctx c sl) b1, _, b, carried_trans a0 rfl, a2, a3⟩

/-- The write-back of a register instruction: `u0` has the entered team's control state and all its registers but the
destination's; step 8 leaves those registers and nothing else. -/
theorem registerOnly_retired {s : State} {c sl : Nat} {t : Team} {h : Head} {d : Opd} {pair : Bool} (u0 : Team)
    (hr : SameRegs (entered s t h) u0 d pair (active t h))
    (hc : Carried { entered s t h with v := u0.v, s := u0.s, p := u0.p, fltstat := u0.fltstat, sigstat := u0.sigstat } u0)
    (hl : u0.lpc = (entered s t h).lpc) (hn : u0.retcnt = (entered s t h).retcnt) :
    ∃ u, RegisterOnly s (retired (issueOf s c sl t h) false (setTeam (issueOf s c sl t h).s c sl u0)) c sl (entered s t h) u d pair
        (active t h) ∧ u.v = u0.v ∧ u.s = u0.s ∧ u.p = u0.p ∧ u.fltstat = u0.fltstat ∧ u.sigstat = u0.sigstat ∧
        u.oobcnt = u0.oobcnt := by
  have hg : getTeam (setTeam (issueOf s c sl t h).s c sl u0) c sl = some u0 := getTeam_setTeam_same ..
  obtain ⟨ho, u, hu, hk⟩ := retire_spec hg (issueAddr t) (executing t) (active t h) h false false (fun _ => issueAddr t + 1)
  have hbase : TeamOnly s (setTeam (issueOf s c sl t h).s c sl u0) c sl :=
    teamOnly_trans (teamOnly_trans (teamOnly_setTeam s c sl (entered s t h)) (teamOnly_nextId ..)) (teamOnly_setTeam ..)
  have hall := teamOnly_trans hbase ho
  have hck := carried_trans hc hk.carried
  obtain ⟨hv, hs, hp⟩ := hk.carried.maps
  obtain ⟨hf, hgs, hx⟩ := hk.carried.flags
  have hcl := hck.control
  refine ⟨u, ⟨hu, sameRegs_trans hr (sameRegs_of_eq d pair _ hv hs hp), ⟨hcl.sigmin, hcl.trapen, hcl.trapcause, hcl.trappc, hcl.trapmask,
      hcl.saved, hcl.bufs, hcl.alloc, hcl.live, hcl.place, hcl.trap, hcl.owed⟩, ⟨hck.region.1, hck.region.2, by rw [hk.retcnt, hn]⟩,
      fun l hl32 => ?_, hall.sameMemory, hall.sameUnits, hall.others⟩, hv, hs, hp, hf, hgs, hx⟩
  rw [getLpc_map _ u hk.lpc hl32]
  simp only [executing_entered, issueAddr_entered, ite_self]
  have : getLpc u0 l = getLpc (entered s t h) l := by unfold getLpc; rw [hl]
  rw [this]

end Sys2Proof.Laws
end

