-- ==== Sys2Proof/Laws/Results.lean ====
section
/-! SUPPORT. Short-latency results: what an instruction answers whose body puts one result in every active lane. -/

namespace Sys2Proof.Laws

open Sys2Proof.Machine Sys2Proof.Safety

/-- Registers do not depend on the state around the team. -/
theorem rdOpd_state (s s' : State) (t : Team) (d : Opd) (pair : Bool) (l : Nat) (h : isReg d = true) :
    rdOpd s t d pair l = rdOpd s' t d pair l := by
  cases d <;> first | rfl | simp [isReg] at h

/-- Reading a register depends on the register maps alone. -/
theorem rdOpd_maps {s : State} {t u : Team} (hv : u.v = t.v) (hs : u.s = t.s) (hp : u.p = t.p) (d : Opd) (pair : Bool) (l : Nat)
    (h : isReg d = true) : rdOpd s u d pair l = rdOpd s t d pair l := by
  cases d with
  | v n => simp only [rdOpd, getPair, getV, hv]
  | s n => simp only [rdOpd, getS, hs]
  | p n =>
    have e : getP u n.toNat = getP t n.toNat := by unfold getP; rw [hp]
    simp only [rdOpd, e]
  | lpc => simp [isReg] at h
  | c n => simp [isReg] at h
  | x n => simp [isReg] at h

theorem pushUndo_eq (s : State) (t : Team) (us : List Undo) : ∃ w n, pushUndo s t us = { t with undo := w, undoNew := n } := by
  unfold pushUndo addUndo
  split
  · exact ⟨_, _, rfl⟩
  · exact ⟨t.undo, t.undoNew, rfl⟩

/-- A body that commits results `val` with tags `tag`, after setting FLTSTAT and SIGSTAT. -/
theorem commit_done {s : State} {c sl : Nat} {t : Team} {h : Head} {d : Opd} {pair : Bool} {val : Nat → DWord} {tag : Nat → Tag}
    (fs ss : DWord) :
    ∃ u, RegisterOnly s (retired (issueOf s c sl t h) false
        (commit (issueOf s c sl t h) d pair
          (putLanes { entered s t h with fltstat := fs, sigstat := ss } d pair (active t h) val tag))) c sl
        (entered s t h) u d pair (active t h) ∧ u.fltstat = fs ∧ u.sigstat = ss ∧ u.oobcnt = (entered s t h).oobcnt ∧
      (isReg d = true → ∀ s', ∀ l ∈ lanesOf (active t h), rdOpd s' u d pair l =
        written d pair (val (shownLane d (active t h) l)) (tag (shownLane d (active t h) l))) := by
  unfold commit
  obtain ⟨w, n, hw⟩ := pushUndo_eq (issueOf s c sl t h).s
    (putLanes { entered s t h with fltstat := fs, sigstat := ss } d pair (active t h) val tag)
    (undoOf (issueOf s c sl t h).t d pair)
  rw [hw]
  obtain ⟨v, ss', p, hp⟩ := putLanes_only { entered s t h with fltstat := fs, sigstat := ss } d pair (active t h) val tag
  have fr := putLanes_frame { entered s t h with fltstat := fs, sigstat := ss } d pair (active t h) val tag
  have rd (s' : State) (l : Nat) (hl : l ∈ lanesOf (active t h)) (hr : isReg d = true) :=
    rdOpd_putLanes s' { entered s t h with fltstat := fs, sigstat := ss } d pair (active t h) val tag l hl hr
  rw [hp] at fr rd ⊢
  obtain ⟨u, hu, h1, h2, h3, h4, h5, h6⟩ := registerOnly_retired (s := s) (c := c) (sl := sl) (t := t) (h := h) (d := d) (pair := pair)
    { entered s t h with fltstat := fs, sigstat := ss, v := v, s := ss', p := p, undo := w, undoNew := n }
    (sameRegs_trans (u := { entered s t h with fltstat := fs, sigstat := ss }) (sameRegs_of_eq d pair _ rfl rfl rfl)
      (sameRegs_trans fr (sameRegs_of_eq d pair _ rfl rfl rfl)))
    rfl rfl rfl
  refine ⟨u, hu, h4, h5, h6, fun hr s' l hl => ?_⟩
  rw [rdOpd_maps (t := { entered s t h with fltstat := fs, sigstat := ss, v := v, s := ss', p := p }) h1 h2 h3 d pair l hr]
  exact rd s' l hl hr

@[simp] theorem entered_fltstat (s : State) (t : Team) (h : Head) : (entered s t h).fltstat = t.fltstat := by
  unfold entered enterRegion; split; rfl; split <;> rfl
@[simp] theorem entered_sigstat (s : State) (t : Team) (h : Head) : (entered s t h).sigstat = t.sigstat := by
  unfold entered enterRegion; split; rfl; split <;> rfl
@[simp] theorem entered_oobcnt (s : State) (t : Team) (h : Head) : (entered s t h).oobcnt = t.oobcnt := by
  unfold entered enterRegion; split; rfl; split <;> rfl

/-- An instruction whose body puts a result completes with it. -/
theorem putRes_yields {s : State} {c sl : Nat} {t : Team} {h : Head} (ci : CanIssue s c sl t h) {legal : Bool}
    {dyn : State → Nat → Team → Bool} {body : Issue → Res} (hl : legal = true) (hd : dyn s c t = true) {d : Opd} {pair : Bool}
    (hr : isReg d = true) {val : Nat → DWord} {tag : Nat → Tag}
    (hb : body (issueOf s c sl t h) = putRes (issueOf s c sl t h) d pair val tag) :
    Yields s c sl t h (issue h legal false dyn body s) d pair val tag := by
  obtain ⟨u, h1, h2, h3, h4, h5⟩ := commit_done (s := s) (c := c) (sl := sl) (t := t) (h := h) (d := d) (pair := pair) (val := val)
    (tag := tag) (entered s t h).fltstat (entered s t h).sigstat
  refine ⟨_, u, ?_, h1, ⟨h2, h3, h4⟩, h5 hr _⟩
  rw [issue_eq ci body hl hd, hb]
  rfl

/-- The FP form: no enabled trap, and the flags accrue. -/
theorem fpPut_yields {s : State} {c sl : Nat} {t : Team} {h : Head} (ci : CanIssue s c sl t h) {legal : Bool}
    {dyn : State → Nat → Team → Bool} {body : Issue → Res} (hl : legal = true) (hd : dyn s c t = true) {d : Opd} {pair : Bool}
    (hr : isReg d = true) {sp : Nat} {out : Nat → FO}
    (hb : body (issueOf s c sl t h) = fpPut (issueOf s c sl t h) d pair sp out)
    (harith : ∀ l ∈ lanesOf (active t h), (out l).fl &&& (t.trapen.toNat % 32) = 0)
    (hsig : t.trapen.getLsbD 5 = false ∨ ∀ l ∈ lanesOf (active t h), sigFails sp t.sigmin (polTag sp (out l).tag) = false) :
    YieldsFp s c sl t h (issue h legal false dyn body s) d pair (fun l => BitVec.ofNat 64 (out l).y)
      (fun l => polTag sp (out l).tag) (foldLanes (active t h) (fun a l => a ||| (out l).fl) 0)
      ((lanesOf (active t h)).any fun l => sigFails sp t.sigmin (polTag sp (out l).tag)) := by
  have maskZero (f : Nat → Bool) : maskOf (fun l => inMask (active t h) l && f l) = 0 ↔ ∀ l ∈ lanesOf (active t h), f l = false := by
    constructor
    · intro e l hl
      have hm := mem_lanesOf.mp hl
      have := inMask_maskOf (fun l => inMask (active t h) l && f l) hm.1
      rw [e] at this
      simp only [hm.2, Bool.true_and] at this
      rw [← this]
      simp [inMask]
    · intro e
      apply BitVec.eq_of_getLsbD_eq
      intro k hk
      have := inMask_maskOf (fun l => inMask (active t h) l && f l) hk
      show inMask _ k = _
      rw [this, show BitVec.getLsbD (0 : Mask) k = false by simp]
      by_cases hm : inMask (active t h) k = true
      · rw [e k (mem_lanesOf.mpr ⟨hk, hm⟩)]; simp
      · simp only [Bool.not_eq_true] at hm; rw [hm]; rfl
  have e1 : t.trapen = (issueOf s c sl t h).t.trapen := (enterRegion_trapen ..).symm
  have e2 : t.sigmin = (issueOf s c sl t h).t.sigmin := (enterRegion_sigmin ..).symm
  generalize hlow : ((lanesOf (active t h)).any fun l => sigFails sp t.sigmin (polTag sp (out l).tag)) = low
  rw [e2] at hlow hsig
  rw [e1] at hsig
  simp only [e1] at harith
  have hb1 : maskOf (fun l => inMask (active t h) l && ((out l).fl &&& ((issueOf s c sl t h).t.trapen.toNat % 32)) != 0) = 0 :=
    (maskZero _).mpr fun l hl => by rw [harith l hl]; rfl
  have hb2 : (¬ maskOf (fun l => inMask (active t h) l &&
      sigFails sp (issueOf s c sl t h).t.sigmin (polTag sp (out l).tag)) = 0) ↔ low = true := by
    rw [maskZero]
    cases low with
    | true =>
      rw [List.any_eq_true] at hlow
      obtain ⟨l, h1, h2⟩ := hlow
      simp only [iff_true]
      intro e
      rw [e l h1] at h2
      exact absurd h2 (by simp)
    | false =>
      rw [List.any_eq_false] at hlow
      simp only [Bool.false_eq_true, iff_false, not_not]
      intro l hl
      simpa using hlow l hl
  have hb3 : (low && (issueOf s c sl t h).t.trapen.getLsbD 5) = false := by
    rcases hsig with h1 | h1
    · rw [h1, Bool.and_false]
    · have : low = false := by
        rw [← hlow, List.any_eq_false]
        intro l hl
        simp [h1 l hl]
      rw [this, Bool.false_and]
  obtain ⟨u, h1, h2, h3, h4, h5⟩ := commit_done (s := s) (c := c) (sl := sl) (t := t) (h := h) (d := d) (pair := pair)
    (val := fun l => BitVec.ofNat 64 (out l).y) (tag := fun l => polTag sp (out l).tag)
    ((entered s t h).fltstat ||| BitVec.ofNat 64 (foldLanes (active t h) (fun a l => a ||| (out l).fl) 0))
    (if low then (entered s t h).sigstat ||| 1 else (entered s t h).sigstat)
  refine ⟨_, u, ?_, h1, by rw [h2, entered_fltstat], by rw [h3, entered_sigstat], by rw [h4, entered_oobcnt], h5 hr _⟩
  rw [issue_eq ci body hl hd, hb]
  unfold fpPut fpFinish
  have e3 : (issueOf s c sl t h).act = active t h := rfl
  simp only [e3, hb1, ne_eq, not_true_eq_false, if_false, hb2, Bool.decide_eq_true, hb3, Bool.false_eq_true]
  rfl

end Sys2Proof.Laws
end

