-- ==== Sys2Proof/Laws/Integer.lean ====
section
/-! SUPPORT. The integer instructions (R105 to R110): what the legality of a word says of its destination, and the shared forms of
a result. -/

namespace Sys2Proof.Laws

open Sys2Proof.Machine Sys2Proof.Safety

/-! ### Destinations of legal words -/

theorem vOk_reg {d : Opd} {p : Bool} (h : vOk d p = true) : isReg d = true := by
  cases d <;> first | rfl | simp [vOk] at h
theorem isP_reg {d : Opd} (h : isP d = true) : isReg d = true := by
  cases d <;> first | rfl | simp [isP] at h
theorem dOk_reg {d : Opd} {p : Bool} (h : dOk d p = true) : isReg d = true := by
  cases d <;> first | rfl | simp [dOk, vOk, isS] at h
theorem legalAB_reg {w : Bool} {n : Nat} {x : RG} (h : legalAB w n x = true) : isReg x.d = true := by
  simp only [legalAB, Bool.and_eq_true] at h; exact dOk_reg h.1.1.1.1.1.1.1.2
theorem legalABC_reg {w : Bool} {x : RG} (h : legalABC w x = true) : isReg x.d = true := by
  simp only [legalABC, Bool.and_eq_true] at h; exact dOk_reg h.1.1.1.1.1.1.1.2
theorem legalA_reg {w : Bool} {x : RG} (h : legalA w x = true) : isReg x.d = true := by
  simp only [legalA, Bool.and_eq_true] at h; exact dOk_reg h.1.1.1.1.1.1.2
theorem legalSel_reg {w : Bool} {x : RG} (h : legalSel w x = true) : isReg x.d = true := by
  simp only [legalSel, Bool.and_eq_true] at h; exact vOk_reg h.1.1.1.1.1.1.2
theorem legalIm_reg {w b : Bool} {x : IM} (h : legalIm w b x = true) : isReg x.d = true := by
  simp only [legalIm, Bool.and_eq_true] at h; exact dOk_reg h.1.1.1.2
theorem legalMovi_reg {w : Bool} {x : IM} (h : legalMovi w x = true) : isReg x.d = true := by
  simp only [legalMovi, Bool.and_eq_true] at h; exact dOk_reg h.1.1.2
theorem legalFp_reg {w b c r : Bool} {x : RG} (h : legalFp w b c r x = true) : isReg x.d = true := by
  simp only [legalFp, Bool.and_eq_true] at h; exact dOk_reg h.1.1.1.1.1.1.1.2
theorem legalFpIm_reg {r : Bool} {x : IM} (h : legalFpIm r x = true) : isReg x.d = true := by
  simp only [legalFpIm, Bool.and_eq_true] at h; exact dOk_reg h.1.1.1.2

/-! ### Values -/

theorem pairBits_isPair (w : Width) : pairBits (isPair w) = wbits w := by cases w <;> rfl
theorem ival_lt (n : Nat) (m : Bool) (v : Val) : ival n m v < 2 ^ n := by
  unfold ival
  have := Nat.mod_lt v.bits.toNat (Nat.two_pow_pos n)
  cases m
  · simpa using this
  · simp only [if_true]; omega
/-- A wrapped result as a bit vector of the width. -/
theorem wrapW_ofInt (w : Width) (e : Int) : wrapW e (wbits w) = (BitVec.ofInt (wbits w) e).setWidth 64 := by
  apply BitVec.eq_of_toNat_eq
  cases w
  · simp only [wrapW, wrap, wbits, BitVec.toNat_ofNat, BitVec.toNat_setWidth, BitVec.toNat_ofInt]
  · simp only [wrapW, wrap, wbits, BitVec.toNat_ofNat, BitVec.toNat_setWidth, BitVec.toNat_ofInt]
/-- A number that fits the width is its own wrapping. -/
theorem wrapW_nat (w : Width) (k : Nat) : wrapW (k : Int) (wbits w) = (BitVec.ofNat (wbits w) k).setWidth 64 := by
  rw [wrapW_ofInt]; congr 1
/-- The immediate at the width (R74). -/
theorem immRd_num (x : IM) (w : Width) (l : Nat) : ival (wbits w) false ((immRd x.imm).at_ l) = numImm x w := by
  have hx := x.imm.isLt
  cases w
  · simp only [ival, immRd, numImm, wrapW, wrap, sx, wbits, BitVec.toNat_ofNat, Bool.false_eq_true, if_false]
    split <;> omega
  · simp only [ival, immRd, numImm, wrapW, wrap, sx, wbits, BitVec.toNat_ofNat, Bool.false_eq_true, if_false]
    split <;> omega
/-- A free destination is full. -/
theorem full_of_dstFree {s : State} {t : Team} {d : Opd} {pair : Bool} {l : Nat} (h : dstFree t d pair l = true) (hr : isReg d = true) :
    (rdOpd s t d pair l).full = true := by
  cases d with
  | v n => cases pair <;> simp_all [dstFree, rdOpd, getPair]
  | s n => simp_all [dstFree, rdOpd]
  | p n => simpa [dstFree, rdOpd] using h
  | lpc => simp [isReg] at hr
  | c n => simp [isReg] at hr
  | x n => simp [isReg] at hr

/-! ### The shared forms -/

/-- Steps 3 to 7 with ready operands. -/
theorem intBody_ready {i : Issue} {pair : Bool} {d : Opd} {used : Nat} {a b c : Rd} {ma mb mc : Bool}
    {f : Nat → Nat → Nat → Nat → Int} (h : Ready i ([a, b, c].take used) [(d, pair)]) :
    intBody pair d used a b c ma mb mc f i = putRes i d pair (fun l => wrapW (f (pairBits pair) (ival (pairBits pair) ma (a.at_ l))
      (ival (pairBits pair) mb (b.at_ l)) (ival (pairBits pair) mc (c.at_ l))) (pairBits pair)) (fun _ => 63) := by
  unfold intBody; rw [gate_ready h]

/-- A register-form integer instruction completes with its result. -/
theorem intRG_yields {ins : Instr} {w : Width} (used : Nat) {x : RG} {f : Nat → Nat → Nat → Nat → Int} {s : State} {c sl : Nat}
    {t : Team} (ci : CanIssue s c sl t x.h) (ha : allocRG (isPair w) x t = true) (hw : ins.wf = true) (hr : isReg x.d = true)
    (h : Ready (issueOf s c sl t x.h) ([rdA (issueOf s c sl t x.h) x (isPair w), rd (issueOf s c sl t x.h) x.b (isPair w),
      rd (issueOf s c sl t x.h) x.c (isPair w)].take used) [(x.d, isPair w)]) :
    Yields s c sl t x.h (intRG ins w used x f s) x.d (isPair w) (fun l => wrapW (f (wbits w) (numA (issueOf s c sl t x.h) x w l)
      (numB (issueOf s c sl t x.h) x w l) (numC (issueOf s c sl t x.h) x w l)) (wbits w)) (fun _ => 63) := by
  unfold intRG
  refine putRes_yields ci hw ha hr ?_
  rw [intBody_ready h]
  simp only [pairBits_isPair]
  rfl

/-- An immediate-form integer instruction completes with its result. -/
theorem intIM_yields {ins : Instr} {w : Width} {x : IM} {f : Nat → Nat → Nat → Nat → Int} {s : State} {c sl : Nat}
    {t : Team} (ci : CanIssue s c sl t x.h) (ha : (opdAlloc t x.d (isPair w) && opdAlloc t x.a.o (isPair w)) = true)
    (hw : ins.wf = true) (hr : isReg x.d = true)
    (h : Ready (issueOf s c sl t x.h) [rd (issueOf s c sl t x.h) x.a (isPair w)] [(x.d, isPair w)]) :
    Yields s c sl t x.h (intIM ins w x f s) x.d (isPair w) (fun l => wrapW (f (wbits w) (numImA (issueOf s c sl t x.h) x w l)
      (numImm x w) (ival (wbits w) false ((immRd 0).at_ l))) (wbits w)) (fun _ => 63) := by
  unfold intIM
  refine putRes_yields ci hw ha hr ?_
  rw [intBody_ready h]
  simp only [pairBits_isPair, immRd_num]
  rfl

/-- Results that agree in every lane are the same result. -/
theorem yields_congr {s : State} {c sl : Nat} {t : Team} {h : Head} {o : Host.Outcome State Fault Refusal} {d : Opd} {p : Bool}
    {f g : Nat → DWord} {a b : Nat → Tag} (y : Yields s c sl t h o d p f a) (e : ∀ l, f l = g l) (e' : ∀ l, a l = b l) :
    Yields s c sl t h o d p g b := by
  have h1 : f = g := funext e
  have h2 : a = b := funext e'
  rwa [← h1, ← h2]

end Sys2Proof.Laws
end

