-- ==== Sys2Proof/Laws/FpOps.lean ====
section
/-! SUPPORT. The floating-point instructions (R135 to R147): the shared forms of a result. -/

namespace Sys2Proof.Laws

open Sys2Proof.Machine Sys2Proof.Safety

/-- The launch record of the issuing team. -/
theorem words_issueOf (s : State) (c sl : Nat) (t : Team) (h : Head) : wordsOf (issueOf s c sl t h) = recordOf s t := by
  unfold wordsOf recordOf issueOf getLaunch
  simp only [entered, enterRegion_ctx, enterRegion_seq]
  rfl

/-- A register-form FP instruction completes with its results. -/
theorem fpRG_done {ins : Instr} {f : Fmt} {pair : Bool} (used : Nat) {x : RG} {op : Nat → VT → VT → VT → FO} {s : State} {c sl : Nat}
    {t : Team} (ci : CanIssue s c sl t x.h) (ha : allocRG pair x t = true) (hw : ins.wf = true) (hr : isReg x.d = true)
    (h : Ready (issueOf s c sl t x.h) ([rdA (issueOf s c sl t x.h) x pair, rd (issueOf s c sl t x.h) x.b pair,
      rd (issueOf s c sl t x.h) x.c pair].take used) [(x.d, pair)]) {r : Nat → FO}
    (hop : ∀ l, op (rmode (recordOf s t) x.slot.toNat x.rnd) (vt f x.a.m ((rdA (issueOf s c sl t x.h) x pair).at_ l))
      (vt f x.b.m ((rd (issueOf s c sl t x.h) x.b pair).at_ l)) (vt f x.c.m ((rd (issueOf s c sl t x.h) x.c pair).at_ l)) = r l)
    (hn : NoFpTrap t x.h (slotSigpol (recSlot (recordOf s t) x.slot.toNat)) r) :
    FpDone s c sl t x.h (fpRG ins f pair used x op s) x.d pair (slotSigpol (recSlot (recordOf s t) x.slot.toNat)) r := by
  have e : r = fun l => op (rmode (recordOf s t) x.slot.toNat x.rnd) (vt f x.a.m ((rdA (issueOf s c sl t x.h) x pair).at_ l))
      (vt f x.b.m ((rd (issueOf s c sl t x.h) x.b pair).at_ l)) (vt f x.c.m ((rd (issueOf s c sl t x.h) x.c pair).at_ l)) :=
    funext fun l => (hop l).symm
  subst e
  unfold fpRG FpDone
  refine fpPut_yields ci hw ha hr ?_ hn.1 hn.2
  unfold fpBody
  rw [gate_ready h]
  simp only [words_issueOf]

/-- An immediate-form FP instruction completes with its results. -/
theorem fpIM_done {ins : Instr} {x : IM} {op : Nat → VT → VT → VT → FO} {s : State} {c sl : Nat} {t : Team}
    (ci : CanIssue s c sl t x.h) (ha : (opdAlloc t x.d false && opdAlloc t x.a.o false) = true) (hw : ins.wf = true)
    (hr : isReg x.d = true) (h : Ready (issueOf s c sl t x.h) [rd (issueOf s c sl t x.h) x.a false] [(x.d, false)]) {r : Nat → FO}
    (hop : ∀ l, op (rmode (recordOf s t) (x.md.toNat % 8) (mdRnd x.md)) (vt fp32 x.a.m ((rd (issueOf s c sl t x.h) x.a false).at_ l))
      (x.imm.toNat, 24) (x.imm.toNat, 24) = r l)
    (hn : NoFpTrap t x.h (slotSigpol (recSlot (recordOf s t) (x.md.toNat % 8))) r) :
    FpDone s c sl t x.h (fpIM ins x op s) x.d false (slotSigpol (recSlot (recordOf s t) (x.md.toNat % 8))) r := by
  have ei : vt fp32 false ⟨x.imm.setWidth 64, 24, true⟩ = (x.imm.toNat, 24) := by
    have := x.imm.isLt
    simp only [vt, fval, Bool.false_eq_true, if_false, BitVec.toNat_setWidth]
    congr 1
    show x.imm.toNat % 2 ^ 64 % 2 ^ 32 = x.imm.toNat
    omega
  have e : r = fun l => op (rmode (recordOf s t) (x.md.toNat % 8) (mdRnd x.md))
      (vt fp32 x.a.m ((rd (issueOf s c sl t x.h) x.a false).at_ l)) (x.imm.toNat, 24) (x.imm.toNat, 24) := funext fun l => (hop l).symm
  subst e
  unfold fpIM FpDone
  refine fpPut_yields ci hw ha hr ?_ hn.1 hn.2
  unfold fpBody
  simp only [List.take_succ_cons, List.take_zero, gate_ready h, words_issueOf, ei]

/-- A packed instruction completes with its results. -/
theorem halfRG_done {ins : Instr} (used : Nat) {x : RG} {op : Nat → VT → VT → VT → FO} {s : State} {c sl : Nat} {t : Team}
    (ci : CanIssue s c sl t x.h) (ha : allocRG false x t = true) (hw : ins.wf = true) (hr : isReg x.d = true)
    (h : Ready (issueOf s c sl t x.h) ([rdA (issueOf s c sl t x.h) x false, rd (issueOf s c sl t x.h) x.b false,
      rd (issueOf s c sl t x.h) x.c false].take used) [(x.d, false)]) {r : Nat → FO}
    (hop : ∀ l, packed op (rmode (recordOf s t) x.slot.toNat x.rnd) (vtH x.a.m ((rdA (issueOf s c sl t x.h) x false).at_ l))
      (vtH x.b.m ((rd (issueOf s c sl t x.h) x.b false).at_ l)) (vtH x.c.m ((rd (issueOf s c sl t x.h) x.c false).at_ l)) = r l)
    (hn : NoFpTrap t x.h (slotSigpol (recSlot (recordOf s t) x.slot.toNat)) r) :
    FpDone s c sl t x.h (halfRG ins used x op s) x.d false (slotSigpol (recSlot (recordOf s t) x.slot.toNat)) r := by
  have e : r = fun l => packed op (rmode (recordOf s t) x.slot.toNat x.rnd) (vtH x.a.m ((rdA (issueOf s c sl t x.h) x false).at_ l))
      (vtH x.b.m ((rd (issueOf s c sl t x.h) x.b false).at_ l)) (vtH x.c.m ((rd (issueOf s c sl t x.h) x.c false).at_ l)) :=
    funext fun l => (hop l).symm
  subst e
  unfold halfRG FpDone
  refine fpPut_yields ci hw ha hr ?_ hn.1 hn.2
  simp only [gate_ready h, words_issueOf]

end Sys2Proof.Laws
end

