-- ==== Sys2Proof/Laws/Guard.lean ====
section
/-! SUPPORT. An instruction without an active lane (R39): step 8 alone. -/

namespace Sys2Proof.Laws

open Sys2Proof.Machine Sys2Proof.Safety

/-- The team can issue, but its guard leaves no lane active. -/
structure OffIssue (s : State) (c sl : Nat) (t : Team) (h : Head) : Prop where
  turn : curTeam s = some (c, sl, t)
  running : t.halted = false
  free : t.hold = none
  noTrap : t.trap = none
  live : t.live ≠ 0
  noStop : atStop t = false ∧ atStop (entered s t h) = false
  guardFull : executing t &&& ~~~ (getP t h.gp.toNat).full = 0
  off : active t h = 0

/-- What `issue` answers then: trap IL of step 1, or step 8. -/
theorem issue_off {s : State} {c sl : Nat} {t : Team} {h : Head} (o : OffIssue s c sl t h) {legal closes : Bool}
    {dyn : State → Nat → Team → Bool} (body : Issue → Res) :
    issue h legal closes dyn body s = .next (raiseTrap s c sl t { trapAt 1 (issueAddr t) (executing t) with rgn := h.rgn && !t.closed }) ∨
    issue h legal closes dyn body s =
      .next (retire (setTeam s c sl (entered s t h)) c sl (issueAddr t) (executing t) 0 h false false false fun _ => issueAddr t + 1) := by
  have h1 : (t.live == 0) = false := by simpa using o.live
  have hs : atStop t = false ∧ atStop (enterRegion t (getCtx s t.ctx).debug (issueAddr t) h.rgn) = false := o.noStop
  have ha : executing t &&& (if h.gn then ~~~ (getP t h.gp.toNat).val else (getP t h.gp.toNat).val) = 0 := o.off
  unfold issue
  rw [o.turn]
  simp only [o.running, o.free, o.noTrap, h1, hs.1, hs.2, Option.isSome_none, Bool.or_false, Bool.false_eq_true, if_false, bne_iff_ne,
    ne_eq, o.guardFull, not_true_eq_false, ha, if_true]
  cases legal && dyn s c t
  · exact Or.inl rfl
  · exact Or.inr rfl

/-- A region entry touches only what R371 names: a part of the team that ignores these fields is the same. -/
theorem entered_keeps {α : Type} (f : Team → α) (s : State) (t : Team) (h : Head)
    (hf : ∀ a b c d e g, f { t with rgncnt := a, retcnt := b, rgnpc := c, enter := d, stops := e, undo := g } = f t) :
    f (entered s t h) = f t := by
  unfold entered enterRegion
  split
  · rfl
  · split
    · exact hf ..
    · rfl

/-- Step 8 without an active lane: the executing lanes advance, and nothing else of the team changes but its count. -/
theorem retire_off {s : State} {c sl : Nat} {t : Team} {h : Head} :
    let out := retire (setTeam s c sl (entered s t h)) c sl (issueAddr t) (executing t) 0 h false false false fun _ => issueAddr t + 1
    OnlyAdvances s c sl t h (.next out) ∧ ∀ u, getTeam out c sl = some u → Carried (entered s t h) u ∧ u.retcnt = (entered s t h).retcnt + 1 := by
  have hg : getTeam (setTeam s c sl (entered s t h)) c sl = some (entered s t h) := getTeam_setTeam_same ..
  obtain ⟨ho, hu⟩ := retire_spec hg (issueAddr t) (executing t) 0 h false false (fun _ => issueAddr t + 1)
  have hall := teamOnly_trans (teamOnly_setTeam s c sl (entered s t h)) ho
  intro out
  obtain ⟨u, hgu, hk⟩ := hu
  have hen : Carried t { entered s t h with rgncnt := t.rgncnt, rgnpc := t.rgnpc, enter := t.enter, stops := t.stops, undo := t.undo } :=
    entered_keeps (fun x => stripped { x with rgncnt := t.rgncnt, rgnpc := t.rgnpc, enter := t.enter, stops := t.stops, undo := t.undo }) s t h
      fun _ _ _ _ _ _ => rfl
  have hc := hk.carried.control
  have hc' := hen.control
  obtain ⟨kv, ks, kp⟩ := hk.carried.maps
  obtain ⟨ev, es, ep⟩ := hen.maps
  obtain ⟨kf, kg, kx⟩ := hk.carried.flags
  obtain ⟨ef, eg, ex⟩ := hen.flags
  refine ⟨⟨out, u, rfl, hgu, ⟨fun n l _ => ?_, fun n => ?_, fun n => ?_⟩, ⟨kf.trans ef, kg.trans eg, kx.trans ex⟩, ?_,
    ⟨hk.carried.region.1, hk.carried.region.2, hk.retcnt⟩, fun l hl => ?_, hall.sameMemory, hall.sameUnits, hall.others⟩, fun w hw => ?_⟩
  · unfold getV; rw [kv.trans ev]
  · unfold getS; rw [ks.trans es]
  · unfold getP; rw [kp.trans ep]
  · exact ⟨hc.sigmin.trans hc'.sigmin, hc.trapen.trans hc'.trapen, hc.trapcause.trans hc'.trapcause, hc.trappc.trans hc'.trappc,
      hc.trapmask.trans hc'.trapmask, hc.saved.trans hc'.saved, hc.bufs.trans hc'.bufs, hc.alloc.trans hc'.alloc, hc.live.trans hc'.live,
      ⟨hc.place.1.trans hc'.place.1, hc.place.2.1.trans hc'.place.2.1, hc.place.2.2.1.trans hc'.place.2.2.1,
        hc.place.2.2.2.1.trans hc'.place.2.2.2.1, hc.place.2.2.2.2.trans hc'.place.2.2.2.2⟩, hc.trap.trans hc'.trap, hc.owed.trans hc'.owed⟩
  · rw [getLpc_map _ u hk.lpc hl]
    simp only [ite_self]
    have : getLpc (entered s t h) l = getLpc t l := by unfold getLpc entered; rw [enterRegion_lpc]
    rw [this]
  · obtain rfl : u = w := Option.some.inj (hgu.symm.trans hw)
    exact ⟨hk.carried, hk.retcnt⟩

end Sys2Proof.Laws
end

