-- ==== Sys2Proof/Laws/Memory.lean ====
section
/-! SUPPORT. Reading back what was written at a location, and that every operation that writes memory keeps its canonical form. -/

namespace Sys2Proof.Laws

open Sys2Proof.Machine Sys2Proof.Safety

/-! ### Read after write -/

/-- The bytes written at a location are read back there. -/
theorem readLoc_writeLoc_same (s : State) (l : Loc) (bs : List Byte) : readLoc (writeLoc s l bs) l bs.length = bs := by
  cases l with
  | hbm pa => exact getBytes_putBytes_same ..
  | scratch c b => simp only [writeLoc, readLoc, getCore_updCore_same]; exact getBytes_putBytes_same ..
  | weight w => exact getBytes_putBytes_same ..
  | remote chip key a => simp only [writeLoc, readLoc, ngetD_nsetD, if_true]; exact getBytes_putBytes_same ..

/-- Another endpoint's memories stay apart (R433). -/
theorem remoteKey_inj {c d k j : Nat} (hc : c < 4096) (hd : d < 4096) (h : remoteKey c k = remoteKey d j) : c = d ∧ k = j := by
  unfold remoteKey at h
  rw [Nat.mod_eq_of_lt hc, Nat.mod_eq_of_lt hd] at h
  omega

/-- A byte that the write does not cover reads as before. -/
theorem readLoc_writeLoc_other (s : State) (l m : Loc) (bs : List Byte) (hl : Known l) (hm : Known m)
    (h : overlap m 1 l bs.length = false) : readLoc (writeLoc s l bs) m 1 = readLoc s m 1 := by
  cases l <;> cases m <;> try rfl
  · refine getBytes_putBytes_outside ?_
    simp only [overlap, Bool.and_eq_false_iff, decide_eq_false_iff_not] at h
    omega
  · simp only [writeLoc, readLoc, getCore_updCore]
    split
    · rename_i e
      simp only [overlap, e, beq_self_eq_true, Bool.true_and, Bool.and_eq_false_iff, decide_eq_false_iff_not] at h
      subst e
      exact getBytes_putBytes_outside (by omega)
    · rfl
  · refine getBytes_putBytes_outside ?_
    simp only [overlap, Bool.and_eq_false_iff, decide_eq_false_iff_not] at h
    omega
  · simp only [writeLoc, readLoc, ngetD_nsetD]
    split
    · rename_i e
      obtain ⟨rfl, rfl⟩ := remoteKey_inj hm hl e
      simp only [overlap, beq_self_eq_true, Bool.true_and, Bool.and_eq_false_iff, decide_eq_false_iff_not] at h
      exact getBytes_putBytes_outside (by omega)
    · rfl

/-! ### Canonical form -/

/-- A filtered memory is canonical. -/
theorem nwf_filter [DecidableEq α] {d : α} (f : Nat × α → Bool) : ∀ {m : NMap α} {lo : Nat}, nwfFrom d lo m = true →
    nwfFrom d lo (m.filter f) = true
  | [], _, _ => rfl
  | (k, x) :: m, lo, h => by
    simp only [nwfFrom, Bool.and_eq_true, decide_eq_true_eq] at h
    simp only [List.filter_cons]
    split
    · simp only [nwfFrom, Bool.and_eq_true, decide_eq_true_eq]
      exact ⟨h.1, nwf_filter f h.2⟩
    · exact nwf_weaken (nwf_filter f h.2) (by omega)

/-- State.reset is canonical. -/
theorem canonical_reset : Canonical State.reset := ⟨rfl, rfl, fun _ => rfl⟩

/-- A change of anything but the memories keeps their form. -/
theorem canonical_of_eq {s s' : State} (h : Canonical s) (hm : s'.mem = s.mem) (hw : s'.wstore = s.wstore) (hr : s'.remote = s.remote) :
    Canonical s' := by
  unfold Canonical
  rw [hm, hw, hr]
  exact h

/-- Bytes stored at a location keep the form of every memory. -/
theorem canonical_writeLoc {s : State} (h : Canonical s) (l : Loc) (bs : List Byte) : Canonical (writeLoc s l bs) := by
  obtain ⟨h1, h2, h3⟩ := h
  cases l with
  | hbm pa => exact ⟨memWf_putBytes h1 .., h2, h3⟩
  | scratch c b => exact ⟨h1, h2, h3⟩
  | weight w => exact ⟨h1, memWf_putBytes h2 .., h3⟩
  | remote chip key a =>
    refine ⟨h1, h2, fun k => ?_⟩
    simp only [writeLoc, ngetD_nsetD]
    split
    · exact memWf_putBytes (h3 _) ..
    · exact h3 k

/-- The scratchpad of a core keeps the form too. -/
theorem scratch_writeLoc {s : State} (c : Nat) (h : memWf (getCore s c).bytes = true) (l : Loc) (bs : List Byte) :
    memWf (getCore (writeLoc s l bs) c).bytes = true := by
  cases l with
  | scratch k b =>
    simp only [writeLoc, getCore_updCore]
    split
    · rename_i e; subst e; exact memWf_putBytes h ..
    · exact h
  | _ => exact h

/-- A D bit written back (R361) keeps the form. -/
theorem canonical_writeBack {s : State} (h : Canonical s) (e : TlbEntry) : Canonical (writeBack s e) := by
  unfold writeBack
  split
  · exact ⟨memWf_nsetD h.1 .., h.2⟩
  · exact h

/-- Every entry that is harvested (R361) is. -/
theorem canonical_foldl {α : Type} (f : State → α → State) (hf : ∀ s x, Canonical s → Canonical (f s x)) :
    ∀ (xs : List α) {s : State}, Canonical s → Canonical (xs.foldl f s)
  | [], _, h => h
  | x :: xs, _, h => canonical_foldl f hf xs (hf _ x h)

/-- The scrubs of a start (R451) keep the form. -/
theorem canonical_scrubSecure {s : State} (h : Canonical s) : Canonical (scrubSecure s) := ⟨nwf_filter _ h.1, h.2⟩
theorem canonical_scrubAll {s : State} (h : Canonical s) : Canonical (scrubAll s) := ⟨nwf_filter _ h.1, h.2⟩
theorem canonical_scrubWeights {s : State} (h : Canonical s) (w : Bool) : Canonical (scrubWeights s w) :=
  ⟨h.1, nwf_filter _ h.2.1, h.2.2⟩

/-- A cold start (R451) leaves canonical memories. -/
theorem canonical_coldState {s : State} (h : Canonical s) (r : Nat) : Canonical (coldState s r) := ⟨h.1, rfl, h.2.2⟩

/-- Release records that no longer stand touch no memory. -/
theorem canonical_unstand {s : State} (h : Canonical s) (l : Loc) (n : Nat) : Canonical (unstand s l n) := by
  unfold unstand; split <;> exact h

/-- A plain store (R218) keeps the form. -/
theorem canonical_storeAt {s : State} (h : Canonical s) (l : Loc) (bs : List Byte) : Canonical (storeAt s l bs) :=
  canonical_writeLoc (canonical_unstand h ..) ..

/-- A ring count (R336, R367) keeps the form. -/
theorem canonical_putCount {s : State} (h : Canonical s) (pa n : Nat) : Canonical (putCount s pa n) := canonical_storeAt h ..

/-- Bytes stored one after another, each a canonical memory of what stood before. -/
theorem memWf_foldl {α : Type} (f : NMap Byte → α → NMap Byte) (hf : ∀ m x, memWf m = true → memWf (f m x) = true) :
    ∀ (xs : List α) {m : NMap Byte}, memWf m = true → memWf (xs.foldl f m) = true
  | [], _, h => h
  | x :: xs, _, h => memWf_foldl f hf xs (hf _ x h)

/-- The crash dump (R460) keeps the form. -/
theorem canonical_writeDump {s : State} (h : Canonical s) (img : NMap Byte) : Canonical (writeDump s img) :=
  ⟨memWf_foldl _ (fun _ _ hm => memWf_nsetD hm ..) img (nwf_filter _ h.1), h.2⟩

/-- The records of a suspension (R384) keep the form. -/
theorem canonical_saveRecords {s : State} (h : Canonical s) (b : Nat) (xs : List SavedCore) : Canonical (saveRecords s b xs) :=
  ⟨memWf_foldl _ (fun _ _ hm => memWf_foldl _ (fun _ _ hk => memWf_putBytes hk ..) _
    (memWf_foldl _ (fun _ _ hk => memWf_putBytes hk ..) _ hm)) xs h.1, h.2⟩

end Sys2Proof.Laws
end

