-- ==== Sys2Proof/Tests/Slice0.lean ====
section
/-! SUPPORT. Tests: words written out from the spec's encodings, an ill-formed term for each check, one step of instructions and events, and a
state that meets the hypotheses of each statement. -/

namespace Sys2Proof.Tests

open Sys2Proof.Machine Sys2Proof.Safety
set_option Elab.async false

/-- The word decodes to the instruction, with nothing left. -/
def reads (e : Nat × Instr) : Bool :=
  match decode (bytesOfWord e.1) with
  | .ok (i, rest) => i == e.2 && rest.isEmpty
  | .error _ => false
def hd : Head := ⟨false, 7, false, false, false⟩
def no : Src := ⟨.v 0, false, false⟩

/-! ### Words written out from R64 to R88: every constructor's decoding -/

theorem test_words_integer1 : (([
  (0b00000000_000000_0_111_0_0_0_000_00_00000100_0_01_00000001_0_0_00_00000010_0_0_00_00000000_0_000_000_000_000000_000_00000000, .iadd .w32 ⟨hd, .v 4, ⟨.s 1, false, false⟩, ⟨.v 2, false, false⟩, no, 0, .slot, .none, 0, 0⟩),
  (0b00000000_000011_0_111_0_0_0_000_00_00000110_0_01_00000010_0_0_00_00000010_0_0_00_00000000_0_000_000_000_000000_000_00000000, .isub .w64 ⟨hd, .v 6, ⟨.s 2, false, false⟩, ⟨.v 2, false, false⟩, no, 0, .slot, .none, 0, 0⟩),
  (0b00000000_000100_0_111_0_0_0_000_00_00001000_0_01_00000011_0_0_00_00000010_0_0_00_00000000_0_000_000_000_000000_000_00000000, .imul .w32 ⟨hd, .v 8, ⟨.s 3, false, false⟩, ⟨.v 2, false, false⟩, no, 0, .slot, .none, 0, 0⟩),
  (0b00000000_000111_0_111_0_0_0_000_00_00001010_0_01_00000100_0_0_00_00000010_0_0_00_00000000_0_000_000_000_000000_000_00000001, .imulh .w64 ⟨hd, .v 10, ⟨.s 4, false, false⟩, ⟨.v 2, false, false⟩, no, 0, .slot, .none, 0, 1⟩),
  (0b00000000_001000_0_111_0_0_0_000_00_00001100_0_01_00000101_0_0_00_00000010_0_0_10_00100101_0_000_000_000_000000_000_00000000, .imad .w32 ⟨hd, .v 12, ⟨.s 5, false, false⟩, ⟨.v 2, false, false⟩, ⟨.c 5, false, false⟩, 0, .slot, .none, 0, 0⟩),
  (0b00000000_001011_0_111_0_0_0_000_00_00001110_0_01_00000110_0_0_00_00000010_0_0_00_00000000_0_000_000_000_000000_000_00000001, .idiv .w64 ⟨hd, .v 14, ⟨.s 6, false, false⟩, ⟨.v 2, false, false⟩, no, 0, .slot, .none, 0, 1⟩),
  (0b00000000_001100_0_111_0_0_0_000_00_00010000_0_01_00000111_0_0_00_00000010_0_0_00_00000000_0_000_000_000_000000_000_00000000, .irem .w32 ⟨hd, .v 16, ⟨.s 7, false, false⟩, ⟨.v 2, false, false⟩, no, 0, .slot, .none, 0, 0⟩),
  (0b00000000_001111_0_111_0_0_0_000_00_00010010_0_01_00001000_0_0_00_00000010_0_0_00_00000000_0_000_000_000_000000_000_00000000, .imin .w64 ⟨hd, .v 18, ⟨.s 8, false, false⟩, ⟨.v 2, false, false⟩, no, 0, .slot, .none, 0, 0⟩),
  (0b00000000_010000_0_111_0_0_0_000_00_00010100_0_01_00001001_0_0_00_00000010_0_0_00_00000000_0_000_000_000_000000_000_00000000, .imax .w32 ⟨hd, .v 20, ⟨.s 9, false, false⟩, ⟨.v 2, false, false⟩, no, 0, .slot, .none, 0, 0⟩),
  (0b00000000_010011_0_111_0_0_0_000_00_00010110_0_01_00001010_0_0_00_00000000_0_0_00_00000000_0_000_000_000_000000_000_00000000, .iabs .w64 ⟨hd, .v 22, ⟨.s 10, false, false⟩, no, no, 0, .slot, .none, 0, 0⟩),
  (0b00000000_010100_0_111_0_0_0_000_00_00011000_0_01_00001011_0_0_00_00000010_0_0_00_00000000_0_000_000_000_000000_000_00000000, .and .w32 ⟨hd, .v 24, ⟨.s 11, false, false⟩, ⟨.v 2, false, false⟩, no, 0, .slot, .none, 0, 0⟩),
  (0b00000000_010111_0_111_0_0_0_000_00_00011010_0_01_00001100_0_0_00_00000010_0_0_00_00000000_0_000_000_000_000000_000_00000000, .or .w64 ⟨hd, .v 26, ⟨.s 12, false, false⟩, ⟨.v 2, false, false⟩, no, 0, .slot, .none, 0, 0⟩)] : List (Nat × Instr)).all reads) = true := by decide +kernel
theorem test_words_integer2 : (([
  (0b00000000_011000_0_111_0_0_0_000_00_00011100_0_01_00001101_0_0_00_00000010_0_0_00_00000000_0_000_000_000_000000_000_00000000, .xor .w32 ⟨hd, .v 28, ⟨.s 13, false, false⟩, ⟨.v 2, false, false⟩, no, 0, .slot, .none, 0, 0⟩),
  (0b00000000_011011_0_111_0_0_0_000_00_00011110_0_01_00001110_0_0_00_00000010_0_0_00_00000000_0_000_000_000_000000_000_00000000, .andn .w64 ⟨hd, .v 30, ⟨.s 14, false, false⟩, ⟨.v 2, false, false⟩, no, 0, .slot, .none, 0, 0⟩),
  (0b00000000_011100_0_111_0_0_0_000_00_00100000_0_01_00001111_0_0_00_00000010_0_0_00_00000000_0_000_000_000_000000_000_00000000, .shl .w32 ⟨hd, .v 32, ⟨.s 15, false, false⟩, ⟨.v 2, false, false⟩, no, 0, .slot, .none, 0, 0⟩),
  (0b00000000_011111_0_111_0_0_0_000_00_00100010_0_01_00010000_0_0_00_00000010_0_0_00_00000000_0_000_000_000_000000_000_00000000, .shr .w64 ⟨hd, .v 34, ⟨.s 16, false, false⟩, ⟨.v 2, false, false⟩, no, 0, .slot, .none, 0, 0⟩),
  (0b00000000_100000_0_111_0_0_0_000_00_00100100_0_01_00010001_0_0_00_00000010_0_0_00_00000000_0_000_000_000_000000_000_00000000, .sar .w32 ⟨hd, .v 36, ⟨.s 17, false, false⟩, ⟨.v 2, false, false⟩, no, 0, .slot, .none, 0, 0⟩),
  (0b00000000_100011_0_111_0_0_0_000_00_00100110_0_01_00010010_0_0_00_00000010_0_0_00_00000000_0_000_000_000_000000_000_00000000, .rol .w64 ⟨hd, .v 38, ⟨.s 18, false, false⟩, ⟨.v 2, false, false⟩, no, 0, .slot, .none, 0, 0⟩),
  (0b00000000_100100_0_111_0_0_0_000_00_00101000_0_01_00010011_0_0_00_00000000_0_0_00_00000000_0_000_000_000_000000_000_00000000, .popc .w32 ⟨hd, .v 40, ⟨.s 19, false, false⟩, no, no, 0, .slot, .none, 0, 0⟩),
  (0b00000000_100111_0_111_0_0_0_000_00_00101010_0_01_00010100_0_0_00_00000000_0_0_00_00000000_0_000_000_000_000000_000_00000000, .clz .w64 ⟨hd, .v 42, ⟨.s 20, false, false⟩, no, no, 0, .slot, .none, 0, 0⟩),
  (0b00000000_101000_0_111_0_0_0_000_00_00101100_0_01_00010101_0_0_00_00000000_0_0_00_00000000_0_000_000_000_000000_000_00000000, .brev .w32 ⟨hd, .v 44, ⟨.s 21, false, false⟩, no, no, 0, .slot, .none, 0, 0⟩),
  (0b00000000_101011_0_111_0_0_0_000_00_00101110_0_01_00010110_0_0_00_00000010_0_0_00_00000000_0_000_000_000_000000_000_00000001, .bfx .w64 ⟨hd, .v 46, ⟨.s 22, false, false⟩, ⟨.v 2, false, false⟩, no, 0, .slot, .none, 0, 1⟩),
  (0b00000000_101100_0_111_0_0_0_000_00_00110000_0_01_00010111_0_0_00_00000010_0_0_10_00100101_0_000_000_000_000000_000_00000000, .bfi .w32 ⟨hd, .v 48, ⟨.s 23, false, false⟩, ⟨.v 2, false, false⟩, ⟨.c 5, false, false⟩, 0, .slot, .none, 0, 0⟩),
  (0b00000000_101111_0_111_0_0_0_000_00_00110010_0_01_00011000_0_0_00_00000010_0_0_10_00000011_0_000_000_000_000000_000_00000000, .sel .w64 ⟨hd, .v 50, ⟨.s 24, false, false⟩, ⟨.v 2, false, false⟩, ⟨.p 3, false, false⟩, 0, .slot, .none, 0, 0⟩)] : List (Nat × Instr)).all reads) = true := by decide +kernel
theorem test_words_integer3 : (([
  (0b00000000_110000_0_111_0_0_0_000_00_00110100_0_01_00011001_0_0_00_00000000_0_0_00_00000000_0_000_000_000_000000_000_00000000, .mov .w32 ⟨hd, .v 52, ⟨.s 25, false, false⟩, no, no, 0, .slot, .none, 0, 0⟩),
  (0b00000001_000001_0_111_0_0_0_000_00_00000000_1_00_00000110_0_0_00_00000000_0_000000_10000000000000000000000000000000, .iaddIm .w64 ⟨hd, .v 0, ⟨.v 6, true, false⟩, 0, 2147483648⟩),
  (0b00000001_000010_0_111_0_0_0_000_00_00000010_1_00_00000110_0_0_00_00000000_0_000000_10000000000000000000000000000001, .isubIm .w32 ⟨hd, .v 2, ⟨.v 6, true, false⟩, 0, 2147483649⟩),
  (0b00000001_000101_0_111_0_0_0_000_00_00000100_1_00_00000110_0_0_00_00000000_0_000000_10000000000000000000000000000010, .imulIm .w64 ⟨hd, .v 4, ⟨.v 6, true, false⟩, 0, 2147483650⟩),
  (0b00000001_001110_0_111_0_0_0_000_00_00001110_1_00_00000110_0_0_00_00000000_0_000000_10000000000000000000000000000111, .iminIm .w32 ⟨hd, .v 14, ⟨.v 6, true, false⟩, 0, 2147483655⟩),
  (0b00000001_010001_0_111_0_0_0_000_00_00010000_1_00_00000110_0_0_00_00000000_0_000000_10000000000000000000000000001000, .imaxIm .w64 ⟨hd, .v 16, ⟨.v 6, true, false⟩, 0, 2147483656⟩),
  (0b00000001_010101_0_111_0_0_0_000_00_00010100_1_00_00000110_0_0_00_00000000_0_000000_10000000000000000000000000001010, .andIm .w64 ⟨hd, .v 20, ⟨.v 6, true, false⟩, 0, 2147483658⟩),
  (0b00000001_010110_0_111_0_0_0_000_00_00010110_1_00_00000110_0_0_00_00000000_0_000000_10000000000000000000000000001011, .orIm .w32 ⟨hd, .v 22, ⟨.v 6, true, false⟩, 0, 2147483659⟩),
  (0b00000001_011001_0_111_0_0_0_000_00_00011000_1_00_00000110_0_0_00_00000000_0_000000_10000000000000000000000000001100, .xorIm .w64 ⟨hd, .v 24, ⟨.v 6, true, false⟩, 0, 2147483660⟩),
  (0b00000001_011010_0_111_0_0_0_000_00_00011010_1_00_00000110_0_0_00_00000000_0_000000_10000000000000000000000000001101, .andnIm .w32 ⟨hd, .v 26, ⟨.v 6, true, false⟩, 0, 2147483661⟩),
  (0b00000001_011101_0_111_0_0_0_000_00_00011100_1_00_00000110_0_0_00_00000000_0_000000_10000000000000000000000000001110, .shlIm .w64 ⟨hd, .v 28, ⟨.v 6, true, false⟩, 0, 2147483662⟩),
  (0b00000001_011110_0_111_0_0_0_000_00_00011110_1_00_00000110_0_0_00_00000000_0_000000_10000000000000000000000000001111, .shrIm .w32 ⟨hd, .v 30, ⟨.v 6, true, false⟩, 0, 2147483663⟩)] : List (Nat × Instr)).all reads) = true := by decide +kernel
theorem test_words_integer4 : (([
  (0b00000001_100001_0_111_0_0_0_000_00_00100000_1_00_00000110_0_0_00_00000000_0_000000_10000000000000000000000000010000, .sarIm .w64 ⟨hd, .v 32, ⟨.v 6, true, false⟩, 0, 2147483664⟩),
  (0b00000001_100010_0_111_0_0_0_000_00_00100010_1_00_00000110_0_0_00_00000000_0_000000_10000000000000000000000000010001, .rolIm .w32 ⟨hd, .v 34, ⟨.v 6, true, false⟩, 0, 2147483665⟩),
  (0b00000001_110010_0_111_0_0_0_000_00_00110010_0_00_00000000_0_0_00_00000000_0_000000_10000000000000000000000000011001, .movi .w32 ⟨hd, .v 50, no, 0, 2147483673⟩),
  (0b00000001_110101_0_111_0_0_0_000_00_00110100_0_00_00000000_0_0_00_00000000_0_000000_10000000000000000000000000011010, .movh .w64 ⟨hd, .v 52, no, 0, 2147483674⟩)] : List (Nat × Instr)).all reads) = true := by decide +kernel
theorem test_words_compare : (([
  (0b00010000_010010_0_111_0_0_0_000_10_00000001_0_00_00001001_1_0_01_00000011_0_0_00_00000000_0_000_000_000_000000_000_00000000, .icmp .lt true .w32 ⟨hd, .p 1, ⟨.v 9, false, true⟩, ⟨.s 3, false, false⟩, no, 0, .slot, .none, 0, 0⟩),
  (0b00010001_101001_0_111_0_0_0_000_10_00000110_0_00_00001000_0_0_00_00000000_0_000000_00000000000000000000000001001101, .icmpIm .ge false .w64 ⟨hd, .p 6, ⟨.v 8, false, false⟩, 0, 77⟩),
  (0b00010010_110001_0_111_0_0_0_000_10_00000010_0_00_00000100_0_0_00_00000110_0_0_00_00000000_0_000_000_000_000000_000_00000000, .fcmp .un .f64 ⟨hd, .p 2, ⟨.v 4, false, false⟩, ⟨.v 6, false, false⟩, no, 0, .slot, .none, 0, 0⟩),
  (0b00010011_000000_0_111_0_0_0_000_10_00000001_0_10_00000010_0_0_10_00000011_1_0_00_00000000_0_000_000_000_000000_000_00001000, .pset ⟨hd, .p 1, ⟨.p 2, false, false⟩, ⟨.p 3, false, true⟩, no, 0, .slot, .none, 0, 8⟩),
  (0b00010011_000001_0_111_0_0_0_000_10_00000001_0_00_00000011_0_0_00_00000000_0_0_00_00000000_0_000_000_000_000000_000_00000001, .pmov ⟨hd, .p 1, ⟨.v 3, false, false⟩, no, no, 0, .slot, .none, 0, 1⟩),
  (0b00010100_000000_0_111_0_0_0_000_10_00000000_0_00_00000001_0_0_00_00000000_0_0_00_00000000_0_000_000_000_000000_000_00000101, .fclass .f32 ⟨hd, .p 0, ⟨.v 1, false, false⟩, no, no, 0, .slot, .none, 0, 5⟩),
  (0b00010101_001100_0_111_0_0_0_000_00_00000111_0_00_00000001_0_0_00_00000000_0_0_00_00000000_0_000_010_000_000000_000_00000000, .cvt .fp32 .s32 ⟨hd, .v 7, ⟨.v 1, false, false⟩, no, no, 0, .rtz, .none, 0, 0⟩),
  (0b00010110_000000_0_111_0_0_0_000_00_00001000_0_00_00000100_0_0_00_00000000_0_0_00_00000000_0_101_000_000_000000_000_00000000, .cvtqQuantise ⟨hd, .v 8, ⟨.v 4, false, false⟩, no, no, 5, .slot, .none, 0, 0⟩),
  (0b00010110_000001_0_111_0_0_0_000_00_00001000_0_00_00000100_0_0_00_00000000_0_0_00_00000000_0_101_000_000_000000_000_00000000, .cvtqDequantise ⟨hd, .v 8, ⟨.v 4, false, false⟩, no, no, 5, .slot, .none, 0, 0⟩)] : List (Nat × Instr)).all reads) = true := by decide +kernel
theorem test_words_float1 : (([
  (0b00100000_000000_0_111_0_0_0_000_00_00001000_0_00_00000010_0_0_00_00000011_0_0_00_00000000_0_000_000_011_011110_000_00000000, .fadd ⟨hd, .v 8, ⟨.v 2, false, false⟩, ⟨.v 3, false, false⟩, no, 0, .slot, .dn, 30, 0⟩),
  (0b00100000_000001_0_111_0_0_0_000_00_00001000_0_00_00000010_0_0_00_00000011_0_0_00_00000000_0_001_011_000_000000_000_00000000, .fsub ⟨hd, .v 8, ⟨.v 2, false, false⟩, ⟨.v 3, false, false⟩, no, 1, .rup, .none, 0, 0⟩),
  (0b00100000_000010_0_111_0_0_0_000_00_00001000_0_00_00000010_0_0_00_00000011_0_0_00_00000000_0_000_000_000_000000_000_00000000, .fmul ⟨hd, .v 8, ⟨.v 2, false, false⟩, ⟨.v 3, false, false⟩, no, 0, .slot, .none, 0, 0⟩),
  (0b00100000_000011_0_010_1_0_0_000_00_00001000_0_00_00000010_0_0_00_00000011_0_0_00_00001000_0_011_000_000_000000_000_00000000, .ffma ⟨⟨false, 2, true, false, false⟩, .v 8, ⟨.v 2, false, false⟩, ⟨.v 3, false, false⟩, ⟨.v 8, false, false⟩, 3, .slot, .none, 0, 0⟩),
  (0b00100000_000100_0_111_0_0_0_000_00_00001000_0_00_00000010_0_0_00_00000011_0_0_00_00000000_0_000_000_000_000000_000_00000000, .fmin ⟨hd, .v 8, ⟨.v 2, false, false⟩, ⟨.v 3, false, false⟩, no, 0, .slot, .none, 0, 0⟩),
  (0b00100000_000101_0_111_0_0_0_000_00_00001000_0_00_00000010_0_0_00_00000011_0_0_00_00000000_0_000_000_000_000000_000_00000000, .fmax ⟨hd, .v 8, ⟨.v 2, false, false⟩, ⟨.v 3, false, false⟩, no, 0, .slot, .none, 0, 0⟩),
  (0b00100000_000110_0_111_0_0_0_000_00_00001000_0_00_00000010_0_0_00_00000011_0_0_00_00000000_0_000_000_000_000000_000_00000000, .fdiv ⟨hd, .v 8, ⟨.v 2, false, false⟩, ⟨.v 3, false, false⟩, no, 0, .slot, .none, 0, 0⟩),
  (0b00100000_000111_0_111_0_0_0_000_00_00001000_0_00_00000010_0_0_00_00000000_0_0_00_00000000_0_111_000_000_000000_000_00000000, .fsqrt ⟨hd, .v 8, ⟨.v 2, false, false⟩, no, no, 7, .slot, .none, 0, 0⟩),
  (0b00100000_001000_0_111_0_0_0_000_00_00001000_0_00_00000010_0_0_00_00000000_0_0_00_00000000_0_000_000_000_000000_000_00000000, .frcp ⟨hd, .v 8, ⟨.v 2, false, false⟩, no, no, 0, .slot, .none, 0, 0⟩),
  (0b00100000_001001_0_111_0_0_0_000_00_00001000_0_00_00000010_0_0_00_00000000_0_0_00_00000000_0_001_000_000_000000_000_00000000, .fexp2 ⟨hd, .v 8, ⟨.v 2, false, false⟩, no, no, 1, .slot, .none, 0, 0⟩),
  (0b00100000_001010_0_111_0_0_0_000_00_00001000_0_00_00000010_0_0_00_00000000_0_0_00_00000000_0_000_000_000_000000_000_00000000, .flog2 ⟨hd, .v 8, ⟨.v 2, false, false⟩, no, no, 0, .slot, .none, 0, 0⟩),
  (0b00100001_000000_0_111_0_0_0_000_00_00001000_0_00_00000010_1_0_00_00000000_0_011010_00111111100000000000000000000000, .faddIm ⟨hd, .v 8, ⟨.v 2, false, true⟩, 26, 1065353216⟩)] : List (Nat × Instr)).all reads) = true := by decide +kernel
theorem test_words_float2 : (([
  (0b00100001_000001_0_111_0_0_0_000_00_00001000_0_00_00000010_1_0_00_00000000_0_011010_00111111100000000000000000000000, .fsubIm ⟨hd, .v 8, ⟨.v 2, false, true⟩, 26, 1065353216⟩),
  (0b00100001_000010_0_111_0_0_0_000_00_00001000_0_00_00000010_1_0_00_00000000_0_011010_00111111100000000000000000000000, .fmulIm ⟨hd, .v 8, ⟨.v 2, false, true⟩, 26, 1065353216⟩),
  (0b00100001_000100_0_111_0_0_0_000_00_00001000_0_00_00000010_1_0_00_00000000_0_000010_00111111100000000000000000000000, .fminIm ⟨hd, .v 8, ⟨.v 2, false, true⟩, 2, 1065353216⟩),
  (0b00100001_000101_0_111_0_0_0_000_00_00001000_0_00_00000010_1_0_00_00000000_0_000010_00111111100000000000000000000000, .fmaxIm ⟨hd, .v 8, ⟨.v 2, false, true⟩, 2, 1065353216⟩),
  (0b00100010_000000_0_111_0_0_0_000_00_00001000_0_00_00000010_0_0_00_00000011_0_0_00_00000000_0_001_000_000_000000_000_00000000, .hadd2 .fp16 ⟨hd, .v 8, ⟨.v 2, false, false⟩, ⟨.v 3, false, false⟩, no, 1, .slot, .none, 0, 0⟩),
  (0b00100010_000011_0_111_0_0_0_000_00_00001000_0_00_00000010_0_0_00_00000011_0_0_00_00000000_0_001_000_000_000000_000_00000000, .hmul2 .bf16 ⟨hd, .v 8, ⟨.v 2, false, false⟩, ⟨.v 3, false, false⟩, no, 1, .slot, .none, 0, 0⟩),
  (0b00100010_000100_0_111_0_0_0_000_00_00001000_0_00_00000010_0_0_00_00000011_0_0_00_00000100_0_001_000_000_000000_000_00000000, .hfma2 .fp16 ⟨hd, .v 8, ⟨.v 2, false, false⟩, ⟨.v 3, false, false⟩, ⟨.v 4, false, false⟩, 1, .slot, .none, 0, 0⟩),
  (0b00110000_000000_0_111_0_0_0_000_00_00001000_0_00_00000010_0_0_01_00000011_0_0_00_00000000_0_000_000_000_000000_000_00000000, .dadd ⟨hd, .v 8, ⟨.v 2, false, false⟩, ⟨.s 3, false, false⟩, no, 0, .slot, .none, 0, 0⟩),
  (0b00110000_000001_0_111_0_0_0_000_00_00001000_0_00_00000010_0_0_01_00000011_0_0_00_00000000_0_000_000_000_000000_000_00000000, .dsub ⟨hd, .v 8, ⟨.v 2, false, false⟩, ⟨.s 3, false, false⟩, no, 0, .slot, .none, 0, 0⟩),
  (0b00110000_000010_0_111_0_0_0_000_00_00001000_0_00_00000010_0_0_01_00000011_0_0_00_00000000_0_000_000_000_000000_000_00000000, .dmul ⟨hd, .v 8, ⟨.v 2, false, false⟩, ⟨.s 3, false, false⟩, no, 0, .slot, .none, 0, 0⟩),
  (0b00110000_000011_0_111_0_0_0_000_00_00001000_0_00_00000010_0_0_01_00000011_0_0_00_00001100_0_000_000_000_000000_000_00000000, .dfma ⟨hd, .v 8, ⟨.v 2, false, false⟩, ⟨.s 3, false, false⟩, ⟨.v 12, false, false⟩, 0, .slot, .none, 0, 0⟩),
  (0b00110000_000100_0_111_0_0_0_000_00_00001000_0_00_00000010_0_0_01_00000011_0_0_00_00000000_0_000_000_000_000000_000_00000000, .dmin ⟨hd, .v 8, ⟨.v 2, false, false⟩, ⟨.s 3, false, false⟩, no, 0, .slot, .none, 0, 0⟩)] : List (Nat × Instr)).all reads) = true := by decide +kernel
theorem test_words_float3 : (([
  (0b00110000_000101_0_111_0_0_0_000_00_00001000_0_00_00000010_0_0_01_00000011_0_0_00_00000000_0_000_000_000_000000_000_00000000, .dmax ⟨hd, .v 8, ⟨.v 2, false, false⟩, ⟨.s 3, false, false⟩, no, 0, .slot, .none, 0, 0⟩),
  (0b00110000_000110_0_111_0_0_0_000_00_00001000_0_00_00000010_0_0_01_00000011_0_0_00_00000000_0_000_000_000_000000_000_00000000, .ddiv ⟨hd, .v 8, ⟨.v 2, false, false⟩, ⟨.s 3, false, false⟩, no, 0, .slot, .none, 0, 0⟩),
  (0b00110000_000111_0_111_0_0_0_000_00_00001000_0_00_00000010_0_0_00_00000000_0_0_00_00000000_0_000_000_000_000000_000_00000000, .dsqrt ⟨hd, .v 8, ⟨.v 2, false, false⟩, no, no, 0, .slot, .none, 0, 0⟩),
  (0b00111000_000000_0_111_0_0_0_000_00_00000001_0_00_00000010_0_0_00_00000000_0_0_00_00000000_0_000_000_000_000000_000_00000001, .tagrd ⟨hd, .v 1, ⟨.v 2, false, false⟩, no, no, 0, .slot, .none, 0, 1⟩),
  (0b00111000_000001_0_111_0_0_0_000_00_00000001_0_00_00000011_0_0_00_00000101_0_0_00_00000000_0_000_000_000_000000_000_00000000, .tagwr ⟨hd, .v 1, ⟨.v 3, false, false⟩, ⟨.v 5, false, false⟩, no, 0, .slot, .none, 0, 0⟩),
  (0b00111001_000101_0_111_0_0_0_000_10_00000001_0_00_00000010_0_0_00_00000000_0_000001_00000000000000000000000000010100, .psig .ge ⟨hd, .p 1, ⟨.v 2, false, false⟩, 1, 20⟩)] : List (Nat × Instr)).all reads) = true := by decide +kernel
theorem test_words_control1 : (([
  (0b01000000_000000_0_111_0_0_0_000_00_00000000_0_00_00000000_0_0_00_00000000_0_11111111111111111111111111111111111111, .bra ⟨hd, .v 0, 274877906943⟩),
  (0b01000000_000001_1_011_0_0_0_000_01_00101000_0_00_00000000_0_0_00_00000000_0_00000000000000000000000000000000000101, .call ⟨⟨true, 3, false, false, false⟩, .s 40, 5⟩),
  (0b01000001_000000_0_111_0_0_0_000_00_00000000_0_00_00001001_0_0_00_00000000_0_0_00_00000000_0_000_000_000_000000_000_00000000, .brx ⟨hd, .v 0, ⟨.v 9, false, false⟩, no, no, 0, .slot, .none, 0, 0⟩),
  (0b01000001_000001_0_111_0_0_0_000_00_00000000_0_01_00101000_0_0_00_00000000_0_0_00_00000000_0_000_000_000_000000_000_00000000, .ret ⟨hd, .v 0, ⟨.s 40, false, false⟩, no, no, 0, .slot, .none, 0, 0⟩),
  (0b01000001_000010_0_111_0_0_0_000_00_00000000_0_00_00000000_0_0_00_00000000_0_0_00_00000000_0_000_000_000_000000_000_00000000, .exit ⟨hd, .v 0, no, no, no, 0, .slot, .none, 0, 0⟩),
  (0b01000001_000011_0_111_0_0_0_000_00_00000000_0_00_00000000_0_0_00_00000000_0_0_00_00000000_0_000_000_000_000000_000_00000000, .halt ⟨hd, .v 0, no, no, no, 0, .slot, .none, 0, 0⟩),
  (0b01000001_000100_0_111_1_0_1_000_00_00000000_0_00_00000000_0_0_00_00000000_0_0_00_00000000_0_000_000_000_000000_000_00000000, .nop ⟨⟨false, 7, true, false, true⟩, .v 0, no, no, no, 0, .slot, .none, 0, 0⟩),
  (0b01000010_000000_0_111_0_0_0_000_00_00000000_0_00_00000111_0_0_00_00000000_0_0_00_00000000_0_000_000_000_000000_000_00000000, .fewait ⟨hd, .v 0, ⟨.v 7, false, false⟩, no, no, 0, .slot, .none, 0, 0⟩),
  (0b01000010_000001_0_111_0_0_0_000_00_00001000_0_00_00000000_0_0_00_00000000_0_0_00_00000000_0_000_000_000_000000_000_00000001, .feset ⟨hd, .v 8, no, no, no, 0, .slot, .none, 0, 1⟩),
  (0b01000010_000010_0_111_0_0_0_000_00_00001001_0_00_00000000_0_0_00_00000000_0_0_00_00000000_0_000_000_000_000000_000_00000000, .feclr ⟨hd, .v 9, no, no, no, 0, .slot, .none, 0, 0⟩),
  (0b01000011_000000_0_111_0_0_0_000_10_00000011_0_00_00000000_0_0_00_00000000_0_000000_00000000000000000000000000100000, .rgrow ⟨hd, .p 3, no, 0, 32⟩),
  (0b01000011_000001_0_111_0_0_0_000_00_00000000_0_00_00000000_0_0_00_00000000_0_000000_00000000000000000000000000010000, .rshr ⟨hd, .v 0, no, 0, 16⟩)] : List (Nat × Instr)).all reads) = true := by decide +kernel
theorem test_words_control2 : (([
  (0b01000100_000000_0_111_0_0_0_000_00_00000000_0_00_00000000_0_0_00_00000000_0_000000_11011110101011011011111011101111, .trap ⟨hd, .v 0, no, 0, 3735928559⟩),
  (0b01000101_000000_0_111_0_0_0_000_00_00000000_0_00_00000000_0_0_00_00000000_0_0_00_00000000_0_000_000_000_000000_000_00000000, .eretRestart ⟨hd, .v 0, no, no, no, 0, .slot, .none, 0, 0⟩),
  (0b01000101_000000_0_111_0_0_0_000_00_00000000_0_00_00000000_0_0_00_00000000_0_0_00_00000000_0_000_000_000_000000_000_00000001, .eretSkip ⟨hd, .v 0, no, no, no, 0, .slot, .none, 0, 1⟩),
  (0b01000110_000000_0_111_0_0_0_000_00_00000100_0_00_00000000_0_0_00_00000000_0_000000_00000000000000000000000000001000, .crd ⟨hd, .v 4, no, 0, 8⟩),
  (0b01000110_000001_0_111_0_0_0_000_00_00000000_0_01_00000100_0_0_00_00000000_0_000000_00000000000000000000000000010011, .cwr ⟨hd, .v 0, ⟨.s 4, false, false⟩, 0, 19⟩)] : List (Nat × Instr)).all reads) = true := by decide +kernel
theorem test_words_lanes : (([
  (0b01010000_000000_0_111_0_0_0_000_00_00000001_0_00_00000010_0_0_00_00000000_0_0_00_00000000_0_000_000_100_010000_000_00000000, .lshf ⟨hd, .v 1, ⟨.v 2, false, false⟩, no, no, 0, .slot, .xr, 16, 0⟩),
  (0b01010000_000001_0_111_0_0_0_000_01_00000001_0_00_00000010_0_0_00_00000000_0_0_00_00000000_0_000_000_000_011111_000_00000000, .lbc ⟨hd, .s 1, ⟨.v 2, false, false⟩, no, no, 0, .slot, .none, 31, 0⟩),
  (0b01010000_000010_0_111_0_0_0_000_01_00000001_0_10_00000010_0_0_00_00000000_0_0_00_00000000_0_000_000_000_000000_000_00000011, .lvote ⟨hd, .s 1, ⟨.p 2, false, false⟩, no, no, 0, .slot, .none, 0, 3⟩),
  (0b01010000_000011_0_111_0_0_0_000_00_00000001_0_00_00000010_0_0_00_00000000_0_0_00_00000000_0_000_000_000_000000_000_00000000, .lscan ⟨hd, .v 1, ⟨.v 2, false, false⟩, no, no, 0, .slot, .none, 0, 0⟩),
  (0b01010000_000100_0_111_0_0_0_000_00_00000001_0_00_00000010_0_0_00_00000000_0_0_00_00000000_0_000_000_000_000000_000_00000000, .lred ⟨hd, .v 1, ⟨.v 2, false, false⟩, no, no, 0, .slot, .none, 0, 0⟩),
  (0b01010000_000101_0_111_0_0_0_000_10_00000001_0_10_00000010_0_0_00_00000000_0_0_00_00000000_0_000_000_000_000000_000_00000001, .lelect ⟨hd, .p 1, ⟨.p 2, false, false⟩, no, no, 0, .slot, .none, 0, 1⟩),
  (0b01010000_000110_0_111_0_0_0_000_00_00000001_0_00_00000000_0_0_00_00000000_0_0_00_00000000_0_000_000_000_000000_000_00000100, .lpc ⟨hd, .v 1, no, no, no, 0, .slot, .none, 0, 4⟩),
  (0b01010001_000000_0_111_0_0_0_000_00_00000000_0_00_00000000_0_0_00_00000000_0_000000_00000000000000000000000000011010, .barSync ⟨hd, .v 0, no, 0, 26⟩),
  (0b01010001_000001_0_111_0_0_0_000_00_00000000_0_00_00000000_0_0_00_00000000_0_000000_00000000000000000000000000011010, .barArv ⟨hd, .v 0, no, 0, 26⟩),
  (0b01010001_000010_0_111_0_0_0_000_00_00000000_0_00_00000000_0_0_00_00000000_0_000000_00000000000000000000000000011010, .barWait ⟨hd, .v 0, no, 0, 26⟩),
  (0b01010010_000000_0_111_0_0_0_000_00_00010000_0_00_00000010_0_0_00_00000011_0_0_00_00000000_0_000_000_000_000000_000_00000011, .topki ⟨hd, .v 16, ⟨.v 2, false, false⟩, ⟨.v 3, false, false⟩, no, 0, .slot, .none, 0, 3⟩),
  (0b01010011_000000_0_111_0_0_0_000_00_00010000_0_01_00000010_0_0_00_00000100_0_0_00_00000000_0_000_000_000_000000_000_00000000, .rng ⟨hd, .v 16, ⟨.s 2, false, false⟩, ⟨.v 4, false, false⟩, no, 0, .slot, .none, 0, 0⟩)] : List (Nat × Instr)).all reads) = true := by decide +kernel
theorem test_words_memory1 : (([
  (0b01100000_000000_0_111_0_0_0_000_00_00000100_0_00_00000001_0_0_00_00000000_0_0001_010_10_010_010_01_111111111111111111101, .ld ⟨hd, .v 4, ⟨.v 1, false, false⟩, no, 1, .cluster, .acq, .b32, 2, 1, 2097149⟩),
  (0b01100000_000001_0_111_0_0_0_000_00_00000000_0_00_00000001_0_0_00_00000110_0_1111_000_00_011_000_00_000000000000000000000, .st ⟨hd, .v 0, ⟨.v 1, false, false⟩, ⟨.v 6, false, false⟩, 15, .team, .weak, .b64, 0, 0, 0⟩),
  (0b01100000_000010_0_111_0_0_0_000_00_00000000_0_00_00000001_0_0_00_00000000_0_0010_000_00_010_000_00_000000000000000000000, .pref ⟨hd, .v 0, ⟨.v 1, false, false⟩, no, 2, .team, .weak, .b32, 0, 0, 0⟩),
  (0b01100001_000000_0_111_0_0_0_000_11_00000011_0_01_00000001_0_0_00_00000000_0_0010_000_00_011_000_00_000000000000000000000, .brld ⟨hd, .x 3, ⟨.s 1, false, false⟩, no, 2, .team, .weak, .b64, 0, 0, 0⟩),
  (0b01100010_000000_0_111_0_0_0_000_11_00000011_0_01_00001000_0_0_00_00000000_0_0_00_00000000_0_000_000_000_000000_000_00000000, .brmk ⟨hd, .x 3, ⟨.s 8, false, false⟩, no, no, 0, .slot, .none, 0, 0⟩),
  (0b01100011_000000_0_111_0_0_0_000_00_00000100_0_00_00000001_0_0_00_00000000_0_0000_000_00_010_000_00_000000000000000000000, .lds ⟨hd, .v 4, ⟨.v 1, false, false⟩, no, 0, .team, .weak, .b32, 0, 0, 0⟩),
  (0b01100011_000001_0_111_0_0_0_000_00_00000100_0_00_00000001_0_0_00_00000000_0_0000_000_00_010_000_00_000000000000000000000, .sts ⟨hd, .v 4, ⟨.v 1, false, false⟩, no, 0, .team, .weak, .b32, 0, 0, 0⟩),
  (0b01100011_000010_0_111_0_0_0_000_00_00000100_0_00_00000001_0_0_00_00000000_0_0001_000_00_001_000_00_000000000000000000000, .ldw ⟨hd, .v 4, ⟨.v 1, false, false⟩, no, 1, .team, .weak, .b16, 0, 0, 0⟩),
  (0b01100100_000000_0_111_0_0_0_000_00_00000100_0_00_00000001_0_0_00_00000000_0_0011_000_00_010_000_00_000000000000000000000, .ldt ⟨hd, .v 4, ⟨.v 1, false, false⟩, no, 3, .team, .weak, .b32, 0, 0, 0⟩),
  (0b01100100_000001_0_111_0_0_0_000_00_00000100_0_00_00000110_0_0_00_00000000_0_0_10_00000001_0_000_000_000_000000_000_00000000, .rdm ⟨hd, .v 4, ⟨.v 6, false, false⟩, no, ⟨.p 1, false, false⟩, 0, .slot, .none, 0, 0⟩),
  (0b01100100_000010_0_111_0_0_0_000_10_00000001_0_00_00000110_0_0_00_00000000_0_0_00_00000000_0_000_000_000_000000_000_00000000, .tkdrop ⟨hd, .p 1, ⟨.v 6, false, false⟩, no, no, 0, .slot, .none, 0, 0⟩),
  (0b01100101_000000_0_111_0_0_0_000_00_00000100_0_00_00000001_0_0_00_00000110_0_0000_100_01_010_000_00_000000000000000000000, .atomAdd ⟨hd, .v 4, ⟨.v 1, false, false⟩, ⟨.v 6, false, false⟩, 0, .device, .rlx, .b32, 0, 0, 0⟩)] : List (Nat × Instr)).all reads) = true := by decide +kernel
theorem test_words_memory2 : (([
  (0b01100101_000001_0_111_0_0_0_000_00_00000100_0_00_00000001_0_0_00_00000110_0_0001_100_01_011_000_00_000000000000000000000, .atomUmin ⟨hd, .v 4, ⟨.v 1, false, false⟩, ⟨.v 6, false, false⟩, 1, .device, .rlx, .b64, 0, 0, 0⟩),
  (0b01100101_000010_0_111_0_0_0_000_00_00000100_0_00_00000001_0_0_00_00000110_0_0010_100_01_010_000_00_000000000000000000000, .atomUmax ⟨hd, .v 4, ⟨.v 1, false, false⟩, ⟨.v 6, false, false⟩, 2, .device, .rlx, .b32, 0, 0, 0⟩),
  (0b01100101_000011_0_111_0_0_0_000_00_00000100_0_00_00000001_0_0_00_00000110_0_0011_100_01_011_000_00_000000000000000000000, .atomSmin ⟨hd, .v 4, ⟨.v 1, false, false⟩, ⟨.v 6, false, false⟩, 3, .device, .rlx, .b64, 0, 0, 0⟩),
  (0b01100101_000100_0_111_0_0_0_000_00_00000100_0_00_00000001_0_0_00_00000110_0_0100_100_01_010_000_00_000000000000000000000, .atomSmax ⟨hd, .v 4, ⟨.v 1, false, false⟩, ⟨.v 6, false, false⟩, 4, .device, .rlx, .b32, 0, 0, 0⟩),
  (0b01100101_000101_0_111_0_0_0_000_00_00000100_0_00_00000001_0_0_00_00000110_0_0101_100_01_011_000_00_000000000000000000000, .atomAnd ⟨hd, .v 4, ⟨.v 1, false, false⟩, ⟨.v 6, false, false⟩, 5, .device, .rlx, .b64, 0, 0, 0⟩),
  (0b01100101_000110_0_111_0_0_0_000_00_00000100_0_00_00000001_0_0_00_00000110_0_0110_100_01_010_000_00_000000000000000000000, .atomOr ⟨hd, .v 4, ⟨.v 1, false, false⟩, ⟨.v 6, false, false⟩, 6, .device, .rlx, .b32, 0, 0, 0⟩),
  (0b01100101_000111_0_111_0_0_0_000_00_00000100_0_00_00000001_0_0_00_00000110_0_0111_100_01_011_000_00_000000000000000000000, .atomXor ⟨hd, .v 4, ⟨.v 1, false, false⟩, ⟨.v 6, false, false⟩, 7, .device, .rlx, .b64, 0, 0, 0⟩),
  (0b01100101_001000_0_111_0_0_0_000_00_00000100_0_00_00000001_0_0_00_00000110_0_1000_100_01_010_000_00_000000000000000000000, .atomExch ⟨hd, .v 4, ⟨.v 1, false, false⟩, ⟨.v 6, false, false⟩, 8, .device, .rlx, .b32, 0, 0, 0⟩),
  (0b01100101_001001_0_111_0_0_0_000_00_00000100_0_00_00000001_0_0_00_00000110_0_1001_100_01_011_000_00_000000000000000000000, .atomCas ⟨hd, .v 4, ⟨.v 1, false, false⟩, ⟨.v 6, false, false⟩, 9, .device, .rlx, .b64, 0, 0, 0⟩),
  (0b01100110_000000_0_111_0_0_0_000_00_00000000_0_00_00000001_0_0_00_00000110_0_0100_000_00_010_000_00_000000000000000000000, .xredFp32 ⟨hd, .v 0, ⟨.v 1, false, false⟩, ⟨.v 6, false, false⟩, 4, .team, .weak, .b32, 0, 0, 0⟩),
  (0b01100110_000001_0_111_0_0_0_000_00_00000000_0_00_00000001_0_0_00_00000110_0_0100_000_00_011_000_00_000000000000000000000, .xredFp64 ⟨hd, .v 0, ⟨.v 1, false, false⟩, ⟨.v 6, false, false⟩, 4, .team, .weak, .b64, 0, 0, 0⟩),
  (0b01100110_000010_0_111_0_0_0_000_00_00000011_0_00_00000001_0_0_00_00000000_0_0100_000_00_010_000_00_000000000000000000000, .xrdFp32 ⟨hd, .v 3, ⟨.v 1, false, false⟩, no, 4, .team, .weak, .b32, 0, 0, 0⟩)] : List (Nat × Instr)).all reads) = true := by decide +kernel
theorem test_words_memory3 : (([
  (0b01100110_000011_0_111_0_0_0_000_00_00001000_0_00_00000001_0_0_00_00000000_0_0100_000_00_011_000_00_000000000000000000000, .xrdFp64 ⟨hd, .v 8, ⟨.v 1, false, false⟩, no, 4, .team, .weak, .b64, 0, 0, 0⟩),
  (0b01100111_000000_0_111_0_0_0_000_00_00001000_0_00_00000001_0_0_00_00000110_0_0100_000_00_011_000_00_000000000000000000000, .expq ⟨hd, .v 8, ⟨.v 1, false, false⟩, ⟨.v 6, false, false⟩, 4, .team, .weak, .b64, 0, 0, 0⟩),
  (0b01101000_000000_0_111_0_0_0_000_00_00000000_0_00_00000000_0_0_00_00000000_0_0000_101_1_1_000_000000_00000000000000000000, .fence ⟨hd, .v 0, no, no, .system, true, true, 0, 0, 0⟩),
  (0b01101001_000000_0_111_0_0_0_000_00_00000000_0_00_00000001_0_0_01_00000010_0_0_00_00000000_0_000_000_000_000000_000_00000000, .lnwait ⟨hd, .v 0, ⟨.v 1, false, false⟩, ⟨.s 2, false, false⟩, no, 0, .slot, .none, 0, 0⟩),
  (0b01101001_000001_0_111_0_0_0_000_00_00000000_0_00_00000001_0_0_01_00000010_0_0_00_00000000_0_000_000_000_000000_000_00000000, .lnset ⟨hd, .v 0, ⟨.v 1, false, false⟩, ⟨.s 2, false, false⟩, no, 0, .slot, .none, 0, 0⟩),
  (0b01101001_000010_0_111_0_0_0_000_00_00000000_0_00_00000001_0_0_01_00000010_0_0_00_00000000_0_000_000_000_000000_000_00000000, .lnclr ⟨hd, .v 0, ⟨.v 1, false, false⟩, ⟨.s 2, false, false⟩, no, 0, .slot, .none, 0, 0⟩),
  (0b01101010_000000_0_111_0_0_0_000_00_00000000_0_00_00000100_0_0_01_00000010_0_0_00_00000000_0_000_000_000_000000_000_00000100, .spl ⟨hd, .v 0, ⟨.v 4, false, false⟩, ⟨.s 2, false, false⟩, no, 0, .slot, .none, 0, 4⟩),
  (0b01101010_000001_0_111_0_0_0_000_00_00000100_0_00_00000000_0_0_01_00000010_0_0_00_00000000_0_000_000_000_000000_000_00000100, .fil ⟨hd, .v 4, no, ⟨.s 2, false, false⟩, no, 0, .slot, .none, 0, 4⟩)] : List (Nat × Instr)).all reads) = true := by decide +kernel
theorem test_words_engines1 : (([
  (0b01110000_000000_0_111_0_0_0_000_00_00000000_0_00_00000000_0_0_01_00000011_0_0000_011_1_0_000_000111_00000000000001000000, .cpy ⟨hd, .v 0, no, ⟨.s 3, false, false⟩, .die, true, false, 0, 7, 64⟩),
  (0b01110000_000001_0_111_0_0_0_000_00_00000000_0_00_00000000_0_0_01_00000011_0_0000_000_0_0_000_000010_00000000000000000000, .cpyc ⟨hd, .v 0, no, ⟨.s 3, false, false⟩, .team, false, false, 0, 2, 0⟩),
  (0b01110000_000010_0_111_0_0_0_000_00_00000000_0_01_00000011_0_0_00_00000000_0_0000_000_0_0_000_000010_00000000000000000000, .wpwait ⟨hd, .v 0, ⟨.s 3, false, false⟩, no, .team, false, false, 0, 2, 0⟩),
  (0b01110001_000000_0_111_0_0_0_000_11_00001001_0_00_00000000_0_0_01_00000011_0_0000_000_0_0_000_000000_00000000000000000000, .talloc ⟨hd, .x 9, no, ⟨.s 3, false, false⟩, .team, false, false, 0, 0, 0⟩),
  (0b01110001_000010_0_111_0_0_0_000_11_00001001_0_00_00000000_0_0_01_00000011_0_0000_000_0_0_000_000000_00000000000000000000, .tld ⟨hd, .x 9, no, ⟨.s 3, false, false⟩, .team, false, false, 0, 0, 0⟩),
  (0b01110001_000101_0_111_0_0_0_000_11_00001001_0_00_00000000_0_0_01_00000011_0_0000_000_0_0_000_000000_00000000000000000000, .tlr ⟨hd, .x 9, no, ⟨.s 3, false, false⟩, .team, false, false, 0, 0, 0⟩),
  (0b01110001_000001_0_111_0_0_0_000_11_00001001_0_00_00000000_0_0_00_00000000_0_0000_000_0_0_000_000000_00000000000000000000, .tfree ⟨hd, .x 9, no, no, .team, false, false, 0, 0, 0⟩),
  (0b01110001_000011_0_111_0_0_0_000_00_00000000_0_11_00001001_0_0_01_00000011_0_0000_000_0_0_000_000000_00000000000000000000, .tst ⟨hd, .v 0, ⟨.x 9, false, false⟩, ⟨.s 3, false, false⟩, .team, false, false, 0, 0, 0⟩),
  (0b01110001_000100_0_111_0_0_0_000_11_00001001_0_00_00000000_0_0_00_00000000_0_0000_000_0_0_000_000000_00000000000000000000, .tzero ⟨hd, .x 9, no, no, .team, false, false, 0, 0, 0⟩),
  (0b01110001_000110_0_111_0_0_0_000_01_00000100_0_11_00001001_0_0_00_00000000_0_0000_000_0_0_000_000000_00000000000000000000, .tinfo ⟨hd, .s 4, ⟨.x 9, false, false⟩, no, .team, false, false, 0, 0, 0⟩),
  (0b01110001_000111_0_111_0_0_0_000_00_00000000_0_11_00001001_0_0_00_00000000_0_0000_000_0_0_000_000000_00000000000000000000, .twait ⟨hd, .v 0, ⟨.x 9, false, false⟩, no, .team, false, false, 0, 0, 0⟩),
  (0b01110010_000000_0_111_0_0_0_000_11_00001001_0_00_00000000_0_0_01_00000011_0_0000_000_0_0_000_000000_00000000000000000000, .tmul ⟨hd, .x 9, no, ⟨.s 3, false, false⟩, .team, false, false, 0, 0, 0⟩)] : List (Nat × Instr)).all reads) = true := by decide +kernel
theorem test_words_engines2 : (([
  (0b01110010_000001_0_111_0_0_0_000_11_00001001_0_00_00000000_0_0_01_00000011_0_0000_000_0_0_000_000000_00000000000000000000, .tadd ⟨hd, .x 9, no, ⟨.s 3, false, false⟩, .team, false, false, 0, 0, 0⟩),
  (0b01110010_000010_0_111_0_0_0_000_11_00001001_0_00_00000000_0_0_00_00000000_0_0000_000_0_0_000_000000_00000000000000000000, .trnd ⟨hd, .x 9, no, no, .team, false, false, 0, 0, 0⟩),
  (0b01110010_000011_0_111_0_0_0_000_11_00001001_0_00_00000000_0_0_00_00000000_0_0000_000_0_0_000_000000_00000000000000000000, .tdns ⟨hd, .x 9, no, no, .team, false, false, 0, 0, 0⟩),
  (0b01110010_000100_0_111_0_0_0_000_11_00001001_0_00_00000000_0_0_00_00000000_0_0000_000_0_0_000_000000_00000000000000000000, .tfac ⟨hd, .x 9, no, no, .team, false, false, 0, 0, 0⟩),
  (0b01110010_000101_0_111_0_0_0_000_11_00001001_0_11_00001000_0_0_00_00000000_0_0000_000_0_0_000_000000_00000000000000000010, .ttrs ⟨hd, .x 9, ⟨.x 8, false, false⟩, no, .team, false, false, 0, 0, 2⟩),
  (0b01110011_000000_0_111_0_0_0_000_00_00000000_0_00_00000000_0_0_01_00000011_0_0000_000_0_0_000_100001_00000000000000000000, .coll ⟨hd, .v 0, no, ⟨.s 3, false, false⟩, .team, false, false, 0, 33, 0⟩),
  (0b10000000_000000_0_111_0_0_0_000_01_00000110_0_01_00000111_0_0_11_00000001_0_0000_000_0_0_000_000000_00000000000000000000, .launch ⟨hd, .s 6, ⟨.s 7, false, false⟩, ⟨.x 1, false, false⟩, .team, false, false, 0, 0, 0⟩),
  (0b10000001_000000_0_111_0_0_0_000_00_00000000_0_01_00000111_0_0_00_00000000_0_0000_000_0_0_000_000000_00000000111111111111, .evsig ⟨hd, .v 0, ⟨.s 7, false, false⟩, no, .team, false, false, 0, 0, 4095⟩),
  (0b10000001_000001_0_111_0_0_0_000_00_00000000_0_01_00000111_0_0_00_00000000_0_0000_100_1_0_000_000000_00000000111111111111, .evwait ⟨hd, .v 0, ⟨.s 7, false, false⟩, no, .device, true, false, 0, 0, 4095⟩)] : List (Nat × Instr)).all reads) = true := by decide +kernel
theorem test_words_units1 : (([
  (0b10001000_000000_0_111_0_0_0_000_00_00000001_0_00_00000010_0_0_00_00000011_0_0_00_00000000_0_000_000_000_000000_000_00000000, .seqcm ⟨hd, .v 1, ⟨.v 2, false, false⟩, ⟨.v 3, false, false⟩, no, 0, .slot, .none, 0, 0⟩),
  (0b10001000_000001_0_111_0_0_0_000_00_00000001_0_00_00000010_0_0_00_00000011_0_0_00_00000000_0_000_000_000_000000_000_00000000, .seqcmT ⟨hd, .v 1, ⟨.v 2, false, false⟩, ⟨.v 3, false, false⟩, no, 0, .slot, .none, 0, 0⟩),
  (0b10001000_000010_0_111_0_0_0_000_00_00000001_0_00_00000010_0_0_00_00000011_0_0_00_00000000_0_000_000_000_000000_000_00000000, .seqcf ⟨hd, .v 1, ⟨.v 2, false, false⟩, ⟨.v 3, false, false⟩, no, 0, .slot, .none, 0, 0⟩),
  (0b10001000_000011_0_111_0_0_0_000_00_00000000_0_00_00000000_0_0_00_00000000_0_0000_000_0_0_000_000000_00000000000000000000, .seqfn ⟨hd, .v 0, no, no, .team, false, false, 0, 0, 0⟩),
  (0b10001000_000100_0_111_0_0_0_000_00_00000010_0_00_00000100_0_0_00_00000000_0_0_00_00000000_0_000_000_000_000000_000_00000000, .seqrdNext ⟨hd, .v 2, ⟨.v 4, false, false⟩, no, no, 0, .slot, .none, 0, 0⟩),
  (0b10001000_000100_0_111_0_0_0_000_00_00000010_0_00_00000100_0_0_00_00000000_0_0_00_00000000_0_000_000_000_000000_000_00000001, .seqrdPeek ⟨hd, .v 2, ⟨.v 4, false, false⟩, no, no, 0, .slot, .none, 0, 1⟩),
  (0b10001000_000100_0_111_0_0_0_000_00_00000010_0_00_00000000_0_0_00_00000000_0_0_00_00000000_0_000_000_000_000000_000_00000010, .seqrdTrap ⟨hd, .v 2, no, no, no, 0, .slot, .none, 0, 2⟩),
  (0b10001000_000101_0_111_0_0_0_000_00_00000001_0_00_00000010_0_0_00_00000011_0_0_01_00000100_0_000_000_000_000000_000_00000000, .seqwpEnt ⟨hd, .v 1, ⟨.v 2, false, false⟩, ⟨.v 3, false, false⟩, ⟨.s 4, false, false⟩, 0, .slot, .none, 0, 0⟩),
  (0b10001000_000101_0_111_0_0_0_000_00_00000001_0_00_00000010_0_0_00_00000011_0_0_00_00000100_0_000_000_000_000000_000_00000001, .seqwpCtr ⟨hd, .v 1, ⟨.v 2, false, false⟩, ⟨.v 3, false, false⟩, ⟨.v 4, false, false⟩, 0, .slot, .none, 0, 1⟩),
  (0b10001000_000101_0_111_0_0_0_000_00_00000001_0_00_00000010_0_0_00_00000000_0_0_00_00000000_0_000_000_000_000000_000_00000010, .seqwpInit ⟨hd, .v 1, ⟨.v 2, false, false⟩, no, no, 0, .slot, .none, 0, 2⟩),
  (0b10001000_000101_0_111_0_0_0_000_00_00000001_0_00_00000000_0_0_11_00000100_0_0_00_00000000_0_000_000_000_000000_000_00000011, .seqwpNrec ⟨hd, .v 1, no, ⟨.x 4, false, false⟩, no, 0, .slot, .none, 0, 3⟩),
  (0b10001000_000110_0_111_0_0_0_000_00_00000001_0_00_00000010_0_0_00_00000000_0_0_00_00000000_0_000_000_000_000000_000_00000000, .seqrelGo ⟨hd, .v 1, ⟨.v 2, false, false⟩, no, no, 0, .slot, .none, 0, 0⟩)] : List (Nat × Instr)).all reads) = true := by decide +kernel
theorem test_words_units2 : (([
  (0b10001000_000110_0_111_0_0_0_000_00_00000001_0_00_00000010_0_0_00_00000000_0_0_00_00000000_0_000_000_000_000000_000_00000001, .seqrelStop ⟨hd, .v 1, ⟨.v 2, false, false⟩, no, no, 0, .slot, .none, 0, 1⟩),
  (0b10001000_000110_0_111_0_0_0_000_00_00000001_0_00_00000010_0_0_00_00000000_0_0_00_00000000_0_000_000_000_000000_000_00000010, .seqrelFree ⟨hd, .v 1, ⟨.v 2, false, false⟩, no, no, 0, .slot, .none, 0, 2⟩),
  (0b10010000_000000_0_111_0_0_0_000_00_00000000_0_00_00000001_0_0_00_00000110_0_0101_000_00_010_000_00_000000000000000000000, .mst ⟨hd, .v 0, ⟨.v 1, false, false⟩, ⟨.v 6, false, false⟩, 5, .team, .weak, .b32, 0, 0, 0⟩),
  (0b10010000_000001_0_111_0_0_0_000_00_00000100_0_00_00000001_0_0_00_00000000_0_0101_000_00_010_000_00_000000000000000000000, .rld ⟨hd, .v 4, ⟨.v 1, false, false⟩, no, 5, .team, .weak, .b32, 0, 0, 0⟩),
  (0b11110000_000000_0_111_0_0_0_000_00_00000000_0_00_00000000_0_0_00_00000000_0_0000_000_0_0_000_000000_00000000000001000000, .dharv ⟨hd, .v 0, no, no, .team, false, false, 0, 0, 64⟩),
  (0b11110000_000001_0_111_0_0_0_000_00_00000000_0_01_00000100_0_0_00_00000000_0_0000_000_0_0_000_000000_00000000000000111111, .tlbinvPage ⟨hd, .v 0, ⟨.s 4, false, false⟩, no, .team, false, false, 0, 0, 63⟩),
  (0b11110000_000001_0_111_0_0_0_000_00_00000000_0_00_00000000_0_0_00_00000000_0_0000_000_0_0_000_000000_00000000000001000101, .tlbinvCtx ⟨hd, .v 0, no, no, .team, false, false, 0, 0, 69⟩),
  (0b11110000_000001_0_111_0_0_0_000_00_00000000_0_00_00000000_0_0_00_00000000_0_0000_000_0_0_000_000000_00000000000010000000, .tlbinvAll ⟨hd, .v 0, no, no, .team, false, false, 0, 0, 128⟩),
  (0b11110000_000010_0_111_0_0_0_000_01_00000001_0_01_00001000_0_0_00_00000000_0_000000_00000000000000000000000000000000, .dbgbrkHalt ⟨hd, .s 1, ⟨.s 8, false, false⟩, 0, 0⟩),
  (0b11110000_000010_0_111_0_0_0_000_01_00000001_0_01_00001000_0_0_00_00000000_0_000000_00000000000000000000000000000001, .dbgbrkResume ⟨hd, .s 1, ⟨.s 8, false, false⟩, 0, 1⟩),
  (0b11110000_000010_0_111_0_0_0_000_01_00000001_0_01_00001000_0_0_00_00000000_0_000000_00000000000000000000000000000010, .dbgbrkStep ⟨hd, .s 1, ⟨.s 8, false, false⟩, 0, 2⟩),
  (0b11110000_000010_0_111_0_0_0_000_01_00000001_0_01_00001000_0_0_00_00000000_0_000000_00000000000000000000000000000011, .dbgbrkBack ⟨hd, .s 1, ⟨.s 8, false, false⟩, 0, 3⟩)] : List (Nat × Instr)).all reads) = true := by decide +kernel
theorem test_words_units3 : (([
  (0b11110000_000010_0_111_0_0_0_000_01_00000001_0_01_00001000_0_0_00_00000000_0_000000_00000000000000000000000000000100, .dbgbrkBrk ⟨hd, .s 1, ⟨.s 8, false, false⟩, 0, 4⟩),
  (0b11110000_000010_0_111_0_0_0_000_01_00000001_0_01_00001000_0_0_00_00000000_0_000000_00000000000000000000000000000101, .dbgbrkClr ⟨hd, .s 1, ⟨.s 8, false, false⟩, 0, 5⟩),
  (0b11110000_000010_0_111_0_0_0_000_01_00000001_0_01_00001000_0_0_00_00000000_0_000000_00000000000000000000000000000110, .dbgbrkDbg ⟨hd, .s 1, ⟨.s 8, false, false⟩, 0, 6⟩)] : List (Nat × Instr)).all reads) = true := by decide +kernel

/-! ### A small machine: the state that holds a word about to be fetched, whose team is `tm` -/

def st : State := State.reset.withFetchWord 96 0
def src (o : Opd) : Src := ⟨o, false, false⟩
def z : Opd := .v 0
def rg (d a b c : Opd) (sub : BitVec 8) : RG := ⟨hd, d, src a, src b, src c, 0, .slot, .none, 0, sub⟩
def im (d a : Opd) (md : BitVec 6) (imm : BitVec 32) : IM := ⟨hd, d, src a, md, imm⟩
def mm (d a b : Opd) (size : Size) (brec : BitVec 4) : MM := ⟨hd, d, src a, src b, brec, .team, .weak, size, 0, 0, 0⟩
def en (d a b : Opd) (imm : BitVec 20) : EN := ⟨hd, d, src a, src b, .team, false, false, 0, 0, imm⟩
def all : Mask := BitVec.allOnes 32
def teamAt (s : State) (c sl : Nat) : Team := (getTeam s c sl).getD default
/-- A buffer record (R33): base, stride, extent, element size. -/
def bufRec (base stride extent esize : Nat) : BitVec 256 :=
  BitVec.ofNat 256 (base * 2 ^ 199 + stride * 2 ^ 167 + extent * 2 ^ 135 + esize * 2 ^ 132)
/-- The team with b0 of 32-bit words at 0x1000, b1 with shadow bytes 0x1000 above them, b2 of 64-B and b3 of 512-B elements, v1 = lane number × 4. -/
def team0 : Team :=
  let t := teamAt st 0 0
  let t1 := putLanes t (.v 1) false all (fun l => BitVec.ofNat 64 l) fun _ => 63
  { t1 with bufs := [(0, bufRec 0x1000 4 64 2), (1, bufRec 0x1000 4 64 2 ||| 2 ^ 127 ||| 0x1000), (2, bufRec 0x2000 64 64 3),
    (3, bufRec 0x4000 512 64 3)] }
def s0 : State := setTeam st 0 0 team0
/-- Its state with values and tags put into registers of every lane. -/
def withRegs (xs : List (Opd × Bool × Nat × Tag)) : State :=
  setTeam s0 0 0 (xs.foldl (fun t x => putLanes t x.1 x.2.1 all (fun _ => BitVec.ofNat 64 x.2.2.1) fun _ => x.2.2.2) team0)
def after (o : Host.Outcome State Fault Refusal) : State := match o with | .next s => s | _ => State.reset
def ran (o : Host.Outcome State Fault Refusal) : Bool := match o with | .next _ => true | _ => false
/-- Value and tag of a lane register of the team after an instruction, or event. -/
def vOf (o : Host.Outcome State Fault Refusal) (n l : Nat) : Nat × Nat :=
  let e := getV (teamAt (after o) 0 0) n l
  (e.val.toNat, e.tag.toNat)

/-- The check of `CanIssue`, and of `Ready`, as Bools. -/
def canIssue (s : State) (t : Team) (h : Head) : Bool :=
  decide (curTeam s = some (0, 0, t)) && !t.halted && t.hold.isNone && t.trap.isNone && t.live != 0 && !atStop t &&
  !atStop (entered s t h) && executing t &&& ~~~ (getP t h.gp.toNat).full == 0 && active t h != 0
theorem can_of {s : State} {t : Team} {h : Head} (k : canIssue s t h = true) : CanIssue s 0 0 t h := by
  simp only [canIssue, Bool.and_eq_true, decide_eq_true_eq, Bool.not_eq_true', Option.isNone_iff_eq_none, bne_iff_ne, beq_iff_eq] at k
  obtain ⟨⟨⟨⟨⟨⟨⟨⟨k1, k2⟩, k3⟩, k4⟩, k5⟩, k6⟩, k7⟩, k8⟩, k9⟩ := k
  exact ⟨k1, k2, k3, k4, k5, ⟨k6, k7⟩, k8, k9⟩
theorem trap_of {s : State} {t : Team} {cause : BitVec 8}
    (h : hasLog s 0 0 = false ∧ t.saved = none ∧ handlerEntry (recordOf s t) cause ≠ 0xFFFFFFFF) : TrapReady s 0 0 t cause := h
def isReady (i : Issue) (srcs : List Rd) (dsts : List (Opd × Bool)) : Bool :=
  (srcs.all fun r => (lanesOf i.act).all fun l => (r.at_ l).full) && dsts.all fun d => (lanesOf i.act).all fun l => dstFree i.t d.1 d.2 l
theorem ready_of {i : Issue} {srcs : List Rd} {dsts : List (Opd × Bool)} (k : isReady i srcs dsts = true) : Ready i srcs dsts := by
  simp only [isReady, Bool.and_eq_true, List.all_eq_true] at k
  exact ⟨k.1, k.2⟩
def i0 : Issue := issueOf s0 0 0 team0 hd
theorem can0 : CanIssue s0 0 0 team0 hd := can_of (by decide +kernel)

/-! ### Each check of R89 refuses an ill-formed term -/

theorem test_wf_refuses_1 : (([
  .nop ⟨{ hd with gn := true }, z, src z, src z, src z, 0, .slot, .none, 0, 0⟩,  -- R70: GN with GP = 7
  .iadd .w64 (rg (.v 3) (.v 2) (.v 4) z 0),  -- R66: an odd pair
  .iadd .w32 (rg (.p 1) (.v 2) (.v 4) z 0),  -- R67: a predicate as destination of a value
  .iadd .w32 (rg (.v 4) (.v 2) (.v 3) (.v 1) 0),  -- R66: an unused operand
  .iadd .w32 { rg (.v 4) (.c 2) (.v 3) z 0 with a := ⟨.c 2, true, false⟩ },  -- R68: E on a constant
  .iadd .w32 { rg (.v 4) (.c 2) (.v 3) z 0 with a := ⟨.c 2, false, true⟩ },  -- R69: M on a constant
  .iadd .w32 (rg (.s 4) (.v 2) (.s 3) z 0),  -- R105: a lane source of a scalar destination
  .iadd .w32 { rg (.v 4) (.v 2) (.v 3) z 0 with slot := 1 },  -- R72: SLOT of an integer instruction
  .iadd .w32 { rg (.v 4) (.v 2) (.v 3) z 0 with lane := 1 },  -- R73: LANE without XL
  .iadd .w32 { rg (.v 4) (.s 2) (.v 3) z 0 with xl := .bc },  -- R73: XL on a scalar
  .imulh .w32 (rg (.v 4) (.v 2) (.v 3) z 2),  -- R107: SUB
  .imad .w32 (rg (.v 4) (.v 2) (.v 3) (.v 5) 1),  -- R107: SUB of IMAD
  .iabs .w32 (rg (.v 4) (.v 2) (.v 3) z 0),  -- R107: B of IABS
  .sel .w32 (rg (.s 4) (.s 2) (.s 3) (.p 1) 0),  -- R105: SEL into a scalar
  .iaddIm .w32 (im (.v 4) (.v 2) 1 0),  -- R74: MOD
  .movi .w32 (im (.v 4) (.v 2) 0 0),  -- R110: A of MOVI
  .movh .w32 (im (.v 4) z 0 0x10000),  -- R110: a wide MOVH.32
  .icmp .un true .w32 (rg (.p 1) (.v 2) (.v 3) z 0),  -- R111: an unordered condition
  .icmpIm .or true .w32 (im (.p 1) (.v 2) 0 0),  -- R111: the immediate form's
  .fcmp .lt .f32 (rg (.v 1) (.v 2) (.v 3) z 0),  -- R144: FCMP into a register
  .pset (rg (.p 1) (.v 2) (.p 3) z 8),  -- R112: a register source
  .pmov (rg (.p 1) (.p 2) z z 4),  -- R113: SUB 4
  .fclass .f32 (rg (.p 1) (.v 2) z z 0xC0),  -- R145: both signs
  .cvt .fp32 .fp32 (rg (.v 1) (.v 2) z z 0),  -- R146: equal types
  .cvtqQuantise (rg (.v 1) (.s 2) z z 0),  -- R148: a scalar group
  .fmin { rg (.v 1) (.v 2) (.v 3) z 0 with rnd := .rtz }  -- R137: RND of FMIN
  ] : List Instr).all fun i => !i.wf) = true := by decide +kernel
theorem test_wf_refuses_2 : (([
  .faddIm (im (.v 1) (.v 2) 40 0),  -- R141: RND code 5
  .tagrd { rg (.v 1) (.v 2) z z 0 with a := ⟨.v 2, false, true⟩ },  -- R151: M of TAGRD
  .tagwr (rg (.v 1) (.v 2) (.v 3) z 2),  -- R152: SUB
  .psig .lt (im (.p 1) (.v 2) 0 64),  -- R153: a tag above 63
  .bra ⟨hd, .v 1, 0⟩,  -- R114: D of BRA
  .call ⟨hd, .p 1, 0⟩,  -- R114: a predicate link
  .brx (rg (.v 1) (.v 2) z z 0),  -- R115: D of BRX
  .exit (rg (.v 1) z z z 0),  -- R117: a field of EXIT
  .eretSkip ⟨{ hd with gp := 1 }, z, src z, src z, src z, 0, .slot, .none, 0, 1⟩,  -- R123: a guarded ERET
  .fewait (rg z (.s 2) z z 1),  -- R120: FEWAIT.64 of a scalar
  .feset (rg (.p 2) z z z 1),  -- R121: FESET.64 of a predicate
  .rgrow (im (.p 1) z 0 8),  -- R185: a count of 8
  .rshr (im z z 0 240),  -- R185: a count of 240
  .trap (im (.v 1) z 0 0),  -- R122: D of TRAP
  .crd (im (.v 1) z 0 3),  -- R31: an unlisted control register
  .crd (im (.s 1) z 0 8),  -- R31: LVL0 into a scalar
  .cwr (im z (.v 1) 0 0x10),  -- R125: a lane source
  .lshf (rg (.v 1) (.v 2) (.v 3) z 3),  -- R173: SUB[1:0] = 3
  .lbc { rg (.v 1) (.v 2) z z 0 with lane := 32 },  -- R174: lane 32
  .lvote (rg (.p 1) (.p 2) z z 3),  -- R175: a ballot into a predicate
  .lscan (rg (.v 2) (.v 4) z z 14),  -- R176: operation code 14
  .lred (rg (.v 2) (.v 4) z z 0x20),  -- R178: SUB[5] of LRED
  .lelect (rg (.p 1) (.p 2) z z 2),  -- R179: SUB 2
  .lpc (rg (.v 1) z z z 5),  -- R180: SUB 5
  .barSync (im z z 0 256),  -- R181: IMM above 255
  .topki (rg (.s 1) (.v 2) (.v 3) z 0)  -- R188: a scalar list
  ] : List Instr).all fun i => !i.wf) = true := by decide +kernel
theorem test_wf_refuses_3 : (([
  .rng (rg (.v 2) (.v 4) (.v 6) z 2),  -- R190: SUB 2
  .ld { mm (.v 1) (.v 2) z .b32 0 with ord := .rel },  -- R128: a releasing load
  .ld { mm (.v 1) (.v 2) z .b32 0 with scope := .die },  -- R75: SCOPE of a weak access
  .st { mm z (.v 2) (.v 3) .b32 0 with ord := .acq },  -- R129: an acquiring store
  .pref { mm z (.v 2) z .b32 0 with ord := .rlx },  -- R131: an ordered PREF
  .brld (mm (.x 1) (.s 2) z .b32 0),  -- R132: BRLD of 32 bits
  .brmk (rg (.x 1) (.s 6) z z 0),  -- R133: s6 is no multiple of 4
  .lds (mm (.v 1) (.v 2) z .b32 8),  -- R231: a mode that does not exist
  .sts (mm (.v 1) (.v 2) (.v 3) .b32 0),  -- R231: B in mode 0
  .ldw { mm (.v 1) (.v 2) z .b32 0 with ord := .acq },  -- R236: an ordered LDW
  .ldt (mm (.v 1) (.v 2) z .b32 0),  -- R238: LDT into one register
  .rdm (rg (.v 4) (.v 2) z (.p 1) 3),  -- R241: SUB 3
  .tkdrop (rg (.v 1) (.v 2) z z 0),  -- R245: D of TKDROP
  .atomAdd (mm (.v 1) (.v 2) (.v 3) .b16 0),  -- R246: a 16-bit ATOM
  .xredFp32 (mm z (.v 2) (.v 4) .b64 0),  -- R248: the size of XRED
  .xrdFp32 (mm (.v 1) (.v 2) (.v 3) .b32 0),  -- R249: B of XRD
  .expq (mm (.v 1) (.v 2) (.v 4) .b32 0),  -- R251: the size of EXPQ
  .fence (en z z z 0),  -- R253: neither ACQ nor REL
  .lnset (rg z (.v 1) (.v 2) z 1),  -- R254: SUB of LNSET
  .spl (rg z (.v 255) (.s 1) z 1),  -- R256: past v255
  .fil (rg (.s 60) z (.s 1) z 4),  -- R256: past s63
  .cpy { en z z z 0 with chan := 8 },  -- R264: channel 8
  .cpyc (en z z z 32),  -- R302: a block off its line
  .wpwait { en z (.v 1) z 0 with rel := true },  -- R267: a releasing WPWAIT
  .talloc (en (.v 1) z z 0),  -- R304: no tile
  .tfree { en (.x 1) z z 0 with slot := 1 }  -- R304: SLOT
  ] : List Instr).all fun i => !i.wf) = true := by decide +kernel
theorem test_wf_refuses_4 : (([
  .tst (en (.x 1) (.x 2) z 0),  -- R308: D of TST
  .tinfo (en (.v 1) (.x 2) z 0),  -- R309: v1 is no multiple of 4
  .twait { en z (.x 2) z 0 with rel := true },  -- R309: a releasing TWAIT
  .ttrs (en (.x 1) (.x 2) z 4),  -- R314: IMM above 3
  .coll (en z (.s 1) z 0),  -- R317: A of COLL
  .launch (en (.v 2) (.s 2) (.v 3) 0),  -- R322: a register for a record
  .evsig { en z (.s 1) z 0 with acq := true },  -- R324: an acquiring EVSIG
  .evwait { en z (.s 1) z 0 with rel := true },  -- R324: a releasing EVWAIT
  .seqcm (rg (.v 1) (.v 2) (.v 3) z 2),  -- R410: SUB 2
  .seqcf (rg (.v 1) (.v 2) (.v 3) (.v 4) 0),  -- R411: C
  .seqrdNext (rg (.v 2) (.v 4) z z 1),  -- R412: SUB
  .seqrdTrap (rg (.v 2) (.v 4) z z 2),  -- R412: A of .trap
  .seqwpEnt (rg (.v 1) (.v 2) (.v 3) (.v 4) 1),  -- R414: SUB of .ent
  .seqwpCtr (rg (.v 1) (.v 2) (.v 3) (.c 4) 1),  -- R414: a constant limit
  .seqwpNrec (rg (.v 1) z (.v 3) z 3),  -- R414: a register for a record
  .seqfn (en z z (.s 1) 0),  -- R413: B of SEQFN
  .rld (mm (.v 1) (.v 2) z .b16 0),  -- R445: a 16-bit RLD
  .dharv (en z z z 128),  -- R362: a context above 127
  .tlbinvPage (en z (.s 2) z 64),  -- R362: the mode
  .tlbinvAll (en z (.s 2) z 128),  -- R362: A of TLBINV.all
  .dbgbrkHalt (im (.s 1) (.s 62) 0 0),  -- R393: s62
  .dbgbrkStep (im (.s 1) (.s 2) 0 3)  -- R393: the operation
  ] : List Instr).all fun i => !i.wf) = true := by decide +kernel


/-! ### Integer, compare, floating point: hypotheses met, and results -/

def x1 : RG := rg (.v 6) (.v 2) (.v 4) z 0
def x3 : RG := rg (.v 6) (.v 2) (.v 4) (.v 8) 0
def xm : RG := rg (.v 6) (.v 2) z z 0

theorem wit_IntegerArithmeticResults : CanIssue s0 0 0 team0 x1.h ∧ allocRG true x1 team0 = true ∧ allocRG true x3 team0 = true ∧
    Ready i0 [rdA i0 x1 true, rd i0 x1.b true] [(x1.d, true)] ∧ Ready i0 [rdA i0 x3 true, rd i0 x3.b true, rd i0 x3.c true] [(x3.d, true)] ∧
    ∀ i ∈ [Instr.iadd .w64 x1, .isub .w64 x1, .imul .w64 x1, .imulh .w64 x1, .imin .w64 x1, .imax .w64 x1, .imad .w64 x3, .iabs .w64 xm],
      i.wf = true :=
  ⟨can0, by decide +kernel, by decide +kernel, ready_of (by decide +kernel), ready_of (by decide +kernel), by decide +kernel⟩
theorem wit_DivisionResults : CanIssue s0 0 0 team0 x1.h ∧ allocRG false x1 team0 = true ∧
    Ready i0 [rdA i0 x1 false, rd i0 x1.b false] [(x1.d, false)] ∧ (Instr.idiv .w32 x1).wf = true ∧
    (Instr.irem .w32 { x1 with sub := 1 }).wf = true :=
  ⟨can0, by decide +kernel, ready_of (by decide +kernel), by decide +kernel⟩
theorem wit_LogicAndBitFieldResults : CanIssue s0 0 0 team0 x1.h ∧ allocRG false x3 team0 = true ∧
    Ready i0 [rdA i0 x1 false, rd i0 x1.b false] [(x1.d, false)] ∧ Ready i0 [rdA i0 x3 false, rd i0 x3.b false, rd i0 x3.c false] [(x3.d, false)] ∧
    ∀ i ∈ [Instr.and .w32 x1, .or .w32 x1, .xor .w32 x1, .andn .w32 x1, .shl .w32 x1, .shr .w32 x1, .sar .w32 x1, .rol .w32 x1, .popc .w32 xm,
      .clz .w32 xm, .brev .w32 xm, .bfx .w32 x1, .bfi .w32 x3], i.wf = true :=
  ⟨can0, by decide +kernel, ready_of (by decide +kernel), ready_of (by decide +kernel), by decide +kernel⟩
def y1 : IM := im (.v 6) (.v 2) 0 0x80000000
theorem wit_IntegerImmediateResults : CanIssue s0 0 0 team0 y1.h ∧ (opdAlloc team0 y1.d true && opdAlloc team0 y1.a.o true) = true ∧
    Ready i0 [rd i0 y1.a true] [(y1.d, true)] ∧
    ∀ i ∈ [Instr.iaddIm .w64 y1, .isubIm .w64 y1, .imulIm .w64 y1, .iminIm .w64 y1, .imaxIm .w64 y1, .andIm .w64 y1, .orIm .w64 y1, .xorIm .w64 y1,
      .andnIm .w64 y1, .shlIm .w64 y1, .shrIm .w64 y1, .sarIm .w64 y1, .rolIm .w64 y1], i.wf = true :=
  ⟨can0, by decide +kernel, ready_of (by decide +kernel), by decide +kernel⟩
def xsel : RG := rg (.v 6) (.v 2) (.v 4) (.p 1) 0
theorem wit_MoveResults : CanIssue s0 0 0 team0 xsel.h ∧ allocRG false xsel team0 = true ∧
    Ready i0 [rdA i0 xsel false, rd i0 xsel.b false, rd i0 xsel.c false] [(xsel.d, false)] ∧ (Instr.sel .w32 xsel).wf = true ∧
    Ready i0 [rdA i0 xm false] [(xm.d, false)] ∧ (Instr.mov .w32 xm).wf = true ∧ Ready i0 [] [(y1.d, false)] ∧
    (Instr.movi .w32 (im (.v 6) z 0 5)).wf = true ∧ (Instr.movh .w32 (im (.v 6) z 0 0xFFFF)).wf = true :=
  ⟨can0, by decide +kernel, ready_of (by decide +kernel), by decide +kernel, ready_of (by decide +kernel), by decide +kernel,
    ready_of (by decide +kernel), by decide +kernel⟩
def xp : RG := rg (.p 1) (.v 2) (.v 4) z 0
theorem wit_CompareResults : CanIssue s0 0 0 team0 xp.h ∧ Ready i0 [rdA i0 xp false, rd i0 xp.b false] [(xp.d, false)] ∧
    (Instr.icmp .ge true .w32 xp).wf = true ∧ (Instr.icmpIm .eq false .w32 (im (.p 1) (.v 2) 0 7)).wf = true ∧
    (Instr.pmov (rg (.p 1) (.v 2) z z 2)).wf = true ∧ (Instr.pmov (rg (.v 1) (.p 2) z z 3)).wf = true ∧
    (Instr.fclass .f64 (rg (.p 1) (.v 2) z z 0xBF)).wf = true :=
  ⟨can0, ready_of (by decide +kernel), by decide +kernel⟩
def xps : RG := rg (.p 1) (.p 2) (.p 7) z 8
theorem wit_PredicateFunctions : CanIssue s0 0 0 team0 xps.h ∧ Ready i0 [rd i0 xps.a false, rd i0 xps.b false] [(xps.d, false)] ∧
    (Instr.pset xps).wf = true := ⟨can0, ready_of (by decide +kernel), by decide +kernel⟩
/-- The FP instructions, with no trap enabled. -/
theorem noTrap0 (r : Nat → FO) (pol : Nat) : NoFpTrap team0 hd pol r :=
  ⟨fun l _ => by
    have h : team0.trapen.toNat % 32 = 0 := by decide +kernel
    rw [h, Nat.and_zero], Or.inl (by decide +kernel)⟩
theorem wit_SingleResults : CanIssue s0 0 0 team0 x1.h ∧ allocRG false x3 team0 = true ∧ (∀ pol r, NoFpTrap team0 hd pol r) ∧
    Ready i0 [rdA i0 x1 false, rd i0 x1.b false] [(x1.d, false)] ∧ Ready i0 [rdA i0 x3 false, rd i0 x3.b false, rd i0 x3.c false] [(x3.d, false)] ∧
    ∀ i ∈ [Instr.fadd x1, .fsub x1, .fmul x1, .fdiv x1, .fmin x1, .fmax x1, .ffma x3, .fsqrt xm, .frcp xm, .fexp2 xm, .flog2 xm], i.wf = true :=
  ⟨can0, by decide +kernel, fun p r => noTrap0 r p, ready_of (by decide +kernel), ready_of (by decide +kernel), by decide +kernel⟩
theorem wit_DoubleResults : CanIssue s0 0 0 team0 x1.h ∧ allocRG true x3 team0 = true ∧ (∀ pol r, NoFpTrap team0 hd pol r) ∧
    Ready i0 [rdA i0 x1 true, rd i0 x1.b true] [(x1.d, true)] ∧ Ready i0 [rdA i0 x3 true, rd i0 x3.b true, rd i0 x3.c true] [(x3.d, true)] ∧
    ∀ i ∈ [Instr.dadd x1, .dsub x1, .dmul x1, .ddiv x1, .dmin x1, .dmax x1, .dfma x3, .dsqrt xm], i.wf = true :=
  ⟨can0, by decide +kernel, fun p r => noTrap0 r p, ready_of (by decide +kernel), ready_of (by decide +kernel), by decide +kernel⟩
theorem wit_ImmediateAndPackedResults : CanIssue s0 0 0 team0 y1.h ∧ (opdAlloc team0 y1.d false && opdAlloc team0 y1.a.o false) = true ∧
    Ready i0 [rd i0 y1.a false] [(y1.d, false)] ∧ allocRG false x3 team0 = true ∧
    Ready i0 [rdA i0 x3 false, rd i0 x3.b false, rd i0 x3.c false] [(x3.d, false)] ∧ (∀ pol r, NoFpTrap team0 hd pol r) ∧
    ∀ i ∈ [Instr.faddIm y1, .fsubIm y1, .fmulIm y1, .fminIm y1, .fmaxIm y1, .hadd2 .fp16 x1, .hmul2 .bf16 x1, .hfma2 .fp16 x3], i.wf = true :=
  ⟨can0, by decide +kernel, ready_of (by decide +kernel), by decide +kernel, ready_of (by decide +kernel), fun p r => noTrap0 r p,
    by decide +kernel⟩
theorem wit_ConversionResults : CanIssue s0 0 0 team0 xp.h ∧ Ready i0 [rdA i0 xp false, rd i0 xp.b false] [(xp.d, false)] ∧
    (Instr.fcmp .un .f32 xp).wf = true ∧ team0.trapen = 0 ∧ Ready i0 [rdA i0 xm true] [(xm.d, true)] ∧
    (Instr.cvt .s64 .fp64 xm).wf = true ∧ Ready i0 [rdA i0 xm false] [(xm.d, false)] ∧ (Instr.cvt .fp16 .fp32 { xm with sub := 2 }).wf = true ∧
    (∀ pol r, NoFpTrap team0 hd pol r) :=
  ⟨can0, ready_of (by decide +kernel), by decide +kernel, by decide +kernel, ready_of (by decide +kernel), by decide +kernel,
    ready_of (by decide +kernel), by decide +kernel, fun p r => noTrap0 r p⟩
theorem wit_SignificanceResults : CanIssue s0 0 0 team0 xm.h ∧ Ready i0 [rd i0 (src (.v 2)) false] [(.v 6, false)] ∧
    (Instr.tagrd xm).wf = true ∧ (Instr.tagwr (rg (.v 6) (.v 2) (.v 4) z 0)).wf = true ∧ (Instr.psig .ge (im (.p 1) (.v 2) 2 53)).wf = true :=
  ⟨can0, ready_of (by decide +kernel), by decide +kernel⟩

/-! Worked cases of R108, R109, R137 and R178. -/

def ab (a b : Nat) : State := withRegs [(.v 2, false, a, 63), (.v 4, false, b, 63)]
theorem test_division : vOf (exec (.idiv .w32 { x1 with sub := 1 }) (ab 0xFFFFFFF9 2)) 6 31 = (0xFFFFFFFD, 63) ∧
    vOf (exec (.irem .w32 { x1 with sub := 1 }) (ab 0xFFFFFFF9 2)) 6 0 = (0xFFFFFFFF, 63) ∧
    vOf (exec (.idiv .w32 x1) (ab 0xFFFFFFF9 2)) 6 0 = (0x7FFFFFFC, 63) ∧ vOf (exec (.irem .w32 x1) (ab 5 0)) 6 0 = (5, 63) ∧
    vOf (exec (.idiv .w32 { x1 with sub := 1 }) (ab 0x80000000 0xFFFFFFFF)) 6 0 = (0x80000000, 63) := by decide +kernel
theorem test_bfx : vOf (exec (.bfx .w32 { x1 with sub := 1 }) (ab 0xF00 0x0404)) 6 0 = (0, 63) ∧
    vOf (exec (.bfx .w32 { x1 with sub := 1 }) (ab 0xF00 0x0408)) 6 0 = (0xFFFFFFFF, 63) := by decide +kernel
theorem test_shifts : vOf (exec (.shl .w32 x1) (ab 3 32)) 6 0 = (0, 63) ∧ vOf (exec (.sar .w32 x1) (ab 0x80000000 99)) 6 0 = (0xFFFFFFFF, 63) ∧
    vOf (exec (.rol .w32 x1) (ab 0x80000001 33)) 6 0 = (3, 63) := by decide +kernel
theorem test_imul_wraps : vOf (exec (.imul .w32 x1) (ab 0xFFFFFFFF 0xFFFFFFFF)) 6 5 = (1, 63) ∧
    vOf (exec (.imulh .w32 x1) (ab 0xFFFFFFFF 0xFFFFFFFF)) 6 5 = (0xFFFFFFFE, 63) ∧
    vOf (exec (.imulh .w32 { x1 with sub := 1 }) (ab 0xFFFFFFFF 0xFFFFFFFF)) 6 5 = (0, 63) := by decide +kernel
/-- 1.0 + 2⁻²⁴ is a tie: 1.0, with tag max(−23, −47) taken from 24 and 24 (R56, R178). -/
theorem test_fadd : vOf (exec (.fadd x1) (withRegs [(.v 2, false, 0x3F800000, 24), (.v 4, false, 0x33800000, 24)])) 6 7 = (0x3F800000, 24) := by
  decide +kernel
/-- Lanes 0 to 3 hold 1.0, 2⁻²⁴, 2⁻²⁴, 2⁻²⁴: the tree gives 1 + 2⁻²³, the scan 1.0 (the example of R178). -/
def sLanes : State :=
  setTeam s0 0 0 (putLanes (putLanes team0 (.v 6) false 0xF (fun l => if l = 0 then 0x3F800000 else 0x33800000) fun _ => 24)
    (.p 1) false 0xF (fun _ => 1) fun _ => 63)
theorem test_lred : vOf (exec (.lred { rg (.v 7) (.v 6) z z 8 with h := { hd with gp := 1 } }) sLanes) 7 3 = (0x3F800001, 24) ∧
    vOf (exec (.lscan { rg (.v 8) (.v 6) z z 8 with h := { hd with gp := 1 } }) sLanes) 8 3 = (0x3F800000, 24) ∧
    (teamAt (after (exec (.lred { rg (.v 7) (.v 6) z z 8 with h := { hd with gp := 1 } }) sLanes)) 0 0).fltstat = 1 := by decide +kernel


/-! ### Traps, control flow, lanes, barriers -/

/-- The same machine with a trap handler at 5, and a launch that is none of firmware. -/
def sT : State := updLaunch s0 0 0 fun q => { q with firmware := false, words := setNth q.words 3 (5 + 2 ^ 32 * 256) }
def iT : Issue := issueOf sT 0 0 team0 hd
theorem canT : CanIssue sT 0 0 team0 hd := can_of (by decide +kernel)
theorem wit_GuardedOff : parts (.ld (mm (.v 1) (.v 2) z .b32 0)) = some (0x60, 0, .mm (mm (.v 1) (.v 2) z .b32 0)) ∧
    curTeam s0 = some (0, 0, team0) ∧ active team0 { hd with gp := 1 } = 0 ∧ executing team0 &&& ~~~ (getP team0 1).full = 0 ∧
    ran (exec (.ld { mm (.v 1) (.v 2) z .b32 0 with h := { hd with gp := 1 } }) s0) = true ∧
    (teamAt (after (exec (.ld { mm (.v 1) (.v 2) z .b32 0 with h := { hd with gp := 1 } }) s0)) 0 0).trapcause = 0 :=
  ⟨rfl, by decide +kernel⟩
theorem wit_NopResults : CanIssue s0 0 0 team0 hd ∧ (Instr.nop (rg z z z z 0)).wf = true ∧
    (decode (bytesOfWord (0x41 * 2 ^ 88 + 4 * 2 ^ 82 + 7 * 2 ^ 78))).toOption = some (.nop (rg z z z z 0), []) ∧
    (decode (bytesOfWord (0x41 * 2 ^ 88 + 4 * 2 ^ 82 + 7 * 2 ^ 78 + 2 ^ 71))).toOption = none ∧
    (decode (bytesOfWord (0x41 * 2 ^ 88 + 5 * 2 ^ 82 + 7 * 2 ^ 78))).toOption = none ∧
    (decode (bytesOfWord (0x41 * 2 ^ 88 + 63 * 2 ^ 82 + 7 * 2 ^ 78))).toOption = none :=
  ⟨can0, by decide +kernel⟩
theorem wit_TrapEntry : getTeam sT 0 0 = some team0 ∧ TrapReady sT 0 0 team0 3 := ⟨by decide +kernel, trap_of (by decide +kernel)⟩
/-- A machine whose v2 is empty in lane 5, or whose ARITH trap for an inexact result is enabled. -/
def sE : State := setTeam sT 0 0 (markOpd team0 (.v 2) false 5 false)
def xe : RG := { rg (.v 6) (.v 2) (.v 4) z 0 with a := ⟨.v 2, true, false⟩ }
def teamA : Team := { putLanes (putLanes team0 (.v 2) false all (fun _ => 0x3F800000) fun _ => 24) (.v 4) false all (fun _ => 0x33800000)
    (fun _ => 24) with trapen := 1 }
def sA : State := setTeam sT 0 0 teamA
theorem wit_InstructionTraps :
    (curTeam sT = some (0, 0, team0) ∧ TrapReady sT 0 0 team0 1 ∧ (Instr.iadd .w64 (rg (.v 3) (.v 2) (.v 4) z 0)).wf = false ∧
      (Instr.ld (mm z z (.v 1) .b32 0)).wf = false ∧ (Instr.crd (im (.v 1) z 0 3)).wf = false ∧ team0.saved = none ∧
      (getLaunch sT 0 0).firmware = false) ∧
    (CanIssue sE 0 0 (teamAt sE 0 0) hd ∧ (Instr.iadd .w32 xe).wf = true ∧
      (maskOf fun l => inMask (active (teamAt sE 0 0) hd) l && !((rdA (issueOf sE 0 0 (teamAt sE 0 0) hd) xe false).at_ l).full) = 32 ∧
      TrapReady (setTeam sE 0 0 (entered sE (teamAt sE 0 0) hd)) 0 0 (entered sE (teamAt sE 0 0) hd) 2) ∧
    (CanIssue sA 0 0 teamA hd ∧ (Instr.fadd x1).wf = true ∧ Ready (issueOf sA 0 0 teamA hd) [rdA (issueOf sA 0 0 teamA hd) x1 false,
        rd (issueOf sA 0 0 teamA hd) x1.b false] [(x1.d, false)] ∧
      TrapReady (setTeam sA 0 0 (entered sA teamA hd)) 0 0 (entered sA teamA hd) 4) :=
  ⟨⟨by decide +kernel, trap_of (by decide +kernel), by decide +kernel⟩,
    ⟨can_of (by decide +kernel), by decide +kernel, by decide +kernel, trap_of (by decide +kernel)⟩,
    can_of (by decide +kernel), by decide +kernel, ready_of (by decide +kernel), trap_of (by decide +kernel)⟩
/-- EMPTY names the empty lane (R37 step 3); ARITH every lane that raised a flag (R51). -/
theorem test_traps : let e := teamAt (after (exec (.iadd .w32 xe) sE)) 0 0
    let a := teamAt (after (exec (.fadd x1) sA)) 0 0
    (e.trapcause, e.trappc, e.trapmask, getLpc e 0) = (2, 0, 32, 5) ∧ (a.trapcause, a.trapmask, getLpc a 31, vOf (exec (.fadd x1) sA) 6 0) =
      (4, 0xFFFFFFFF, 5, (0, 63)) := by decide +kernel
/-- The handler's team after TRAP 77 at PC 0. -/
def sH : State := after (exec (.tenureGrant 0 0) (after (exec (.trap (im z z 0 77)) sT)))
def teamH : Team := teamAt sH 0 0
theorem wit_TrapAndReturn : CanIssue sT 0 0 team0 hd ∧ (Instr.trap (im z z 0 77)).wf = true ∧
    TrapReady (setTeam sT 0 0 (entered sT team0 hd)) 0 0 (entered sT team0 hd) 0x0B ∧
    CanIssue sH 0 0 teamH hd ∧ teamH.saved.isSome = true ∧ teamH.enter = false ∧
    (Instr.eretSkip (rg z z z z 1)).wf = true ∧ (Instr.eretRestart (rg z z z z 0)).wf = true :=
  ⟨canT, by decide +kernel, trap_of (by decide +kernel), can_of (by decide +kernel), by decide +kernel⟩
theorem test_trap_return : (getS teamH 59).val = 77 ∧ teamH.trapcause = 0x0B ∧ getLpc teamH 9 = 5 ∧
    getLpc (teamAt (after (exec (.eretSkip (rg z z z z 1)) sH)) 0 0) 9 = 1 ∧
    getLpc (teamAt (after (exec (.eretRestart (rg z z z z 0)) sH)) 0 0) 9 = 0 := by decide +kernel
theorem wit_BranchResults : CanIssue s0 0 0 team0 hd ∧ (Instr.bra ⟨hd, z, 0x7FFFFFFF⟩).wf = true ∧ (Instr.call ⟨hd, .v 3, 0⟩).wf = true ∧
    Ready i0 [] [(.v 3, false)] ∧ (Instr.brx (rg z (.v 2) z z 0)).wf = true ∧ Ready i0 [rdA i0 (rg z (.v 2) z z 0) false] [] :=
  ⟨can0, by decide +kernel, by decide +kernel, ready_of (by decide +kernel), by decide +kernel, ready_of (by decide +kernel)⟩
theorem test_call : let o := exec (.call ⟨hd, .v 3, 40⟩) s0
    getLpc (teamAt (after o) 0 0) 8 = 40 ∧ vOf o 3 8 = (1, 63) := by decide +kernel
theorem wit_ExitHaltAndFullEmptyResults : CanIssue s0 0 0 team0 hd ∧ Ready i0 [rdA i0 (rg z (.v 2) z z 1) true] [] ∧
    (Instr.fewait (rg z (.v 2) z z 1)).wf = true ∧ (Instr.exit (rg z z z z 0)).wf = true ∧ (Instr.halt (rg z z z z 0)).wf = true ∧
    (Instr.feset (rg (.v 2) z z z 1)).wf = true ∧ (Instr.feclr (rg (.p 7) z z z 0)).wf = true ∧ s0.reqs = [] ∧
    active team0 { hd with gp := 1, gn := true } = team0.live :=
  ⟨can0, ready_of (by decide +kernel), by decide +kernel⟩
theorem test_exit : getTeam (after (exec (.exit (rg z z z z 0)) s0)) 0 0 = none ∧
    getLpc (teamAt (after (exec (.exit { rg z z z z 0 with h := { hd with gp := 1 } }) sLanes)) 0 0) 3 = 0xFFFFFFFF ∧
    getLpc (teamAt (after (exec (.exit { rg z z z z 0 with h := { hd with gp := 1 } }) sLanes)) 0 0) 4 = 1 := by decide +kernel
theorem wit_ControlRegisterResults : CanIssue s0 0 0 team0 hd ∧ Ready i0 [] [(.v 2, false)] ∧ (Instr.crd (im (.v 2) z 0 0x10)).wf = true ∧
    (Instr.cwr (im z (.s 2) 0 0x13)).wf = true ∧ Ready i0 [rd i0 (src (.s 2)) false] [] :=
  ⟨can0, ready_of (by decide +kernel), by decide +kernel, by decide +kernel, ready_of (by decide +kernel)⟩
theorem test_control_registers : vOf (exec (.crd (im (.v 2) z 0 8)) s0) 2 31 = (31, 63) ∧
    (teamAt (after (exec (.cwr (im z (.s 2) 0 0x13)) (withRegs [(.s 2, false, 0xFFFFFFFF, 63)]))) 0 0).trapen = 0x1FF ∧
    (teamAt (after (exec (.cwr (im z (.s 2) 0 0x10)) (withRegs [(.s 2, false, 0xFFFFFFFF, 63)]))) 0 0).sigmin = 0x3F := by decide +kernel
theorem wit_CrossLaneResults : CanIssue s0 0 0 team0 hd ∧ Ready i0 [rd i0 (src (.v 1)) false] [] ∧ Ready i0 [] [(.v 3, false)] ∧
    (∀ l < 32, (rdOpd i0.s i0.t (.v 2) false l).full = true) ∧ Ready i0 [rd i0 (src (.p 2)) false] [(.v 3, false)] ∧
    (∀ i ∈ [Instr.lshf (rg (.v 3) (.v 2) (.v 1) z 1), .lshf { rg (.v 3) (.v 2) z z 2 with xl := .up, lane := 31 }, .lbc (rg (.v 3) (.v 2) z z 1),
      .lvote (rg (.v 3) (.p 2) z z 3), .lelect (rg (.p 1) (.p 2) z z 1), .lpc (rg (.v 3) z z z 4)], i.wf = true) :=
  ⟨can0, ready_of (by decide +kernel), ready_of (by decide +kernel), by decide +kernel, ready_of (by decide +kernel), by decide +kernel⟩
theorem test_lshf : vOf (exec (.lshf { rg (.v 3) (.v 1) z z 0 with xl := .up, lane := 1 }) s0) 3 0 = (0, 0) ∧
    vOf (exec (.lshf { rg (.v 3) (.v 1) z z 0 with xl := .up, lane := 1 }) s0) 3 1 = (0, 63) ∧
    vOf (exec (.lshf { rg (.v 3) (.v 1) z z 1 with xl := .dn, lane := 1 }) s0) 3 31 = (0, 63) ∧
    vOf (exec (.lshf { rg (.v 3) (.v 1) z z 2 with xl := .dn, lane := 1 }) s0) 3 31 = (31, 63) := by decide +kernel
theorem wit_ScanAndReduceResults : CanIssue s0 0 0 team0 hd ∧ Ready i0 [rd i0 (src (.v 2)) true] [(.v 4, true)] ∧
    (Instr.lscan (rg (.v 4) (.v 2) z z 0x2D)).wf = true ∧ (Instr.lred (rg (.v 4) (.v 2) z z 0x10)).wf = true ∧
    (∀ pol r, NoFpTrap team0 hd pol r) :=
  ⟨can0, ready_of (by decide +kernel), by decide +kernel, by decide +kernel, fun p r => noTrap0 r p⟩
theorem wit_RoutingResults : CanIssue s0 0 0 team0 hd ∧
    Ready i0 [rdA i0 (rg (.v 16) (.v 2) (.v 1) z 15) false, rd i0 (src (.v 1)) false] ((List.range 16).map fun j => (Opd.v (BitVec.ofNat 8 (16 + j)), false)) ∧
    (Instr.topki (rg (.v 16) (.v 2) (.v 1) z 15)).wf = true ∧ rangeAlloc team0 (.v 240) 16 = true ∧
    (Instr.rng (rg (.v 4) (.v 2) (.v 6) z 0)).wf = true ∧ Ready i0 [rdA i0 (rg (.v 4) (.v 2) (.v 6) z 0) true, rd i0 (src (.v 6)) true] [(.v 4, true)] :=
  ⟨can0, ready_of (by decide +kernel), by decide +kernel, by decide +kernel, by decide +kernel, ready_of (by decide +kernel)⟩
def bar2 : IM := im z z 0 0xFA
/-- A team of 32 registers, alone on its core. -/
def teamG : Team := { team0 with alloc := 32 }
def sG : State := setTeam s0 0 0 teamG
def iG : Issue := issueOf sG 0 0 teamG hd
theorem canG : CanIssue sG 0 0 teamG hd := can_of (by decide +kernel)
/-- The same team, asked for 224 registers and not answered yet, granted them, and denied. -/
def sGrow (g : Option Nat) : State := setTeam s0 0 0 { teamG with growth := g }
theorem wit_BarrierAndGrowthResults : (CanIssue s0 0 0 team0 hd ∧ barLevelOk (recordOf s0 team0) 2 = true ∧ pendingArrival s0 team0 2 31 = false ∧
      s0.reqs = [] ∧ (∃ q ∈ (getCtx s0 0).launches, q.seq = 0) ∧ (Instr.barArv bar2).wf = true ∧ (Instr.barSync bar2).wf = true ∧
      (Instr.barWait bar2).wf = true) ∧
    (∀ g ∈ [none, some 0, some 224], canIssue (sGrow g) { teamG with growth := g } hd = true ∧
      isReady (issueOf (sGrow g) 0 0 { teamG with growth := g } hd) [] [(.p 1, false)] = true) ∧ (Instr.rgrow (im (.p 1) z 0 224)).wf = true ∧
    256 = teamG.alloc + 224 ∧ 256 < team0.alloc + 16 ∧ (Instr.rshr (im z z 0 16)).wf = true ∧ 224 + 32 ≤ team0.alloc ∧ team0.heldRegs = [] :=
  ⟨⟨can0, by decide +kernel⟩, by decide +kernel⟩
/-- The state in which the only team waits at a barrier; its team of 32 or of 256 registers stands at RGROW p1, 224, which `MAJ 0x30` encodes. -/
def sB : State := after (exec (.barSync bar2) s0)
def growWord : Nat := ((encode (.rgrow (im (.p 1) z 0 224))).getD 0)
def sW : State :=
  let s := State.reset.withFetchWord 96 growWord
  setTeam s 0 0 { teamAt s 0 0 with alloc := 32 }
/-- The same team beside halted ones that hold all but 2 blocks of the core. -/
def sDeny : State := setCore sW 0 { getCore sW 0 with
  teams := (0, teamAt sW 0 0) :: (List.range (Config.regBlocks / 16)).map fun j =>
    (j + 4, { teamAt sW 0 0 with tid := j + 2, halted := true, alloc := if j = 0 then 192 else 256 }) }
theorem wit_BarrierAndGrowthEvents : (getBar (getLaunch sB 0 0) 2 0 31).arrived = [0] ∧ teamsIn (getLaunch sB 0 0).words 2 = 1 ∧
    (getCtx sB 0).st ≠ .suspended ∧ (getBar (getLaunch s0 0 0) 2 0 31).arrived = [] ∧ grantable sW 0 = some (0, 224) ∧ grantable s0 0 = none ∧ grantable sDeny 0 = none ∧ growthQueue sDeny 0 = [((teamAt sW 0 0).age, 0, 224)] ∧
    (∀ z ∈ (getCore sDeny 0).teams, z.2.halted = false → z.2.live ≠ 0 → (growthOf sDeny 0 z.2).isSome = true) ∧
    (∃ z ∈ (getCore sDeny 0).teams, z.2.halted = false ∧ z.2.live ≠ 0) :=
  by decide +kernel
theorem test_growth_denied : (teamAt (after (exec (.rgrowDeny 0) sDeny)) 0 0).growth = some 0 := by decide +kernel
theorem test_barrier : (getBar (getLaunch (after (exec (.barrierPhaseComplete 0 0 2 0 31) sB)) 0 0) 2 0 31).phase = 1 ∧
    (teamAt (after (exec (.barrierPhaseComplete 0 0 2 0 31) sB)) 0 0).hold = none := by decide +kernel
theorem test_growth : let s := after (exec (.rgrow (im (.p 1) z 0 224)) (after (exec (.rgrowGrant 0) sW)))
    (teamAt s 0 0).alloc = 256 ∧ (rdOpd s (teamAt s 0 0) (.p 1) false 31).bits = 1 ∧ getLpc (teamAt s 0 0) 31 = 1 := by decide +kernel


/-! ### Memory instructions -/

def xl : MM := mm (.v 4) (.v 1) z .b32 0
def xst : MM := mm z (.v 1) (.v 4) .b32 1
/-- Out of bounds from lane 16 on. -/
def xo : MM := { xl with ofs := 48 }
theorem own_of {s : State} {c : Nat} {t : Team} {w : Bool} {vas : List Nat}
    (k : (vas.all fun va => !(homeOf s c t.ctx w va).1.world && !walkHeld s c t.tid t.ctx [va]) = true) : Own s c t w vas := by
  intro va hv
  simpa using List.all_eq_true.mp k va hv
theorem walks_of {s : State} {c : Nat} {t : Team} {vas : List Nat} (k : (vas.all fun va => !walkHeld s c t.tid t.ctx [va]) = true) :
    Walks s c t vas := by
  intro va hv
  simpa using List.all_eq_true.mp k va hv
theorem access0 (x : MM) (ls : List Nat) (k1 : recBound i0.t x = true) (k2 : logFull i0.s i0.core = false)
    (k3 : brWld (bufOf i0.t x.brec.toNat) = (getCore i0.s i0.core).world) (k4 : brOobTrap (bufOf i0.t x.brec.toNat) = false) :
    CanAccess i0 x ls := ⟨k1, k2, k3, Or.inl k4⟩
theorem wit_LoadAndStoreIssue : CanIssue s0 0 0 team0 hd ∧ Ready i0 [rd i0 xl.a false] [(xl.d, false)] ∧ (Instr.ld xl).wf = true ∧
    CanAccess i0 xo (lanesOf all) ∧ Own s0 0 team0 false ((insOf i0 xo (lanesOf all)).map (vaOf i0 xo 4)) ∧
    insOf i0 xo (lanesOf all) = List.range 16 ∧ (outOf i0 xo (lanesOf all)).length = 16 ∧
    (Instr.st xst).wf = true ∧ Ready i0 [rd i0 xst.a false, rd i0 xst.b false] [] ∧ CanAccess i0 xst (lanesOf all) ∧
    brT (bufOf team0 1) = true ∧ Own s0 0 team0 true ((insOf i0 xst (lanesOf all)).map (vaOf i0 xst 4)) ∧
    Own s0 0 team0 true ((insOf i0 xst (lanesOf all)).map (shOf i0 xst)) ∧ (Instr.pref (mm z (.v 1) z .b32 0)).wf = true ∧ logFull s0 0 = false ∧
    releaseWaits i0 xst false (!(insOf i0 xst (lanesOf all)).isEmpty) = false ∧ releaseWaits i0 { xst with ord := .rel } false false = false ∧
    Walks s0 0 team0 ((insOf i0 xl (lanesOf all)).map (vaOf i0 xl 4)) :=
  ⟨can0, ready_of (by decide +kernel), by decide +kernel, access0 _ _ (by decide +kernel) (by decide +kernel) (by decide +kernel) (by decide +kernel),
    own_of (by decide +kernel), by decide +kernel, by decide +kernel, by decide +kernel, ready_of (by decide +kernel),
    access0 _ _ (by decide +kernel) (by decide +kernel) (by decide +kernel) (by decide +kernel), by decide +kernel, own_of (by decide +kernel),
    own_of (by decide +kernel), by decide +kernel, by decide +kernel, by decide +kernel, by decide +kernel,
    walks_of (by decide +kernel)⟩
/-- The machine after that load, and after the store of v4 = 0x11223344 with tag 9 through b1. -/
def sL : State := after (exec (.ld xo) s0)
def sS : State := after (exec (.st xst) (withRegs [(.v 4, false, 0x11223344, 9)]))
theorem test_ld : (sL.reqs.map fun r => (r.lane, r.va, r.n)) = (List.range 16).map (fun l => (l, 0x10C0 + 4 * l, 4)) ∧
    (getV (teamAt sL 0 0) 4 15).full = false ∧ getV (teamAt sL 0 0) 4 16 = ⟨0, true, 0⟩ ∧ (teamAt sL 0 0).oobcnt = 16 := by decide +kernel
theorem test_st : (sS.reqs.take 2).map (fun r => (r.lane, r.va, r.n)) = [(0, 0x2000, 1), (1, 0x2001, 1)] ∧
    (sS.reqs.drop 62).map (fun r => (r.lane, r.va, r.kind)) =
      [(30, 0x1078, .store [0x44, 0x33, 0x22, 0x11]), (31, 0x107C, .store [0x44, 0x33, 0x22, 0x11])] := by decide +kernel
def xbr : MM := mm (.x 5) (.s 1) z .b64 2
theorem wit_BufferRecords : CanIssue s0 0 0 team0 hd ∧ (Instr.brld xbr).wf = true ∧ Ready i0 [rd i0 xbr.a false] [] ∧
    CanAccess i0 xbr [0] ∧ brIn (bufOf team0 2) (idxOf i0 xbr 0) = true ∧ Own s0 0 team0 false [vaOf i0 xbr 32 0] ∧
    brIn (bufOf team0 2) (idxOf i0 { xbr with ofs := 64 } 0) = false ∧ CanAccess i0 { xbr with ofs := 64 } [0] ∧
    (Instr.brmk (rg (.x 5) (.s 4) z z 0)).wf = true ∧ brOk 0 = true ∧ brOk (4 <<< 132) = false ∧
    Ready i0 [rd i0 (src (.s 4)) true, rd i0 (src (.s 5)) true, rd i0 (src (.s 6)) true, rd i0 (src (.s 7)) true] [] ∧ TrapReady sT 0 0 team0 1 :=
  ⟨can0, by decide +kernel, ready_of (by decide +kernel), access0 _ _ (by decide +kernel) (by decide +kernel) (by decide +kernel) (by decide +kernel),
    by decide +kernel, own_of (by decide +kernel), by decide +kernel, access0 _ _ (by decide +kernel) (by decide +kernel) (by decide +kernel) (by decide +kernel),
    by decide +kernel, by decide +kernel, by decide +kernel, ready_of (by decide +kernel), trap_of (by decide +kernel)⟩
/-- The record b3 of R133's example: BASE 0x0010_0000, STRIDE 8, EXTENT 20, ESIZE 2. -/
theorem test_brmk : bufOf (teamAt (after (exec (.brmk (rg (.x 3) (.s 4) z z 0)) (withRegs [(.s 4, true, 0, 63), (.s 5, true, 0, 63),
      (.s 6, true, 8 * 2 ^ 39 + 20 * 2 ^ 7 + 2 * 2 ^ 4, 63), (.s 7, true, 0x100000 * 2 ^ 7, 63)]))) 0 0) 3 = bufRec 0x100000 8 20 2 := by
  decide +kernel
def xs : MM := { mm (.v 4) (.v 1) z .b32 0 with ofs := 0x800 }
theorem wit_ScratchpadIssue : CanIssue s0 0 0 team0 hd ∧ logFull s0 0 = false ∧ (Instr.lds xs).wf = true ∧ (Instr.sts xs).wf = true ∧
    Ready i0 (scrSrcs i0 xs) [(xs.d, false)] ∧ Ready i0 (scrSrcs i0 xs ++ [rd i0 ⟨xs.d, false, false⟩ false]) [] ∧ layoutLegal i0 xs = true ∧
    (∀ l ∈ lanesOf all, scrLane i0 xs l = .at_ 0 (0x2000 + l / 4 * 4) ∧ lineFull s0 0 ((0x2000 + l / 4 * 4) / 128) = true) ∧
    scrLane i0 { xs with ofs := 0x1000 } 0 = .oob ∧ scrLane i0 { xs with ofs := 0 } 0 = .oob ∧ (Instr.ldw xl).wf = true ∧ weightSecure s0 0 = (getCore s0 0).world ∧
    (∀ l ∈ lanesOf all, scrLane i0 { xs with ofs := 0x1000, ord := .rel } l = .oob) ∧ teamDone s0 0 team0.tid (fun q => !isTicketRead q) = true :=
  ⟨can0, by decide +kernel, by decide +kernel, by decide +kernel, ready_of (by decide +kernel), ready_of (by decide +kernel), by decide +kernel⟩
/-- An STS of v4 = 5 with tag 9, four lanes to a word. -/
def sSt : State := after (exec (.sts xs) (withRegs [(.v 4, false, 5, 9)]))
theorem test_sts : sSt.reqs.length = 32 ∧ ((sSt.reqs.filter fun r => r.kind == .sts [5, 0, 0, 0] 9 false).map fun r => (r.lane, r.loc)) = [3, 7, 11, 15, 19, 23, 27, 31].map (fun l => (l, some (.scratch 0 (0x2000 + l / 4 * 4)))) := by
  decide +kernel
def xln : RG := rg z (.s 1) (.s 2) z 0
/-- Two lines from byte 0x3F00, of which the share holds both; three, of which it holds two. -/
def sLn (n : Nat) : State := withRegs [(.s 1, false, 0x3F00, 63), (.s 2, false, n, 63)]
def iLn (n : Nat) : Issue := issueOf (sLn n) 0 0 (teamAt (sLn n) 0 0) hd
theorem wit_LinesSpillAndFill : CanIssue (sLn 3) 0 0 (teamAt (sLn 3) 0 0) hd ∧ Ready (iLn 3) [rd (iLn 3) xln.a false, rd (iLn 3) xln.b false] [] ∧
    (namedLines (iLn 3) 0x3F00 3).lines = [(0, 126), (0, 127)] ∧ (namedLines (iLn 3) 0x3F00 3).skip = true ∧
    (namedLines (iLn 3) 0x3F00 3).world = false ∧ lineFull (sLn 3) 0 126 = true ∧
    (∀ i ∈ [Instr.lnwait { xln with sub := 1 }, .lnset xln, .lnclr xln], i.wf = true) ∧ (sLn 3).reqs = [] ∧ logFull (sLn 3) 0 = false ∧
    (teamAt (sLn 3) 0 0).alloc = 256 ∧ (Instr.spl (rg z (.v 254) (.s 1) z 1)).wf = true ∧ (Instr.fil (rg (.s 50) z (.s 1) z 13)).wf = true ∧
    imageAt (iLn 3) 0x3F00 2 = .at_ 0 0x3F00 ∧ imageAt (iLn 3) 0x3F00 3 = .oob ∧ imageFull (sLn 3) 0 0x3F00 2 = true ∧
    (imageRegs (.s 50) 14).all (regFree (teamAt (sLn 3) 0 0)) = true :=
  ⟨can_of (by decide +kernel), ready_of (by decide +kernel), by decide +kernel⟩
theorem test_lnclr : (getCore (after (exec (.lnclr xln) (sLn 3))) 0).empty = [126, 127] ∧
    (teamAt (after (exec (.lnclr xln) (sLn 3))) 0 0).oobcnt = 32 := by decide +kernel
def xt : MM := mm (.v 4) (.v 1) z .b32 0
theorem wit_TicketIssue : CanIssue s0 0 0 team0 hd ∧ (Instr.ldt xt).wf = true ∧ Ready i0 [rd i0 xt.a false] [(xt.d, true)] ∧
    CanAccess i0 xt (lanesOf all) ∧ Own s0 0 team0 false ((insOf i0 xt (lanesOf all)).map fun l => vaOf i0 xt 4 l / 512 * 512) ∧
    Walks s0 0 team0 ((insOf i0 xt (lanesOf all)).map (vaOf i0 xt 4)) ∧ (loadFmt (slotFmt (recSlot (recordOf s0 team0) 0)) .b32).fp = false :=
  ⟨can0, by decide +kernel, ready_of (by decide +kernel), access0 _ _ (by decide +kernel) (by decide +kernel) (by decide +kernel) (by decide +kernel),
    own_of (by decide +kernel), walks_of (by decide +kernel), by decide +kernel⟩
/-- Tickets of the line-set at 0x1000, in the machine whose context 0 has incarnation 1. -/
def sTk : State := after (exec (.ldt xt) s0)
theorem test_ldt : (sTk.reqs.map fun r => (r.va, r.n)) = [(0x1000, 512)] := by decide +kernel
def tk (size : BitVec 4) : DWord := mkTicket s0 0 5 1 size false false 0
def sR (size : BitVec 4) : State := withRegs [(.v 2, true, (tk size).toNat, 63), (.s 1, false, 0x2200, 63)]
def iR (size : BitVec 4) : Issue := issueOf (sR size) 0 0 (teamAt (sR size) 0 0) hd
def xr : RG := rg (.v 4) (.v 2) z (.p 1) 0
def xrs : RG := rg z (.v 2) (.s 1) (.p 1) 1
theorem wit_RedeemIssue : CanIssue (sR 3) 0 0 (teamAt (sR 3) 0 0) hd ∧
    (tkSize (tk 3) ≠ 0 ∧ tkSize (tk 0) = 0 ∧ tkCtx (tk 3) = 0 ∧ tkInc (tk 3) = (getCtx s0 0).inc.toNat ∧ tkWld (tk 3) = (getCore s0 0).world) ∧
    (Instr.rdm xr).wf = true ∧ Ready (iR 3) [rd (iR 3) xr.a true] [(xr.d, false), (.p 1, false)] ∧ (teamAt (sR 3) 0 0).trapen = 0 ∧
    (Instr.rdm xrs).wf = true ∧ Ready (iR 3) [rd (iR 3) xrs.a true, rd (iR 3) xrs.b false] [(.p 1, false)] ∧
    redeemAt (iR 3) 0x2200 (tk 3) = .at_ 0 0x2200 ∧ redeemAt (iR 3) 0x3F80 (tk 3) = .oob ∧
    (Instr.tkdrop (rg (.p 1) (.v 2) z z 0)).wf = true ∧ Ready (iR 3) [rd (iR 3) xr.a true] [(.p 1, false)] :=
  ⟨can_of (by decide +kernel), by decide +kernel, by decide +kernel, ready_of (by decide +kernel), by decide +kernel, by decide +kernel,
    ready_of (by decide +kernel), by decide +kernel, by decide +kernel, by decide +kernel, ready_of (by decide +kernel)⟩
theorem test_rdm : (after (exec (.rdm xr) (sR 3))).reqs.length = 1 ∧ (after (exec (.rdm xr) (sR 0))).reqs = [] ∧
    vOf (exec (.rdm xr) (sR 0)) 4 3 = (0, 0) ∧ ((getCore (after (exec (.rdm xrs) (sR 3))) 0).empty = [68, 69]) := by decide +kernel
def xa : MM := mm (.v 4) (.v 1) (.v 6) .b64 0
theorem wit_AtomicAndFenceResults : CanIssue s0 0 0 team0 hd ∧ Ready i0 [rd i0 xa.a false, rd i0 xa.b true] [(xa.d, true)] ∧
    (Instr.atomCas xa).wf = true ∧ (Instr.atomAdd { xa with size := .b32 }).wf = true ∧
    CanAccess i0 xa (lanesOf all) ∧ Own s0 0 team0 true ((insOf i0 xa (lanesOf all)).map (vaOf i0 xa 8)) ∧
    (Instr.fence { en z z z 0 with acq := true, rel := true, scope := .device }).wf = true ∧ s0.reqs = [] ∧ team0.observed = [] ∧
    releaseWaits i0 xa true (!(insOf i0 xa (lanesOf all)).isEmpty) = false :=
  ⟨can0, ready_of (by decide +kernel), by decide +kernel, by decide +kernel,
    access0 _ _ (by decide +kernel) (by decide +kernel) (by decide +kernel) (by decide +kernel), own_of (by decide +kernel), by decide +kernel⟩
theorem test_atom : (after (exec (.atomAdd xa) s0)).reqs.map (fun r => (r.lane, r.acq, r.rel, r.va)) =
    (List.range 32).map fun l => (l, true, true, (0x1000 + 4 * l) / 8 * 8) := by decide +kernel
theorem test_fence : (teamAt (after (exec (.fence { en z z z 0 with rel := true, scope := .cluster }) s0)) 0 0).relFence = some .cluster ∧
    getLpc (teamAt (after (exec (.fence { en z z z 0 with rel := true, scope := .device }) sS)) 0 0) 0 = 1 := by decide +kernel
def xe32 : MM := mm z (.v 1) (.v 4) .b32 2
theorem wit_ExactAndQueueIssue : CanIssue s0 0 0 team0 hd ∧ (Instr.xredFp32 xe32).wf = true ∧ (Instr.xredFp64 { xe32 with size := .b64, brec := 3 }).wf = true ∧
    Ready i0 [rd i0 xe32.a false, rd i0 xe32.b false] [] ∧ CanAccess i0 xe32 (lanesOf all) ∧
    Own s0 0 team0 true ((insOf i0 xe32 (lanesOf all)).map (vaOf i0 xe32 64)) ∧
    Own s0 0 team0 true ((insOf i0 { xe32 with brec := 3 } (lanesOf all)).map (vaOf i0 { xe32 with brec := 3 } 512)) ∧
    (Instr.xrdFp32 (mm (.v 4) (.v 1) z .b32 2)).wf = true ∧ (Instr.xrdFp64 (mm (.v 4) (.v 1) z .b64 3)).wf = true ∧
    (Instr.expq (mm (.v 4) (.v 1) (.v 6) .b64 2)).wf = true ∧ insOf i0 (mm (.v 4) (.v 1) (.v 6) .b64 2) (lanesOf all) ≠ [] ∧
    releaseWaits i0 xe32 true (!(insOf i0 xe32 (lanesOf all)).isEmpty) = false :=
  ⟨can0, by decide +kernel, by decide +kernel, ready_of (by decide +kernel),
    access0 _ _ (by decide +kernel) (by decide +kernel) (by decide +kernel) (by decide +kernel), own_of (by decide +kernel), own_of (by decide +kernel), by decide +kernel⟩
/-- Context 0 with a multicast window of group 3 (members 0, 4 and this device) over the page at 0x10000, in which b2 lies. -/
def sM : State :=
  let w : BitVec 256 := BitVec.ofNat 256 (0x10000 * 2 ^ 199 + 0x10000 * 2 ^ 102 + 3 * 2 ^ 90 + 2 * 2 ^ 82 + 2 ^ 80)
  setTeam (updCtx { s0 with groups := [(3, 2 ^ 32 + 17)] } 0 fun k => { k with windows := [(0, w)] }) 0 0
    { team0 with bufs := [(0, bufRec 0x10000 4 64 2)] }

def iM : Issue := issueOf sM 0 0 (teamAt sM 0 0) hd
def xms : MM := mm z (.v 1) (.v 4) .b32 0
theorem wit_MulticastIssue : CanIssue sM 0 0 (teamAt sM 0 0) hd ∧ (Instr.mst xms).wf = true ∧ (Instr.rld (mm (.v 4) (.v 1) z .b32 0)).wf = true ∧
    Ready iM [rd iM xms.a false, rd iM xms.b false] [] ∧ Ready iM [rd iM xms.a false] [(.v 4, false)] ∧ CanAccess iM xms (lanesOf all) ∧
    membersOf sM 0 0x10000 = [0, 4, 32] ∧ membersOf sM 0 0xFFFC = [33] ∧
    (∀ l ∈ insOf iM xms (lanesOf all), ∀ m ∈ membersOf sM 0 (vaOf iM xms 4 l), (memberHome sM 0 0 true (vaOf iM xms 4 l) m).1.world = false ∧
      (memberHome sM 0 0 false (vaOf iM xms 4 l) m).1.world = false) ∧
    Walks sM 0 (teamAt sM 0 0) ((insOf iM xms (lanesOf all)).map (vaOf iM xms 4)) ∧ releaseWaits iM xms false false = false ∧
    ∀ l ∈ insOf iM xms (lanesOf all), membersOf sM 0 (vaOf iM xms 4 l) ≠ [] :=
  ⟨can_of (by decide +kernel), by decide +kernel, by decide +kernel, ready_of (by decide +kernel), ready_of (by decide +kernel),
    ⟨by decide +kernel, by decide +kernel, by decide +kernel, Or.inl (by decide +kernel)⟩, by decide +kernel, by decide +kernel, by decide +kernel,
    walks_of (by decide +kernel), by decide +kernel⟩
theorem test_mst : ((after (exec (.mst xms) sM)).reqs.take 3).map (fun r => r.kind) =
    [.mst [0, 0, 0, 0] 0, .mst [0, 0, 0, 0] 4, .mst [0, 0, 0, 0] 32] := by decide +kernel
/-- Slot 1 is INT8 without scale, slot 2 the same with scales of 32 bits through b0 (R60); v8 to v11 hold 1, 2, −3 and 4. -/
def sQ : State :=
  updLaunch (withRegs [(.v 8, false, 0x3F800000, 24), (.v 9, false, 0x40000000, 24), (.v 10, false, 0xC0400000, 24), (.v 11, false, 0x40800000, 24)])
    0 0 fun q => { q with words := setNth (setNth q.words 17 5) 18 (5 + 1 * 2 ^ 4) }
def tQ : Team := teamAt sQ 0 0
def iQ : Issue := issueOf sQ 0 0 tQ hd
def xq (n : BitVec 3) : RG := { rg (.v 4) (.v 8) z z 0 with slot := n }
def xd (n : BitVec 3) : RG := { rg (.v 12) (.v 5) z z 0 with slot := n }
def four (o : BitVec 8) : List Opd := [.v o, .v (o + 1), .v (o + 2), .v (o + 3)]
theorem wit_QuantisedConversions : CanIssue sQ 0 0 tQ hd ∧ (∀ n ∈ [(1 : BitVec 3), 2], (Instr.cvtqQuantise (xq n)).wf = true ∧
    cvtqDyn true (xq n) sQ tQ = true ∧ (Instr.cvtqDequantise (xd n)).wf = true ∧ cvtqDyn false (xd n) sQ tQ = true) ∧
    slotScale (recSlot (recordOf sQ tQ) 1) = 0 ∧ slotScale (recSlot (recordOf sQ tQ) 2) ≠ 0 ∧
    groupOpds (.v 8) 4 = four 8 ∧ groupOpds (.v 12) 4 = four 12 ∧
    Ready iQ ((four 8).map fun o => rd iQ ⟨o, false, false⟩ false) [(.v 4, false)] ∧
    Ready iQ [rd iQ (src (.v 5)) false] ((four 12).map fun o => (o, false)) ∧
    Ready iQ (((four 8).map fun o => rd iQ ⟨o, false, false⟩ false) ++ [rd iQ (src z) false]) [(.v 4, false)] ∧ tQ.trapen = 0 ∧
    logFull sQ 0 = false ∧ brWld (bufOf tQ (slotScb (recSlot (recordOf sQ tQ) 2))) = (getCore sQ 0).world ∧ brIn (bufOf tQ 0) 0 = true ∧
    Own sQ 0 tQ false [brAddr (bufOf tQ 0) 0 4] :=
  ⟨can_of (by decide +kernel), by decide +kernel, by decide +kernel, by decide +kernel, by decide +kernel, by decide +kernel,
    ready_of (by decide +kernel), ready_of (by decide +kernel), ready_of (by decide +kernel), by decide +kernel, by decide +kernel, by decide +kernel,
    by decide +kernel, own_of (by decide +kernel)⟩
theorem test_cvtq_quantise : (vOf (exec (.cvtqQuantise (xq 1)) sQ) 4 3).1 = 0x04FD0201 := by decide +kernel
theorem test_cvtq_scaled : ((after (exec (.cvtqQuantise (xq 2)) sQ)).reqs.take 2).map (fun r => (r.lane, r.va)) = [(0, 0x1000), (1, 0x1000)] := by
  decide +kernel

/-! ### Engines -/

/-- A parameter block of fields (first bit, value), and the machine with one at byte 0x2200 of core 0's scratchpad. -/
def blkOf (xs : List (Nat × Nat)) : List DWord :=
  let v := xs.foldl (fun a x => a + x.2 * 2 ^ x.1) 0
  (List.range 8).map fun k => BitVec.ofNat 64 (v / 2 ^ (64 * k))
def withBlk (s : State) (b : List DWord) : State :=
  updCore s 0 fun k => { k with bytes := putBytes k.bytes 0x2200 (b.flatMap fun w => leBytes 8 w.toNat) }
def xen : EN := en z z z 0x1200
/-- Four 32-bit elements of b0 to scratchpad byte 0x3000, with a completion word 0x77 at 0x2300 and event 5. -/
def bCpy : List DWord := blkOf [(32, 1), (128, 0x3000), (160, 1), (256, 4), (272, 1), (288, 1), (304, 3), (310, 1), (511, 1), (448, 0x2300), (416, 0x77),
  (510, 1), (498, 5)]
def sCp : State := withBlk s0 bCpy
def iOf (s : State) : Issue := issueOf s 0 0 (teamAt s 0 0) hd
def blockCheck (i : Issue) (x : EN) (b : List DWord) : Bool :=
  (srcZero x.b || (lanesOf i.act).all fun l => ((rd i x.b false).at_ l).full) &&
  (match blockByte i x with
   | some y => decide (b = blockWords i.s i.core y) && lineFull i.s i.core (y / 128) && lineFull i.s i.core ((y + 63) / 128) && !blockBehind i y
   | none => false) && tailOk i b
theorem block_of {i : Issue} {x : EN} {b : List DWord} (k : blockCheck i x b = true) : BlockReady i x b := by
  simp only [blockCheck, Bool.and_eq_true, Bool.or_eq_true, List.all_eq_true] at k
  obtain ⟨⟨k1, k2⟩, k3⟩ := k
  split at k2
  · rename_i y hy
    simp only [Bool.and_eq_true, decide_eq_true_eq, Bool.not_eq_true'] at k2
    exact ⟨k1, ⟨y, hy, k2.1.1.1, k2.1.1.2, k2.1.2, k2.2⟩, k3⟩
  · cases k2
/-- A one-element reduction for all of two ranks through words, on communicator 2. -/
def bColl : List DWord := blkOf [(0, 3), (4, 1), (8, 1), (32, 1), (72, 0), (76, 0), (80, 2), (128, 8), (511, 1), (448, 0x2300), (416, 9)]
/-- The same without completion; its launch names a communicator table at address `tab`, and entry 2 of the table at 0x1800 is `e`. -/
def bColl0 : List DWord := blkOf [(0, 3), (4, 1), (8, 1), (32, 1), (80, 2), (128, 8)]
def sCollOf (b : List DWord) (tab e : Nat) : State :=
  let s := setTeam (withBlk s0 b) 0 0 { team0 with bufs := [(0, bufRec 0x1000 4 64 2), (1, bufRec 0x1000 4 64 2), (2, bufRec 0x2000 64 64 3), (3, 0)] }
  updLaunch { s with mem := putBytes s.mem 0x61810 (leBytes 8 e) } 0 0 fun q => { q with words := setNth q.words 5 (BitVec.ofNat 64 tab) }
def ready2 : Nat := 2 ^ 62 + 2 ^ 50
def sColl : State := sCollOf bColl 0x1800 ready2
def xco : EN := { xen with chan := 2 }
theorem wit_CopyAndCollectiveIssue : CanIssue sCp 0 0 (teamAt sCp 0 0) hd ∧ BlockReady (iOf sCp) xen bCpy ∧ cpBound (teamAt sCp 0 0) bCpy = true ∧
    (Instr.cpy xen).wf = true ∧ (Instr.cpyc xen).wf = true ∧ (chanOf sCp 0 0).length < 16 ∧ collIn (chanOf sCp 0 0) (teamAt sCp 0 0).wg 0 = none ∧
    (Instr.wpwait (en z z z 0)).wf = true ∧ Ready (iOf sCp) [rd (iOf sCp) (src z) false] [] ∧ wpReached z 0 0 = true ∧
    CanIssue sColl 0 0 (teamAt sColl 0 0) hd ∧ (Instr.coll xco).wf = true ∧ BlockReady (iOf sColl) xco bColl ∧
    (getCtx sColl 0).colls.length < 64 ∧ clBound (teamAt sColl 0 0) bColl = true ∧ acqPart (iOf sCp) false = true :=
  ⟨can_of (by decide +kernel), block_of (by decide +kernel), by decide +kernel, by decide +kernel, by decide +kernel, by decide +kernel, by decide +kernel,
    by decide +kernel, ready_of (by decide +kernel), by decide +kernel, can_of (by decide +kernel), by decide +kernel, block_of (by decide +kernel), by decide +kernel⟩
def tabRead (s : State) : Got (BitVec 64) := let i := iOf s; (readComm i.s 0 (collOf i xco bColl 0).tab 2 []).1
/-- A READY entry without a local fault; a FREE one (also where no table is named), a BROKEN one; a table on an unmapped page. -/
theorem wit_CopyAndCollectiveIssue_table : (match tabRead sColl with | .ok e => e.toNat == ready2 && commState e == 1 | _ => false) = true ∧
    clBad (iOf sColl).s 0 (BitVec.ofNat 64 ready2) (collOf (iOf sColl) xco bColl 0) = false ∧
    clOther (getCore sColl 0).world (collOf (iOf sColl) xco bColl 0) = false ∧
    (∀ e ∈ [(0x1800, 0, 0), (0, ready2, 0), (0x1800, 2 ^ 63, 2)], let s := sCollOf bColl0 e.1 e.2.1
      canIssue s (teamAt s 0 0) xco.h = true ∧ blockCheck (iOf s) xco bColl0 = true ∧ clBound (teamAt s 0 0) bColl0 = true ∧
      (match tabRead s with | .ok y => commState y == e.2.2 | _ => false) = true) ∧ bfb bColl0 511 = false ∧ bfb bColl0 510 = false ∧
    (match tabRead (sCollOf bColl 0x40000 0) with | .fault .. => true | _ => false) = true := by decide +kernel
/-- After CPY: line 96 is empty and the command has one line. -/
def sCp1 : State := after (exec (.cpy xen) sCp)
theorem test_cpy : (getCore sCp1 0).empty = [96] ∧ ((chanOf sCp1 0 0).map fun m => m.lines.length) = [1] := by decide +kernel
def sColl1 : State := after (exec (.coll xco) sColl)
theorem test_coll : ((getCtx sColl1 0).colls.map fun m => (m.comm, m.n, m.started)) = [(2, 0, false)] ∧
    (getCtx (after (exec (.coll xco) (sCollOf bColl0 0 0))) 0).colls.length = 0 ∧
    (getCtx (after (exec (.coll xco) (sCollOf bColl 0x40000 0))) 0).colls.map (·.fault) = [1] := by decide +kernel
theorem wit_CopyAndCollectiveIssue_second : collIn (chanOf (after (exec (.cpyc xen) sCp)) 0 0) (teamAt sCp 0 0).wg 0 ≠ none ∧
    commState 0 ≠ 1 := by decide +kernel


/-- A TALLOC of tile 3, 2 × 2 FP64; also a TLD block through b2 at stride 64. -/
def bT : List DWord := blkOf [(0, 2), (8, 2), (102, 2)]
def sTi : State := withBlk s0 bT
def xtd : EN := { xen with d := .x 3 }
def xt1 : EN := { xtd with imm := 0 }
theorem wit_TileIssue : CanIssue sTi 0 0 (teamAt sTi 0 0) hd ∧ (teamAt sTi 0 0).owed = [] ∧ BlockReady (iOf sTi) xen bT ∧
    (getCore sTi 0).tops.length < 32 ∧ bf bT 88 8 = 0 ∧ tileOk sTi 0 (teamAt sTi 0 0) (.x 3) = true ∧ recIsBound (teamAt sTi 0 0) (bf bT 102 4) = true ∧
    (∀ n ∈ [Instr.talloc xtd, .tld xtd, .tlr xtd, .tmul xtd, .tadd xtd, .tfree xt1, .tzero xt1, .trnd xt1, .tdns xt1, .tfac xt1,
      .tst { xtd with d := z, a := src (.x 3) }, .ttrs { xt1 with a := src (.x 2), imm := 3 }, .tinfo { xt1 with d := .s 2, a := src (.x 3) },
      .tinfo { xt1 with d := .v 4, a := src (.x 3) }, .twait { xt1 with d := z, a := src (.x 3) }], n.wf = true) ∧
    rangeAlloc (teamAt sTi 0 0) (.v 4) 4 = true ∧ Ready (iOf sTi) [] (infoDsts (.v 4)) ∧ Ready (iOf sTi) [] (infoDsts (.s 2)) ∧
    (getTile (getWg sTi 0 (teamAt sTi 0 0).wg) 3).fe = true ∧
    (∀ k ∈ [TKind.talloc, .tmul, .tadd], namedOk (iOf sTi) k bT = true) ∧ (getCore sTi 0).tops = [] :=
  ⟨can_of (by decide +kernel), by decide +kernel, block_of (by decide +kernel), by decide +kernel, by decide +kernel, by decide +kernel, by decide +kernel,
    by decide +kernel, by decide +kernel, ready_of (by decide +kernel), ready_of (by decide +kernel), by decide +kernel⟩
def sTi1 : State := after (exec (.talloc xtd) sTi)
theorem test_talloc : ((getCore sTi1 0).tops.map fun o => (o.dst, o.started)) = [(3, false)] ∧ (getTile (getWg sTi1 0 (teamAt sTi 0 0).wg) 3).fe = false := by
  decide +kernel
/-- A tile that has never been allocated: KIND NONE, FE 1, TAG 63 (R281). -/
theorem test_tinfo : (getS (teamAt (after (exec (.tinfo { xt1 with d := .s 2, a := src (.x 3) }) sTi)) 0 0) 3).val = 0xE000000001F80000 := by decide +kernel

/-! ### Tasks and the Bridle -/

def xla : EN := { en (.v 4) (.s 1) (.x 2) 0 with rel := true }
theorem wit_TaskIssue : CanIssue s0 0 0 team0 hd ∧ (Instr.launch xla).wf = true ∧ (bound team0 (.x 2) && opdAlloc team0 (.v 4) true) = true ∧
    Ready i0 [rd i0 xla.a false] [(xla.d, true)] ∧ waiting (getCtx s0 0) < 1024 ∧ brIn (bufOf team0 2) 0 = true ∧
    (Instr.evsig (en z (.s 1) (.s 2) 7)).wf = true ∧ (Instr.evwait (en z (.s 1) z 7)).wf = true ∧
    Ready i0 (evtSrcs i0 (en z (.s 1) (.s 2) 7)) [] ∧ Ready i0 (evtSrcs i0 (en z (.s 1) z 7)) [] ∧
    (evtArg i0 (en z (.s 1) z 7)).toNat ≤ (ngetD 0 (getCtx s0 0).events (evtNo i0 (en z (.s 1) z 7))).toNat ∧ s0.reqs = [] :=
  ⟨can0, by decide +kernel, by decide +kernel, ready_of (by decide +kernel), by decide +kernel, by decide +kernel, by decide +kernel, by decide +kernel,
    ready_of (by decide +kernel), ready_of (by decide +kernel), by decide +kernel⟩
theorem test_launch : (after (exec (.launch xla) s0)).reqs.map (fun r => r.va) = [0x2000] := by decide +kernel
theorem test_evsig : (after (exec (.evsig (en z z z 7)) s0)).reqs.map (fun r => r.kind) = [.evAdd 7 1] := by decide +kernel
/-- Context 0 with slots 0 to 3, of which 0 and 1 are ACTIVE, and a program with v2 = 0x41, s1 naming a byte of its scratchpad share. -/
def sSq : State := { updCtx (withRegs [(.v 2, false, 0x41, 63), (.s 1, false, 0x2200, 63)]) 0 fun k => { k with slotN := 4 } with
  seqSlots := [(0, newSlot), (1, newSlot)], bridleCache := [0, 1] }
def iSq : Issue := iOf sSq
def xsq : RG := rg (.v 4) z (.v 2) z 0
def sq (c : Src) (n : BitVec 8) : RG := { xsq with c := c, sub := n }
theorem wit_BridleIssue : CanIssue sSq 0 0 (teamAt sSq 0 0) hd ∧ slotOwner sSq 0 = some 0 ∧ (getCtx sSq 0).world = (getCore sSq 0).world ∧
    (∀ n ∈ [Instr.seqcm xsq, .seqcm (sq (src (.p 2)) 1), .seqcmT xsq, .seqcf xsq, .seqwpInit (rg (.v 4) z z z 2), .seqrelGo (rg (.v 4) z z z 0),
      .seqrelStop (rg (.v 4) z z z 1), .seqrelFree (rg (.v 4) z z z 2), .seqrdNext (rg (.v 4) z z z 0), .seqrdPeek (rg (.v 4) z z z 1),
      .seqrdTrap (rg (.v 4) z z z 2), .seqwpCtr (sq (src (.v 6)) 1), .seqwpNrec (rg (.v 4) z (.x 2) z 3), .seqwpEnt (rg (.v 4) z z (.s 1) 0)],
      n.wf = true) ∧ (Instr.seqfn (en z z z 0)).wf = true ∧ seqAlloc (teamAt sSq 0 0) xsq true true = true ∧
    Ready iSq [rd iSq (src z) false, rd iSq (src (.v 2)) false, rd iSq (src (.p 2)) false] [(.v 4, false)] ∧
    Ready iSq [rd iSq (src z) false] [(.v 4, true)] ∧ Ready iSq [rd iSq (src z) false, rd iSq (src (.v 2)) false, rd iSq (src (.v 6)) true] [(.v 4, false)] ∧
    directOf iSq 0x2200 1 = .at_ 0 0x2200 ∧ lineFull sSq 0 68 = true ∧ bound (teamAt sSq 0 0) (.x 2) = true ∧
    fenceDone iSq = true ∧ frozenFor sSq 0 0 0 = [] :=
  ⟨can_of (by decide +kernel), by decide +kernel, by decide +kernel, by decide +kernel, by decide +kernel, by decide +kernel, ready_of (by decide +kernel),
    ready_of (by decide +kernel), ready_of (by decide +kernel), by decide +kernel⟩
def xcm : RG := rg (.s 4) (.s 2) (.c 0) z 0
theorem test_seqcm : (after (exec (.seqcm xsq) sSq)).reqs.length = 32 ∧
    (after (exec (.seqcm xcm) sSq)).reqs.map (fun r => r.kind) = List.replicate 32 (.seqCommit 0 0 false (.s 4)) ∧
    (after (exec (.seqcf xcm) sSq)).reqs.length = 1 := by decide +kernel

/-! ### Privileged instructions -/

theorem wit_TlbInstructions : CanIssue s0 0 0 team0 hd ∧ (getLaunch s0 team0.ctx team0.seq).firmware = true ∧
    (Instr.dharv (en z z z 127)).wf = true ∧ (Instr.tlbinvPage (en z (.s 1) z 63)).wf = true ∧ (Instr.tlbinvCtx (en z z z 64)).wf = true ∧
    (Instr.tlbinvAll (en z z z 128)).wf = true ∧ Ready i0 [rd i0 (src (.s 1)) true] [] ∧ s0.reqs = [] :=
  ⟨can0, by decide +kernel, by decide +kernel, by decide +kernel, by decide +kernel, by decide +kernel, ready_of (by decide +kernel), by decide +kernel⟩
/-- A dirty entry of context 0 whose leaf lies at 0x8000: DHARV sets the leaf's D bit and keeps the entry, TLBINV.ctx drops it. -/
def sTlb : State := { s0 with deviceTlb := [⟨0, 0x10000, 0x10000, 0x8000, 0, true⟩] }
theorem test_dharv : (let s := after (exec (.dharv (en z z z 0)) sTlb); (ngetD 0 s.mem 0x8007, s.deviceTlb.map (·.dirty))) = (0x20, [false]) ∧
    (after (exec (.dharv (en z z z 1)) sTlb)).deviceTlb.map (·.dirty) = [true] := by decide +kernel
theorem test_tlbinv : (after (exec (.tlbinvCtx (en z z z 64)) sTlb)).deviceTlb = [] := by decide +kernel
/-- A second team in slot 4 of core 0, halted or not; context 1 of the Secure world; arguments at s8, s12, s16: own team, team 4, context 1. -/
def sD (halted : Bool) : State :=
  let t := teamAt (withRegs [(.s 12, true, 4 * 2 ^ 16, 63), (.s 14, true, 3, 63), (.s 16, true, 1, 63)]) 0 0
  setCtx (setTeam (setTeam s0 0 4 { team0 with tid := 2, halted := halted }) 0 0 t) 1 { getCtx s0 0 with world := true, launches := [] }
def iD : Issue := iOf (sD true)
def xdb (a : BitVec 6) (op : BitVec 32) : IM := im (.s 2) (.s a) 0 op
theorem wit_DebugInstructions : CanIssue (sD true) 0 0 (teamAt (sD true) 0 0) hd ∧ (getLaunch (sD true) 0 0).firmware = true ∧
    (∀ a ∈ [(8 : BitVec 6), 12, 16], ∀ n ∈ [Instr.dbgbrkHalt (xdb a 0), .dbgbrkResume (xdb a 1), .dbgbrkStep (xdb a 2), .dbgbrkBack (xdb a 3),
      .dbgbrkBrk (xdb a 4), .dbgbrkClr (xdb a 5), .dbgbrkDbg (xdb a 6)], n.wf = true) ∧
    Ready iD [rd iD (src (.s 12)) true, rd iD (src (.s 13)) true, rd iD (src (.s 14)) true] [(.s 2, false)] ∧
    Ready iD [rd iD (src (.s 8)) true, rd iD (src (.s 9)) true, rd iD (src (.s 10)) true] [(.s 2, false)] ∧
    Ready iD [rd iD (src (.s 16)) true, rd iD (src (.s 17)) true, rd iD (src (.s 18)) true] [(.s 2, false)] ∧
    (getCtx (sD true) 1).st ≠ .free ∧ (getCtx (sD true) 1).world ≠ (getCore (sD true) 0).world ∧
    ((getTeam (sD true) 0 4).map fun y => (y.ctx, y.halted, y.stops)) = some (0, true, []) ∧ (teamAt (sD true) 0 0).posted = false ∧
    teamsOf (sD true) 0 ≠ [] ∧ teamsOf (sD true) 2 = [] :=
  ⟨can_of (by decide +kernel), by decide +kernel, by decide +kernel, ready_of (by decide +kernel), ready_of (by decide +kernel), ready_of (by decide +kernel), by decide +kernel⟩
/-- The target of the arguments at s12, halted in region 0 or 1 with an undo log and stops, its context in debug mode or not; the issuing team has
posted the operation or not. Arguments at s20 name context 2, which has no team. -/
def undo0 : List Undo := [.sreg 5 ⟨77, true, 63⟩, .entry 0 (List.replicate 32 9) 15 (snapOf { team0 with fltstat := 3 })]
def sBack (dbg posted : Bool) (rg : Nat) (us : List Undo) (stops : List Point) : State :=
  let s := updCtx (sD true) 0 fun k => { k with debug := dbg }
  let s1 := updTeam s 0 4 fun t => { t with rgncnt := BitVec.ofNat 64 rg, undo := us, stops := stops }
  setCtx (updTeam s1 0 0 fun t => setS { t with posted := posted } 20 ⟨2, true, 63⟩) 2 { getCtx s0 0 with launches := [] }
def dbgReady (s : State) (a : BitVec 6) : Bool :=
  canIssue s (teamAt s 0 0) hd && isReady (iOf s) [rd (iOf s) (src (.s a)) true, rd (iOf s) (src (.s (a + 1))) true, rd (iOf s) (src (.s (a + 2))) true]
    [(.s 2, false)]
theorem wit_DebugInstructions_back : (∀ s ∈ [sBack false false 0 [] [], sBack false true 0 [] [], sBack false false 1 [] [], sBack true false 0 undo0 [],
      sBack true false 1 [] []], dbgReady s 12 = true ∧ (getLaunch s 0 0).firmware = true ∧ dbgTeam s ⟨0, 0, 4, 0, 3⟩ = getTeam s 0 4 ∧
      inFlight s 0 2 = false) ∧ undoTo 0 undo0 = some (undo0.take 1, List.replicate 32 9, 15, snapOf { team0 with fltstat := 3 }) ∧ undoTo 0 [] = none ∧
    (teamAt (sBack false true 0 [] []) 0 0).posted = true ∧ (getTeam (sBack false false 1 [] []) 0 4).map (·.rgncnt) = some 1 ∧
    ((getTeam (sBack false false 0 [] (List.replicate 8 ⟨0, 5⟩)) 0 4).map fun y => y.stops.length) = some 8 ∧
    dbgReady (sBack false false 0 [] []) 20 = true ∧ teamsOf (sBack false false 0 [] []) 2 = [] ∧ (getCtx (sBack false false 0 [] []) 2).st ≠ .free ∧
    (getCtx (sBack false false 0 [] []) 2).world = (getCore s0 0).world ∧ dbgTeam (sBack false false 0 [] []) ⟨2, 0, 0, 0, 0⟩ = none ∧
    dbgTeam (sBack false true 0 [] []) ⟨2, 0, 0, 0, 0⟩ = none := by decide +kernel
theorem test_dbgbrk_back : (let s := after (exec (.dbgbrkBack (xdb 12 3)) (sBack true false 0 undo0 [])); let y := (getTeam s 0 4).getD default
      ((getS y 5).val, getLpc y 3, y.live, y.stops, y.halted, y.fltstat)) = (77, 9, 15, [⟨0, 3⟩], false, 3) ∧
    (getS (teamAt (after (exec (.dbgbrkBack (xdb 12 3)) (sBack true false 1 [] []))) 0 0) 2).val = 3 := by decide +kernel
theorem test_dbgbrk : (getS (teamAt (after (exec (.dbgbrkHalt (xdb 16 0)) (sD true))) 0 0) 2).val = 6 ∧
    ((getTeam (after (exec (.dbgbrkResume (xdb 12 1)) (sD true))) 0 4).map (·.halted)) = some false := by decide +kernel
theorem test_dbgbrk_step : ((getTeam (after (exec (.dbgbrkStep (xdb 12 2)) (sD true))) 0 4).map (·.steps)) = some (some 3) := by decide +kernel

/-! ### Arrivals, writes and read-modify-writes -/

def noReq : Req := mkReq i0 0 (.evAdd 0 0)
def req (s : State) (n : Nat) : Req := (s.reqs[n]?).getD noReq
def t00 (s : State) : Team := teamAt s 0 0
/-- The check of `Asked`, as a Bool. -/
def isAsked (s : State) (n : Nat) : Bool :=
  decide (getReq s (req s n).id = some (req s n)) && decide (getTeam s (req s n).core (req s n).slot = some (t00 s)) &&
  (t00 s).tid == (req s n).tid && (t00 s).live != 0 && decide ((req s n).lane < 32)
theorem asked_of {s : State} {n : Nat} (k : isAsked s n = true) : Asked s (req s n) (t00 s) := by
  simp only [isAsked, Bool.and_eq_true, decide_eq_true_eq, beq_iff_eq, bne_iff_ne] at k
  obtain ⟨⟨⟨⟨k1, k2⟩, k3⟩, k4⟩, k5⟩ := k
  exact ⟨k1, k2, k3, k4, k5⟩
def f32i : LoadFmt := ⟨.b32, false, 0, false⟩
/-- A load behind a store to its bytes. -/
def sLS : State := after (exec (.ld { xl with d := .v 5 }) sS)
def sLds : State := after (exec (.lds xs) s0)
def sBr : State := after (exec (.brld xbr) s0)
/-- The same over a record with a reserved ESIZE code. -/
def sBx : State := { sBr with mem := putBytes sBr.mem (401408 + 16) [0x40] }
def sSc : State := after (exec (.cvtqQuantise (xq 2)) sQ)
def sRld : State := after (exec (.rld (mm (.v 4) (.v 1) z .b32 0)) sM)
def sFil (d : Opd) (m : BitVec 8) : State := after (exec (.fil (rg d z (.s 1) z m)) (withRegs [(.s 1, false, 0x2800, 63)]))
theorem wit_ResultArrivals : Asked sL (req sL 0) (t00 sL) ∧ (req sL 0).loc = some (.hbm 0x610C0) ∧ (req sL 0).kind = .load (.v 4) false f32i ∧
    canRead sL (req sL 0) = true ∧ (req sL 0).acq = false ∧ Asked sLS (req sLS 64) (t00 sLS) ∧ (req sLS 64).kind = .load (.v 5) false f32i ∧
    canRead sLS (req sLS 64) = false ∧ (req sLS 64).loc = some (.hbm 0x61000) ∧
    Asked sLds (req sLds 0) (t00 sLds) ∧ (req sLds 0).loc = some (.scratch 0 0x2000) ∧ (req sLds 0).kind = .lds (.v 4) false f32i ∧
    canPerform sLds (req sLds 0) = true :=
  ⟨asked_of (by decide +kernel), by decide +kernel, by decide +kernel, by decide +kernel, by decide +kernel, asked_of (by decide +kernel), by decide +kernel,
    by decide +kernel, by decide +kernel, asked_of (by decide +kernel), by decide +kernel⟩
theorem wit_ResultArrivals_units : Asked sBr (req sBr 0) (t00 sBr) ∧ (req sBr 0).loc = some (.hbm 401408) ∧ (req sBr 0).kind = .brld 5 ∧ (t00 sBr).hold ≠ none ∧
    canRead sBr (req sBr 0) = true ∧ (req sBr 0).acq = false ∧ brOk (BitVec.ofNat 256 (leNat (readLoc sBr (.hbm 401408) 32))) = true ∧
    Asked sBx (req sBx 0) (t00 sBx) ∧ canRead sBx (req sBx 0) = true ∧ brOk (BitVec.ofNat 256 (leNat (readLoc sBx (.hbm 401408) 32))) = false ∧
    Asked sSc (req sSc 0) (t00 sSc) ∧ (req sSc 0).loc = some (.hbm 0x61000) ∧ canRead sSc (req sSc 0) = true ∧
    (req sSc 0).kind = .scale true (.v 4) 4 5 false ⟨0, 0⟩ [0x3F800000, 0x40000000, 0xC0400000, 0x40800000] [24, 24, 24, 24] :=
  ⟨asked_of (by decide +kernel), by decide +kernel, by decide +kernel, by decide +kernel, by decide +kernel, by decide +kernel, by decide +kernel,
    asked_of (by decide +kernel), by decide +kernel, by decide +kernel, asked_of (by decide +kernel), by decide +kernel⟩
theorem wit_ResultArrivals_members : Asked sRld (req sRld 0) (t00 sRld) ∧ (req sRld 0).kind = .rld .f32 ⟨0, 0⟩ (.v 4) false 0 ∧ (req sRld 0).acq = false ∧
    (sRld.reqs.filter fun q => q.grp == (req sRld 0).grp && q.core == 0 && q.tid == 1 && q.lane == 0).length = 3 ∧
    (∀ q ∈ sRld.reqs.filter fun q => q.grp == (req sRld 0).grp && q.core == 0 && q.tid == 1 && q.lane == 0,
      canPerform sRld q = true ∧ q.loc ≠ none ∧ q.shadowVa = none) :=
  ⟨asked_of (by decide +kernel), by decide +kernel⟩
theorem wit_ResultArrivals_images : (∀ x ∈ [(sFil (.v 8) 2, ReqKind.fil (.v 8) 3), (sFil (.s 8) 3, .fil (.s 8) 4), (sFil (.p 0) 0, .fil (.p 0) 1)],
    isAsked x.1 0 = true ∧ (req x.1 0).loc = some (.scratch 0 0x2800) ∧ canPerform x.1 (req x.1 0) = true ∧ (req x.1 0).kind = x.2) := by
  decide +kernel
/-- The checks of `NoDrain` and `Unread` for a request that is no acquire. -/
def fresh (r : Req) : Bool := r.acq == false && r.drains.isEmpty && r.got.isEmpty && r.val == 0
theorem noDrain_of {s : State} {r : Req} {l : Loc} (k : fresh r = true) : NoDrain s r l ∧ Unread r := by
  simp only [fresh, Bool.and_eq_true, beq_iff_eq, List.isEmpty_iff] at k
  exact ⟨⟨k.1.1.2, Or.inl k.1.1.1⟩, k.1.2, k.2⟩
theorem wit_ResultArrivals_fresh : (∀ r ∈ [req sL 0, req sLds 0, req sBr 0, req sBx 0], fresh r = true) ∧ (req sL 0).n = 4 ∧ (req sLds 0).n = 4 ∧
    (req sBr 0).n = 32 ∧ (req sBr 0).shadow = none ∧ canRead sLds (req sLds 0) = true ∧
    (∀ x ∈ [sFil (.v 8) 2, sFil (.s 8) 3, sFil (.p 0) 0], linesReady x (req x 0) = true) := by decide +kernel
/-- An acquire whose lines have no release record has nothing to drain either. -/
theorem wit_ResultArrivals_acquire : NoDrain sL { req sL 0 with acq := true } (.hbm 0x610C0) :=
  ⟨by decide +kernel, Or.inr (fun _ _ => by have h : sL.relRecs = [] := by decide +kernel
                                            simp [relRec, locAdd, ngetD, nget, h])⟩
/-- A load of the byte values that stand there; 0 with no shadow has the slot's tag. -/
theorem test_load_arrival : vOf (exec (.loadDataArrival ⟨(req sL 0).id, []⟩) { sL with mem := putBytes sL.mem 0x610C0 [0x78, 0x56, 0x34, 0x12] }) 4 0 =
    (0x12345678, 63) := by decide +kernel
theorem test_scale_arrival : (vOf (exec (.cvtqScaleArrival ⟨(req sSc 0).id, []⟩) { sSc with mem := putBytes sSc.mem 0x61000 [0, 0, 0x80, 0x3F] }) 4 0).1 =
    0x04FD0201 := by decide +kernel
theorem test_brld_arrival : (t00 (after (exec (.loadDataArrival ⟨(req sBr 0).id, []⟩) sBr))).hold = none ∧
    ((t00 (after (exec (.loadDataArrival ⟨(req sBx 0).id, []⟩) sBx))).trapcause = 1 ∨ (t00 (after (exec (.loadDataArrival ⟨(req sBx 0).id, []⟩) sBx))).trap ≠ none) := by
  decide +kernel
theorem test_fil_arrival : (getS (t00 (after (exec (.filImageArrival ⟨(req (sFil (.s 8) 3) 0).id, []⟩) (sFil (.s 8) 3)))) 8).full = false := by decide +kernel
/-- Its lanes 0 to 2, which write nothing, have performed. -/
def sSw : State := { sSt with reqs := sSt.reqs.drop 3 }
def sTkd : State := after (exec (.spl (rg z (.v 8) (.s 1) z 0)) (withRegs [(.s 1, false, 0x2800, 63), (.v 8, false, 77, 12)]))
theorem wit_WritesPerformed : getReq sS (req sS 32).id = some (req sS 32) ∧ (req sS 32).loc = some (.hbm 0x61000) ∧
    (req sS 32).kind = .store [0x44, 0x33, 0x22, 0x11] ∧ canPerform sS (req sS 32) = true ∧ Known (.hbm 0x61000) ∧
    getReq sSw (req sSw 0).id = some (req sSw 0) ∧ (req sSw 0).loc = some (.scratch 0 0x2000) ∧ (req sSw 0).kind = .sts [5, 0, 0, 0] 9 false ∧
    canPerform sSw (req sSw 0) = true ∧
    isStore (req (after (exec (.st xst) sS)) 96) = true ∧
    canPerform (after (exec (.st xst) sS)) (req (after (exec (.st xst) sS)) 96) = false :=
  ⟨by decide +kernel, by decide +kernel, by decide +kernel, by decide +kernel, trivial, by decide +kernel⟩
theorem wit_WritesPerformed_images : (req sTkd 0).loc = some (.scratch 0 0x2800) ∧ canPerform sTkd (req sTkd 0) = true ∧
    (match (req sTkd 0).kind with | .spl .. => true | _ => false) = true ∧ (req (after (exec (.mst xms) sM)) 0).kind = .mst [0, 0, 0, 0] 0 ∧
    canPerform (after (exec (.mst xms) sM)) (req (after (exec (.mst xms) sM)) 0) = true :=
  by decide +kernel
/-- The line of that STS has been emptied since it was issued. -/
def sStE : State := updCore sSw 0 fun k => { k with empty := [64] }
theorem wit_WritesPerformed_lines : linesReady sS (req sS 32) = true ∧ linesReady sSw (req sSw 0) = true ∧ linesReady sTkd (req sTkd 0) = true ∧
    linesReady (after (exec (.mst xms) sM)) (req (after (exec (.mst xms) sM)) 0) = true ∧ isStore (req sStE 0) = true ∧
    canPerform sStE (req sStE 0) = true ∧ linesReady sStE (req sStE 0) = false := by decide +kernel
theorem test_write_waits : (after (exec (.writePerformed ⟨(req sStE 0).id, []⟩) sStE)).reqs.length = 29 := by decide +kernel
theorem test_write_performed : getBytes (after (exec (.writePerformed ⟨(req sS 32).id, []⟩) sS)).mem 0x61000 4 = [0x44, 0x33, 0x22, 0x11] ∧
    tagAt (after (exec (.writePerformed ⟨(req sSw 0).id, []⟩) sSw)) 0 0x800 = 9 := by decide +kernel
def xa32 : MM := { xa with size := .b32 }
def sAt : State := after (exec (.atomAdd xa32) (withRegs [(.v 6, false, 5, 63)]))
def sXr : State := after (exec (.xredFp32 xe32) (withRegs [(.v 4, false, 0x3FC00000, 24)]))
def sXd : State := after (exec (.xrdFp32 (mm (.v 4) (.v 1) z .b32 2)) s0)
/-- A queue at 0x2000 of capacity 2 whose entries begin at 0x5000 and hold token 9; and an EXPQ of lane 0 with token 9 or 8, payload 3. -/
def sEq (count token : Nat) : State :=
  let s := setTeam s0 0 0 ((withRegs [(.v 6, true, token + 2 ^ 32 * 3, 63)] |> t00))
  let m := putBytes (putBytes s.mem 0x62000 (leBytes 20 (0x5000 + 2 ^ 64 * count + 2 ^ 96 * 2))) 0x65000 (leBytes 4 9)
  after (exec (.expq { mm (.v 4) (.v 1) (.v 6) .b64 2 with ofs := 0, h := { hd with gp := 1 } })
    { s with mem := m, cores := (updTeam s 0 0 fun t => setPBit t 1 0 true true).cores })
def expqOk (s : State) : Bool :=
  isAsked s 0 && (t00 s).hold.isSome && (req s 0).drains.isEmpty && s.reqs.length == 1 && canPerform s (req s 0) &&
  decide ((req s 0).loc = some (.hbm 0x62000) ∧ relRec s (.hbm 0x62000) = ⟨[], false⟩ ∧ sameStep s (req s 0) = [req s 0])
theorem wit_ReadModifyWrites : (∀ x ∈ [(sAt, Loc.hbm 0x61000), (sXr, .hbm 0x62000), (sXd, .hbm 0x62000)], isAsked x.1 0 = true ∧
      (req x.1 0).loc = some x.2 ∧ canPerform x.1 (req x.1 0) = true ∧ relRec x.1 x.2 = ⟨[], false⟩ ∧ sameStep x.1 (req x.1 0) = [req x.1 0]) ∧
    (req sAt 0).kind = .atom 0 .w32 5 0 (.v 4) false ∧ (req sXr 0).kind = .xred .f32 0x3FC00000 24 ∧ (req sXd 0).kind = .xrd .f32 ⟨0, 0⟩ (.v 4) false ∧
    expqOk (sEq 1 9) = true ∧ expqOk (sEq 1 8) = true ∧ expqOk (sEq 2 8) = true ∧ (req (sEq 1 8) 0).kind = .expq 8 3 (.v 4) ∧
    (entryHome (sEq 1 8) (teamEntry (req (sEq 1 8) 0)) (readHead (sEq 1 8) (.hbm 0x62000)) 1 true).2.1.loc = some (.hbm 0x65008) := by decide +kernel
theorem noDrain_none {s : State} {r : Req} {l : Loc} (h : s.relRecs = []) (k : r.drains = []) : NoDrain s r l :=
  ⟨k, Or.inr fun _ _ => by simp only [relRec, h]; split <;> rfl⟩
theorem wit_ReadModifyWrites_drains : ∀ s ∈ [sAt, sXr, sXd, sEq 1 9, sEq 1 8, sEq 2 8], s.relRecs = [] ∧ (req s 0).drains = [] := by decide +kernel
theorem test_rmw : leNat (getBytes (after (exec (.sliceRmwPerform (req sAt 0).id) sAt)).mem 0x61000 4) = 5 ∧
    (after (exec (.exactContribution (req sXr 0).id) sXr)).mem ≠ [] ∧ vOf (exec (.xrdReadoutArrival (req sXd 0).id) sXd) 4 0 = (0, 24) := by decide +kernel
theorem test_expq : vOf (exec (.queueAppend (req (sEq 1 9) 0).id) (sEq 1 9)) 4 0 = (2 ^ 31, 63) ∧
    vOf (exec (.queueAppend (req (sEq 1 8) 0).id) (sEq 1 8)) 4 0 = (1, 63) ∧
    vOf (exec (.queueAppend (req (sEq 2 8) 0).id) (sEq 2 8)) 4 0 = (0x40FFFFFF, 63) := by decide +kernel


/-! ### Tickets -/

/-- A head whose guard p1 is set in lane 0 alone. -/
def h1 : Head := { hd with gp := 1 }
def oneLane (s : State) : State := updTeam s 0 0 fun t => setPBit t 1 0 true true
def sT0 : State := after (exec (.ldt { xt with h := h1 }) (oneLane s0))
def kT : Nat := ticketSlice (req sT0 0)
def sT1 : State := after (exec (.ldtTicketAllocated (req sT0 0).id 7) sT0)
def sT2 : State := after (exec (.ticketDataArrival kT ⟨7, []⟩) sT1)
/-- The team redeems the ticket that v4 of lane 0 holds: into v6, or into scratchpad line 68. -/
def redeem (s : State) (sp : Bool) : State :=
  let x : RG := if sp then { rg z (.v 4) (.s 1) (.p 2) 1 with h := h1 } else { rg (.v 6) (.v 4) z (.p 2) 0 with h := h1 }
  after (exec (.rdm x) (updTeam s 0 0 fun t => putLanes t (.s 1) false all (fun _ => 0x2200) fun _ => 63))
def idx (s : State) (n : Nat) : Nat := (req s n).id
def isRedeem (s : State) (n : Nat) (some_ : Bool) : Bool :=
  match (req s n).kind with | .redeem _ _ false (.p 2) _ _ _ v => v.isSome == some_ | _ => false
def isFetchAt (s : State) (n e : Nat) : Bool := match (req s n).kind with | .fetch _ k _ _ => k == e | _ => false
def isDeliver (s : State) (n : Nat) (sp : Bool) : Bool := match (req s n).kind with | .deliver _ _ _ _ p _ _ _ _ => p.isSome == sp | _ => false
/-- Redeemed once READY, and redeemed while in flight. -/
def sT3 (sp : Bool) : State := redeem sT2 sp
def sT4 (sp : Bool) : State := after (exec (.redeemMatch (idx (sT3 sp) 0)) (sT3 sp))
def sT5 : State := redeem sT1 false
def sT6 : State := after (exec (.redeemMatch (idx sT5 1)) sT5)
theorem wit_TicketAndRedeemEvents : isAsked sT0 0 = true ∧ (match (req sT0 0).kind with | .ldt .. => true | _ => false) = true ∧
    (getEntry sT0 kT 7).st = .free ∧ (getEntry sT1 kT 7).st ≠ .free ∧ isFetchAt sT1 0 7 = true ∧ (req sT1 0).loc = some (.hbm 0x61000) ∧
    canPerform sT1 (req sT1 0) = true ∧ (getEntry sT1 kT 7).fetch = (req sT1 0).id ∧ (getEntry sT1 kT 7).st = .inflight ∧ sT1.reqs.length = 1 ∧
    (req sT1 0).got = [] ∧ (req sT1 0).val = 0 ∧ isFetch (req sT1 0) = true ∧ (let e := getEntry sT1 kT 7
      e.elems.length ≤ 32 ∧ ∀ y ∈ e.elems, e.lines.getLsbD (y.2 / 128) = true ∧ y.2 % 128 + sizeBytes e.f.size ≤ 128) := by
  decide +kernel
theorem wit_TicketAndRedeemEvents_held : (getEntry sT6 kT 7).st = .held ∧ isFetchAt sT6 0 7 = true ∧ canPerform sT6 (req sT6 0) = true ∧
    isDeliver sT6 2 false = true ∧ (getReq sT6 (getEntry sT6 kT 7).redeem) = some (req sT6 2) ∧ idx sT6 2 ≠ idx sT6 0 := by decide +kernel
theorem wit_TicketAndRedeemEvents_expiry : (getEntry sT1 kT 7).start + (getCtx sT1 0).tickLife ≤ residentClock { sT1 with clock := 2 ^ 20 + 1 } 0 ∧
    ¬ (getEntry sT1 kT 7).start + (getCtx sT1 0).tickLife ≤ residentClock { sT1 with clock := 2 ^ 20 } 0 := by decide +kernel
theorem wit_TicketAndRedeemEvents_redeem : getReq (sT3 false) (idx (sT3 false) 0) = some (req (sT3 false) 0) ∧ isRedeem (sT3 false) 0 false = true ∧
    (∀ q ∈ (sT3 false).reqs, q.id < (sT3 false).nextId) ∧ isAsked (sT4 false) 0 = true ∧ (t00 (sT4 false)).hold = none ∧
    isRedeem (sT4 false) 0 true = true ∧ isAsked (sT4 false) 1 = true ∧ (req (sT4 false) 1).done = true ∧ isDeliver (sT4 false) 1 false = true ∧
    isDeliver (sT4 true) 1 true = true ∧ isAsked (sT4 true) 1 = true ∧ (req (sT4 true) 1).done = true := by decide +kernel
theorem test_ticket : (rdOpd sT1 (t00 sT1) (.v 4) true 0).full = true ∧ (getEntry sT2 kT 7).st = .ready ∧ (getEntry sT2 kT 7).gen = 1 ∧
    inMask (getP (t00 (after (exec (.rdmVerdictReturn (idx (sT4 false) 0)) (sT4 false)))) 2).val 0 = true := by decide +kernel
theorem test_redeem_delivery : (getV (t00 (after (exec (.rdmDataDelivery ⟨idx (sT4 false) 1, []⟩) (sT4 false)))) 6 0).full = true ∧
    lineFull (sT4 true) 0 68 = false ∧ lineFull (after (exec (.rdmDataDelivery ⟨idx (sT4 true) 1, []⟩) (sT4 true))) 0 68 = true := by decide +kernel


/-! ### Faults -/

/-- A load of one lane on an unmapped page; context 0 has a fault ring at 0x80000 and acknowledgements at 0xA0000. -/
def sF0 : State :=
  let s := updCtx s0 0 fun k => { k with ringBase := 0x80000, ringTail := 0x90000, ringHead := 0x90008, ackBase := 0xA0000, ackTail := 0x90010 }
  after (exec (.ld { xl with h := h1, ofs := 0 }) (setTeam s 0 0 { t00 (oneLane s) with bufs := [(0, bufRec 0x40000 4 64 2)] }))
def sF1 : State := after (execTranslationFault (req sF0 0).id sF0)
def sF2 : State := after (execFaultRecordWrite 0 sF1)
/-- An acknowledgement of record 0 with this action. -/
def sF3 (act : Nat) : State := { sF2 with mem := putBytes (putBytes sF2.mem 0xA0000 (leBytes 8 (act * 2 ^ 32))) 0x90010 [1] }
/-- Answered; the page has meanwhile been mapped. -/
def sF4 (act : Nat) : State :=
  let s := after (execAckRead 0 (sF3 act))
  { s with reqs := s.reqs.map fun q => { q with va := 0x1000 } }
theorem wit_FaultRecords : getReq sF0 (req sF0 0).id = some (req sF0 0) ∧ isFaulted (req sF0 0) = true ∧ (req sF0 0).logged = none ∧
    sF0.reqs = [req sF0 0] ∧ isTicketRead (req sF0 0) = false ∧ (req sF0 0).kind = .load (.v 4) false f32i ∧ isFaulted (req sL 0) = false ∧
    atPeer sL (req sL 0) = false ∧ isTicketRead (req sL 0) = false := by
  decide +kernel
/-- A load whose home is a peer's G9, in direct mode and in leased mode. -/
def sPeer (key : Nat) : State := { sL with reqs := [{ req sL 0 with loc := some (.remote 9 key 0x100), done := false, logged := none }] }
theorem wit_FaultRecords_peer : ∀ key ∈ [0, 3], getReq (sPeer key) (req (sPeer key) 0).id = some (req (sPeer key) 0) ∧ isFaulted (req (sPeer key) 0) = false ∧
    isTicketRead (req (sPeer key) 0) = false ∧ atPeer (sPeer key) (req (sPeer key) 0) = true ∧ canPerform (sPeer key) (req (sPeer key) 0) = true := by decide +kernel
theorem wit_FaultRecords_ring : (getCtx sF1 0).heldRecs.length = 1 ∧ relRec sF1 (.hbm 0x90008) = ⟨[], false⟩ ∧
    wrap (((getCtx sF1 0).nextFault : Int) - countWord sF1 0x90008) 32 ≠ 2 ^ (getCtx sF1 0).ringLog2 ∧
    overlap (.hbm 0x90000) 8 (.hbm 0x80000) 64 = false ∧
    wrap (16 - (countWord (updCtx sF1 0 fun k => { k with nextFault := 16 }) 0x90008 : Int)) 32 = 2 ^ (getCtx sF1 0).ringLog2 := by decide +kernel
theorem wit_FaultRecords_ack : ∀ act < 4, (getCtx (sF3 act) 0).st = .running ∧ relRec (sF3 act) (.hbm 0x90010) = ⟨[], false⟩ ∧
    countWord (sF3 act) 0x90010 ≠ (getCtx (sF3 act) 0).acksRead % 2 ^ 32 ∧ (nget (getCtx (sF3 act) 0).openRecs 0).isSome = true ∧
    ((nget (getCtx (sF3 act) 0).openRecs 0).map fun f => (f.src, f.cause)) = some (0, 1) := by decide +kernel
theorem wit_FaultRecords_replay : unanswered (getCtx sF1 0) (req sF1 0).grp = true ∧ ∀ act ∈ [0, 1], (req (sF4 act) 0).logged = some 0 ∧
    unanswered (getCtx (sF4 act) 0) (req (sF4 act) 0).grp = false ∧ ctxActive (sF4 act) 0 = true ∧ (sF4 act).reqs = [req (sF4 act) 0] ∧
    isAsked (sF4 act) 0 = true ∧ isFaulted (reroute (sF4 act) (req (sF4 act) 0)).1 = false ∧ otherLeaves (sF4 act) (req (sF4 act) 0) = (false, false) ∧
    ((nget (getCore (sF4 act) 0).log 0).map fun e => (e.tid, e.grp, e.discard)) =
      some (1, (req (sF4 act) 0).grp, if act = 1 then [(req (sF4 act) 0).id] else []) := by decide +kernel
/-- R369: the record's cause, SRC, VA and phase bit. -/
theorem test_fault_record : let w := leNat (getBytes sF2.mem 0x80000 64)
    (w / 2 ^ 511, w / 2 ^ 496 % 256, w / 2 ^ 492 % 16, countWord sF2 0x90000) = (1, 1, 0, 1) := by decide +kernel
theorem test_replay : (let r := req (after (execReplay 0 0 (sF4 0))) 0; (r.logged, isFaulted r)) = (some 0, false) ∧ (getV (t00 (after (execReplay 0 0 (sF4 1)))) 4 0) = ⟨0, true, 0⟩ := by
  decide +kernel

/-! ### Order and issue -/

/-- The team is in its slot and no issue slot is held. -/
def sOr : State := setCore s0 0 { getCore s0 0 with islots := [] }
/-- A raised trap. -/
def sTrp : State := setTeam sT 0 0 { team0 with trap := some (trapAt 1 0 all) }
/-- A load that has read a release of core 3 and waits for it; a store of core 3, and none. -/
def loadReq : Req := { noReq with id := 5, kind := .load (.v 4) false f32i, loc := some (.hbm 0x61000), read := true, n := 4, acq := true, done := true, drains := [⟨3, .device, 9, 0x61000, 4, true⟩] }
def storeReq : Req := { noReq with id := 6, core := 3, tid := 8, kind := .store [1], loc := some (.hbm 0x61200), write := true, n := 1 }
def sPr (st : Bool) : State := { s0 with reqs := [loadReq] ++ if st then [storeReq] else [] }
theorem wit_OrderAndIssueEvents : (getISlot s0 0 0).holder ≠ none ∧ (getISlot sOr 0 0).holder = none ∧ sOr.gated = false ∧
    ready sOr 0 0 { team0 with halted := true } = false ∧ (getISlot { sOr with gated := true } 0 0).holder = none ∧
    (0, team0) ∈ (getCore sOr 0).teams ∧ islotOf team0 = 0 ∧ ready sOr 0 0 team0 = true ∧ (getCore sOr 0).teams = [(0, team0)] := by decide +kernel
theorem wit_OrderAndIssueEvents_traps : (t00 sTrp).trap = some (trapAt 1 0 all) ∧ hasLog sTrp 0 0 = false ∧ ctxActive sTrp 0 = true ∧ TrapReady sTrp 0 0 (t00 sTrp) 1 ∧
    (getCtx s0 0).st = .running ∧ s0.clock < (getCtx s0 0).lastPulse + 2 ^ (getCtx s0 0).wdLog2 ∧
    (getCtx s0 0).lastPulse + 2 ^ (getCtx s0 0).wdLog2 ≤ 2 ^ 33 ∧ teamsOf s0 0 ≠ [] := by
  refine ⟨by decide +kernel, by decide +kernel, by decide +kernel, trap_of (by decide +kernel), ?_⟩
  decide +kernel
theorem wit_OrderAndIssueEvents_memory : (tlbOf sTlb (tlbNo 576))[0]? = some ⟨0, 0x10000, 0x10000, 0x8000, 0, true⟩ ∧
    (∀ b, isAsked (sPr b) 0 = true ∧ req (sPr b) 0 = loadReq) ∧ buffered (sPr false) 3 9 = false ∧
    ((sPr true).reqs.filter fun q => q.core == 3 && isStore q) = [storeReq] ∧ canPerform (sPr true) storeReq = true ∧ linesReady (sPr true) storeReq = true ∧
    getReq (sPr true) 6 = some storeReq ∧
    (ngetD ⟨[], false⟩ s0.relRecs 77).all = false ∧ s0.gait.frozen = false ∧ s0.clock % 64 = 0 ∧ s0.hist.ctx = 0 ∧ s0.hist.start ≤ (issueAddr team0).toNat := by
  decide +kernel
theorem test_promotion : vOf (execPromotionRequest 5 3 (sPr false)) 4 0 = (0, 0) ∧ (ngetD 0 (after (execPromotionRequest 5 3 (sPr true))).mem 0x61200) = 1 := by
  decide +kernel
theorem test_grant : (getISlot (after (exec (.tenureGrant 0 0) sOr)) 0 0).holder = some 0 := by decide +kernel

/-! ### Engines at work -/

def cpStart (s : State) : State := after (execCopyCommandStart 0 0 s)
def head0 (s : State) : CopyCmd := ((chanOf s 0 0).head?).getD default
def sCp2 : State := cpStart sCp1
def sCp3 : State := after (execCopyLineLands 0 ⟨0, []⟩ sCp2)
def sCpc : State := after (exec (.cpyc xen) sCp)
/-- The source lies on an unmapped page. -/
def sCpF : State := setChan sCp2 0 0 ((chanOf sCp2 0 0).map fun m => { m with slices := m.slices.map fun q => { q with srec := bufRec 0x40000 4 64 2 } })
/-- What the next line's bytes are, with none of its words read ahead, and the places of those words. -/
def partsOf (s : State) : List Part := (lineParts s ⟨0, (head0 s).wg, (head0 s).ctx⟩ (head0 s) (nth 0 (head0 s).lines (head0 s).landed)).map (·.2)
def gatherOf (s : State) : Got (List LandEl) := (gather (copyEng s 0 (head0 s)) (fun _ => none) (partsOf s) s).1
def words0 (s : State) : List Pl := allWords s ⟨0, (head0 s).wg, (head0 s).ctx⟩ (head0 s)
theorem wit_CopyEvents : (head0 sCp1).coll = none ∧ copyMayStart sCp1 0 (head0 sCp1) = true ∧ chanOf sCp1 0 0 = [head0 sCp1] ∧
    (head0 sCp1).slices.length = 1 ∧ cpStatus sCp1 ⟨0, 1, 0⟩ false ((head0 sCp1).slices.headD default) = 0 ∧
    (head0 sCpc).coll = some 0 ∧ slicesIn sCpc 0 (head0 sCpc) = true ∧ copyMayStart sCpc 0 (head0 sCpc) = true := by decide +kernel
/-- Core 0 has passed to the other world; the command's issuing team has an earlier store in flight; a command with a bad status. -/
def sCpW : State := updCore sCp2 0 fun k => { k with world := true }
def mapCmd (s : State) (f : CopyCmd → CopyCmd) : State := setChan s 0 0 ((chanOf s 0 0).map f)
def sCpR : State :=
  { mapCmd sCp2 (fun m => { m with slices := m.slices.map fun q => { q with rel := true } }) with reqs := [{ storeReq with id := 1, core := 0, tid := 1 }] }
def sCpX : State := mapCmd sCp2 fun m => { m with status := 1 }
theorem wit_CopyEvents_lines : (head0 sCp2).started = true ∧ (head0 sCp2).status = 0 ∧ (head0 sCp2).fault = 0 ∧ (head0 sCp2).landed < (head0 sCp2).lines.length ∧
    ctxActive sCp2 0 = true ∧ ((getCore sCp2 0).wgs.map (·.id)) = [(head0 sCp2).wg] ∧ 0 < (getWg sCp2 0 1).delivered.length ∧
    (match gatherOf sCp2 with | .ok ls => ls.length == 4 | _ => false) = true ∧ (match gatherOf sCpF with | .fault .. => true | _ => false) = true ∧
    (match gatherOf sCpW with | .world => true | _ => false) = true ∧ (∀ s ∈ [sCp2, sCpF, sCpW], copyReleased s 0 (head0 s) = true ∧
      (head0 s).early = [] ∧ ∀ w ∈ lineWords (partsOf s), plWaits s 4 w = false) ∧ copyReleased sCpR 0 (head0 sCpR) = false ∧
    (head0 sCp3).started = true ∧ (head0 sCp3).landed = (head0 sCp3).lines.length ∧ (head0 sCp3).fault = 0 ∧ copyReleased sCp3 0 (head0 sCp3) = true ∧
    (∃ e ∈ (getCore sCp3 0).teams, e.2.wg = (head0 sCp3).wg) ∧ (head0 sCpX).started = true ∧ (head0 sCpX).fault = 0 ∧ (head0 sCpX).status ≠ 0 ∧
    copyReleased sCpX 0 (head0 sCpX) = true := by decide +kernel
theorem wit_CopyEvents_ahead : ((words0 sCp2)[1]?).isSome = true ∧ wordsBefore sCp2 ⟨0, 1, 0⟩ (head0 sCp2) 0 ≤ 1 ∧ (head0 sCp2).landed = 0 ∧
    (match (words0 sCp2)[1]? with
      | some w => !plWaits sCp2 4 w && (match (plRead sCp2 (copyEng sCp2 0 (head0 sCp2)) 4 w).1 with | .ok _ => true | _ => false)
      | none => false) = true := by decide +kernel
/-- A word read ahead of its line is the one that lands, whatever is stored in between (R269). -/
theorem test_read_ahead : let s := after (execCopyLineLands 0 ⟨0, [1]⟩ sCp2)
    leNat (readLoc (after (execCopyLineLands 0 ⟨0, []⟩ { s with mem := putBytes s.mem 0x61000 (List.replicate 16 7) })) (.scratch 0 0x3008) 4) = 0 ∧
    leNat (readLoc (after (execCopyLineLands 0 ⟨0, []⟩ { s with mem := putBytes s.mem 0x61000 (List.replicate 16 7) })) (.scratch 0 0x3000) 4) = 0x07070707 := by
  decide +kernel
theorem test_copy_lands : (getCore sCp3 0).empty = [] ∧ nth 0 (getWg sCp3 0 1).delivered 0 = 1 ∧
    readLoc sCp3 (.scratch 0 0x2300) 8 = leBytes 8 (0x77 * 2 ^ 32) := by decide +kernel
theorem test_copy_end : (ngetD 0 (getCtx (after (execCopyCommandEnd 0 0 sCp3)) 0).events 5) = 1 ∧ chanOf (after (execCopyCommandEnd 0 0 sCp3)) 0 0 = [] := by
  decide +kernel
def op0 (s : State) : TileOp := ((getCore s 0).tops.head?).getD default
def sTi2 : State := after (execTileOpStart 0 (op0 sTi1).id sTi1)
/-- A TLD through a record of an unmapped page, started. -/
def sTiF : State :=
  let o : TileOp := { op0 sTi2 with kind := .tld, recs := [(2, bufRec 0x40000 8 64 3)] }
  let w (x : Wg) : Wg := { x with tiles := [(3, { noTile with kind := 0, rows := 2, cols := 2, tag := 53 })] }
  setCore sTi2 0 { getCore sTi2 0 with tops := [o], wgs := (getCore sTi2 0).wgs.map w }
/-- An operation on tile 3, which holds `t`, that has started. -/
def t22 : Tile := { noTile with kind := 0, rows := 2, cols := 2, tag := 53 }
def sTop (kind : TKind) (t : Tile) (b : List DWord) : State :=
  let o : TileOp := { op0 sTi2 with kind := kind, blk := b }
  setCore sTi2 0 { getCore sTi2 0 with tops := [o], wgs := (getCore sTi2 0).wgs.map fun x => { x with tiles := [(3, t)] } }
def resOf (s : State) : Option Nat :=
  match runOp s 0 (op0 s) with
  | .done _ (.fail _) => some 0
  | .done _ .keep => some 1
  | .done _ (.desc _) => some 2
  | .done _ (.ok ..) => some 3
  | .fault .. => some 4
  | _ => none
theorem wit_TileEvents : getOp sTi1 0 (op0 sTi1).id = some (op0 sTi1) ∧ (op0 sTi1).started = false ∧ sTi1.gated = false ∧ ctxActive sTi1 0 = true ∧
    stalled sTi1 0 = false ∧ acqReady sTi1 0 (op0 sTi1).tid (op0 sTi1).acq (op0 sTi1).first = true ∧ earlierOps sTi1 0 (op0 sTi1).id = [] := by
  decide +kernel
theorem wit_TileEvents_commit : ∀ x ∈ [(sTop .trnd noTile [], 0), (sTop .trnd t22 [], 1), (sTop .tfree t22 [], 2), (sTop .tdns t22 [], 3), (sTop .tst noTile bT, 0),
      (sTi2, 2), (sTiF, 4)],
    resOf x.1 = some x.2 ∧ getOp x.1 0 (op0 x.1).id = some (op0 x.1) ∧ (op0 x.1).started = true ∧ (op0 x.1).fault = 0 ∧ ctxActive x.1 0 = true ∧
      delivering x.1 0 (op0 x.1).id = false ∧ stalled x.1 0 = false ∧ relReady x.1 0 (op0 x.1).tid (op0 x.1).rel (op0 x.1).first = true ∧
      earlierOps x.1 0 (op0 x.1).id = [] ∧ (getTile (getWg x.1 0 (op0 x.1).wg) (statusTile (op0 x.1))).val = ⟨[], [], []⟩ ∧
      (∃ w ∈ (getCore x.1 0).wgs, w.id = (op0 x.1).wg) ∧ ∃ e ∈ (getCore x.1 0).teams, e.2.wg = (op0 x.1).wg := by decide +kernel
theorem test_tile_commit : let t := getTile (getWg (after (execTileOpCommit 0 ⟨(op0 sTi2).id, []⟩ sTi2)) 0 1) 3
    (t.kind, t.rows, t.cols, t.fe, t.tag, t.status) = (0, 2, 2, true, 53, 0) := by decide +kernel
/-- A launch of clusters of two workgroups; core 1 runs the second, if it has started. The operation of core 0 adds its tile 5 to tile 3. -/
def sRm (here : Bool) (ds : List Delivery) : State :=
  let ws (q : List DWord) : List DWord :=
    setNth (setNth q 4 (BitVec.ofNat 64 (16 + 3 * 2 ^ 25))) 24 (BitVec.ofNat 64 (1 + 2 ^ 19 + 2 ^ 32 * (2 + 2 ^ 16 + 2 ^ 20)))
  let s := updLaunch s0 0 0 fun q => { q with words := ws q.words }
  let o : TileOp :=
    { (default : TileOp) with
      id := 4, ctx := 0, seq := 0, wg := 1, tid := 1, kind := .tadd, dst := 3, blk := blkOf [(49, 1), (44, 1), (32, 5), (64, 2), (96, 3)], started := true }
  let c := { getCore s 0 with tops := [o], deliveries := ds, wgs := (getCore s 0).wgs.map fun w => { w with unit := [0, 0] } }
  let s1 := setCore s 0 c
  if here then setCore s1 1 { c with tops := [], deliveries := [], wgs := c.wgs.map fun w => { w with unit := [1, 0] } } else s1
def del (a b : Nat) (t : Tile) : Delivery := ⟨4, 1, 3, 0, 0, [0, 0], t, a, b⟩
/-- The served tile on its way: of `t`, `a` lines sent and `b` of them received. `dense2` takes 256 lines. -/
def dense2 : Tile := { noTile with kind := 1, rows := 2, cols := 2 }
def sDel (here : Bool) (a b : Nat) (t : Tile) : State := sRm here [del a b t]
/-- The second workgroup of the cluster has come and gone. -/
def sGone (a b : Nat) (t : Tile) : State := updLaunch (sDel false a b t) 0 0 fun q => { q with ended := [[1, 0, 0, 0, 0, 0, 0]] }
theorem wit_TileEvents_remote : getOp (sRm true []) 0 4 = some (op0 (sRm true [])) ∧ (op0 (sRm true [])).started = true ∧ tBad (op0 (sRm true [])).blk = false ∧
    operandOf (op0 (sRm true [])).blk 0 = (true, 1, 5) ∧ (op0 (sRm true [])).remA = none ∧ stalled (sRm true []) 1 = false ∧
    ((remoteWg (sRm true []) 0 (getWg (sRm true []) 0 1) (getLaunch (sRm true []) 0 0).words 1).map fun g =>
      (g.1, (fullTile (sRm true []) g.1 g.2 (getLaunch (sRm true []) 0 0).words 5).fe)) = some (1, true) := by decide +kernel
theorem wit_TileEvents_deliveries : (∀ x ∈ [(0, 0), (64, 0), (256, 192)], (getCore (sDel true x.1 x.2 dense2) 0).deliveries = [del x.1 x.2 dense2] ∧
      (receiver (sDel true x.1 x.2 dense2) 0 (del x.1 x.2 dense2)).isSome = true ∧ (receiver (sDel false x.1 x.2 dense2) 0 (del x.1 x.2 dense2)).isNone = true ∧
      unitPending (sDel false x.1 x.2 dense2) 0 (del x.1 x.2 dense2) = true ∧ (receiver (sGone x.1 x.2 dense2) 0 (del x.1 x.2 dense2)).isNone = true ∧
      unitPending (sGone x.1 x.2 dense2) 0 (del x.1 x.2 dense2) = false) ∧ 24 * clusterOf 0 + 1 % 24 = 1 ∧
    deliveryLines (sDel true 0 0 dense2) (del 0 0 dense2) = 256 := by decide +kernel
theorem wit_TileEvents_drain : clusterOf 0 = clusterOf 1 ∧ (del 64 0 dense2).core = 1 ∧
    ∀ x ∈ [sDel true 256 192 dense2, sDel true 64 0 dense2, sDel false 64 0 dense2, sGone 64 0 dense2], ∀ c < 24, c ≠ 0 → (getCore x c).deliveries = [] := by
  decide +kernel
theorem test_delivery : (getCore (after (execMulticastDelivery 0 4 1 (sDel true 0 0 dense2))) 1).tops.length = 1 ∧
    (getCore (after (execMulticastDelivery 0 4 1 (sDel false 0 0 dense2))) 0).deliveries = [del 64 0 dense2] ∧
    (getCore (after (execMulticastDelivery 0 4 1 (sGone 0 0 dense2))) 0).dropped = 1 := by decide +kernel
theorem test_drain : (getCore (after (execMulticastBufferDrain 1 (sDel true 256 192 dense2))) 1).tops.length = 1 ∧
    (getCore (after (execMulticastBufferDrain 1 (sDel true 64 0 dense2))) 0).deliveries = [del 64 64 dense2] := by decide +kernel
def coll0 (s : State) : CollCmd := ((getCtx s 0).colls.head?).getD default
def cid (s : State) : Nat := (coll0 s).id
/-- The first message of rank 1. -/
def msg (op : Nat) : CollParams := ⟨1, op, 1, 1, 0, 0⟩
def sCl2 : State := after (execCollJoin 0 (cid sColl1) [msg 3] sColl1)
def one32 : BitVec 64 := 0x3F800000
def sCl3 : State := after (execZephyrChunkLands 0 ⟨cid sColl1, []⟩ false 1 0 [one32] [24] sCl2)
def sCl4 : State := after (execZephyrChunkLands 0 ⟨cid sColl1, []⟩ false 0 0 [one32] [24] sCl3)
/-- This rank's own contribution to rank 1's segment has gone out too. -/
def sClS : State := after (execZephyrChunkLands 0 ⟨cid sColl1, []⟩ false 1 0 [] [] sCl4)
def sCl5 : State := after (execZephyrReadout 0 ⟨cid sColl1, []⟩ 0 sClS)
def sCl6 : State := after (execZephyrChunkLands 0 ⟨cid sColl1, []⟩ true 1 0 [one32] [24] sCl5)
theorem wit_CollectiveEvents : getColl sColl1 0 (cid sColl1) = some (coll0 sColl1) ∧ (coll0 sColl1).started = false ∧ (coll0 sColl1).status = 0 ∧
    sColl1.gated = false ∧ ctxActive sColl1 0 = true ∧ acqReady sColl1 0 (coll0 sColl1).tid (coll0 sColl1).acq (coll0 sColl1).first = true ∧
    (coll0 sCl2).started = true ∧ (coll0 (after (execCollJoin 0 (cid sColl1) [msg 2] sColl1))).status = 5 ∧ (coll0 sCl2).status = 0 ∧ (coll0 sCl2).fault = 0 ∧
    clGoes sCl2 0 (coll0 sCl2) = true ∧ clReduces (coll0 sCl2).blk = true ∧ (1, 0) ∉ (coll0 sCl2).contrib ∧ 0 < chunkCount (coll0 sCl2).blk ∧
    (chunkRange (coll0 sCl2).blk 0).length = 1 ∧ residentClock sColl1 0 < (coll0 sColl1).joinLeft ∧ (coll0 sColl1).joinLeft ≤ 2 ^ 41 := by decide +kernel
theorem wit_CollectiveEvents_ends : (coll0 sCl4).contrib = [(1, 0), (0, 0)] ∧ nextChunk (coll0 sCl4) 0 0 = true ∧ (coll0 sCl5).landed = [(0, 0)] ∧
    nextChunk (coll0 sCl5) 1 0 = true ∧ clOp (coll0 sCl5).blk = 3 ∧ clDone (coll0 sCl6).ent (coll0 sCl6) = true ∧
    (match (clSource sCl3 0 (coll0 sCl3) (0, 0) [0]).1 with | .ok ls => ls.length == 1 | _ => false) = true := by decide +kernel
/-- The entry is only read now: READY, or FREE; the join limit has passed; an ALLGATHER, whose first chunk of rank 1 lands next. -/
def sClE (tab : Nat) : State :=
  updCtx sColl1 0 fun k => { k with colls := k.colls.map fun m => { m with ent := 0, tab := tab } }
def sClT : State := { sColl1 with clock := 2 ^ 41 }
def sClG : State := updCtx sCl2 0 fun k => { k with colls := k.colls.map fun m => { m with blk := blkOf [(0, 0), (4, 1), (8, 1), (32, 1), (80, 2), (128, 8)] } }
def joins (s : State) : Bool :=
  let m := coll0 s
  decide (getColl s 0 m.id = some m) && !m.started && m.status == 0 && m.fault == 0 && !s.gated && clGoes s 0 m
def runs (s : State) : Bool :=
  let m := coll0 s
  decide (getColl s 0 m.id = some m) && m.started && m.status == 0 && m.fault == 0 && clGoes s 0 m
/-- The homes that a landing, or an entry of a contribution, takes. -/
def landsAt (s : State) (m : CollCmd) (seg j : Nat) : Bool :=
  match placeSome s 0 m (seg, 0) (clOut s 0 m seg [⟨j, 5, 5, false⟩]) [] with
  | (.ok [_], h) => (match (clWordHome h 0 m seg).1 with | .ok (some _) => true | _ => false) &&
    (match clPuts m [clDst s 0 m (segBase m.blk seg + j)] with
      | [.word q] => (match (accHome s (clEng s 0 m) (.word q)).1 with | .ok (some _) => true | _ => false) &&
          decide (plAt (clDst s 0 m (segBase m.blk seg + j)) + elBytes (clEz m.blk) ≤ plAt q + 8)
      | _ => false)
  | _ => false
def entersAt (s : State) (w : Bool) : Bool :=
  let m := coll0 s
  match (stageHomes (clEng s 0 m) m.ent m.blk w [0] s).1 with | .ok [some _] => true | _ => false
theorem wit_CollectiveEvents_table : commState (getComm sColl1 0 0x1800 2) = 1 ∧ commState (getComm sColl1 0 0 2) ≠ 1 ∧
    (∀ t ∈ [0x1800, 0], joins (sClE t) = true ∧ commState (coll0 (sClE t)).ent ≠ 1 ∧
      (match (readComm (sClE t) 0 t 2 []).1 with | .ok x => decide ((startStatus (sClE t) 0 x (coll0 (sClE t)) = 0) ↔ t = 0x1800) | _ => false) = true) ∧
    joins sClT = true ∧ commState (coll0 sClT).ent = 1 ∧ (coll0 sClT).joinLeft ≤ residentClock sClT 0 ∧ (getCtx sClT 0).st ≠ .suspended ∧
    joins sColl1 = true ∧ commRanks (coll0 sColl1).ent = 2 ∧ commRank (coll0 sColl1).ent = 0 := by decide +kernel
theorem wit_CollectiveEvents_chunks : (∀ s ∈ [sCl2, sCl3, sCl4, sClS, sCl5, sClG], runs s = true) ∧ accFree sCl2 0 (coll0 sCl2) 0 = true ∧
    entersAt sCl2 true = true ∧ (1, 0) ∈ (coll0 sCl3).contrib ∧ accFree sCl3 0 (coll0 sCl3) 0 = true ∧ entersAt sCl3 true = true ∧
    (1, 0) ∉ (coll0 sCl4).sent ∧ (1, 0) ∈ (coll0 sClS).sent ∧ (match (clSource sCl4 0 (coll0 sCl4) (1, 0) [1]).1 with | .ok ls => ls.length == 1 | _ => false) = true ∧
    clReduces (coll0 sClG).blk = false ∧ nextChunk (coll0 sClG) 1 0 = true ∧ mayLand sClG 0 (coll0 sClG) 1 0 = true ∧
    landsAt sClG (coll0 sClG) 1 0 = true ∧ nextChunk (coll0 sClG) 1 1 = false ∧ mayLand sClS 0 (coll0 sClS) 0 0 = true ∧ entersAt sClS false = true ∧
    landsAt sClS (coll0 sClS) 0 0 = true ∧ mayLand sCl5 0 (coll0 sCl5) 1 0 = true ∧ landsAt sCl5 (coll0 sCl5) 1 0 = true := by decide +kernel
theorem wit_CollectiveEvents_over : clLeaves sCl6 0 (coll0 sCl6) = true ∧ relReady sCl6 (coll0 sCl6).core (coll0 sCl6).tid (coll0 sCl6).rel (coll0 sCl6).first = true ∧
    clDone (coll0 sCl2).ent (coll0 sCl2) = false ∧ bfb (coll0 sCl6).blk 511 = true ∧ (coll0 sCl6).core = 0 := by decide +kernel
/-- 1 of rank 1 and the 0 of this rank's source make 1, at element 8 of b0; the signal word of segment 0 rises by 1. -/
theorem test_collective : leNat (readLoc sCl5 (.hbm 0x61020) 4) = 0x3F800000 ∧ leNat (readLoc sCl5 (.hbm 0x62000) 8) = 1 ∧
    (getCtx (after (execCollComplete 0 (cid sColl1) sCl6)) 0).colls = [] := by decide +kernel


/-! ### The Bridle unit -/

/-- Slot 0 with an entry of action `a` that matches any token. -/
def sBd (a : Nat) (d : Opd) : State :=
  let e : BitVec 368 := BitVec.ofNat 368 (2 ^ 15 + a * 2 ^ 12 + (if a = 2 then 16 else 0) + 1 + 2 ^ 38)
  let s := { sSq with seqSlots := [(0, { newSlot with ents := e :: List.replicate 7 0 }), (1, newSlot)] }
  after (exec (.seqcm { xcm with d := d }) s)
def p1Of (s : State) : SeqSlot := { getSeq s 0 with ring := setNth (getSeq s 0).ring 0 0 }
def steer0 (s : State) : Option Nat := steerOf (p1Of s) (evalToken s (p1Of s) 0 (getSeq s 0).ctr).m
def withKind (s : State) (k : ReqKind) : State := { s with reqs := s.reqs.map fun q => { q with kind := k } }
/-- The slot with one tentative token. -/
def tent1 (s : State) : State :=
  let t := { after (execSeqTentativeEval (idx s 0) (withKind s (.seqTent 0 0 (.s 4)))) with reqs := s.reqs }
  withKind t (.seqConf 0 1 (.s 4))
theorem wit_BridleEvents : (∀ a ∈ [0, 1, 2, 4], getReq (sBd a (.s 4)) (idx (sBd a (.s 4)) 0) = some (req (sBd a (.s 4)) 0) ∧
      (req (sBd a (.s 4)) 0).kind = .seqCommit 0 0 false (.s 4) ∧ seqTurn (sBd a (.s 4)) (req (sBd a (.s 4)) 0) = true ∧
      ownStatus (sBd a (.s 4)) 0 0 = 0 ∧ (getSeq (sBd a (.s 4)) 0).st = .active ∧ steer0 (sBd a (.s 4)) = some 0 ∧
      weAction (entOf (getSeq (sBd a (.s 4)) 0) 0) = a) ∧
    (slotRange (getCtx (sBd 1 (.s 4)) 0)).find? (fun k => (getSeq (sBd 1 (.s 4)) k).st == .free) = some 2 := by decide +kernel
theorem wit_BridleEvents_replies : isAsked (sBd 3 (.s 4)) 0 = true ∧ isAsked (after (execSeqCommitEval (idx (sBd 3 (.s 4)) 0) (sBd 3 (.s 4)))) 0 = true ∧
    (req (after (execSeqCommitEval (idx (sBd 3 (.s 4)) 0) (sBd 3 (.s 4)))) 0).done = true ∧
    (getSeq (tent1 (sBd 3 (.s 4))) 0).tcnt = 1 ∧ seqTurn (tent1 (sBd 3 (.s 4))) (req (tent1 (sBd 3 (.s 4))) 0) = true ∧
    (getSeq (tent1 (sBd 3 (.s 4))) 0).shadows.length = 1 ∧ slotOwner sSq 2 = some 0 ∧ (getSeq sSq 2).st = .free ∧
    imageReady sSq noReq = true ∧ s0.bridleCache.length ≤ 1024 := by decide +kernel
theorem test_commit : (getSeq (after (execSeqCommitEval (idx (sBd 0 (.s 4)) 0) (sBd 0 (.s 4)))) 0).st = .stopped ∧
    (getSeq (after (execSeqCommitEval (idx (sBd 2 (.s 4)) 0) (sBd 2 (.s 4)))) 0).pos = 2 := by decide +kernel
theorem test_confirm : (getSeq (after (execSeqConfirmation (idx (tent1 (sBd 3 (.s 4))) 0) (tent1 (sBd 3 (.s 4))))) 0).pos = 1 := by decide +kernel

/-! ### Tasks -/

def sEv : State := after (exec (.evsig (en z z z 7)) s0)

def sLa : State := after (exec (.launch { xla with rel := false }) s0)
/-- The record of the placed launch, put at a physical address. -/
def putRec (m : NMap Byte) (a : Nat) : NMap Byte :=
  [1, 2, 3, 4, 24].foldl (fun m k => putBytes m (a + 8 * k) (leBytes 8 (nth 0 (recordOf s0 team0) k).toNat)) m
def sLaOk : State := { sLa with mem := putRec sLa.mem 0x62000 }
/-- A command queue at virtual address 0x3000, or another, with its counts at 0xC0000; `n` records published. -/
def sQuAt (base n : Nat) : State :=
  let s := updCtx s0 0 fun k => { k with queues := [(0, ⟨base, 2, 0xC0000, 0xC0008, 0, false, [], []⟩)] }
  { s with mem := putBytes (putRec s.mem 0x63000) 0xC0000 (leBytes 8 n) }
def sQu (n : Nat) : State := sQuAt 0x3000 n
/-- The words that a task engine of context 0 reads at `va`, some read ahead; none where the record does not translate. -/
def recAt (s : State) (early : List (Nat × BitVec 80)) (va : Nat) : Option (List DWord) :=
  match (recWords s (taskEng s 0 []) early va).1 with
  | .ok x => some x.1
  | _ => none
def recOf0 (s : State) : List DWord := (recAt s [] 0x3000).getD []
/-- The launch that the queue's record gives; started; its team placed on core 144 of die 1. -/
def sQ1 : State := after (execQueueTailRead 0 ⟨0, []⟩ (sQu 1))
def sQ2 : State := after (execLaunchStart 0 1 sQ1)
set_option maxRecDepth 100000 in
theorem wit_TaskEvents : isAsked sLa 0 = true ∧ (req sLa 0).kind = .launch (.v 4) true false false [] ∧ isFaulted (req sLa 0) = false ∧
    (req sEv 0).kind = .evAdd 7 1 ∧ (req sEv 0).rel = false ∧
    (match (recWords sLaOk (taskEng sLaOk 0 []) [] (req sLaOk 0).va).1 with
      | .ok x => recCheck x.1 false == 0 && !launchHeld sLaOk (req sLaOk 0) false x.2 | _ => false) = true ∧
    ((recAt sLa [] (req sLa 0).va).map fun w => recCheck w false != 0) = some true := by
  decide +kernel
/-- A word of the record, read ahead and then overwritten, is taken as it was read. -/
def sLaRead : State := let s := after (execLaunchTaken ⟨(req sLaOk 0).id, [4]⟩ sLaOk); { s with mem := putBytes s.mem (0x62000 + 32) (leBytes 8 0) }
def earlyOf (k : ReqKind) : List (Nat × BitVec 80) := match k with | .launch _ _ _ _ e => e | _ => []
theorem wit_TaskEvents_ahead : (recAccs (req sLaOk 0).va)[4]? = some (.word (.glob ((req sLaOk 0).va + 32) 0 0)) ∧
    (match (accNow sLaOk (taskEng sLaOk 0 []) (.word (.glob ((req sLaOk 0).va + 32) 0 0))).1 with
      | .ok v => !launchHeld sLaOk (req sLaOk 0) false v.2.toList | _ => false) = true ∧
    (match (accNow (sQu 1) (taskEng (sQu 1) 0 []) (.word (.glob 0x3020 0 0))).1 with | .ok _ => true | _ => false) = true ∧
    (recAccs 0x3000)[4]? = some (.word (.glob 0x3020 0 0)) ∧ aheadOf [] 4 = none := by decide +kernel
theorem test_record_ahead : recAt sLaRead (earlyOf (req sLaRead 0).kind) (req sLaOk 0).va = recAt sLaOk [] (req sLaOk 0).va ∧
    recAt sLaRead [] (req sLaOk 0).va ≠ recAt sLaOk [] (req sLaOk 0).va := by decide +kernel
set_option maxRecDepth 100000 in
theorem wit_TaskEvents_queue : (∀ n ∈ [0, 1, 5], nget (getCtx (sQu n) 0).queues 0 = some ⟨0x3000, 2, 0xC0000, 0xC0008, 0, false, [], []⟩ ∧
      wrap ((countWord (sQu n) 0xC0000 : Int) - 0) 32 = n) ∧ waiting (getCtx (sQu 1) 0) < 1024 ∧ queueTurn (sQu 1) (getCtx (sQu 1) 0) 0 = true ∧ queueHeld (getCtx (sQu 1) 0) 0 = false ∧
    (sQu 1).relRecs = [] ∧ (recAt (sQu 1) [] 0x3000).isSome = true ∧
    (match (recWords (sQuAt 0x40000 1) (taskEng (sQuAt 0x40000 1) 0 []) [] 0x40000).1 with | .fault .. => true | _ => false) = true ∧
    recCheck (recOf0 (sQu 1)) (getCtx (sQu 1) 0).world = 0 := by decide +kernel
set_option maxRecDepth 100000 in
theorem wit_TaskEvents_launches : mayStart sQ1 0 (getLaunch sQ1 0 1) = true ∧ recChunk (getLaunch sQ1 0 1).words ≠ 0 ∧
    recLmode (getLaunch sQ1 0 1).words = false ∧ recGrid (getLaunch sQ1 0 1).words ≠ 0 ∧ launchOver sQ1 0 (getLaunch sQ1 0 1) = false ∧
    ctxActive sQ1 0 = true ∧ (firstPlaced sQ2 0).isSome = true ∧ (match firstPlaced sQ2 0 with | some x => decide (x.2.1 = 0 ∧ getLaunch sQ2 0 x.2.2.seq = x.2.2) | none => false) = true ∧ (getLaunch sQ2 0 1).st = .started ∧
    launchOver sQ2 0 { getLaunch sQ2 0 1 with left := 0 } = true := by decide +kernel
/-- Word `k` of the record of launch 1. -/
def withWord (s : State) (k n : Nat) : State := updLaunch s 0 1 fun q => { q with words := setNth q.words k (BitVec.ofNat 64 ((nth 0 q.words k).toNat + n)) }
def sLm : State := let s := withWord (withWord sQ1 4 (2 ^ 33)) 7 0x1000; { s with mem := putBytes s.mem 0x61000 [3] }
def sCw (va : Nat) : State := withWord (updLaunch sQ2 0 1 fun q => { q with left := 0, inHand := [], chunks := [] }) 8 va
def sSteal : State := updLaunch sQ2 0 1 fun q => { q with chunks := [[], [1, 5, 9], [2], []] }
set_option maxRecDepth 100000 in
theorem wit_TaskEvents_more : mayStart sLm 0 (getLaunch sLm 0 1) = true ∧ recLmode (getLaunch sLm 0 1).words = true ∧
    (match (engAt sLm (taskEng sLm 0 []) false (recCntAddr (getLaunch sLm 0 1).words) 0).1 with
      | .ok (some l) => leNat (readLoc sLm l 4) == 3 | _ => false) = true ∧
    (∀ va ∈ [0x1000, 0x40000], launchOver (sCw va) 0 (getLaunch (sCw va) 0 1) = true ∧ ctxActive (sCw va) 0 = true ∧
      (match (engAt (sCw va) (taskEng (sCw va) 0 []) true va 1).1 with | .ok (some _) => va == 0x1000 | .fault .. => va == 0x40000 | _ => false) = true) ∧
    (getLaunch sSteal 0 1).st = .started ∧ (getCtx sSteal 0).st = .running ∧ (getLaunch sSteal 0 1).chunks.length = 4 := by decide +kernel
set_option maxRecDepth 100000 in
theorem test_task : ((getCtx sQ1 0).launches.map (·.seq)) = [0, 1] ∧ ((getLaunch (after (execSteal 0 0 1 sSteal)) 0 1).chunks) = [[9], [1, 5], [2], []] ∧
    getBytes (after (execLaunchComplete 0 1 (sCw 0x1000))).mem 0x61000 8 = leBytes 8 1 := by decide +kernel


/-! ### Contexts -/

def params : CtxParams := ⟨false, false, 0x10000, none, none, none, 4, 0x1000, 0, 0, 0, 0, [(0x800, 2, 0, 0)], 8, 8, 0x8000000⟩
def setSt (s : State) (st : CState) : State := updCtx s 0 fun k => { k with st := st }
/-- No team is resident, or the one team has left its slot. -/
def noTeams (s : State) : State := setCore s 0 { getCore s 0 with teams := [], islots := [] }
def unheld (s : State) : State := setCore s 0 { getCore s 0 with islots := [] }
def sSus : State := after (execSuspensionComplete 0 (unheld (setSt s0 .suspending)))
theorem wit_ContextEvents : createOk s0 1 params = true ∧ createOk s0 0 params = false ∧ teamsOf (noTeams s0) 0 = [] ∧ (getCtx s0 0).st = .running ∧
    (getCtx (setSt s0 .resetting) 0).st = .resetting ∧ (∀ q ∈ (getCtx s0 0).launches, q.st = .complete ∨ recCwAddr q.words = 0) ∧
    (getCtx (setSt s0 .draining) 0).st = .draining ∧ (getCtx s0 0).d1 ≤ s0.clock ∧ teamsOf s0 0 ≠ [] ∧ (getCtx s0 0).d2 ≤ s0.clock ∧
    (setSt s0 .suspending).ctl.mode = .running ∧ (∀ e ∈ sSus.ctxs, e.1 ≠ 0 → e.2.saved = []) ∧
    suspendReady (unheld (setSt s0 .suspending)) 0 = true ∧ suspendReady (setSt s0 .suspending) 0 = false := by decide +kernel
theorem wit_ContextEvents_restore : (getCtx sSus 0).st = .suspended ∧ sSus.ctl.mode = .running ∧ (∀ m ∈ (getCtx sSus 0).saved, fits sSus m = true) ∧
    ((getCtx sSus 0).saved.map fun m => (m.core, m.teams.map (·.1))) = [(0, [0])] := by decide +kernel
/-- An armed stop at the point where the team stands. -/
def tStop : Team := { team0 with stops := [⟨team0.rgncnt, team0.retcnt⟩] }
theorem wit_ContextEvents_stop : getTeam (setTeam s0 0 0 tStop) 0 0 = some tStop ∧ tStop.live ≠ 0 ∧ tStop.halted = false ∧ tStop.hold = none ∧ tStop.trap = none ∧
    atStop tStop = true ∧ atStop team0 = false ∧
    atStop (enterRegion tStop (getCtx s0 0).debug (issueAddr tStop) (rgnAhead (setTeam s0 0 0 tStop) 0 tStop)) = true := by decide +kernel
theorem test_suspend : getTeam sSus 0 0 = none ∧ (getTeam (after (execContextRestore 0 sSus)) 0 0) = some team0 := by decide +kernel
theorem test_preempt : (getCtx (after (execPreemptRequest 0 5 0 s0)) 0).d2 = s0.clock + 5 + 2 ^ 16 := by decide +kernel
theorem test_stop : ((getTeam (after (execDebugStopReached 0 0 (setTeam s0 0 0 tStop))) 0 0).map fun t => (t.halted, t.stops)) = some (true, []) := by
  decide +kernel

/-! ### The fabric -/

/-- A read of device 9 by port 5 in flight, communicator 2 of route table 1, whose entry for device 9 names the port. -/
def farReq : Req := { loadReq with loc := some (.remote 9 0 0x100), done := false, acq := false, drains := [] }
def sFab : State :=
  let s := updCtx s0 0 fun k => { k with commTabs := [0x1800] }
  { s with routes := [(9, 0x8005), (4096 + 9, 0x8005)], reqs := [farReq], mem := putBytes s.mem 0x61810 (leBytes 8 (2 ^ 62 + 2 ^ 50 + 2 ^ 24)) }
/-- The port of those routes is down. -/
def sFab1 : State := { sFab with
  downPorts := insAsc 5 sFab.downPorts,
  routes := sFab.routes.map fun e : Nat × BitVec 16 => if namesPort 5 e.2 then (e.1, e.2 ||| 0x4000) else e }
def comm0 (s : State) (c : Nat) : BitVec 64 := getComm s 0 0x1800 c
/-- A leased window of device 9, context 3, over the pages from 0x30000 on. -/
def sWin : State := updCtx sFab 0 fun k => { k with windows := [(0, BitVec.ofNat 256 (0x30000 * 2 ^ 199 + 0x10000 * 2 ^ 102 + 9 * 2 ^ 90 + 3 * 2 ^ 84 + 2 ^ 82 + 2 ^ 80))] }
def sEx : State := { s0 with exports := [(0, ⟨0x100000, 0x1000, [9], false⟩)] }
theorem wit_FabricEvents : getReq sFab farReq.id = some farReq ∧ farReq.done = false ∧ isFaulted farReq = false ∧ portOf sFab (.remote 9 0 0x100) = some 5 ∧
    farReq.shadow = none ∧ commState (comm0 sFab1 2) = 1 ∧ commRoute (comm0 sFab1 2) = 1 ∧ namesPort 5 0x8005 = true ∧
    (∃ q ∈ sFab.routes, q.1 / 4096 = commRoute (comm0 sFab1 2) ∧ namesPort 5 q.2 = true) ∧ ([(9, 0x8006)] : NMap (BitVec 16)).map (·.1) = [9] := by
  decide +kernel
theorem wit_FabricEvents_table : sFab.ctxs.map (fun x => (x.1, x.2.commTabs)) = [(0, [0x1800])] ∧ portOf sFab (.hbm 0) ≠ some 5 ∧
    (match (engAt sFab1 (zephyr sFab1 0 []) false 0x1810 0).1 with | .ok (some (.hbm a)) => a == 0x61810 | _ => false) = true ∧
    (∀ d < 64, d ≠ 2 → commState (comm0 sFab1 d) ≠ 1) ∧
    (∀ d < 64, comm0 (storeAt sFab1 (.hbm 0x61810) (leBytes 8 (withState (comm0 sFab1 2) 2).toNat)) d =
      if d = 2 then withState (comm0 sFab1 2) 2 else comm0 sFab1 d) ∧
    (∀ x ∈ s0.ctxs, ∀ y ∈ commEntries x.2, commState (getComm s0 x.1 y.1 y.2) ≠ 1) ∧ commState (2 ^ 62 + 2 ^ 50 : BitVec 64) = 1 ∧
    commRoute (2 ^ 62 + 2 ^ 50 + 2 ^ 24) = 1 := by decide +kernel
theorem wit_FabricEvents_windows : (getCtx sFab 0).st ≠ .free ∧ (15 : BitVec 12).toNat < 16 ∧ (63 : BitVec 12).toNat < 64 ∧
    ((windowOf sWin 0 0x30040).map fun w => (winMode w, winChip w, winRctx w)) = some (1, 9, 3) ∧
    reachable sWin 0 9 = true ∧ ((windowOf sM 0 0x10000).map winMode) = some 2 ∧ leaseBusy s0 9 3 0 = false ∧ s0.deviceNumber.toNat ≠ 9 ∧
    leaseBusy { s0 with reqs := [{ farReq with loc := some (.remote 9 4 0x100) }] } 9 3 0 = true := by decide +kernel
theorem wit_FabricEvents_target : s0.ctl.mode = .running ∧ (∃ e ∈ sEx.exports, e.2.base ≤ 0x100010 ∧ 0x100010 + 8 ≤ e.2.base + e.2.len ∧ (9 : BitVec 12).toNat ∈ e.2.devices ∧
      e.2.world = false) ∧ (getCtx s0 0).st ≠ .free ∧ (getCtx s0 5).st = .free ∧ s0.leasesGranted.length < 16384 ∧
    (match (tableAt s0 .device 0 false true 0x1000 none).1 with | .ok l => l == .hbm 0x61000 | _ => false) = true ∧
    kernelRuns s0 = true ∧ kernelRuns State.reset = false ∧ (getCore State.reset 4).world ≠ true ∧ coreBusy State.reset 4 = false ∧
    coreBusy { s0 with ctxs := [] } 0 = true ∧ (getSlice State.reset 4).world ≠ true ∧ sliceBusy State.reset 4 = false ∧
    (∃ x ∈ sSq.ctxs, x.2.st ≠ .free ∧ x.2.st ≠ .suspended ∧ x.2.slotN ≠ 0) ∧ ¬ (∃ x ∈ s0.ctxs, x.2.st ≠ .free ∧ x.2.st ≠ .suspended ∧ x.2.slotN ≠ 0) := by
  decide +kernel
theorem test_port : let s := after (execPortFailure 5 sFab)
    (s.routes.map (·.2), s.reqs.map (fun r => (r.fault, r.info)), commState (comm0 s 2)) = ([0xC005, 0xC005], [(8, 1)], 2) := by decide +kernel
theorem test_peer : getBytes (after (execPeerAccessAtTarget 9 false .direct 0x100010 (.store [7]) sEx)).mem 0x100010 1 = [7] ∧
    (after (execPeerAccessAtTarget 8 false .direct 0x100010 (.store [7]) sEx)).mem = s0.mem := by decide +kernel

/-! ### The system -/

def setMode (s : State) (m : CtlMode) : State := { s with ctl := { s.ctl with mode := m } }
def sPois (replay : Bool) (n : Nat) : State := updLaunch s0 0 0 fun q => { q with poisoned := true, replayable := replay, poisonCount := n }
def gaitOn : Gait := ⟨10, 4, 0x200000, true, false, 0, 0, 0, [(16, 5)], 0⟩
def withRegion (s : State) : State := { s with ctl := { s.ctl with dumpBase := 0x8000000 } }
/-- A start at step `k`, warm or cold; the controller's image is older than the version in the fuses. -/
def sStart (warm : Bool) (k : Nat) : State := setMode s0 (.starting warm k)
def oldImage (warm : Bool) (k kind : Nat) : State :=
  let s := sStart warm k
  { s with ctl := { s.ctl with rollback := [(kind, 5)], images := [(kind, ⟨4, [], [], []⟩)] } }
theorem wit_SystemEvents : State.reset.ctl.mode = .running ∧ (setMode s0 .fatal).ctl.mode = .fatal ∧ (setMode s0 .safeMode).ctl.mode ≠ .fatal ∧
    ((∀ e ∈ s0.cores, e.1 < 576 ∧ (∀ t ∈ e.2.teams, t.1 < 48) ∧ ∀ g ∈ e.2.log, g.1 < 16) ∧ ∀ e ∈ s0.ctxs, e.1 < 64) ∧
    (List.replicate 32 (0 : Byte)).length = 32 ∧ s0.ctl.attIndex < 2 ^ 20 ∧ inStart s0 = false ∧ s0.ctl.mode ≠ .safeMode ∧
    ({ s0.ctl with debugUnlocked := true } : Ctl).debugUnlocked = true ∧ ¬ (s0.ctl.debugUnlocked = true ∨ (s0.ctl.debugFuse = true ∧ (getCore s0 3).world = false)) ∧
    imageSigned 0 ⟨[], [], []⟩ = false := by decide +kernel
theorem wit_SystemEvents_starts : (∀ w k, inStart (sStart w k) = true ∧ (sStart w k).ctl.mode = .starting w k) ∧
    (∀ k < 5, imagePasses (sStart true 3) k = true) ∧ imagePasses (oldImage true 2 0) 0 = false ∧ imagePasses (oldImage false 3 4) 4 = false :=
  ⟨fun _ _ => ⟨rfl, rfl⟩, by decide +kernel⟩
theorem wit_SystemEvents_poison : getTeam s0 0 0 = some team0 ∧ (∃ q ∈ (getCtx s0 team0.ctx).launches, q.seq = team0.seq) ∧
    (getLaunch (sPois true 2) 0 0).poisoned = true ∧ (getLaunch (sPois true 2) 0 0).st = .started ∧ (getLaunch (sPois true 2) 0 0).replayable = true ∧
    (getLaunch (sPois true 2) 0 0).poisonCount < 3 ∧ (∀ r ∈ (sPois true 2).reqs, ¬(r.ctx = 0 ∧ r.seq = 0 ∧ r.write = true)) ∧
    (getLaunch (sPois true 3) 0 0).poisonCount = 3 ∧ (getLaunch (sPois false 0) 0 0).replayable = false ∧ (getLaunch s0 0 0).poisoned = false := by
  decide +kernel
theorem wit_SystemEvents_gait : s0.clock % 2 ^ gaitOn.k = 0 ∧ gaitOn.frozen = false ∧ gaitOn.on = true ∧ gaitOn.trig = 0 ∧ gaitOn.written < gaitOn.head + 2 ^ gaitOn.m ∧
    gaitOn.head ≤ gaitOn.written ∧ gaitOn.head + 2 ^ gaitOn.m ≤ ({ gaitOn with written := 16 } : Gait).written := by decide +kernel
set_option maxRecDepth 100000 in
theorem test_fatal : let s := after (execDieLinkFailure 3 (withRegion s0))
    (s.ctl.mode, s.ctl.dumpSeq, readDump s 62, readDump s 61, readDump s 63) = (.fatal, 1, 2, 3, 0x80) := by decide +kernel
set_option maxRecDepth 100000 in
/-- A trip while the module is fatal from another cause: the dies lose their power and the next start is a cold one (R19). -/
theorem test_trip : let s := after (execThermalTrip 1 (setMode (withRegion s0) .fatal))
    (s.ctl.mode, s.ctl.nextCold, s.cores, readDump s 60) = (.fatal, true, [], 1) := by decide +kernel
/-- The last steps of starts: a cold one frees and zeroes all, a warm one keeps what the Non-secure world held (R451). -/
theorem test_cold_start : let s := after (execColdStart (.done true 0x8000000) 0 (after (execColdStart (.done true 0) 0 (after (execColdStart (.done true 0) 0
      (sStart false 6))))))
    (s.ctl.mode, s.ctl.dumpBase, s.mem, s.cores) = (.running, 0x8000000, [], []) := by decide +kernel
theorem test_warm_start : let s := after (execWarmStart (.done true 0) 0 (sStart true 6))
    (s.ctl.mode, s.mem) = (.starting true 7, s0.mem) ∧ (after (execWarmStart .request 0 (sStart true 6))).ctl.reply = .busy ∧
    (after (execColdStart (.done false 0) 0 (sStart false 2))).ctl.mode = .safeMode := by decide +kernel
/-- FIPS 202: SHAKE256 of no bytes. -/
theorem test_shake : shake256 [] = [0x46, 0xB9, 0xDD, 0x2B, 0x0B, 0xA8, 0x8D, 0x13, 0x23, 0x3B, 0x3F, 0xEB, 0x74, 0x3E, 0xEB, 0x24, 0x3F, 0xCD, 0x52, 0xEA,
    0x62, 0xB8, 0x1B, 0x82, 0xB5, 0x0C, 0x27, 0x64, 0x6E, 0xD5, 0x76, 0x2F] := by decide +kernel
/-- An access that firmware has opened a range for since reset (R439). -/
theorem test_export : getBytes (after (execPeerAccessAtTarget 9 false .direct 0x100010 (.store [7])
    (after (execPeerWindowWrite (.exportRange 0x100000 0x1000 [9] false) 5 0 s0)))).mem 0x100010 1 = [7] := by decide +kernel
theorem test_power : (after (execPowerCapSet 3400 s0)).powerCap = 3400 ∧ (after (execPowerCapSet 3401 s0)).ctl.reply = .refused := by decide +kernel
theorem test_poison : (after (execPoisonConsumed 0 0 (sPois true 3))).ctl.mode = .fatal ∧ (getLaunch (after (execPoisonConsumed 0 0 (sPois true 2))) 0 0).left = 1 ∧
    getTeam (after (execPoisonConsumed 0 0 (sPois true 2))) 0 0 = none := by decide +kernel

/-! ### Hypotheses met, further: clauses beside those above -/

/-- A sum whose tag is below SIGMIN, with TRAPEN[5] set and no flag of TRAPEN. -/
def teamSig : Team := { putLanes (putLanes team0 (.v 2) false all (fun _ => 0x3F800000) fun _ => 10) (.v 4) false all (fun _ => 0x3F800000)
    (fun _ => 10) with trapen := 32, sigmin := 12 }
def sSig : State := setTeam sT 0 0 teamSig
def iSig : Issue := issueOf sSig 0 0 teamSig hd
def sumSig (l : Nat) : FO := opAdd fp32 (rmode (recordOf sSig teamSig) 0 x1.rnd) false (vt fp32 false ((rdA iSig x1 false).at_ l)).1
  (vt fp32 false ((rdA iSig x1 false).at_ l)).2 (vt fp32 false ((rd iSig x1.b false).at_ l)).1 (vt fp32 false ((rd iSig x1.b false).at_ l)).2
theorem wit_InstructionTraps_sig : CanIssue sSig 0 0 teamSig hd ∧ allocRG false x1 teamSig = true ∧
    Ready iSig [rdA iSig x1 false, rd iSig x1.b false] [(x1.d, false)] ∧
    teamSig.trapen.toNat % 32 = 0 ∧ slotSigpol (recSlot (recordOf sSig teamSig) 0) = 0 ∧
    sigFails 0 teamSig.sigmin (polTag 0 (sumSig 0).tag) = true ∧ teamSig.trapen.getLsbD 5 = true ∧
    TrapReady (setTeam sSig 0 0 (entered sSig teamSig hd)) 0 0 (entered sSig teamSig hd) 3 ∧
    (∀ i ∈ [Instr.tlbinvPage (en z (.s 1) z 63), .tlbinvAll (en z z z 128)], (parts i).isSome = true) :=
  ⟨can_of (by decide +kernel), by decide +kernel, ready_of (by decide +kernel), by decide +kernel, by decide +kernel, by decide +kernel, by decide +kernel, trap_of (by decide +kernel), by decide +kernel⟩
theorem test_sig_trap : let e := teamAt (after (exec (.fadd x1) sSig)) 0 0
    (e.trapcause, e.trapmask, (getS e 63).val.toNat % 256, getLpc e 31) = (3, 0xFFFFFFFF, 11, 5) ∧
    (teamAt (after (exec (.tlbinvAll (en z z z 128)) sT)) 0 0).trapcause = 1 := by decide +kernel
theorem wit_ControlRegisterResults_all :
    [(0x02 : BitVec 32), 0x18, 0x19, 0x20, 0x28, 0x2F, 0x30].all (fun k => (Instr.crd (im (.v 2) z 0 k)).wf) = true := by decide +kernel
/-- FIL of s8 from a line past the share. -/
def sFo : State := withRegs [(.s 1, false, 0x4000, 63)]
theorem wit_LinesSpillAndFill_oob : (Instr.fil (rg (.s 8) z (.s 1) z 0)).wf = true ∧ rangeAlloc (teamAt sFo 0 0) (.s 8) 1 = true ∧
    Ready (iOf sFo) [rd (iOf sFo) (src (.s 1)) false] [] ∧ (imageRegs (.s 8) 1).all (regFree (teamAt sFo 0 0)) = true ∧
    imageAt (iOf sFo) 0x4000 (imageLines (.s 8) 1) = .oob :=
  ⟨by decide +kernel, by decide +kernel, ready_of (by decide +kernel), by decide +kernel⟩
theorem test_fil_oob : let t := teamAt (after (exec (.fil (rg (.s 8) z (.s 1) z 0)) sFo)) 0 0
    (getS t 8, t.oobcnt) = (⟨0, true, 0⟩, 1) := by decide +kernel
/-- A COLL at a FREE entry that releases behind an access of its team; a TWAIT that acquires. -/
theorem wit_CopyAndCollectiveIssue_end : startStatus (iOf (sCollOf bColl0 0 0)).s 0 0 (collOf (iOf (sCollOf bColl0 0 0)) xco bColl0 0) = 3 ∧
    relReady s0 0 1 true 1 = true ∧ relReady { s0 with reqs := [{ storeReq with id := 1, core := 0, tid := 1 }] } 0 1 true 2 = false ∧
    acqPart (iOf sTi) true = true := by decide +kernel
theorem wit_TlbInstructions_illegal : curTeam sT = some (0, 0, team0) ∧ TrapReady sT 0 0 team0 1 ∧ (getLaunch sT 0 0).firmware = false :=
  ⟨by decide +kernel, trap_of (by decide +kernel), by decide +kernel⟩
/-- The entry's allocation fits again, or needs blocks that the core has not free. -/
theorem wit_DebugInstructions_undo : let s := sBack true false 0 undo0 []
    ¬ (freeBlocks (getCore (iOf s).s 0) + blocksHeld ((getTeam s 0 4).getD default) < (256 + 15) / 16) ∧
    (let k := { s with cores := s.cores.map fun e => (e.1, { e.2 with teams := (List.range 128).map fun n => (n, { team0 with tid := n, alloc := 256 }) }) }
     freeBlocks (getCore k 0)) + 1 < 16 := by decide +kernel
theorem wit_ResultArrivals_unread : (∀ r ∈ [req sSc 0, req sRld 0, req (sFil (.v 8) 2) 0, req (sFil (.s 8) 3) 0, req (sFil (.p 0) 0) 0, req sTkd 0],
      r.got = [] ∧ r.val = 0) ∧ (req sSc 0).n = 4 ∧
    (∀ q ∈ sRld.reqs, q.acq = false ∧ q.done = false ∧ q.got = [] ∧ q.val = 0 ∧ 0 < q.n ∧ q.n ≤ 8) := by decide +kernel
/-- Two redeems that cores of another die have sent for one entry. -/
def sTwo : State := { sT3 false with reqs := [{ req (sT3 false) 0 with id := 1, core := 160 }, { req (sT3 false) 0 with core := 161 }] }
theorem wit_TicketAndRedeemEvents_sent : sentBefore (sT3 false) (req (sT3 false) 0) (match (req (sT3 false) 0).kind with | .redeem tk .. => tk | _ => 0) = false ∧
    sentBefore sTwo (req sTwo 1) (match (req sTwo 1).kind with | .redeem tk .. => tk | _ => 0) = true ∧
    getReq sTwo (req sTwo 1).id = some (req sTwo 1) := by decide +kernel
theorem wit_FaultRecords_records : (∀ j < 8, relRec sF1 (.hbm (0x90008 + j)) = ⟨[], false⟩) ∧ (∀ j < 8, relRec (sF3 0) (.hbm (0x90010 + j)) = ⟨[], false⟩) ∧
    (∀ j < 8, relRec (sF3 3) (.hbm (0x90010 + j)) = ⟨[], false⟩) := by decide +kernel
theorem wit_OrderAndIssueEvents_sample : nget s0.hist.last 0 ≠ some s0.clock ∧
    nget (after (exec (.histogramSample 0 0) s0)).hist.last 0 = some s0.clock := by decide +kernel
/-- Of the replies to a scalar D that of another lane; an answered request. -/
theorem wit_BridleEvents_scalar : let s := after (execSeqCommitEval (idx (sBd 3 (.s 4)) 1) (after (execSeqCommitEval (idx (sBd 3 (.s 4)) 0) (sBd 3 (.s 4)))))
    (req s 1).done = true ∧ isAsked s 1 = true ∧ (req s 1).lane ≠ lowest (req s 1).act ∧ (req s 0).lane = lowest (req s 0).act := by decide +kernel
theorem wit_SystemEvents_params : s0.ctl.params.signed = s0.ctl.params.bytes ∧ s0.ctl.params.index < 2 ^ 20 ∧
    2 ^ 20 ≤ ({ s0.ctl.params with index := 2 ^ 20 } : Params).index ∧ s0.ctl.attIndex < 2 ^ 20 ∧ getTeam s0 7 0 = none ∧
    timingWord 0 = false ∧ timingWord 8 = true := ⟨rfl, by decide +kernel⟩
/-- The context in debug mode: its save area takes the undo area too. -/
def sSusD : State := after (execSuspensionComplete 0 (updCtx (unheld (setSt s0 .suspending)) 0 fun k => { k with debug := true, saveBase := 0x900000 }))
theorem wit_ContextEvents_undo : (getCtx sSusD 0).st = .suspended ∧ (getCtx sSusD 0).saved.length = 1 ∧
    Config.undoArea = 4096 * 320 ∧ undoAreaAt 0x900000 0 0 ≠ teamRecordAt 0x900000 0 0 := by decide +kernel
/-- The first messages have not all come: the limit has passed, or the issue is gated; they have come before it. -/
def sClIn : State := updCtx sColl1 0 fun k => { k with colls := k.colls.map fun m => takeMsgs m [msg 3] }
theorem wit_CollectiveEvents_messages : allIn (coll0 sClT) = false ∧ allIn (coll0 sColl1) = false ∧ allIn (takeMsgs (coll0 sColl1) [msg 3]) = true ∧
    clRuns sColl1 0 = true ∧ clRuns (setSt sColl1 .suspending) 0 = true ∧ clGoes (setSt sColl1 .suspending) 0 (coll0 sColl1) = true ∧
    allIn (coll0 { sClIn with clock := 2 ^ 41 }) = true ∧
    (coll0 (after (execCollJoin 0 (cid sColl1) [msg 3] { sColl1 with gated := true }))).arrived = [msg 3] ∧
    (coll0 (after (execCollJoin 0 (cid sColl1) [] { sClIn with clock := 2 ^ 41 }))).started = true := by decide +kernel
theorem wit_TileEvents_wait : (match runOp (sRm true []) 0 (op0 (sRm true [])) with | .wait => true | _ => false) = true := by decide +kernel
theorem wit_CollectiveEvents_world : let s := updCtx sCl6 0 fun k => { k with colls := k.colls.map fun m => { m with status := 4 } }
    clLeaves s 0 (coll0 s) = true ∧ (coll0 s).started = true ∧ relReady s (coll0 s).core (coll0 s).tid (coll0 s).rel (coll0 s).first = true ∧
    ∃ t ∈ (getCore s (coll0 s).core).teams, t.2.wg = (coll0 s).wg := by decide +kernel

/-! ### Decoding, stepping, memory -/

theorem wit_DecodeEncode : (Instr.ld xl).wf = true ∧ (parts (.ld xl)).isSome = true ∧ (Instr.bra ⟨hd, z, 274877906943⟩).wf = true ∧
    (Instr.dbgbrkStep (xdb 8 2)).wf = true ∧ (Instr.coll xco).wf = true ∧ (Instr.trap ⟨hd, z, no, 0, 9⟩).wf = true := by decide +kernel
/-- The placed word `NOP`. -/
def stNop : State := State.reset.withFetchWord 96 0b01000001_000100_0_111_0_0_0_000_00_00000000_0_00_00000000_0_0_00_00000000_0_0_00_00000000_0_000_000_000_000000_000_00000000
def linesOf (s : State) : List Loc := match codeOf s 0 (t00 s) 0 with | .at_ ls => ls | _ => []
def got12 (s : State) : List Byte := obtained s (getLaunch s 0 0) (linesOf s)
/-- The word has been stored to since the launch. -/
def stNew : State := writeLoc stNop (.hbm 0x60000) [0xFF]
/-- A word of a reserved MAJ code. -/
def stBad : State := State.reset.withFetchWord 96 (0xFF * 2 ^ 88)
/-- The code lies on an unmapped page. -/
def stGone : State := updLaunch stNop 0 0 fun q => { q with words := setNth q.words 0 0x40000 }
/-- The core has passed to the other world. -/
def stSec : State := updCore stNop 0 fun k => { k with world := true }
theorem wit_StepRunsDecoded : stNop.ctl.mode = .running ∧ stNop.agenda = [] ∧ curTeam stNop = some (0, 0, t00 stNop) ∧ (t00 stNop).halted = false ∧
    (t00 stNop).hold = none ∧ (t00 stNop).trap = none ∧ (t00 stNop).live ≠ 0 ∧ atStop (t00 stNop) = false ∧
    (issueAddr (t00 stNop)).toNat < recCodeExt (recordOf stNop (t00 stNop)) ∧
    (linesOf stNop).length = 12 ∧ settled stNop (getLaunch stNop 0 0) (linesOf stNop) = true ∧
    (match decode (got12 stNop) with | .ok (.nop _, []) => true | _ => false) = true ∧ (match decode (got12 stBad) with | .error _ => true | _ => false) = true ∧
    (∀ e ∈ stNop.past.take (stNop.past.length - (getLaunch stNop 0 0).begun), ∀ l ∈ linesOf stNop, e.1 ≠ lineOf l) ∧
    settled stNew (getLaunch stNew 0 0) (linesOf stNew) = false ∧ codeVersions stNew (getLaunch stNew 0 0) (.hbm 0x60000) = [0xFF, 0] ∧
    (match codeOf stGone 0 (t00 stGone) 0 with | .wait => true | _ => false) = true ∧
    (match codeOf stSec 0 (t00 stSec) 0 with | .world => true | _ => false) = true ∧
    serves stNop .gaitTick = true ∧ serves (setMode stNop .fatal) .gaitTick = false := by
  decide +kernel
theorem test_step_nop : (match step stNop with | .next s => getLpc (t00 s) 31 == 1 | _ => false) = true := by decide +kernel
theorem wit_MemoryCanonical : Canonical State.reset := Sys2Proof.Laws.canonical_reset

end Sys2Proof.Tests
end

/-! PROOFS. The reset state, the issue order and the system's events (O60, O47, O55). -/

namespace Sys2Proof.Proofs

open Sys2Proof.Machine Sys2Proof.Safety Sys2Proof.Laws

/-! ### What a cold start leaves (R451) -/

@[simp] theorem getCore_reset (c : Nat) : getCore State.reset c = default := rfl

/-- Every byte of every memory is 0 (R204, R451). -/
theorem readLoc_reset (l : Loc) : readLoc State.reset l 1 = [0] := by
  cases l with
  | hbm pa => rfl
  | scratch c b => simp only [readLoc, getCore_reset]; rfl
  | weight w => rfl
  | remote chip key a => rfl

/-- Settles O60: the sparse maps of the reset state are empty, so each reader gives what an unlisted key reads as. -/
theorem resetState : Obligations.ResetState := by
  unfold Obligations.ResetState
  have tags : ∀ c w, tagAt State.reset c w = 63 := fun c w => by simp only [tagAt, getCore_reset]; rfl
  have lines : ∀ c n, lineFull State.reset c n = true := fun c n => by simp only [lineFull, getCore_reset]; rfl
  have teams : ∀ c sl, getTeam State.reset c sl = none := fun c sl => by simp only [getTeam, getCore_reset]; rfl
  exact ⟨rfl, fun l _ => readLoc_reset l, tags, lines, fun _ => rfl, fun _ _ => rfl, fun _ => rfl, teams, rfl, rfl, rfl, fun _ => rfl, rfl,
    canonical_reset⟩

/-! ### Two teams listed under one resident slot (R165, R167) -/

/-- What a grant leaves (R165, R167): the team that `getTeam` finds in the chosen entry's slot is no longer blocked and holds the issue slot. -/
def granted (s : State) (core isl sl : Nat) : State :=
  setISlot (updTeam (flushUndo s core sl) core sl fun t => { t with blocked := false }) core isl
    { getISlot s core isl with holder := some sl }

theorem tenureGrant_of_find {s : State} {core isl : Nat} {e : Nat × Team} (hfree : (getISlot s core isl).holder = none)
    (hgate : s.gated = false) (hcore : core < 576) (hisl : isl < 4)
    (hfind : (ranked s core isl).find? (fun e => ready s core e.1 e.2) = some e) :
    exec (.tenureGrant core isl) s = .next (granted s core isl e.1) := by
  have hin : ¬ (Config.cores ≤ core) ∧ ¬ (4 ≤ isl) := ⟨by simpa [Config.cores] using hcore, by omega⟩
  change execTenureGrant core isl s = _
  simp [execTenureGrant, granted, hfree, hgate, hin, hfind]

/-- A team with a live lane, ready at once: its launch has no code, so that its fetch raises IL (R29, R164). -/
def readyTeam : Team := { (default : Team) with live := 1 }
/-- A team that is not ready, with another FLTSTAT (R30). -/
def haltedTeam : Team := { readyTeam with halted := true, fltstat := 1 }
/-- Core 0 lists slot 0 twice: `getTeam` finds `haltedTeam` alone, membership finds both. -/
def twiceListed : State :=
  { State.reset with
    ctxs := [(0, { (default : Ctx) with st := .running })]
    cores := [(0, { (default : Core) with teams := [(0, haltedTeam), (0, readyTeam)] })] }

theorem ready_readyTeam : ready twiceListed 0 0 readyTeam = true := by decide +kernel
theorem ready_haltedTeam : ready twiceListed 0 0 haltedTeam = false := by decide +kernel

theorem mem_twiceListed {e : Nat × Team} : e ∈ (getCore twiceListed 0).teams ↔ e = (0, haltedTeam) ∨ e = (0, readyTeam) := by
  change e ∈ [(0, haltedTeam), (0, readyTeam)] ↔ _
  simp

/-- The only entry of core 0 that is ready is that of `readyTeam`. -/
theorem eq_of_ready_twiceListed {e : Nat × Team} (he : e ∈ (getCore twiceListed 0).teams) (hr : ready twiceListed 0 e.1 e.2 = true) :
    e = (0, readyTeam) := by
  rcases mem_twiceListed.mp he with rfl | rfl
  · simp [ready_haltedTeam] at hr
  · rfl

theorem tenureGrant_twiceListed : exec (.tenureGrant 0 0) twiceListed = .next (granted twiceListed 0 0 0) := by
  refine tenureGrant_of_find (e := (0, readyTeam)) rfl rfl (by decide) (by decide) ?_
  have order : ranked twiceListed 0 0 = [(0, haltedTeam), (0, readyTeam)] := by decide +kernel
  simp [order, ready_haltedTeam, ready_readyTeam]

/-- The slot that holds the issue slot shows `haltedTeam`. -/
theorem getTeam_granted_twiceListed : getTeam (granted twiceListed 0 0 0) 0 0 = some haltedTeam := by decide +kernel

/-- Refutes O47, by its clause on a grant. That clause takes the ready team `t` from `(sl, t) ∈ (getCore s core).teams`, and says that
`getTeam` shows `t` in slot `sl` afterwards. The two agree only where the team list names each slot once, as `setTeam` keeps it but no premise
says: `twiceListed` names slot 0 twice, the grant is `readyTeam`'s, and `getTeam` shows `haltedTeam`, whose FLTSTAT is not `readyTeam`'s. -/
theorem not_orderAndIssueEvents : ¬ Obligations.OrderAndIssueEvents := by
  unfold Obligations.OrderAndIssueEvents
  rintro ⟨-, grants, -⟩
  obtain ⟨s', u, hnext, -, hteam, same, -⟩ := grants twiceListed 0 0 0 readyTeam rfl rfl (by decide) (by decide)
    (mem_twiceListed.mpr (.inr rfl)) rfl ready_readyTeam (fun e he _ hr hne => absurd (eq_of_ready_twiceListed he hr) hne)
  have hs : granted twiceListed 0 0 0 = s' := by
    rw [tenureGrant_twiceListed] at hnext
    injection hnext
  have hu : haltedTeam = u := by
    rw [← hs, getTeam_granted_twiceListed] at hteam
    injection hteam
  have hflag : u.fltstat = readyTeam.fltstat := same.flags.1
  rw [← hu] at hflag
  exact absurd hflag (by decide)

/-! ### A poisoned line above the last slice (R448, R460) -/

/-- The line at physical address 2^48 is poisoned (R448): by R208's formula the number of its slice is 65,536, where the last slice is 255. -/
def farPoison : State := poisonLine (logEcc State.reset 3) (.hbm (2 ^ 48))
/-- Where the dump of `farPoison` puts the record of that slice: so many records of 1 KiB behind the place of slice 0's. -/
def farRecord : Nat := farPoison.ctl.dumpBase + (0x910000 + 0x400 * sliceOf (2 ^ 48))

/-- The event of an uncorrectable error leads there from reset. -/
theorem uncorrectableError_farPoison : exec (.uncorrectableError (.line (.hbm (2 ^ 48)))) State.reset = .next farPoison := rfl

theorem dumpRegion_end_le_farRecord : farPoison.ctl.dumpBase + 2 ^ 26 ≤ farRecord := by decide

/-- The record's first byte is the number of poisoned lines of the slice. -/
theorem fatal_farPoison_farRecord : ngetD 0 (fatal farPoison 4 0xFF).mem farRecord = 1 := by decide +kernel

/-- Refutes O55, by what its first clause says of memory beyond the dump region. The dump has a record for the slice of each poisoned line, and
the premise `inside` bounds cores, teams, log entries and contexts, but no poisoned line: in `farPoison`, which one event makes from reset, a
failed firmware check writes the record of slice 65,536 at `farRecord`, behind the 64 MiB of the region. -/
theorem not_systemEvents : ¬ Obligations.SystemEvents := by
  unfold Obligations.SystemEvents
  rintro ⟨fatalErrors, -⟩
  obtain ⟨-, -, s', hnext, hdump, -⟩ := (fatalErrors farPoison).1 (by decide)
  obtain ⟨-, -, -, -, -, -, -, -, -, -, kept⟩ := hdump
  have hs : fatal farPoison 4 0xFF = s' := by injection hnext
  have inside : (∀ e ∈ farPoison.cores, e.1 < 576 ∧ (∀ t ∈ e.2.teams, t.1 < 48) ∧ ∀ g ∈ e.2.log, g.1 < 16) ∧ ∀ e ∈ farPoison.ctxs, e.1 < 64 :=
    ⟨fun _ he => (nomatch he), fun _ he => (nomatch he)⟩
  have hkept : ngetD 0 s'.mem farRecord = ngetD 0 farPoison.mem farRecord := kept farRecord (.inr ⟨inside, dumpRegion_end_le_farRecord⟩)
  rw [← hs, fatal_farPoison_farRecord] at hkept
  exact absurd hkept (by decide)

end Sys2Proof.Proofs

/-! PROOFS. The sequential machine (O14, O18, O20, O27, O58): every instruction has the form of `issue`, what step 8 leaves where no lane is
active, traps at issue, control registers, buffer records, and the fetch of a step. -/

namespace Sys2Proof.Proofs
open Sys2Proof.Machine Sys2Proof.Safety Sys2Proof.Laws

/-! ### Every instruction is an issue (R37) -/

/-- `out` is what `issue` answers for a body of its own, under head `h` and check `legal`. -/
def IssueForm (h : Head) (legal : Bool) (s : State) (out : Host.Outcome State Fault Refusal) : Prop :=
  ∃ closes dyn body, out = issue h legal closes dyn body s

section forms
variable (ins : Instr) (s : State)

theorem intRG_form (w n x f) : IssueForm x.h ins.wf s (intRG ins w n x f s) := ⟨_, _, _, rfl⟩
theorem intIM_form (w x f) : IssueForm x.h ins.wf s (intIM ins w x f s) := ⟨_, _, _, rfl⟩
theorem fpRG_form (f p n x op) : IssueForm x.h ins.wf s (fpRG ins f p n x op s) := ⟨_, _, _, rfl⟩
theorem fpIM_form (x op) : IssueForm x.h ins.wf s (fpIM ins x op s) := by
  unfold fpIM; exact ⟨_, _, _, rfl⟩
theorem halfRG_form (n x op) : IssueForm x.h ins.wf s (halfRG ins n x op s) := ⟨_, _, _, rfl⟩
theorem cvtqBody_form (q x) : IssueForm x.h ins.wf s (cvtqBody ins q x s) := ⟨_, _, _, rfl⟩
theorem jumpAbs_form (x) : IssueForm x.h ins.wf s (jumpAbs ins x s) := ⟨_, _, _, rfl⟩
theorem setFE_form (x f) : IssueForm x.h ins.wf s (setFE ins x f s) := by
  unfold setFE; exact ⟨_, _, _, rfl⟩
theorem eretBody_form (x f) : IssueForm x.h ins.wf s (eretBody ins x f s) := ⟨_, _, _, rfl⟩
theorem atomBody_form (n x) : IssueForm x.h ins.wf s (atomBody ins n x s) := by
  unfold atomBody; exact ⟨_, _, _, rfl⟩
theorem xredBody_form (f x) : IssueForm x.h ins.wf s (xredBody ins f x s) := by
  unfold xredBody; exact ⟨_, _, _, rfl⟩
theorem xrdBody_form (f x) : IssueForm x.h ins.wf s (xrdBody ins f x s) := by
  unfold xrdBody; exact ⟨_, _, _, rfl⟩
theorem tileBlk_form (k m x) : IssueForm x.h ins.wf s (tileBlk ins k m x s) := by
  unfold tileBlk; exact ⟨_, _, _, rfl⟩
theorem tileOne_form (k m x) : IssueForm x.h ins.wf s (tileOne ins k m x s) := ⟨_, _, _, rfl⟩
theorem dbgBody_form (x k) : IssueForm x.h ins.wf s (dbgBody ins x k s) := by
  unfold dbgBody; exact ⟨_, _, _, rfl⟩

end forms

/-- Whatever the instruction, `exec` is `issue` under its own head and the check of its word. -/
theorem exec_form {ins : Instr} {maj fn : Nat} {b : Body} (hp : parts ins = some (maj, fn, b)) (s : State) :
    IssueForm (headOf b) ins.wf s (exec ins s) := by
  cases ins <;> cases hp <;> unfold exec
  case iadd.refl | isub.refl | imul.refl | imulh.refl | imad.refl | idiv.refl | irem.refl | imin.refl | imax.refl | iabs.refl | and.refl |
    or.refl | xor.refl | andn.refl | shl.refl | shr.refl | sar.refl | rol.refl | popc.refl | clz.refl | brev.refl | bfx.refl | bfi.refl =>
    exact intRG_form ..
  case iaddIm.refl | isubIm.refl | imulIm.refl | iminIm.refl | imaxIm.refl | andIm.refl | orIm.refl | xorIm.refl | andnIm.refl | shlIm.refl
    | shrIm.refl | sarIm.refl | rolIm.refl => exact intIM_form ..
  case cvtqQuantise.refl | cvtqDequantise.refl => exact cvtqBody_form ..
  case fadd.refl | fsub.refl | fmul.refl | ffma.refl | fmin.refl | fmax.refl | fdiv.refl | fsqrt.refl | frcp.refl | fexp2.refl | flog2.refl
    | dadd.refl | dsub.refl | dmul.refl | dfma.refl | dmin.refl | dmax.refl | ddiv.refl | dsqrt.refl => exact fpRG_form ..
  case faddIm.refl | fsubIm.refl | fmulIm.refl | fminIm.refl | fmaxIm.refl => exact fpIM_form ..
  case hadd2.refl | hmul2.refl | hfma2.refl => exact halfRG_form ..
  case brx.refl | ret.refl => exact jumpAbs_form ..
  case feset.refl | feclr.refl => exact setFE_form ..
  case eretRestart.refl | eretSkip.refl => exact eretBody_form ..
  case atomAdd.refl | atomUmin.refl | atomUmax.refl | atomSmin.refl | atomSmax.refl | atomAnd.refl | atomOr.refl | atomXor.refl |
    atomExch.refl | atomCas.refl => exact atomBody_form ..
  case xredFp32.refl | xredFp64.refl => exact xredBody_form ..
  case xrdFp32.refl | xrdFp64.refl => exact xrdBody_form ..
  case talloc.refl | tld.refl | tlr.refl | tst.refl | tmul.refl | tadd.refl => exact tileBlk_form ..
  case tfree.refl | tzero.refl | trnd.refl | tdns.refl | tfac.refl | ttrs.refl => exact tileOne_form ..
  case dbgbrkHalt.refl | dbgbrkResume.refl | dbgbrkStep.refl | dbgbrkBack.refl | dbgbrkBrk.refl | dbgbrkClr.refl | dbgbrkDbg.refl =>
    exact dbgBody_form ..
  case pmov.refl | cvt.refl | tagrd.refl | tagwr.refl | psig.refl | fewait.refl | rshr.refl | crd.refl | cwr.refl | lshf.refl | lbc.refl |
    barSync.refl | barArv.refl | barWait.refl | topki.refl | rng.refl | ld.refl | st.refl | brmk.refl | lds.refl | sts.refl | ldw.refl |
    rdm.refl | spl.refl | fil.refl | wpwait.refl | mst.refl | rld.refl =>
    dsimp only [execPmov, execCvt, execTagrd, execTagwr, execPsig, execFewait, execRshr, execCrd, execCwr, execLshf, execLbc, execBarSync, execBarArv,
    execBarWait, execTopki, execRng, execLd, execSt, execBrmk, execLds, execSts, execLdw, execRdm, execSpl, execFil, execWpwait, execMst,
    execRld]
    exact ⟨_, _, _, rfl⟩
  all_goals exact ⟨_, _, _, rfl⟩

/-! ### An instruction without an active lane (R39) -/

theorem tally_freshCount (s : State) (b w n : Nat) : (tally s b w n).freshCount = s.freshCount := by
  unfold tally; split <;> rfl
theorem countForced_freshCount (s : State) (c i : Nat) (y : Bool) : (countForced s c i y).freshCount = s.freshCount := by
  unfold countForced
  split
  · rw [tally_freshCount, setISlot_freshCount]
  · rfl
theorem boundary_freshCount (s : State) (c sl : Nat) (u : Team) (own : Bool) : (boundary s c sl u own).freshCount = s.freshCount := by
  unfold boundary
  refine (countForced_freshCount ..).trans ?_
  split
  · exact tally_freshCount ..
  · split <;> exact tally_freshCount ..
theorem retire_freshCount (s : State) (c sl : Nat) (pc : Word) (e a : Mask) (h : Head) (x b z : Bool) (g : Nat → Word) :
    (retire s c sl pc e a h x b z g).freshCount = s.freshCount := by
  unfold retire
  split
  · rfl
  · exact boundary_freshCount ..

/-- Settles O18: the instruction is an issue of its own head, which with no active lane leaves step 8 alone unless step 1 raises IL. -/
theorem guardedOff : Obligations.GuardedOff := by
  intro ins maj fn b s c sl t hp h hc hr hh htr hl hs1 hs2 hg ho hne
  have o : OffIssue s c sl t h := ⟨hc, hr, hh, htr, hl, ⟨hs1, hs2⟩, hg, ho⟩
  obtain ⟨closes, dyn, body, e⟩ := exec_form hp s
  have hoff := (issue_off o (legal := ins.wf) (closes := closes) (dyn := dyn) body).resolve_left fun hil => hne (e.trans hil)
  obtain ⟨hadv, hteam⟩ := retire_off (s := s) (c := c) (sl := sl) (t := t) (h := h)
  rw [e, hoff]
  refine ⟨hadv, fun s' u hs' hu => ?_⟩
  obtain rfl := Host.Outcome.next.inj hs'
  obtain ⟨hcar, hcnt⟩ := hteam u hu
  have keeps {α : Type} (f : Team → α) (hf : ∀ x, f (stripped x) = f x)
      (hf' : ∀ a b c d e g, f { t with rgncnt := a, retcnt := b, rgnpc := c, enter := d, stops := e, undo := g } = f t) : f u = f t :=
    (hcar.part f hf).trans (entered_keeps f s t h hf')
  exact ⟨hcnt, keeps (·.relFence) (fun _ => rfl) (fun _ _ _ _ _ _ => rfl), keeps (·.observed) (fun _ => rfl) (fun _ _ _ _ _ _ => rfl),
    keeps (·.arrivals) (fun _ => rfl) (fun _ _ _ _ _ _ => rfl), keeps (·.collNo) (fun _ => rfl) (fun _ _ _ _ _ _ => rfl),
    retire_relRecs .., retire_nextId .., retire_freshCount ..⟩

/-! ### Fetch and step (R29, R89, R90, R156) -/

/-- The RGN bit of a word. -/
theorem nth_unpackL_rgn (w : Nat) : (nth 0 (unpackL wordFields w) 13 == 1) = w.testBit 76 := by
  simp only [wordFields, unpackL, nth, List.getD_cons_succ, List.getD_cons_zero, Nat.div_div_eq_div_mul]
  rw [Nat.testBit_eq_decide_div_mod_eq]
  rfl

theorem testBit_ofNat_96 (w : Nat) : (BitVec.ofNat 96 w).toNat.testBit 76 = w.testBit 76 := by
  rw [BitVec.toNat_ofNat, Nat.testBit_mod_two_pow]
  simp

/-- Code that can be fetched has a location for each byte. -/
theorem codeAt_length (s : State) (c ctx : Nat) : ∀ (n va : Nat) (ls : List Loc), codeAt s c ctx n va = .at_ ls → ls.length = n
  | 0, _, ls, h => by
    cases h
    rfl
  | n + 1, va, ls, h => by
    unfold codeAt at h
    split at h
    · split at h
      · next ls' h' =>
        cases h
        rw [List.length_cons, codeAt_length s c ctx n (va + 1) ls' h']
      · next hno => exact absurd h (hno ls)
    · cases h
    · cases h

/-- One byte is read as one byte. -/
theorem readLoc_one (s : State) (l : Loc) : ∃ b, readLoc s l 1 = [b] := by
  cases l <;> exact ⟨_, rfl⟩

/-- The byte that a fetch takes is one of the versions. -/
theorem codeByte_mem {vs : List Byte} (k : Nat) (h : vs ≠ []) : codeByte vs k ∈ vs := by
  unfold codeByte
  split
  · cases vs with
    | nil => exact absurd rfl h
    | cons b rest => exact List.mem_cons_self
  · have hlt : Config.fetchLater k % vs.length < vs.length := Nat.mod_lt _ (List.length_pos_iff.mpr h)
    unfold nth
    rw [List.getD_eq_getElem _ _ hlt]
    exact List.getElem_mem hlt

theorem codeVersions_ne_nil (s : State) (q : Launch) (l : Loc) : codeVersions s q l ≠ [] := by
  obtain ⟨b, hb⟩ := readLoc_one s l
  simp [codeVersions, hb]

/-- A line that no write has replaced since the launch has one version, the byte that stands. -/
theorem codeVersions_unwritten {s : State} {q : Launch} {l : Loc}
    (h : ∀ e ∈ s.past.take (s.past.length - q.begun), e.1 ≠ lineOf l) : codeVersions s q l = readLoc s l 1 := by
  have hnil : (s.past.take (s.past.length - q.begun)).filter (fun e => e.1 == lineOf l) = [] := by
    rw [List.filter_eq_nil_iff]
    intro e he
    simpa using h e he
  simp only [codeVersions, hnil, List.map_nil, List.append_nil]

/-- Byte `k` of what a fetch obtains. -/
theorem nth_obtained {s : State} {q : Launch} {ls : List Loc} {k : Nat} (hk : k < ls.length) :
    ∃ j, nth 0 (obtained s q ls) k = codeByte (codeVersions s q (nth default ls k)) j := by
  unfold nth obtained
  rw [List.getD_eq_getElem _ _ (by simpa using hk), List.getElem_map, List.getD_eq_getElem _ _ hk]
  exact ⟨_, rfl⟩

/-- The same registers, in the terms of the claims. -/
theorem sameAllRegs_of_maps {t u : Team} (hv : u.v = t.v) (hs : u.s = t.s) (hp : u.p = t.p) : SameAllRegs t u := by
  refine ⟨fun n l _ => ?_, fun n => ?_, fun n => ?_⟩
  · unfold getV; rw [hv]
  · unfold getS; rw [hs]
  · unfold getP; rw [hp]

/-- A team that waits keeps its registers, flags, control state and positions, and nothing else changes. -/
theorem waitTeam_sameTeam (s : State) (c sl : Nat) (t : Team) :
    ∃ u, getTeam (waitTeam s c sl t) c sl = some u ∧ SameTeam t u ∧ TeamOnly s (waitTeam s c sl t) c sl := by
  have hall : TeamOnly s (waitTeam s c sl t) c sl :=
    teamOnly_trans (teamOnly_trans (teamOnly_trans (teamOnly_setTeam ..) (teamOnly_setISlot ..)) (teamOnly_clock ..)) (teamOnly_tally ..)
  have hcar : Carried t (haltIfAsked (pauseTeam { t with blocked := true })) := by
    unfold haltIfAsked
    split <;> rfl
  have hrest : (haltIfAsked (pauseTeam { t with blocked := true })).lpc = t.lpc ∧
      (haltIfAsked (pauseTeam { t with blocked := true })).retcnt = t.retcnt := by
    unfold haltIfAsked
    split <;> exact ⟨rfl, rfl⟩
  refine ⟨haltIfAsked (pauseTeam { t with blocked := true }), ?_, ?_, hall⟩
  · show getTeam (tally _ _ _ _) c sl = _
    rw [getTeam_tally]
    show getTeam (setISlot _ _ _ _) c sl = _
    rw [getTeam_setISlot, getTeam_setTeam_same]
  · obtain ⟨hv, hs, hp⟩ := hcar.maps
    obtain ⟨hcnt, hpc⟩ := hcar.region
    exact ⟨sameAllRegs_of_maps hv hs hp, hcar.flags, hcar.control, ⟨hcnt, hpc, hrest.2⟩, hrest.1⟩

/-- A running machine issues for the issue slot that its agenda names, or whose turn it is. -/
theorem step_running {s s1 : State} (hm : s.ctl.mode = .running)
    (hs : (s.agenda = [] ∧ s1 = s) ∨ (∃ clk c isl rest, s.agenda = (clk, .issue c isl) :: rest ∧
      s1 = { s with agenda := rest, clock := max s.clock clk, turn := (c, isl) })) : step s = issueStep s1 := by
  unfold step
  obtain ⟨ha, rfl⟩ | ⟨clk, c, isl, rest, ha, rfl⟩ := hs
  · rw [ha]
    simp only [hm, if_true]
  · rw [ha]
    simp only [hm, if_true]

section fetch
variable {s : State} {c sl : Nat} {t : Team}

/-- A team of which nothing keeps an instruction from being fetched (R156, R164). -/
structure MayFetch (s : State) (c sl : Nat) (t : Team) : Prop where
  turn : curTeam s = some (c, sl, t)
  running : t.halted = false
  free : t.hold = none
  noTrap : t.trap = none
  live : t.live ≠ 0
  noStop : atStop t = false

/-- The bytes that a fetch at locations `ls` obtains, and the state after it: bytes with a choice of versions take two fresh numbers. -/
def fetched (s : State) (t : Team) (ls : List Loc) : List Byte := obtained s (getLaunch s t.ctx t.seq) ls
def afterFetch (s : State) (t : Team) (ls : List Loc) : State :=
  if settled s (getLaunch s t.ctx t.seq) ls then s else { s with freshCount := s.freshCount + 2 }

theorem MayFetch.guard (m : MayFetch s c sl t) :
    (t.halted || t.hold.isSome || t.trap.isSome || t.live == 0 || atStop t) = false := by
  simpa [m.running, m.free, m.noTrap, m.noStop] using m.live

theorem fetchFor_beyond (m : MayFetch s c sl t) (h : recCodeExt (getLaunch s t.ctx t.seq).words ≤ (issueAddr t).toNat) :
    fetchFor s c t = .illegal false s := by
  simp only [fetchFor, m.guard, Bool.false_eq_true, if_false, if_pos h]

section inside
variable (m : MayFetch s c sl t) (h : (issueAddr t).toNat < recCodeExt (getLaunch s t.ctx t.seq).words)
include m h
theorem fetchFor_wait (hc : codeOf s c t (issueAddr t).toNat = .wait) : fetchFor s c t = .wait := by
  simp only [fetchFor, m.guard, Bool.false_eq_true, if_false, Nat.not_le.mpr h, hc]
theorem fetchFor_world (hc : codeOf s c t (issueAddr t).toNat = .world) : fetchFor s c t = .world := by
  simp only [fetchFor, m.guard, Bool.false_eq_true, if_false, Nat.not_le.mpr h, hc]
theorem fetchFor_ok {ls : List Loc} (hc : codeOf s c t (issueAddr t).toNat = .at_ ls) {i : Instr} {rest : List Byte}
    (hd : decode (fetched s t ls) = .ok (i, rest)) :
    fetchFor s c t = .ok i (BitVec.ofNat 96 (wordOfBytes (fetched s t ls))) (afterFetch s t ls) := by
  unfold fetched at hd
  simp only [fetchFor, m.guard, Bool.false_eq_true, if_false, Nat.not_le.mpr h, hc, hd, fetched, afterFetch]
theorem fetchFor_error {ls : List Loc} (hc : codeOf s c t (issueAddr t).toNat = .at_ ls) {e : Reject}
    (hd : decode (fetched s t ls) = .error e) :
    fetchFor s c t = .illegal ((wordOfBytes (fetched s t ls)).testBit 76) (afterFetch s t ls) := by
  unfold fetched at hd
  simp only [fetchFor, m.guard, Bool.false_eq_true, if_false, Nat.not_le.mpr h, hc, hd, fetched, afterFetch, nth_unpackL_rgn, testBit_ofNat_96]
end inside

/-- An issue does what its fetch finds. -/
theorem issueStep_wait (hc : curTeam s = some (c, sl, t)) (hf : fetchFor s c t = .wait) :
    issueStep s = .next (waitTeam s c sl t) := by
  simp only [issueStep, hc, hf]
theorem issueStep_world (hc : curTeam s = some (c, sl, t)) (hf : fetchFor s c t = .world) :
    issueStep s = .next (raiseTrap s c sl t (trapAt 13 (issueAddr t) (executing t))) := by
  simp only [issueStep, hc, hf]
theorem issueStep_illegal (hc : curTeam s = some (c, sl, t)) {r : Bool} {s1 : State} (hf : fetchFor s c t = .illegal r s1) :
    issueStep s = .next (raiseTrap s1 c sl t { trapAt 1 (issueAddr t) (executing t) with rgn := r && !t.closed }) := by
  simp only [issueStep, hc, hf]
theorem issueStep_ok (hc : curTeam s = some (c, sl, t)) {i : Instr} {w : IWord} {s1 : State} (hf : fetchFor s c t = .ok i w s1) :
    issueStep s = exec i (setTeam s1 c sl { t with word := w }) := by
  simp only [issueStep, hc, hf]
end fetch

/-- What a fetch of 12 bytes obtains (R90): of each byte a version that its line has had since the launch, the byte that stands where no
write has replaced the line since. -/
theorem fetched_versions {s : State} {t : Team} {ls : List Loc} (hlen : ls.length = 12) :
    (fetched s t ls).length = 12 ∧
    (∀ k < 12, nth 0 (fetched s t ls) k ∈ codeVersions s (getLaunch s t.ctx t.seq) (nth default ls k)) ∧
    ((∀ e ∈ s.past.take (s.past.length - (getLaunch s t.ctx t.seq).begun), ∀ l ∈ ls, e.1 ≠ lineOf l) →
      ∀ k < 12, readLoc s (nth default ls k) 1 = [nth 0 (fetched s t ls) k]) := by
  have hver (k : Nat) (hk : k < 12) : nth 0 (fetched s t ls) k ∈ codeVersions s (getLaunch s t.ctx t.seq) (nth default ls k) := by
    obtain ⟨j, hj⟩ := nth_obtained (s := s) (q := getLaunch s t.ctx t.seq) (hlen ▸ hk)
    exact hj ▸ codeByte_mem j (codeVersions_ne_nil _ _ _)
  refine ⟨by simpa [fetched, obtained] using hlen, hver, fun hold k hk => ?_⟩
  have hmem : nth default ls k ∈ ls := by
    unfold nth
    rw [List.getD_eq_getElem _ _ (hlen ▸ hk)]
    exact List.getElem_mem _
  obtain ⟨b, hb⟩ := readLoc_one s (nth default ls k)
  have hin := hver k hk
  rw [codeVersions_unwritten fun e he => hold e he _ hmem, hb] at hin
  rw [hb, List.mem_singleton.mp hin]

/-- An event is executed while the machine serves it. -/
theorem step_event {s : State} {clk : Nat} {i : Instr} {rest : List (Nat × Move)} (ha : s.agenda = (clk, .event i) :: rest) :
    step s = (let s1 := { s with agenda := rest, clock := max s.clock clk }; if serves s1 i then exec i s1 else .next s1) := by
  simp only [step, ha]

/-- Settles O58: the step is an issue of the turn's team, which does what the fetch at its issue address finds. -/
theorem stepRunsDecoded : Obligations.StepRunsDecoded := by
  constructor
  · intro s clk i rest ha s1
    rw [step_event ha]
    exact ⟨fun h => if_pos h, fun h => if_neg (Bool.not_eq_true _ ▸ h)⟩
  intro s s1 hm hs
  rw [step_running hm hs]
  refine ⟨fun hc => ?_, fun c sl t hc hr hh ht hv hst => ?_⟩
  · simp only [issueStep, hc]
  have m : MayFetch s1 c sl t := ⟨hc, hr, hh, ht, hv, hst⟩
  refine ⟨fun hext => ?_, fun hext => ⟨fun hw => ?_, fun hw => ?_, fun ls hls => ?_⟩⟩
  · have hil (b : Bool) (pc : Word) (e : Mask) : { trapAt 1 pc e with rgn := false && b } = trapAt 1 pc e := rfl
    rw [issueStep_illegal hc (fetchFor_beyond m hext), hil]
  · obtain ⟨u, hu, hsame, hall⟩ := waitTeam_sameTeam s1 c sl t
    exact ⟨_, u, issueStep_wait hc (fetchFor_wait m hext hw), hu, hsame, hall.sameMemory, hall.sameUnits, hall.others⟩
  · exact issueStep_world hc (fetchFor_world m hext hw)
  · obtain ⟨h12, hver, hold⟩ := fetched_versions (s := s1) (t := t) (codeAt_length _ _ _ _ _ _ hls)
    refine ⟨h12, hver, hold, fun i rest hd => ?_, fun e hd => ?_⟩
    · exact issueStep_ok hc (fetchFor_ok m hext hls hd)
    · exact issueStep_illegal hc (fetchFor_error m hext hls hd)

/-! ### What a put-back team leaves of its core -/

/-- A part of a core that does not look at its teams. -/
theorem core_setTeam {α : Type} (f : Core → α) (hf : ∀ k m, f { k with teams := m } = f k) (s : State) (c sl : Nat) (x : Team) (j : Nat) :
    f (getCore (setTeam s c sl x) j) = f (getCore s j) := by
  unfold setTeam
  rw [getCore_updCore]
  split
  · next e => exact e ▸ hf ..
  · rfl

/-! ### Step 8 after an instruction that changed its own team alone -/

/-- Step 8 of an instruction whose body put back its team as `u0`, with the lanes where they stood. -/
theorem retired_setTeam (s : State) (c sl : Nat) {t u0 : Team} (h : Head) (hl : u0.lpc = t.lpc) :
    let s' := retired (issueOf s c sl t h) false (setTeam (issueOf s c sl t h).s c sl u0)
    ∃ u, getTeam s' c sl = some u ∧ Carried u0 u ∧ Advanced t u ∧ u.retcnt = u0.retcnt + 1 ∧ TeamOnly s s' c sl := by
  have hg : getTeam (setTeam (issueOf s c sl t h).s c sl u0) c sl = some u0 := getTeam_setTeam_same ..
  obtain ⟨ho, u, hu, hk⟩ := retire_spec hg (issueAddr t) (executing t) (active t h) h false false (fun _ => issueAddr t + 1)
  have hbase : TeamOnly s (setTeam (issueOf s c sl t h).s c sl u0) c sl :=
    teamOnly_trans (teamOnly_trans (teamOnly_setTeam s c sl (entered s t h)) (teamOnly_nextId ..)) (teamOnly_setTeam ..)
  refine ⟨u, hu, hk.carried, fun l hl32 => ?_, hk.retcnt, teamOnly_trans hbase ho⟩
  have hsame : getLpc u0 l = getLpc t l := by unfold getLpc; rw [hl]
  rw [getLpc_map _ u hk.lpc hl32, hsame, ite_self]

/-! ### Control registers (R30, R124, R125) -/

/-- Packed fields of 15, 20 and 1 bits below a fourth are read back. -/
theorem packed_fields {p c a g : Nat} (hp : p < 2 ^ 15) (hc : c < 2 ^ 20) (ha : a < 2) :
    let w := p + 2 ^ 15 * c + 2 ^ 35 * a + 2 ^ 36 * g
    w % 2 ^ 15 = p ∧ w / 2 ^ 15 % 2 ^ 20 = c ∧ w / 2 ^ 35 % 2 = a ∧ w / 2 ^ 36 = g := by
  omega

/-- WSCAL as a number: its fields do not overflow 64 bits. -/
theorem wscal_toNat (k : Nat) : (wscal k).toNat = k % 32768 + 2 ^ 15 * (k / 32768 % 2 ^ 20) +
    2 ^ 35 * (if k % 32768 % 2048 < 128 then 1 else 0) +
    2 ^ 36 * (if k % 32768 % 2048 < 128 then k % 32768 / 2048 else (k % 32768 / 2048 + 1) % 16) := by
  unfold wscal
  by_cases ha : k % 32768 % 2048 < 128
  · simp only [ha, decide_true, if_true, BitVec.toNat_ofNat, Nat.mul_one]
    exact Nat.mod_eq_of_lt (by omega)
  · simp only [ha, decide_false, Bool.false_eq_true, if_false, BitVec.toNat_ofNat, Nat.mul_zero]
    exact Nat.mod_eq_of_lt (by omega)

/-- The fields of WSCAL (R207). -/
theorem wscal_fields (k : Nat) :
    (wscal k).toNat % 2 ^ 15 = k % 32768 ∧ (wscal k).toNat / 2 ^ 15 % 2 ^ 20 = k / 32768 % 2 ^ 20 ∧
    ((wscal k).getLsbD 35 = true ↔ k % 32768 % 2048 < 128) ∧
    (wscal k).toNat / 2 ^ 36 = if k % 32768 % 2048 < 128 then k % 32768 / 2048 else (k % 32768 / 2048 + 1) % 16 := by
  obtain ⟨h1, h2, h3, h4⟩ := packed_fields (p := k % 32768) (c := k / 32768 % 2 ^ 20) (a := if k % 32768 % 2048 < 128 then 1 else 0)
    (g := if k % 32768 % 2048 < 128 then k % 32768 / 2048 else (k % 32768 / 2048 + 1) % 16) (Nat.mod_lt _ (by decide))
    (Nat.mod_lt _ (by decide)) (by split <;> decide)
  rw [← wscal_toNat] at h1 h2 h3 h4
  refine ⟨h1, h2, ?_, h4⟩
  rw [BitVec.getLsbD, Nat.testBit_eq_decide_div_mod_eq, h3]
  simp

section reads
variable (i : Issue) (l : Nat)

/-- The level positions and the delivered events of the workgroup are read by number. -/
theorem crRead_lvl {k : Nat} (h1 : 1 ≤ k) (h7 : k ≤ 7) : crRead i (0x08 + k) l = BitVec.ofNat 64 (nth 0 i.t.lvl (k - 1)) := by
  interval_cases k <;> rfl
theorem crRead_delivered {k : Nat} (h8 : k < 8) : crRead i (0x28 + k) l = nth 0 (getWg i.s i.core i.t.wg).delivered k := by
  interval_cases k <;> rfl
end reads

theorem crWrite_only (t : Team) (n : Nat) (x : DWord) :
    ∃ a b c d e, crWrite t n x = { t with sigmin := a, sigstat := b, fltstat := c, trapen := d, oobcnt := e } := by
  unfold crWrite
  split <;> exact ⟨_, _, _, _, _, rfl⟩

/-- What a write of a control register leaves in those that can be written (R125). -/
theorem crWrite_written (t : Team) (n : Word) (x : DWord) :
    (crWrite t n.toNat x).sigmin = (if n = 0x10 then x &&& 0x3F else t.sigmin) ∧
    (crWrite t n.toNat x).sigstat = (if n = 0x11 then t.sigstat &&& ~~~ (x &&& 1) else t.sigstat) ∧
    (crWrite t n.toNat x).fltstat = (if n = 0x12 then t.fltstat &&& ~~~ (x &&& 0x1F) else t.fltstat) ∧
    (crWrite t n.toNat x).trapen = (if n = 0x13 then x &&& 0x1FF else t.trapen) ∧
    (crWrite t n.toNat x).oobcnt = (if n = 0x14 then x &&& 0xFFFFFFFF else t.oobcnt) := by
  have key (k : Word) : n = k ↔ n.toNat = k.toNat := BitVec.toNat_inj.symm
  simp only [key]
  generalize n.toNat = m
  unfold crWrite
  split
  all_goals simp_all

/-- Destination and operands of a legal CRD. -/
theorem legalCrd_reg {x : IM} (h : legalCrd x = true) : isReg x.d = true := by
  simp only [legalCrd, Bool.and_eq_true] at h
  obtain ⟨⟨⟨⟨⟨-, hd⟩, -⟩, -⟩, -⟩, -⟩ := h
  exact dOk_reg hd

/-- CRD completes with the control register that its immediate names. -/
theorem execCrd_yields {x : IM} {s : State} {c sl : Nat} {t : Team} (ci : CanIssue s c sl t x.h) (hw : (Instr.crd x).wf = true)
    (ha : opdAlloc t x.d (x.md == 1) = true) (hr : Ready (issueOf s c sl t x.h) [] [(x.d, x.md == 1)]) :
    Yields s c sl t x.h (exec (.crd x) s) x.d (x.md == 1) (fun l => crRead (issueOf s c sl t x.h) x.imm.toNat l) (fun _ => 63) := by
  show Yields s c sl t x.h (execCrd x s) _ _ _ _
  unfold execCrd
  refine putRes_yields ci hw ha (legalCrd_reg hw) ?_
  simp only [gate_ready hr]

/-- CWR completes with its control register written from the lowest active lane. -/
theorem execCwr_eq {x : IM} {s : State} {c sl : Nat} {t : Team} (ci : CanIssue s c sl t x.h) (hw : (Instr.cwr x).wf = true)
    (hr : Ready (issueOf s c sl t x.h) [rd (issueOf s c sl t x.h) x.a (x.md == 1)] []) :
    exec (.cwr x) s = .next (retired (issueOf s c sl t x.h) false (setTeam (issueOf s c sl t x.h).s c sl
      (crWrite (entered s t x.h) x.imm.toNat (BitVec.ofNat 64 (ival (if x.md = 1 then 64 else 32) x.a.m
        ((rd (issueOf s c sl t x.h) x.a (x.md == 1)).at_ (lowest (active t x.h)))))))) := by
  have hb : pairBits (x.md == 1) = if x.md = 1 then 64 else 32 := by
    unfold pairBits
    simp only [beq_iff_eq]
  show execCwr x s = _
  unfold execCwr
  rw [issue_eq ci _ hw rfl]
  simp only [gate_ready hr, hb]
  rfl

/-- Settles O20: CRD puts `crRead` of its register, CWR puts back the team with `crWrite` of its register. -/
theorem controlRegisterResults : Obligations.ControlRegisterResults := by
  intro x s c sl t ci i v
  have keeps {α : Type} (f : Team → α)
      (hf : ∀ a b c d e g, f { t with rgncnt := a, retcnt := b, rgnpc := c, enter := d, stops := e, undo := g } = f t) : f i.t = f t :=
    entered_keeps f s t x.h hf
  have hwgs (n : Nat) : getWg i.s c n = getWg s c n :=
    core_setTeam (fun k => (k.wgs.find? fun w : Wg => w.id == n).getD default) (fun _ _ => rfl) s c sl (entered s t x.h) c
  have hworld : (getCore i.s c).world = (getCore s c).world := core_setTeam (·.world) (fun _ _ => rfl) s c sl (entered s t x.h) c
  constructor
  · intro hw ha hr
    refine ⟨_, execCrd_yields ci hw ha hr, ?_⟩
    have read {k : Word} {g : Nat → DWord} (e : x.imm = k) (hg : ∀ l, crRead i k.toNat l = g l) :
        (fun l => crRead i x.imm.toNat l) = g := by
      rw [e]
      exact funext hg
    refine ⟨fun e => read e fun _ => rfl, fun e => read e fun _ => ?_, fun e => read e fun _ => ?_, fun e => read e fun _ => rfl,
      fun k h1 h7 e => funext fun l => ?_, fun e => read e fun _ => keeps (·.sigmin) fun _ _ _ _ _ _ => rfl,
      fun e => read e fun _ => keeps (·.sigstat) fun _ _ _ _ _ _ => rfl, fun e => read e fun _ => keeps (·.fltstat) fun _ _ _ _ _ _ => rfl,
      fun e => read e fun _ => keeps (·.trapen) fun _ _ _ _ _ _ => rfl, fun e => read e fun _ => rfl, fun e => read e fun _ => rfl,
      fun e => read e fun _ => ?_, fun k h8 e => funext fun l => ?_,
      fun e => ⟨wscal s.clock, read e fun _ => rfl, wscal_fields s.clock⟩,
      fun e => read e fun _ => keeps (·.oobcnt) fun _ _ _ _ _ _ => rfl, fun e => read e fun _ => keeps (·.trapcause) fun _ _ _ _ _ _ => rfl,
      fun e => read e fun _ => keeps (·.trappc) fun _ _ _ _ _ _ => rfl, fun e => read e fun _ => keeps (·.trapmask) fun _ _ _ _ _ _ => rfl⟩
    · exact congrArg (BitVec.ofNat 64) (keeps (·.ctx) fun _ _ _ _ _ _ => rfl)
    · show (if (getCore i.s c).world then _ else _) = _
      rw [hworld]
    · rw [e, crRead_lvl i l h1 h7, keeps (·.lvl) fun _ _ _ _ _ _ => rfl]
    · show BitVec.ofNat 64 (getCtx s i.t.ctx).tickLife = _
      rw [keeps (·.ctx) fun _ _ _ _ _ _ => rfl]
    · rw [e, crRead_delivered i l h8, keeps (·.wg) fun _ _ _ _ _ _ => rfl]
      exact congrArg (fun w : Wg => nth 0 w.delivered k) (hwgs t.wg)
  · intro hw hr
    rw [execCwr_eq ci hw hr]
    obtain ⟨b1, b2, b3, b4, b5, hon⟩ := crWrite_only i.t x.imm.toNat v
    obtain ⟨w1, w2, w3, w4, w5⟩ := crWrite_written i.t x.imm v
    have hlpc : (crWrite i.t x.imm.toNat v).lpc = t.lpc := by
      rw [hon]
      exact keeps (·.lpc) fun _ _ _ _ _ _ => rfl
    obtain ⟨u, hu, hcar, hadv, -, hall⟩ := retired_setTeam s c sl x.h hlpc
    obtain ⟨hfl, hsi, hoo⟩ := hcar.flags
    have kept {α : Type} (f : Team → α) (h1 : ∀ y, f (stripped y) = f y)
        (h2 : ∀ y a b c d e, f { y with sigmin := a, sigstat := b, fltstat := c, trapen := d, oobcnt := e } = f y)
        (h3 : ∀ a b c d e g, f { t with rgncnt := a, retcnt := b, rgnpc := c, enter := d, stops := e, undo := g } = f t) : f u = f t := by
      rw [hcar.part f h1, hon, h2, keeps f h3]
    have hrest := kept (fun y => (y.v, y.s, y.p, y.trapcause, y.trappc, y.trapmask, y.saved, y.bufs, y.alloc, y.live)) (fun _ => rfl)
      (fun _ _ _ _ _ _ => rfl) fun _ _ _ _ _ _ => rfl
    simp only [Prod.mk.injEq] at hrest
    obtain ⟨hv, hs, hp, hcause, hpc, hmask, hsaved, hbufs, halloc, hlive⟩ := hrest
    refine ⟨_, u, rfl, hu, sameAllRegs_of_maps hv hs hp, hadv, hall.sameMemory, hall.sameUnits, hall.others, hcause, hpc, hmask, hsaved,
      hbufs, halloc, hlive, ?_, ?_, ?_, ?_, ?_⟩
    · rw [hcar.control.sigmin, w1, keeps (·.sigmin) fun _ _ _ _ _ _ => rfl]
    · rw [hsi, w2, keeps (·.sigstat) fun _ _ _ _ _ _ => rfl]
    · rw [hfl, w3, keeps (·.fltstat) fun _ _ _ _ _ _ => rfl]
    · rw [hcar.control.trapen, w4, keeps (·.trapen) fun _ _ _ _ _ _ => rfl]
    · rw [hoo, w5, keeps (·.oobcnt) fun _ _ _ _ _ _ => rfl]

/-! ### Taking a trap (R373, R375) -/

/-- Byte `k` of a number in little-endian bytes. -/
theorem leNat_byte : ∀ (bs : List Byte) (k : Nat), leNat bs / 2 ^ (8 * k) % 256 = (bs.getD k 0).toNat
  | [], k => by simp [leNat]
  | b :: rest, 0 => by
    have hb := b.isLt
    simp only [leNat, Nat.mul_zero, Nat.pow_zero, Nat.div_one, List.getD_cons_zero]
    omega
  | b :: rest, k + 1 => by
    have hp : 2 ^ (8 * (k + 1)) = 256 * 2 ^ (8 * k) := by rw [Nat.mul_add, Nat.pow_add]; ring
    rw [hp, ← Nat.div_div_eq_div_mul, List.getD_cons_succ, ← leNat_byte rest k]
    have hd : leNat (b :: rest) / 256 = leNat rest := by
      have hb := b.isLt
      simp only [leNat]
      omega
    rw [hd]

section scalars
variable (f : Nat → SElem) (t : Team)

/-- Scalars from s56 on written in turn. -/
theorem getS_foldl_setS (n k : Nat) : getS ((List.range k).foldl (fun t i => setS t (56 + i) (f i)) t) n =
    if 56 ≤ n ∧ n < 56 + k then f (n - 56) else getS t n := by
  induction k with
  | zero => rw [if_neg (by omega)]; rfl
  | succ k ih =>
    rw [List.range_succ, List.foldl_append, List.foldl_cons, List.foldl_nil, getS_setS, ih]
    by_cases h : n = 56 + k
    · rw [if_pos h, if_pos (by omega), h, Nat.add_sub_cancel_left]
    · rw [if_neg h]
      exact if_congr (by omega) rfl rfl
theorem foldl_setS_only (k : Nat) : ∃ m, (List.range k).foldl (fun t i => setS t (56 + i) (f i)) t = { t with s := m } := by
  induction k with
  | zero => exact ⟨t.s, rfl⟩
  | succ k ih =>
    obtain ⟨m, hm⟩ := ih
    rw [List.range_succ, List.foldl_append, hm]
    exact ⟨_, rfl⟩
end scalars

/-- The lane bytes of a trap record stand in its last four words. -/
theorem trapRecord_lanes (t : Team) (ti : TrapInfo) {i : Nat} (hi : i < 4) :
    nth 0 (trapRecord t ti) (4 + i) = BitVec.ofNat 64 (leNat ((List.range 8).map fun j => nth 0 ti.bytes (8 * i + j))) := by
  interval_cases i <;> rfl
theorem trapRecord_byte (t : Team) (ti : TrapInfo) {l : Nat} (hl : l < 32) :
    (nth 0 (trapRecord t ti) (4 + l / 8)).toNat / 2 ^ (8 * (l % 8)) % 256 = (nth 0 ti.bytes l).toNat := by
  have hlt := leNat_lt ((List.range 8).map fun j => nth 0 ti.bytes (8 * (l / 8) + j))
  rw [List.length_map, List.length_range] at hlt
  rw [trapRecord_lanes t ti (by omega), BitVec.toNat_ofNat, Nat.mod_eq_of_lt (hlt.trans_eq (by decide)), leNat_byte,
    List.getD_eq_getElem _ _ (by simp; omega)]
  simp only [List.getElem_map, List.getElem_range]
  rw [Nat.div_add_mod]

/-- What a team holds that has entered its handler: control registers, saved lanes and scalars, positions, and new scalars. -/
theorem enterHandler_only (t : Team) (ws : List DWord) (ti : TrapInfo) : ∃ m, enterHandler t ws ti = { t with
    trapcause := ti.cause.setWidth 64, trappc := ti.tpc.setWidth 64, trapmask := ti.mask.setWidth 64, trap := none,
    saved := some ⟨t.lpc, (List.range 8).map fun i => getS t (56 + i), t.rgnpc, t.rgncnt, t.retcnt, t.enter, ti.rgn⟩,
    lpc := lanes.map fun l => if inMask t.live l then BitVec.ofNat 32 (handlerEntry ws ti.cause) else getLpc t l,
    enter := false, closed := false, posted := false, growth := none, s := m } := by
  unfold enterHandler
  exact foldl_setS_only ..
/-- s56 to s63 hold the trap record, the other scalars what they held. -/
theorem getS_enterHandler (t : Team) (ws : List DWord) (ti : TrapInfo) (n : Nat) : getS (enterHandler t ws ti) n =
    if 56 ≤ n ∧ n < 64 then ⟨nth 0 (trapRecord t ti) (n - 56), true, 63⟩ else getS t n := by
  unfold enterHandler
  rw [getS_foldl_setS]
  rfl

/-- A team with a raised trap keeps its place: the end of its run moves only the bookkeeping of runs. -/
theorem endRunTeam_withTrap (t : Team) (ti : TrapInfo) : endRunTeam (withTrap t ti) =
    { withTrap t ti with run := 0, runYld := false, key := if t.run = 0 then t.key else t.lastIssue } := by
  unfold endRunTeam haltIfAsked
  exact if_neg fun h => by simp [withTrap] at h

theorem addUndo_only (b : Bool) (t : Team) (us : List Undo) : ∃ w n, addUndo b t us = { t with undo := w, undoNew := n } := by
  unfold addUndo
  split
  · exact ⟨_, _, rfl⟩
  · exact ⟨t.undo, t.undoNew, rfl⟩

/-- A part of a core that does not look at its teams and issue slots. -/
theorem core_endRun {α : Type} (f : Core → α) (ht : ∀ k m, f { k with teams := m } = f k) (hi : ∀ k m, f { k with islots := m } = f k)
    (s : State) (c sl : Nat) (x : Team) (j : Nat) : f (getCore (endRun s c sl x) j) = f (getCore s j) := by
  unfold endRun freeISlot setISlot
  rw [getCore_updCore]
  split
  · next e => exact (hi ..).trans (e ▸ core_setTeam f ht s c sl _ c)
  · exact core_setTeam f ht ..

/-- Whether log entries of a team are open depends on the log, the requests and the team's number alone. -/
theorem hasLog_congr {s s' : State} {c sl : Nat} {t u : Team} (ht : getTeam s c sl = some t) (hu : getTeam s' c sl = some u)
    (hid : u.tid = t.tid) (hr : s'.reqs = s.reqs) (hl : (getCore s' c).log = (getCore s c).log)
    (hw : (getCore s' c).logWait = (getCore s c).logWait) : hasLog s' c sl = hasLog s c sl := by
  unfold hasLog logLive
  simp only [ht, hu, hr, hl, hw, hid]

/-- A team without the bookkeeping that a raised trap changes: the trap itself, runs, stops, owed traps and the undo log. -/
def unbooked (t : Team) : Team :=
  { t with trap := none, posted := false, stopSoon := false, steps := none, backing := false, owed := [], run := 0, runYld := false,
           lastIssue := 0, key := 0, undo := [], undoNew := [] }
/-- A part of a team that does not look at that bookkeeping. -/
theorem part_of_unbooked {t u : Team} (h : unbooked u = unbooked t) {α : Type} (f : Team → α) (hf : ∀ x, f (unbooked x) = f x) :
    f u = f t :=
  (hf u).symm.trans ((congrArg f h).trans (hf t))

/-- A trap is delivered to the handler where its team has one and is in none (R373). -/
theorem deliverTrap_handler {s : State} {c sl : Nat} {t : Team} {ti : TrapInfo} (ht : getTeam s c sl = some t) (hs : t.saved = none)
    (hh : handlerEntry (recordOf s t) ti.cause ≠ 0xFFFFFFFF) :
    deliverTrap s c sl ti = reportSeq (setTeam s c sl (enterHandler (addUndo (getCtx s t.ctx).debug t (undoTrapRegs t)) (recordOf s t) ti))
      t.ctx c sl ti.cause := by
  have hno : trapHalts t (recordOf s t) ti = false := by simp [trapHalts, hs, hh]
  unfold deliverTrap
  rw [ht]
  exact if_neg (by simpa [recordOf] using hno)

/-- The team whose instruction traps at its issue: the instruction counts in its run, and an owed trap that it takes is owed no longer. -/
def trapping (s : State) (t : Team) (ti : TrapInfo) : Team :=
  { t with owed := if ti.cause = 7 ∨ ti.cause = 8 then (t.owed.filter (owedOn t)).drop 1 else t.owed, run := t.run + 1, lastIssue := s.clock }
theorem raiseTrap_eq_takeTrap (s : State) (c sl : Nat) (t : Team) (ti : TrapInfo) : raiseTrap s c sl t ti =
    { takeTrap s c sl (trapping s t ti) ti with clock := (takeTrap s c sl (trapping s t ti) ti).clock + 1 } := rfl

/-- A trap without an open log entry is delivered at once (R373). -/
theorem raiseTrap_eq {s : State} {c sl : Nat} {t : Team} {ti : TrapInfo} (ht : getTeam s c sl = some t)
    (hr : TrapReady s c sl t ti.cause) :
    ∃ x s1 k, raiseTrap s c sl t ti =
        { reportSeq (setTeam s1 c sl (enterHandler x (recordOf s t) ti)) t.ctx c sl ti.cause with clock := k } ∧
      TeamOnly s s1 c sl ∧ unbooked x = unbooked t := by
  obtain ⟨hlog, hsaved, hentry⟩ := hr
  let y : Team := endRunTeam (withTrap (trapping s t ti) ti)
  let s1 := endRun s c sl (withTrap (trapping s t ti) ti)
  have hy : unbooked y = unbooked t := by
    show unbooked (endRunTeam _) = _
    rw [endRunTeam_withTrap]
    rfl
  have hget : getTeam s1 c sl = some y := by
    show getTeam (endRun _ _ _ _) _ _ = _
    unfold endRun freeISlot
    rw [getTeam_setISlot, getTeam_setTeam_same]
  have hlog1 : hasLog s1 c sl = false := by
    rw [← hlog]
    exact hasLog_congr ht hget (part_of_unbooked hy (·.tid) fun _ => rfl) rfl
      (core_endRun (·.log) (fun _ _ => rfl) (fun _ _ => rfl) ..) (core_endRun (·.logWait) (fun _ _ => rfl) (fun _ _ => rfl) ..)
  have hplace := part_of_unbooked hy (fun x => (x.ctx, x.seq, x.saved)) fun _ => rfl
  simp only [Prod.mk.injEq] at hplace
  obtain ⟨hctx, hseq, hsv⟩ := hplace
  have hrec : recordOf s1 y = recordOf s t := by
    unfold recordOf
    rw [hctx, hseq]
    rfl
  have hdel := deliverTrap_handler (ti := ti) hget (hsv.trans hsaved) (hrec ▸ hentry)
  obtain ⟨w, n, hu⟩ := addUndo_only (getCtx s1 y.ctx).debug y (undoTrapRegs y)
  have htake : takeTrap s c sl (trapping s t ti) ti = deliverTrap s1 c sl ti :=
    if_neg (Bool.eq_false_iff.mp hlog1)
  refine ⟨{ y with undo := w, undoNew := n }, s1, (deliverTrap s1 c sl ti).clock + 1, ?_, teamOnly_endRun .., hy ▸ rfl⟩
  rw [raiseTrap_eq_takeTrap, htake, ← hu, ← hrec, ← hctx, ← hdel]

/-- What taking a trap leaves, from any state in which it is delivered to a handler (R373). -/
theorem raiseTrap_tookTrap {s : State} {c sl : Nat} {t : Team} {ti : TrapInfo} (ht : getTeam s c sl = some t)
    (hr : TrapReady s c sl t ti.cause) : ∃ u, TookTrap s c sl t ti (raiseTrap s c sl t ti) u := by
  obtain ⟨x, s1, k, he, hall, hx⟩ := raiseTrap_eq ht hr
  have hput := teamOnly_trans hall (teamOnly_setTeam s1 c sl (enterHandler x (recordOf s t) ti))
  obtain ⟨m, hm⟩ := enterHandler_only x (recordOf s t) ti
  have hS := getS_enterHandler x (recordOf s t) ti
  have hparts := part_of_unbooked hx (fun y => (y.v, y.s, y.p, y.lpc, y.live, y.rgnpc, y.rgncnt, y.retcnt, y.enter)) fun _ => rfl
  simp only [Prod.mk.injEq] at hparts
  obtain ⟨hv, hs, hp, hlpc, hlive, hpc, hcnt, hret, hent⟩ := hparts
  have hfl := part_of_unbooked hx (fun y => (y.fltstat, y.sigstat, y.oobcnt)) fun _ => rfl
  have hold (n : Nat) : getS x n = getS t n := by unfold getS; rw [hs]
  have hrec (n : Nat) (h1 : 56 ≤ n) (h2 : n < 64) :
      getS (enterHandler x (recordOf s t) ti) n = ⟨nth 0 (trapRecord x ti) (n - 56), true, 63⟩ := by
    rw [hS, if_pos ⟨h1, h2⟩]
  have hcores : (raiseTrap s c sl t ti).cores = (setTeam s1 c sl (enterHandler x (recordOf s t) ti)).cores := by
    rw [he]
    exact reportSeq_cores ..
  have hteams (a b : Nat) : getTeam (raiseTrap s c sl t ti) a b = getTeam (setTeam s1 c sl (enterHandler x (recordOf s t) ti)) a b := by
    unfold getTeam getCore
    rw [hcores]
  refine ⟨enterHandler x (recordOf s t) ti, ?_⟩
  constructor
  case here => rw [hteams, getTeam_setTeam_same]
  case cause => rw [hm]
  case pc => rw [hm]
  case mask => rw [hm]
  case lpc =>
    intro l hl
    have hmap := congrArg Team.lpc hm
    rw [getLpc_map (fun l => if inMask x.live l then BitVec.ofNat 32 (handlerEntry (recordOf s t) ti.cause) else getLpc x l) _ hmap hl, hlive]
    unfold getLpc
    rw [hlpc]
  case saved =>
    rw [hm]
    simp only [hold, hlpc, hpc, hcnt, hret, hent]
  case word => rw [hrec 56 (by decide) (by decide)]; rfl
  case lanes => rw [hrec 57 (by decide) (by decide), ← hret]; rfl
  case count => rw [hrec 58 (by decide) (by decide), ← hcnt]; rfl
  case info => rw [hrec 59 (by decide) (by decide)]; rfl
  case bytes =>
    intro l hl
    rw [hrec (60 + l / 8) (by omega) (by omega), ← trapRecord_byte x ti hl, show 60 + l / 8 - 56 = 4 + l / 8 by omega]
  case record =>
    intro n h1 h2
    rw [hrec n h1 h2]
    exact ⟨rfl, rfl⟩
  case regs =>
    refine ⟨fun n l _ => ?_, fun n hn => ?_, fun n => ?_⟩
    · rw [hm]
      unfold getV
      rw [hv]
    · rw [hS, if_neg (by omega), hold]
    · rw [hm]
      unfold getP
      rw [hp]
  case flags =>
    rw [hm]
    simpa only [Prod.mk.injEq, SameFlags] using hfl
  case live => rw [hm]; exact hlive
  case memory =>
    refine ⟨by rw [he]; exact (reportSeq_mem ..).trans hput.mem, by rw [he]; exact (reportSeq_wstore ..).trans hput.wstore,
      by rw [he]; exact (reportSeq_remote ..).trans hput.remote, fun j => ?_⟩
    unfold getCore
    rw [hcores]
    exact hput.sameMemory.scratch j
  case units => exact ⟨by rw [he]; exact (reportSeq_reqs ..).trans hput.reqs, by rw [he]; exact (reportSeq_slices ..).trans hput.slices⟩
  case others =>
    intro a b hne
    rw [hteams]
    exact hput.others a b hne

/-! ### Traps at issue (R37 steps 1 and 3, R51, R63, R88, R89, R123) -/

theorem getTeam_of_curTeam {s : State} {c sl : Nat} {t : Team} (h : curTeam s = some (c, sl, t)) : getTeam s c sl = some t := by
  unfold curTeam at h
  split at h
  · split at h
    · next hx =>
      cases h
      exact hx
    · cases h
  · cases h

theorem exists_of_maskOf_ne_zero {f : Nat → Bool} (h : maskOf f ≠ 0) : ∃ l < 32, f l = true := by
  obtain ⟨l, hl, hm⟩ := exists_lane h
  exact ⟨l, hl, by rwa [inMask_maskOf f hl] at hm⟩

/-- Step 3 of R37: a first source with E = 1 that is empty in some active lane takes cause 2 for its empty lanes. -/
theorem gate_empty {i : Issue} {a : Rd} {srcs : List Rd} {dsts : List (Opd × Bool)} (he : a.e = true)
    (hm : maskOf (fun l => inMask i.act l && !(a.at_ l).full) ≠ 0) :
    gate i (a :: srcs) dsts = some (.trap (trapAt 2 i.pc (maskOf fun l => inMask i.act l && !(a.at_ l).full))) := by
  obtain ⟨l, hl, hf⟩ := exists_of_maskOf_ne_zero hm
  rw [Bool.and_eq_true] at hf
  have hany : ((lanesOf i.act).any fun l => !(a.at_ l).full) = true := List.any_eq_true.mpr ⟨l, mem_lanesOf.mpr ⟨hl, hf.1⟩, hf.2⟩
  simp only [gate, List.find?_cons, he, hany, Bool.and_self]

section fp
variable {i : Issue} {sp : Nat} {out : Nat → FO} {fin : Team → Res} {en sm : DWord} (hen : i.t.trapen = en)
include hen

/-- An enabled FP exception takes cause 4 for the lanes that raised it (R51). -/
theorem fpFinish_arith (h : maskOf (fun l => inMask i.act l && ((out l).fl &&& (en.toNat % 32)) != 0) ≠ 0) :
    fpFinish i sp out fin = .trap (trapAt 4 i.pc (maskOf fun l => inMask i.act l && ((out l).fl &&& (en.toNat % 32)) != 0)) := by
  subst hen
  simp only [fpFinish, if_pos h]
/-- Without one, a result below SIGMIN takes cause 3 where TRAPEN[5] is set, with the tags that would have been written (R63). -/
theorem fpFinish_sig (hsm : i.t.sigmin = sm) (h : maskOf (fun l => inMask i.act l && ((out l).fl &&& (en.toNat % 32)) != 0) = 0)
    (hl : maskOf (fun l => inMask i.act l && sigFails sp sm (polTag sp (out l).tag)) ≠ 0) (h5 : en.getLsbD 5 = true) :
    fpFinish i sp out fin = .trap { trapAt 3 i.pc (maskOf fun l => inMask i.act l && sigFails sp sm (polTag sp (out l).tag)) with
      bytes := (List.range 32).map fun l => if inMask i.act l then BitVec.ofNat 8 (polTag sp (out l).tag).toNat else 0 } := by
  subst hen hsm
  simp only [fpFinish, h, ne_eq, not_true_eq_false, if_false, h5, Bool.and_true, decide_eq_true_eq, if_pos hl, BitVec.ofNat_toNat, lanes]
end fp

/-- A trap that the body of an instruction finds is taken by the team as its region entry left it. -/
theorem issue_trap {s : State} {c sl : Nat} {t : Team} {h : Head} (ci : CanIssue s c sl t h) {legal closes : Bool}
    {dyn : State → Nat → Team → Bool} {body : Issue → Res} (hl : legal = true) (hd : dyn s c t = true) {ti : TrapInfo}
    (hb : body (issueOf s c sl t h) = .trap ti) (hr : TrapReady (setTeam s c sl (entered s t h)) c sl (entered s t h) ti.cause) :
    ∃ s' u, issue h legal closes dyn body s = .next s' ∧
      TookTrap (setTeam s c sl (entered s t h)) c sl (entered s t h) ti s' u := by
  obtain ⟨u, hu⟩ := raiseTrap_tookTrap (getTeam_setTeam_same s c sl (entered s t h)) hr
  exact ⟨_, u, by rw [issue_eq ci body hl hd, hb], hu⟩

/-- The trap of an illegal instruction of team `t` with head `h` (R37 step 1). -/
def ilTrap (t : Team) (h : Head) : TrapInfo := { trapAt 1 (issueAddr t) (executing t) with rgn := h.rgn && !t.closed }

/-- `out` is what `issue` answers for a privileged instruction: step 1 asks for firmware (R88). -/
def PrivForm (h : Head) (legal : Bool) (s : State) (out : Host.Outcome State Fault Refusal) : Prop :=
  ∃ closes body, out = issue h legal closes (fun s _ t => privileged s t) body s

theorem dbgBody_priv (ins : Instr) (x : IM) (k : Issue → DbgArg → (State → Nat → Res) → Res) (s : State) :
    PrivForm x.h ins.wf s (dbgBody ins x k s) := by
  unfold dbgBody
  exact ⟨_, _, rfl⟩

/-- The TLB instructions and the debugger's are privileged. -/
theorem tlb_priv (s : State) (x : EN) {ins : Instr} (h : ins ∈ [Instr.dharv x, .tlbinvPage x, .tlbinvCtx x, .tlbinvAll x]) :
    PrivForm x.h ins.wf s (exec ins s) := by
  simp only [List.mem_cons, List.not_mem_nil, or_false] at h
  obtain rfl | rfl | rfl | rfl := h <;> unfold exec <;> exact ⟨_, _, rfl⟩
theorem dbg_priv (s : State) (x : IM) {ins : Instr} (h : ins ∈ [Instr.dbgbrkHalt x, .dbgbrkResume x, .dbgbrkStep x, .dbgbrkBack x,
    .dbgbrkBrk x, .dbgbrkClr x, .dbgbrkDbg x]) : PrivForm x.h ins.wf s (exec ins s) := by
  simp only [List.mem_cons, List.not_mem_nil, or_false] at h
  obtain rfl | rfl | rfl | rfl | rfl | rfl | rfl := h <;> unfold exec <;> exact dbgBody_priv ..

section illegal
variable {s : State} {c sl : Nat} {t : Team} (hc : curTeam s = some (c, sl, t)) (hr : t.halted = false) (hh : t.hold = none)
  (ht : t.trap = none) (hv : t.live ≠ 0) (hready : TrapReady s c sl t 1)
include hc hr hh ht hv hready

/-- An instruction whose word or team fails a check of step 1 takes cause 1. -/
theorem issue_il {h : Head} {legal closes : Bool} {dyn : State → Nat → Team → Bool} {body : Issue → Res}
    (hl : (legal && dyn s c t) = false) :
    ∃ s' u, issue h legal closes dyn body s = .next s' ∧ TookTrap s c sl t (ilTrap t h) s' u := by
  obtain ⟨u, hu⟩ := raiseTrap_tookTrap (ti := ilTrap t h) (getTeam_of_curTeam hc) hready
  exact ⟨_, u, issue_illegal body hc hr hh ht hv hl, hu⟩

/-- A word that fails the check of its legality takes cause 1, whatever the instruction (R89). -/
theorem exec_il {ins : Instr} {maj fn : Nat} {b : Body} (hp : parts ins = some (maj, fn, b)) (hw : ins.wf = false) :
    ∃ s' u, exec ins s = .next s' ∧ TookTrap s c sl t (ilTrap t (headOf b)) s' u := by
  obtain ⟨closes, dyn, body, e⟩ := exec_form hp s
  rw [e, hw]
  exact issue_il hc hr hh ht hv hready rfl

/-- So does a return outside a trap handler (R123). -/
theorem eretBody_il (ins : Instr) (x : RG) (skip : Bool) (hs : t.saved = none) :
    ∃ s' u, eretBody ins x skip s = .next s' ∧ TookTrap s c sl t (ilTrap t x.h) s' u := by
  refine issue_il hc hr hh ht hv hready ?_
  rw [hs, Option.isSome_none, Bool.and_false]

/-- So does a privileged instruction outside firmware (R88). -/
theorem priv_il {h : Head} {legal : Bool} {out : Host.Outcome State Fault Refusal} (hp : PrivForm h legal s out)
    (hfw : (getLaunch s t.ctx t.seq).firmware = false) : ∃ s' u, out = .next s' ∧ TookTrap s c sl t (ilTrap t h) s' u := by
  obtain ⟨closes, body, rfl⟩ := hp
  refine issue_il hc hr hh ht hv hready ?_
  rw [privileged, hfw, Bool.and_false]
end illegal

/-- An integer instruction with an empty E = 1 source A takes cause 2. -/
theorem intBody_empty {i : Issue} {pair : Bool} {d : Opd} {n : Nat} {a b c : Rd} {ma mb mc : Bool} {f : Nat → Nat → Nat → Nat → Int}
    (he : a.e = true) (hm : maskOf (fun l => inMask i.act l && !(a.at_ l).full) ≠ 0) :
    intBody pair d (n + 1) a b c ma mb mc f i = .trap (trapAt 2 i.pc (maskOf fun l => inMask i.act l && !(a.at_ l).full)) := by
  simp only [intBody, List.take_succ_cons, gate_empty he hm]

/-- The results of a two-source FP instruction whose operands are ready. -/
theorem fpBody_two {i : Issue} {f : Fmt} {pair : Bool} {d : Opd} {a b c : Rd} {ma mb mc : Bool} {slot : Nat} {rnd : Rnd}
    {op : Nat → VT → VT → VT → FO} (h : Ready i [a, b] [(d, pair)]) :
    fpBody f pair d 2 a b c ma mb mc slot rnd op i = fpPut i d pair (slotSigpol (recSlot (wordsOf i) slot))
      fun l => op (rmode (wordsOf i) slot rnd) (vt f ma (a.at_ l)) (vt f mb (b.at_ l)) (vt f mc (c.at_ l)) := by
  simp only [fpBody, List.take_succ_cons, List.take_zero, gate_ready h]

/-- Settles O14: step 1 answers IL for whatever fails its checks, step 3 EMPTY, and the end of an FP instruction ARITH or SIG. -/
theorem instructionTraps : Obligations.InstructionTraps := by
  refine ⟨?_, ?_, ?_⟩
  · intro s c sl t hc hr hh ht hv hready
    refine ⟨fun ins maj fn b hp hw => ?_, fun hs x => ⟨?_, ?_⟩, fun hfw => ⟨fun x ins hin => ?_, fun x ins hin => ?_⟩⟩
    · exact exec_il hc hr hh ht hv hready hp hw
    · exact eretBody_il hc hr hh ht hv hready _ x true hs
    · exact eretBody_il hc hr hh ht hv hready _ x false hs
    · exact priv_il hc hr hh ht hv hready (tlb_priv s x hin) hfw
    · exact priv_il hc hr hh ht hv hready (dbg_priv s x hin) hfw
  · intro w x s c sl t ci ha hw he i m hm hready
    show ∃ s' u, execIadd w x s = _ ∧ _
    unfold execIadd intRG
    exact issue_trap ci hw ha (intBody_empty he hm) hready
  · intro x s c sl t ci ha hw i a b r m pol low tags hrdy
    have htr : i.t.trapen = t.trapen := enterRegion_trapen ..
    have hsm : i.t.sigmin = t.sigmin := enterRegion_sigmin ..
    have hbody : fpBody fp32 false x.d 2 (rdA i x false) (rd i x.b false) (rd i x.c false) x.a.m x.b.m x.c.m x.slot.toNat x.rnd
        (oAdd fp32) i = fpPut i x.d false pol r := by
      rw [fpBody_two hrdy, words_issueOf]
      rfl
    show (m ≠ 0 → _ → ∃ s' u, execFadd x s = _ ∧ _) ∧ (m = 0 → low ≠ 0 → _ → _ → ∃ s' u, execFadd x s = _ ∧ _)
    unfold execFadd fpRG
    refine ⟨fun hm hready => issue_trap ci hw ha (hbody.trans ?_) hready, fun hm hlow h5 hready => issue_trap ci hw ha (hbody.trans ?_) hready⟩
    · exact fpFinish_arith htr hm
    · exact fpFinish_sig htr hsm hm hlow h5

/-! ### Translation depends on tables, windows, routes, slices and the TLB alone (R359, R360, R437) -/

/-- Two states with the same memory, contexts, routes and slices, and on core `c` the same TLB and world. -/
structure SameTables (s s' : State) (c : Nat) : Prop where
  mem : s'.mem = s.mem
  ctxs : s'.ctxs = s.ctxs
  routes : s'.routes = s.routes
  slices : s'.slices = s.slices
  tlb : (getCore s' c).tlb = (getCore s c).tlb
  world : (getCore s' c).world = (getCore s c).world

theorem sameTables_trans {s s' s'' : State} {c : Nat} (h : SameTables s s' c) (k : SameTables s' s'' c) : SameTables s s'' c :=
  ⟨k.mem.trans h.mem, k.ctxs.trans h.ctxs, k.routes.trans h.routes, k.slices.trans h.slices, k.tlb.trans h.tlb, k.world.trans h.world⟩
theorem sameTables_setTeam (s : State) (c sl : Nat) (x : Team) (k : Nat) : SameTables s (setTeam s c sl x) k :=
  ⟨rfl, rfl, rfl, rfl, core_setTeam (·.tlb) (fun _ _ => rfl) .., core_setTeam (·.world) (fun _ _ => rfl) ..⟩
theorem sameTables_nextId (s : State) (n k : Nat) : SameTables s { s with nextId := n } k := ⟨rfl, rfl, rfl, rfl, rfl, rfl⟩

section tables
variable {s s' : State} {c : Nat} (h : SameTables s s' c) (ctx va : Nat)
include h

theorem readPte_sameTables : readPte s' = readPte s := by
  funext pa
  unfold readPte
  rw [h.mem]
theorem walkFrom_sameTables : ∀ ls, walkFrom s' va ls = walkFrom s va ls
  | [] => rfl
  | (sh, w, ok) :: rest => by
    funext tab
    unfold walkFrom
    rw [readPte_sameTables h, walkFrom_sameTables rest]
theorem walkReads_sameTables : ∀ ls, walkReads s' va ls = walkReads s va ls
  | [] => rfl
  | (sh, w, ok) :: rest => by
    funext tab
    unfold walkReads
    rw [readPte_sameTables h, walkReads_sameTables rest]
theorem getCtx_sameTables : getCtx s' ctx = getCtx s ctx := by
  unfold getCtx
  rw [h.ctxs]
theorem walk_sameTables : walk s' ctx va = walk s ctx va := by
  unfold walk
  rw [getCtx_sameTables h, walkFrom_sameTables h]
theorem windowOf_sameTables : windowOf s' ctx va = windowOf s ctx va := by
  unfold windowOf
  rw [getCtx_sameTables h]
theorem reachable_sameTables (table chip : Nat) : reachable s' table chip = reachable s table chip := by
  unfold reachable
  rw [h.routes]
theorem leafLoc_sameTables (p : DWord) (size : Nat) : leafLoc s' p size va = leafLoc s p size va := by
  unfold leafLoc
  rw [reachable_sameTables h]
theorem otherSlice_sameTables (p : DWord) (pa : Nat) (wld : Bool) : otherSlice s' p pa wld = otherSlice s p pa wld := by
  unfold otherSlice getSlice
  rw [h.slices]
theorem tableAt_sameTables (wld write : Bool) (chip : Option Nat) :
    (tableAt s' (.core c) ctx wld write va chip).1 = (tableAt s (.core c) ctx wld write va chip).1 := by
  unfold tableAt tlbOf
  simp only [h.tlb, walk_sameTables h, otherSlice_sameTables h, reachable_sameTables h, leafLoc_sameTables h]
  cases (getCore s c).tlb.find? fun e => tlbHit e ctx va with
  | some e => dsimp only; split_ifs <;> rfl
  | none =>
    cases walk s ctx va with
    | fault k => rfl
    | leaf p pa size => dsimp only; split_ifs <;> rfl
theorem translate_sameTables (wld write : Bool) :
    (Machine.translate s' (.core c) ctx wld write va).1 = (Machine.translate s (.core c) ctx wld write va).1 := by
  unfold Machine.translate
  rw [windowOf_sameTables h]
  split
  · exact tableAt_sameTables h ..
  · rw [reachable_sameTables h]
    split_ifs
    · rfl
    · exact tableAt_sameTables h ..
    · rfl
    · rfl
    · rfl
/-- The home of an access. -/
theorem homeOf_sameTables (write : Bool) : (homeOf s' c ctx write va).1 = (homeOf s c ctx write va).1 := by
  unfold homeOf
  rw [h.world]
  simp only [translate_sameTables h]
  split <;> rfl
/-- The table entries that an access reads. -/
theorem entriesRead_sameTables : entriesRead s' c ctx va = entriesRead s c ctx va := by
  unfold entriesRead
  rw [windowOf_sameTables h, h.tlb, getCtx_sameTables h, walkReads_sameTables h]
/-- Whether a walk waits depends on the requests too. -/
theorem walkHeld_sameTables (hr : s'.reqs = s.reqs) (tid : Nat) (vas : List Nat) :
    walkHeld s' c tid ctx vas = walkHeld s c tid ctx vas := by
  have he : entriesRead s' c ctx = entriesRead s c ctx := funext fun va => entriesRead_sameTables h ctx va
  unfold walkHeld
  rw [he, hr]
end tables

/-! ### What a translation leaves -/

/-- A translation may install or mark a TLB entry of its core and changes nothing else. -/
theorem tableAt_state (s : State) (w : TlbOf) (ctx : Nat) (wld write : Bool) (va : Nat) (chip : Option Nat) :
    (tableAt s w ctx wld write va chip).2 = s ∨ ∃ es, (tableAt s w ctx wld write va chip).2 = setTlb s w es := by
  unfold tableAt
  cases (tlbOf s w).find? fun e => tlbHit e ctx va with
  | some e =>
    dsimp only
    split
    · exact .inl rfl
    · split
      · exact .inl rfl
      · exact .inr ⟨_, rfl⟩
  | none =>
    cases walk s ctx va with
    | fault k => exact .inl rfl
    | leaf p pa size =>
      dsimp only
      split
      · exact .inl rfl
      · split
        · exact .inl rfl
        · exact .inr ⟨_, rfl⟩
theorem translate_state (s : State) (w : TlbOf) (ctx : Nat) (wld write : Bool) (va : Nat) :
    (Machine.translate s w ctx wld write va).2 = s ∨ ∃ es, (Machine.translate s w ctx wld write va).2 = setTlb s w es := by
  unfold Machine.translate
  split
  · exact tableAt_state ..
  · split_ifs
    · exact .inl rfl
    · exact tableAt_state ..
    · exact .inl rfl
    · exact .inl rfl
    · exact .inl rfl
theorem homeOf_state (s : State) (c ctx : Nat) (write : Bool) (va : Nat) :
    (homeOf s c ctx write va).2 = (Machine.translate s (.core c) ctx (getCore s c).world write va).2 := by
  unfold homeOf
  dsimp only
  split <;> rfl

/-- A change of a TLB keeps every team, memory and unit. -/
theorem teamOnly_setTlb (s : State) (k : Nat) (es : List TlbEntry) (c sl : Nat) : TeamOnly s (setTlb s (.core k) es) c sl :=
  ⟨rfl, rfl, rfl, rfl, rfl, rfl, core_updCore s k _ fun _ => ⟨rfl, rfl, rfl, rfl, rfl, rfl⟩, fun _ _ _ => getTeam_updCore s k _ _ _ rfl⟩
theorem getTeam_setTlb (s : State) (k : Nat) (es : List TlbEntry) (c sl : Nat) : getTeam (setTlb s (.core k) es) c sl = getTeam s c sl :=
  getTeam_updCore s k _ _ _ rfl
/-- So does the search for the home of an access. -/
theorem homeOf_teamOnly (s : State) (k ctx : Nat) (write : Bool) (va c sl : Nat) :
    TeamOnly s (homeOf s k ctx write va).2 c sl ∧ getTeam (homeOf s k ctx write va).2 c sl = getTeam s c sl := by
  rw [homeOf_state]
  obtain h | ⟨es, h⟩ := translate_state s (.core k) ctx (getCore s k).world write va
  · rw [h]
    exact ⟨teamOnly_refl .., rfl⟩
  · rw [h]
    exact ⟨teamOnly_setTlb .., getTeam_setTlb ..⟩

/-! ### A request on its way (R126, R360) -/

/-- A request with its home and without a shadow byte. -/
def homed (r : Req) (a : Home) : Req := { r with loc := a.loc, fault := a.fault, info := a.info, shFault := 0, shadowVa := none }
/-- A request of a plan, with its number. -/
def planned (p : Plan) (r : Req) (n : Nat) : Req := { r with img := p.img, cache := p.pol, id := n }

/-- The read of a record takes the home of its address. -/
theorem reroute_record {s : State} {r : Req} {n : Nat} (hk : r.kind = .brld n) (hs : r.shadowVa = none) :
    let a := homeOf s r.core r.ctx r.write r.va
    reroute s r = (homed r a.1, a.1.world, a.2) := by
  simp only [reroute, hk, route, needsSlice, hs, Bool.false_and, Bool.false_eq_true, if_false, homed]
theorem routeAll_one (r : Req) (s : State) : routeAll [r] s =
    ((reroute s { r with id := s.nextId }).2.1, post (reroute s { r with id := s.nextId }).2.2 (reroute s { r with id := s.nextId }).1) := by
  simp only [routeAll, Bool.or_false]

/-- One read of a record goes out whose walk need not wait and whose leaf is of the team's world. -/
theorem sendAll_record {i : Issue} {p : Plan} {t : Team} {r : Req} {n : Nat} (hk : r.kind = .brld n) (hs : r.shadowVa = none)
    (hheld : walkHeld i.s i.core i.t.tid i.t.ctx [r.va] = false)
    (hw : (homeOf (setTeam i.s i.core i.slot t) r.core r.ctx r.write r.va).1.world = false) :
    let a := homeOf (setTeam i.s i.core i.slot t) r.core r.ctx r.write r.va
    sendAll i p t [r] = .go (post a.2 (homed (planned p r i.s.nextId) a.1)) := by
  intro a
  have hvas : ([r].flatMap fun r => r.va :: r.shadowVa.toList) = [r.va] := by simp [hs]
  have hroute : reroute (setTeam i.s i.core i.slot t) (planned p r i.s.nextId) = (homed (planned p r i.s.nextId) a.1, a.1.world, a.2) :=
    reroute_record hk hs
  have hall : routeAll [{ r with img := p.img, cache := p.pol }] (setTeam i.s i.core i.slot t) =
      (false, post a.2 (homed (planned p r i.s.nextId) a.1)) := by
    have e : reroute (setTeam i.s i.core i.slot t) { { r with img := p.img, cache := p.pol } with id := (setTeam i.s i.core i.slot t).nextId } =
        (homed (planned p r i.s.nextId) a.1, a.1.world, a.2) := hroute
    rw [routeAll_one, e]
    exact Prod.ext hw rfl
  simp only [sendAll, hvas, hheld, Bool.false_eq_true, if_false, List.map_cons, List.map_nil, hall]

section withPlan
variable {i : Issue} {x : MM} {srcs : List Rd} {dsts : List (Opd × Bool)} {ls : List Nat} {k : Plan → Res}

/-- An access that can be sent goes on with its plan (R35, R127, R366). -/
theorem withPlan_ready (h : Ready i srcs dsts) (ca : CanAccess i x ls) :
    withPlan i x srcs dsts (rd i x.a false) ls k = k (planOf i x (rd i x.a false) ((srcs.drop 1).head?) ls) := by
  have hworld : (brWld (bufOf i.t x.brec.toNat) != (getCore i.s i.core).world) = false := by simp [ca.world]
  have hoob : (brOobTrap (bufOf i.t x.brec.toNat) && !(outOf i x ls).isEmpty) = false := by
    obtain h | h := ca.oob
    · rw [h, Bool.false_and]
    · rw [h, List.isEmpty_nil, Bool.not_true, Bool.and_false]
  unfold withPlan
  rw [gate_ready h]
  simp only [ca.log, Bool.false_eq_true, if_false]
  show (if (brWld (bufOf i.t x.brec.toNat) != (getCore i.s i.core).world) = true then _
    else if (brOobTrap (bufOf i.t x.brec.toNat) && !(outOf i x ls).isEmpty) = true then _ else _) = _
  rw [hworld, hoob]
  rfl
end withPlan

/-- The lanes of a plan of one lane. -/
theorem planOf_ins_one (i : Issue) (x : MM) (b : Option Rd) (l : Nat) : (planOf i x (rd i x.a false) b [l]).ins =
    if brIn (bufOf i.t x.brec.toNat) (idxOf i x l) then [(l, idxOf i x l)] else [] := by
  show ([l].filter fun l => brIn (bufOf i.t x.brec.toNat) (idxOf i x l)).map _ = _
  rw [List.filter_singleton]
  cases brIn (bufOf i.t x.brec.toNat) (idxOf i x l) <;> rfl

/-- The ask of a read that is no read-modify-write: a release fence does not touch it. -/
theorem askMM_read (t : Team) (x : MM) (l va n : Nat) (k : ReqKind) : askMM t x false true false l va n k =
    ⟨l, va, n, true, false, x.ord != .weak, x.ord == .acq, x.ord == .rel, x.scope, x.scope, k⟩ := by
  unfold askMM
  cases t.relFence <;> simp

/-! ### Buffer records (R34, R132, R133) -/

theorem endRunTeam_hold (t : Team) : (endRunTeam t).hold = t.hold := by
  unfold endRunTeam haltIfAsked
  repeat' split
  all_goals rfl

/-- An instruction that retires later holds its team, whose lanes have not moved (R132). -/
theorem holdTeam_spec {s : State} {c sl : Nat} {t : Team} (ht : getTeam s c sl = some t) (k : Hold) :
    TeamOnly s (holdTeam s c sl k) c sl ∧
    ∃ u, getTeam (holdTeam s c sl k) c sl = some u ∧ Carried t u ∧ u.hold = some k ∧ u.lpc = t.lpc := by
  unfold holdTeam
  rw [ht]
  obtain ⟨hall, w, hw, h⟩ := boundary_spec s c sl { issued t s.clock k.head with hold := some k } k.head.fin
  refine ⟨hall, w, hw, ?_⟩
  obtain rfl | rfl | rfl := h
  · exact ⟨rfl, rfl, rfl⟩
  · obtain ⟨hc, hl, -⟩ := endRunTeam_carried { issued t s.clock k.head with hold := some k }
    exact ⟨carried_trans rfl hc, endRunTeam_hold _, hl⟩
  · exact ⟨rfl, rfl, rfl⟩

/-- The record that a team has bound to `n` after a write of record `m`. -/
theorem bufOf_nset (t : Team) (m n : Nat) (r : BitVec 256) : ngetD 0 (nset t.bufs m r) n = if n = m then r else bufOf t n :=
  ngetD_nset 0 t.bufs m n r

/-- How an instruction goes on whose body is done, or holds its team. -/
theorem issue_go {s : State} {c sl : Nat} {t : Team} {h : Head} (ci : CanIssue s c sl t h) {legal closes : Bool}
    {dyn : State → Nat → Team → Bool} {body : Issue → Res} (hl : legal = true) (hd : dyn s c t = true) {s' : State}
    (hb : body (issueOf s c sl t h) = .go s') :
    issue h legal closes dyn body s = .next (retired (issueOf s c sl t h) closes s') := by
  rw [issue_eq ci body hl hd, hb]
theorem issue_hold {s : State} {c sl : Nat} {t : Team} {h : Head} (ci : CanIssue s c sl t h) {legal closes : Bool}
    {dyn : State → Nat → Team → Bool} {body : Issue → Res} (hl : legal = true) (hd : dyn s c t = true) {s' : State} {k : HoldKind}
    (hb : body (issueOf s c sl t h) = .hold s' k) :
    issue h legal closes dyn body s =
      .next (holdTeam s' c sl ⟨k, s.nextId, issueAddr t, executing t, active t h, h, closes, []⟩) := by
  rw [issue_eq ci body hl hd, hb]

/-- The read that BRLD sends from lane `l`. -/
def recordRead (i : Issue) (x : MM) (l : Nat) : Req :=
  { Machine.ordOf x false (mkReq i l (.brld (xNum x.d))) with va := vaOf i x 32 l, n := 32, read := true }

theorem bufOf_entered (s : State) (t : Team) (h : Head) (n : Nat) : bufOf (entered s t h) n = bufOf t n :=
  congrArg (fun b => ngetD 0 b n) (enterRegion_bufs ..)
theorem recBound_of_canAccess {s : State} {c sl : Nat} {t : Team} {h : Head} {x : MM} {ls : List Nat}
    (ca : CanAccess (issueOf s c sl t h) x ls) : recBound t x = true := by
  have hb := ca.bound
  unfold recBound at hb ⊢
  rwa [show (issueOf s c sl t h).t.bufs = t.bufs from enterRegion_bufs ..] at hb
/-- An issue changes nothing that a translation looks at. -/
theorem sameTables_issueOf (s : State) (c sl : Nat) (t : Team) (h : Head) : SameTables s (issueOf s c sl t h).s c :=
  sameTables_trans (sameTables_setTeam s c sl (entered s t h) c) (sameTables_nextId ..)

section brld
variable {x : MM} {s : State} {c sl : Nat} {t : Team} (ci : CanIssue s c sl t x.h) (hw : (Instr.brld x).wf = true)
  (hr : Ready (issueOf s c sl t x.h) [rd (issueOf s c sl t x.h) x.a false] [])
  (ca : CanAccess (issueOf s c sl t x.h) x [lowest (active t x.h)])
include ci hw hr ca

/-- BRLD of an index out of bounds takes the zero record. -/
theorem execBrld_out (hin : brIn (bufOf (issueOf s c sl t x.h).t x.brec.toNat) (idxOf (issueOf s c sl t x.h) x (lowest (active t x.h))) = false) :
    execBrld x s = .next (retired (issueOf s c sl t x.h) false (setTeam (issueOf s c sl t x.h).s c sl
      { countOob (entered s t x.h) 1 with bufs := nset (entered s t x.h).bufs (xNum x.d) 0 })) := by
  have hplan : (planOf (issueOf s c sl t x.h) x (rd (issueOf s c sl t x.h) x.a false) none [lowest (active t x.h)]).ins = [] := by
    rw [planOf_ins_one, hin]
    rfl
  unfold execBrld
  refine issue_go ci hw (recBound_of_canAccess ca) ((withPlan_ready hr ca).trans ?_)
  simp only [List.drop_succ_cons, List.drop_nil, List.head?_nil, hplan]
  rfl

/-- BRLD of an index in bounds sends its read and holds its team. -/
theorem execBrld_in (hin : brIn (bufOf (issueOf s c sl t x.h).t x.brec.toNat) (idxOf (issueOf s c sl t x.h) x (lowest (active t x.h))) = true)
    (hown : Own s c t false [vaOf (issueOf s c sl t x.h) x 32 (lowest (active t x.h))]) :
    ∃ b q, execBrld x s = .next (holdTeam (post b q) c sl
        ⟨.request, s.nextId, issueAddr t, executing t, active t x.h, x.h, false, []⟩) ∧
      TeamOnly s b c sl ∧ getTeam b c sl = some (entered s t x.h) ∧
      ∃ p a, q = homed (planned p (recordRead (issueOf s c sl t x.h) x (lowest (active t x.h))) (s.nextId + 1)) a := by
  obtain ⟨hworld, hheld⟩ := hown _ (List.mem_singleton_self _)
  let i := issueOf s c sl t x.h
  let l := lowest (active t x.h)
  let p := planOf i x (rd i x.a false) none [l]
  let a := homeOf (setTeam i.s c sl i.t) c i.t.ctx false (vaOf i x 32 l)
  have hctx : i.t.ctx = t.ctx := enterRegion_ctx ..
  have htid : i.t.tid = t.tid := enterRegion_tid ..
  have hsame : SameTables s i.s c := sameTables_issueOf s c sl t x.h
  have hput := sameTables_trans hsame (sameTables_setTeam i.s c sl i.t c)
  have hplan : p.ins = [(l, idxOf i x l)] := (planOf_ins_one i x none l).trans (if_pos hin)
  have hheld' : walkHeld i.s c i.t.tid i.t.ctx [vaOf i x 32 l] = false := by
    rw [hctx, htid, walkHeld_sameTables hsame _ rfl]
    exact hheld
  have hworld' : a.1.world = false := by
    show (homeOf _ c i.t.ctx false _).1.world = false
    rw [hctx, homeOf_sameTables hput]
    exact hworld
  have hsend : sendAll i p i.t [recordRead i x l] = .go (post a.2 (homed (planned p (recordRead i x l) i.s.nextId) a.1)) :=
    sendAll_record rfl rfl hheld' hworld'
  obtain ⟨hteam, hget⟩ := homeOf_teamOnly (setTeam i.s c sl i.t) c i.t.ctx false (vaOf i x 32 l) c sl
  have hall : TeamOnly s a.2 c sl := teamOnly_trans (teamOnly_trans (teamOnly_trans (teamOnly_setTeam ..) (teamOnly_nextId ..))
    (teamOnly_setTeam ..)) hteam
  refine ⟨a.2, homed (planned p (recordRead i x l) i.s.nextId) a.1, ?_, hall, hget.trans (getTeam_setTeam_same ..), p, a.1, rfl⟩
  unfold execBrld
  refine issue_hold ci hw (recBound_of_canAccess ca) ((withPlan_ready hr ca).trans ?_)
  show (match p.ins with
    | [] => _
    | e :: _ => match sendAll i p i.t [{ Machine.ordOf x false (mkReq i e.1 (.brld (xNum x.d))) with
        va := brAddr p.buf e.2 32, n := 32, read := true }] with
      | .go s' => Res.hold s' .request
      | r => r) = _
  rw [hplan]
  show (match sendAll i p i.t [recordRead i x l] with
      | .go s' => Res.hold s' .request
      | r => r) = _
  rw [hsend]
end brld

theorem getCore_post (s : State) (r : Req) (c : Nat) : getCore (post s r) c = getCore s c := rfl
theorem getTeam_post (s : State) (r : Req) (c sl : Nat) : getTeam (post s r) c sl = getTeam s c sl := by
  unfold getTeam
  rw [getCore_post]
theorem reqs_post (s : State) (r : Req) : (post s r).reqs = s.reqs ++ [{ r with id := s.nextId }] := rfl

theorem sameMemory_trans {s s' s'' : State} (h : SameMemory s s') (k : SameMemory s' s'') : SameMemory s s'' :=
  ⟨k.mem.trans h.mem, k.wstore.trans h.wstore, k.remote.trans h.remote,
    fun c => ⟨(k.scratch c).1.trans (h.scratch c).1, (k.scratch c).2.1.trans (h.scratch c).2.1, (k.scratch c).2.2.trans (h.scratch c).2.2⟩⟩
/-- A request sent between two states changes no memory and no engine. -/
theorem sameMemory_post {s b s' : State} {c sl : Nat} {q : Req} (h : TeamOnly s b c sl) (k : TeamOnly (post b q) s' c sl) : SameMemory s s' :=
  sameMemory_trans (s' := post b q) ⟨h.mem, h.wstore, h.remote, h.sameMemory.scratch⟩ k.sameMemory
theorem sameEngines_post {s b s' : State} {c sl : Nat} {q : Req} (h : TeamOnly s b c sl) (k : TeamOnly (post b q) s' c sl) : SameEngines s s' := by
  have hsl : s'.slices = s.slices := k.slices.trans h.slices
  refine ⟨fun n => ?_, k.seqSlots.trans h.seqSlots, fun n => (k.sameUnits.wgs n).trans (h.sameUnits.wgs n),
    fun n => (k.sameUnits.chans n).trans (h.sameUnits.chans n), fun n => (k.sameUnits.tops n).trans (h.sameUnits.tops n)⟩
  unfold getSlice
  rw [hsl]
  exact ⟨rfl, rfl⟩

section entered
variable {s : State} {t u0 u : Team} {h : Head} (hc : Carried u0 u)
include hc

/-- A team put back with the registers, or the flags, that its region entry left keeps them over step 8. -/
theorem sameAllRegs_entered (hv : u0.v = (entered s t h).v) (hs : u0.s = (entered s t h).s) (hp : u0.p = (entered s t h).p) :
    SameAllRegs t u := by
  obtain ⟨kv, ks, kp⟩ := hc.maps
  exact sameAllRegs_of_maps (kv.trans (hv.trans (enterRegion_v ..))) (ks.trans (hs.trans (enterRegion_s ..)))
    (kp.trans (hp.trans (enterRegion_p ..)))
theorem sameFlags_entered (hf : u0.fltstat = (entered s t h).fltstat) (hs : u0.sigstat = (entered s t h).sigstat)
    (ho : u0.oobcnt = (entered s t h).oobcnt) : SameFlags t u := by
  obtain ⟨kf, ks, ko⟩ := hc.flags
  exact ⟨kf.trans (hf.trans (entered_fltstat ..)), ks.trans (hs.trans (entered_sigstat ..)), ko.trans (ho.trans (entered_oobcnt ..))⟩
end entered

/-- What a request for a record asks for, and whose it is. -/
theorem askOf_recordRead (s : State) (c sl : Nat) (t : Team) (x : MM) (l : Nat) :
    askOf (recordRead (issueOf s c sl t x.h) x l) =
      askMM t x false true false l (vaOf (issueOf s c sl t x.h) x 32 l) 32 (.brld (xNum x.d)) := by
  rw [askMM_read]
  simp [askOf, recordRead, Machine.ordOf, mkReq]
theorem mine_recordRead (s : State) (c sl : Nat) (t : Team) (x : MM) (l : Nat) : Mine c sl t (recordRead (issueOf s c sl t x.h) x l) := by
  have h := entered_keeps (fun y => (y.tid, y.ctx, y.seq)) s t x.h fun _ _ _ _ _ _ => rfl
  simp only [Prod.mk.injEq] at h
  exact ⟨rfl, rfl, h.1, h.2.1, h.2.2, rfl, rfl, rfl, rfl⟩

/-- The state and the team of a trap at issue may be taken as step 2 found them or left them. -/
theorem trapReady_entered {s : State} {c sl : Nat} {t : Team} {cause : BitVec 8} (h : Head) (ht : getTeam s c sl = some t)
    (hr : TrapReady s c sl t cause) : TrapReady (setTeam s c sl (entered s t h)) c sl (entered s t h) cause := by
  obtain ⟨hlog, hsaved, hentry⟩ := hr
  have hrec : recordOf (setTeam s c sl (entered s t h)) (entered s t h) = recordOf s t := words_issueOf s c sl t h
  refine ⟨?_, (enterRegion_saved ..).trans hsaved, hrec ▸ hentry⟩
  rw [← hlog]
  exact hasLog_congr ht (getTeam_setTeam_same ..) (enterRegion_tid ..) rfl (core_setTeam (·.log) (fun _ _ => rfl) ..)
    (core_setTeam (·.logWait) (fun _ _ => rfl) ..)
theorem tookTrap_of_setTeam {s s' : State} {c sl : Nat} {x u : Team} {ti : TrapInfo} (h : TookTrap (setTeam s c sl x) c sl x ti s' u) :
    TookTrap s c sl x ti s' u :=
  ⟨h.here, h.cause, h.pc, h.mask, h.lpc, h.saved, h.word, h.lanes, h.count, h.info, h.bytes, h.record, h.regs, h.flags, h.live,
    sameMemory_trans (teamOnly_setTeam ..).sameMemory h.memory, h.units,
    fun a b n => (h.others a b n).trans ((teamOnly_setTeam s c sl x).others a b n)⟩

/-- A trap that the body finds, in a state from which the team as step 2 found it can be delivered. -/
theorem issue_trap_here {s : State} {c sl : Nat} {t : Team} {h : Head} (ci : CanIssue s c sl t h) {legal closes : Bool}
    {dyn : State → Nat → Team → Bool} {body : Issue → Res} (hl : legal = true) (hd : dyn s c t = true) {ti : TrapInfo}
    (hb : body (issueOf s c sl t h) = .trap ti) (hr : TrapReady s c sl t ti.cause) :
    ∃ s' u, issue h legal closes dyn body s = .next s' ∧ TookTrap s c sl (entered s t h) ti s' u := by
  obtain ⟨s', u, he, hu⟩ := issue_trap (closes := closes) ci hl hd hb (trapReady_entered h (getTeam_of_curTeam ci.turn) hr)
  exact ⟨s', u, he, tookTrap_of_setTeam hu⟩

/-- The four scalars of a BRMK, and the record that they make (R133). -/
def brmkSrc (i : Issue) (x : RG) (k : Nat) : Rd :=
  rd i { x.a with o := .s (BitVec.ofNat 6 ((match x.a.o with | .s m => m.toNat | _ => 0) + k)) } true
def brmkRec (i : Issue) (x : RG) : BitVec 256 :=
  let w := fun k => ival 64 x.a.m ((brmkSrc i x k).at_ 0)
  BitVec.ofNat 256 (w 0 + 2 ^ 64 * w 1 + 2 ^ 128 * w 2 + 2 ^ 192 * w 3)
theorem execBrmk_eq (x : RG) (s : State) : execBrmk x s = issue x.h (Instr.brmk x).wf false (fun _ _ _ => true)
    (fun i => match gate i [brmkSrc i x 0, brmkSrc i x 1, brmkSrc i x 2, brmkSrc i x 3] [] with
      | some r => r
      | none => if brOk (brmkRec i x) then .go (setTeam i.s i.core i.slot { i.t with bufs := nset i.t.bufs (xNum x.d) (brmkRec i x) })
        else .trap (trapAt 1 i.pc i.exec)) s := rfl

section brmk
variable {x : RG} {s : State} {c sl : Nat} {t : Team} (ci : CanIssue s c sl t x.h) (hw : (Instr.brmk x).wf = true)
  (hr : Ready (issueOf s c sl t x.h) [brmkSrc (issueOf s c sl t x.h) x 0, brmkSrc (issueOf s c sl t x.h) x 1,
    brmkSrc (issueOf s c sl t x.h) x 2, brmkSrc (issueOf s c sl t x.h) x 3] [])
include ci hw hr

/-- A record that passes the check of R34 is bound. -/
theorem execBrmk_ok (hok : brOk (brmkRec (issueOf s c sl t x.h) x) = true) :
    execBrmk x s = .next (retired (issueOf s c sl t x.h) false (setTeam (issueOf s c sl t x.h).s c sl
      { entered s t x.h with bufs := nset (entered s t x.h).bufs (xNum x.d) (brmkRec (issueOf s c sl t x.h) x) })) := by
  rw [execBrmk_eq]
  refine issue_go ci hw rfl ?_
  simp only [gate_ready hr, hok, if_true]
  rfl
/-- One that fails it takes cause 1 at the BRMK. -/
theorem execBrmk_bad (hbad : brOk (brmkRec (issueOf s c sl t x.h) x) = false) (ht : TrapReady s c sl t 1) :
    ∃ s' u, execBrmk x s = .next s' ∧ TookTrap s c sl (entered s t x.h) (trapAt 1 (issueAddr t) (executing t)) s' u := by
  rw [execBrmk_eq]
  refine issue_trap_here ci hw rfl ?_ ht
  simp only [gate_ready hr, hbad, Bool.false_eq_true, if_false]
  rfl
end brmk

/-- Settles O27: BRLD sends its read and holds its team or takes the zero record; BRMK binds its record or traps at itself. -/
theorem bufferRecords : Obligations.BufferRecords := by
  intro s c sl t
  refine ⟨fun x ci hw => ?_, fun x ci hw => ?_⟩
  · intro i l hr ca
    refine ⟨fun hin hown => ?_, fun hin => ?_⟩
    · obtain ⟨b, q, he, hall, hget, p, a, hq⟩ := execBrld_in ci hw hr ca (bufOf_entered s t x.h _ ▸ hin) hown
      have hget' : getTeam (post b q) c sl = some (entered s t x.h) := by rw [getTeam_post, hget]
      obtain ⟨hheld, u, hu, hcar, hhold, hlpc⟩ := holdTeam_spec hget'
        ⟨.request, s.nextId, issueAddr t, executing t, active t x.h, x.h, false, []⟩
      refine ⟨_, u, he, hu, ⟨⟨_, hhold, rfl, rfl, rfl, rfl⟩, hlpc.trans (enterRegion_lpc ..)⟩, sameAllRegs_entered hcar rfl rfl rfl,
        sameFlags_entered hcar rfl rfl rfl, sameMemory_post hall hheld, sameEngines_post hall hheld, fun k n hne => ?_,
        [{ q with id := b.nextId }], ?_, ?_, ?_⟩
      · rw [hheld.others k n hne, getTeam_post, hall.others k n hne]
      · rw [hheld.reqs, reqs_post, hall.reqs]
      · rw [List.map_singleton, hq]
        exact congrArg (fun a => [a]) (askOf_recordRead s c sl t x l)
      · intro r hr
        rw [List.mem_singleton.mp hr, hq]
        exact mine_recordRead s c sl t x l
    · obtain ⟨u, hu, hcar, hadv, -, hall⟩ := retired_setTeam s c sl (t := t)
        (u0 := { countOob (entered s t x.h) 1 with bufs := nset (entered s t x.h).bufs (xNum x.d) 0 }) x.h (enterRegion_lpc ..)
      have hbufs := hcar.control.bufs
      obtain ⟨-, -, hoob⟩ := hcar.flags
      refine ⟨_, u, execBrld_out ci hw hr ca (bufOf_entered s t x.h _ ▸ hin), hu, sameAllRegs_entered hcar rfl rfl rfl, hadv, ?_,
        fun n => ?_, hall.sameMemory, hall.sameUnits, hall.others⟩
      · rw [hoob]
        exact congrArg (satAdd32 · 1) (entered_oobcnt ..)
      · unfold bufOf
        rw [hbufs, bufOf_nset, bufOf_entered]
        rfl
  · intro i m src w r hr
    refine ⟨fun hok => ?_, fun hbad ht => ?_⟩
    · obtain ⟨u, hu, hcar, hadv, -, hall⟩ := retired_setTeam s c sl (t := t)
        (u0 := { entered s t x.h with bufs := nset (entered s t x.h).bufs (xNum x.d) r }) x.h (enterRegion_lpc ..)
      have hbufs := hcar.control.bufs
      refine ⟨_, u, execBrmk_ok ci hw hr hok, hu, sameAllRegs_entered hcar rfl rfl rfl, sameFlags_entered hcar rfl rfl rfl, hadv,
        fun n => ?_, hall.sameMemory, hall.sameUnits, hall.others⟩
      · unfold bufOf
        rw [hbufs, bufOf_nset, bufOf_entered]
        rfl
    · exact execBrmk_bad ci hw hr hbad ht

end Sys2Proof.Proofs

/-! PROOFS. Read-modify-writes, exact accumulators and queue appends at their home slice (O44). -/

namespace Sys2Proof.Proofs

open Sys2Proof.Machine Sys2Proof.Safety Sys2Proof.Laws

/-! ### A release of no bytes (R219, R220, R248) -/

/-- An XRED.fp32 of 1.0 to the accumulator at physical address 0 that releases at scope CORE, but whose request spans no bytes, where an XRED's
spans the 48 of its accumulator (R210). -/
def emptyRelease : Req :=
  { id := 0, grp := 0, core := 0, slot := 0, tid := 0, ctx := 0, seq := 0, pc := 0, rgncnt := 0, lane := 0, act := 1, va := 0,
    loc := some (.hbm 0), n := 0, write := true, read := true, strong := true, acq := false, rel := true, scope := .core, relScope := .core,
    sent := false, shLocs := [], shadow := none, shadowVa := none, fault := 0, info := 0, shFault := 0, logged := none, done := false,
    drains := [], val := 0, vtag := 0, born := 0, img := default, kind := .xred .f32 0x3F800000 24, word := 0, cache := 2, got := [] }
/-- A machine after reset with this one request in flight. -/
def releasing : State := { State.reset with reqs := [emptyRelease] }

theorem isNarrow_emptyRelease : isNarrow emptyRelease = true := rfl
theorem canPerform_emptyRelease : canPerform releasing emptyRelease = true := by decide +kernel
theorem sameStep_emptyRelease : sameStep releasing emptyRelease = [emptyRelease] := by decide +kernel
theorem noDrain_emptyRelease : NoDrain releasing emptyRelease (.hbm 0) := ⟨rfl, .inl rfl⟩

/-- Its event performs that request alone. -/
theorem exactContribution_releasing : exec (.exactContribution 0) releasing = .next (performXred releasing emptyRelease) := by
  have hreq : getReq releasing 0 = some emptyRelease := rfl
  have hkind : emptyRelease.kind = .xred .f32 0x3F800000 24 := rfl
  change execExactContribution 0 releasing = _
  simp only [execExactContribution, hreq, hkind, canPerform_emptyRelease, sameStep_emptyRelease, if_true, List.foldl_cons, List.foldl_nil]

/-- No bytes at the start of a line touch no line, so no record takes the release up. -/
theorem relRec_performXred_emptyRelease : relRec (performXred releasing emptyRelease) (.hbm 0) = ⟨[], false⟩ := by decide +kernel

/-- Refutes O44, by what its clauses say of the release record. `RmwRecord` puts a narrow release into the record of its line, and the model enters
it into the lines that the request's `n` bytes touch; no premise says that `n` is the size of the accumulator, or that it is not 0. In `releasing`
it is 0 at the start of a line: the contribution is added, and the record of that line stays empty. -/
theorem not_readModifyWrites : ¬ Obligations.ReadModifyWrites := by
  unfold Obligations.ReadModifyWrites
  intro h
  obtain ⟨-, contributions, -⟩ := h releasing emptyRelease (.hbm 0) rfl trivial canPerform_emptyRelease noDrain_emptyRelease
    sameStep_emptyRelease
  obtain ⟨s', hnext, -, -, -, hrec, -⟩ := contributions .f32 0x3F800000 24 rfl rfl
  have hs : performXred releasing emptyRelease = s' := by
    injection exactContribution_releasing.symm.trans hnext
  have hin : observedOf emptyRelease 0 ∈ (relRec s' (.hbm 0)).named := by
    rw [RmwRecord, if_pos isNarrow_emptyRelease] at hrec
    exact hrec 0 rfl
  rw [← hs, relRec_performXred_emptyRelease] at hin
  exact List.not_mem_nil hin

end Sys2Proof.Proofs

/-! PROOFS. The instruction word (O57, O56): the word of every legal instruction decodes to it. -/

namespace Sys2Proof.Proofs

open Sys2Proof.Machine Sys2Proof.Safety Sys2Proof.Laws

/-! ### The 12 bytes of a word (R64) -/

/-- Packed fields fit the sum of their widths. -/
theorem packL_lt : ∀ ws vs : List Nat, packL ws vs < 2 ^ ws.sum
  | [], _ => Nat.two_pow_pos _
  | w :: ws, [] => Nat.two_pow_pos _
  | w :: ws, v :: vs => by
    have hv : v % 2 ^ w < 2 ^ w := Nat.mod_lt _ (Nat.two_pow_pos w)
    rw [List.sum_cons, Nat.pow_add]
    calc v % 2 ^ w + 2 ^ w * packL ws vs < 2 ^ w * (packL ws vs + 1) := by rw [Nat.mul_add_one]; omega
      _ ≤ 2 ^ w * 2 ^ ws.sum := Nat.mul_le_mul_left _ (packL_lt ws vs)

theorem wordOf_lt (maj fn : Nat) (b : Body) : wordOf maj fn b < 2 ^ 96 := packL_lt wordFields _

theorem length_bytesOfWord (w : Nat) : (bytesOfWord w).length = 12 := by
  simp only [bytesOfWord, List.length_append, length_leBytes]

/-- The three parts of a word stand highest first. -/
theorem wordOfBytes_parts {p1 p2 p3 : List Byte} (h1 : p1.length = 4) (h2 : p2.length = 4) (h3 : p3.length = 4) (rest : List Byte) :
    wordOfBytes (p1 ++ (p2 ++ (p3 ++ rest))) = leNat p1 * 2 ^ 64 + leNat p2 * 2 ^ 32 + leNat p3 := by
  have h4 : (p1 ++ (p2 ++ (p3 ++ rest))).drop 4 = p2 ++ (p3 ++ rest) := List.drop_left' h1
  have h8 : (p1 ++ (p2 ++ (p3 ++ rest))).drop 8 = p3 ++ rest := by
    rw [← List.drop_drop (i := 4) (j := 4), h4, List.drop_left' h2]
  rw [wordOfBytes, h4, h8, List.take_left' h1, List.take_left' h2, List.take_left' h3]
/-- A word is read back from its 12 bytes, whatever follows them. -/
theorem wordOfBytes_bytesOfWord {w : Nat} (h : w < 2 ^ 96) (rest : List Byte) : wordOfBytes (bytesOfWord w ++ rest) = w := by
  unfold bytesOfWord
  rw [List.append_assoc, List.append_assoc, wordOfBytes_parts (length_leBytes ..) (length_leBytes ..) (length_leBytes ..)]
  simp only [leNat_leBytes]
  omega

/-! ### Codes and operands read back (R46, R66, R73, R75, R81) -/

theorem rndOf_rndNum (r : Rnd) : rndOf (rndNum r) = some r := by cases r <;> rfl
theorem xlOf_xlNum (x : Xl) : xlOf (xlNum x) = some x := by cases x <;> rfl
theorem scopeOf_scopeNum (s : Scope) : scopeOf (scopeNum s) = some s := by cases s <;> rfl
theorem ordOf_ordNum (o : Ord) : ordOf (ordNum o) = o := by cases o <;> rfl
theorem sizeOf_sizeNum (z : Size) : sizeOf' (sizeNum z) = some z := by cases z <;> rfl
theorem bitNat_beq_one (b : Bool) : (bitNat b == 1) = b := by cases b <;> rfl

theorem bitNat_lt (b : Bool) : bitNat b < 2 := by cases b <;> decide
theorem rndNum_lt (r : Rnd) : rndNum r < 8 := by cases r <;> decide
theorem xlNum_lt (x : Xl) : xlNum x < 8 := by cases x <;> decide
theorem scopeNum_lt (s : Scope) : scopeNum s < 8 := by cases s <;> decide
theorem ordNum_lt (o : Ord) : ordNum o < 4 := by cases o <;> decide
theorem sizeNum_lt (z : Size) : sizeNum z < 8 := by cases z <;> decide
theorem opdCls_lt (o : Opd) : opdCls o < 4 := by cases o <;> simp [opdCls]
theorem opdNum_lt (o : Opd) : opdNum o < 256 := by cases o <;> simp only [opdNum] <;> omega

/-- Class and number name the operand they come from (R66). -/
theorem opdOf_opdNum (o : Opd) : opdOf (opdCls o) (opdNum o) = some o := by
  cases o with
  | v n => simp [opdOf, opdCls, opdNum]
  | s n => simp [opdOf, opdCls, opdNum, n.isLt]
  | p n => simp [opdOf, opdCls, opdNum, n.isLt]
  | lpc => rfl
  | c n =>
    have h := n.isLt
    have h1 : ¬ n.toNat + 32 = 16 := by omega
    have h2 : n.toNat + 32 < 64 := by omega
    simp [opdOf, opdCls, opdNum, h1, h2]
  | x n => simp [opdOf, opdCls, opdNum, n.isLt]
/-- The guard and hints are read back from their bits. -/
theorem head_fields (h : Head) :
    (⟨bitNat h.gn == 1, BitVec.ofNat 3 h.gp.toNat, bitNat h.fin == 1, bitNat h.rgn == 1, bitNat h.yld == 1⟩ : Head) = h := by
  simp only [bitNat_beq_one, BitVec.ofNat_toNat, BitVec.setWidth_eq]
theorem srcOf_fields (a : Src) : srcOf (opdCls a.o) (opdNum a.o) (bitNat a.e) (bitNat a.m) = some a := by
  simp only [srcOf, opdOf_opdNum, bitNat_beq_one]

/-! ### Formats read back (R72 to R77) -/

theorem unpackL_rgFields (x : RG) : unpackL rgFields (xBits (.rg x)) =
    [x.sub.toNat, 0, x.lane.toNat, xlNum x.xl, rndNum x.rnd, x.slot.toNat, bitNat x.c.m, opdNum x.c.o, opdCls x.c.o, bitNat x.c.e] :=
  unpackL_packL _ _ ⟨x.sub.isLt, by decide, x.lane.isLt, xlNum_lt _, rndNum_lt _, x.slot.isLt, bitNat_lt _, opdNum_lt _, opdCls_lt _,
    bitNat_lt _, trivial⟩
theorem unpackL_imFields (x : IM) : unpackL imFields (xBits (.im x)) = [x.imm.toNat, x.md.toNat] :=
  unpackL_packL _ _ ⟨x.imm.isLt, x.md.isLt, trivial⟩
theorem unpackL_mmFields (x : MM) : unpackL mmFields (xBits (.mm x)) =
    [x.ofs.toNat, x.cache.toNat, x.slot.toNat, sizeNum x.size, ordNum x.ord, scopeNum x.scope, x.brec.toNat] :=
  unpackL_packL _ _ ⟨x.ofs.isLt, x.cache.isLt, x.slot.isLt, sizeNum_lt _, ordNum_lt _, scopeNum_lt _, x.brec.isLt, trivial⟩
theorem unpackL_enFields (x : EN) : unpackL enFields (xBits (.en x)) =
    [x.imm.toNat, x.chan.toNat, x.slot.toNat, bitNat x.rel, bitNat x.acq, scopeNum x.scope, 0] :=
  unpackL_packL _ _ ⟨x.imm.isLt, x.chan.isLt, x.slot.isLt, bitNat_lt _, bitNat_lt _, scopeNum_lt _, by decide, trivial⟩

theorem rgOf_xBits (x : RG) : rgOf x.h x.d x.a x.b (xBits (.rg x)) = .ok x := by
  simp only [rgOf, unpackL_rgFields, srcOf_fields, rndOf_rndNum, xlOf_xlNum, ne_eq, not_true_eq_false, if_false, BitVec.ofNat_toNat,
    BitVec.setWidth_eq]
theorem imOf_xBits (x : IM) : imOf x.h x.d x.a noSrc (xBits (.im x)) = .ok x := by
  have hz : srcZero noSrc = true := rfl
  simp only [imOf, unpackL_imFields, hz, if_true, BitVec.ofNat_toNat, BitVec.setWidth_eq]
theorem mmOf_xBits (x : MM) : mmOf x.h x.d x.a x.b (xBits (.mm x)) = .ok x := by
  simp only [mmOf, unpackL_mmFields, scopeOf_scopeNum, sizeOf_sizeNum, ordOf_ordNum, BitVec.ofNat_toNat, BitVec.setWidth_eq]
theorem enOf_xBits (x : EN) : enOf x.h x.d x.a x.b (xBits (.en x)) = .ok x := by
  simp only [enOf, unpackL_enFields, scopeOf_scopeNum, bitNat_beq_one, ne_eq, not_true_eq_false, if_false, BitVec.ofNat_toNat,
    BitVec.setWidth_eq]
theorem brOf_xBits (x : BR) : brOf x.h x.d noSrc noSrc (xBits (.br x)) = .ok x := by
  have hz : (srcZero noSrc && srcZero noSrc) = true := rfl
  simp only [brOf, xBits, hz, if_true, BitVec.ofNat_toNat, BitVec.setWidth_eq]

theorem xBits_lt (b : Body) : xBits b < 2 ^ 38 := by
  cases b with
  | rg x => exact packL_lt rgFields _
  | im x => exact packL_lt imFields _
  | mm x => exact packL_lt mmFields _
  | en x => exact packL_lt enFields _
  | br x => exact x.ofs.isLt

/-- The fields of the word of a body (R65). -/
theorem unpackL_wordOf {maj fn : Nat} (hm : maj < 256) (hf : fn < 64) (b : Body) : unpackL wordFields (wordOf maj fn b) =
    [xBits b, bitNat (bodyB b).m, opdNum (bodyB b).o, opdCls (bodyB b).o, bitNat (bodyB b).e, bitNat (bodyA b).m, opdNum (bodyA b).o,
      opdCls (bodyA b).o, bitNat (bodyA b).e, opdNum (bodyD b), opdCls (bodyD b), 0, bitNat (bodyHead b).yld, bitNat (bodyHead b).rgn,
      bitNat (bodyHead b).fin, (bodyHead b).gp.toNat, bitNat (bodyHead b).gn, fn, maj] :=
  unpackL_packL _ _ ⟨xBits_lt b, bitNat_lt _, opdNum_lt _, opdCls_lt _, bitNat_lt _, bitNat_lt _, opdNum_lt _, opdCls_lt _, bitNat_lt _,
    opdNum_lt _, opdCls_lt _, by decide, bitNat_lt _, bitNat_lt _, bitNat_lt _, (bodyHead b).gp.isLt, bitNat_lt _, hf, hm, trivial⟩

/-! ### The row of an instruction (R79 to R88) -/

/-- The instruction that a row makes of the fields of its format. -/
def madeBy : Row → Body → Option Instr
  | .rg f, .rg x => f x
  | .im f, .im x => f x
  | .mm f, .mm x => f x
  | .en f, .en x => f x
  | .br f, .br x => f x
  | _, _ => none

/-- A word whose MAJ and FN select a row that makes a legal instruction of its fields decodes to that instruction. -/
theorem decodeWord_wordOf {maj fn : Nat} (hm : maj < 256) (hf : fn < 64) {b : Body} {r : Row} {i : Instr} (hr : rowOf maj fn = some r)
    (hi : madeBy r b = some i) (hw : i.wf = true) : decodeWord (wordOf maj fn b) = .ok i := by
  have hc : checked (some i) = .ok i := by simp only [checked, hw, if_true]
  simp only [decodeWord, unpackL_wordOf hm hf, opdOf_opdNum, srcOf_fields, head_fields, hr, ne_eq, not_true_eq_false, if_false]
  cases b <;> cases r <;> simp only [madeBy, reduceCtorEq] at hi
  all_goals simp only [bodyHead, bodyD, bodyA, bodyB, rgOf_xBits, imOf_xBits, mmOf_xBits, enOf_xBits, brOf_xBits, hi, hc]

/-! Fields of FN (R81): width, signedness, condition, formats. -/

theorem condOf_condNum (c : Cond) : condOf (condNum c) = some c := by cases c <;> rfl
theorem cvtOf_cvtNum (t : CvtT) : cvtOf (cvtNum t) = some t := by cases t <;> rfl
theorem fwOf_fwNum (f : FW) : fwOf (fwNum f) = some f := by cases f <;> rfl
theorem condNum_lt (c : Cond) : condNum c < 8 := by cases c <;> decide
theorem cvtNum_lt (t : CvtT) : cvtNum t < 8 := by cases t <;> decide
theorem fwNum_lt (f : FW) : fwNum f < 8 := by cases f <;> decide
theorem widthNum_lt (w : Width) : widthNum w < 2 := by cases w <;> decide

theorem fnWidth_even (k : Nat) (w : Width) : fnWidth (2 * k + widthNum w) = w := by
  cases w <;> simp [fnWidth, widthNum, Nat.add_mod]
theorem icmp_fn_lt (c : Cond) (g : Bool) (w : Width) : 8 * condNum c + 2 * bitNat g + widthNum w < 64 := by
  have hc := condNum_lt c
  have hg := bitNat_lt g
  have hw := widthNum_lt w
  omega
theorem fcmp_fn_lt (c : Cond) (f : FW) : 8 * condNum c + fwNum f < 64 := by
  have hc := condNum_lt c
  have hf := fwNum_lt f
  omega
theorem cvt_fn_lt (d e : CvtT) : 8 * cvtNum d + cvtNum e < 64 := by
  have hd := cvtNum_lt d
  have he := cvtNum_lt e
  omega
theorem icmpRow_fn (imm : Bool) (c : Cond) (g : Bool) (w : Width) : icmpRow imm (8 * condNum c + 2 * bitNat g + widthNum w) =
    some (if imm then .im fun x => some (.icmpIm c g w x) else .rg fun x => some (.icmp c g w x)) := by
  have hc := condNum_lt c
  have hg := bitNat_lt g
  have hw := widthNum_lt w
  have h1 : (8 * condNum c + 2 * bitNat g + widthNum w) / 8 = condNum c := by omega
  have h2 : (8 * condNum c + 2 * bitNat g + widthNum w) % 8 < 4 := by omega
  have h3 : (8 * condNum c + 2 * bitNat g + widthNum w) / 2 % 2 = bitNat g := by omega
  have h4 : 8 * condNum c + 2 * bitNat g + widthNum w = 2 * (4 * condNum c + bitNat g) + widthNum w := by omega
  have h5 : fnWidth (8 * condNum c + 2 * bitNat g + widthNum w) = w := by rw [h4, fnWidth_even]
  simp only [icmpRow, h1, condOf_condNum, if_pos h2, h3, bitNat_beq_one, h5]
theorem fcmpRow_fn (c : Cond) (f : FW) : fcmpRow (8 * condNum c + fwNum f) = some (.rg fun x => some (.fcmp c f x)) := by
  have hf := fwNum_lt f
  have h1 : (8 * condNum c + fwNum f) / 8 = condNum c := by omega
  have h2 : (8 * condNum c + fwNum f) % 8 = fwNum f := by omega
  simp only [fcmpRow, h1, h2, condOf_condNum, fwOf_fwNum]
theorem cvtRow_fn (d e : CvtT) : cvtRow (8 * cvtNum d + cvtNum e) = some (.rg fun x => some (.cvt d e x)) := by
  have he := cvtNum_lt e
  have h1 : (8 * cvtNum d + cvtNum e) / 8 = cvtNum d := by omega
  have h2 : (8 * cvtNum d + cvtNum e) % 8 = cvtNum e := by omega
  simp only [cvtRow, h1, h2, cvtOf_cvtNum]

/-! The fields that select among instructions of one MAJ and FN (R123, R362, R392, R408), as a legal word has them. -/

theorem legalNone_sub {k : Nat} {x : RG} (h : legalNone k x = true) : x.sub = BitVec.ofNat 8 k := by
  simp only [legalNone, Bool.and_eq_true, beq_iff_eq] at h
  obtain ⟨-, hk⟩ := h
  rw [← hk, BitVec.ofNat_toNat, BitVec.setWidth_eq]
theorem legalSeqA_sub {p : Bool} {k : Nat} {x : RG} (h : legalSeqA p k x = true) : x.sub = BitVec.ofNat 8 k := by
  simp only [legalSeqA, Bool.and_eq_true, beq_iff_eq] at h
  obtain ⟨-, hk⟩ := h
  rw [← hk, BitVec.ofNat_toNat, BitVec.setWidth_eq]
theorem legalSeqrdTrap_sub {x : RG} (h : legalSeqrdTrap x = true) : x.sub = 2 := by
  simp only [legalSeqrdTrap, Bool.and_eq_true, beq_iff_eq] at h
  exact h.2
theorem legalSeqwpEnt_sub {x : RG} (h : legalSeqwpEnt x = true) : x.sub = 0 := by
  simp only [legalSeqwpEnt, Bool.and_eq_true, beq_iff_eq] at h
  exact h.2
theorem legalSeqwpCtr_sub {x : RG} (h : legalSeqwpCtr x = true) : x.sub = 1 := by
  simp only [legalSeqwpCtr, Bool.and_eq_true, beq_iff_eq] at h
  exact h.2
theorem legalSeqwpNrec_sub {x : RG} (h : legalSeqwpNrec x = true) : x.sub = 3 := by
  simp only [legalSeqwpNrec, Bool.and_eq_true, beq_iff_eq] at h
  exact h.2
theorem legalTlbinv_imm {k : Nat} {x : EN} (h : legalTlbinv k x = true) : x.imm.toNat / 64 = k := by
  simp only [legalTlbinv, Bool.and_eq_true, beq_iff_eq] at h
  obtain ⟨⟨-, hk⟩, -⟩ := h
  exact hk
theorem legalDbg_imm {k : Nat} {x : IM} (h : legalDbg k x = true) : x.imm.toNat = k := by
  simp only [legalDbg, Bool.and_eq_true, beq_iff_eq] at h
  exact h.2

/-- MAJ and FN of a legal instruction fit their fields and select the row that makes it. -/
theorem rowOf_parts {i : Instr} {maj fn : Nat} {b : Body} (hp : parts i = some (maj, fn, b)) (hw : i.wf = true) :
    maj < 256 ∧ fn < 64 ∧ ∃ r, rowOf maj fn = some r ∧ madeBy r b = some i := by
  cases i <;> cases hp
  case iadd.refl w _ | iaddIm.refl w _ | isub.refl w _ | isubIm.refl w _ | imul.refl w _ | imulIm.refl w _ | imulh.refl w _ | imad.refl w _
    | idiv.refl w _ | irem.refl w _ | imin.refl w _ | iminIm.refl w _ | imax.refl w _ | imaxIm.refl w _ | iabs.refl w _ | and.refl w _
    | andIm.refl w _ | or.refl w _ | orIm.refl w _ | xor.refl w _ | xorIm.refl w _ | andn.refl w _ | andnIm.refl w _ | shl.refl w _
    | shlIm.refl w _ | shr.refl w _ | shrIm.refl w _ | sar.refl w _ | sarIm.refl w _ | rol.refl w _ | rolIm.refl w _ | popc.refl w _
    | clz.refl w _ | brev.refl w _ | bfx.refl w _ | bfi.refl w _ | sel.refl w _ | mov.refl w _ | movi.refl w _ | movh.refl w _ =>
    cases w <;> exact ⟨by decide, by decide, _, rfl, by rfl⟩
  case icmp.refl c g w x => exact ⟨by decide, icmp_fn_lt c g w, _, icmpRow_fn false c g w, rfl⟩
  case icmpIm.refl c g w x => exact ⟨by decide, icmp_fn_lt c g w, _, icmpRow_fn true c g w, rfl⟩
  case fcmp.refl c f x => exact ⟨by decide, fcmp_fn_lt c f, _, fcmpRow_fn c f, rfl⟩
  case cvt.refl d e x => exact ⟨by decide, cvt_fn_lt d e, _, cvtRow_fn d e, rfl⟩
  case fclass.refl f x => cases f <;> exact ⟨by decide, by decide, _, rfl, by rfl⟩
  case hadd2.refl h x | hmul2.refl h x | hfma2.refl h x => cases h <;> exact ⟨by decide, by decide, _, rfl, by rfl⟩
  case psig.refl c x => cases c <;> exact ⟨by decide, by decide, _, rfl, by rfl⟩
  case eretRestart.refl x => exact ⟨by decide, by decide, _, rfl, by simp [madeBy, eretOf, legalNone_sub (Bool.and_eq_true_iff.mp hw).1]⟩
  case eretSkip.refl x => exact ⟨by decide, by decide, _, rfl, by simp [madeBy, eretOf, legalNone_sub (Bool.and_eq_true_iff.mp hw).1]⟩
  case seqrdNext.refl x | seqrdPeek.refl x => exact ⟨by decide, by decide, _, rfl, by simp [madeBy, seqrdOf, legalSeqA_sub hw]⟩
  case seqrdTrap.refl x => exact ⟨by decide, by decide, _, rfl, by simp [madeBy, seqrdOf, legalSeqrdTrap_sub hw]⟩
  case seqwpEnt.refl x => exact ⟨by decide, by decide, _, rfl, by simp [madeBy, seqwpOf, legalSeqwpEnt_sub hw]⟩
  case seqwpCtr.refl x => exact ⟨by decide, by decide, _, rfl, by simp [madeBy, seqwpOf, legalSeqwpCtr_sub hw]⟩
  case seqwpInit.refl x => exact ⟨by decide, by decide, _, rfl, by simp [madeBy, seqwpOf, legalSeqA_sub hw]⟩
  case seqwpNrec.refl x => exact ⟨by decide, by decide, _, rfl, by simp [madeBy, seqwpOf, legalSeqwpNrec_sub hw]⟩
  case seqrelGo.refl x | seqrelStop.refl x | seqrelFree.refl x => exact ⟨by decide, by decide, _, rfl, by simp [madeBy, seqrelOf, legalSeqA_sub hw]⟩
  case tlbinvPage.refl x | tlbinvCtx.refl x | tlbinvAll.refl x => exact ⟨by decide, by decide, _, rfl, by simp [madeBy, tlbinvOf, legalTlbinv_imm hw]⟩
  case dbgbrkHalt.refl x | dbgbrkResume.refl x | dbgbrkStep.refl x | dbgbrkBack.refl x | dbgbrkBrk.refl x | dbgbrkClr.refl x |
    dbgbrkDbg.refl x => exact ⟨by decide, by decide, _, rfl, by simp only [madeBy, dbgOf, legalDbg_imm hw]⟩
  all_goals exact ⟨by decide, by decide, _, rfl, by rfl⟩

/-- The word of a legal instruction decodes to it, whatever follows its bytes. -/
theorem decode_wordOf {i : Instr} {maj fn : Nat} {b : Body} (hp : parts i = some (maj, fn, b)) (hw : i.wf = true) (rest : List Byte) :
    decode (bytesOfWord (wordOf maj fn b) ++ rest) = .ok (i, rest) := by
  obtain ⟨hm, hf, r, hr, hi⟩ := rowOf_parts hp hw
  have h12 := length_bytesOfWord (wordOf maj fn b)
  have hlen : ¬ (bytesOfWord (wordOf maj fn b) ++ rest).length < 12 := by rw [List.length_append, h12]; omega
  simp only [decode, hlen, if_false, wordOfBytes_bytesOfWord (wordOf_lt ..), decodeWord_wordOf hm hf hr hi hw, List.drop_left' h12]

/-- Settles O57: the fields of a legal instruction fit the widths of its word, its codes and operands read back, and its MAJ and FN select
the row that makes it of its fields. -/
theorem decodeEncode : Obligations.DecodeEncode := by
  intro i rest hw hp
  obtain ⟨⟨maj, fn, b⟩, hparts⟩ := Option.ne_none_iff_exists'.mp hp
  exact ⟨wordOf maj fn b, by simp only [encode, hparts], wordOf_lt .., length_bytesOfWord _, decode_wordOf hparts hw rest⟩

/-! ### Words written out (R64, R65, R72 to R88) -/

/-- A word that encodes a legal instruction decodes to it. -/
theorem decode_of_encode {i : Instr} {w : Nat} (hw : i.wf = true) (he : encode i = some w) : decode (bytesOfWord w) = .ok (i, []) := by
  have hp : parts i ≠ none := fun hn => by simp [encode, hn] at he
  obtain ⟨w', hw', -, -, hd⟩ := decodeEncode i [] hw hp
  obtain rfl : w' = w := Option.some.inj (hw'.symm.trans he)
  rwa [List.append_nil] at hd

/-- Settles O56: each word is the encoding of its instruction, which is legal, so it decodes to that instruction. -/
theorem decodeWords : Obligations.DecodeWords := by
  unfold Obligations.DecodeWords
  intro hd no reads
  refine ⟨?_, ?_, ?_, ?_, ?_, ?_, ?_, ?_, ?_, ?_, ?_⟩
  · exact decode_of_encode (w := 0x200CA002_00100180_40000000) (by decide) (by decide)
  all_goals exact decode_of_encode (by decide) (by decide)

end Sys2Proof.Proofs

/-! PROOFS. Immediate integer forms (O4): the functions of the integer instructions on bit vectors. -/

namespace Sys2Proof.Proofs

open Sys2Proof.Machine Sys2Proof.Safety Sys2Proof.Laws

/-! ### Integer functions on bit vectors (R107, R109) -/

/-- The function `f` of the integer instructions is `v` on the bit vectors of width `n`. -/
def Computes (f : Nat → Nat → Nat → Nat → Int) {n : Nat} (v : BitVec n → BitVec n → BitVec n) : Prop :=
  ∀ a b c, a < 2 ^ n → b < 2 ^ n → BitVec.ofInt n (f n a b c) = v (BitVec.ofNat n a) (BitVec.ofNat n b)

theorem toNat_ofNat_lt {n a : Nat} (h : a < 2 ^ n) : (BitVec.ofNat n a).toNat = a := by
  rw [BitVec.toNat_ofNat, Nat.mod_eq_of_lt h]
/-- The signed reading of an operand. -/
theorem sx_eq_toInt {n : Nat} (hn : 0 < n) (a : Nat) : sx a n = (BitVec.ofNat n a).toInt := by
  obtain ⟨m, rfl⟩ := Nat.exists_eq_succ_of_ne_zero hn.ne'
  have hp : 2 ^ (m + 1) = 2 * 2 ^ m := by rw [Nat.pow_succ, Nat.mul_comm]
  rw [BitVec.toInt_eq_toNat_cond, BitVec.toNat_ofNat]
  simp only [sx, Nat.succ_eq_add_one, Nat.add_sub_cancel, hp]
  push_cast
  split_ifs <;> omega
theorem sv_lt_iff {n a b : Nat} (hn : 0 < n) (ha : a < 2 ^ n) (hb : b < 2 ^ n) (sg : Bool) : sv sg a n < sv sg b n ↔
    (if sg then BitVec.slt (BitVec.ofNat n a) (BitVec.ofNat n b) else BitVec.ult (BitVec.ofNat n a) (BitVec.ofNat n b)) = true := by
  cases sg with
  | true => simp only [sv, if_true, sx_eq_toInt hn, BitVec.slt_iff_toInt_lt]
  | false => simp only [sv, Bool.false_eq_true, if_false, BitVec.ult_iff_lt, BitVec.lt_def, toNat_ofNat_lt ha, toNat_ofNat_lt hb, Int.ofNat_lt]

section
variable {n : Nat}

theorem computes_fAdd : Computes fAdd fun a b : BitVec n => a + b := fun a b c _ _ => by
  simp only [fAdd, BitVec.ofInt_add, BitVec.ofInt_natCast]
theorem computes_fSub : Computes fSub fun a b : BitVec n => a - b := fun a b c _ _ => by
  simp only [fSub, sub_eq_add_neg, BitVec.ofInt_add, BitVec.ofInt_neg, BitVec.ofInt_natCast]
theorem computes_fMul : Computes fMul fun a b : BitVec n => a * b := fun a b c _ _ => by
  simp only [fMul, BitVec.ofInt_mul, BitVec.ofInt_natCast]
theorem computes_fMin (hn : 0 < n) (sg : Bool) :
    Computes (fMin sg) fun a b : BitVec n => if (if sg then BitVec.slt b a else BitVec.ult b a) then b else a := fun a b c ha hb => by
  simp only [fMin, sv_lt_iff hn hb ha, apply_ite (BitVec.ofInt n), BitVec.ofInt_natCast]
theorem computes_fMax (hn : 0 < n) (sg : Bool) :
    Computes (fMax sg) fun a b : BitVec n => if (if sg then BitVec.slt a b else BitVec.ult a b) then b else a := fun a b c ha hb => by
  simp only [fMax, sv_lt_iff hn ha hb, apply_ite (BitVec.ofInt n), BitVec.ofInt_natCast]
theorem computes_fAnd : Computes fAnd fun a b : BitVec n => a &&& b := fun a b c _ _ => by
  simp only [fAnd, BitVec.ofInt_natCast, BitVec.ofNat_and]
theorem computes_fOr : Computes fOr fun a b : BitVec n => a ||| b := fun a b c _ _ => by
  simp only [fOr, BitVec.ofInt_natCast, BitVec.ofNat_or]
theorem computes_fXor : Computes fXor fun a b : BitVec n => a ^^^ b := fun a b c _ _ => by
  simp only [fXor, BitVec.ofInt_natCast, BitVec.ofNat_xor]
theorem computes_fAndn : Computes fAndn fun a b : BitVec n => a &&& ~~~ b := fun a b c _ hb => by
  have hnot : BitVec.ofNat n (2 ^ n - 1 - b) = ~~~ BitVec.ofNat n b := by
    apply BitVec.eq_of_toNat_eq
    rw [BitVec.toNat_not, toNat_ofNat_lt hb, toNat_ofNat_lt (by omega)]
  simp only [fAndn, BitVec.ofInt_natCast, BitVec.ofNat_and, hnot]
theorem computes_fShl : Computes fShl fun a b : BitVec n => a <<< b.toNat := fun a b c _ hb => by
  dsimp only
  rw [toNat_ofNat_lt hb]
  unfold fShl
  split
  · next h => rw [BitVec.shiftLeft_eq_zero h]; rfl
  · apply BitVec.eq_of_toNat_eq
    rw [BitVec.ofInt_natCast, BitVec.toNat_shiftLeft, BitVec.toNat_ofNat, BitVec.toNat_ofNat, Nat.shiftLeft_eq, Nat.mod_mul_mod]
theorem computes_fShr : Computes fShr fun a b : BitVec n => a >>> b.toNat := fun a b c ha hb => by
  dsimp only
  rw [toNat_ofNat_lt hb]
  apply BitVec.eq_of_toNat_eq
  rw [BitVec.toNat_ushiftRight, toNat_ofNat_lt ha, Nat.shiftRight_eq_div_pow]
  unfold fShr
  split
  · next h =>
    rw [Nat.div_eq_of_lt (ha.trans_le (Nat.pow_le_pow_right (by decide) h))]
    rfl
  · rw [BitVec.ofInt_natCast, toNat_ofNat_lt ((Nat.div_le_self ..).trans_lt ha)]
/-- A shift by the width or more leaves copies of the sign. -/
theorem computes_fSar (hn : 0 < n) : Computes fSar fun a b : BitVec n => a.sshiftRight b.toNat := fun a b c _ hb => by
  have key : fSar n a b c = (BitVec.ofNat n a).toInt >>> b := by
    rw [Int.shiftRight_eq_div_pow, ← sx_eq_toInt hn]
    unfold fSar
    split
    · next h =>
      have hlo := BitVec.le_toInt (BitVec.ofNat n a)
      have hhi := BitVec.toInt_lt (x := BitVec.ofNat n a)
      have hpow : (2 : Int) ^ (n - 1) < ((2 ^ b : Nat) : Int) := by exact_mod_cast Nat.pow_lt_pow_right (by decide) (by omega)
      rw [← sx_eq_toInt hn] at hlo hhi
      split
      · exact (Int.ediv_eq_neg_one_of_neg_of_le (by omega) (by omega)).symm
      · exact (Int.ediv_eq_zero_of_lt (by omega) (by omega)).symm
    · rfl
  dsimp only
  rw [toNat_ofNat_lt hb, key]
  rfl
theorem computes_fRol : Computes fRol fun a b : BitVec n => a.rotateLeft (b.toNat % n) := fun a b c ha hb => by
  obtain rfl | hn := Nat.eq_zero_or_pos n
  · exact Subsingleton.elim _ _
  have hr : b % n < n := Nat.mod_lt _ hn
  generalize hk : b % n = r at hr
  have hpow : 2 ^ (n - r) * 2 ^ r = 2 ^ n := by rw [← Nat.pow_add, Nat.sub_add_cancel hr.le]
  have hlow : a / 2 ^ (n - r) < 2 ^ r := by
    rw [Nat.div_lt_iff_lt_mul (Nat.two_pow_pos _), Nat.mul_comm, hpow]
    exact ha
  have hhigh : a * 2 ^ r % 2 ^ n = a % 2 ^ (n - r) * 2 ^ r := by rw [← hpow, Nat.mul_mod_mul_right]
  have hfit : a % 2 ^ (n - r) * 2 ^ r + a / 2 ^ (n - r) < 2 ^ n := by
    calc a % 2 ^ (n - r) * 2 ^ r + a / 2 ^ (n - r) < (a % 2 ^ (n - r) + 1) * 2 ^ r := by rw [Nat.add_one_mul]; omega
      _ ≤ 2 ^ (n - r) * 2 ^ r := Nat.mul_le_mul_right _ (Nat.mod_lt _ (Nat.two_pow_pos _))
      _ = 2 ^ n := hpow
  apply BitVec.eq_of_toNat_eq
  dsimp only
  rw [toNat_ofNat_lt hb, hk, BitVec.toNat_rotateLeft, toNat_ofNat_lt ha, Nat.mod_eq_of_lt hr, Nat.shiftLeft_eq, hhigh,
    ← Nat.shiftLeft_eq, Nat.shiftRight_eq_div_pow, ← Nat.shiftLeft_add_eq_or_of_lt hlow, Nat.shiftLeft_eq]
  unfold fRol
  rw [hk, BitVec.ofInt_natCast, BitVec.toNat_ofNat, ← Nat.mod_add_mod, hhigh, Nat.mod_eq_of_lt hfit]
end

/-- Settles O4: each immediate form puts its function of A and the immediate, which is the bit-vector operation. -/
theorem integerImmediateResults : Obligations.IntegerImmediateResults := by
  intro w x s c sl t ci ha h i n A B sgn less Done
  have hn : 0 < wbits w := by cases w <;> decide
  have hB : numImm x w < 2 ^ wbits w := by
    rw [← immRd_num x w 0]
    exact ival_lt ..
  have done {ins : Instr} {f : Nat → Nat → Nat → Nat → Int} {v : BitVec (wbits w) → BitVec (wbits w) → BitVec (wbits w)}
      (hf : Computes f v) {b : Bool} (hl : legalIm (isPair w) b x = true) (hw : ins.wf = true) :
      Done (intIM ins w x f s) fun l => v (A l) B := by
    refine yields_congr (intIM_yields ci ha hw (legalIm_reg hl) h) (fun l => ?_) fun _ => rfl
    rw [wrapW_ofInt]
    exact congrArg (BitVec.setWidth 64) (hf _ _ _ (ival_lt ..) hB)
  exact ⟨fun hw => (done (ins := .iaddIm w x) computes_fAdd hw hw :),
    fun hw => (done (ins := .isubIm w x) computes_fSub hw hw :),
    fun hw => (done (ins := .imulIm w x) computes_fMul hw hw :),
    fun hw => (done (ins := .iminIm w x) (computes_fMin hn sgn) hw hw :),
    fun hw => (done (ins := .imaxIm w x) (computes_fMax hn sgn) hw hw :),
    fun hw => (done (ins := .andIm w x) computes_fAnd hw hw :),
    fun hw => (done (ins := .orIm w x) computes_fOr hw hw :),
    fun hw => (done (ins := .xorIm w x) computes_fXor hw hw :),
    fun hw => (done (ins := .andnIm w x) computes_fAndn hw hw :),
    fun hw => (done (ins := .shlIm w x) computes_fShl hw hw :),
    fun hw => (done (ins := .shrIm w x) computes_fShr hw hw :),
    fun hw => (done (ins := .sarIm w x) (computes_fSar hn) hw hw :),
    fun hw => (done (ins := .rolIm w x) computes_fRol hw hw :)⟩

end Sys2Proof.Proofs

/-! PROOFS. Branches, calls and returns (O16): step 8 towards the targets of the active lanes. -/

namespace Sys2Proof.Proofs

open Sys2Proof.Machine Sys2Proof.Safety Sys2Proof.Laws

/-! ### Step 8 of an instruction that changed registers of its team alone -/

theorem sameControl_trans {t u w : Team} (h : SameControl t u) (k : SameControl u w) : SameControl t w := by
  obtain ⟨h1, h2, h3, h4, h5⟩ := h.place
  obtain ⟨k1, k2, k3, k4, k5⟩ := k.place
  exact ⟨k.sigmin.trans h.sigmin, k.trapen.trans h.trapen, k.trapcause.trans h.trapcause, k.trappc.trans h.trappc,
    k.trapmask.trans h.trapmask, k.saved.trans h.saved, k.bufs.trans h.bufs, k.alloc.trans h.alloc, k.live.trans h.live,
    ⟨k1.trans h1, k2.trans h2, k3.trans h3, k4.trans h4, k5.trans h5⟩, k.trap.trans h.trap, k.owed.trans h.owed⟩
/-- A region entry keeps the control state. -/
theorem sameControl_entered (s : State) (t : Team) (h : Head) : SameControl t (entered s t h) := by
  have hc : Carried t { entered s t h with rgncnt := t.rgncnt, rgnpc := t.rgnpc, enter := t.enter, stops := t.stops, undo := t.undo } :=
    entered_keeps (fun x => stripped { x with rgncnt := t.rgncnt, rgnpc := t.rgnpc, enter := t.enter, stops := t.stops, undo := t.undo }) s t h
      fun _ _ _ _ _ _ => rfl
  obtain ⟨h1, h2, h3, h4, h5, h6, h7, h8, h9, h10, h11, h12⟩ := hc.control
  exact ⟨h1, h2, h3, h4, h5, h6, h7, h8, h9, h10, h11, h12⟩

/-- Step 8, with targets `g`, of a team that stands in `s1` as its region entry left it but for registers and the undo log. -/
theorem retire_entered {s s1 : State} {c sl : Nat} {t u0 : Team} {h : Head} (hg : getTeam s1 c sl = some u0)
    (hu : u0 = { entered s t h with v := u0.v, s := u0.s, p := u0.p, undo := u0.undo, undoNew := u0.undoNew }) (branch stop : Bool)
    (g : Nat → Word) :
    let s' := retire s1 c sl (issueAddr t) (executing t) (active t h) h false branch stop g
    ∃ u, getTeam s' c sl = some u ∧ (u.v = u0.v ∧ u.s = u0.s ∧ u.p = u0.p) ∧ SameFlags t u ∧ SameControl t u ∧
      SameRegion (entered s t h) u ∧ Branched t u (active t h) g ∧ TeamOnly s1 s' c sl := by
  obtain ⟨ho, u, hget, hk⟩ := retire_spec hg (issueAddr t) (executing t) (active t h) h branch stop g
  have hcar : Carried { entered s t h with v := u0.v, s := u0.s, p := u0.p } u := by
    refine carried_trans ?_ hk.carried
    rw [hu]
    rfl
  obtain ⟨hcnt, hpc⟩ := hcar.region
  have hret : u.retcnt = (entered s t h).retcnt + 1 := by rw [hk.retcnt, hu]
  obtain ⟨k1, k2, k3, k4, k5, k6, k7, k8, k9, k10, k11, k12⟩ := hcar.control
  refine ⟨u, hget, hcar.maps, sameFlags_entered hcar rfl rfl rfl,
    sameControl_trans (sameControl_entered s t h) ⟨k1, k2, k3, k4, k5, k6, k7, k8, k9, k10, k11, k12⟩, ⟨hcnt, hpc, hret⟩, fun l hl => ?_, ho⟩
  have hlpc : getLpc u0 l = getLpc t l := by
    rw [hu]
    unfold getLpc
    rw [← enterRegion_lpc t (getCtx s t.ctx).debug (issueAddr t) h.rgn]
    rfl
  rw [getLpc_map _ u hk.lpc hl, hlpc]

/-! ### Branches (R77, R114, R115) -/

/-- A body that branches completes with step 8 towards its targets. -/
theorem issue_jump {s : State} {c sl : Nat} {t : Team} {h : Head} (ci : CanIssue s c sl t h) {legal closes : Bool}
    {dyn : State → Nat → Team → Bool} {body : Issue → Res} (hl : legal = true) (hd : dyn s c t = true) {s' : State} {g : Nat → Word}
    (hb : body (issueOf s c sl t h) = .jump s' g) :
    issue h legal closes dyn body s = .next (retire s' c sl (issueAddr t) (executing t) (active t h) h closes true false g) := by
  rw [issue_eq ci body hl hd, hb]

theorem getTeam_issueOf (s : State) (c sl : Nat) (t : Team) (h : Head) : getTeam (issueOf s c sl t h).s c sl = some (entered s t h) :=
  getTeam_setTeam_same s c sl (entered s t h)
theorem teamOnly_issueOf (s : State) (c sl : Nat) (t : Team) (h : Head) : TeamOnly s (issueOf s c sl t h).s c sl :=
  teamOnly_trans (teamOnly_setTeam ..) (teamOnly_nextId ..)

/-- A branch without a link register. -/
theorem branches_issueOf {s : State} {c sl : Nat} {t : Team} {h : Head} {g : Nat → Word} {out : Host.Outcome State Fault Refusal}
    (hout : out = .next (retire (issueOf s c sl t h).s c sl (issueAddr t) (executing t) (active t h) h false true false g)) :
    ∃ s' u, Branches s c sl t h out .lpc g s' u := by
  obtain ⟨u, hget, ⟨hv, hs, hp⟩, hflags, hctl, hreg, hpos, hon⟩ := retire_entered (getTeam_issueOf s c sl t h) rfl true false g
  have hall := teamOnly_trans (teamOnly_issueOf s c sl t h) hon
  exact ⟨_, u, hout, hget, sameRegs_of_eq _ _ _ (hv.trans (enterRegion_v ..)) (hs.trans (enterRegion_s ..)) (hp.trans (enterRegion_p ..)),
    hflags, hctl, hreg, hpos, hall.sameMemory, hall.sameUnits, hall.others⟩

/-- A branch that puts `x` into its link register `d`. -/
theorem branches_commit {s : State} {c sl : Nat} {t : Team} {h : Head} {g : Nat → Word} {out : Host.Outcome State Fault Refusal} {d : Opd}
    {x : DWord} {tag : Tag} (hd : isReg d = true)
    (hout : out = .next (retire (commit (issueOf s c sl t h) d false (putLanes (entered s t h) d false (active t h) (fun _ => x) fun _ => tag))
      c sl (issueAddr t) (executing t) (active t h) h false true false g)) :
    ∃ s' u, Branches s c sl t h out d g s' u ∧ ∀ l ∈ lanesOf (active t h), rdOpd s' u d false l = written d false x tag := by
  unfold commit at hout
  obtain ⟨w, n, hw⟩ := pushUndo_eq (issueOf s c sl t h).s (putLanes (entered s t h) d false (active t h) (fun _ => x) fun _ => tag)
    (undoOf (issueOf s c sl t h).t d false)
  obtain ⟨rv, rs, rp, hput⟩ := putLanes_only (entered s t h) d false (active t h) (fun _ => x) fun _ => tag
  have hframe := putLanes_frame (entered s t h) d false (active t h) (fun _ => x) fun _ => tag
  have hread (s' : State) (l : Nat) (hl : l ∈ lanesOf (active t h)) :=
    rdOpd_putLanes s' (entered s t h) d false (active t h) (fun _ => x) (fun _ => tag) l hl hd
  rw [hw, hput] at hout
  rw [hput] at hframe hread
  obtain ⟨u, hget, ⟨hv, hs, hp⟩, hflags, hctl, hreg, hpos, hon⟩ :=
    retire_entered (s := s) (t := t) (h := h) (getTeam_setTeam_same (issueOf s c sl t h).s c sl
      { entered s t h with v := rv, s := rs, p := rp, undo := w, undoNew := n }) rfl true false g
  have hall := teamOnly_trans (teamOnly_trans (teamOnly_issueOf s c sl t h) (teamOnly_setTeam ..)) hon
  have hregs := sameRegs_trans (sameRegs_of_eq d false _ (enterRegion_v ..) (enterRegion_s ..) (enterRegion_p ..))
    (sameRegs_trans hframe (sameRegs_of_eq d false _ hv hs hp))
  refine ⟨_, u, ⟨hout, hget, hregs, hflags, hctl, hreg, hpos, hall.sameMemory, hall.sameUnits, hall.others⟩, fun l hl => ?_⟩
  rw [rdOpd_maps (t := { entered s t h with v := rv, s := rs, p := rp }) hv hs hp d false l hd]
  exact hread _ l hl

theorem legalCall_reg {x : BR} (h : legalCall x = true) : isReg x.d = true := by
  simp only [legalCall, Bool.and_eq_true] at h
  exact dOk_reg h.2

/-- BRX and RET complete at the lanes' own targets. -/
theorem jumpAbs_branches {ins : Instr} {x : RG} {s : State} {c sl : Nat} {t : Team} (ci : CanIssue s c sl t x.h) (hw : ins.wf = true)
    (ha : opdAlloc t x.a.o false = true) (hr : Ready (issueOf s c sl t x.h) [rdA (issueOf s c sl t x.h) x false] []) :
    ∃ s' u, Branches s c sl t x.h (jumpAbs ins x s) .lpc
      (fun l => BitVec.ofNat 32 (ival 32 x.a.m ((rdA (issueOf s c sl t x.h) x false).at_ l))) s' u := by
  unfold jumpAbs
  refine branches_issueOf (issue_jump ci hw ha ?_)
  simp only [gate_ready hr]

/-- Settles O16: each branch is a body that jumps, CALL after its link register has been written. -/
theorem branchResults : Obligations.BranchResults := by
  intro s c sl t
  constructor
  · intro x ci target hlo hhi
    have hok : brTargetOk t x = true := by simp only [brTargetOk, Bool.and_eq_true, decide_eq_true_eq]; exact ⟨hlo, hhi⟩
    refine ⟨fun hw => ?_, fun hw ha hr => ?_⟩
    · show ∃ s' u, Branches s c sl t x.h (execBra x s) _ _ s' u
      unfold execBra
      exact branches_issueOf (issue_jump ci hw hok rfl)
    · show ∃ s' u, Branches s c sl t x.h (execCall x s) _ _ s' u ∧ _
      unfold execCall
      refine branches_commit (legalCall_reg hw) (issue_jump ci hw (Bool.and_eq_true_iff.mpr ⟨hok, ha⟩) ?_)
      simp only [gate_ready hr]
      rfl
  · intro x ci ha hr target
    exact ⟨fun hw => jumpAbs_branches ci hw ha hr, fun hw => jumpAbs_branches ci hw ha hr⟩

end Sys2Proof.Proofs

/-! PROOFS. DHARV and TLBINV (O40): what they leave of TLBs and leaves. -/

namespace Sys2Proof.Proofs

open Sys2Proof.Machine Sys2Proof.Safety Sys2Proof.Laws

/-! ### The entries of every TLB -/

/-- The TLB entries of the cores. -/
def coreTlbs (m : NMap Core) : List TlbEntry := m.flatMap fun k => k.2.tlb
theorem allTlbs_eq (s : State) : allTlbs s = s.deviceTlb ++ coreTlbs s.cores := rfl

theorem mem_coreTlbs_of_ngetD {m : NMap Core} {c : Nat} {e : TlbEntry} (h : e ∈ (ngetD default m c).tlb) : e ∈ coreTlbs m := by
  induction m with
  | nil => exact absurd h List.not_mem_nil
  | cons k rest ih =>
    obtain ⟨j, x⟩ := k
    simp only [coreTlbs, List.flatMap_cons, List.mem_append]
    simp only [ngetD, nget] at h
    split at h
    · exact .inl h
    · exact .inr (ih h)
/-- A core put back with its TLB leaves the same entries. -/
theorem mem_coreTlbs_nset {m : NMap Core} {c : Nat} {x : Core} (hx : x.tlb = (ngetD default m c).tlb) (e : TlbEntry) :
    e ∈ coreTlbs (nset m c x) ↔ e ∈ coreTlbs m := by
  induction m with
  | nil =>
    have hnil : x.tlb = [] := hx
    simp [coreTlbs, nset, hnil]
  | cons k rest ih =>
    obtain ⟨j, y⟩ := k
    have hin : e ∈ x.tlb → e ∈ coreTlbs ((j, y) :: rest) := fun he => mem_coreTlbs_of_ngetD (c := c) (hx ▸ he)
    simp only [nset]
    split
    · simp only [coreTlbs, List.flatMap_cons, List.mem_append] at hin ⊢
      exact ⟨fun h => h.elim hin id, .inr⟩
    · split
      · next hj =>
        have hxy : x.tlb = y.tlb := by simpa [ngetD, nget, hj] using hx
        simp only [coreTlbs, List.flatMap_cons, List.mem_append, hxy]
      · next hj =>
        have hrest : x.tlb = (ngetD default rest c).tlb := by simpa [ngetD, nget, hj] using hx
        have := ih hrest
        simp only [coreTlbs, List.flatMap_cons, List.mem_append] at this ⊢
        rw [this]

/-- The TLBs of the two states hold the same entries. -/
structure SameTlbs (s s' : State) : Prop where
  mem : ∀ e, e ∈ allTlbs s' ↔ e ∈ allTlbs s

theorem sameTlbs_refl (s : State) : SameTlbs s s := ⟨fun _ => Iff.rfl⟩
theorem sameTlbs_trans {s s' s'' : State} (h : SameTlbs s s') (k : SameTlbs s' s'') : SameTlbs s s'' :=
  ⟨fun e => (k.mem e).trans (h.mem e)⟩
theorem sameTlbs_of_eq {s s' : State} (hd : s'.deviceTlb = s.deviceTlb) (hc : s'.cores = s.cores) : SameTlbs s s' :=
  ⟨fun e => by rw [allTlbs_eq, allTlbs_eq, hd, hc]⟩
theorem sameTlbs_updCore (s : State) (c : Nat) (f : Core → Core) (hf : ∀ k, (f k).tlb = k.tlb) : SameTlbs s (updCore s c f) := by
  constructor
  intro e
  rw [allTlbs_eq, allTlbs_eq, List.mem_append, List.mem_append, updCore_deviceTlb]
  exact or_congr_right (mem_coreTlbs_nset (hf _) e)
theorem sameTlbs_setTeam (s : State) (c sl : Nat) (x : Team) : SameTlbs s (setTeam s c sl x) := sameTlbs_updCore s c _ fun _ => rfl
theorem sameTlbs_setISlot (s : State) (c i : Nat) (x : IssueSlot) : SameTlbs s (setISlot s c i x) := sameTlbs_updCore s c _ fun _ => rfl
theorem sameTlbs_tally (s : State) (b w n : Nat) : SameTlbs s (tally s b w n) := sameTlbs_of_eq (tally_deviceTlb ..) (tally_cores ..)
theorem sameTlbs_countForced (s : State) (c i : Nat) (y : Bool) : SameTlbs s (countForced s c i y) := by
  unfold countForced
  split
  · exact sameTlbs_trans (sameTlbs_setISlot ..) (sameTlbs_tally ..)
  · exact sameTlbs_refl s
/-- A run boundary and step 8 keep every TLB entry. -/
theorem sameTlbs_boundary (s : State) (c sl : Nat) (u : Team) (own : Bool) : SameTlbs s (boundary s c sl u own) := by
  have base : SameTlbs s (tally (setTeam s c sl u) c (islotOf u) 1) := sameTlbs_trans (sameTlbs_setTeam ..) (sameTlbs_tally ..)
  simp only [boundary]
  refine sameTlbs_trans (sameTlbs_trans ?_ (sameTlbs_countForced ..)) (sameTlbs_of_eq rfl rfl)
  split
  · exact sameTlbs_trans base (sameTlbs_trans (sameTlbs_setTeam ..) (sameTlbs_setISlot ..))
  · split
    · exact sameTlbs_trans base (sameTlbs_trans (sameTlbs_setTeam ..) (sameTlbs_setISlot ..))
    · exact base
theorem sameTlbs_retire (s : State) (c sl : Nat) (pc : Word) (e a : Mask) (h : Head) (x b z : Bool) (g : Nat → Word) :
    SameTlbs s (retire s c sl pc e a h x b z g) := by
  unfold retire
  split
  · exact sameTlbs_refl s
  · exact sameTlbs_trans (sameTlbs_of_eq (pulse_deviceTlb ..) (pulse_cores ..)) (sameTlbs_boundary ..)
theorem sameTlbs_issueOf (s : State) (c sl : Nat) (t : Team) (h : Head) : SameTlbs s (issueOf s c sl t h).s :=
  sameTlbs_trans (sameTlbs_setTeam s c sl (entered s t h)) (sameTlbs_of_eq rfl rfl)

/-! ### An update of every TLB -/

/-- Every TLB put through `g`. -/
def onTlbs (g : List TlbEntry → List TlbEntry) (s : State) : State :=
  { s with deviceTlb := g s.deviceTlb, cores := s.cores.map fun k => (k.1, { k.2 with tlb := g k.2.tlb }) }

theorem ngetD_map_cores (f : Core → Core) (hf : f default = default) (m : NMap Core) (c : Nat) :
    ngetD default (m.map fun k => (k.1, f k.2)) c = f (ngetD default m c) := by
  induction m with
  | nil => exact hf.symm
  | cons k rest ih =>
    obtain ⟨j, x⟩ := k
    simp only [ngetD, nget, List.map_cons] at ih ⊢
    split
    · rfl
    · exact ih
theorem getCore_onTlbs {g : List TlbEntry → List TlbEntry} (hg : g [] = []) (s : State) (c : Nat) :
    getCore (onTlbs g s) c = { getCore s c with tlb := g (getCore s c).tlb } := by
  refine ngetD_map_cores (fun k => { k with tlb := g k.tlb }) ?_ s.cores c
  show { (default : Core) with tlb := g [] } = default
  rw [hg]
  rfl
theorem allTlbs_onTlbs_map (f : TlbEntry → TlbEntry) (s : State) : allTlbs (onTlbs (List.map f) s) = (allTlbs s).map f := by
  simp only [allTlbs, onTlbs, List.map_append, List.map_flatMap, List.flatMap_map]
theorem allTlbs_onTlbs_filter (p : TlbEntry → Bool) (s : State) : allTlbs (onTlbs (List.filter p) s) = (allTlbs s).filter p := by
  simp only [allTlbs, onTlbs, List.filter_append, List.filter_flatMap, List.flatMap_map]

/-- A state in which leaves and TLB entries alone have changed. -/
structure TlbsOnly (s s' : State) : Prop where
  reqs : s'.reqs = s.reqs
  slices : s'.slices = s.slices
  seqSlots : s'.seqSlots = s.seqSlots
  core : ∀ c, ∃ es, getCore s' c = { getCore s c with tlb := es }

theorem tlbsOnly_trans {s s' s'' : State} (h : TlbsOnly s s') (k : TlbsOnly s' s'') : TlbsOnly s s'' := by
  refine ⟨k.reqs.trans h.reqs, k.slices.trans h.slices, k.seqSlots.trans h.seqSlots, fun c => ?_⟩
  obtain ⟨es, he⟩ := h.core c
  obtain ⟨es', he'⟩ := k.core c
  exact ⟨es', by rw [he', he]⟩
theorem tlbsOnly_onTlbs {g : List TlbEntry → List TlbEntry} (hg : g [] = []) (s : State) : TlbsOnly s (onTlbs g s) :=
  ⟨rfl, rfl, rfl, fun c => ⟨_, getCore_onTlbs hg s c⟩⟩
theorem TlbsOnly.teams {s s' : State} (h : TlbsOnly s s') (c sl : Nat) : getTeam s' c sl = getTeam s c sl := by
  obtain ⟨es, he⟩ := h.core c
  unfold getTeam
  rw [he]
theorem TlbsOnly.sameUnits {s s' : State} (h : TlbsOnly s s') : SameUnits s s' := by
  have part {α : Type} (f : Core → α) (hf : ∀ k es, f { k with tlb := es } = f k) (c : Nat) : f (getCore s' c) = f (getCore s c) := by
    obtain ⟨es, he⟩ := h.core c
    rw [he, hf]
  exact ⟨h.reqs, h.slices, h.seqSlots, part (·.wgs) fun _ _ => rfl, part (·.chans) fun _ _ => rfl, part (·.tops) fun _ _ => rfl⟩
theorem sameUnits_trans {s s' s'' : State} (h : SameUnits s s') (k : SameUnits s' s'') : SameUnits s s'' :=
  ⟨k.reqs.trans h.reqs, k.slices.trans h.slices, k.seqSlots.trans h.seqSlots, fun c => (k.wgs c).trans (h.wgs c),
    fun c => (k.chans c).trans (h.chans c), fun c => (k.tops c).trans (h.tops c)⟩

/-! ### D bits written back to their leaves (R361) -/

theorem writeBack_mem (s : State) (e : TlbEntry) (a : Nat) : ngetD 0 (writeBack s e).mem a =
    if e.dirty = true ∧ a = e.leafPa + 7 then ngetD 0 s.mem a ||| 0x20 else ngetD 0 s.mem a := by
  unfold writeBack
  cases e.dirty with
  | false => simp
  | true =>
    simp only [if_true, writeLoc, putBytes, ngetD_nsetD, true_and]
    split
    · next h => rw [h]
    · rfl
theorem writeBack_only (s : State) (e : TlbEntry) : ∃ m p, writeBack s e = { s with mem := m, past := p } := by
  unfold writeBack
  split
  · exact ⟨_, _, rfl⟩
  · exact ⟨s.mem, s.past, rfl⟩
theorem foldl_writeBack_only (es : List TlbEntry) (s : State) : ∃ m p, es.foldl writeBack s = { s with mem := m, past := p } := by
  induction es generalizing s with
  | nil => exact ⟨s.mem, s.past, rfl⟩
  | cons e rest ih =>
    obtain ⟨m, p, he⟩ := writeBack_only s e
    obtain ⟨m', p', hr⟩ := ih (writeBack s e)
    exact ⟨m', p', by rw [List.foldl_cons, hr, he]⟩
/-- A byte that is no dirty leaf's stays. -/
theorem foldl_writeBack_other {es : List TlbEntry} {a : Nat} (h : ∀ e ∈ es, e.dirty = true → e.leafPa + 7 ≠ a) (s : State) :
    ngetD 0 (es.foldl writeBack s).mem a = ngetD 0 s.mem a := by
  induction es generalizing s with
  | nil => rfl
  | cons e rest ih =>
    rw [List.foldl_cons, ih fun x hx => h x (List.mem_cons_of_mem _ hx), writeBack_mem, if_neg]
    rintro ⟨hd, rfl⟩
    exact h e List.mem_cons_self hd rfl
/-- A D bit once set stays set. -/
theorem foldl_writeBack_keeps (es : List TlbEntry) {a : Nat} {s : State} (h : (ngetD 0 s.mem a).getLsbD 5 = true) :
    (ngetD 0 (es.foldl writeBack s).mem a).getLsbD 5 = true := by
  induction es generalizing s with
  | nil => exact h
  | cons e rest ih =>
    refine ih ?_
    rw [writeBack_mem]
    split
    · rw [BitVec.getLsbD_or, h, Bool.true_or]
    · exact h
theorem foldl_writeBack_sets {es : List TlbEntry} {e : TlbEntry} (he : e ∈ es) (hd : e.dirty = true) (s : State) :
    (ngetD 0 (es.foldl writeBack s).mem (e.leafPa + 7)).getLsbD 5 = true := by
  induction es generalizing s with
  | nil => exact absurd he List.not_mem_nil
  | cons x rest ih =>
    obtain rfl | hr := List.mem_cons.mp he
    · refine foldl_writeBack_keeps rest ?_
      rw [writeBack_mem, if_pos ⟨hd, rfl⟩, BitVec.getLsbD_or, Bool.or_eq_true]
      exact .inr rfl
    · exact ih hr _

/-- An entry that satisfies `f` with its D bit cleared. -/
def cleaned (f : TlbEntry → Bool) (e : TlbEntry) : TlbEntry := if f e then { e with dirty := false } else e
theorem harvest_eq (f : TlbEntry → Bool) (s : State) :
    harvest f s = onTlbs (List.map (cleaned f)) (((allTlbs s).filter f).foldl writeBack s) := rfl
theorem dropTlb_eq (f : TlbEntry → Bool) (s : State) : dropTlb f s = onTlbs (List.filter fun e => !f e) s := rfl

theorem harvest_tlbsOnly (f : TlbEntry → Bool) (s : State) : TlbsOnly s (harvest f s) := by
  obtain ⟨m, p, he⟩ := foldl_writeBack_only ((allTlbs s).filter f) s
  rw [harvest_eq, he]
  exact tlbsOnly_trans (s' := { s with mem := m, past := p }) ⟨rfl, rfl, rfl, fun c => ⟨(getCore s c).tlb, rfl⟩⟩ (tlbsOnly_onTlbs rfl _)
theorem allTlbs_harvest (f : TlbEntry → Bool) (s : State) : allTlbs (harvest f s) = (allTlbs s).map (cleaned f) := by
  obtain ⟨m, p, he⟩ := foldl_writeBack_only ((allTlbs s).filter f) s
  rw [harvest_eq, he, allTlbs_onTlbs_map]
  rfl
theorem harvested_harvest (f : TlbEntry → Bool) (s : State) : Harvested s (harvest f s) f := by
  refine ⟨fun e he hf hd => foldl_writeBack_sets (List.mem_filter.mpr ⟨he, hf⟩) hd s, fun a ha => foldl_writeBack_other (fun e he hd => ?_) s⟩
  obtain ⟨hin, hf⟩ := List.mem_filter.mp he
  exact ha e hin hf hd
/-- After a harvest no entry that satisfies `f` is dirty. -/
theorem clean_of_mem_harvest {f : TlbEntry → Bool} {s : State} {e : TlbEntry} (he : e ∈ allTlbs (harvest f s)) (hf : f e = true) :
    e.dirty = false := by
  rw [allTlbs_harvest] at he
  obtain ⟨x, -, rfl⟩ := List.mem_map.mp he
  unfold cleaned at hf ⊢
  split
  · rfl
  · next hx =>
    rw [if_neg hx] at hf
    exact absurd hf hx
theorem not_mem_dropTlb {f : TlbEntry → Bool} {s : State} {e : TlbEntry} (he : e ∈ allTlbs (dropTlb f s)) : f e = false := by
  rw [dropTlb_eq, allTlbs_onTlbs_filter, List.mem_filter] at he
  simpa using he.2
/-- What a harvest has written depends on the entries and the memory before and after alone. -/
theorem harvested_congr {s s0 s1 s' : State} {f : TlbEntry → Bool} (h : Harvested s0 s1 f) (ht : SameTlbs s s0) (h0 : s0.mem = s.mem)
    (h1 : s'.mem = s1.mem) : Harvested s s' f := by
  obtain ⟨hset, hother⟩ := h
  rw [h0] at hother
  unfold Harvested
  rw [h1]
  exact ⟨fun e he => hset e ((ht.mem e).mpr he), fun a ha => hother a fun e he => ha e ((ht.mem e).mp he)⟩

/-! ### DHARV and TLBINV (R362) -/

/-- The instruction completes, its lanes advance, the D bits of the entries that satisfy `f` stand in their leaves, and `p` holds of every
entry that the TLBs then hold; registers, control state, units and other teams are as they were. -/
def TlbDone (s : State) (c sl : Nat) (t : Team) (out : Host.Outcome State Fault Refusal) (f : TlbEntry → Bool) (p : TlbEntry → Prop) : Prop :=
  ∃ s' u, out = .next s' ∧ getTeam s' c sl = some u ∧ SameAllRegs t u ∧ SameFlags t u ∧ SameControl t u ∧ Advanced t u ∧ SameUnits s s' ∧
    SameOthers s s' c sl ∧ Harvested s s' f ∧ ∀ e ∈ allTlbs s', p e

/-- A body that changes leaves and TLBs alone completes with what it has changed. -/
theorem tlbDone_go {s s1 : State} {c sl : Nat} {t : Team} {h : Head} {f : TlbEntry → Bool} {p : TlbEntry → Prop}
    {out : Host.Outcome State Fault Refusal} (hout : out = .next (retired (issueOf s c sl t h) false s1))
    (hon : TlbsOnly (issueOf s c sl t h).s s1) (hharv : Harvested (issueOf s c sl t h).s s1 f) (hp : ∀ e ∈ allTlbs s1, p e) :
    TlbDone s c sl t out f p := by
  obtain ⟨u, hget, ⟨hv, hs, hpr⟩, hflags, hctl, -, hpos, hret⟩ :=
    retire_entered ((hon.teams c sl).trans (getTeam_issueOf s c sl t h)) rfl false false fun _ => issueAddr t + 1
  have hbefore := teamOnly_issueOf s c sl t h
  refine ⟨_, u, hout, hget, sameAllRegs_of_maps (hv.trans (enterRegion_v ..)) (hs.trans (enterRegion_s ..)) (hpr.trans (enterRegion_p ..)),
    hflags, hctl, fun l hl => ?_, sameUnits_trans hbefore.sameUnits (sameUnits_trans hon.sameUnits hret.sameUnits), fun a b hne => ?_,
    harvested_congr hharv (sameTlbs_issueOf ..) hbefore.mem hret.mem, fun e he => hp e (((sameTlbs_retire ..).mem e).mp he)⟩
  · rw [hpos l hl, ite_self]
  · exact (hret.others a b hne).trans ((hon.teams a b).trans (hbefore.others a b hne))

/-- Which accesses have been translated through an entry depends on tables and TLBs alone. -/
theorem transAddrs_issueOf (s : State) (c sl : Nat) (t : Team) (h : Head) (q : Req) :
    transAddrs (issueOf s c sl t h).s q = transAddrs s q := rfl
theorem translatedBy_issueOf (s : State) (c sl : Nat) (t : Team) (h : Head) (f : TlbEntry → Bool) (q : Req) :
    translatedBy (issueOf s c sl t h).s f q = translatedBy s f q := by
  have htlb : tlbOf (issueOf s c sl t h).s (.core q.core) = tlbOf s (.core q.core) :=
    (sameTables_setTeam s c sl (entered s t h) q.core).tlb
  unfold translatedBy
  rw [transAddrs_issueOf, htlb]

/-- A TLBINV through whose entries no access in flight was translated. -/
theorem tlbinv_free {s : State} {c sl : Nat} {t : Team} {h : Head} {f : TlbEntry → Bool} (hq : ∀ q ∈ s.reqs, translatedBy s f q = false) :
    tlbinv (issueOf s c sl t h) f = .go (dropTlb f (harvest f (issueOf s c sl t h).s)) := by
  have hany : (issueOf s c sl t h).s.reqs.any (translatedBy (issueOf s c sl t h).s f) = false := by
    rw [List.any_eq_false]
    intro q hin
    rw [translatedBy_issueOf, hq q hin]
    exact Bool.false_ne_true
  unfold tlbinv
  rw [hany]
  rfl

section firmware
variable {s : State} {c sl : Nat} {t : Team} {h : Head} (ci : CanIssue s c sl t h) (hfw : (getLaunch s t.ctx t.seq).firmware = true)
include ci hfw

/-- The two forms of a privileged body, DHARV's and TLBINV's, in a launch of firmware. -/
theorem harvest_done {legal : Bool} (hl : legal = true) (f : TlbEntry → Bool) :
    TlbDone s c sl t (issue h legal false (fun s _ t => privileged s t) (fun i => .go (harvest f i.s)) s) f
      fun e => f e = true → e.dirty = false :=
  tlbDone_go (issue_go ci hl hfw rfl) (harvest_tlbsOnly ..) (harvested_harvest ..) fun _ he hf => clean_of_mem_harvest he hf
theorem tlbinv_done {legal : Bool} (hl : legal = true) {f : TlbEntry → Bool} {body : Issue → Res}
    (hb : body (issueOf s c sl t h) = tlbinv (issueOf s c sl t h) f) (hq : ∀ q ∈ s.reqs, translatedBy s f q = false) :
    TlbDone s c sl t (issue h legal false (fun s _ t => privileged s t) body s) f fun e => f e = false :=
  tlbDone_go (issue_go ci hl hfw (hb.trans (tlbinv_free hq))) (tlbsOnly_trans (harvest_tlbsOnly ..) (tlbsOnly_onTlbs rfl _))
    (harvested_congr (harvested_harvest ..) (sameTlbs_refl _) rfl rfl) fun _ he => not_mem_dropTlb he
end firmware

/-- Settles O40: outside firmware step 1 takes cause 1; in firmware DHARV harvests, and TLBINV harvests and drops. -/
theorem tlbInstructions : Obligations.TlbInstructions := by
  constructor
  · intro x s c sl t hc hr hh ht hv hready hfw ins hin
    exact priv_il hc hr hh ht hv hready (tlb_priv s x hin) hfw
  · intro x s c sl t ci hfw i k va done drops
    refine ⟨fun hw => ?_, fun hw hr hq => ?_, fun hw hq => ?_, fun hw hq => ?_⟩
    · exact harvest_done ci hfw hw _
    · show TlbDone s c sl t (execTlbinvPage x s) (fun e => tlbHit e k va) _
      unfold execTlbinvPage
      have hgate : gate (issueOf s c sl t x.h) [rd (issueOf s c sl t x.h) x.a true] [] = none := gate_ready hr
      refine tlbinv_done ci hfw hw ?_ hq
      simp only [hgate]
      rfl
    · show TlbDone s c sl t (execTlbinvCtx x s) (fun e => e.ctx == k) _
      unfold execTlbinvCtx
      exact tlbinv_done ci hfw hw rfl hq
    · show TlbDone s c sl t (execTlbinvAll x s) (fun _ => true) _
      unfold execTlbinvAll
      exact tlbinv_done ci hfw hw rfl hq

end Sys2Proof.Proofs

/-! PROOFS. Integer instructions in register form (O1, O2, O3): arithmetic, division, logic, shifts, counts and bit fields. -/

namespace Sys2Proof.Proofs

open Sys2Proof.Machine Sys2Proof.Safety Sys2Proof.Laws

/-! ### Wrapped numbers (R7, R107) -/

/-- Numbers that agree modulo the width wrap alike. -/
theorem wrapW_congr {a b : Int} {n : Nat} (h : a % 2 ^ n = b % 2 ^ n) : wrapW a n = wrapW b n := by
  unfold wrapW wrap
  push_cast
  rw [h]
/-- The signed reading of an operand wraps to the operand. -/
theorem sx_emod (a n : Nat) : sx a n % 2 ^ n = (a : Int) % 2 ^ n := by
  simp only [sx]
  split
  · push_cast
    exact Int.emod_emod_of_dvd _ dvd_rfl
  · push_cast
    rw [Int.sub_emod_right]
    exact Int.emod_emod_of_dvd _ dvd_rfl
theorem sv_emod (sg : Bool) (a n : Nat) : sv sg a n % 2 ^ n = (a : Int) % 2 ^ n := by
  cases sg
  · rfl
  · exact sx_emod a n
theorem wrapW_sv (sg : Bool) (a n : Nat) : wrapW (sv sg a n) n = wrapW a n := wrapW_congr (sv_emod sg a n)

/-! ### Minimum, maximum (R107) -/

theorem wrapW_fMin (sg : Bool) (n a b c : Nat) : wrapW (fMin sg n a b c) n = wrapW (min (sv sg a n) (sv sg b n)) n := by
  unfold fMin
  split
  · next h => rw [min_eq_right h.le, wrapW_sv]
  · next h => rw [min_eq_left (not_lt.mp h), wrapW_sv]
theorem wrapW_fMax (sg : Bool) (n a b c : Nat) : wrapW (fMax sg n a b c) n = wrapW (max (sv sg a n) (sv sg b n)) n := by
  unfold fMax
  split
  · next h => rw [max_eq_right h.le, wrapW_sv]
  · next h => rw [max_eq_left (not_lt.mp h), wrapW_sv]

/-- A register-form integer instruction whose function wraps to that of the claim. -/
theorem intRG_done {ins : Instr} {w : Width} (used : Nat) {x : RG} {f : Nat → Nat → Nat → Nat → Int} {s : State} {c sl : Nat} {t : Team}
    (ci : CanIssue s c sl t x.h) (ha : allocRG (isPair w) x t = true) (hw : ins.wf = true) (hr : isReg x.d = true)
    (h : Ready (issueOf s c sl t x.h) ([rdA (issueOf s c sl t x.h) x (isPair w), rd (issueOf s c sl t x.h) x.b (isPair w),
      rd (issueOf s c sl t x.h) x.c (isPair w)].take used) [(x.d, isPair w)]) {val : Nat → DWord}
    (hf : ∀ l, wrapW (f (wbits w) (numA (issueOf s c sl t x.h) x w l) (numB (issueOf s c sl t x.h) x w l)
      (numC (issueOf s c sl t x.h) x w l)) (wbits w) = val l) :
    Yields s c sl t x.h (intRG ins w used x f s) x.d (isPair w) val fun _ => 63 :=
  yields_congr (intRG_yields used ci ha hw hr h) hf fun _ => rfl

/-- Settles O1: the function of each instruction wraps to the number that the claim names. -/
theorem integerArithmeticResults : Obligations.IntegerArithmeticResults := by
  intro w x s c sl t ci ha i n A B C sA sB Done
  refine ⟨fun h => ⟨fun hw => ?_, fun hw => ?_, fun hw => ?_, fun hw => ?_, fun hw => ?_, fun hw => ?_⟩, fun h hw => ?_, fun h hw => ?_⟩
  · exact (intRG_done (ins := .iadd w x) (f := fAdd) 2 ci ha hw (legalAB_reg hw) h fun l => rfl :)
  · exact (intRG_done (ins := .isub w x) (f := fSub) 2 ci ha hw (legalAB_reg hw) h fun l => rfl :)
  · exact (intRG_done (ins := .imul w x) (f := fMul) 2 ci ha hw (legalAB_reg hw) h fun l => rfl :)
  · refine (intRG_done (ins := .imulh w x) (f := fMulh (x.sub.getLsbD 0)) 2 ci ha hw (legalAB_reg hw) h fun l => ?_ :)
    unfold fMulh
    push_cast
    rfl
  · exact (intRG_done (ins := .imin w x) (f := fMin (x.sub.getLsbD 0)) 2 ci ha hw (legalAB_reg hw) h fun l => wrapW_fMin .. :)
  · exact (intRG_done (ins := .imax w x) (f := fMax (x.sub.getLsbD 0)) 2 ci ha hw (legalAB_reg hw) h fun l => wrapW_fMax .. :)
  · exact (intRG_done (ins := .imad w x) (f := fMad) 3 ci ha hw (legalABC_reg hw) h fun l => rfl :)
  · refine (intRG_done (ins := .iabs w x) (f := fAbs) 1 ci ha hw (legalA_reg hw) h fun l => ?_ :)
    unfold fAbs
    rw [Int.natCast_natAbs]

/-! ### Division (R108) -/

/-- Truncating division by signs and magnitudes. -/
theorem tdiv_eq_sign_mul (a b : Int) : a.tdiv b = a.sign * b.sign * (|a| / |b|) := by
  have key : |a| / |b| = ((a.tdiv b).natAbs : Int) := by
    rw [Int.natAbs_tdiv, Int.abs_eq_natAbs, Int.abs_eq_natAbs]
    rfl
  rw [key]
  conv_lhs => rw [← Int.sign_mul_natAbs (a.tdiv b), Int.sign_tdiv]
  split
  · next h =>
    rw [Int.natAbs_tdiv, show a.natAbs.div b.natAbs = 0 from Nat.div_eq_of_lt h]
    simp
  · rfl
/-- A divisor is 0 exactly when its reading is. -/
theorem sv_eq_zero_iff (sg : Bool) {n b : Nat} (hb : b < 2 ^ n) : sv sg b n = 0 ↔ b = 0 := by
  have hmod : (b : Int) % 2 ^ n = b := Int.emod_eq_of_lt (by positivity) (by exact_mod_cast hb)
  constructor
  · intro h
    have := sv_emod sg b n
    rw [h, hmod] at this
    simpa using this.symm
  · rintro rfl
    cases sg <;> simp [sv, sx]

/-- The quotient that the claim names: truncated by signs and magnitudes where signed. -/
def quotient (sg : Bool) (a b : Int) : Int := if sg then a.sign * b.sign * (|a| / |b|) else a / b
theorem quotient_eq_tdiv (sg : Bool) (n a b : Nat) : quotient sg (sv sg a n) (sv sg b n) = (sv sg a n).tdiv (sv sg b n) := by
  cases sg
  · exact (Int.tdiv_eq_ediv_of_nonneg (Int.natCast_nonneg a)).symm
  · exact (tdiv_eq_sign_mul ..).symm
/-- The least number wraps as its negation does (R108). -/
theorem wrapW_neg_least {n : Nat} (hn : 0 < n) : wrapW (-2 ^ (n - 1)) n = wrapW (2 ^ (n - 1)) n := by
  apply wrapW_congr
  obtain ⟨m, rfl⟩ := Nat.exists_eq_succ_of_ne_zero hn.ne'
  rw [Nat.succ_eq_add_one, Nat.add_sub_cancel, Int.emod_eq_emod_iff_emod_sub_eq_zero]
  exact Int.emod_eq_zero_of_dvd ⟨-1, by ring⟩

section division
variable (sg : Bool) {n : Nat} (a : Nat) {b : Nat} (c : Nat) (hb : b < 2 ^ n)
include hb

theorem wrapW_fDiv (hn : 0 < n) : wrapW (fDiv sg n a b c) n = wrapW (if sv sg b n = 0 then -1
    else if sg = true ∧ sv sg a n = -2 ^ (n - 1) ∧ sv sg b n = -1 then -2 ^ (n - 1) else quotient sg (sv sg a n) (sv sg b n)) n := by
  unfold fDiv
  simp only [sv_eq_zero_iff sg hb]
  by_cases h0 : b = 0
  · simp only [if_pos h0]
  · simp only [if_neg h0]
    split
    · next h =>
      obtain ⟨-, ha, hb⟩ := h
      rw [ha, hb, wrapW_neg_least hn]
      simp
    · rw [quotient_eq_tdiv]
theorem wrapW_fRem : wrapW (fRem sg n a b c) n = wrapW (if sv sg b n = 0 then sv sg a n
    else if sg = true ∧ sv sg a n = -2 ^ (n - 1) ∧ sv sg b n = -1 then 0
    else sv sg a n - quotient sg (sv sg a n) (sv sg b n) * sv sg b n) n := by
  unfold fRem
  simp only [sv_eq_zero_iff sg hb]
  by_cases h0 : b = 0
  · simp only [if_pos h0, wrapW_sv]
  · simp only [if_neg h0]
    split
    · next h =>
      obtain ⟨-, -, hb⟩ := h
      rw [hb]
      simp
    · rw [quotient_eq_tdiv, Int.tmod_def, mul_comm]
end division

/-- Settles O2: truncating division is the quotient by signs and magnitudes, and its two corners wrap to what R108 fixes. -/
theorem divisionResults : Obligations.DivisionResults := by
  intro w x s c sl t ci ha i h n signed a b q corner Done
  have hn : 0 < wbits w := by cases w <;> decide
  refine ⟨fun hw => ?_, fun hw => ?_⟩
  · exact (intRG_done (ins := .idiv w x) (f := fDiv signed) 2 ci ha hw (legalAB_reg hw) h fun l => wrapW_fDiv _ _ _ (ival_lt ..) hn :)
  · exact (intRG_done (ins := .irem w x) (f := fRem signed) 2 ci ha hw (legalAB_reg hw) h fun l => wrapW_fRem _ _ _ (ival_lt ..) :)

/-! ### Counts and reversal (R107) -/

theorem computes_fPopc {n : Nat} : Computes fPopc fun a _ : BitVec n => BitVec.ofNat n ((List.range n).countP fun k => a.getLsbD k) :=
  fun a b c _ _ => by
  have hbit : ∀ k ∈ List.range n, (BitVec.ofNat n a).getLsbD k = a.testBit k := fun k hk => by
    rw [BitVec.getLsbD_ofNat, decide_eq_true (List.mem_range.mp hk), Bool.true_and]
  simp only [fPopc, BitVec.ofInt_natCast, List.countP_congr fun k hk => Bool.coe_iff_coe.mpr (hbit k hk), List.countP_eq_length_filter]
theorem computes_fClz {n : Nat} (hn : 0 < n) : Computes fClz fun a _ : BitVec n => a.clz := fun a b c ha _ => by
  dsimp only
  unfold fClz
  split
  · next h =>
    rw [h]
    exact (BitVec.clz_eq_iff_eq_zero.mpr rfl).symm
  · next h =>
    have hx : BitVec.ofNat n a ≠ 0#n := fun e => h (by simpa [toNat_ofNat_lt ha] using congrArg BitVec.toNat e)
    have hlo := BitVec.two_pow_sub_clz_le_toNat_of_ne_zero hn hx
    have hhi := BitVec.toNat_lt_two_pow_sub_clz (x := BitVec.ofNat n a)
    rw [toNat_ofNat_lt ha] at hlo hhi
    have hlt : (BitVec.ofNat n a).clz.toNat < n := by
      by_contra hge
      rw [Nat.sub_eq_zero_of_le (by omega)] at hhi
      omega
    have hlog : a.log2 = n - 1 - (BitVec.ofNat n a).clz.toNat := by
      rw [Nat.log2_eq_iff h]
      exact ⟨hlo, by rwa [show n - 1 - (BitVec.ofNat n a).clz.toNat + 1 = n - (BitVec.ofNat n a).clz.toNat by omega]⟩
    rw [show (n : Int) - 1 - a.log2 = ((BitVec.ofNat n a).clz.toNat : Int) by omega, BitVec.ofInt_natCast, BitVec.ofNat_toNat,
      BitVec.setWidth_eq]

/-- The bits that the reversal has gathered from the lowest `m` bits of its operand. -/
theorem testBit_reversed (n a : Nat) {j : Nat} (hj : j < n) : ∀ m ≤ n,
    (List.range m).foldl (fun r k => if a.testBit k then r + 2 ^ (n - 1 - k) else r) 0 % 2 ^ (n - m) = 0 ∧
    ((List.range m).foldl (fun r k => if a.testBit k then r + 2 ^ (n - 1 - k) else r) 0).testBit j =
      (decide (n - 1 - j < m) && a.testBit (n - 1 - j))
  | 0, _ => by simp
  | m + 1, hm => by
    obtain ⟨hz, hb⟩ := testBit_reversed n a hj m (by omega)
    rw [List.range_succ, List.foldl_append, List.foldl_cons, List.foldl_nil]
    generalize (List.range m).foldl (fun r k => if a.testBit k then r + 2 ^ (n - 1 - k) else r) 0 = r at hz hb
    have hdvd : 2 ^ (n - m) ∣ r := Nat.dvd_of_mod_eq_zero hz
    have hp : n - m = n - (m + 1) + 1 := by omega
    have hj' : n - (m + 1) = j ↔ n - 1 - j = m := by omega
    constructor
    · have hlow : 2 ^ (n - (m + 1)) ∣ r := (Nat.pow_dvd_pow 2 (by omega)).trans hdvd
      apply Nat.mod_eq_zero_of_dvd
      split
      · exact Nat.dvd_add hlow (by rw [show n - 1 - m = n - (m + 1) by omega])
      · exact hlow
    · obtain ⟨q, rfl⟩ := hdvd
      rw [show n - 1 - m = n - (m + 1) by omega]
      by_cases ha : a.testBit m = true
      · rw [if_pos ha, Nat.two_pow_add_eq_or_of_lt (by rw [hp, Nat.pow_succ]; have := Nat.two_pow_pos (n - (m + 1)); omega), Nat.testBit_or, hb,
          Nat.testBit_two_pow]
        by_cases hm' : n - 1 - j = m
        · simp [hj', hm', ha]
        · simp only [hj', hm', decide_false, Bool.or_false, Nat.lt_succ_iff_lt_or_eq, or_false]
      · rw [if_neg ha, hb]
        by_cases hm' : n - 1 - j = m
        · simp [hm', ha]
        · simp only [hm', Nat.lt_succ_iff_lt_or_eq, or_false]
theorem computes_fBrev {n : Nat} : Computes fBrev fun a _ : BitVec n => a.reverse := fun a b c _ _ => by
  apply BitVec.eq_of_getLsbD_eq
  intro j hj
  dsimp only
  unfold fBrev
  rw [BitVec.ofInt_natCast, BitVec.getLsbD_ofNat, (testBit_reversed n a hj n le_rfl).2, BitVec.getLsbD_reverse, BitVec.getMsbD_eq_getLsbD,
    BitVec.getLsbD_ofNat]

/-! ### Bit fields (R109) -/

/-- Bit `k` of a number whose lowest `p` bits, next `m` bits and rest are given. -/
theorem testBit_three {p m lo mid hi k : Nat} (hlo : lo < 2 ^ p) (hmid : mid < 2 ^ m) :
    (lo + mid * 2 ^ p + hi * 2 ^ (p + m)).testBit k =
      if k < p then lo.testBit k else if k < p + m then mid.testBit (k - p) else hi.testBit (k - (p + m)) := by
  have e : lo + mid * 2 ^ p + hi * 2 ^ (p + m) = 2 ^ p * (2 ^ m * hi + mid) + lo := by rw [Nat.pow_add]; ring
  rw [e, Nat.testBit_two_pow_mul_add _ hlo, Nat.testBit_two_pow_mul_add _ hmid, Nat.sub_sub]
  by_cases hk : k < p
  · rw [if_pos hk, if_pos hk]
  · rw [if_neg hk, if_neg hk]
    exact if_congr (by omega) rfl rfl

/-- The field that BFX takes, as bits: those inside the word, and above them its highest bit where it is signed. -/
theorem getLsbD_fBfx (sg : Bool) {n a b : Nat} (c : Nat) {k : Nat} (hk : k < n) : (BitVec.ofInt n (fBfx sg n a b c)).getLsbD k =
    if k < b / 256 % 256 ∧ b % 256 + k < n then (BitVec.ofNat n a).getLsbD (b % 256 + k)
    else sg && decide (0 < b / 256 % 256) && decide (b % 256 < n) &&
      (BitVec.ofNat n a).getLsbD (min (b % 256 + b / 256 % 256) n - 1) := by
  unfold fBfx fieldLen
  generalize b / 256 % 256 = len
  generalize b % 256 = pos
  dsimp only
  by_cases hm : min len (n - pos) = 0
  · rw [if_pos hm, if_neg (by omega)]
    by_cases h0 : 0 < len
    · simp [h0, show ¬ pos < n by omega]
    · simp [h0]
  · rw [if_neg hm]
    have hfield (j : Nat) (hj : j < min len (n - pos)) :
        (BitVec.ofNat (min len (n - pos)) (a / 2 ^ pos % 2 ^ min len (n - pos))).getLsbD j = (BitVec.ofNat n a).getLsbD (pos + j) := by
      rw [BitVec.getLsbD_ofNat, BitVec.getLsbD_ofNat, Nat.testBit_mod_two_pow, Nat.testBit_div_two_pow]
      simp [hj, show pos + j < n by omega, Nat.add_comm]
    have hin : (k < len ∧ pos + k < n) ↔ k < min len (n - pos) := by omega
    simp only [hin]
    cases sg with
    | false =>
      simp only [sv, Bool.false_eq_true, if_false, Bool.false_and, BitVec.ofInt_natCast]
      split
      · next hlt =>
        rw [← hfield k hlt, BitVec.getLsbD_ofNat, BitVec.getLsbD_ofNat]
        simp [hk, hlt]
      · next hge =>
        rw [BitVec.getLsbD_ofNat, Nat.testBit_mod_two_pow]
        simp [hge]
    | true =>
      simp only [sv, if_true, sx_eq_toInt (Nat.pos_of_ne_zero hm)]
      show (BitVec.signExtend n _).getLsbD k = _
      rw [BitVec.getLsbD_signExtend, decide_eq_true hk, Bool.true_and]
      split
      · next hlt => exact hfield k hlt
      · next hge =>
        rw [BitVec.msb_eq_getLsbD_last, hfield _ (by omega), show min (pos + len) n - 1 = pos + (min len (n - pos) - 1) by omega]
        simp [show 0 < len by omega, show pos < n by omega]

/-- The word into which BFI puts its field, as bits. -/
theorem getLsbD_fBfi {n a b c k : Nat} (hk : k < n) : (BitVec.ofInt n (fBfi n a b c)).getLsbD k =
    if decide (b % 256 ≤ k) && decide (k < b % 256 + b / 256 % 256) && decide (k < n) then (BitVec.ofNat n a).getLsbD (k - b % 256)
    else (BitVec.ofNat n c).getLsbD k := by
  unfold fBfi fieldLen
  generalize b / 256 % 256 = len
  generalize b % 256 = pos
  dsimp only
  simp only [← Bool.decide_and, decide_eq_true_eq]
  by_cases hm : min len (n - pos) = 0
  · rw [if_pos hm, if_neg (by omega), BitVec.ofInt_natCast]
  · rw [if_neg hm, BitVec.ofInt_natCast, BitVec.getLsbD_ofNat, testBit_three (Nat.mod_lt _ (Nat.two_pow_pos _)) (Nat.mod_lt _ (Nat.two_pow_pos _)),
      BitVec.getLsbD_ofNat, BitVec.getLsbD_ofNat]
    simp only [hk, decide_true, Bool.true_and, and_true]
    by_cases hlo : k < pos
    · rw [if_pos hlo, if_neg (by omega), Nat.testBit_mod_two_pow]
      simp [hlo]
    · rw [if_neg hlo]
      by_cases hin : k < pos + min len (n - pos)
      · rw [if_pos hin, if_pos (by omega), Nat.testBit_mod_two_pow]
        simp [show k - pos < min len (n - pos) by omega, show k - pos < n by omega]
      · rw [if_neg hin, if_neg (by omega), Nat.testBit_div_two_pow, show k - (pos + min len (n - pos)) + (pos + min len (n - pos)) = k by omega]

/-- Settles O3: each function is the bit-vector operation of the claim, and the bits of BFX and BFI are those of their fields. -/
theorem logicAndBitFieldResults : Obligations.LogicAndBitFieldResults := by
  constructor
  · intro w x s c sl t ci ha i n A B Done
    have hn : 0 < wbits w := by cases w <;> decide
    have done {ins : Instr} (used : Nat) {f : Nat → Nat → Nat → Nat → Int} {v : BitVec (wbits w) → BitVec (wbits w) → BitVec (wbits w)}
        (hf : Computes f v) (hr : isReg x.d = true) (hw : ins.wf = true)
        (h : Ready i ([rdA i x (isPair w), rd i x.b (isPair w), rd i x.c (isPair w)].take used) [(x.d, isPair w)]) :
        Done (intRG ins w used x f s) fun l => v (A l) (B l) := by
      refine intRG_done used ci ha hw hr h fun l => ?_
      rw [wrapW_ofInt]
      exact congrArg (BitVec.setWidth 64) (hf _ _ _ (ival_lt ..) (ival_lt ..))
    refine ⟨fun h => ⟨fun hw => ?_, fun hw => ?_, fun hw => ?_, fun hw => ?_, fun hw => ?_, fun hw => ?_, fun hw => ?_, fun hw => ?_⟩,
      fun h => ⟨fun hw => ?_, fun hw => ?_, fun hw => ?_⟩⟩
    · exact (done (ins := .and w x) 2 computes_fAnd (legalAB_reg hw) hw h :)
    · exact (done (ins := .or w x) 2 computes_fOr (legalAB_reg hw) hw h :)
    · exact (done (ins := .xor w x) 2 computes_fXor (legalAB_reg hw) hw h :)
    · exact (done (ins := .andn w x) 2 computes_fAndn (legalAB_reg hw) hw h :)
    · exact (done (ins := .shl w x) 2 computes_fShl (legalAB_reg hw) hw h :)
    · exact (done (ins := .shr w x) 2 computes_fShr (legalAB_reg hw) hw h :)
    · exact (done (ins := .sar w x) 2 (computes_fSar hn) (legalAB_reg hw) hw h :)
    · exact (done (ins := .rol w x) 2 computes_fRol (legalAB_reg hw) hw h :)
    · exact (done (ins := .popc w x) 1 computes_fPopc (legalA_reg hw) hw h :)
    · exact (done (ins := .clz w x) 1 (computes_fClz hn) (legalA_reg hw) hw h :)
    · exact (done (ins := .brev w x) 1 computes_fBrev (legalA_reg hw) hw h :)
  · intro w x s c sl t ci ha i n A C pos len inside
    refine ⟨fun h hw => ⟨fun l => BitVec.ofInt n (fBfx (x.sub.getLsbD 0) n (numA i x w l) (numB i x w l) (numC i x w l)), ?_, fun l k hk => ?_⟩,
      fun h hw => ⟨fun l => BitVec.ofInt n (fBfi n (numA i x w l) (numB i x w l) (numC i x w l)), ?_, fun l k hk => ?_⟩⟩
    · exact (intRG_done (ins := .bfx w x) (f := fBfx (x.sub.getLsbD 0)) 2 ci ha hw (legalAB_reg hw) h fun l => wrapW_ofInt .. :)
    · exact getLsbD_fBfx _ _ hk
    · exact (intRG_done (ins := .bfi w x) (f := fBfi) 3 ci ha hw (legalABC_reg hw) h fun l => wrapW_ofInt .. :)
    · exact getLsbD_fBfi hk

end Sys2Proof.Proofs

/-! PROOFS. Moves, predicate functions and compares (O5, O6, O7). -/

namespace Sys2Proof.Proofs

open Sys2Proof.Machine Sys2Proof.Safety Sys2Proof.Laws

/-! ### Moves (R107, R110) -/

/-- A number that fits the width is the word that it wraps to. -/
theorem wrapW_of_lt {k n : Nat} (h : k < 2 ^ n) : wrapW k n = BitVec.ofNat 64 k := by
  unfold wrapW wrap
  rw [← Int.natCast_emod, Int.toNat_natCast, Nat.mod_eq_of_lt h]

theorem numImm_lt (x : IM) (w : Width) : numImm x w < 2 ^ wbits w := immRd_num x w 0 ▸ ival_lt ..
/-- The lower half of the immediate. -/
theorem numImm_half (x : IM) (w : Width) : numImm x w % 2 ^ (wbits w / 2) = x.imm.toNat % 2 ^ (wbits w / 2) := by
  have hx := x.imm.isLt
  cases w
  · simp only [numImm, wrap, sx, wbits]
    split <;> omega
  · simp only [numImm, wrap, sx, wbits]
    split <;> omega

/-- MOVH has its destination ready as a source where step 4 finds it free. -/
theorem ready_old {i : Issue} {d : Opd} {pair : Bool} (hr : isReg d = true) (h : Ready i [] [(d, pair)]) :
    Ready i [rd i ⟨d, false, false⟩ pair] [(d, pair)] := by
  refine ⟨fun r hin l hl => ?_, h.dst⟩
  rw [List.mem_singleton.mp hin]
  exact full_of_dstFree (h.dst _ (List.mem_singleton_self _) l hl) hr

/-- Two halves make a word. -/
theorem halves_lt (w : Width) (a b : Nat) : a % 2 ^ (wbits w / 2) + b % 2 ^ (wbits w / 2) * 2 ^ (wbits w / 2) < 2 ^ wbits w := by
  cases w <;> simp only [wbits] <;> omega
theorem ival_half (w : Width) (v : Val) : ival (wbits w) false v % 2 ^ (wbits w / 2) = v.bits.toNat % 2 ^ (wbits w / 2) := by
  cases w <;> simp only [ival, wbits, Bool.false_eq_true, if_false] <;> omega

/-- Settles O5: each move puts its source with its tag, or the immediate, or the immediate above the lower half of what stood there. -/
theorem moveResults : Obligations.MoveResults := by
  intro w s c sl t
  refine ⟨fun x ci ha => ?_, fun x ci ha => ?_⟩
  · intro i a b p pick
    refine ⟨fun h hw => ?_, fun h hw => ?_⟩
    · show Yields s c sl t x.h (execMov w x s) _ _ _ _
      unfold execMov
      refine putRes_yields ci hw ha (legalA_reg hw) ?_
      dsimp only
      rw [gate_ready h]
      simp only [pairBits_isPair]
      rfl
    · show Yields s c sl t x.h (execSel w x s) _ _ _ _
      unfold execSel
      refine putRes_yields ci hw ha (legalSel_reg hw) ?_
      dsimp only
      rw [gate_ready h]
      simp only [pairBits_isPair]
      rfl
  · intro i old h
    refine ⟨fun hr hw => ?_, fun hr hw => ?_⟩
    · show Yields s c sl t x.h (execMovi w x s) _ _ _ _
      unfold execMovi
      refine yields_congr (putRes_yields ci hw ha (legalMovi_reg hw) (intBody_ready hr)) (fun l => ?_) fun _ => rfl
      rw [pairBits_isPair, immRd_num, wrapW_of_lt (numImm_lt x w)]
    · have hl : legalMovi (isPair w) x = true := (Bool.and_eq_true_iff.mp hw).1
      show Yields s c sl t x.h (execMovh w x s) _ _ _ _
      unfold execMovh
      refine yields_congr (putRes_yields ci hw ha (legalMovi_reg hl) (intBody_ready (ready_old (legalMovi_reg hl) hr))) (fun l => ?_) fun _ => rfl
      rw [pairBits_isPair, immRd_num, wrapW_of_lt (halves_lt w ..), numImm_half, ival_half, Nat.mul_comm (x.imm.toNat % _)]
      rfl

/-! ### Predicate functions (R112) -/

/-- What the word of a legal PSET names (R112). -/
theorem legalPset_fields {x : RG} (h : legalPset x = true) : isP x.d = true ∧ isP x.a.o = true ∧ isP x.b.o = true ∧ x.sub.toNat / 16 = 0 := by
  simp only [legalPset, pOk, Bool.and_eq_true, decide_eq_true_eq] at h
  obtain ⟨⟨⟨⟨⟨⟨⟨-, hd⟩, ha, -⟩, hb, -⟩, -⟩, -⟩, -⟩, hs⟩ := h
  exact ⟨hd, ha, hb, by omega⟩
/-- A Boolean as an index. -/
theorem toNat_eq_ite (b : Bool) : b.toNat = if b then 1 else 0 := by cases b <;> rfl

/-- Settles O6: the bit of the truth table that the two sources select. -/
theorem predicateFunctions : Obligations.PredicateFunctions := by
  intro x
  refine ⟨rfl, legalPset_fields, fun d a b am bm f hf hg => ?_, ?_⟩
  · have hle : f.toNat ≤ 15 := by omega
    show legalPset _ = true
    simp [legalPset, headOk, hg, isP, pOk, srcZero, opdZero, srZero, xlZero, hle]
  · intro s c sl t ci hw i a b h
    show Yields s c sl t x.h (execPset x s) _ _ _ _
    unfold execPset
    refine putRes_yields ci hw rfl (isP_reg (legalPset_fields hw).1) ?_
    dsimp only
    rw [gate_ready h]
    simp only [← toNat_eq_ite]
    rfl

/-! ### Compares (R111, R113, R145) -/

theorem icmpF_eq_holds (k : Cond) (a b : Int) : icmpF k a b = holds k a b := by
  cases k <;> simp [icmpF, holds, Bool.beq_eq_decide_eq, bne]
theorem legalIcmp_reg {k : Cond} {w : Bool} {x : RG} (h : legalIcmp k w x = true) : isReg x.d = true := by
  simp only [legalIcmp, Bool.and_eq_true] at h
  obtain ⟨⟨⟨⟨⟨⟨⟨-, hd⟩, -⟩, -⟩, -⟩, -⟩, -⟩, -⟩ := h
  exact isP_reg hd
theorem legalIcmpIm_reg {k : Cond} {w : Bool} {x : IM} (h : legalIcmpIm k w x = true) : isReg x.d = true := by
  simp only [legalIcmpIm, Bool.and_eq_true] at h
  obtain ⟨⟨⟨-, hd⟩, -⟩, -⟩ := h
  exact isP_reg hd
theorem legalPmov_reg {x : RG} (h : legalPmov x = true) : isReg x.d = true := by
  simp only [legalPmov, Bool.and_eq_true] at h
  obtain ⟨-, hform⟩ := h
  split at hform
  all_goals simp only [Bool.and_eq_true, Bool.false_eq_true] at hform
  · exact isP_reg hform.1
  · exact isP_reg hform.1
  · exact isP_reg hform.1
  · exact vOk_reg hform.1
theorem legalFclass_fields {f : FW} {x : RG} (h : legalFclass f x = true) : isReg x.d = true ∧ x.sub.toNat / 64 ≠ 3 := by
  simp only [legalFclass, Bool.and_eq_true, decide_eq_true_eq] at h
  obtain ⟨⟨⟨⟨⟨⟨-, hd⟩, -⟩, -⟩, -⟩, -⟩, hs⟩ := h
  exact ⟨isP_reg hd, hs⟩

/-- Steps 3 to 7 of an ICMP with ready operands. -/
theorem icmpBody_ready {i : Issue} {k : Cond} {sg pair : Bool} {d : Opd} {a b : Rd} {used : Nat} {ma mb : Bool}
    (h : Ready i ([a, b].take used) [(d, false)]) : icmpBody k sg pair d a b used ma mb i = putRes i d false
      (fun l => ofB (holds k (sv sg (ival (pairBits pair) ma (a.at_ l)) (pairBits pair)) (sv sg (ival (pairBits pair) mb (b.at_ l)) (pairBits pair))))
      fun _ => 63 := by
  unfold icmpBody
  rw [gate_ready h]
  simp only [icmpF_eq_holds]

/-- The class test, whose sign filter has no code 3 in a legal word (R145). -/
theorem fclassF_eq (f : Fmt) {sub : BitVec 8} (h3 : sub.toNat / 64 ≠ 3) (v : FV) : fclassF f sub.toNat v =
    (sub.getLsbD (classOf f v) && (isNaN v || (sub.toNat / 64 == 0) || ((sub.toNat / 64 == 2) == sgn v))) := by
  have hcode : sub.toNat / 64 = 0 ∨ sub.toNat / 64 = 1 ∨ sub.toNat / 64 = 2 := by have := sub.isLt; omega
  unfold fclassF
  rw [Bool.or_assoc]
  rcases hcode with h | h | h
  · rw [h]
    rfl
  · rw [h]
    cases sgn v <;> rfl
  · rw [h]
    cases sgn v <;> rfl

/-- Settles O7: ICMP puts the condition of its two readings, PMOV the test of its source, FCLASS the class test. -/
theorem compareResults : Obligations.CompareResults := by
  intro s c sl t
  refine ⟨fun k sg w x ci ha => ?_, fun k sg w x ci ha => ?_, fun x ci ha => ?_, fun f x ci ha => ?_⟩
  · intro i a b h hw
    show Yields s c sl t x.h (execIcmp k sg w x s) _ _ _ _
    unfold execIcmp
    refine putRes_yields ci hw ha (legalIcmp_reg hw) ?_
    rw [icmpBody_ready h, pairBits_isPair]
    rfl
  · intro i a b h hw
    show Yields s c sl t x.h (execIcmpIm k sg w x s) _ _ _ _
    unfold execIcmpIm
    refine putRes_yields ci hw ha (legalIcmpIm_reg hw) ?_
    rw [icmpBody_ready h]
    simp only [pairBits_isPair, immRd_num]
    rfl
  · intro i a h hw
    have hb : pairBits (x.sub == 2) = if x.sub = 2 then 64 else 32 := by
      unfold pairBits
      simp only [beq_iff_eq]
    show Yields s c sl t x.h (execPmov x s) _ _ _ _
    unfold execPmov
    refine putRes_yields ci hw ha (legalPmov_reg hw) ?_
    dsimp only
    rw [gate_ready h]
    simp only [hb]
    rfl
  · intro i v hit h hw
    obtain ⟨hd, h3⟩ := legalFclass_fields hw
    show Yields s c sl t x.h (execFclass f x s) _ _ _ _
    unfold execFclass
    refine putRes_yields ci hw ha hd ?_
    dsimp only
    rw [gate_ready h]
    simp only [fclassF_eq _ h3]
    rfl

end Sys2Proof.Proofs

/-! PROOFS. Traps and returns, the end of teams, full/empty bits, NOP (O15, O17, O19). -/

namespace Sys2Proof.Proofs

open Sys2Proof.Machine Sys2Proof.Safety Sys2Proof.Laws

/-! ### TRAP and ERET (R122, R123, R375) -/

/-- The boundary of a run keeps the team that it is given, but for the bookkeeping of runs. -/
theorem boundary_carried (s : State) (c sl : Nat) (u : Team) (own : Bool) :
    TeamOnly s (boundary s c sl u own) c sl ∧
    ∃ w, getTeam (boundary s c sl u own) c sl = some w ∧ Carried u w ∧ w.lpc = u.lpc ∧ w.retcnt = u.retcnt := by
  obtain ⟨hon, w, hw, rfl | rfl | rfl⟩ := boundary_spec s c sl u own
  · exact ⟨hon, _, hw, rfl, rfl, rfl⟩
  · exact ⟨hon, _, hw, endRunTeam_carried u⟩
  · exact ⟨hon, _, hw, rfl, rfl, rfl⟩

/-- A region entry that is not due changes nothing (R38, R371). -/
theorem entered_eq_self (s : State) {t : Team} {h : Head} (he : t.enter = false) (hr : h.rgn = false) : entered s t h = t := by
  simp [entered, enterRegion, he, hr]

/-- What a return brings back (R123, R375): the saved scalars, and the saved `lpc` of the live lanes, of which those at TRAPPC go to `away`. -/
structure Returned (t u : Team) (sv : Saved) (away : Word) : Prop where
  saved : u.saved = none
  scalars : ∀ k, k < 8 → getS u (56 + k) = nth default sv.s56 k
  vec : ∀ n l, l < 32 → getV u n l = getV t n l
  low : ∀ n, n < 56 → getS u n = getS t n
  prd : ∀ n, getP u n = getP t n
  cause : u.trapcause = t.trapcause
  pc : u.trappc = t.trappc
  mask : u.trapmask = t.trapmask
  lpc : ∀ l < 32, getLpc u l =
    if !inMask t.live l then getLpc t l else if nth 0 sv.lpc l = t.trappc.setWidth 32 then away else nth 0 sv.lpc l

/-- A team that carries over what a return left has returned too. -/
theorem Returned.carried {t u w : Team} {sv : Saved} {away : Word} (h : Returned t u sv away) (hc : Carried u w) (hl : w.lpc = u.lpc) :
    Returned t w sv away := by
  obtain ⟨hv, hs, hp⟩ := hc.maps
  have hS (n : Nat) : getS w n = getS u n := by unfold getS; rw [hs]
  refine ⟨hc.control.saved.trans h.saved, fun k hk => (hS _).trans (h.scalars k hk), fun n l hl => ?_, fun n hn => (hS n).trans (h.low n hn),
    fun n => ?_, hc.control.trapcause.trans h.cause, hc.control.trappc.trans h.pc, hc.control.trapmask.trans h.mask, fun l hl32 => ?_⟩
  · rw [← h.vec n l hl]
    unfold getV
    rw [hv]
  · rw [← h.prd n]
    unfold getP
    rw [hp]
  · rw [← h.lpc l hl32]
    unfold getLpc
    rw [hl]

section leave
variable {t : Team} {sv : Saved} (hsv : t.saved = some sv)
include hsv

/-- Where ERET sends the lanes that had trapped (R123). -/
theorem leaveHandler_returned (skip : Bool) : Returned t (leaveHandler t skip) sv
    (if skip then t.trappc.setWidth 32 + 1 else if sv.rgncnt = 0 ∧ sv.enter = false then 0 else sv.rgnpc) := by
  obtain ⟨m, hm⟩ := foldl_setS_only (fun i => nth default sv.s56 i) t 8
  have hS := fun n => getS_foldl_setS (fun i => nth default sv.s56 i) t n 8
  rw [hm] at hS
  unfold leaveHandler
  rw [hsv]
  simp only [hm]
  refine ⟨rfl, fun k hk => ?_, fun _ _ _ => rfl, fun n hn => ?_, fun _ => rfl, rfl, rfl, rfl, fun l hl => ?_⟩
  · refine (hS (56 + k)).trans ?_
    rw [if_pos (by omega), Nat.add_sub_cancel_left]
  · exact (hS n).trans (if_neg (by omega))
  · unfold getLpc nth
    rw [List.getD_eq_getElem _ _ (by simpa [lanes] using hl)]
    cases skip <;> simp [lanes]
theorem leaveHandler_skip : (if sv.enter || sv.rgn then (leaveHandler t true).rgnpc = t.trappc.setWidth 32 ∧
      (leaveHandler t true).rgncnt = sv.rgncnt + 1 ∧ (leaveHandler t true).retcnt = 1
    else (leaveHandler t true).rgnpc = sv.rgnpc ∧ (leaveHandler t true).rgncnt = sv.rgncnt ∧ (leaveHandler t true).retcnt = sv.retcnt + 1) := by
  unfold leaveHandler
  rw [hsv]
  cases hd : sv.enter || sv.rgn <;> simp [hd]
theorem leaveHandler_restart : (leaveHandler t false).rgnpc = sv.rgnpc ∧ (leaveHandler t false).retcnt = 0 := by
  unfold leaveHandler
  rw [hsv]
  exact ⟨rfl, rfl⟩
end leave

/-- An ERET completes with its team as `leaveHandler` makes it (R123). -/
theorem eretBody_eq {ins : Instr} {x : RG} {skip : Bool} {s : State} {c sl : Nat} {t : Team} {sv : Saved} (ci : CanIssue s c sl t x.h)
    (hw : ins.wf = true) (hsv : t.saved = some sv) (hr : x.h.rgn = false) (he : t.enter = false) :
    ∃ v n s' u, eretBody ins x skip s = .next s' ∧ getTeam s' c sl = some u ∧
      Carried (leaveHandler { t with undo := v, undoNew := n } skip) u ∧
      u.lpc = (leaveHandler { t with undo := v, undoNew := n } skip).lpc ∧
      u.retcnt = (leaveHandler { t with undo := v, undoNew := n } skip).retcnt ∧ TeamOnly s s' c sl := by
  obtain ⟨v, n, hu⟩ := pushUndo_eq (issueOf s c sl t x.h).s (issueOf s c sl t x.h).t (undoTrapRegs (issueOf s c sl t x.h).t)
  have ht : (issueOf s c sl t x.h).t = t := entered_eq_self s he hr
  let u0 := leaveHandler { t with undo := v, undoNew := n } skip
  let s1 := setTeam (issueOf s c sl t x.h).s c sl u0
  obtain ⟨hd1, hd2, hd3⟩ := stepDone_carried (issued u0 s1.clock x.h)
  obtain ⟨hon, u, hget, hcar, hlpc, hret⟩ := boundary_carried (pulse s1 u0.ctx) c sl (stepDone (issued u0 s1.clock x.h)) true
  have hdyn : t.saved.isSome = true := by rw [hsv]; rfl
  refine ⟨v, n, _, u, ?_, hget, carried_trans (carried_trans rfl hd1) hcar, hlpc.trans hd2, hret.trans hd3, ?_⟩
  · unfold eretBody
    rw [issue_eq ci _ hw hdyn, hu, ht]
    show Host.Outcome.next (match getTeam s1 c sl with | some u => _ | none => _) = _
    rw [show getTeam s1 c sl = some u0 from getTeam_setTeam_same ..]
    rfl
  · exact teamOnly_trans (teamOnly_trans (teamOnly_trans (teamOnly_issueOf ..) (teamOnly_setTeam ..)) (teamOnly_pulse ..)) hon

/-- Settles O15: TRAP is a body that traps, ERET one that puts back the team as `leaveHandler` makes it. -/
theorem trapAndReturn : Obligations.TrapAndReturn := by
  refine ⟨fun x s c sl t ci hw hready => ?_, fun x s c sl t sv ci hsv hr he => ?_⟩
  · show ∃ s' u, execTrap x s = _ ∧ _
    unfold execTrap
    exact issue_trap ci hw rfl rfl hready
  · intro tpc back
    have done {ins : Instr} (skip : Bool) (hw : ins.wf = true) : ∃ s' u, eretBody ins x skip s = .next s' ∧ getTeam s' c sl = some u ∧
        back u (if skip then tpc + 1 else if sv.rgncnt = 0 ∧ sv.enter = false then 0 else sv.rgnpc) ∧
        (∃ t', t'.saved = some sv ∧ t'.trappc = t.trappc ∧ u.rgnpc = (leaveHandler t' skip).rgnpc ∧
          u.rgncnt = (leaveHandler t' skip).rgncnt ∧ u.retcnt = (leaveHandler t' skip).retcnt) ∧ SameMemory s s' ∧ SameOthers s s' c sl := by
      obtain ⟨v, n, s', u, hout, hget, hcar, hlpc, hret, hon⟩ := eretBody_eq (skip := skip) ci hw hsv hr he
      have hret' : Returned { t with undo := v, undoNew := n } u sv _ :=
        (leaveHandler_returned (t := { t with undo := v, undoNew := n }) hsv skip).carried hcar hlpc
      obtain ⟨b1, b2, b3, b4, b5, b6, b7, b8, b9⟩ := hret'
      obtain ⟨hcnt, hpc⟩ := hcar.region
      exact ⟨s', u, hout, hget, ⟨b1, b2, b3, b4, b5, b6, b7, b8, b9⟩,
        ⟨{ t with undo := v, undoNew := n }, hsv, rfl, hpc, hcnt, hret⟩, hon.sameMemory, hon.others⟩
    refine ⟨fun hw => ?_, fun hw => ?_⟩
    · obtain ⟨s', u, hout, hget, hback, ⟨t', hsv', hpc', h1, h2, h3⟩, hmem, hoth⟩ := done (ins := .eretSkip x) true hw
      have hcounts := leaveHandler_skip hsv'
      rw [← h1, ← h2, ← h3, hpc'] at hcounts
      exact ⟨s', u, hout, hget, hback, hcounts, hmem, hoth⟩
    · obtain ⟨s', u, hout, hget, hback, ⟨t', hsv', -, h1, -, h3⟩, hmem, hoth⟩ := done (ins := .eretRestart x) false hw
      obtain ⟨hpc, hcnt⟩ := leaveHandler_restart hsv'
      exact ⟨s', u, hout, hget, hback, h1.trans hpc, h3.trans hcnt, hmem, hoth⟩

/-! ### Instructions that only advance (R119, R120) -/

/-- Step 8 alone: a body that is done and changed nothing. -/
theorem onlyAdvances_go {s : State} {c sl : Nat} {t : Team} {h : Head} {out : Host.Outcome State Fault Refusal}
    (hout : out = .next (retired (issueOf s c sl t h) false (issueOf s c sl t h).s)) : OnlyAdvances s c sl t h out := by
  obtain ⟨u, hget, ⟨hv, hs, hp⟩, hflags, hctl, hreg, hpos, hon⟩ :=
    retire_entered (getTeam_issueOf s c sl t h) rfl false false fun _ => issueAddr t + 1
  have hall := teamOnly_trans (teamOnly_issueOf s c sl t h) hon
  refine ⟨_, u, hout, hget, sameAllRegs_of_maps (hv.trans (enterRegion_v ..)) (hs.trans (enterRegion_s ..)) (hp.trans (enterRegion_p ..)),
    hflags, hctl, hreg, fun l hl => ?_, hall.sameMemory, hall.sameUnits, hall.others⟩
  rw [hpos l hl, ite_self]

/-! ### The word of NOP (R65, R119) -/

/-- The fields of a word, by their places (R65). -/
theorem unpackL_word (w : Nat) : unpackL wordFields w =
    [w % 2 ^ 38, w / 2 ^ 38 % 2, w / 2 ^ 39 % 2 ^ 8, w / 2 ^ 47 % 2 ^ 2, w / 2 ^ 49 % 2, w / 2 ^ 50 % 2, w / 2 ^ 51 % 2 ^ 8, w / 2 ^ 59 % 2 ^ 2,
      w / 2 ^ 61 % 2, w / 2 ^ 62 % 2 ^ 8, w / 2 ^ 70 % 2 ^ 2, w / 2 ^ 72 % 2 ^ 3, w / 2 ^ 75 % 2, w / 2 ^ 76 % 2, w / 2 ^ 77 % 2,
      w / 2 ^ 78 % 2 ^ 3, w / 2 ^ 81 % 2, w / 2 ^ 82 % 2 ^ 6, w / 2 ^ 88 % 2 ^ 8] := by
  simp only [wordFields, unpackL, Nat.div_div_eq_div_mul, Nat.reducePow, Nat.reduceMul]
theorem unpackL_rg (x : Nat) : unpackL rgFields x =
    [x % 2 ^ 8, x / 2 ^ 8 % 2 ^ 3, x / 2 ^ 11 % 2 ^ 6, x / 2 ^ 17 % 2 ^ 3, x / 2 ^ 20 % 2 ^ 3, x / 2 ^ 23 % 2 ^ 3, x / 2 ^ 26 % 2,
      x / 2 ^ 27 % 2 ^ 8, x / 2 ^ 35 % 2 ^ 2, x / 2 ^ 37 % 2] := by
  simp only [rgFields, unpackL, Nat.div_div_eq_div_mul, Nat.reducePow, Nat.reduceMul]

/-- A word is what decodes, as its 12 bytes. -/
theorem decode_bytesOfWord {w : Nat} (hw : w < 2 ^ 96) : decode (bytesOfWord w) = (decodeWord w).map fun i => (i, []) := by
  have h12 := length_bytesOfWord w
  have hword := wordOfBytes_bytesOfWord hw []
  rw [List.append_nil] at hword
  have hdrop : (bytesOfWord w).drop 12 = [] := List.drop_eq_nil_of_le h12.le
  simp only [decode, h12, Nat.lt_irrefl, if_false, hword, hdrop]
  cases decodeWord w <;> rfl
theorem decode_error {w : Nat} (hw : w < 2 ^ 96) (h : ∀ i, decodeWord w ≠ .ok i) : ∃ e, decode (bytesOfWord w) = .error e := by
  rw [decode_bytesOfWord hw]
  cases he : decodeWord w with
  | ok i => exact absurd he (h i)
  | error e => exact ⟨e, rfl⟩

/-- The register v0, all zero, has class and number 0. -/
theorem opdOf_zero {cls num : Nat} (hc : cls < 4) (hn : num < 256) (h : opdOf cls num = some (.v 0)) : cls = 0 ∧ num = 0 := by
  unfold opdOf at h
  split at h
  · simp only [Option.some.injEq, Opd.v.injEq] at h
    have := congrArg BitVec.toNat h
    simp only [BitVec.toNat_ofNat, Nat.mod_eq_of_lt (show num < 2 ^ 8 from hn)] at this
    exact ⟨rfl, this⟩
  · split at h <;> simp at h
  · repeat' split at h
    all_goals simp at h
  · split at h <;> simp at h

theorem srcOf_zero {cls num e m : Nat} (hc : cls < 4) (hn : num < 256) (he : e < 2) (hm : m < 2) {a : Src} (h : srcOf cls num e m = some a)
    (hz : srcZero a = true) : cls = 0 ∧ num = 0 ∧ e = 0 ∧ m = 0 := by
  unfold srcOf at h
  split at h
  · next o ho =>
    obtain rfl := Option.some.inj h
    simp only [srcZero, opdZero, Bool.and_eq_true, beq_iff_eq, Bool.not_eq_true', beq_eq_false_iff_ne] at hz
    obtain ⟨⟨rfl, he1⟩, hm1⟩ := hz
    obtain ⟨h1, h2⟩ := opdOf_zero hc hn ho
    exact ⟨h1, h2, by omega, by omega⟩
  · exact nomatch h
theorem rndOf_slot {k : Nat} (h : rndOf k = some .slot) : k = 0 := by
  unfold rndOf at h
  split at h <;> simp at h
  rfl
theorem xlOf_none {k : Nat} (h : xlOf k = some .none) : k = 0 := by
  unfold xlOf at h
  split at h <;> simp at h
  rfl

/-- A register-form body that names nothing is all zero (R72, R119). -/
theorem rgOf_zero {h : Head} {d : Opd} {a b : Src} {x : Nat} {r : RG} (hx : x < 2 ^ 38) (hr : rgOf h d a b x = .ok r)
    (hl : legalNone 0 r = true) : x = 0 ∧ opdZero d = true ∧ srcZero a = true ∧ srcZero b = true := by
  unfold rgOf at hr
  rw [unpackL_rg] at hr
  dsimp only at hr
  split at hr
  · exact nomatch hr
  · next hz =>
    split at hr
    · next c rn l hc hrn hxl =>
      obtain rfl := Except.ok.inj hr
      simp only [legalNone, bcZero, srZero, xlZero, Bool.and_eq_true, beq_iff_eq] at hl
      obtain ⟨⟨⟨⟨⟨⟨-, hd⟩, ha⟩, hb, hcz⟩, hslot, rfl⟩, rfl, hlane⟩, hsub⟩ := hl
      obtain ⟨hc1, hc2, hc3, hc4⟩ := srcOf_zero (Nat.mod_lt _ (by decide)) (Nat.mod_lt _ (by decide)) (Nat.mod_lt _ (by decide))
        (Nat.mod_lt _ (by decide)) hc hcz
      have hrnd := rndOf_slot hrn
      have hxl := xlOf_none hxl
      have hslot := congrArg BitVec.toNat hslot
      have hlane := congrArg BitVec.toNat hlane
      simp only [BitVec.toNat_ofNat, BitVec.reduceToNat, Nat.mod_mod] at hslot hlane hsub
      exact ⟨by omega, hd, ha, hb⟩
    · exact nomatch hr
    · exact nomatch hr

section nop
variable {w : Nat} (hmaj : w / 2 ^ 88 = 0x41)
include hmaj

/-- FN values above NOP's are not assigned (R83, R119). -/
theorem decodeWord_unassigned (hf : 5 ≤ w / 2 ^ 82 % 2 ^ 6) (i : Instr) : decodeWord w ≠ .ok i := by
  intro h
  have hrow : rowOf 0x41 (w / 2 ^ 82 % 2 ^ 6) = none := by
    show ctlRow _ = none
    generalize w / 2 ^ 82 % 2 ^ 6 = fn at hf
    unfold ctlRow
    split
    any_goals omega
    rfl
  unfold decodeWord at h
  rw [unpackL_word] at h
  dsimp only at h
  rw [hmaj, show (0x41 : Nat) % 2 ^ 8 = 0x41 from rfl, hrow] at h
  split at h
  · exact nomatch h
  · split at h <;> exact nomatch h

variable (hf : w / 2 ^ 82 % 2 ^ 6 = 4)
include hf

/-- A word of NOP that decodes has every operand field zero (R119). -/
theorem decodeWord_nop_zero {i : Instr} (h : decodeWord w = .ok i) : w % 2 ^ 72 = 0 := by
  have hrow : rowOf 0x41 4 = some (.rg fun x => some (.nop x)) := rfl
  unfold decodeWord at h
  rw [unpackL_word] at h
  dsimp only at h
  rw [hmaj, show (0x41 : Nat) % 2 ^ 8 = 0x41 from rfl, hf, hrow] at h
  split at h
  · exact nomatch h
  · split at h
    · next d a b hd ha hb =>
      dsimp only at h
      split at h
      · next r hr =>
        have hl : legalNone 0 r = true := by
          by_contra hno
          simp only [checked, Instr.wf, legal, hno, if_false] at h
          exact nomatch h
        obtain ⟨hx, hdz, haz, hbz⟩ := rgOf_zero (Nat.mod_lt _ (by decide)) hr hl
        simp only [opdZero, beq_iff_eq] at hdz
        rw [hdz] at hd
        obtain ⟨hd1, hd2⟩ := opdOf_zero (Nat.mod_lt _ (by decide)) (Nat.mod_lt _ (by decide)) hd
        obtain ⟨ha1, ha2, ha3, ha4⟩ := srcOf_zero (Nat.mod_lt _ (by decide)) (Nat.mod_lt _ (by decide)) (Nat.mod_lt _ (by decide))
          (Nat.mod_lt _ (by decide)) ha haz
        obtain ⟨hb1, hb2, hb3, hb4⟩ := srcOf_zero (Nat.mod_lt _ (by decide)) (Nat.mod_lt _ (by decide)) (Nat.mod_lt _ (by decide))
          (Nat.mod_lt _ (by decide)) hb hbz
        omega
      · exact nomatch h
    · exact nomatch h

/-- And one with every operand field zero decodes, whatever its guard but *never* and its hints (R70, R119). -/
theorem decodeWord_nop (hg : w / 2 ^ 78 % 16 ≠ 15) (hres : w / 2 ^ 72 % 8 = 0) (hz : w % 2 ^ 72 = 0) :
    ∃ x, decodeWord w = .ok (.nop x) := by
  have hrow : rowOf 0x41 4 = some (.rg fun x => some (.nop x)) := rfl
  let h : Head := ⟨w / 2 ^ 81 % 2 == 1, BitVec.ofNat 3 (w / 2 ^ 78 % 2 ^ 3), w / 2 ^ 77 % 2 == 1, w / 2 ^ 76 % 2 == 1, w / 2 ^ 75 % 2 == 1⟩
  let x : RG := ⟨h, .v 0, ⟨.v 0, false, false⟩, ⟨.v 0, false, false⟩, ⟨.v 0, false, false⟩, 0, .slot, .none, 0, 0⟩
  have hhead : headOk h = true := by
    have : ¬ (w / 2 ^ 81 % 2 = 1 ∧ w / 2 ^ 78 % 2 ^ 3 = 7) := by omega
    simp only [headOk, Bool.not_eq_true', Bool.and_eq_false_iff, beq_eq_false_iff_ne, h]
    by_contra hno
    push Not at hno
    refine this ⟨by simpa using hno.1, ?_⟩
    have := congrArg BitVec.toNat hno.2
    simpa using this
  have hbody : rgOf h (.v 0) ⟨.v 0, false, false⟩ ⟨.v 0, false, false⟩ 0 = .ok x := rfl
  have hwf : (Instr.nop x).wf = true := by
    show (headOk h && true && true && true && true && true && true) = true
    rw [hhead]
    rfl
  refine ⟨x, ?_⟩
  unfold decodeWord
  rw [unpackL_word]
  dsimp only
  rw [hmaj, show (0x41 : Nat) % 2 ^ 8 = 0x41 from rfl, hf, hrow, show w % 2 ^ 38 = 0 by omega, show w / 2 ^ 38 % 2 = 0 by omega,
    show w / 2 ^ 39 % 2 ^ 8 = 0 by omega, show w / 2 ^ 47 % 2 ^ 2 = 0 by omega, show w / 2 ^ 49 % 2 = 0 by omega,
    show w / 2 ^ 50 % 2 = 0 by omega, show w / 2 ^ 51 % 2 ^ 8 = 0 by omega, show w / 2 ^ 59 % 2 ^ 2 = 0 by omega,
    show w / 2 ^ 61 % 2 = 0 by omega, show w / 2 ^ 62 % 2 ^ 8 = 0 by omega, show w / 2 ^ 70 % 2 ^ 2 = 0 by omega,
    show w / 2 ^ 72 % 2 ^ 3 = 0 by omega]
  show (match rgOf h (.v 0) ⟨.v 0, false, false⟩ ⟨.v 0, false, false⟩ 0 with
    | .ok r => checked (some (.nop r))
    | .error e => .error e) = _
  rw [hbody]
  show checked (some (.nop x)) = _
  rw [checked, if_pos hwf]
end nop

/-- Settles O17: the fields of a word of MAJ 0x41, and a body that changes nothing. -/
theorem nopResults : Obligations.NopResults := by
  refine ⟨fun w hw hmaj => ?_, fun x s c sl t ci hwf => ?_⟩
  · intro fn
    refine ⟨fun hf hg hres => ⟨fun hz => ?_, fun hz => ?_⟩, fun hf => ?_⟩
    · obtain ⟨x, hx⟩ := decodeWord_nop hmaj hf hg hres hz
      exact ⟨x, by rw [decode_bytesOfWord hw, hx]; rfl⟩
    · exact decode_error hw fun i h => hz (decodeWord_nop_zero hmaj hf h)
    · exact decode_error hw (decodeWord_unassigned hmaj hf)
  · show OnlyAdvances s c sl t x.h (execNop x s)
    unfold execNop
    exact onlyAdvances_go (issue_go ci hwf rfl rfl)

/-! ### The end of a team (R117) -/

theorem sameMemory_of_eq {s s' : State} (hm : s'.mem = s.mem) (hw : s'.wstore = s.wstore) (hr : s'.remote = s.remote)
    (hc : s'.cores = s.cores) : SameMemory s s' := by
  refine ⟨hm, hw, hr, fun c => ?_⟩
  unfold getCore
  rw [hc]
  exact ⟨rfl, rfl, rfl⟩
/-- A change of a core that keeps its scratchpad. -/
theorem sameMemory_updCore (s : State) (c : Nat) (f : Core → Core)
    (hf : ∀ k, (f k).bytes = k.bytes ∧ (f k).tags = k.tags ∧ (f k).empty = k.empty) : SameMemory s (updCore s c f) := by
  refine ⟨rfl, rfl, rfl, fun x => ?_⟩
  rw [getCore_updCore]
  split
  · next e => exact e ▸ hf _
  · exact ⟨rfl, rfl, rfl⟩
theorem sameMemory_reapWg (s : State) (c id : Nat) : SameMemory s (reapWg s c id) := by
  unfold reapWg
  dsimp only
  split
  · exact sameMemory_updCore s c (fun k => { k with wgs := k.wgs.filter fun w => w.id != id }) fun _ => ⟨rfl, rfl, rfl⟩
  · exact sameMemory_of_eq rfl rfl rfl rfl
theorem sameMemory_reap (s : State) (c sl : Nat) : SameMemory s (reap s c sl) := by
  unfold reap
  split
  · exact sameMemory_of_eq rfl rfl rfl rfl
  · split
    · exact sameMemory_trans (sameMemory_updCore s c (fun k => { k with teams := ndel k.teams sl }) fun _ => ⟨rfl, rfl, rfl⟩)
        (sameMemory_reapWg ..)
    · exact sameMemory_of_eq rfl rfl rfl rfl
theorem sameMemory_updWg (s : State) (c id : Nat) (f : Wg → Wg) : SameMemory s (updWg s c id f) := by
  unfold updWg
  exact sameMemory_updCore s c _ fun _ => ⟨rfl, rfl, rfl⟩
theorem sameMemory_updLaunch (s : State) (x seq : Nat) (f : Launch → Launch) : SameMemory s (updLaunch s x seq f) :=
  sameMemory_of_eq rfl rfl rfl rfl
theorem sameMemory_endTeam (s : State) (c sl : Nat) (t : Team) : SameMemory s (endTeam s c sl t) := by
  unfold endTeam
  exact sameMemory_trans (sameMemory_trans (sameMemory_updWg ..) (sameMemory_updLaunch ..)) (sameMemory_reap ..)

theorem getTeam_reapWg (s : State) (c id d u : Nat) : getTeam (reapWg s c id) d u = getTeam s d u := by
  unfold reapWg
  dsimp only
  split
  · exact getTeam_updCore s c d u (fun k => { k with wgs := k.wgs.filter fun w => w.id != id }) rfl
  · rfl
/-- A team without live lanes leaves its slot where no request of the slot is in flight. -/
theorem getTeam_reap_ended {s : State} {c sl : Nat} {t : Team} (ht : getTeam s c sl = some t) (hl : t.live = 0)
    (hr : ∀ r ∈ s.reqs, ¬ (r.core = c ∧ r.slot = sl)) : getTeam (reap s c sl) c sl = none := by
  have hp : producing s c sl = false := by
    unfold producing
    rw [List.any_eq_false]
    intro r hin
    have := hr r hin
    by_cases h1 : r.core = c
    · simp [h1, show r.slot ≠ sl from fun h2 => this ⟨h1, h2⟩]
    · simp [h1]
  have hc : (t.live = 0 && !producing s c sl) = true := by simp [hl, hp]
  unfold reap
  rw [ht]
  dsimp only
  rw [if_pos hc, getTeam_reapWg]
  unfold getTeam
  rw [getCore_updCore_same, nget_ndel, if_pos rfl]
theorem getTeam_endTeam_ended {s : State} {c sl : Nat} {t : Team} (ht : getTeam s c sl = some t) (hl : t.live = 0)
    (hr : ∀ r ∈ s.reqs, ¬ (r.core = c ∧ r.slot = sl)) : getTeam (endTeam s c sl t) c sl = none := by
  unfold endTeam
  refine getTeam_reap_ended (t := t) ?_ hl hr
  show getTeam (updWg s c t.wg _) c sl = some t
  unfold updWg
  rw [getTeam_updCore _ _ _ _ _ rfl, ht]

/-- The team whose active lanes EXIT ends (R117). -/
def exited (t : Team) (act : Mask) : Team :=
  { t with live := t.live &&& ~~~ act, lpc := lanes.map fun l => if inMask act l then BitVec.allOnes 32 else getLpc t l }
/-- EXIT is step 8, then the end of the active lanes, and of the team with its last one. -/
theorem exitLanes_eq {s : State} {c sl : Nat} {t : Team} {pc : Word} {exec act : Mask} {h : Head}
    (ht : getTeam (retire s c sl pc exec 0 h false false ((exec &&& ~~~ act) == 0) fun _ => pc + 1) c sl = some t) :
    exitLanes s c sl pc exec act h =
      let s2 := setTeam (retire s c sl pc exec 0 h false false ((exec &&& ~~~ act) == 0) fun _ => pc + 1) c sl (exited t act)
      if (exited t act).live = 0 then endTeam (setISlot s2 c (islotOf t) { getISlot s2 c (islotOf t) with holder := none }) c sl (exited t act)
      else s2 := by
  unfold exitLanes
  dsimp only
  rw [ht]
  rfl

/-- EXIT completes: its active lanes are over, and with the last live lane the team. -/
theorem execExit_done {x : RG} {s : State} {c sl : Nat} {t : Team} (ci : CanIssue s c sl t x.h) (hw : (Instr.exit x).wf = true) :
    ∃ s', execExit x s = .next s' ∧ SameMemory s s' ∧
      (t.live &&& ~~~ active t x.h ≠ 0 → ∃ u, getTeam s' c sl = some u ∧ u.live = t.live &&& ~~~ active t x.h ∧ SameAllRegs t u ∧
        SameOthers s s' c sl ∧ ∀ l < 32, getLpc u l = if inMask (active t x.h) l then 0xFFFFFFFF
          else if inMask (executing t) l then issueAddr t + 1 else getLpc t l) ∧
      (t.live &&& ~~~ active t x.h = 0 → (∀ r ∈ s.reqs, ¬ (r.core = c ∧ r.slot = sl)) → getTeam s' c sl = none) := by
  obtain ⟨hon, u1, hget, hk⟩ := retire_spec (getTeam_issueOf s c sl t x.h) (issueAddr t) (executing t) 0 x.h false
    ((executing t &&& ~~~ active t x.h) == 0) fun _ => issueAddr t + 1
  generalize hs1 : retire (issueOf s c sl t x.h).s c sl (issueAddr t) (executing t) 0 x.h false false
    ((executing t &&& ~~~ active t x.h) == 0) (fun _ => issueAddr t + 1) = s1 at hon hget
  have hlive : u1.live = t.live := hk.carried.control.live.trans (enterRegion_live ..)
  have hput := teamOnly_trans (teamOnly_trans (teamOnly_issueOf s c sl t x.h) hon) (teamOnly_setTeam _ c sl (exited u1 (active t x.h)))
  have hlive' : (exited u1 (active t x.h)).live = t.live &&& ~~~ active t x.h := by unfold exited; rw [hlive]
  obtain ⟨hv, hs, hp⟩ := hk.carried.maps
  have hlpc (l : Nat) (hl : l < 32) : getLpc (exited u1 (active t x.h)) l = if inMask (active t x.h) l then 0xFFFFFFFF
      else if inMask (executing t) l then issueAddr t + 1 else getLpc t l := by
    rw [getLpc_map (fun l => if inMask (active t x.h) l then BitVec.allOnes 32 else getLpc u1 l) (exited u1 (active t x.h)) rfl hl,
      getLpc_map _ u1 hk.lpc hl, ite_self, show getLpc (entered s t x.h) l = getLpc t l from
      congrArg (fun y => nth 0 y l) (enterRegion_lpc ..)]
    rfl
  refine ⟨exitLanes (issueOf s c sl t x.h).s c sl (issueAddr t) (executing t) (active t x.h) x.h, ?_, ?_⟩
  · unfold execExit
    rw [issue_eq ci _ hw rfl]
  rw [exitLanes_eq (hs1 ▸ hget), hs1, hlive']
  dsimp only
  split
  · next h0 =>
    have hslot := teamOnly_setISlot (setTeam s1 c sl (exited u1 (active t x.h))) c (islotOf u1) sl
      { getISlot (setTeam s1 c sl (exited u1 (active t x.h))) c (islotOf u1) with holder := none }
    have hall := teamOnly_trans hput hslot
    refine ⟨sameMemory_trans hall.sameMemory (sameMemory_endTeam ..), fun hne => absurd h0 hne, fun _ hreq => ?_⟩
    refine getTeam_endTeam_ended ?_ (hlive'.trans h0) ?_
    · rw [getTeam_setISlot, getTeam_setTeam_same]
    · rw [hall.reqs]
      exact hreq
  · next h0 =>
    exact ⟨hput.sameMemory, fun _ => ⟨_, getTeam_setTeam_same .., hlive', sameAllRegs_of_maps (hv.trans (enterRegion_v ..))
      (hs.trans (enterRegion_s ..)) (hp.trans (enterRegion_p ..)), hput.others, hlpc⟩, fun h => absurd h h0⟩

/-! ### HALT (R118) -/

theorem haltIfAsked_halted {t : Team} (h : t.halted = true) : (haltIfAsked t).halted = true := by
  unfold haltIfAsked
  split
  · rfl
  · exact h
theorem stepDone_halted {t : Team} (h : t.halted = true) : (stepDone t).halted = true := by
  unfold stepDone
  repeat' split
  any_goals exact h
  rfl
theorem advance_halted {t : Team} (h : t.halted = true) (b : Bool) (pc : Word) (e a : Mask) (z : Bool) (g : Nat → Word) :
    (advance t b pc e a z g).halted = true := by
  unfold advance
  refine stepDone_halted ?_
  split
  · exact h
  · exact h
/-- Step 8 of a halted team leaves it halted. -/
theorem retire_halted {s : State} {c sl : Nat} {t : Team} (ht : getTeam s c sl = some t) (hh : t.halted = true) (pc : Word) (e a : Mask)
    (h : Head) (closes branch stop : Bool) (g : Nat → Word) {u : Team}
    (hu : getTeam (retire s c sl pc e a h closes branch stop g) c sl = some u) : u.halted = true := by
  unfold retire at hu
  rw [ht] at hu
  dsimp only at hu
  have hadv := advance_halted (t := issued t s.clock h) hh (getCtx s t.ctx).debug pc e a closes g
  obtain ⟨-, w, hw, h | h | h⟩ := boundary_spec (pulse s t.ctx) c sl (advance (issued t s.clock h) (getCtx s t.ctx).debug pc e a closes g)
    (endsRun pc e a h branch stop g)
  all_goals obtain rfl := Option.some.inj (hu.symm.trans hw); subst h
  · exact hadv
  · exact haltIfAsked_halted hadv
  · exact hadv

/-- HALT completes with its team halted at the next instruction. -/
theorem execHalt_done {x : RG} {s : State} {c sl : Nat} {t : Team} (ci : CanIssue s c sl t x.h) (hw : (Instr.halt x).wf = true) :
    ∃ s' u, execHalt x s = .next s' ∧ getTeam s' c sl = some u ∧ u.halted = true ∧ SameAllRegs t u ∧
      SameFlags t u ∧ SameControl t u ∧ Advanced t u ∧ SameMemory s s' ∧ SameUnits s s' ∧ SameOthers s s' c sl := by
  let u0 : Team := { entered s t x.h with halted := true, steps := none }
  have hg : getTeam (setTeam (issueOf s c sl t x.h).s c sl u0) c sl = some u0 := getTeam_setTeam_same ..
  obtain ⟨hon, u, hget, hk⟩ := retire_spec hg (issueAddr t) (executing t) 0 x.h false true fun _ => issueAddr t + 1
  have hall := teamOnly_trans (teamOnly_trans (teamOnly_issueOf s c sl t x.h) (teamOnly_setTeam ..)) hon
  have hcar : Carried (entered s t x.h) u := carried_trans rfl hk.carried
  refine ⟨_, u, ?_, hget, retire_halted hg rfl _ _ _ _ _ _ _ _ hget, sameAllRegs_entered hcar rfl rfl rfl, sameFlags_entered hcar rfl rfl rfl,
    sameControl_trans (sameControl_entered s t x.h) hcar.control, fun l hl => ?_, hall.sameMemory, hall.sameUnits, hall.others⟩
  · unfold execHalt
    rw [issue_eq ci _ hw rfl]
    show Host.Outcome.next (match getTeam (issueOf s c sl t x.h).s c sl with | some u => _ | none => _) = _
    rw [getTeam_issueOf]
  · rw [getLpc_map _ u hk.lpc hl, ite_self, show getLpc u0 l = getLpc t l from congrArg (fun y => nth 0 y l) (enterRegion_lpc ..)]

/-! ### Full/empty bits (R121) -/

/-- An element after a mark of element `a` of the same operand: the marked one, and every lane's view of a scalar, has the new F/E bit. -/
theorem rdOpd_markOpd (s : State) (t : Team) {d : Opd} (pair : Bool) {a l : Nat} (f : Bool) (ha : a < 32) (hl : l < 32) (hr : isReg d = true)
    (h7 : d ≠ .p 7) : rdOpd s (markOpd t d pair a f) d pair l =
      if l = a ∨ isS d = true then { rdOpd s t d pair l with full := f } else rdOpd s t d pair l := by
  cases d with
  | v n =>
    have hn : isS (.v n) = false := rfl
    simp only [hn, Bool.false_eq_true, or_false]
    cases pair
    · simp only [markOpd, rdOpd, Bool.false_eq_true, if_false, getV_setV]
      by_cases e : l = a
      · subst e; simp
      · rw [if_neg (by omega), if_neg e]
    · simp only [markOpd, rdOpd, getPair, if_true, getV_setV]
      by_cases e : l = a
      · subst e
        have h1 : ¬ (32 * n.toNat + l = 32 * (n.toNat + 1) + l) := by omega
        have h2 : ¬ (32 * (n.toNat + 1) + l = 32 * n.toNat + l) := by omega
        simp
      · rw [if_neg e]
        have h1 : ¬ (32 * n.toNat + l = 32 * (n.toNat + 1) + a) := by omega
        have h2 : ¬ (32 * n.toNat + l = 32 * n.toNat + a) := by omega
        have h3 : ¬ (32 * (n.toNat + 1) + l = 32 * (n.toNat + 1) + a) := by omega
        have h4 : ¬ (32 * (n.toNat + 1) + l = 32 * n.toNat + a) := by omega
        simp only [h1, h2, h3, h4, if_false]
  | s n => simp [isS, markOpd, rdOpd]
  | p n =>
    have hn : isS (.p n) = false := rfl
    have hne : n.toNat ≠ 7 := fun e => h7 (congrArg Opd.p (BitVec.eq_of_toNat_eq e))
    obtain ⟨h1, h2⟩ := getP_setPBit t n.toNat a l (inMask (getP t n.toNat).val a) f hne ha hl
    simp only [hn, Bool.false_eq_true, or_false, markOpd, rdOpd, h1, h2]
    by_cases e : l = a
    · subst e; simp
    · simp [e]
  | lpc => simp [isReg] at hr
  | c n => simp [isReg] at hr
  | x n => simp [isReg] at hr

/-- The same after marks in several lanes. -/
theorem rdOpd_foldl_markOpd (s : State) {d : Opd} (pair : Bool) {l : Nat} (f : Bool) (hl : l < 32) (hr : isReg d = true) (h7 : d ≠ .p 7) :
    ∀ (ls : List Nat) (t : Team), (∀ a ∈ ls, a < 32) → rdOpd s (ls.foldl (fun t a => markOpd t d pair a f) t) d pair l =
      if l ∈ ls ∨ (isS d = true ∧ ls ≠ []) then { rdOpd s t d pair l with full := f } else rdOpd s t d pair l
  | [], t, _ => by simp
  | a :: rest, t, hlt => by
    rw [List.foldl_cons, rdOpd_foldl_markOpd s pair f hl hr h7 rest _ fun b hb => hlt b (List.mem_cons_of_mem _ hb),
      rdOpd_markOpd s t pair f (hlt a List.mem_cons_self) hl hr h7]
    by_cases hs : isS d = true
    · simp [hs]
    · simp only [hs, List.mem_cons, Bool.false_eq_true, false_and, or_false]
      by_cases e : l = a <;> by_cases hin : l ∈ rest <;> simp [e, hin]

theorem lowest_lt {m : Mask} (h : m ≠ 0) : lowest m < 32 := (mem_lanesOf.mp (lowest_mem h)).1
/-- What a marked destination reads as in an active lane. -/
theorem rdOpd_markLanes (s : State) (t : Team) {d : Opd} (pair : Bool) {m : Mask} (f : Bool) {l : Nat} (hl : l ∈ lanesOf m)
    (hr : isReg d = true) (h7 : d ≠ .p 7) : rdOpd s (markLanes t d pair m f) d pair l = { rdOpd s t d pair l with full := f } := by
  obtain ⟨hl32, hin⟩ := mem_lanesOf.mp hl
  unfold markLanes
  split
  · next n =>
    have hm : m ≠ 0 := by
      rintro rfl
      simp [inMask] at hin
    rw [if_neg hm, rdOpd_markOpd s t pair f (lowest_lt hm) hl32 hr h7, if_pos (.inr rfl)]
  · unfold foldLanes
    rw [rdOpd_foldl_markOpd s pair f hl32 hr h7 _ _ fun a ha => (mem_lanesOf.mp ha).1, if_pos (.inl hl)]

theorem legalFeset_reg {x : RG} (h : legalFeset x = true) : isReg x.d = true := by
  simp only [legalFeset, Bool.and_eq_true, Bool.or_eq_true] at h
  obtain ⟨⟨⟨⟨⟨⟨⟨-, hd⟩, -⟩, -⟩, -⟩, -⟩, -⟩, -⟩ := h
  exact hd.elim dOk_reg isP_reg

/-- The region entry leaves what an operand reads as. -/
theorem rdOpd_entered {s s' : State} {t : Team} {h : Head} {d : Opd} {pair : Bool} {l : Nat} (hr : isReg d = true) :
    rdOpd s' (entered s t h) d pair l = rdOpd s t d pair l :=
  (rdOpd_maps (enterRegion_v ..) (enterRegion_s ..) (enterRegion_p ..) d pair l hr).trans (rdOpd_state s' s t d pair l hr)

/-- FESET and FECLR complete with the F/E bits of their destination set. -/
theorem setFE_done {ins : Instr} {x : RG} {f : Bool} {s : State} {c sl : Nat} {t : Team} (ci : CanIssue s c sl t x.h) (hw : ins.wf = true)
    (hr : isReg x.d = true) (ha : opdAlloc t x.d (x.sub == 1) = true) : ∃ s' u, setFE ins x f s = .next s' ∧
      RegisterOnly s s' c sl (entered s t x.h) u x.d (x.sub == 1) (active t x.h) ∧ SameFlags t u ∧
      (x.d ≠ .p 7 → ∀ l ∈ lanesOf (active t x.h), rdOpd s' u x.d (x.sub == 1) l = { rdOpd s t x.d (x.sub == 1) l with full := f }) := by
  obtain ⟨w, n, hu⟩ := pushUndo_eq (issueOf s c sl t x.h).s (markLanes (entered s t x.h) x.d (x.sub == 1) (active t x.h) f)
    (undoOf (entered s t x.h) x.d (x.sub == 1))
  obtain ⟨v, ss, p, hmark⟩ := markLanes_only (entered s t x.h) x.d (x.sub == 1) (active t x.h) f
  have hframe := markLanes_frame (entered s t x.h) x.d (x.sub == 1) (active t x.h) f
  have hread (s' : State) (l : Nat) (hl : l ∈ lanesOf (active t x.h)) (h7 : x.d ≠ .p 7) :=
    rdOpd_markLanes s' (entered s t x.h) (x.sub == 1) f hl hr h7
  rw [hmark] at hframe hread hu
  obtain ⟨u, hreg, h1, h2, h3, h4, h5, h6⟩ := registerOnly_retired (s := s) (c := c) (sl := sl) (t := t) (h := x.h) (d := x.d)
    (pair := x.sub == 1) { entered s t x.h with v := v, s := ss, p := p, undo := w, undoNew := n }
    (sameRegs_trans hframe (sameRegs_of_eq x.d (x.sub == 1) _ rfl rfl rfl)) rfl rfl rfl
  refine ⟨_, u, ?_, hreg, ⟨h4.trans (entered_fltstat ..), h5.trans (entered_sigstat ..), h6.trans (entered_oobcnt ..)⟩, fun h7 l hl => ?_⟩
  · unfold setFE
    refine issue_go ci hw ha ?_
    show Res.go (setTeam _ _ _ (pushUndo _ (markLanes (entered s t x.h) x.d (x.sub == 1) (active t x.h) f) (undoOf (entered s t x.h) _ _))) = _
    rw [hmark, hu]
    rfl
  · rw [rdOpd_maps (t := { entered s t x.h with v := v, s := ss, p := p }) h1 h2 h3 x.d _ l hr, hread _ l hl h7, rdOpd_entered hr]

/-- Settles O19: FEWAIT and HALT are step 8, EXIT the end of its lanes behind it, FESET and FECLR marks of their destination. -/
theorem exitHaltAndFullEmptyResults : Obligations.ExitHaltAndFullEmptyResults := by
  refine ⟨fun x s c sl t ci hw ha h => ?_, fun x s c sl t ci => ⟨fun hw => execExit_done ci hw, fun hw => execHalt_done ci hw⟩,
    fun x s c sl t ci ha => ?_⟩
  · show OnlyAdvances s c sl t x.h (execFewait x s)
    unfold execFewait
    refine onlyAdvances_go (issue_go ci hw ha ?_)
    simp only [gate_ready h]
  · exact ⟨fun hw => setFE_done ci hw (legalFeset_reg hw) ha, fun hw => setFE_done ci hw (legalFeset_reg hw) ha⟩

end Sys2Proof.Proofs

/-! PROOFS. The arrival of a readout (O42): what it takes with it where a request's number is not its own. -/

namespace Sys2Proof.Proofs

open Sys2Proof.Machine Sys2Proof.Safety Sys2Proof.Laws

/-- The one member of an RLD.fp32 into v0 of lane 0 (R233): a read of 4 bytes at physical address 0, with number 0. -/
def rldMember : Req := { emptyRelease with n := 4, write := false, rel := false, kind := .rld .f32 ⟨0, 0⟩ (.v 0) false 33 }
/-- A member of lane 1 with the same number. -/
def rldTwin : Req := { rldMember with lane := 1 }
/-- The team that both belong to. -/
def rldTeam : Team := { (default : Team) with live := 1 }
/-- A machine after reset with that team in slot 0 of core 0, and both requests in flight. -/
def readingOut : State :=
  { State.reset with cores := [(0, { (default : Core) with teams := [(0, rldTeam)] })], reqs := [rldMember, rldTwin] }

theorem asked_rldMember : Asked readingOut rldMember rldTeam := ⟨rfl, rfl, rfl, by decide, by decide⟩
/-- The members of lane 0. -/
theorem members_readingOut : (readingOut.reqs.filter fun q => q.grp == rldMember.grp && q.core == rldMember.core && q.tid == rldMember.tid &&
    q.lane == rldMember.lane) = [rldMember] := rfl
theorem canPerform_rldMember : canPerform readingOut rldMember = true := by decide +kernel

/-- The readout of lane 0 drops both requests. -/
theorem exec_rldReadoutArrival_reqs : (match exec (.rldReadoutArrival ⟨0, []⟩) readingOut with
    | .next s' => s'.reqs.isEmpty
    | _ => false) = true := by decide +kernel

/-- Refutes O42, by its clause for RLD. The clause says that the members of the lane are over and every other request stays, and the model drops
each member by its number; no premise says that no other request has that number. In `readingOut` one of lane 1 has it, and is gone too. -/
theorem not_resultArrivals : ¬ Obligations.ResultArrivals := by
  unfold Obligations.ResultArrivals
  rintro ⟨h, -⟩
  obtain ⟨-, -, -, -, -, readouts⟩ := h readingOut rldMember rldTeam (.hbm 0) asked_rldMember rfl
  obtain ⟨s', u, hnext, harrived, -⟩ := readouts .f32 ⟨0, 0⟩ (.v 0) false 33 rfl rfl (by
    rw [members_readingOut]
    intro q hq
    obtain rfl := List.mem_singleton.mp hq
    exact ⟨rfl, rfl, canPerform_rldMember, by decide, .inl rfl, ⟨rfl, rfl⟩, by decide, by decide⟩)
  have hempty := exec_rldReadoutArrival_reqs
  have hid : rldMember.id = 0 := rfl
  rw [hid] at hnext
  rw [hnext, List.isEmpty_iff] at hempty
  have hkept : rldTwin ∈ s'.reqs := (harrived.left rldTwin).mpr ⟨by simp [readingOut], fun hsame => absurd hsame.2.2.2 (by decide)⟩
  rw [hempty] at hkept
  exact List.not_mem_nil hkept

end Sys2Proof.Proofs

/-! PROOFS. Loads, stores and prefetches at issue (O26). -/

namespace Sys2Proof.Proofs

open Sys2Proof.Machine Sys2Proof.Safety Sys2Proof.Laws

/-! ### A translation moves no other address (R359, R360) -/

/-- A walk that ends in a page ends alike for every address of that page. -/
theorem walkFrom_same_page {s : State} {va va' : Nat} {p : DWord} {pa size : Nat} : ∀ {ls : List (Nat × Nat × Nat)} {tab : Nat},
    ls.Pairwise (fun a b => b.1 ≤ a.1) → walkFrom s va ls tab = .leaf p pa size → va' / size = va / size →
    walkFrom s va' ls tab = .leaf p pa size ∧ ∃ k ∈ ls, size = 2 ^ k.1
  | [], _, _, h, _ => by exact nomatch h
  | (sh, w, ok) :: rest, tab, hdown, h, hpage => by
    obtain ⟨hle, hrest⟩ := List.pairwise_cons.mp hdown
    have index {k : Nat} (hk : k ≤ sh) (hs : size = 2 ^ k) : va' / 2 ^ sh = va / 2 ^ sh := by
      rw [← Nat.sub_add_cancel hk, Nat.add_comm, Nat.pow_add, ← Nat.div_div_eq_div_mul, ← Nat.div_div_eq_div_mul, ← hs, hpage]
    unfold walkFrom at h
    dsimp only at h
    split_ifs at h with hv hres hsize hdeep hleaf
    · obtain ⟨hsame, k, hk, hs⟩ := walkFrom_same_page hrest h hpage
      refine ⟨?_, k, List.mem_cons_of_mem _ hk, hs⟩
      unfold walkFrom
      dsimp only
      rw [index (hle k hk) hs, if_neg hv, if_neg hres, if_pos hsize, if_neg hdeep, hsame]
    · have hs : size = 2 ^ sh := by injection h with _ _ h; exact h.symm
      refine ⟨?_, _, List.mem_cons_self, hs⟩
      unfold walkFrom
      dsimp only
      rw [index le_rfl hs, if_neg hv, if_neg hres, if_neg hsize, if_neg hleaf, h]
theorem walk_same_page {s : State} {ctx va va' : Nat} {p : DWord} {pa size : Nat} (h : walk s ctx va = .leaf p pa size)
    (hpage : va' / size = va / size) : walk s ctx va' = .leaf p pa size :=
  (walkFrom_same_page (by decide) h hpage).1

/-- What TLB entries `es`, and the table behind them, give an address. -/
def leafAt (s : State) (es : List TlbEntry) (ctx va : Nat) : Walk :=
  match es.find? fun e => tlbHit e ctx va with
  | some e => .leaf e.leaf e.leafPa e.size
  | none => walk s ctx va
/-- The translation that such a leaf or fault makes. -/
def answerOf (s : State) (wld write : Bool) (va : Nat) (chip : Option Nat) : Walk → Xlate
  | .fault c => .fault c 0
  | .leaf p _ size =>
    if pteWld p != wld || (chip.isNone && otherSlice s p (pteFrame p + va % size) wld) then .world
    else if write && !pteW p then .fault 2 0
    else
      match chip with
      | none => leafLoc s p size va
      | some c => if reachable s 0 c then Xlate.ok (.remote c 0 (pteFrame p + va % size)) else .fault 8 1

/-- A D bit set by a write gives every address the same leaf. -/
theorem leafAt_mark (s : State) (es : List TlbEntry) (ctx va ctx' va' : Nat) :
    leafAt s (es.map fun e => if tlbHit e ctx va then { e with dirty := true } else e) ctx' va' = leafAt s es ctx' va' := by
  have hhit : ((fun e => tlbHit e ctx' va') ∘ fun e : TlbEntry => if tlbHit e ctx va then { e with dirty := true } else e) =
      fun e => tlbHit e ctx' va' := by
    funext e
    dsimp only [Function.comp]
    split <;> rfl
  unfold leafAt
  rw [List.find?_map, hhit]
  cases es.find? fun e => tlbHit e ctx' va' with
  | none => rfl
  | some e =>
    dsimp only [Option.map]
    split <;> rfl
/-- So does the entry that a walk installs. -/
theorem leafAt_install {s : State} {ctx va : Nat} {p : DWord} {pa size : Nat} (es : List TlbEntry) (hwalk : walk s ctx va = .leaf p pa size)
    (ctx' va' : Nat) : leafAt s (es ++ [⟨ctx, va / size * size, size, pa, p, false⟩]) ctx' va' = leafAt s es ctx' va' := by
  unfold leafAt
  rw [List.find?_append]
  cases es.find? fun e => tlbHit e ctx' va' with
  | some e => rfl
  | none =>
    rw [Option.none_or, List.find?_singleton]
    by_cases hit : tlbHit ⟨ctx, va / size * size, size, pa, p, false⟩ ctx' va' = true
    · rw [if_pos hit]
      simp only [tlbHit, Bool.and_eq_true, beq_iff_eq, decide_eq_true_eq] at hit
      obtain ⟨⟨rfl, hlo⟩, hhi⟩ := hit
      have hpage : va' / size = va / size := by
        refine Nat.div_eq_of_lt_le hlo ?_
        rwa [Nat.succ_mul]
      exact (walk_same_page hwalk hpage).symm
    · rw [if_neg hit]

section tableAt
variable (s : State) (w : TlbOf) (ctx : Nat) (wld write : Bool) (va : Nat) (chip : Option Nat)

theorem tableAt_answer : (tableAt s w ctx wld write va chip).1 = answerOf s wld write va chip (leafAt s (tlbOf s w) ctx va) := by
  unfold tableAt leafAt
  cases (tlbOf s w).find? fun e => tlbHit e ctx va with
  | some e =>
    simp only [answerOf]
    split_ifs <;> rfl
  | none =>
    cases walk s ctx va with
    | fault k => rfl
    | leaf p pa size =>
      simp only [answerOf]
      split_ifs <;> rfl

/-- A translation leaves entries that give every address what the entries before gave it. -/
theorem tableAt_entries : (tableAt s w ctx wld write va chip).2 = s ∨
    ∃ es, (tableAt s w ctx wld write va chip).2 = setTlb s w es ∧ ∀ ctx' va', leafAt s es ctx' va' = leafAt s (tlbOf s w) ctx' va' := by
  have marked (es : List TlbEntry) (ctx' va' : Nat) :
      leafAt s (if write then es.map fun e => if tlbHit e ctx va then { e with dirty := true } else e else es) ctx' va' = leafAt s es ctx' va' := by
    split
    · exact leafAt_mark ..
    · rfl
  unfold tableAt
  cases hf : (tlbOf s w).find? fun e => tlbHit e ctx va with
  | some e =>
    have hany : ((tlbOf s w).any fun e => tlbHit e ctx va) = true :=
      List.any_eq_true.mpr ⟨e, List.mem_of_find?_eq_some hf, List.find?_some (p := fun e => tlbHit e ctx va) hf⟩
    dsimp only
    rw [hany]
    split
    · exact .inl rfl
    · split
      · exact .inl rfl
      · exact .inr ⟨_, rfl, marked _⟩
  | none =>
    have hany : ((tlbOf s w).any fun e => tlbHit e ctx va) = false := by
      rw [List.any_eq_false]
      exact fun e he => by simpa using List.find?_eq_none.mp hf e he
    cases hwalk : walk s ctx va with
    | fault k => exact .inl rfl
    | leaf p pa size =>
      dsimp only
      rw [hany]
      split
      · exact .inl rfl
      · split
        · exact .inl rfl
        · exact .inr ⟨_, rfl, fun _ _ => (marked ..).trans (leafAt_install _ hwalk ..)⟩
end tableAt

/-- The homes of all accesses from core `c` are the same. -/
def SameHomes (s s' : State) (c : Nat) : Prop := ∀ ctx write va, (homeOf s' c ctx write va).1 = (homeOf s c ctx write va).1
theorem sameHomes_trans {s s' s'' : State} {c : Nat} (h : SameHomes s s' c) (k : SameHomes s' s'' c) : SameHomes s s'' c :=
  fun ctx write va => (k ctx write va).trans (h ctx write va)
theorem sameHomes_of_sameTables {s s' : State} {c : Nat} (h : SameTables s s' c) : SameHomes s s' c := fun _ _ _ => homeOf_sameTables h ..
theorem sameHomes_setTlb {s : State} {c : Nat} {es : List TlbEntry}
    (h : ∀ ctx va, leafAt s es ctx va = leafAt s (tlbOf s (.core c)) ctx va) : SameHomes s (setTlb s (.core c) es) c := by
  intro ctx write va
  have htab (x : Nat) (wld : Bool) (chip : Option Nat) : (tableAt (setTlb s (.core c) es) (.core c) x wld write va chip).1 =
      (tableAt s (.core c) x wld write va chip).1 := by
    have hes : tlbOf (setTlb s (.core c) es) (.core c) = es := by simp [tlbOf, setTlb]
    rw [tableAt_answer, tableAt_answer, hes, ← h]
    rfl
  have hworld : (getCore (setTlb s (.core c) es) c).world = (getCore s c).world := by simp [setTlb]
  have hx (wld : Bool) : (Machine.translate (setTlb s (.core c) es) (.core c) ctx wld write va).1 =
      (Machine.translate s (.core c) ctx wld write va).1 := by
    unfold Machine.translate
    rw [show windowOf (setTlb s (.core c) es) ctx va = windowOf s ctx va from rfl]
    have hroute (n : Nat) : reachable (setTlb s (.core c) es) 0 n = reachable s 0 n := rfl
    simp only [hroute]
    split
    · exact htab ..
    · split_ifs
      · rfl
      · exact htab ..
      · rfl
      · rfl
      · rfl
  unfold homeOf
  simp only [hworld, hx]
  split <;> rfl
/-- A search for a home changes no home. -/
theorem sameHomes_home (s : State) (c ctx : Nat) (write : Bool) (va : Nat) : SameHomes s (homeOf s c ctx write va).2 c := by
  have key (x : Nat) (chip : Option Nat) : SameHomes s (tableAt s (.core c) x (getCore s c).world write va chip).2 c := by
    obtain h | ⟨es, h, hes⟩ := tableAt_entries s (.core c) x (getCore s c).world write va chip
    · rw [h]
      exact fun _ _ _ => rfl
    · rw [h]
      exact sameHomes_setTlb hes
  rw [homeOf_state]
  unfold Machine.translate
  split
  · exact key _ _
  · split_ifs
    · exact fun _ _ _ => rfl
    · exact key _ _
    · exact fun _ _ _ => rfl
    · exact fun _ _ _ => rfl
    · exact fun _ _ _ => rfl

/-! ### Around a memory instruction (R126 to R131) -/

/-- Memory, engines and the teams but the one at `sl` of core `c` are as they were; the requests in flight and what the slice caches hold
are not meant. -/
structure Around (s s' : State) (c sl : Nat) : Prop where
  memory : SameMemory s s'
  engines : SameEngines s s'
  others : SameOthers s s' c sl

theorem around_trans {s s' s'' : State} {c sl : Nat} (h : Around s s' c sl) (k : Around s' s'' c sl) : Around s s'' c sl where
  memory := sameMemory_trans h.memory k.memory
  engines := ⟨fun n => ⟨(k.engines.slices n).1.trans (h.engines.slices n).1, (k.engines.slices n).2.trans (h.engines.slices n).2⟩,
    k.engines.seqSlots.trans h.engines.seqSlots, fun n => (k.engines.wgs n).trans (h.engines.wgs n),
    fun n => (k.engines.chans n).trans (h.engines.chans n), fun n => (k.engines.tops n).trans (h.engines.tops n)⟩
  others := fun a b n => (k.others a b n).trans (h.others a b n)
theorem sameEngines_of_units {s s' : State} (h : SameUnits s s') : SameEngines s s' := by
  refine ⟨fun n => ?_, h.seqSlots, h.wgs, h.chans, h.tops⟩
  unfold getSlice
  rw [h.slices]
  exact ⟨rfl, rfl⟩
theorem around_of_teamOnly {s s' : State} {c sl : Nat} (h : TeamOnly s s' c sl) : Around s s' c sl :=
  ⟨h.sameMemory, sameEngines_of_units h.sameUnits, h.others⟩
theorem around_post (s : State) (r : Req) (c sl : Nat) : Around s (post s r) c sl :=
  ⟨⟨rfl, rfl, rfl, fun _ => ⟨rfl, rfl, rfl⟩⟩, ⟨fun _ => ⟨rfl, rfl⟩, rfl, fun _ => rfl, fun _ => rfl, fun _ => rfl⟩, fun _ _ _ => rfl⟩

/-! ### Step 8, with or without the closure of a region (R371) -/

/-- The team whose region an instruction at `pc` closes, or does not. -/
def closing (t : Team) (closes : Bool) (pc : Word) : Team :=
  if closes then { t with rgncnt := t.rgncnt + 1, rgnpc := pc + 1, enter := false } else t
theorem carried_closing {t u : Team} (h : Carried t u) (closes : Bool) (pc : Word) : Carried (closing t closes pc) (closing u closes pc) := by
  cases closes
  · exact h
  · have hcnt := h.region.1
    have hstrip := congrArg (fun x : Team => { x with rgncnt := t.rgncnt + 1, rgnpc := pc + 1, enter := false }) h
    simp only [closing, if_true, Carried, hcnt]
    exact hstrip

/-- Step 8: the executing lanes go to their targets, RETCNT counts from the closure on, the rest of the team is carried over. -/
theorem advance_closing (t : Team) (b : Bool) (pc : Word) (e a : Mask) (closes : Bool) (g : Nat → Word) :
    Carried (closing t closes pc) (advance t b pc e a closes g) ∧
    (advance t b pc e a closes g).lpc = (lanes.map fun l => if inMask e l then (if inMask a l then g l else pc + 1) else getLpc t l) ∧
    (advance t b pc e a closes g).retcnt = if closes then 0 else t.retcnt + 1 := by
  cases closes
  · exact advance_carried t b pc e a g
  · unfold advance
    obtain ⟨h1, h2, h3⟩ := stepDone_carried (closeRegion { t with
      lpc := lanes.map fun l => if inMask e l then (if inMask a l then g l else pc + 1) else getLpc t l,
      retcnt := t.retcnt + 1, closed := false, blocked := false, hold := none, growth := none } b pc)
    exact ⟨carried_trans rfl h1, h2, h3⟩
theorem retire_closing {s : State} {c sl : Nat} {t : Team} (ht : getTeam s c sl = some t) (pc : Word) (e a : Mask) (h : Head)
    (closes branch stop : Bool) (g : Nat → Word) :
    TeamOnly s (retire s c sl pc e a h closes branch stop g) c sl ∧
    ∃ u, getTeam (retire s c sl pc e a h closes branch stop g) c sl = some u ∧ Carried (closing t closes pc) u ∧
      u.lpc = (lanes.map fun l => if inMask e l then (if inMask a l then g l else pc + 1) else getLpc t l) ∧
      u.retcnt = if closes then 0 else t.retcnt + 1 := by
  unfold retire
  rw [ht]
  dsimp only
  obtain ⟨a1, a2, a3⟩ := advance_closing (issued t s.clock h) (getCtx s t.ctx).debug pc e a closes g
  obtain ⟨hon, w, hw, hc, hl, hr⟩ := boundary_carried (pulse s t.ctx) c sl
    (advance (issued t s.clock h) (getCtx s t.ctx).debug pc e a closes g) (endsRun pc e a h branch stop g)
  have hissued : Carried t (issued t s.clock h) := rfl
  exact ⟨teamOnly_trans (teamOnly_pulse ..) hon, w, hw, carried_trans (carried_closing hissued closes pc) (carried_trans a1 hc),
    hl.trans a2, hr.trans a3⟩

/-- A memory instruction is over with step 8, once its team `u0` is put back and its requests are out. -/
theorem sends_retired {s s1 : State} {c sl : Nat} {t u0 : Team} {h : Head} {d : Opd} {pair : Bool} {m : Mask} {oob : DWord} (closes : Bool)
    (ha : Around s s1 c sl) (hg : getTeam s1 c sl = some u0) (hr : SameRegs (entered s t h) u0 d pair m)
    (hc : Carried { entered s t h with v := u0.v, s := u0.s, p := u0.p, oobcnt := oob } u0) (hl : u0.lpc = (entered s t h).lpc)
    (hn : u0.retcnt = (entered s t h).retcnt) :
    ∃ u, Sends s (retired (issueOf s c sl t h) closes s1) c sl (entered s t h) u d pair m closes oob ∧
      (retired (issueOf s c sl t h) closes s1).reqs = s1.reqs ∧ u.v = u0.v ∧ u.s = u0.s ∧ u.p = u0.p := by
  obtain ⟨hon, u, hget, hcar, hlpc, hret⟩ := retire_closing hg (issueAddr t) (executing t) (active t h) h closes false false
    fun _ => issueAddr t + 1
  have hall := around_trans ha (around_of_teamOnly hon)
  have hcu := carried_trans (carried_closing hc closes (issueAddr t)) hcar
  have hmaps : u.v = u0.v ∧ u.s = u0.s ∧ u.p = u0.p := by
    cases closes
    · exact hcar.maps
    · exact hcar.maps
  obtain ⟨hv, hs, hp⟩ := hmaps
  refine ⟨u, ⟨hget, sameRegs_trans hr (sameRegs_of_eq d pair _ hv hs hp), ?_, ?_, fun l hl32 => ?_, hall.memory, hall.engines, hall.others, ?_⟩,
    hon.reqs, hv, hs, hp⟩
  · cases closes
    · obtain ⟨k1, k2, k3, k4, k5, k6, k7, k8, k9, k10, k11, k12⟩ := hcu.control
      exact ⟨k1, k2, k3, k4, k5, k6, k7, k8, k9, k10, k11, k12⟩
    · obtain ⟨k1, k2, k3, k4, k5, k6, k7, k8, k9, k10, k11, k12⟩ := hcu.control
      exact ⟨k1, k2, k3, k4, k5, k6, k7, k8, k9, k10, k11, k12⟩
  · obtain ⟨hcnt, hpc⟩ := hcu.region
    cases closes
    · exact ⟨hcnt, hpc, hret.trans (congrArg (· + 1) hn)⟩
    · exact ⟨hcnt, by rw [issueAddr_entered]; exact hpc, hret⟩
  · rw [getLpc_map _ u hlpc hl32, executing_entered, issueAddr_entered, ite_self]
    unfold getLpc
    rw [hl]
  · obtain ⟨k1, k2, k3⟩ := hcu.flags
    cases closes
    · exact ⟨k1, k2, k3⟩
    · exact ⟨k1, k2, k3⟩

/-! ### Requests on their way (R126, R360) -/

/-- A load or a store, of data or of tags. -/
def isPlain (k : ReqKind) : Bool := match k with | .load .. | .store _ => true | _ => false
theorem needsSlice_plain {k : ReqKind} (h : isPlain k = true) : needsSlice k = false := by
  unfold isPlain at h
  split at h
  · rfl
  · rfl
  · exact nomatch h
theorem reroute_plain {r : Req} (h : isPlain r.kind = true) (s : State) : reroute s r = route s r := by
  unfold reroute
  split
  · next hk => rw [hk] at h; exact nomatch h
  · next hk => rw [hk] at h; exact nomatch h
  · rfl

/-- Request `q` is `r` on its way: it asks for the same, and is of the same team. -/
structure Routed (r q : Req) : Prop where
  ask : askOf q = askOf r
  mine : ∀ c sl t, Mine c sl t r → Mine c sl t q
theorem routed_trans {r q x : Req} (h : Routed r q) (k : Routed q x) : Routed r x :=
  ⟨k.ask.trans h.ask, fun c sl t m => k.mine c sl t (h.mine c sl t m)⟩
/-- Number, home and fault do not count. -/
theorem routed_home (r : Req) (id : Nat) (loc shadow : Option Loc) (sh : Option Nat) (f i k : Nat) :
    Routed r { r with id := id, loc := loc, shadow := shadow, shadowVa := sh, fault := f, info := i, shFault := k } :=
  ⟨rfl, fun _ _ _ h => h⟩

/-- No address of the request lies in the other world. -/
def OwnWorld (s : State) (r : Req) : Prop := ∀ va ∈ r.va :: r.shadowVa.toList, (homeOf s r.core r.ctx r.write va).1.world = false

/-- A load or store takes the homes of its addresses, and meets no leaf of the other world where none of them lies there. -/
theorem route_own {s : State} {r : Req} (hk : isPlain r.kind = true) (hw : OwnWorld s r) (c sl : Nat) :
    (route s r).2.1 = false ∧ Routed r (route s r).1 ∧ SameHomes s (route s r).2.2 r.core ∧
    TeamOnly s (route s r).2.2 c sl ∧ getTeam (route s r).2.2 c sl = getTeam s c sl := by
  obtain ⟨hon, hget⟩ := homeOf_teamOnly s r.core r.ctx r.write r.va c sl
  have hhomes := sameHomes_home s r.core r.ctx r.write r.va
  have hdata := hw _ List.mem_cons_self
  unfold route
  simp only [needsSlice_plain hk, Bool.false_and, Bool.false_eq_true, if_false]
  cases hsh : r.shadowVa with
  | none => exact ⟨hdata, routed_home .., hhomes, hon, hget⟩
  | some v =>
    dsimp only
    split
    · exact ⟨hdata, routed_home .., hhomes, hon, hget⟩
    · next hread =>
      have hv := hw v (by simp [hsh])
      rw [Bool.not_eq_true] at hread
      rw [hread] at hv
      obtain ⟨hon', hget'⟩ := homeOf_teamOnly (homeOf s r.core r.ctx r.write r.va).2 r.core r.ctx false v c sl
      refine ⟨?_, routed_home .., sameHomes_trans hhomes (sameHomes_home _ _ _ _ _), teamOnly_trans hon hon', hget'.trans hget⟩
      rw [hdata, hhomes, hv]
      rfl

/-- So do all of several. -/
theorem routeAll_own {c : Nat} (sl : Nat) : ∀ (rs : List Req) (s : State), (∀ r ∈ rs, isPlain r.kind = true ∧ r.core = c ∧ OwnWorld s r) →
    (routeAll rs s).1 = false ∧ (∃ qs, (routeAll rs s).2.reqs = s.reqs ++ qs ∧ List.Forall₂ Routed rs qs) ∧
    Around s (routeAll rs s).2 c sl ∧ getTeam (routeAll rs s).2 c sl = getTeam s c sl
  | [], s, _ => ⟨rfl, ⟨[], (List.append_nil _).symm, .nil⟩, around_of_teamOnly (teamOnly_refl s c sl), rfl⟩
  | r :: rs, s, h => by
    obtain ⟨hk, rfl, hw⟩ := h r List.mem_cons_self
    obtain ⟨hflag, hrouted, hhomes, hon, hget⟩ := route_own (r := { r with id := s.nextId }) hk hw r.core sl
    rw [← reroute_plain (r := { r with id := s.nextId }) hk] at hflag hrouted hhomes hon hget
    generalize hx : reroute s { r with id := s.nextId } = x at hflag hrouted hhomes hon hget
    have hposted : SameHomes s (post x.2.2 x.1) r.core := sameHomes_trans hhomes (sameHomes_of_sameTables ⟨rfl, rfl, rfl, rfl, rfl, rfl⟩)
    obtain ⟨ihflag, ⟨qs, ihreqs, ihrouted⟩, ihon, ihget⟩ := routeAll_own sl rs (post x.2.2 x.1) fun q hq => by
      obtain ⟨qk, qc, qw⟩ := h q (List.mem_cons_of_mem _ hq)
      exact ⟨qk, qc, fun va hva => by rw [qc, hposted, ← qc]; exact qw va hva⟩
    have hall : routeAll (r :: rs) s = (x.2.1 || (routeAll rs (post x.2.2 x.1)).1, (routeAll rs (post x.2.2 x.1)).2) := by
      rw [← hx]
      rfl
    rw [hall]
    refine ⟨by rw [hflag, ihflag]; rfl, ⟨{ x.1 with id := x.2.2.nextId } :: qs, ?_, .cons ?_ ihrouted⟩,
      around_trans (around_trans (around_of_teamOnly hon) (around_post ..)) ihon, ihget.trans ((getTeam_post ..).trans hget)⟩
    · rw [ihreqs, reqs_post, hon.reqs, List.append_assoc]
      rfl
    · exact routed_trans (routed_trans (q := { r with id := s.nextId }) ⟨rfl, fun _ _ _ h => h⟩ hrouted) ⟨rfl, fun _ _ _ h => h⟩

/-- Of walks none of which need wait, none need wait together. -/
theorem walkHeld_all {s : State} {c tid ctx : Nat} {vas : List Nat} (h : ∀ va ∈ vas, walkHeld s c tid ctx [va] = false) :
    walkHeld s c tid ctx vas = false := by
  by_contra hheld
  simp only [walkHeld, Bool.not_eq_false, Bool.and_eq_true, Bool.not_eq_true', List.isEmpty_eq_false_iff_exists_mem, List.any_eq_true,
    Bool.or_eq_true] at hheld
  obtain ⟨⟨pa0, hpa0⟩, q, hq, ⟨⟨hc, ht⟩, hacc⟩, hcause⟩ := hheld
  have single {va pa : Nat} (hva : va ∈ vas) (hpa : pa ∈ entriesRead s c ctx va)
      (hq' : acquires q = true ∨ (q.write && match q.loc with
        | some l => (entriesRead s c ctx va).any fun pa => overlap l q.n (.hbm pa) 8
        | none => false) = true) : False := by
    have := h va hva
    simp only [walkHeld, List.flatMap_cons, List.flatMap_nil, List.append_nil, Bool.and_eq_false_iff, Bool.not_eq_false',
      List.isEmpty_iff, List.any_eq_false] at this
    obtain hnil | hnone := this
    · rw [hnil] at hpa
      exact List.not_mem_nil hpa
    · refine hnone q hq ?_
      simp only [hc, ht, hacc, Bool.true_and, Bool.or_eq_true]
      exact hq'
  obtain hacq | hwr := hcause
  · obtain ⟨va, hva, hpa⟩ := List.mem_flatMap.mp hpa0
    exact single hva hpa (.inl hacq)
  · cases hloc : q.loc with
    | none => simp [hloc] at hwr
    | some l =>
      simp only [hloc, List.any_eq_true] at hwr
      obtain ⟨hw, pa, hpa, hover⟩ := hwr
      obtain ⟨va, hva, hin⟩ := List.mem_flatMap.mp hpa
      exact single hva hin (.inr (by simp only [hw, hloc, Bool.true_and, List.any_eq_true]; exact ⟨pa, hin, hover⟩))

/-! ### Sending the requests of a plan (R126, R127, R360) -/

/-- A load or store of team `t` of core `c` none of whose addresses lies in the other world or waits for its walk. -/
structure Sendable (s : State) (c : Nat) (t : Team) (r : Req) : Prop where
  plain : isPlain r.kind = true
  core : r.core = c
  ctx : r.ctx = t.ctx
  own : Own s c t r.write (r.va :: r.shadowVa.toList)

/-- Such requests go out, and the team is put back. -/
theorem sendAll_own {s : State} {c sl : Nat} {t : Team} {h : Head} (p : Plan) (u : Team) {rs : List Req} (hrs : ∀ r ∈ rs, Sendable s c t r) :
    ∃ s1 qs, sendAll (issueOf s c sl t h) p u rs = .go s1 ∧ s1.reqs = s.reqs ++ qs ∧ List.Forall₂ Routed rs qs ∧ Around s s1 c sl ∧
      getTeam s1 c sl = some u := by
  let i := issueOf s c sl t h
  have hsame : SameTables s i.s c := sameTables_issueOf s c sl t h
  have hput : SameTables s (setTeam i.s c sl u) c := sameTables_trans hsame (sameTables_setTeam i.s c sl u c)
  have hheld : walkHeld i.s c i.t.tid i.t.ctx (rs.flatMap fun r => r.va :: r.shadowVa.toList) = false := by
    rw [show i.t.tid = t.tid from enterRegion_tid .., show i.t.ctx = t.ctx from enterRegion_ctx .., walkHeld_sameTables hsame _ rfl]
    refine walkHeld_all fun va hva => ?_
    obtain ⟨r, hr, hin⟩ := List.mem_flatMap.mp hva
    exact ((hrs r hr).own va hin).2
  obtain ⟨hflag, ⟨qs, hreqs, hrouted⟩, haround, hget⟩ := routeAll_own (c := c) sl (rs.map fun r => { r with img := p.img, cache := p.pol })
    (setTeam i.s c sl u) fun q hq => by
      obtain ⟨r, hr, rfl⟩ := List.mem_map.mp hq
      obtain ⟨hk, hc, hctx, hown⟩ := hrs r hr
      refine ⟨hk, hc, fun va hva => ?_⟩
      show (homeOf _ r.core r.ctx r.write va).1.world = false
      rw [hc, hctx, homeOf_sameTables hput]
      exact (hown va hva).1
  refine ⟨(routeAll (rs.map fun r => { r with img := p.img, cache := p.pol }) (setTeam i.s c sl u)).2, qs, ?_, hreqs, ?_,
    around_trans (around_of_teamOnly (teamOnly_trans (teamOnly_issueOf s c sl t h) (teamOnly_setTeam ..))) haround,
    hget.trans (getTeam_setTeam_same ..)⟩
  · show (if walkHeld i.s c i.t.tid i.t.ctx (rs.flatMap fun r => r.va :: r.shadowVa.toList) = true then Res.wait
      else if (routeAll (rs.map fun r => { r with img := p.img, cache := p.pol }) (setTeam i.s c sl u)).1 = true then _ else _) = _
    rw [hheld, hflag]
    rfl
  · rw [List.forall₂_map_left_iff] at hrouted
    refine List.Forall₂.imp ?_ hrouted
    exact fun r q hq => ⟨hq.ask, hq.mine⟩

/-- What went out is what was asked for. -/
theorem sent_of_routed {s s' : State} {c sl : Nat} {t : Team} {rs qs : List Req} (hreqs : s'.reqs = s.reqs ++ qs)
    (hrouted : List.Forall₂ Routed rs qs) (hmine : ∀ r ∈ rs, Mine c sl t r) : Sent s s' c sl t (rs.map askOf) := by
  refine ⟨qs, hreqs, ?_, ?_⟩
  · clear hmine hreqs
    induction hrouted with
    | nil => rfl
    | cons hq _ ih => rw [List.map_cons, List.map_cons, hq.ask, ih]
  · clear hreqs
    induction hrouted with
    | nil => exact fun _ h => absurd h List.not_mem_nil
    | cons hq _ ih =>
      rw [List.forall_mem_cons] at hmine ⊢
      exact ⟨hq.mine _ _ _ hmine.1, ih hmine.2⟩

/-- A request that the issuing instruction makes is its team's. -/
theorem mine_mkReq (s : State) (c sl : Nat) (t : Team) (h : Head) (l : Nat) (k : ReqKind) : Mine c sl t (mkReq (issueOf s c sl t h) l k) := by
  have hk := entered_keeps (fun y => (y.tid, y.ctx, y.seq)) s t h fun _ _ _ _ _ _ => rfl
  simp only [Prod.mk.injEq] at hk
  obtain ⟨htid, hctx, hseq⟩ := hk
  exact ⟨rfl, rfl, htid, hctx, hseq, rfl, rfl, rfl, rfl⟩

/-! ### The lanes of an access (R25, R35, R128) -/

theorem lt_of_mem_lanesOf {m : Mask} {l : Nat} (h : l ∈ lanesOf m) : l < 32 := (mem_lanesOf.mp h).1
theorem mem_lanesOf_of_served {d : Opd} {m : Mask} {l : Nat} (hm : m ≠ 0) (h : l ∈ served d m) : l ∈ lanesOf m := by
  unfold served at h
  split at h
  · rw [List.mem_singleton.mp h]
    exact lowest_mem hm
  · exact h
theorem lanesOf_ascending (m : Mask) : (lanesOf m).Pairwise (· < ·) := List.Pairwise.filter _ List.pairwise_lt_range

section lanes
variable {i : Issue} {x : MM} {ls : List Nat} {l : Nat}

theorem mem_of_insOf (h : l ∈ insOf i x ls) : l ∈ ls := List.mem_of_mem_filter h
theorem mem_of_outOf (h : l ∈ outOf i x ls) : l ∈ ls := List.mem_of_mem_filter h
/-- No lane is both in bounds and out of bounds. -/
theorem not_mem_outOf (h : l ∈ insOf i x ls) : l ∉ outOf i x ls := by
  intro hout
  have h1 := (List.mem_filter.mp h).2
  have h2 := (List.mem_filter.mp hout).2
  rw [h1] at h2
  exact nomatch h2
/-- A scalar's one lane is on one side of the bounds. -/
theorem insOf_scalar {d : Opd} {m : Mask} (hd : isS d = true) : insOf i x (served d m) = [] ∨ outOf i x (served d m) = [] := by
  unfold insOf outOf served
  rw [if_pos hd, List.filter_singleton, List.filter_singleton]
  cases brIn (bufOf i.t x.brec.toNat) (idxOf i x (lowest m))
  · exact .inl rfl
  · exact .inr rfl
end lanes

/-! ### The destination of a load (R35, R37 step 6) -/

/-- A fold over lanes of a change of the register maps changes those alone. -/
theorem foldl_maps_only {f : Team → Nat → Team} (hf : ∀ t l, ∃ v s p, f t l = { t with v := v, s := s, p := p }) :
    ∀ (ls : List Nat) (t : Team), ∃ v s p, ls.foldl f t = { t with v := v, s := s, p := p }
  | [], t => ⟨t.v, t.s, t.p, rfl⟩
  | l :: ls, t => by
    obtain ⟨v, s, p, h⟩ := hf t l
    obtain ⟨v', s', p', h'⟩ := foldl_maps_only hf ls (f t l)
    refine ⟨v', s', p', ?_⟩
    rw [List.foldl_cons, h', h]
theorem foldl_frame {f : Team → Nat → Team} {d : Opd} {pair : Bool} {m : Mask} (hf : ∀ t, ∀ l ∈ lanesOf m, SameRegs t (f t l) d pair m) :
    ∀ (ls : List Nat) (t : Team), (∀ l ∈ ls, l ∈ lanesOf m) → SameRegs t (ls.foldl f t) d pair m
  | [], _, _ => sameRegs_of_eq d pair m rfl rfl rfl
  | l :: ls, t, h => sameRegs_trans (hf t l (h l List.mem_cons_self)) (foldl_frame hf ls _ fun k hk => h k (List.mem_cons_of_mem _ hk))

theorem landZero_eq {t : Team} {d : Opd} {pair : Bool} (h : opdAlloc t d pair = true) (l : Nat) :
    landZero t d pair l = putOpd t d pair l 0 0 := by
  unfold landZero land
  rw [if_pos h]
theorem foldl_landZero {d : Opd} {pair : Bool} : ∀ (ls : List Nat) {t : Team}, opdAlloc t d pair = true →
    ls.foldl (fun t l => landZero t d pair l) t = ls.foldl (fun t l => putOpd t d pair l 0 0) t
  | [], _, _ => rfl
  | l :: ls, t, h => by
    obtain ⟨v, s, p, hput⟩ := putOpd_only t d pair l 0 0
    rw [List.foldl_cons, List.foldl_cons, landZero_eq h, foldl_landZero ls (by rw [hput]; exact h)]

/-- An element after a write of element `a` of the same operand: the written one, and every lane's view of a scalar, shows it. -/
theorem rdOpd_putOpd (s : State) (t : Team) {d : Opd} (pair : Bool) {a l : Nat} (y : DWord) (g : Tag) (ha : a < 32) (hl : l < 32)
    (hr : isReg d = true) : rdOpd s (putOpd t d pair a y g) d pair l =
      if l = a ∨ isS d = true then written d pair y g else rdOpd s t d pair l := by
  by_cases hs : isS d = true
  · rw [if_pos (.inr hs), ← rdOpd_putOpd_same s t d pair a y g ha hr]
    cases d with
    | s n => rfl
    | _ => exact nomatch hs
  · by_cases e : l = a
    · subst e
      rw [if_pos (.inl rfl), rdOpd_putOpd_same s t d pair l y g hl hr]
    · rw [if_neg (by simp [e, hs])]
      have hin : inMask (1#32 <<< a) a = true := by simp [inMask, ha]
      have hout : inMask (1#32 <<< a) l = false := by
        simp only [inMask, BitVec.getLsbD_shiftLeft, BitVec.getLsbD_one]
        by_cases h : l < a
        · simp [h]
        · simp [show l - a ≠ 0 by omega]
      exact rdOpd_congr hl hout (fun k hk => hs (hk ▸ rfl)) (putOpd_frame t d pair a y g ha _ hin) hr
theorem rdOpd_foldl_putOpd (s : State) {d : Opd} (pair : Bool) {l : Nat} (y : DWord) (g : Tag) (hl : l < 32) (hr : isReg d = true) :
    ∀ (ls : List Nat) (t : Team), (∀ a ∈ ls, a < 32) → rdOpd s (ls.foldl (fun t a => putOpd t d pair a y g) t) d pair l =
      if l ∈ ls ∨ (isS d = true ∧ ls ≠ []) then written d pair y g else rdOpd s t d pair l
  | [], t, _ => by simp
  | a :: rest, t, hlt => by
    rw [List.foldl_cons, rdOpd_foldl_putOpd s pair y g hl hr rest _ fun b hb => hlt b (List.mem_cons_of_mem _ hb),
      rdOpd_putOpd s t pair y g (hlt a List.mem_cons_self) hl hr]
    by_cases hs : isS d = true
    · simp [hs]
    · simp only [hs, List.mem_cons, Bool.false_eq_true, false_and, or_false]
      by_cases e : l = a <;> by_cases hin : l ∈ rest <;> simp [e, hin]

/-- The destination after step 6 of a load: lanes `out` take 0, lanes `ins` turn empty. -/
def marked (t : Team) (d : Opd) (pair : Bool) (ins out : List Nat) : Team :=
  ins.foldl (fun t l => markOpd t d pair l false) (out.foldl (fun t l => putOpd t d pair l 0 0) t)
theorem marked_only (t : Team) (d : Opd) (pair : Bool) (ins out : List Nat) :
    ∃ v s p, marked t d pair ins out = { t with v := v, s := s, p := p } := by
  obtain ⟨v, s, p, h⟩ := foldl_maps_only (f := fun t l => putOpd t d pair l 0 0) (fun t l => putOpd_only t d pair l 0 0) out t
  obtain ⟨v', s', p', h'⟩ := foldl_maps_only (f := fun t l => markOpd t d pair l false) (fun t l => markOpd_only t d pair l false) ins
    (out.foldl (fun t l => putOpd t d pair l 0 0) t)
  exact ⟨v', s', p', by unfold marked; rw [h', h]⟩
theorem marked_frame (t : Team) (d : Opd) (pair : Bool) {m : Mask} {ins out : List Nat} (hi : ∀ l ∈ ins, l ∈ lanesOf m)
    (ho : ∀ l ∈ out, l ∈ lanesOf m) : SameRegs t (marked t d pair ins out) d pair m :=
  sameRegs_trans
    (foldl_frame (fun t l hl => putOpd_frame t d pair l 0 0 (mem_lanesOf.mp hl).1 m (mem_lanesOf.mp hl).2) out t ho)
    (foldl_frame (fun t l hl => markOpd_frame t d pair l false (mem_lanesOf.mp hl).1 m (mem_lanesOf.mp hl).2) ins _ hi)

section marked
variable (s : State) (t : Team) {d : Opd} (pair : Bool) {ins out : List Nat} (hr : isReg d = true) (h7 : d ≠ .p 7)
  (hi : ∀ l ∈ ins, l < 32) (ho : ∀ l ∈ out, l < 32) (hdis : ∀ l ∈ ins, l ∉ out) (hsca : isS d = true → ins = [] ∨ out = [])
include hr h7 hi ho hdis hsca

theorem rdOpd_marked_ins {l : Nat} (hl : l ∈ ins) :
    rdOpd s (marked t d pair ins out) d pair l = { rdOpd s t d pair l with full := false } := by
  unfold marked
  rw [rdOpd_foldl_markOpd s pair false (hi l hl) hr h7 ins _ hi, if_pos (.inl hl),
    rdOpd_foldl_putOpd s pair 0 0 (hi l hl) hr out _ ho, if_neg]
  rintro (hin | ⟨hs, hne⟩)
  · exact hdis l hl hin
  · obtain rfl | rfl := hsca hs
    · exact List.not_mem_nil hl
    · exact hne rfl
theorem rdOpd_marked_out {l : Nat} (hl : l ∈ out) : rdOpd s (marked t d pair ins out) d pair l = written d pair 0 0 := by
  unfold marked
  rw [rdOpd_foldl_markOpd s pair false (ho l hl) hr h7 ins _ hi, if_neg, rdOpd_foldl_putOpd s pair 0 0 (ho l hl) hr out _ ho,
    if_pos (.inl hl)]
  rintro (hin | ⟨hs, hne⟩)
  · exact hdis l hin hl
  · obtain rfl | rfl := hsca hs
    · exact hne rfl
    · exact List.not_mem_nil hl
end marked

/-! ### The requests of a load (R62, R128) -/

section load
variable {x : MM} {s : State} {c sl : Nat} {t : Team}

/-- The read of lane `l`, with its shadow byte if it reads one. -/
def laneRead (i : Issue) (x : MM) (f : LoadFmt) (l : Nat) : Req :=
  { Machine.ordOf x false (mkReq i l (.load x.d (pairSize x.size) f)) with
    va := vaOf i x (sizeBytes x.size) l, n := sizeBytes x.size, read := true,
    shadowVa := if f.fp && brT (bufOf i.t x.brec.toNat) then some (shOf i x l) else none }
theorem loadReqs_eq (i : Issue) (x : MM) (f : LoadFmt) (b : Option Rd) (ls : List Nat) :
    loadReqs i x f (planOf i x (rd i x.a false) b ls) = (insOf i x ls).map (laneRead i x f) := by
  show List.map _ ((insOf i x ls).map fun l => (l, idxOf i x l)) = _
  rw [List.map_map]
  rfl
theorem askOf_laneRead (f : LoadFmt) (l : Nat) : askOf (laneRead (issueOf s c sl t x.h) x f l) =
    askMM t x false true false l (vaOf (issueOf s c sl t x.h) x (sizeBytes x.size) l) (sizeBytes x.size) (.load x.d (pairSize x.size) f) := by
  rw [askMM_read]
  simp [askOf, laneRead, Machine.ordOf, mkReq]
theorem mine_laneRead (f : LoadFmt) (l : Nat) : Mine c sl t (laneRead (issueOf s c sl t x.h) x f l) :=
  mine_mkReq s c sl t x.h l (.load x.d (pairSize x.size) f)
theorem sendable_laneRead {f : LoadFmt} {ls : List Nat}
    (hva : Own s c t false (ls.map (vaOf (issueOf s c sl t x.h) x (sizeBytes x.size))))
    (hsh : f.fp = true → brT (bufOf t x.brec.toNat) = true → Own s c t false (ls.map (shOf (issueOf s c sl t x.h) x))) {l : Nat} (hl : l ∈ ls) :
    Sendable s c t (laneRead (issueOf s c sl t x.h) x f l) := by
  refine ⟨rfl, rfl, enterRegion_ctx .., fun va h => ?_⟩
  obtain rfl | h := List.mem_cons.mp h
  · exact hva _ (List.mem_map_of_mem hl)
  · have hb : bufOf (issueOf s c sl t x.h).t x.brec.toNat = bufOf t x.brec.toNat := bufOf_entered ..
    by_cases hT : (f.fp && brT (bufOf t x.brec.toNat)) = true
    · obtain ⟨hfp, ht⟩ := Bool.and_eq_true_iff.mp hT
      simp only [laneRead, hb, hT, if_true, Option.toList, List.mem_singleton] at h
      exact h ▸ hsh hfp ht _ (List.mem_map_of_mem hl)
    · simp only [laneRead, hb, hT, Bool.false_eq_true, if_false, Option.toList] at h
      exact absurd h List.not_mem_nil

/-- The team that a load puts back has its destination marked, and has counted its out-of-bounds lanes (R35, R37 step 6). -/
theorem markLoads_eq (s : State) (c sl : Nat) (ha : opdAlloc t x.d (pairSize x.size) = true) (b : Option Rd) (ls : List Nat) :
    let i := issueOf s c sl t x.h
    ∃ w n, markLoads i x.d (pairSize x.size) (planOf i x (rd i x.a false) b ls) =
      { marked (countOob (entered s t x.h) (outOf i x ls).length) x.d (pairSize x.size) (insOf i x ls) (outOf i x ls) with
        undo := w, undoNew := n } := by
  intro i
  have ha' : opdAlloc (countOob (entered s t x.h) (outOf i x ls).length) x.d (pairSize x.size) = true := by
    have halloc : (countOob (entered s t x.h) (outOf i x ls).length).alloc = t.alloc := enterRegion_alloc ..
    unfold opdAlloc at ha ⊢
    rwa [halloc]
  obtain ⟨w, n, hu⟩ := pushUndo_eq i.s (marked (countOob (entered s t x.h) (outOf i x ls).length) x.d (pairSize x.size) (insOf i x ls)
    (outOf i x ls)) (undoOf i.t x.d (pairSize x.size))
  refine ⟨w, n, Eq.trans ?_ hu⟩
  unfold marked
  rw [← foldl_landZero (outOf i x ls) ha']
  show pushUndo i.s (((insOf i x ls).map fun l => (l, idxOf i x l)).foldl (fun t e => markOpd t x.d (pairSize x.size) e.1 false) _) _ = _
  rw [List.foldl_map]
  rfl

/-- A load whose access can be sent completes (R128). -/
theorem execLd_done (ci : CanIssue s c sl t x.h) (hw : (Instr.ld x).wf = true) (haa : opdAlloc t x.a.o false = true)
    (ha : opdAlloc t x.d (pairSize x.size) = true) :
    let i := issueOf s c sl t x.h
    let pair := pairSize x.size
    let n := sizeBytes x.size
    let ls := served x.d (active t x.h)
    let f := loadFmt (slotFmt (recSlot (recordOf s t) x.slot.toNat)) x.size
    Ready i [rd i x.a false] [(x.d, pair)] → CanAccess i x ls → Own s c t false ((insOf i x ls).map (vaOf i x n)) →
    (f.fp = true → brT (bufOf t x.brec.toNat) = true → Own s c t false ((insOf i x ls).map (shOf i x))) →
    ∃ s' u, execLd x s = .next s' ∧
      Sends s s' c sl (entered s t x.h) u x.d pair (active t x.h) false (satAdd32 t.oobcnt (outOf i x ls).length) ∧
      Awaits s s' t u x.d pair (insOf i x ls) (outOf i x ls) ∧
      Sent s s' c sl t ((insOf i x ls).map fun l => askMM t x false true false l (vaOf i x n l) n (.load x.d pair f)) := by
  intro i pair n ls f hready ca hva hsh
  have hd : dOk x.d (pairSize x.size) = true := by
    simp only [Instr.wf, legal, legalLd, Bool.and_eq_true] at hw
    obtain ⟨⟨⟨⟨⟨⟨-, hd⟩, -⟩, -⟩, -⟩, -⟩, -⟩ := hw
    exact hd
  have h7 : x.d ≠ .p 7 := fun h => by rw [h] at hd; exact nomatch hd
  have hlanes : ∀ l ∈ ls, l ∈ lanesOf (active t x.h) := fun l => mem_lanesOf_of_served ci.some
  have hins : ∀ l ∈ insOf i x ls, l ∈ lanesOf (active t x.h) := fun l hl => hlanes l (mem_of_insOf hl)
  have hout : ∀ l ∈ outOf i x ls, l ∈ lanesOf (active t x.h) := fun l hl => hlanes l (mem_of_outOf hl)
  let u1 := countOob (entered s t x.h) (outOf i x ls).length
  obtain ⟨w, nw, hmark⟩ := markLoads_eq s c sl ha none ls
  obtain ⟨v, ss, p, honly⟩ := marked_only u1 x.d pair (insOf i x ls) (outOf i x ls)
  let u0 : Team := { marked u1 x.d pair (insOf i x ls) (outOf i x ls) with undo := w, undoNew := nw }
  obtain ⟨s1, qs, hsend, hreqs, hrouted, haround, hget⟩ := sendAll_own (sl := sl) (h := x.h) (planOf i x (rd i x.a false) none ls) u0
    (rs := (insOf i x ls).map (laneRead i x f)) fun r hr => by
      obtain ⟨l, hl, rfl⟩ := List.mem_map.mp hr
      exact sendable_laneRead hva hsh hl
  have hu0 : u0 = { entered s t x.h with
      v := v, s := ss, p := p, oobcnt := satAdd32 t.oobcnt (outOf i x ls).length, undo := w, undoNew := nw } := by
    show ({ marked u1 x.d pair (insOf i x ls) (outOf i x ls) with undo := w, undoNew := nw } : Team) = _
    rw [honly, ← entered_oobcnt s t x.h]
    rfl
  obtain ⟨u, hsends, hsame, h1, h2, h3⟩ := sends_retired (t := t) (h := x.h) (u0 := u0) (d := x.d) (pair := pair) (m := active t x.h)
    (oob := satAdd32 t.oobcnt (outOf i x ls).length) false haround hget
    (sameRegs_trans (u := u1) (sameRegs_of_eq _ _ _ rfl rfl rfl)
      (sameRegs_trans (marked_frame u1 x.d pair hins hout) (sameRegs_of_eq _ _ _ rfl rfl rfl)))
    (by rw [hu0]; rfl) (by rw [hu0]) (by rw [hu0])
  have hread (s' : State) (l : Nat) : rdOpd s' u x.d pair l =
      rdOpd s' (marked u1 x.d pair (insOf i x ls) (outOf i x ls)) x.d pair l := rdOpd_maps h1 h2 h3 x.d pair l (dOk_reg hd)
  have hbase (s' : State) (l : Nat) : rdOpd s' u1 x.d pair l = rdOpd s t x.d pair l :=
    (rdOpd_maps (t := entered s t x.h) rfl rfl rfl x.d pair l (dOk_reg hd)).trans (rdOpd_entered (dOk_reg hd))
  have hlt : (∀ l ∈ insOf i x ls, l < 32) ∧ ∀ l ∈ outOf i x ls, l < 32 :=
    ⟨fun l hl => lt_of_mem_lanesOf (hins l hl), fun l hl => lt_of_mem_lanesOf (hout l hl)⟩
  refine ⟨_, u, ?_, hsends, ⟨fun l hl => ?_, fun l hl => ?_⟩, ?_⟩
  · unfold execLd
    refine issue_go ci hw (by simp [recBound_of_canAccess ca, haa, ha]) ((withPlan_ready hready ca).trans ?_)
    show sendAll i (planOf i x (rd i x.a false) none ls) (markLoads i x.d pair (planOf i x (rd i x.a false) none ls))
      (loadReqs i x (loadFmt (slotFmt (recSlot (wordsOf i) x.slot.toNat)) x.size) (planOf i x (rd i x.a false) none ls)) = _
    rw [words_issueOf, loadReqs_eq, hmark]
    exact hsend
  · rw [hread, rdOpd_marked_ins _ u1 pair (dOk_reg hd) h7 hlt.1 hlt.2 (fun _ => not_mem_outOf) insOf_scalar hl, hbase]
  · rw [hread, rdOpd_marked_out _ u1 pair (dOk_reg hd) h7 hlt.1 hlt.2 (fun _ => not_mem_outOf) insOf_scalar hl]
  · have hsent := sent_of_routed (s' := retired i false s1) (hsame.trans hreqs) hrouted fun r hr => by
      obtain ⟨l, -, rfl⟩ := List.mem_map.mp hr
      exact mine_laneRead f l
    rw [List.map_map] at hsent
    rwa [show askOf ∘ laneRead i x f = fun l => askMM t x false true false l (vaOf i x n l) n (.load x.d pair f) from
      funext fun l => askOf_laneRead f l] at hsent
end load

/-! ### Of stores at one address the highest lane's (R129, R419) -/

/-- A store that writes no bytes. -/
def silenced (r : Req) : Req := { r with kind := match r.kind with | .sts _ t p => .sts [] t p | _ => .store [] }
theorem askOf_silenced (r : Req) : askOf (silenced r) = blank (askOf r) := rfl
theorem lastWriters_cons (r : Req) (rest : List Req) : lastWriters (r :: rest) =
    (if rest.any fun q => q.va == r.va && q.loc == r.loc then silenced r else r) :: lastWriters rest := rfl
theorem mem_lastWriters {q : Req} : ∀ {rs : List Req}, q ∈ lastWriters rs → ∃ r ∈ rs, q = r ∨ q = silenced r
  | [], h => absurd h List.not_mem_nil
  | r :: rest, h => by
    rw [lastWriters_cons] at h
    obtain rfl | h := List.mem_cons.mp h
    · refine ⟨r, List.mem_cons_self, ?_⟩
      split
      · exact .inr rfl
      · exact .inl rfl
    · obtain ⟨r', hr', hq⟩ := mem_lastWriters h
      exact ⟨r', List.mem_cons_of_mem _ hr', hq⟩

theorem any_congr_mem {α : Type} {p q : α → Bool} {as : List α} (h : ∀ b ∈ as, p b = q b) : as.any p = as.any q := by
  rw [Bool.eq_iff_iff, List.any_eq_true, List.any_eq_true]
  exact exists_congr fun b => and_congr_right fun hb => by rw [h b hb]
/-- The first of asks in ascending lanes gives way to any later one at its address, and takes part in no other choice. -/
theorem lastStores_cons {a : Ask} {as : List Ask} (h : ∀ b ∈ as, a.lane < b.lane) :
    lastStores (a :: as) = (if as.any fun b => b.va == a.va then blank a else a) :: lastStores as := by
  have hhead : ((a :: as).any fun b => b.va == a.va && decide (a.lane < b.lane)) = as.any fun b => b.va == a.va := by
    rw [List.any_cons, decide_eq_false (Nat.lt_irrefl _), Bool.and_false, Bool.false_or]
    refine any_congr_mem fun b hb => ?_
    rw [decide_eq_true (h b hb), Bool.and_true]
  unfold lastStores
  rw [List.map_cons, hhead]
  refine congrArg _ (List.map_congr_left fun b hb => ?_)
  rw [List.any_cons, decide_eq_false (Nat.lt_asymm (h b hb)), Bool.and_false, Bool.false_or]
/-- Requests without a home yet, in ascending lanes, are told apart as their asks are. -/
theorem map_askOf_lastWriters : ∀ {rs : List Req}, (∀ r ∈ rs, r.loc = none) → rs.Pairwise (fun a b => a.lane < b.lane) →
    (lastWriters rs).map askOf = lastStores (rs.map askOf)
  | [], _, _ => rfl
  | r :: rest, hloc, hlanes => by
    obtain ⟨hlt, hrest⟩ := List.pairwise_cons.mp hlanes
    have hany : (rest.any fun q => q.va == r.va && q.loc == r.loc) = (rest.map askOf).any fun b => b.va == (askOf r).va := by
      rw [List.any_map]
      refine any_congr_mem fun q hq => ?_
      rw [hloc r List.mem_cons_self, hloc q (List.mem_cons_of_mem _ hq), beq_self_eq_true, Bool.and_true]
      rfl
    have hasks : ∀ b ∈ rest.map askOf, (askOf r).lane < b.lane := fun b hb => by
      obtain ⟨q, hq, rfl⟩ := List.mem_map.mp hb
      exact hlt q hq
    rw [lastWriters_cons, List.map_cons, List.map_cons, lastStores_cons hasks, hany,
      map_askOf_lastWriters (fun q hq => hloc q (List.mem_cons_of_mem _ hq)) hrest]
    split
    · rw [askOf_silenced]
    · rfl
theorem sendable_silenced {s : State} {c : Nat} {t : Team} {r : Req} (h : Sendable s c t r) : Sendable s c t (silenced r) := by
  obtain ⟨hk, hc, hx, ho⟩ := h
  refine ⟨?_, hc, hx, ho⟩
  unfold isPlain at hk
  unfold silenced
  split at hk
  · next hkind => rw [hkind]; rfl
  · next hkind => rw [hkind]; rfl
  · exact nomatch hk

/-! ### The requests of a store (R62, R129, R219) -/

section store
variable {x : MM} {s : State} {c sl : Nat} {t : Team}

/-- The writes of lane `l`: its data, and its shadow byte. -/
def dataReq (i : Issue) (x : MM) (b : Rd) (l : Nat) : Req :=
  fenced i.t { Machine.ordOf x false (mkReq i l (.store (leBytes (sizeBytes x.size) (b.at_ l).bits.toNat))) with
    write := true, va := vaOf i x (sizeBytes x.size) l, n := sizeBytes x.size }
def tagReq (i : Issue) (x : MM) (b : Rd) (l : Nat) : Req :=
  { Machine.ordOf x false (mkReq i l (.store [(b.at_ l).tag.setWidth 8])) with
    write := true, va := shOf i x l, n := 1, shadowVa := some (shOf i x l), strong := false, rel := false, relScope := .team }
theorem storeReqs_eq (i : Issue) (x : MM) (a : Option Rd) (b : Rd) (ls : List Nat) :
    storeReqs i x b (planOf i x (rd i x.a false) a ls) =
      lastWriters (if brT (bufOf i.t x.brec.toNat) then (insOf i x ls).map (tagReq i x b) else []) ++
        lastWriters ((insOf i x ls).map (dataReq i x b)) := by
  show lastWriters (if brT (bufOf i.t x.brec.toNat) = true then List.map _ ((insOf i x ls).map fun l => (l, idxOf i x l)) else []) ++
    lastWriters (List.map _ ((insOf i x ls).map fun l => (l, idxOf i x l))) = _
  rw [List.map_map, List.map_map]
  rfl

/-- An earlier release fence changes the release part alone. -/
theorem fenced_only (t : Team) (r : Req) : ∃ a b, fenced t r = { r with rel := a, relScope := b } := by
  unfold fenced
  split
  · split
    · exact ⟨_, _, rfl⟩
    · exact ⟨_, _, rfl⟩
  · exact ⟨_, _, rfl⟩
theorem dataReq_only (i : Issue) (x : MM) (b : Rd) (l : Nat) : ∃ a k, dataReq i x b l =
    { Machine.ordOf x false (mkReq i l (.store (leBytes (sizeBytes x.size) (b.at_ l).bits.toNat))) with
      write := true, va := vaOf i x (sizeBytes x.size) l, n := sizeBytes x.size, rel := a, relScope := k } := fenced_only ..
theorem askOf_dataReq (b : Rd) (l : Nat) : askOf (dataReq (issueOf s c sl t x.h) x b l) =
    askMM t x false false true l (vaOf (issueOf s c sl t x.h) x (sizeBytes x.size) l) (sizeBytes x.size)
      (.store (leBytes (sizeBytes x.size) (b.at_ l).bits.toNat)) := by
  have hfence : (issueOf s c sl t x.h).t.relFence = t.relFence := entered_keeps (·.relFence) s t x.h fun _ _ _ _ _ _ => rfl
  unfold dataReq fenced askMM
  rw [hfence]
  cases t.relFence with
  | none => simp [askOf, Machine.ordOf, mkReq]
  | some sc =>
    by_cases hs : (x.ord != .weak) = true
    · simp [askOf, Machine.ordOf, mkReq, hs]
    · simp [askOf, Machine.ordOf, mkReq, hs]
theorem askOf_tagReq (b : Rd) (l : Nat) : askOf (tagReq (issueOf s c sl t x.h) x b l) =
    { askPlain false true l (shOf (issueOf s c sl t x.h) x l) 1 (.store [(b.at_ l).tag.setWidth 8]) with
      acq := x.ord == .acq, scope := x.scope } := by
  simp [askOf, tagReq, askPlain, Machine.ordOf, mkReq]

theorem mine_dataReq (b : Rd) (l : Nat) : Mine c sl t (dataReq (issueOf s c sl t x.h) x b l) := by
  obtain ⟨_, _, h⟩ := dataReq_only (issueOf s c sl t x.h) x b l
  rw [h]
  exact mine_mkReq s c sl t x.h l (.store (leBytes (sizeBytes x.size) (b.at_ l).bits.toNat))
theorem mine_tagReq (b : Rd) (l : Nat) : Mine c sl t (tagReq (issueOf s c sl t x.h) x b l) :=
  mine_mkReq s c sl t x.h l (.store [(b.at_ l).tag.setWidth 8])
theorem sendable_dataReq {ls : List Nat} (hva : Own s c t true (ls.map (vaOf (issueOf s c sl t x.h) x (sizeBytes x.size)))) (b : Rd)
    {l : Nat} (hl : l ∈ ls) : Sendable s c t (dataReq (issueOf s c sl t x.h) x b l) := by
  obtain ⟨_, _, h⟩ := dataReq_only (issueOf s c sl t x.h) x b l
  rw [h]
  refine ⟨rfl, rfl, enterRegion_ctx .., fun va hin => ?_⟩
  rw [List.mem_singleton.mp hin]
  exact hva _ (List.mem_map_of_mem hl)
theorem sendable_tagReq {ls : List Nat} (hsh : Own s c t true (ls.map (shOf (issueOf s c sl t x.h) x))) (b : Rd)
    {l : Nat} (hl : l ∈ ls) : Sendable s c t (tagReq (issueOf s c sl t x.h) x b l) := by
  refine ⟨rfl, rfl, enterRegion_ctx .., fun va hin => ?_⟩
  have hva : va = shOf (issueOf s c sl t x.h) x l := by
    obtain h | h := List.mem_cons.mp hin
    · exact h
    · exact List.mem_singleton.mp h
  rw [hva]
  exact hsh _ (List.mem_map_of_mem hl)

/-- The asks of the last writers among one request for each lane. -/
theorem map_askOf_lastWriters_lanes {f : Nat → Req} (hloc : ∀ l, (f l).loc = none) (hlane : ∀ l, (f l).lane = l) {ls : List Nat}
    (hls : ls.Pairwise (· < ·)) : (lastWriters (ls.map f)).map askOf = lastStores (ls.map fun l => askOf (f l)) := by
  rw [map_askOf_lastWriters, List.map_map]
  · rfl
  · intro r hr
    obtain ⟨l, -, rfl⟩ := List.mem_map.mp hr
    exact hloc l
  · rw [List.pairwise_map]
    refine hls.imp fun h => ?_
    rwa [hlane, hlane]
theorem map_askOf_storeReqs (a : Option Rd) (b : Rd) (m : Mask) :
    let i := issueOf s c sl t x.h
    let ins := insOf i x (lanesOf m)
    let n := sizeBytes x.size
    (storeReqs i x b (planOf i x (rd i x.a false) a (lanesOf m))).map askOf =
      lastStores (if brT (bufOf t x.brec.toNat) then ins.map fun l =>
        { askPlain false true l (shOf i x l) 1 (.store [(b.at_ l).tag.setWidth 8]) with acq := x.ord == .acq, scope := x.scope } else []) ++
      lastStores (ins.map fun l => askMM t x false false true l (vaOf i x n l) n (.store (leBytes n (b.at_ l).bits.toNat))) := by
  intro i ins n
  have hls : ins.Pairwise (· < ·) := (lanesOf_ascending m).filter _
  have hdata := map_askOf_lastWriters_lanes (f := dataReq i x b)
    (fun l => by obtain ⟨_, _, h⟩ := dataReq_only i x b l; rw [h]; rfl)
    (fun l => by obtain ⟨_, _, h⟩ := dataReq_only i x b l; rw [h]; rfl) hls
  have htags := map_askOf_lastWriters_lanes (f := tagReq i x b) (fun _ => rfl) (fun _ => rfl) hls
  simp only [i, askOf_dataReq] at hdata
  simp only [i, askOf_tagReq] at htags
  rw [storeReqs_eq, List.map_append, hdata, show bufOf i.t x.brec.toNat = bufOf t x.brec.toNat from bufOf_entered ..]
  refine congrArg (· ++ _) ?_
  split
  · exact htags
  · rfl

/-- A store whose access can be sent completes (R129). -/
theorem execSt_done (ci : CanIssue s c sl t x.h) (hw : (Instr.st x).wf = true) (haa : opdAlloc t x.a.o false = true)
    (hab : opdAlloc t x.b.o (pairSize x.size) = true) :
    let i := issueOf s c sl t x.h
    let n := sizeBytes x.size
    let ls := lanesOf (active t x.h)
    let v := fun l => (rd i x.b (pairSize x.size)).at_ l
    Ready i [rd i x.a false, rd i x.b (pairSize x.size)] [] → CanAccess i x ls → Own s c t true ((insOf i x ls).map (vaOf i x n)) →
    (brT (bufOf t x.brec.toNat) = true → Own s c t true ((insOf i x ls).map (shOf i x))) →
    releaseWaits i x false (!(insOf i x ls).isEmpty) = false →
    let tags := (insOf i x ls).map fun l =>
      { askPlain false true l (shOf i x l) 1 (.store [(v l).tag.setWidth 8]) with acq := x.ord == .acq, scope := x.scope }
    let data := (insOf i x ls).map fun l => askMM t x false false true l (vaOf i x n l) n (.store (leBytes n (v l).bits.toNat))
    ∃ s' u, execSt x s = .next s' ∧
      Sends s s' c sl (entered s t x.h) u (.x 0) false 0 (x.ord == .rel) (satAdd32 t.oobcnt (outOf i x ls).length) ∧
      Sent s s' c sl t (lastStores (if brT (bufOf t x.brec.toNat) then tags else []) ++ lastStores data) := by
  intro i n ls v hready ca hva hsh hwaits tags data
  let b := rd i x.b (pairSize x.size)
  let p := planOf i x (rd i x.a false) (some b) ls
  let u0 := countOob (entered s t x.h) (outOf i x ls).length
  have hmade : ∀ r ∈ storeReqs i x b p, ∃ q, (r = q ∨ r = silenced q) ∧ Sendable s c t q ∧ Mine c sl t q := by
    intro r hr
    rw [storeReqs_eq, show bufOf i.t x.brec.toNat = bufOf t x.brec.toNat from bufOf_entered ..] at hr
    obtain hr | hr := List.mem_append.mp hr
    · obtain ⟨q, hq, hrq⟩ := mem_lastWriters hr
      split at hq
      · next hT =>
        obtain ⟨l, hl, rfl⟩ := List.mem_map.mp hq
        exact ⟨_, hrq, sendable_tagReq (hsh hT) b hl, mine_tagReq b l⟩
      · exact absurd hq List.not_mem_nil
    · obtain ⟨q, hq, hrq⟩ := mem_lastWriters hr
      obtain ⟨l, hl, rfl⟩ := List.mem_map.mp hq
      exact ⟨_, hrq, sendable_dataReq hva b hl, mine_dataReq b l⟩
  obtain ⟨s1, qs, hsend, hreqs, hrouted, haround, hget⟩ := sendAll_own (sl := sl) (h := x.h) p u0 (rs := storeReqs i x b p) fun r hr => by
    obtain ⟨q, rfl | rfl, hq, -⟩ := hmade r hr
    · exact hq
    · exact sendable_silenced hq
  obtain ⟨u, hsends, hsame, -⟩ := sends_retired (t := t) (h := x.h) (u0 := u0) (d := .x 0) (pair := false) (m := 0)
    (oob := satAdd32 t.oobcnt (outOf i x ls).length) (x.ord == .rel) haround hget (sameRegs_of_eq _ _ _ rfl rfl rfl)
    (by rw [← entered_oobcnt s t x.h]; rfl) rfl rfl
  refine ⟨_, u, ?_, hsends, ?_⟩
  · unfold execSt
    refine issue_go ci hw (by simp [recBound_of_canAccess ca, haa, hab]) ((withPlan_ready hready ca).trans ?_)
    have hempty : p.ins.isEmpty = (insOf i x ls).isEmpty := List.isEmpty_map
    show (if releaseWaits i x false (!p.ins.isEmpty) = true then Res.wait else sendAll i p u0 (storeReqs i x b p)) = _
    rw [hempty, hwaits]
    exact hsend
  · rw [← map_askOf_storeReqs (some b) b (active t x.h)]
    refine sent_of_routed (hsame.trans hreqs) hrouted fun r hr => ?_
    obtain ⟨q, rfl | rfl, -, hq⟩ := hmade r hr
    · exact hq
    · exact hq
end store

/-! ### Prefetches (R131, R209) -/

/-- One lane of a prefetch: its home is looked up, and its line joins those to fetch, once. -/
def lookUp (c ctx : Nat) (z : List Loc × State) (va : Nat) : List Loc × State :=
  let h := homeOf z.2 c ctx false va
  (match h.1.loc with | some l => (if z.1.contains (lineOf l) then z.1 else z.1 ++ [lineOf l]) | none => z.1, h.2)
theorem foldl_lookUp (c ctx sl : Nat) : ∀ (vas : List Nat) (z : List Loc × State),
    TeamOnly z.2 (vas.foldl (lookUp c ctx) z).2 c sl ∧ getTeam (vas.foldl (lookUp c ctx) z).2 c sl = getTeam z.2 c sl
  | [], z => ⟨teamOnly_refl .., rfl⟩
  | va :: vas, z => by
    obtain ⟨hon, hget⟩ := homeOf_teamOnly z.2 c ctx false va c sl
    obtain ⟨hon', hget'⟩ := foldl_lookUp c ctx sl vas (lookUp c ctx z va)
    exact ⟨teamOnly_trans hon hon', hget'.trans hget⟩
/-- A line that reaches its slice's cache changes no ticket, no request and no team. -/
theorem tallyAt_around (s : State) (l : Loc) (w : Nat) (pol : BitVec 2) (c sl : Nat) : Around s (tallyAt s l w pol) c sl ∧
    (tallyAt s l w pol).reqs = s.reqs ∧ getTeam (tallyAt s l w pol) c sl = getTeam s c sl := by
  have same : Around s s c sl := around_of_teamOnly (teamOnly_refl ..)
  cases l with
  | hbm pa =>
    unfold tallyAt
    dsimp only
    generalize (if (nget (getSlice s (sliceOf pa)).cache (pa / 128)).isSome = true then 2 else 3) = w'
    obtain ⟨m, e, o⟩ := around_of_teamOnly (teamOnly_trans (teamOnly_tally s (Config.cores + sliceOf pa) w 1 c sl)
      (teamOnly_tally _ (Config.cores + sliceOf pa) w' 1 c sl))
    refine ⟨⟨⟨m.mem, m.wstore, m.remote, m.scratch⟩, ⟨fun n => ?_, e.seqSlots, e.wgs, e.chans, e.tops⟩, o⟩,
      (tally_reqs ..).trans (tally_reqs ..), (getTeam_tally ..).trans (getTeam_tally ..)⟩
    unfold getSlice
    show (ngetD _ (nset (tally (tally s (Config.cores + sliceOf pa) w 1) (Config.cores + sliceOf pa) w' 1).slices (sliceOf pa) _) n).world = _ ∧
      (ngetD _ (nset (tally (tally s (Config.cores + sliceOf pa) w 1) (Config.cores + sliceOf pa) w' 1).slices (sliceOf pa) _) n).tickets = _
    rw [ngetD_nset, tally_slices, tally_slices]
    split
    · next h => rw [h]; exact ⟨rfl, rfl⟩
    · exact ⟨rfl, rfl⟩
  | scratch _ _ => exact ⟨same, rfl, rfl⟩
  | weight _ => exact ⟨same, rfl, rfl⟩
  | remote _ _ _ => exact ⟨same, rfl, rfl⟩
theorem foldl_tallyAt_around (w : Nat) (pol : BitVec 2) (c sl : Nat) : ∀ (ls : List Loc) (s : State),
    Around s (ls.foldl (fun s l => tallyAt s l w pol) s) c sl ∧ (ls.foldl (fun s l => tallyAt s l w pol) s).reqs = s.reqs ∧
      getTeam (ls.foldl (fun s l => tallyAt s l w pol) s) c sl = getTeam s c sl
  | [], s => ⟨around_of_teamOnly (teamOnly_refl ..), rfl, rfl⟩
  | l :: ls, s => by
    obtain ⟨h, hr, hg⟩ := tallyAt_around s l w pol c sl
    obtain ⟨ih, ihr, ihg⟩ := foldl_tallyAt_around w pol c sl ls (tallyAt s l w pol)
    exact ⟨around_trans h ih, ihr.trans hr, ihg.trans hg⟩

/-- An issue takes no entry of the operand log. -/
theorem logFull_issueOf (s : State) (c sl : Nat) (t : Team) (h : Head) : logFull (issueOf s c sl t h).s c = logFull s c := by
  have hlog : (getCore (issueOf s c sl t h).s c).log = (getCore s c).log := core_setTeam (·.log) (fun _ _ => rfl) ..
  unfold logFull
  rw [hlog]
  rfl
/-- A prefetch whose walks need not wait completes (R131): its team has only moved on. -/
theorem execPref_done {x : MM} {s : State} {c sl : Nat} {t : Team} (ci : CanIssue s c sl t x.h) (hw : (Instr.pref x).wf = true)
    (haa : opdAlloc t x.a.o false = true) (hbound : recBound t x = true)
    (hready : Ready (issueOf s c sl t x.h) [rd (issueOf s c sl t x.h) x.a false] []) (hlog : logFull s c = false)
    (hwalks : Walks s c t ((insOf (issueOf s c sl t x.h) x (lanesOf (active t x.h))).map
      (vaOf (issueOf s c sl t x.h) x (sizeBytes x.size)))) :
    ∃ s' u, execPref x s = .next s' ∧ s'.reqs = s.reqs ∧ Sends s s' c sl (entered s t x.h) u (.x 0) false 0 false t.oobcnt := by
  let i := issueOf s c sl t x.h
  let p := planOf i x (rd i x.a false) none (lanesOf i.act)
  let vas := p.ins.map fun e => brAddr p.buf e.2 (sizeBytes x.size)
  let z := vas.foldl (lookUp c i.t.ctx) ([], i.s)
  have hissue := teamOnly_issueOf s c sl t x.h
  have hsame : SameTables s i.s c := sameTables_issueOf s c sl t x.h
  have hvas : vas = (insOf i x (lanesOf (active t x.h))).map (vaOf i x (sizeBytes x.size)) := by
    show List.map _ ((insOf i x (lanesOf (active t x.h))).map fun l => (l, idxOf i x l)) = _
    rw [List.map_map]
    rfl
  have hheld : walkHeld i.s c i.t.tid i.t.ctx vas = false := by
    rw [show i.t.tid = t.tid from enterRegion_tid .., show i.t.ctx = t.ctx from enterRegion_ctx .., walkHeld_sameTables hsame _ rfl, hvas]
    exact walkHeld_all hwalks
  have hlog' : logFull i.s c = false := (logFull_issueOf ..).trans hlog
  have hbody : ∃ s1, execPref x s = .next (retired i false s1) ∧ Around s s1 c sl ∧ s1.reqs = s.reqs ∧
      getTeam s1 c sl = some (entered s t x.h) := by
    have hgo {s1 : State} (h : (if logFull i.s c = true then Res.wait
        else if (brWld p.buf != (getCore i.s c).world) = true then Res.go i.s
        else if walkHeld i.s c i.t.tid i.t.ctx vas = true then Res.wait
        else Res.go (z.1.foldl (fun s l => tallyAt s l 0 p.pol) z.2)) = .go s1) : execPref x s = .next (retired i false s1) := by
      unfold execPref
      refine issue_go ci hw (by simp [hbound, haa]) ?_
      dsimp only
      rw [gate_ready hready]
      exact h
    rw [hlog', hheld] at hgo
    by_cases hworld : (brWld p.buf != (getCore i.s c).world) = true
    · exact ⟨i.s, hgo (if_pos hworld), around_of_teamOnly hissue, rfl, getTeam_issueOf ..⟩
    · rw [if_neg hworld] at hgo
      obtain ⟨hon, hget⟩ := foldl_lookUp c i.t.ctx sl vas ([], i.s)
      obtain ⟨haround, hreqs, hget'⟩ := foldl_tallyAt_around 0 p.pol c sl z.1 z.2
      exact ⟨_, hgo rfl, around_trans (around_of_teamOnly (teamOnly_trans hissue hon)) haround, hreqs.trans hon.reqs,
        hget'.trans (hget.trans (getTeam_issueOf ..))⟩
  obtain ⟨s1, hexec, haround, hreqs, hget⟩ := hbody
  obtain ⟨u, hsends, hsame', -⟩ := sends_retired (t := t) (h := x.h) (u0 := entered s t x.h) (d := .x 0) (pair := false) (m := 0)
    (oob := t.oobcnt) false haround hget (sameRegs_of_eq _ _ _ rfl rfl rfl) (by rw [← entered_oobcnt s t x.h]; rfl) rfl rfl
  exact ⟨_, u, hexec, hsame'.trans hreqs, hsends⟩

/-- Settles O26: LD marks its destination and sends a read for each lane in bounds, ST a write of which the highest lane's at an address stores,
PREF looks up homes and moves on. -/
theorem loadAndStoreIssue : Obligations.LoadAndStoreIssue := by
  intro x s c sl t ci haa i pair n buf
  exact ⟨fun hw ha => execLd_done ci hw haa ha, fun hw hab => execSt_done ci hw haa hab, fun hw hbound => execPref_done ci hw haa hbound⟩

end Sys2Proof.Proofs

/-! PROOFS. Floating-point arithmetic, conversions and significance (O8, O9, O10, O11, O12). -/

namespace Sys2Proof.Proofs

open Sys2Proof.Machine Sys2Proof.Safety Sys2Proof.Laws

/-! ### Arithmetic (R137 to R139, R141 to R143) -/

/-- Settles O8: each instruction is the register form of its operation at FP32. -/
theorem singleResults : Obligations.SingleResults := by
  intro x s c sl t ci ha i ws mode pol a b e Done
  refine ⟨fun h => ⟨fun hw => ?_, fun hw => ?_, fun hw => ?_, fun hw => ?_, fun hw => ?_, fun hw => ?_⟩, fun h hw => ?_,
    fun h => ⟨fun hw => ?_, fun hw => ?_, fun hw => ?_, fun hw => ?_⟩⟩
  · exact (fpRG_done (ins := .fadd x) (op := oAdd fp32) 2 ci ha hw (legalFp_reg hw) h fun _ => rfl :)
  · exact (fpRG_done (ins := .fsub x) (op := oSub fp32) 2 ci ha hw (legalFp_reg hw) h fun _ => rfl :)
  · exact (fpRG_done (ins := .fmul x) (op := oMul fp32) 2 ci ha hw (legalFp_reg hw) h fun _ => rfl :)
  · exact (fpRG_done (ins := .fdiv x) (op := oDiv fp32) 2 ci ha hw (legalFp_reg hw) h fun _ => rfl :)
  · exact (fpRG_done (ins := .fmin x) (op := oMin fp32) 2 ci ha hw (legalFp_reg hw) h fun _ => rfl :)
  · exact (fpRG_done (ins := .fmax x) (op := oMax fp32) 2 ci ha hw (legalFp_reg hw) h fun _ => rfl :)
  · exact (fpRG_done (ins := .ffma x) (op := oFma fp32) 3 ci ha hw (legalFp_reg hw) h fun _ => rfl :)
  · exact (fpRG_done (ins := .fsqrt x) (op := oSqrt fp32) 1 ci ha hw (legalFp_reg hw) h fun _ => rfl :)
  · exact (fpRG_done (ins := .frcp x) (op := oRcp fp32) 1 ci ha hw (legalFp_reg hw) h fun _ => rfl :)
  · exact (fpRG_done (ins := .fexp2 x) (op := oExp2 fp32) 1 ci ha hw (legalFp_reg hw) h fun _ => rfl :)
  · exact (fpRG_done (ins := .flog2 x) (op := oLog2 fp32) 1 ci ha hw (legalFp_reg hw) h fun _ => rfl :)

/-- Settles O9: each instruction is the register form of its operation at FP64, on pairs. -/
theorem doubleResults : Obligations.DoubleResults := by
  intro x s c sl t ci ha i ws mode pol a b e Done
  refine ⟨fun h => ⟨fun hw => ?_, fun hw => ?_, fun hw => ?_, fun hw => ?_, fun hw => ?_, fun hw => ?_⟩, fun h hw => ?_, fun h hw => ?_⟩
  · exact (fpRG_done (ins := .dadd x) (op := oAdd fp64) 2 ci ha hw (legalFp_reg hw) h fun _ => rfl :)
  · exact (fpRG_done (ins := .dsub x) (op := oSub fp64) 2 ci ha hw (legalFp_reg hw) h fun _ => rfl :)
  · exact (fpRG_done (ins := .dmul x) (op := oMul fp64) 2 ci ha hw (legalFp_reg hw) h fun _ => rfl :)
  · exact (fpRG_done (ins := .ddiv x) (op := oDiv fp64) 2 ci ha hw (legalFp_reg hw) h fun _ => rfl :)
  · exact (fpRG_done (ins := .dmin x) (op := oMin fp64) 2 ci ha hw (legalFp_reg hw) h fun _ => rfl :)
  · exact (fpRG_done (ins := .dmax x) (op := oMax fp64) 2 ci ha hw (legalFp_reg hw) h fun _ => rfl :)
  · exact (fpRG_done (ins := .dfma x) (op := oFma fp64) 3 ci ha hw (legalFp_reg hw) h fun _ => rfl :)
  · exact (fpRG_done (ins := .dsqrt x) (op := oSqrt fp64) 1 ci ha hw (legalFp_reg hw) h fun _ => rfl :)

/-- Settles O10: the immediate forms are those of FP32 with IMM32 as source B, the packed forms those of both halves. -/
theorem immediateAndPackedResults : Obligations.ImmediateAndPackedResults := by
  intro s c sl t
  refine ⟨fun x ci ha => ?_, fun g x ci ha => ?_⟩
  · intro i ws mode pol a k Done h
    refine ⟨fun hw => ?_, fun hw => ?_, fun hw => ?_, fun hw => ?_, fun hw => ?_⟩
    · exact (fpIM_done (ins := .faddIm x) (op := oAdd fp32) ci ha hw (legalFpIm_reg hw) h fun _ => rfl :)
    · exact (fpIM_done (ins := .fsubIm x) (op := oSub fp32) ci ha hw (legalFpIm_reg hw) h fun _ => rfl :)
    · exact (fpIM_done (ins := .fmulIm x) (op := oMul fp32) ci ha hw (legalFpIm_reg hw) h fun _ => rfl :)
    · exact (fpIM_done (ins := .fminIm x) (op := oMin fp32) ci ha hw (legalFpIm_reg hw) h fun _ => rfl :)
    · exact (fpIM_done (ins := .fmaxIm x) (op := oMax fp32) ci ha hw (legalFpIm_reg hw) h fun _ => rfl :)
  · intro i ws mode pol f a b e Done
    refine ⟨fun h => ⟨fun hw => ?_, fun hw => ?_⟩, fun h hw => ?_⟩
    · exact (halfRG_done (ins := .hadd2 g x) (op := oAdd f) 2 ci ha hw (legalFp_reg hw) h fun _ => rfl :)
    · exact (halfRG_done (ins := .hmul2 g x) (op := oMul f) 2 ci ha hw (legalFp_reg hw) h fun _ => rfl :)
    · exact (halfRG_done (ins := .hfma2 g x) (op := oFma f) 3 ci ha hw (legalFp_reg hw) h fun _ => rfl :)

/-! ### Accrued flags (R51, R63) -/

theorem maskOf_eq_zero_iff {f : Nat → Bool} {m : Mask} :
    maskOf (fun l => inMask m l && f l) = 0 ↔ ∀ l ∈ lanesOf m, f l = false := by
  constructor
  · intro h l hl
    obtain ⟨hl32, hm⟩ := mem_lanesOf.mp hl
    have hbit := inMask_maskOf (fun l => inMask m l && f l) hl32
    rw [h, hm, Bool.true_and] at hbit
    rw [← hbit]
    simp [inMask]
  · intro h
    by_contra hne
    obtain ⟨l, hl32, hl⟩ := exists_of_maskOf_ne_zero hne
    obtain ⟨hm, hf⟩ := Bool.and_eq_true_iff.mp hl
    rw [h l (mem_lanesOf.mpr ⟨hl32, hm⟩)] at hf
    exact nomatch hf

/-- The entered team with the flags of FP results `out` accrued: FLTSTAT takes theirs, SIGSTAT[0] is 1 where one is below SIGMIN. -/
def accrued (s : State) (t : Team) (h : Head) (sp : Nat) (out : Nat → FO) : Team :=
  { entered s t h with
    fltstat := t.fltstat ||| BitVec.ofNat 64 (foldLanes (active t h) (fun a l => a ||| (out l).fl) 0),
    sigstat := if (lanesOf (active t h)).any fun l => sigFails sp t.sigmin (polTag sp (out l).tag) then t.sigstat ||| 1 else t.sigstat }

/-- Where no enabled trap stops them, FP results accrue their flags and are committed. -/
theorem fpFinish_accrues {s : State} {c sl : Nat} {t : Team} {h : Head} {sp : Nat} {out : Nat → FO} (hn : NoFpTrap t h sp out)
    (fin : Team → Res) : fpFinish (issueOf s c sl t h) sp out fin = fin (accrued s t h sp out) := by
  obtain ⟨harith, hsig⟩ := hn
  have hen : t.trapen = (issueOf s c sl t h).t.trapen := (enterRegion_trapen ..).symm
  have hsm : t.sigmin = (issueOf s c sl t h).t.sigmin := (enterRegion_sigmin ..).symm
  unfold accrued
  rw [hsm] at hsig ⊢
  rw [hen] at hsig
  simp only [hen] at harith
  generalize hlow : ((lanesOf (active t h)).any fun l => sigFails sp (issueOf s c sl t h).t.sigmin (polTag sp (out l).tag)) = low
  have hbad : maskOf (fun l => inMask (issueOf s c sl t h).act l && ((out l).fl &&& ((issueOf s c sl t h).t.trapen.toNat % 32)) != 0) = 0 :=
    maskOf_eq_zero_iff.mpr fun l hl => by rw [harith l hl]; rfl
  have hbelow : maskOf (fun l => inMask (issueOf s c sl t h).act l &&
      sigFails sp (issueOf s c sl t h).t.sigmin (polTag sp (out l).tag)) ≠ 0 ↔ low = true := by
    rw [Ne, maskOf_eq_zero_iff, ← hlow, List.any_eq_true]
    push Not
    simp only [ne_eq, Bool.not_eq_false]
    rfl
  have hstop : (low && (issueOf s c sl t h).t.trapen.getLsbD 5) = false := by
    obtain h5 | hnone := hsig
    · rw [h5, Bool.and_false]
    · rw [← hlow, List.any_eq_false.mpr fun l hl => by rw [hnone l hl]; exact Bool.false_ne_true, Bool.false_and]
  unfold fpFinish
  simp only [hbad, ne_eq, not_true_eq_false, if_false, hbelow, Bool.decide_eq_true, hstop, Bool.false_eq_true]
  rw [← entered_fltstat s t h, ← entered_sigstat s t h]
  rfl

/-- An FP instruction whose results accrue completes with what it puts. -/
theorem fpFinish_yields {s : State} {c sl : Nat} {t : Team} {h : Head} (ci : CanIssue s c sl t h) {legal : Bool}
    {dyn : State → Nat → Team → Bool} {body : Issue → Res} (hl : legal = true) (hd : dyn s c t = true) {d : Opd} {pair : Bool}
    (hr : isReg d = true) {sp : Nat} {out : Nat → FO} {val : Nat → DWord} {tag : Nat → Tag}
    (hb : body (issueOf s c sl t h) = fpFinish (issueOf s c sl t h) sp out fun u =>
      .go (commit (issueOf s c sl t h) d pair (putLanes u d pair (active t h) val tag)))
    (hn : NoFpTrap t h sp out) :
    YieldsFp s c sl t h (issue h legal false dyn body s) d pair val tag (foldLanes (active t h) (fun a l => a ||| (out l).fl) 0)
      ((lanesOf (active t h)).any fun l => sigFails sp t.sigmin (polTag sp (out l).tag)) := by
  obtain ⟨u, hreg, hf, hs, ho, hread⟩ := commit_done (s := s) (c := c) (sl := sl) (t := t) (h := h) (d := d) (pair := pair) (val := val)
    (tag := tag) (accrued s t h sp out).fltstat (accrued s t h sp out).sigstat
  exact ⟨_, u, issue_go ci hl hd (hb.trans (fpFinish_accrues hn _)), hreg, hf, hs, ho.trans (entered_oobcnt ..), hread hr _⟩

/-! ### FCMP and CVT (R144, R146, R147) -/

theorem legalFcmp_reg {f : FW} {x : RG} (h : legalFcmp f x = true) : isReg x.d = true := by
  simp only [legalFcmp, Bool.and_eq_true] at h
  obtain ⟨⟨⟨⟨⟨⟨⟨-, hd⟩, -⟩, -⟩, -⟩, -⟩, -⟩, -⟩ := h
  exact isP_reg hd
theorem legalCvt_reg {dst src : CvtT} {x : RG} (h : legalCvt dst src x = true) : isReg x.d = true := by
  simp only [legalCvt, Bool.and_eq_true] at h
  obtain ⟨⟨⟨⟨⟨⟨⟨⟨⟨-, -⟩, hd⟩, -⟩, -⟩, -⟩, -⟩, -⟩, -⟩, -⟩ := h
  exact dOk_reg hd
theorem ofNat_toNat_bool (b : Bool) : BitVec.ofNat 64 b.toNat = if b then 1 else 0 := by cases b <;> rfl

/-- The checks of FP results do not look at their values. -/
theorem fpFinish_congr {i : Issue} {sp : Nat} {out out' : Nat → FO} {fin : Team → Res} (hfl : ∀ l, (out l).fl = (out' l).fl)
    (htag : ∀ l, (out l).tag = (out' l).tag) : fpFinish i sp out fin = fpFinish i sp out' fin := by
  unfold fpFinish
  simp only [hfl, htag]

/-- Settles O11: FCMP puts its condition without a tag check, CVT the converted value, beside half 0 of what stood there with SUB[1]. -/
theorem conversionResults : Obligations.ConversionResults := by
  intro s c sl t x ci i ws
  refine ⟨fun k f ha => ?_, fun dst src ha => ?_⟩
  · intro v q h hw harith
    have hnone : ((lanesOf (active t x.h)).any fun _ => sigFails 2 t.sigmin (polTag 2 63)) = false :=
      List.any_eq_false.mpr fun _ _ => Bool.false_ne_true
    have hdone : YieldsFp s c sl t x.h (execFcmp k f x s) x.d false (fun l => BitVec.ofNat 64 (q l).1.toNat) (fun _ => 63)
        (foldLanes (active t x.h) (fun a l => a ||| (q l).2) 0)
        ((lanesOf (active t x.h)).any fun _ => sigFails 2 t.sigmin (polTag 2 63)) := by
      unfold execFcmp
      refine fpPut_yields (out := fun l => ⟨(q l).1.toNat, (q l).2, 63⟩) ci hw ha (legalFcmp_reg hw) ?_ harith (.inr fun _ _ => rfl)
      dsimp only
      rw [gate_ready h]
    simp only [hnone, ofNat_toNat_bool] at hdone
    exact hdone
  · intro a old high pol r o h hw hn
    have hd := legalCvt_reg hw
    have hsrcs : Ready i ([a] ++ if high then [rd i ⟨x.d, false, false⟩ (cvtWide dst)] else []) [(x.d, cvtWide dst)] := by
      refine ⟨fun y hy l hl => ?_, h.dst⟩
      obtain hy | hy := List.mem_append.mp hy
      · exact h.src y hy l hl
      · split at hy
        · exact (ready_old hd ⟨fun _ hr => absurd hr List.not_mem_nil, h.dst⟩).src y hy l hl
        · exact absurd hy List.not_mem_nil
    have ho : o = fun l => ⟨if high then (old l).bits.toNat % 2 ^ 16 + 2 ^ 16 * (r l).y else (r l).y, (r l).fl,
        if high then dh1Tag (old l).tag (polTag pol (r l).tag) else polTag pol (r l).tag⟩ := by
      funext l
      simp only [o]
      split
      · rfl
      · rfl
    rw [ho] at hn ⊢
    show YieldsFp s c sl t x.h (execCvt dst src x s) _ _ _ _ _ _
    unfold execCvt
    refine fpFinish_yields ci hw ha hd ?_ hn
    dsimp only
    rw [gate_ready hsrcs]
    dsimp only
    rw [words_issueOf]
    exact fpFinish_congr (fun _ => rfl) fun _ => rfl

/-! ### Significance instructions (R151 to R153) -/

theorem legalTagrd_reg {x : RG} (h : legalTagrd x = true) : isReg x.d = true := by
  simp only [legalTagrd, Bool.and_eq_true] at h
  obtain ⟨⟨⟨⟨⟨⟨⟨-, hd⟩, -⟩, -⟩, -⟩, -⟩, -⟩, -⟩ := h
  exact dOk_reg hd
theorem legalTagwr_reg {x : RG} (h : legalTagwr x = true) : isReg x.d = true := by
  simp only [legalTagwr, Bool.and_eq_true] at h
  obtain ⟨⟨⟨⟨⟨⟨⟨⟨-, hd⟩, -⟩, -⟩, -⟩, -⟩, -⟩, -⟩, -⟩ := h
  exact dOk_reg hd
theorem legalPsig_reg {k : Cond} {x : IM} (h : legalPsig k x = true) : isReg x.d = true := by
  simp only [legalPsig, Bool.and_eq_true] at h
  obtain ⟨⟨⟨⟨-, hd⟩, -⟩, -⟩, -⟩ := h
  exact isP_reg hd

/-- The tag that PSIG compares, by its view: as it stands, or as the effective tag of an FP32 or FP64 value. -/
theorem psigTag_eq (view : BitVec 6) (v : Val) : psigTag view.toNat v = if view = 0 then v.tag.toNat
    else if view = 1 then (eff fp32 (decF fp32 (v.bits.toNat % 2 ^ 32)) v.tag.toNat).toNat
    else (eff fp64 (decF fp64 v.bits.toNat) v.tag.toNat).toNat := by
  by_cases h0 : view = 0
  · rw [h0]
    rfl
  by_cases h1 : view = 1
  · rw [h1]
    rfl
  rw [if_neg h0, if_neg h1]
  unfold psigTag
  split
  · next h => exact absurd (BitVec.eq_of_toNat_eq h) h0
  · next h => exact absurd (BitVec.eq_of_toNat_eq h) h1
  · rfl

/-- Settles O12: TAGRD puts a tag as a value, TAGWR a value under the tag of source B, PSIG the condition of a tag. -/
theorem significanceResults : Obligations.SignificanceResults := by
  intro s c sl t
  refine ⟨fun x ci => ?_, fun k x ci ha => ?_⟩
  · intro i wide a
    refine ⟨fun ha h hw => ?_, fun ha h hw => ?_⟩
    · show Yields s c sl t x.h (execTagrd x s) _ _ _ _
      unfold execTagrd
      refine putRes_yields ci hw ha (legalTagrd_reg hw) ?_
      dsimp only
      rw [gate_ready h]
    · show Yields s c sl t x.h (execTagwr x s) _ _ _ _
      unfold execTagwr
      refine putRes_yields ci hw ha (legalTagwr_reg hw) ?_
      dsimp only
      rw [gate_ready h]
      rfl
  · intro i a g h hw
    show Yields s c sl t x.h (execPsig k x s) _ _ _ _
    unfold execPsig
    refine putRes_yields ci hw ha (legalPsig_reg hw) ?_
    dsimp only
    rw [gate_ready h]
    simp only [psigTag_eq, icmpF_eq_holds]
    rfl

end Sys2Proof.Proofs

/-! PROOFS. Quantising and dequantising (O35). -/

namespace Sys2Proof.Proofs

open Sys2Proof.Machine Sys2Proof.Safety Sys2Proof.Laws

/-! ### Folds over a team -/

section folds
variable {β γ : Type} {view : Team → γ} {f : Team → β → Team}

/-- What no step of a fold changes, the fold does not change. -/
theorem foldl_keeps : ∀ (ls : List β) (t : Team), (∀ b ∈ ls, ∀ t, view (f t b) = view t) → view (ls.foldl f t) = view t
  | [], _, _ => rfl
  | b :: ls, t, h => (foldl_keeps ls (f t b) fun a ha => h a (List.mem_cons_of_mem _ ha)).trans (h b List.mem_cons_self t)
/-- What one step of a fold sets and no other changes, the fold sets. -/
theorem foldl_settles {b : β} {w : γ} (hset : ∀ t, view (f t b) = w) : ∀ (ls : List β) (t : Team), b ∈ ls →
    (∀ a ∈ ls, a ≠ b → ∀ t, view (f t a) = view t) → view (ls.foldl f t) = w
  | [], _, hb, _ => absurd hb List.not_mem_nil
  | a :: ls, t, hb, h => by
    by_cases hin : b ∈ ls
    · exact foldl_settles hset ls (f t a) hin fun k hk => h k (List.mem_cons_of_mem _ hk)
    · obtain rfl : b = a := (List.mem_cons.mp hb).resolve_right hin
      exact (foldl_keeps ls (f t b) fun k hk => h k (List.mem_cons_of_mem _ hk) fun e => hin (e ▸ hk)).trans (hset t)
end folds

/-! ### Groups of lane registers (R148) -/

/-- Different lane registers. -/
structure LaneRegs (ds : List Opd) : Prop where
  lane : ∀ d ∈ ds, isV d = true
  nodup : ds.Nodup

theorem exists_of_isV {d : Opd} (h : isV d = true) : ∃ k, d = .v k := by
  cases d with
  | v k => exact ⟨k, rfl⟩
  | _ => exact nomatch h

/-- Place of lane `l` of a register among all elements. -/
theorem element_eq_iff {j k : BitVec 8} {a l : Nat} (ha : a < 32) (hl : l < 32) :
    32 * k.toNat + l = 32 * j.toNat + a ↔ j = k ∧ a = l := by
  rw [← BitVec.toNat_inj]
  omega
theorem rdOpd_putOpd_lane (s : State) (t : Team) {d e : Opd} {a l : Nat} (y : DWord) (g : Tag) (hd : isV d = true) (he : isV e = true)
    (ha : a < 32) (hl : l < 32) :
    rdOpd s (putOpd t e false a y g) d false l = if e = d ∧ a = l then written d false y g else rdOpd s t d false l := by
  obtain ⟨k, rfl⟩ := exists_of_isV hd
  obtain ⟨j, rfl⟩ := exists_of_isV he
  simp only [putOpd, rdOpd, written, Bool.false_eq_true, if_false, getV_setV, element_eq_iff ha hl, Opd.v.injEq]
  split
  · rfl
  · rfl
theorem rdOpd_markOpd_lane (s : State) (t : Team) {d e : Opd} {a l : Nat} (f : Bool) (hd : isV d = true) (he : isV e = true)
    (ha : a < 32) (hl : l < 32) :
    rdOpd s (markOpd t e false a f) d false l =
      if e = d ∧ a = l then { rdOpd s t d false l with full := f } else rdOpd s t d false l := by
  obtain ⟨k, rfl⟩ := exists_of_isV hd
  obtain ⟨j, rfl⟩ := exists_of_isV he
  simp only [markOpd, rdOpd, Bool.false_eq_true, if_false, getV_setV, element_eq_iff ha hl, Opd.v.injEq]
  split
  · next h => rw [h.1, h.2]
  · rfl

/-- Team `u` differs from `t` in elements of the lane registers `ds` in lanes of `m` alone. -/
structure GroupOnly (ds : List Opd) (m : Mask) (t u : Team) : Prop where
  only : u = { t with v := u.v }
  elems : ∀ n l, l < 32 → ((ds.any fun o => namesV o false n) && inMask m l) = false → getV u n l = getV t n l

section groupOnly
variable {ds : List Opd} {m : Mask}

theorem groupOnly_trans {t u w : Team} (h : GroupOnly ds m t u) (k : GroupOnly ds m u w) : GroupOnly ds m t w := by
  refine ⟨?_, fun n l hl hn => (k.elems n l hl hn).trans (h.elems n l hl hn)⟩
  rw [k.only, h.only]
theorem groupOnly_foldl {β : Type} {f : Team → β → Team} : ∀ (ls : List β) (t : Team), (∀ b ∈ ls, ∀ t, GroupOnly ds m t (f t b)) →
    GroupOnly ds m t (ls.foldl f t)
  | [], _, _ => ⟨rfl, fun _ _ _ _ => rfl⟩
  | b :: ls, t, h => groupOnly_trans (h b List.mem_cons_self t) (groupOnly_foldl ls _ fun a ha => h a (List.mem_cons_of_mem _ ha))
theorem groupOnly_setV (t : Team) {k : BitVec 8} {a : Nat} (e : Elem) (hk : Opd.v k ∈ ds) (ha : a ∈ lanesOf m) :
    GroupOnly ds m t (setV t k.toNat a e) := by
  obtain ⟨ha32, hm⟩ := mem_lanesOf.mp ha
  refine ⟨rfl, fun n l hl hn => getV_setV_other t e ha32 hl ?_⟩
  by_contra hsame
  simp only [not_or, not_not] at hsame
  obtain ⟨rfl, rfl⟩ := hsame
  rw [hm, Bool.and_true, List.any_eq_false] at hn
  exact hn _ hk (by simp [namesV])
theorem groupOnly_putOpd (h : LaneRegs ds) (t : Team) {d : Opd} {a : Nat} (y : DWord) (g : Tag) (hd : d ∈ ds) (ha : a ∈ lanesOf m) :
    GroupOnly ds m t (putOpd t d false a y g) := by
  obtain ⟨k, rfl⟩ := exists_of_isV (h.lane d hd)
  exact groupOnly_setV t _ hd ha
theorem groupOnly_markOpd (h : LaneRegs ds) (t : Team) {d : Opd} {a : Nat} (f : Bool) (hd : d ∈ ds) (ha : a ∈ lanesOf m) :
    GroupOnly ds m t (markOpd t d false a f) := by
  obtain ⟨k, rfl⟩ := exists_of_isV (h.lane d hd)
  exact groupOnly_setV t _ hd ha

/-- Entries of a zip with different keys are told apart by them. -/
theorem fst_ne_of_mem_zip {os : List FO} (h : ds.Nodup) {a b : Opd × FO} (ha : a ∈ ds.zip os) (hb : b ∈ ds.zip os) (hne : a ≠ b) :
    a.1 ≠ b.1 := by
  obtain ⟨i, hi, rfl⟩ := List.mem_iff_getElem.mp ha
  obtain ⟨j, hj, rfl⟩ := List.mem_iff_getElem.mp hb
  intro e
  simp only [List.getElem_zip] at e
  have hij : i = j := h.getElem_inj_iff.mp e
  subst hij
  exact hne rfl

/-- Results of lanes `m` put into the group `ds`. -/
def putGroups (ds : List Opd) (m : Mask) (pol : Nat) (os : Nat → List FO) (t : Team) : Team :=
  foldLanes m (fun t l => cvtqPut t ds pol l (os l)) t
theorem putGroups_only (h : LaneRegs ds) (pol : Nat) (os : Nat → List FO) (t : Team) : GroupOnly ds m t (putGroups ds m pol os t) :=
  groupOnly_foldl (lanesOf m) t fun _ ha t => groupOnly_foldl (ds.zip (os _)) t fun _ he t =>
    groupOnly_putOpd h t _ _ (List.of_mem_zip he).1 ha
theorem rdOpd_putGroups (h : LaneRegs ds) (s : State) (pol : Nat) (os : Nat → List FO) (t : Team) {l : Nat} (hl : l ∈ lanesOf m)
    {e : Opd × FO} (he : e ∈ ds.zip (os l)) :
    rdOpd s (putGroups ds m pol os t) e.1 false l = written e.1 false (BitVec.ofNat 64 e.2.y) (polTag pol e.2.tag) := by
  have hl32 := lt_of_mem_lanesOf hl
  have hlane {a : Opd × FO} {os : List FO} (ha : a ∈ ds.zip os) : isV a.1 = true := h.lane _ (List.of_mem_zip ha).1
  refine foldl_settles (view := fun t => rdOpd s t e.1 false l) (fun t => ?_) (lanesOf m) t hl fun a ha hne t => ?_
  · refine foldl_settles (view := fun t => rdOpd s t e.1 false l) (fun t => ?_) (ds.zip (os l)) t he fun a ha hne t => ?_
    · rw [rdOpd_putOpd_lane s t _ _ (hlane he) (hlane he) hl32 hl32, if_pos ⟨rfl, rfl⟩]
    · rw [rdOpd_putOpd_lane s t _ _ (hlane he) (hlane ha) hl32 hl32, if_neg fun e => fst_ne_of_mem_zip h.nodup ha he hne e.1]
  · refine foldl_keeps (view := fun t => rdOpd s t e.1 false l) (ds.zip (os a)) t fun b hb t => ?_
    rw [rdOpd_putOpd_lane s t _ _ (hlane he) (hlane hb) (lt_of_mem_lanesOf ha) hl32, if_neg fun e => hne e.2]

/-- The group `ds` turned empty in lanes `m`. -/
def markGroups (ds : List Opd) (m : Mask) (t : Team) : Team :=
  (lanesOf m).foldl (fun t l => ds.foldl (fun t o => markOpd t o false l false) t) t
theorem markGroups_only (h : LaneRegs ds) (t : Team) : GroupOnly ds m t (markGroups ds m t) :=
  groupOnly_foldl (lanesOf m) t fun _ ha t => groupOnly_foldl ds t fun _ hd t => groupOnly_markOpd h t false hd ha
theorem rdOpd_markGroups (h : LaneRegs ds) (s : State) (t : Team) {l : Nat} (hl : l ∈ lanesOf m) {d : Opd} (hd : d ∈ ds) :
    rdOpd s (markGroups ds m t) d false l = { rdOpd s t d false l with full := false } := by
  have hl32 := lt_of_mem_lanesOf hl
  have hmark {a : Nat} (ha : a ∈ lanesOf m) {e : Opd} (he : e ∈ ds) (t : Team) :=
    rdOpd_markOpd_lane s t false (h.lane d hd) (h.lane e he) (lt_of_mem_lanesOf ha) hl32
  have hvalue : ({ rdOpd s (markGroups ds m t) d false l with full := false } : Val) = { rdOpd s t d false l with full := false } := by
    refine foldl_keeps (view := fun t => ({ rdOpd s t d false l with full := false } : Val)) (lanesOf m) t fun a ha t => ?_
    refine foldl_keeps (view := fun t => ({ rdOpd s t d false l with full := false } : Val)) ds t fun e he t => ?_
    rw [hmark ha he]
    split
    · rfl
    · rfl
  have hempty : (rdOpd s (markGroups ds m t) d false l).full = false := by
    refine foldl_settles (view := fun t => (rdOpd s t d false l).full) (fun t => ?_) (lanesOf m) t hl fun a ha hne t => ?_
    · refine foldl_settles (view := fun t => (rdOpd s t d false l).full) (fun t => ?_) ds t hd fun e he hne t => ?_
      · rw [hmark hl hd, if_pos ⟨rfl, rfl⟩]
      · rw [hmark hl he, if_neg fun e => hne e.1]
    · refine foldl_keeps (view := fun t => (rdOpd s t d false l).full) ds t fun e he t => ?_
      rw [hmark ha he, if_neg fun e => hne e.2]
  exact (congrArg (fun f => ({ rdOpd s (markGroups ds m t) d false l with full := f } : Val)) hempty).trans hvalue
end groupOnly

/-! ### Destinations and sources of a CVTQ (R148) -/

/-- CVTQ in one direction. -/
def cvtqIns (quant : Bool) (x : RG) : Instr := if quant then .cvtqQuantise x else .cvtqDequantise x
theorem exec_cvtqIns (quant : Bool) (x : RG) (s : State) : exec (cvtqIns quant x) s = cvtqBody (cvtqIns quant x) quant x s := by
  cases quant
  · rfl
  · rfl
theorem legalCvtq_of_wf {quant : Bool} {x : RG} (h : (cvtqIns quant x).wf = true) : legalCvtq quant x = true := by
  cases quant
  · exact h
  · exact h

/-- The registers that a CVTQ writes, and its sources. -/
def cvtqDests (quant : Bool) (x : RG) (g : Nat) : List Opd := if quant then [x.d] else groupOpds x.d g
def cvtqSrcs (i : Issue) (quant : Bool) (x : RG) (g : Nat) : List Rd :=
  if quant then (groupOpds x.a.o g).map fun o => rd i ⟨o, x.a.e, x.a.m⟩ false else [rdA i x false]
/-- What a lane's sources read as: FP32 patterns under AM, or the bits of an element, each with its tag. -/
def cvtqVals (i : Issue) (quant : Bool) (x : RG) (g l : Nat) : List (Nat × Nat) :=
  (cvtqSrcs i quant x g).map fun r =>
    (if quant then fval fp32 x.a.m (r.at_ l) else (r.at_ l).bits.toNat % 2 ^ 32, (r.at_ l).tag.toNat)

/-- An aligned group lies within the 256 lane registers. -/
theorem laneRegs_group {n : BitVec 8} {g : Nat} (hg : g = 4 ∨ g = 8) (ha : n.toNat % g = 0) : LaneRegs (groupOpds (.v n) g) := by
  refine ⟨fun d hd => ?_, ?_⟩
  · obtain ⟨j, -, rfl⟩ := List.mem_map.mp hd
    rfl
  · refine (List.nodup_map_iff_inj_on List.nodup_range).mpr fun a hA b hB e => ?_
    have hn := n.isLt
    have hab := congrArg BitVec.toNat (Opd.v.inj e)
    rw [List.mem_range] at hA hB
    simp only [BitVec.toNat_ofNat] at hab
    obtain rfl | rfl := hg <;> omega
theorem cvtqG_cases (fmt : Nat) : cvtqG fmt = 4 ∨ cvtqG fmt = 8 := by
  unfold cvtqG
  split
  · exact .inr rfl
  · exact .inl rfl
theorem laneRegs_dests {quant : Bool} {x : RG} {s : State} {t : Team} (hw : legalCvtq quant x = true) (hd : cvtqDyn quant x s t = true) :
    LaneRegs (cvtqDests quant x (cvtqG (slotFmt (recSlot (recordOf s t) x.slot.toNat)))) := by
  obtain ⟨n, hn⟩ : ∃ n, x.d = .v n := by
    simp only [legalCvtq, Bool.and_eq_true] at hw
    obtain ⟨⟨⟨⟨⟨⟨-, hv⟩, -⟩, -⟩, -⟩, -⟩, -⟩ := hw
    unfold vOk at hv
    split at hv
    · next n h => exact ⟨n, h⟩
    · exact nomatch hv
  unfold cvtqDests
  rw [hn]
  cases quant with
  | true => exact ⟨fun d hd => by rw [List.mem_singleton.mp hd]; rfl, List.nodup_singleton _⟩
  | false =>
    simp only [cvtqDyn, hn, Bool.false_eq_true, if_false, Bool.and_eq_true, beq_iff_eq] at hd
    obtain ⟨⟨⟨⟨-, -⟩, halign⟩, -⟩, -⟩ := hd
    exact laneRegs_group (cvtqG_cases _) halign

/-! ### Step 8 of a CVTQ -/

/-- Step 8 of a team `y` that stands in `s1` as its region entry left it but for flags, held registers, the undo log and, in active lanes, the
group `ds`. -/
theorem retired_group {s s1 : State} {c sl : Nat} {t t0 y : Team} {h : Head} {ds : List Opd} {held : List (Nat × Nat)} {w n : List Undo}
    (h0 : t0 = { entered s t h with fltstat := t0.fltstat, sigstat := t0.sigstat, oobcnt := t0.oobcnt })
    (hy : GroupOnly ds (active t h) t0 y) (hg : getTeam s1 c sl = some { y with heldRegs := held, undo := w, undoNew := n }) :
    let s' := retired (issueOf s c sl t h) false s1
    ∃ u, getTeam s' c sl = some u ∧ u.v = y.v ∧
      ((∀ n l, l < 32 → ((ds.any fun o => namesV o false n) && inMask (active t h) l) = false → getV u n l = getV t n l) ∧
        (∀ n, getS u n = getS t n) ∧ ∀ n, getP u n = getP t n) ∧
      SameFlags t0 u ∧ SameControl t u ∧ SameRegion (entered s t h) u ∧ Advanced t u ∧ TeamOnly s1 s' c sl := by
  have hteam : ({ y with heldRegs := held, undo := w, undoNew := n } : Team) = { entered s t h with
      v := y.v, fltstat := t0.fltstat, sigstat := t0.sigstat, oobcnt := t0.oobcnt, heldRegs := held, undo := w, undoNew := n } := by
    rw [hy.only, h0]
  rw [hteam] at hg
  obtain ⟨hon, u, hget, hk⟩ := retire_spec hg (issueAddr t) (executing t) (active t h) h false false fun _ => issueAddr t + 1
  obtain ⟨hv, hs, hp⟩ := hk.carried.maps
  obtain ⟨hcnt, hpc⟩ := hk.carried.region
  obtain ⟨k1, k2, k3, k4, k5, k6, k7, k8, k9, k10, k11, k12⟩ := hk.carried.control
  refine ⟨u, hget, hv, ⟨fun n l hl hn => ?_, fun n => ?_, fun n => ?_⟩, hk.carried.flags,
    sameControl_trans (sameControl_entered s t h) ⟨k1, k2, k3, k4, k5, k6, k7, k8, k9, k10, k11, k12⟩, ⟨hcnt, hpc, hk.retcnt⟩,
    fun l hl => ?_, hon⟩
  · have hbase : t0.v = t.v := (congrArg Team.v h0).trans (enterRegion_v ..)
    have helem := hy.elems n l hl hn
    unfold getV at helem ⊢
    rw [hv, helem, hbase]
  · exact congrArg (ngetD _ · n) (hs.trans (enterRegion_s ..))
  · unfold getP
    rw [hp.trans (enterRegion_p ..)]
  · rw [getLpc_map _ u hk.lpc hl, ite_self]
    unfold getLpc
    rw [← enterRegion_lpc t (getCtx s t.ctx).debug (issueAddr t) h.rgn]
    rfl

/-- An element of a lane register depends on the lane registers alone. -/
theorem rdOpd_lane_congr {s s' : State} {t u : Team} (hv : u.v = t.v) {d : Opd} (hd : isV d = true) (l : Nat) :
    rdOpd s' u d false l = rdOpd s t d false l := by
  obtain ⟨k, rfl⟩ := exists_of_isV hd
  simp only [rdOpd, getV, hv, Bool.false_eq_true, if_false]

/-! ### The reads of scales (R150) -/

/-- The request as a store of nothing, which goes to the same homes. -/
def asStore (r : Req) : Req := { r with kind := .store [] }
/-- A read of a scale. -/
def isScale (k : ReqKind) : Bool := match k with | .scale .. => true | _ => false
theorem reroute_scale {r : Req} (h : isScale r.kind = true) (s : State) :
    reroute s r = ({ (route s (asStore r)).1 with kind := r.kind }, (route s (asStore r)).2) := by
  unfold isScale at h
  split at h
  · next hk =>
    simp only [reroute, route, asStore, hk, needsSlice, Bool.false_and, Bool.false_eq_true, if_false]
    split
    · split
      · rfl
      · rfl
    · rfl
  · exact nomatch h
/-- A request keeps what it asks for and whose it is where its kind is put back. -/
theorem routed_asStore {r q : Req} (h : Routed (asStore r) q) : Routed r { q with kind := r.kind } :=
  ⟨congrArg (fun a : Ask => { a with kind := r.kind }) h.ask, fun c sl t m => h.mine c sl t m⟩

/-- Reads of scales none of whose addresses lies in the other world all take their homes. -/
theorem routeAll_scale {c : Nat} (sl : Nat) : ∀ (rs : List Req) (s : State),
    (∀ r ∈ rs, isScale r.kind = true ∧ r.core = c ∧ OwnWorld s r) →
    (routeAll rs s).1 = false ∧ (∃ qs, (routeAll rs s).2.reqs = s.reqs ++ qs ∧ List.Forall₂ Routed rs qs) ∧
    Around s (routeAll rs s).2 c sl ∧ getTeam (routeAll rs s).2 c sl = getTeam s c sl
  | [], s, _ => ⟨rfl, ⟨[], (List.append_nil _).symm, .nil⟩, around_of_teamOnly (teamOnly_refl s c sl), rfl⟩
  | r :: rs, s, h => by
    obtain ⟨hk, rfl, hw⟩ := h r List.mem_cons_self
    obtain ⟨hflag, hrouted, hhomes, hon, hget⟩ := route_own (s := s) (r := asStore { r with id := s.nextId }) rfl hw r.core sl
    have hx := reroute_scale (r := { r with id := s.nextId }) hk s
    generalize route s (asStore { r with id := s.nextId }) = x at hflag hrouted hhomes hon hget hx
    have hposted : SameHomes s (post x.2.2 { x.1 with kind := r.kind }) r.core :=
      sameHomes_trans hhomes (sameHomes_of_sameTables ⟨rfl, rfl, rfl, rfl, rfl, rfl⟩)
    obtain ⟨ihflag, ⟨qs, ihreqs, ihrouted⟩, ihon, ihget⟩ := routeAll_scale sl rs (post x.2.2 { x.1 with kind := r.kind }) fun q hq => by
      obtain ⟨qk, qc, qw⟩ := h q (List.mem_cons_of_mem _ hq)
      exact ⟨qk, qc, fun va hva => by rw [qc, hposted, ← qc]; exact qw va hva⟩
    unfold routeAll
    dsimp only
    rw [hx]
    refine ⟨by rw [hflag, ihflag]; rfl, ⟨{ x.1 with kind := r.kind, id := x.2.2.nextId } :: qs, ?_, .cons ?_ ihrouted⟩,
      around_trans (around_trans (around_of_teamOnly hon) (around_post ..)) ihon, ihget.trans ((getTeam_post ..).trans hget)⟩
    · rw [ihreqs, reqs_post, hon.reqs, List.append_assoc]
      rfl
    · have hback := routed_asStore hrouted
      exact ⟨hback.ask, hback.mine⟩

/-- Such reads go out, and the team is put back, where no walk waits. -/
theorem sendAll_scale {s : State} {c sl : Nat} {t : Team} {h : Head} (p : Plan) (u : Team) {rs : List Req}
    (hrs : ∀ r ∈ rs, isScale r.kind = true ∧ Sendable s c t (asStore r)) :
    ∃ s1 qs, sendAll (issueOf s c sl t h) p u rs = .go s1 ∧ s1.reqs = s.reqs ++ qs ∧ List.Forall₂ Routed rs qs ∧ Around s s1 c sl ∧
      getTeam s1 c sl = some u := by
  let i := issueOf s c sl t h
  have hsame : SameTables s i.s c := sameTables_issueOf s c sl t h
  have hput : SameTables s (setTeam i.s c sl u) c := sameTables_trans hsame (sameTables_setTeam i.s c sl u c)
  have hheld : walkHeld i.s i.core i.t.tid i.t.ctx (rs.flatMap fun r => r.va :: r.shadowVa.toList) = false := by
    rw [show i.t.tid = t.tid from enterRegion_tid .., show i.t.ctx = t.ctx from enterRegion_ctx ..,
      show walkHeld i.s i.core = walkHeld i.s c from rfl, walkHeld_sameTables hsame _ rfl]
    refine walkHeld_all fun va hva => ?_
    obtain ⟨r, hr, hin⟩ := List.mem_flatMap.mp hva
    exact ((hrs r hr).2.own va hin).2
  obtain ⟨hflag, ⟨qs, hreqs, hrouted⟩, haround, hget⟩ := routeAll_scale (c := c) sl (rs.map fun r => { r with img := p.img, cache := p.pol })
    (setTeam i.s c sl u) fun q hq => by
      obtain ⟨r, hr, rfl⟩ := List.mem_map.mp hq
      obtain ⟨hk, -, hc, hctx, hown⟩ := hrs r hr
      refine ⟨hk, hc, fun va hva => ?_⟩
      show (homeOf _ (asStore r).core (asStore r).ctx (asStore r).write va).1.world = false
      rw [hc, hctx, homeOf_sameTables hput]
      exact (hown va hva).1
  refine ⟨(routeAll (rs.map fun r => { r with img := p.img, cache := p.pol }) (setTeam i.s c sl u)).2, qs, ?_, hreqs,
    (List.forall₂_map_left_iff.mp hrouted).imp fun r q hq => ⟨hq.ask, hq.mine⟩,
    around_trans (around_of_teamOnly (teamOnly_trans (teamOnly_issueOf s c sl t h) (teamOnly_setTeam ..))) haround,
    hget.trans (getTeam_setTeam_same ..)⟩
  show (if walkHeld i.s i.core i.t.tid i.t.ctx (rs.flatMap fun r => r.va :: r.shadowVa.toList) = true then Res.wait
    else if (routeAll (rs.map fun r => { r with img := p.img, cache := p.pol }) (setTeam i.s c sl u)).1 = true then _ else _) = _
  rw [hheld, hflag]
  rfl

/-- The read of lane `l`, at index `idx` of the record `buf`, of a scale, with its shadow byte through a T record. -/
def scaleRead (i : Issue) (buf : BitVec 256) (idx : Int) (l : Nat) (k : ReqKind) : Req :=
  { mkReq i l k with
    va := brAddr buf idx 4, n := 4, read := true, shadowVa := if brT buf then some (brShadow buf idx) else none }
theorem sendable_scaleRead {s : State} {c sl : Nat} {t : Team} {h : Head} {buf : BitVec 256} {idx : Nat → Int} {ls : List Nat}
    (hva : Own s c t false (ls.map fun l => brAddr buf (idx l) 4))
    (hsh : brT buf = true → Own s c t false (ls.map fun l => brShadow buf (idx l))) {l : Nat} (hl : l ∈ ls) (k : ReqKind) :
    Sendable s c t (asStore (scaleRead (issueOf s c sl t h) buf (idx l) l k)) := by
  refine ⟨rfl, rfl, enterRegion_ctx .., fun va hin => ?_⟩
  obtain rfl | hin := List.mem_cons.mp hin
  · exact hva _ (List.mem_map_of_mem hl)
  · by_cases hT : brT buf = true
    · simp only [asStore, scaleRead, hT, if_true, Option.toList, List.mem_singleton] at hin
      exact hin ▸ hsh hT _ (List.mem_map_of_mem hl)
    · simp only [asStore, scaleRead, hT, Option.toList] at hin
      exact absurd hin List.not_mem_nil

/-- An access all of whose lanes are in bounds goes on with them (R35, R127, R366). -/
theorem withPlan_inside {i : Issue} {x : MM} {srcs : List Rd} {dsts : List (Opd × Bool)} {a : Rd} {ls : List Nat} {k : Plan → Res}
    {buf : BitVec 256} {idx : Nat → Int} (h : Ready i srcs dsts) (hlog : logFull i.s i.core = false) (hbuf : bufOf i.t x.brec.toNat = buf)
    (hworld : brWld buf = (getCore i.s i.core).world) (hidx : ∀ l, memIdx (a.at_ l) x.ofs = idx l) (hin : ∀ l ∈ ls, brIn buf (idx l) = true) :
    withPlan i x srcs dsts a ls k =
      k ⟨buf, imageOfOps i buf a (srcs.drop 1).head?, ls.map fun l => (l, idx l), [], cachePol x buf⟩ := by
  have hins : (ls.filter fun l => brIn buf (idx l)) = ls := List.filter_eq_self.mpr hin
  have hout : (ls.filter fun l => !brIn buf (idx l)) = [] := List.filter_eq_nil_iff.mpr fun l hl => by simp [hin l hl]
  have hplan : planOf i x a (srcs.drop 1).head? ls =
      ⟨buf, imageOfOps i buf a (srcs.drop 1).head?, ls.map fun l => (l, idx l), [], cachePol x buf⟩ := by
    simp only [planOf, hbuf, hidx, hins, hout]
  unfold withPlan
  rw [gate_ready h]
  simp only [hlog, Bool.false_eq_true, if_false, hplan, hworld, bne_self_eq_false, List.isEmpty_nil, Bool.not_true, Bool.and_false]

/-- Holding the sources of a CVTQ whose read faults changes the held registers of its team alone (R364). -/
theorem holdSources_only {s : State} {c sl : Nat} {u : Team} (hg : getTeam s c sl = some u) (grp : Nat) (regs : List Nat) :
    ∃ held, getTeam (holdSources s c sl grp regs) c sl = some { u with heldRegs := held } ∧ TeamOnly s (holdSources s c sl grp regs) c sl := by
  unfold holdSources
  split
  · unfold updTeam
    rw [hg]
    exact ⟨_, getTeam_setTeam_same .., teamOnly_setTeam ..⟩
  · exact ⟨u.heldRegs, hg, teamOnly_refl ..⟩

/-! ### The access to the scales (R150) -/

/-- The access through record `scb` that a CVTQ makes to its scales, and the index of each lane: source B under BM. -/
def scaleAccess (x : RG) (scb : Nat) : MM :=
  ⟨x.h, x.d, ⟨x.b.o, x.b.e, false⟩, default, BitVec.ofNat 4 scb, .team, .weak, .b32, x.slot, 0, 0⟩
def scaleIndex (i : Issue) (x : RG) : Rd :=
  let b := rd i x.b false
  ⟨b.e, fun l => ⟨BitVec.ofNat 64 (ival 32 x.b.m (b.at_ l)), 63, (b.at_ l).full⟩⟩
theorem memIdx_scaleIndex (i : Issue) (x : RG) (scb l : Nat) :
    memIdx ((scaleIndex i x).at_ l) (scaleAccess x scb).ofs = sx (ival 32 x.b.m ((rd i x.b false).at_ l)) 32 := by
  have hlt : ival 32 x.b.m ((rd i x.b false).at_ l) < 2 ^ 64 := (ival_lt ..).trans (by decide)
  have hofs : sx (scaleAccess x scb).ofs.toNat 21 = 0 := rfl
  unfold memIdx
  rw [hofs, Int.add_zero]
  exact congrArg (sx · 32) (Nat.mod_eq_of_lt hlt)
theorem bufOf_scaleAccess (s : State) (c sl : Nat) (t : Team) (x : RG) (slot : DWord) :
    bufOf (issueOf s c sl t x.h).t (scaleAccess x (slotScb slot)).brec.toNat = bufOf t (slotScb slot) := by
  have hlt : slotScb slot < 2 ^ 4 := Nat.mod_lt _ (by decide)
  rw [show (issueOf s c sl t x.h).t = entered s t x.h from rfl, bufOf_entered]
  exact congrArg (bufOf t) (Nat.mod_eq_of_lt hlt)
/-- Its plan where lanes `ls` are all in bounds. -/
def scalePlan (i : Issue) (x : RG) (scb : Nat) (buf : BitVec 256) (idx : Nat → Int) (ls : List Nat) : Plan :=
  let a := scaleIndex i x
  let image := imageOfOps i buf a (some { a with at_ := fun l => { (rd i x.b false).at_ l with bits := (a.at_ l).bits } })
  ⟨buf, { image with a := List.replicate 32 0 }, ls.map fun l => (l, idx l), [], cachePol (scaleAccess x scb) buf⟩

/-! ### The two forms (R149, R150) -/

section cvtq
variable {quant : Bool} {x : RG} {s : State} {c sl : Nat} {t : Team}

/-- An unscaled CVTQ whose results accrue puts each lane's into its group. -/
theorem cvtq_unscaled (ci : CanIssue s c sl t x.h) (hw : (cvtqIns quant x).wf = true) (hd : cvtqDyn quant x s t = true) :
    let i := issueOf s c sl t x.h
    let slot := recSlot (recordOf s t) x.slot.toNat
    let g := cvtqG (slotFmt slot)
    let ds := cvtqDests quant x g
    let pol := slotSigpol slot
    let res := fun l => cvtqLane quant (slotFmt slot) (rmode (recordOf s t) x.slot.toNat x.rnd) (slotSat slot) x.a.m
      (cvtqVals i quant x g l) (.fin false 1 0) 24
    slotScale slot = 0 → Ready i (cvtqSrcs i quant x g) (ds.map fun o => (o, false)) →
    NoFpTrap t x.h pol (fun l => cvtqJoin (res l)) →
    ∃ w n, cvtqBody (cvtqIns quant x) quant x s = .next (retired i false (setTeam i.s c sl
      { putGroups ds (active t x.h) pol res (accrued s t x.h pol fun l => cvtqJoin (res l)) with undo := w, undoNew := n })) := by
  intro i slot g ds pol res hscale h hn
  obtain ⟨w, n, hundo⟩ := pushUndo_eq i.s (putGroups ds (active t x.h) pol res (accrued s t x.h pol fun l => cvtqJoin (res l)))
    (ds.flatMap fun o => undoOf i.t o false)
  refine ⟨w, n, ?_⟩
  unfold cvtqBody
  refine issue_go ci hw hd ?_
  dsimp only
  rw [words_issueOf]
  have hplain : (!(slotScale slot != 0)) = true := by rw [hscale]; rfl
  refine (if_pos hplain).trans ?_
  show (match gate i (cvtqSrcs i quant x g) (ds.map fun o => (o, false)) with
    | some r => r
    | none => fpFinish i pol (fun l => cvtqJoin (res l)) fun u =>
        .go (setTeam i.s c sl (pushUndo i.s (putGroups ds (active t x.h) pol res u) (ds.flatMap fun o => undoOf i.t o false)))) = _
  rw [gate_ready h, fpFinish_accrues hn, hundo]

/-- A scaled CVTQ whose reads can be sent marks its destinations and sends them, one for each active lane. -/
theorem cvtq_scaled (ci : CanIssue s c sl t x.h) (hw : (cvtqIns quant x).wf = true) (hd : cvtqDyn quant x s t = true) :
    let i := issueOf s c sl t x.h
    let slot := recSlot (recordOf s t) x.slot.toNat
    let fmt := slotFmt slot
    let g := cvtqG fmt
    let ds := cvtqDests quant x g
    let ls := lanesOf (active t x.h)
    let buf := bufOf t (slotScb slot)
    let idx := fun l => sx (ival 32 x.b.m ((rd i x.b false).at_ l)) 32
    let kind := fun l => ReqKind.scale quant x.d g fmt (slotSat slot) ⟨rmode (recordOf s t) x.slot.toNat x.rnd, slotSigpol slot⟩
      ((cvtqVals i quant x g l).map fun v => BitVec.ofNat 64 (v.1 + if x.a.m then 2 ^ 32 else 0))
      ((cvtqVals i quant x g l).map fun v => BitVec.ofNat 6 v.2)
    slotScale slot ≠ 0 → Ready i (cvtqSrcs i quant x g ++ [rd i x.b false]) (ds.map fun o => (o, false)) →
    logFull s c = false → brWld buf = (getCore s c).world → (∀ l ∈ ls, brIn buf (idx l) = true) →
    Own s c t false (ls.map fun l => brAddr buf (idx l) 4) →
    (brT buf = true → Own s c t false (ls.map fun l => brShadow buf (idx l))) →
    ∃ s1 held w n, cvtqBody (cvtqIns quant x) quant x s = .next (retired i false s1) ∧ Around s s1 c sl ∧
      getTeam s1 c sl = some { markGroups ds (active t x.h) (countOob (entered s t x.h) 0) with heldRegs := held, undo := w, undoNew := n } ∧
      Sent s s1 c sl t (ls.map fun l => askPlain true false l (brAddr buf (idx l) 4) 4 (kind l)) := by
  intro i slot fmt g ds ls buf idx kind hscale h hlog hworld hin hva hsh
  obtain ⟨w, n, hundo⟩ := pushUndo_eq i.s (markGroups ds (active t x.h) (countOob (entered s t x.h) 0))
    (ds.flatMap fun o => undoOf i.t o false)
  obtain ⟨s1, qs, hsend, hreqs, hrouted, haround, hget⟩ := sendAll_scale (sl := sl) (h := x.h) (scalePlan i x (slotScb slot) buf idx ls)
    { markGroups ds (active t x.h) (countOob (entered s t x.h) 0) with undo := w, undoNew := n }
    (rs := ls.map fun l => scaleRead i buf (idx l) l (kind l)) fun r hr => by
      obtain ⟨l, hl, rfl⟩ := List.mem_map.mp hr
      exact ⟨rfl, sendable_scaleRead hva hsh hl _⟩
  obtain ⟨held, hheld, hon⟩ := holdSources_only hget i.grp (cvtqRegs quant x g)
  refine ⟨holdSources s1 c sl i.grp (cvtqRegs quant x g), held, w, n, ?_, around_trans haround (around_of_teamOnly hon), hheld, ?_⟩
  · have hmarks : (ls.map fun l => (l, idx l)).foldl (fun t e => ds.foldl (fun t o => markOpd t o false e.1 false) t)
        (countOob (entered s t x.h) 0) = markGroups ds (active t x.h) (countOob (entered s t x.h) 0) := List.foldl_map
    have hreads : (ls.map fun l => (l, idx l)).map (fun e => scaleRead i buf e.2 e.1 (kind e.1)) =
        ls.map fun l => scaleRead i buf (idx l) l (kind l) := List.map_map
    have hscaled : ¬(!(slotScale slot != 0)) = true := by simp [hscale]
    unfold cvtqBody
    refine issue_go ci hw hd ?_
    dsimp only
    rw [words_issueOf]
    refine (if_neg hscaled).trans ((withPlan_inside h ((logFull_issueOf ..).trans hlog) (bufOf_scaleAccess ..) ?_
      (memIdx_scaleIndex i x (slotScb slot)) hin).trans ?_)
    · exact hworld.trans (core_setTeam (·.world) (fun _ _ => rfl) ..).symm
    show (match sendAll i (scalePlan i x (slotScb slot) buf idx ls)
        (pushUndo i.s ((ls.map fun l => (l, idx l)).foldl (fun t e => ds.foldl (fun t o => markOpd t o false e.1 false) t)
          (countOob (entered s t x.h) 0)) (ds.flatMap fun o => undoOf i.t o false))
        ((ls.map fun l => (l, idx l)).map fun e => scaleRead i buf e.2 e.1 (kind e.1)) with
      | .go s' => Res.go (holdSources s' c sl i.grp (cvtqRegs quant x g))
      | r => r) = _
    rw [hmarks, hreads, hundo, hsend]
  · have hsent := sent_of_routed (s' := holdSources s1 c sl i.grp (cvtqRegs quant x g)) (hon.reqs.trans hreqs) hrouted fun r hr => by
      obtain ⟨l, -, rfl⟩ := List.mem_map.mp hr
      exact mine_mkReq s c sl t x.h l (kind l)
    rwa [List.map_map] at hsent
end cvtq

/-- Settles O35: an unscaled CVTQ puts its results into its group and accrues their flags, a scaled one marks its group and sends the reads of
its scales. -/
theorem quantisedConversions : Obligations.QuantisedConversions := by
  intro quant x s c sl t ci ins i slot fmt g mode pol srcs ds bits_ xs res regs hw hd
  have hgroup : LaneRegs ds := laneRegs_dests (legalCvtq_of_wf hw) hd
  have hexec : exec ins s = cvtqBody ins quant x s := exec_cvtqIns quant x s
  rw [hexec]
  refine ⟨fun hscale h hn => ?_, fun hscale h => ?_⟩
  · obtain ⟨w, n, hout⟩ := cvtq_unscaled ci hw hd hscale h hn
    have honly := putGroups_only (m := active t x.h) hgroup pol res (accrued s t x.h pol fun l => cvtqJoin (res l))
    obtain ⟨u, hget, hv, hregs, ⟨hf, hsig, hoob⟩, hctl, hreg, hlpc, hon⟩ := retired_group (h := x.h) rfl honly
      (getTeam_setTeam_same i.s c sl _)
    have hall := teamOnly_trans (teamOnly_trans (teamOnly_issueOf s c sl t x.h) (teamOnly_setTeam ..)) hon
    refine ⟨_, u, hout, hget, hregs, hctl, hreg, hlpc, hall.sameMemory, hall.sameUnits, hall.others, hoob.trans (entered_oobcnt ..), hf, hsig,
      fun l hl e he => ?_⟩
    rw [rdOpd_lane_congr hv (hgroup.lane _ (List.of_mem_zip he).1)]
    exact rdOpd_putGroups hgroup s pol res _ hl he
  · intro buf idx hlog hworld hin hva hsh
    obtain ⟨s1, held, w, n, hout, haround, hget1, qs, hreqs, hasks, hmine⟩ := cvtq_scaled ci hw hd hscale h hlog hworld hin hva hsh
    have honly := markGroups_only (m := active t x.h) hgroup (countOob (entered s t x.h) 0)
    obtain ⟨u, hget, hv, hregs, ⟨hf, hsig, hoob⟩, hctl, -, hlpc, hon⟩ := retired_group (h := x.h) rfl honly hget1
    have hall := around_trans haround (around_of_teamOnly hon)
    refine ⟨_, u, hout, hget, hregs, hctl, hlpc, hall.memory, hall.engines, hall.others, hf.trans (entered_fltstat ..),
      hsig.trans (entered_sigstat ..), hoob.trans (congrArg (satAdd32 · 0) (entered_oobcnt ..)), fun l hl o ho => ?_,
      qs, hon.reqs.trans hreqs, hasks, hmine⟩
    have hlane := hgroup.lane o ho
    have hbase : (countOob (entered s t x.h) 0).v = t.v := enterRegion_v ..
    rw [rdOpd_lane_congr (s := s) hv hlane, rdOpd_markGroups hgroup s _ hl ho, rdOpd_lane_congr (s := s) hbase hlane]

end Sys2Proof.Proofs

/-! PROOFS. Barriers and register growth (O25). -/

namespace Sys2Proof.Proofs

open Sys2Proof.Machine Sys2Proof.Safety Sys2Proof.Laws

/-! ### Barriers of a launch (R182, R183) -/

/-- An update that keeps the number of every launch reaches launch `seq`, where the context holds one. -/
theorem getLaunch_updLaunch {s : State} {x seq : Nat} {f : Launch → Launch} (hf : ∀ q, (f q).seq = q.seq)
    (hq : ∃ q ∈ (getCtx s x).launches, q.seq = seq) : getLaunch (updLaunch s x seq f) x seq = f (getLaunch s x seq) := by
  have hkeeps (l : Launch) : ((if l.seq = seq then f l else l).seq == seq) = (l.seq == seq) := by
    split
    · rw [hf]
    · rfl
  have hlaunches : (getCtx (updLaunch s x seq f) x).launches =
      (getCtx s x).launches.map fun l => if l.seq = seq then f l else l := by
    simp [updLaunch, updCtx, getCtx_setCtx]
  cases hfind : (getCtx s x).launches.find? fun l => l.seq == seq with
  | none =>
    obtain ⟨q, hmem, hseq⟩ := hq
    exact absurd (beq_iff_eq.mpr hseq) (List.find?_eq_none.mp hfind q hmem)
  | some p =>
    have hseq : p.seq = seq := by simpa using List.find?_some hfind
    simp [getLaunch, hlaunches, List.find?_map, hkeeps, hfind, hseq]

/-- The barrier that is read under a level, unit and number bears them. -/
theorem getBar_names (q : Launch) (L unit bid : Nat) :
    (getBar q L unit bid).level = L ∧ (getBar q L unit bid).unit = unit ∧ (getBar q L unit bid).bid = bid := by
  unfold getBar
  cases hfind : q.bars.find? fun b => b.level == L && b.unit == unit && b.bid == bid with
  | none => exact ⟨rfl, rfl, rfl⟩
  | some b => simpa [and_assoc] using List.find?_some hfind
/-- A barrier reads back as it was put. -/
theorem getBar_putBar (q : Launch) (b : Barrier) : getBar (putBar q b) b.level b.unit b.bid = b := by
  have hgone : (q.bars.filter fun x => !(x.level == b.level && x.unit == b.unit && x.bid == b.bid)).find?
      (fun x => x.level == b.level && x.unit == b.unit && x.bid == b.bid) = none :=
    List.find?_eq_none.mpr fun x hx hsame => by
      obtain ⟨-, hother⟩ := List.mem_filter.mp hx
      simp [hsame] at hother
  unfold getBar putBar
  rw [List.find?_append, hgone]
  simp

/-! ### The waiting teams go on (R183) -/

/-- The retirement of a held instruction changes the team that held it alone. -/
theorem teamOnly_retireHold (s : State) (c sl : Nat) : TeamOnly s (retireHold s c sl) c sl := by
  unfold retireHold
  split
  · exact teamOnly_refl ..
  · split
    · exact teamOnly_refl ..
    · dsimp only
      split
      · exact teamOnly_trans (teamOnly_pulse ..) (teamOnly_endTenure ..)
      · exact teamOnly_trans (teamOnly_pulse ..) (teamOnly_setTeam ..)

/-- Progress marked at a context leaves its launches as they were. -/
theorem getLaunch_pulse (s : State) (y x seq : Nat) : getLaunch (pulse s y) x seq = getLaunch s x seq := by
  unfold getLaunch pulse updCtx
  rw [getCtx_setCtx]
  split
  · next e => rw [e]
  · rfl
/-- So does the retirement of a held instruction. -/
theorem getLaunch_retireHold (s : State) (c sl x seq : Nat) : getLaunch (retireHold s c sl) x seq = getLaunch s x seq := by
  unfold retireHold
  split
  · rfl
  · split
    · rfl
    · dsimp only
      split <;> exact getLaunch_pulse ..

/-- A list of teams whose held instructions retire changes no memory and no launch. -/
theorem retireHolds_keep (ws : List (Nat × Nat)) (s : State) :
    SameMemory s (ws.foldl (fun s w => retireHold s w.1 w.2) s) ∧
    ∀ x seq, getLaunch (ws.foldl (fun s w => retireHold s w.1 w.2) s) x seq = getLaunch s x seq := by
  induction ws generalizing s with
  | nil => exact ⟨sameMemory_of_eq rfl rfl rfl rfl, fun _ _ => rfl⟩
  | cons w ws ih =>
    obtain ⟨hmem, hlaunch⟩ := ih (retireHold s w.1 w.2)
    exact ⟨sameMemory_trans (teamOnly_retireHold ..).sameMemory hmem, fun x seq => (hlaunch x seq).trans (getLaunch_retireHold ..)⟩

/-! ### The end of a phase (R182, R183) -/

/-- The launch with a barrier opened for its next phase. -/
def openPhase (b : Barrier) (q : Launch) : Launch := putBar q { b with phase := b.phase + 1, arrived := [] }

section phase
variable {s : State} {ctx seq L unit bid : Nat}

/-- While a participant is missing, nobody has arrived, or the context is suspended, the event changes nothing. -/
theorem barrierPhaseComplete_waits {q : Launch} {b : Barrier} (hq : getLaunch s ctx seq = q) (hb : getBar q L unit bid = b)
    (h : (getCtx s ctx).st = .suspended ∨ b.arrived = [] ∨ (sortAsc (b.arrived ++ endedIn q L unit)).length < teamsIn q.words L) :
    exec (.barrierPhaseComplete ctx seq L unit bid) s = .next s := by
  subst hq hb
  show execBarrierPhaseComplete ctx seq L unit bid s = _
  unfold execBarrierPhaseComplete
  exact if_pos (by simpa [or_assoc] using h)
/-- Otherwise the barrier opens, and the teams that wait in BAR.SYNC go on. -/
theorem barrierPhaseComplete_opens {q : Launch} {b : Barrier} (hq : getLaunch s ctx seq = q) (hb : getBar q L unit bid = b)
    (hst : (getCtx s ctx).st ≠ .suspended) (harr : b.arrived ≠ [])
    (hall : teamsIn q.words L ≤ (sortAsc (b.arrived ++ endedIn q L unit)).length) :
    exec (.barrierPhaseComplete ctx seq L unit bid) s =
      .next ((syncWaiters s ctx seq L unit bid).foldl (fun s w => retireHold s w.1 w.2) (updLaunch s ctx seq (openPhase b))) := by
  subst hq hb
  show execBarrierPhaseComplete ctx seq L unit bid s = _
  unfold execBarrierPhaseComplete
  exact if_neg (by simpa [hst, harr] using hall)

/-- The opened barrier in the launch reads back in its next phase, without arrivals. -/
theorem getBar_openPhase (q : Launch) : getBar (openPhase (getBar q L unit bid) q) L unit bid =
    { getBar q L unit bid with phase := (getBar q L unit bid).phase + 1, arrived := [] } := by
  have hput := getBar_putBar q { getBar q L unit bid with phase := (getBar q L unit bid).phase + 1, arrived := [] }
  obtain ⟨hlevel, hunit, hbid⟩ := getBar_names q L unit bid
  rwa [hlevel, hunit, hbid] at hput
end phase

/-! ### The answer to a growth request (R169, R170) -/

section growth
variable {s : State} {core : Nat}

/-- An answer changes the growth of the team it is for, and nothing else. -/
theorem growthAnswered (s : State) (core sl m : Nat) :
    let s' := updTeam s core sl fun t => { t with growth := some m }
    SameMemory s s' ∧ SameOthers s s' core sl ∧ ∀ t, getTeam s core sl = some t → getTeam s' core sl = some { t with growth := some m } := by
  cases hget : getTeam s core sl with
  | none =>
    simp only [updTeam, hget]
    exact ⟨(teamOnly_refl s core sl).sameMemory, (teamOnly_refl s core sl).others, fun _ h => nomatch h⟩
  | some t =>
    simp only [updTeam, hget]
    have honly := teamOnly_setTeam s core sl { t with growth := some m }
    refine ⟨honly.sameMemory, honly.others, fun u hu => ?_⟩
    obtain rfl := Option.some.inj hu
    exact getTeam_setTeam_same ..

theorem rgrowGrant_some {sl m : Nat} (h : grantable s core = some (sl, m)) :
    exec (.rgrowGrant core) s = .next (updTeam s core sl fun t => { t with growth := some m }) := by
  show execRgrowGrant core s = _
  simp only [execRgrowGrant, h]
theorem rgrowGrant_none (h : grantable s core = none) : exec (.rgrowGrant core) s = .next s := by
  show execRgrowGrant core s = _
  simp only [execRgrowGrant, h]
/-- The three conditions of a denial, and the request denied: the last of the queue, which is the youngest team's (R170). -/
theorem rgrowDeny_last {e sl m : Nat} (hlast : (growthQueue s core).getLast? = some (e, sl, m)) (hnone : grantable s core = none)
    (hwait : ∀ z ∈ (getCore s core).teams, z.2.halted = false → z.2.live ≠ 0 → (growthOf s core z.2).isSome = true)
    (hsome : ∃ z ∈ (getCore s core).teams, z.2.halted = false ∧ z.2.live ≠ 0) :
    exec (.rgrowDeny core) s = .next (updTeam s core sl fun t => { t with growth := some 0 }) := by
  have hacting : ∀ z, z ∈ (getCore s core).teams.filter (fun e => !e.2.halted && e.2.live != 0) ↔
      z ∈ (getCore s core).teams ∧ z.2.halted = false ∧ z.2.live ≠ 0 := fun z => by simp
  have hex : ((getCore s core).teams.filter fun e => !e.2.halted && e.2.live != 0).isEmpty = false := by
    obtain ⟨z, hz⟩ := hsome
    exact List.isEmpty_eq_false_iff_exists_mem.mpr ⟨z, (hacting z).mpr hz⟩
  have hall : (((getCore s core).teams.filter fun e => !e.2.halted && e.2.live != 0).all fun e => (growthOf s core e.2).isSome) = true := by
    refine List.all_eq_true.mpr fun z hz => ?_
    obtain ⟨hmem, hhalt, hlive⟩ := (hacting z).mp hz
    exact hwait z hmem hhalt hlive
  show execRgrowDeny core s = _
  simp only [execRgrowDeny, hex, hall, hnone, hlast, Bool.not_false, Bool.and_self, Option.isNone_none, if_true]
end growth

/-- Settles O25: the phase ends by a `putBar`, which the retirement of the waiting teams leaves alone; a grant and a denial are one update of the
team that asked. -/
theorem barrierAndGrowthEvents : Obligations.BarrierAndGrowthEvents := by
  refine ⟨fun ctx seq L unit bid s hq => ?_, fun core s => ?_⟩
  · intro q b present
    refine ⟨fun ⟨hst, harr, hall⟩ => ⟨_, barrierPhaseComplete_opens rfl rfl hst harr hall, ?_⟩, barrierPhaseComplete_waits rfl rfl⟩
    obtain ⟨hmem, hlaunch⟩ := retireHolds_keep (syncWaiters s ctx seq L unit bid) (updLaunch s ctx seq (openPhase b))
    rw [hlaunch, getLaunch_updLaunch (f := openPhase b) (fun _ => rfl) hq, getBar_openPhase]
    exact ⟨sameMemory_trans (sameMemory_updLaunch ..) hmem, rfl, rfl⟩
  · exact ⟨fun sl m h => ⟨_, rgrowGrant_some h, growthAnswered s core sl m⟩, rgrowGrant_none,
      fun e sl m hlast hnone hwait hsome => ⟨_, rgrowDeny_last hlast hnone hwait hsome, growthAnswered s core sl 0⟩⟩

end Sys2Proof.Proofs

/-! PROOFS. Cross-lane instructions, routing and the generator (O21, O22, O23). -/

namespace Sys2Proof.Proofs

open Sys2Proof.Machine Sys2Proof.Safety Sys2Proof.Laws

/-! ### Moves between lanes (R173, R174) -/

/-- Steps 3 to 7 of a lane move whose source lanes and destination are ready. -/
theorem moveLanes_ready {i : Issue} {d : Opd} {pair : Bool} {a : Rd} (hsrc : ∀ l ∈ lanesOf i.act, (a.at_ l).full = true)
    (hdst : Ready i [] [(d, pair)]) : moveLanes i d pair a = putRes i d pair (fun l => (a.at_ l).bits) fun l => (a.at_ l).tag := by
  have hready : Ready i [a] [(d, pair)] := ⟨fun r hr => List.mem_singleton.mp hr ▸ hsrc, hdst.dst⟩
  unfold moveLanes
  rw [gate_ready hready]

/-- The edge treatments of LSHF (R173). -/
theorem lshfPos_eq (sub : Nat) (q : Int) :
    lshfPos sub q = if sub % 4 = 1 then q % 32 else if sub % 4 = 2 then max 0 (min q 31) else q := by
  unfold lshfPos clamp
  split
  · next h => rw [h]; rfl
  · next h => rw [h]; rfl
  · next h1 h2 => rw [if_neg h1, if_neg h2]

theorem legalLshf_reg {x : RG} (h : legalLshf x = true) : isReg x.d = true := by
  simp only [legalLshf, Bool.and_eq_true] at h
  obtain ⟨⟨⟨⟨⟨⟨⟨⟨-, hd⟩, -⟩, -⟩, -⟩, -⟩, -⟩, -⟩, -⟩ := h
  exact vOk_reg hd
theorem legalLbc_reg {x : RG} (h : legalLbc x = true) : isReg x.d = true := by
  simp only [legalLbc, Bool.and_eq_true] at h
  obtain ⟨⟨⟨⟨⟨⟨⟨⟨-, hd⟩, -⟩, -⟩, -⟩, -⟩, -⟩, -⟩, -⟩ := h
  exact dOk_reg hd

/-! ### Votes and elections (R175, R179) -/

theorem legalLvote_reg {x : RG} (h : legalLvote x = true) : isReg x.d = true := by
  simp only [legalLvote, Bool.and_eq_true] at h
  obtain ⟨-, hd⟩ := h
  split at hd
  · exact dOk_reg hd
  · exact isP_reg hd
theorem legalLelect_reg {x : RG} (h : legalLelect x = true) : isReg x.d = true := by
  simp only [legalLelect, Bool.and_eq_true] at h
  obtain ⟨⟨⟨⟨⟨⟨-, hd⟩, -⟩, -⟩, -⟩, -⟩, -⟩ := h
  exact isP_reg hd

/-- The decision of LVOTE over the active lanes `act`, of which the predicate reads true in `m`, by SUB. -/
def voteOf (sub : Nat) (act m : Mask) : DWord :=
  match sub with
  | 0 => ofB (m == act)
  | 1 => ofB (m != 0)
  | 2 => ofB (m == act || m == 0)
  | _ => m.setWidth 64
/-- The lane that LELECT chooses from ascending lanes. -/
def elected (least : Bool) (ls : List Nat) : Option Nat := if least then ls.head? else ls.getLast?

/-- A Boolean result that decides `p`. -/
theorem ofB_eq_ite {b : Bool} {p : Prop} [Decidable p] (h : b = true ↔ p) : ofB b = if p then 1 else 0 := by
  unfold ofB
  simp only [h]

section votes
variable {m : Mask} {f : Nat → Bool}

/-- The mask of the lanes of `m` in which `f` holds is `m` where it holds in all of them, empty where in none. -/
theorem maskOf_and_eq_self_iff : maskOf (fun l => inMask m l && f l) = m ↔ ∀ l ∈ lanesOf m, (inMask m l && f l) = true := by
  constructor
  · intro h l hl
    obtain ⟨hl32, hm⟩ := mem_lanesOf.mp hl
    have hbit := inMask_maskOf (fun l => inMask m l && f l) hl32
    rw [h] at hbit
    exact hbit.symm.trans hm
  · intro h
    refine BitVec.eq_of_getLsbD_eq fun l hl => ?_
    refine (inMask_maskOf (fun l => inMask m l && f l) hl).trans ?_
    show (inMask m l && f l) = inMask m l
    cases hm : inMask m l with
    | false => rfl
    | true => rw [← hm]; exact (h l (mem_lanesOf.mpr ⟨hl, hm⟩)).trans hm.symm
theorem maskOf_and_eq_zero_iff : maskOf (fun l => inMask m l && f l) = 0 ↔ ∀ l ∈ lanesOf m, (inMask m l && f l) = false := by
  rw [maskOf_eq_zero_iff]
  refine forall₂_congr fun l hl => ?_
  rw [(mem_lanesOf.mp hl).2, Bool.true_and]
theorem maskOf_and_ne_zero_iff : maskOf (fun l => inMask m l && f l) ≠ 0 ↔ ∃ l ∈ lanesOf m, (inMask m l && f l) = true := by
  rw [Ne, maskOf_and_eq_zero_iff]
  push Not
  simp only [ne_eq, Bool.not_eq_false]
/-- Lanes of a mask of lanes. -/
theorem mem_lanesOf_maskOf_and {l : Nat} : l ∈ lanesOf (maskOf fun l => inMask m l && f l) ↔ (inMask m l && f l) = true := by
  rw [mem_lanesOf]
  constructor
  · rintro ⟨hl, h⟩
    rwa [inMask_maskOf _ hl] at h
  · intro h
    have hl : l < 32 := BitVec.lt_of_getLsbD (Bool.and_eq_true_iff.mp h).1
    exact ⟨hl, by rwa [inMask_maskOf _ hl]⟩
end votes

/-- The first element of an ascending list is its least one, the last its greatest. -/
theorem elected_of_ascending {ls : List Nat} (h : ls.Pairwise (· < ·)) (least : Bool) :
    (ls = [] ∧ elected least ls = none) ∨ ∃ k ∈ ls, elected least ls = some k ∧ ∀ l ∈ ls, if least then k ≤ l else l ≤ k := by
  cases ls with
  | nil => exact .inl ⟨rfl, by cases least <;> rfl⟩
  | cons a rest =>
    right
    cases least with
    | true =>
      refine ⟨a, List.mem_cons_self, rfl, fun l hl => ?_⟩
      obtain rfl | hl := List.mem_cons.mp hl
      · exact le_refl _
      · exact (List.rel_of_pairwise_cons h hl).le
    | false =>
      refine ⟨(a :: rest).getLast (List.cons_ne_nil a rest), List.getLast_mem _, List.getLast?_eq_some_getLast (List.cons_ne_nil a rest),
        fun l hl => ?_⟩
      rw [← List.dropLast_append_getLast (List.cons_ne_nil a rest)] at h hl
      obtain hl | hl := List.mem_append.mp hl
      · exact ((List.pairwise_append.mp h).2.2 l hl _ List.mem_cons_self).le
      · exact (List.mem_singleton.mp hl).le

/-! ### Masks of the team (R180) -/

theorem legalLpc_reg {x : RG} (h : legalLpc x = true) : isReg x.d = true := by
  simp only [legalLpc, Bool.and_eq_true] at h
  obtain ⟨⟨⟨⟨⟨⟨-, hd⟩, -⟩, -⟩, -⟩, -⟩, -⟩ := h
  exact dOk_reg hd

/-- The lowest `lpc` of the lanes of a mask, all ones where there is none. -/
def lowestLpc (t : Team) (m : Mask) : Word :=
  (lanesOf m).foldl (fun (m : Word) l => if (getLpc t l).toNat < m.toNat then getLpc t l else m) (BitVec.allOnes 32)
/-- Live lanes that stand above the issue address. -/
def aboveMask (t : Team) : Mask := maskOf fun l => inMask t.live l && decide ((issueAddr t).toNat < (getLpc t l).toNat)
/-- What LPC reads of a team with active lanes `act`, by SUB. -/
def lpcRead (t : Team) (act : Mask) : Nat → Word
  | 0 => t.live
  | 1 => executing t
  | 2 => act
  | 3 => aboveMask t
  | _ => lowestLpc t (aboveMask t)

/-- The least of `f` over a list, not above `m`. -/
theorem foldl_min_spec (f : Nat → Word) (ls : List Nat) (m : Word) :
    let v := ls.foldl (fun (m : Word) l => if (f l).toNat < m.toNat then f l else m) m
    v.toNat ≤ m.toNat ∧ (∀ l ∈ ls, v.toNat ≤ (f l).toNat) ∧ (v = m ∨ ∃ l ∈ ls, v = f l) := by
  induction ls generalizing m with
  | nil => exact ⟨le_refl _, fun _ h => absurd h List.not_mem_nil, .inl rfl⟩
  | cons a ls ih =>
    obtain ⟨hle, hall, hone⟩ := ih (if (f a).toNat < m.toNat then f a else m)
    have hmin : (if (f a).toNat < m.toNat then f a else m).toNat ≤ m.toNat ∧
        (if (f a).toNat < m.toNat then f a else m).toNat ≤ (f a).toNat := by split <;> omega
    refine ⟨hle.trans hmin.1, fun l hl => ?_, ?_⟩
    · obtain rfl | hl := List.mem_cons.mp hl
      · exact hle.trans hmin.2
      · exact hall l hl
    · obtain he | ⟨l, hl, he⟩ := hone
      · by_cases ha : (f a).toNat < m.toNat
        · exact .inr ⟨a, List.mem_cons_self, he.trans (if_pos ha)⟩
        · exact .inl (he.trans (if_neg ha))
      · exact .inr ⟨l, List.mem_cons_of_mem _ hl, he⟩
theorem lowestLpc_spec (t : Team) (m : Mask) :
    (∀ l < 32, inMask m l = true → (lowestLpc t m).toNat ≤ (getLpc t l).toNat) ∧
    ((lowestLpc t m = 0xFFFFFFFF ∧ ∀ l < 32, inMask m l = false) ∨ ∃ l < 32, inMask m l = true ∧ lowestLpc t m = getLpc t l) := by
  obtain ⟨-, hall, hone⟩ := foldl_min_spec (getLpc t) (lanesOf m) (BitVec.allOnes 32)
  refine ⟨fun l hl hm => hall l (mem_lanesOf.mpr ⟨hl, hm⟩), ?_⟩
  by_cases hsome : ∃ l < 32, inMask m l = true
  · obtain ⟨l, hl, hm⟩ := hsome
    obtain hv | ⟨k, hk, he⟩ := hone
    · have hle := hall l (mem_lanesOf.mpr ⟨hl, hm⟩)
      refine .inr ⟨l, hl, hm, BitVec.eq_of_toNat_eq ?_⟩
      have hlt := (getLpc t l).isLt
      rw [hv, BitVec.toNat_allOnes] at hle
      show (lowestLpc t m).toNat = _
      rw [show lowestLpc t m = BitVec.allOnes 32 from hv, BitVec.toNat_allOnes]
      omega
    · exact .inr ⟨k, (mem_lanesOf.mp hk).1, (mem_lanesOf.mp hk).2, he⟩
  · have hnone : ∀ l < 32, inMask m l = false := fun l hl => by
      rw [← Bool.not_eq_true]
      exact fun h => hsome ⟨l, hl, h⟩
    obtain hv | ⟨k, hk, -⟩ := hone
    · exact .inl ⟨hv, hnone⟩
    · obtain ⟨hk32, hkm⟩ := mem_lanesOf.mp hk
      exact absurd ((hnone k hk32).symm.trans hkm) Bool.false_ne_true

section results
variable {x : RG} {s : State} {c sl : Nat} {t : Team} (ci : CanIssue s c sl t x.h)
include ci

/-- LSHF completes with the values of the lanes `q`, with their tags. -/
theorem execLshf_yields {q : Nat → Int} (hw : (Instr.lshf x).wf = true)
    (ha : (opdAlloc t x.d (x.sub.getLsbD 2) && opdAlloc t x.a.o (x.sub.getLsbD 2) && opdAlloc t x.b.o false) = true)
    (hb : x.xl = .none → Ready (issueOf s c sl t x.h) [rd (issueOf s c sl t x.h) x.b false] [])
    (hq : ∀ l, q l = lshfPos x.sub.toNat (if x.xl = .none then sx (ival 32 x.b.m ((rd (issueOf s c sl t x.h) x.b false).at_ l)) 32
      else xlPos x.xl x.lane.toNat l))
    (hsrc : ∀ l ∈ lanesOf (active t x.h), ((rdLane (issueOf s c sl t x.h) x.a (x.sub.getLsbD 2) q).at_ l).full = true)
    (hdst : Ready (issueOf s c sl t x.h) [] [(x.d, x.sub.getLsbD 2)]) :
    Yields s c sl t x.h (exec (.lshf x) s) x.d (x.sub.getLsbD 2)
      (fun l => ((rdLane (issueOf s c sl t x.h) x.a (x.sub.getLsbD 2) q).at_ l).bits)
      fun l => ((rdLane (issueOf s c sl t x.h) x.a (x.sub.getLsbD 2) q).at_ l).tag := by
  obtain rfl : q = _ := funext hq
  show Yields s c sl t x.h (execLshf x s) _ _ _ _
  unfold execLshf
  refine putRes_yields ci hw ha (legalLshf_reg hw) ?_
  rw [← moveLanes_ready hsrc hdst]
  dsimp only
  by_cases hx : x.xl = .none
  · simp only [hx, if_true, gate_ready (hb hx)]
  · simp only [hx, if_false]
/-- LBC completes with the value of its one lane. -/
theorem execLbc_yields {q : Nat → Int} (hw : (Instr.lbc x).wf = true)
    (ha : (opdAlloc t x.d (x.sub.getLsbD 1) && opdAlloc t x.a.o (x.sub.getLsbD 1)) = true)
    (hq : q = fun _ => if x.sub.getLsbD 0 then (lowest (active t x.h) : Int) else x.lane.toNat)
    (hsrc : ∀ l ∈ lanesOf (active t x.h), ((rdLane (issueOf s c sl t x.h) x.a (x.sub.getLsbD 1) q).at_ l).full = true)
    (hdst : Ready (issueOf s c sl t x.h) [] [(x.d, x.sub.getLsbD 1)]) :
    Yields s c sl t x.h (exec (.lbc x) s) x.d (x.sub.getLsbD 1)
      (fun l => ((rdLane (issueOf s c sl t x.h) x.a (x.sub.getLsbD 1) q).at_ l).bits)
      fun l => ((rdLane (issueOf s c sl t x.h) x.a (x.sub.getLsbD 1) q).at_ l).tag := by
  subst hq
  show Yields s c sl t x.h (execLbc x s) _ _ _ _
  unfold execLbc
  exact putRes_yields ci hw ha (legalLbc_reg hw) (moveLanes_ready hsrc hdst)
/-- LVOTE completes with the decision over the active lanes in which its predicate reads true. -/
theorem execLvote_yields (hw : (Instr.lvote x).wf = true) (ha : opdAlloc t x.d false = true)
    (h : Ready (issueOf s c sl t x.h) [rd (issueOf s c sl t x.h) x.a false] [(x.d, false)]) :
    Yields s c sl t x.h (exec (.lvote x) s) x.d false
      (fun _ => voteOf x.sub.toNat (active t x.h) (trueLanes (issueOf s c sl t x.h) x.a (rd (issueOf s c sl t x.h) x.a false))) fun _ => 63 := by
  show Yields s c sl t x.h (execLvote x s) _ _ _ _
  unfold execLvote
  refine putRes_yields ci hw ha (legalLvote_reg hw) ?_
  dsimp only
  rw [gate_ready h]
  rfl
/-- LELECT completes with its bit in the elected lane alone. -/
theorem execLelect_yields (hw : (Instr.lelect x).wf = true)
    (h : Ready (issueOf s c sl t x.h) [rd (issueOf s c sl t x.h) x.a false] [(x.d, false)]) :
    Yields s c sl t x.h (exec (.lelect x) s) x.d false
      (fun l => ofB (elected (x.sub == 0) (lanesOf (trueLanes (issueOf s c sl t x.h) x.a (rd (issueOf s c sl t x.h) x.a false))) == some l))
      fun _ => 63 := by
  show Yields s c sl t x.h (execLelect x s) _ _ _ _
  unfold execLelect
  refine putRes_yields ci hw rfl (legalLelect_reg hw) ?_
  dsimp only
  rw [gate_ready h]
  rfl
/-- LPC completes with a mask of the team, or the lowest address above its own. -/
theorem execLpc_yields (hw : (Instr.lpc x).wf = true) (ha : opdAlloc t x.d false = true)
    (h : Ready (issueOf s c sl t x.h) [] [(x.d, false)]) :
    Yields s c sl t x.h (exec (.lpc x) s) x.d false (fun _ => (lpcRead t (active t x.h) x.sub.toNat).setWidth 64) fun _ => 63 := by
  have hpos (l : Nat) : getLpc (issueOf s c sl t x.h).t l = getLpc t l := congrArg (fun y => nth 0 y l) (enterRegion_lpc ..)
  have hlive : (issueOf s c sl t x.h).t.live = t.live := enterRegion_live ..
  show Yields s c sl t x.h (execLpc x s) _ _ _ _
  unfold execLpc
  refine putRes_yields ci hw ha (legalLpc_reg hw) ?_
  dsimp only
  rw [gate_ready h]
  simp only [hpos, hlive]
  rfl
end results

/-- Settles O21: LSHF and LBC are moves from lanes, LVOTE and LELECT decide over the lanes in which the predicate reads true, LPC reads masks of
the team and the lowest address above its own. -/
theorem crossLaneResults : Obligations.CrossLaneResults := by
  intro x s c sl t ci i act from_ edge dist lane moves yes above
  refine ⟨fun hw ha hb => ?_, fun hw ha => ?_, fun hw ha h => ?_, fun hw h => ?_, fun hw ha h => ?_⟩
  · refine execLshf_yields ci hw ha hb (q := lane) fun l => ?_
    simp only [lshfPos_eq, lane, edge]
    cases x.xl
    all_goals rfl
  · exact execLbc_yields ci hw ha rfl
  · have hall : trueLanes i x.a (rd i x.a false) = act ↔ ∀ l ∈ lanesOf act, yes l = true := maskOf_and_eq_self_iff
    have hnone : trueLanes i x.a (rd i x.a false) = 0 ↔ ∀ l ∈ lanesOf act, yes l = false := maskOf_and_eq_zero_iff
    have hsome : trueLanes i x.a (rd i x.a false) ≠ 0 ↔ ∃ l ∈ lanesOf act, yes l = true := maskOf_and_ne_zero_iff
    refine ⟨_, execLvote_yields ci hw ha h, fun e => ?_, fun e => ?_, fun e => ?_, fun e => ?_⟩
    · rw [e]
      exact ofB_eq_ite (beq_iff_eq.trans hall)
    · rw [e]
      exact ofB_eq_ite (bne_iff_ne.trans hsome)
    · rw [e]
      exact ofB_eq_ite ((Bool.or_eq_true ..).to_iff.trans (or_congr (beq_iff_eq.trans hall) (beq_iff_eq.trans hnone)))
    · rw [e]
      rfl
  · have hmem (l : Nat) : l ∈ lanesOf (trueLanes i x.a (rd i x.a false)) ↔ yes l = true := mem_lanesOf_maskOf_and
    have hyields := execLelect_yields ci hw h
    obtain ⟨hnil, he⟩ | ⟨k, hk, he, hbest⟩ := elected_of_ascending (lanesOf_ascending (trueLanes i x.a (rd i x.a false))) (x.sub == 0)
    · refine .inl ⟨yields_congr hyields (fun l => ?_) fun _ => rfl, fun l => ?_⟩
      · rw [he]
        rfl
      · rw [← Bool.not_eq_true, ← hmem, hnil]
        exact List.not_mem_nil
    · refine .inr ⟨k, (hmem k).mp hk, fun l hl => ?_, yields_congr hyields (fun l => ?_) fun _ => rfl⟩
      · simpa only [beq_iff_eq] using hbest l ((hmem l).mpr hl)
      · rw [he]
        exact ofB_eq_ite (by rw [beq_iff_eq, Option.some_inj, eq_comm])
  · refine ⟨_, execLpc_yields ci hw ha h, fun e => ?_, fun e => ?_, fun e => ?_, fun e => ?_, fun e => ?_⟩
    · rw [e]; rfl
    · rw [e]; rfl
    · rw [e]; rfl
    · rw [e]; rfl
    · obtain ⟨hmin, hone⟩ := lowestLpc_spec t (maskOf above)
      have hbit (l : Nat) (hl : l < 32) : inMask (maskOf above) l = above l := inMask_maskOf above hl
      rw [e]
      refine ⟨fun l hl hab => hmin l hl ((hbit l hl).trans hab), ?_⟩
      obtain ⟨hv, hno⟩ | ⟨l, hl, hab, hv⟩ := hone
      · exact .inl ⟨hv, fun l hl => (hbit l hl).symm.trans (hno l hl)⟩
      · exact .inr ⟨l, hl, (hbit l hl).symm.trans hab, hv⟩

/-! ### Scans and reductions (R176 to R178) -/

theorem legalLane_reg {scan : Bool} {x : RG} (h : legalLane scan x = true) : isReg x.d = true := by
  simp only [legalLane, Bool.and_eq_true] at h
  obtain ⟨⟨⟨⟨⟨⟨⟨⟨⟨-, hd⟩, -⟩, -⟩, -⟩, -⟩, -⟩, -⟩, -⟩, -⟩ := h
  split at hd
  · exact vOk_reg hd
  · exact dOk_reg hd

/-- An instruction whose body ends with the results `r` of LSCAN or LRED: an integer operation completes with them, an FP operation where no
enabled trap stops it. -/
theorem laneFinish_done {x : RG} {s : State} {c sl : Nat} {t : Team} (ci : CanIssue s c sl t x.h) {legal : Bool}
    {dyn : State → Nat → Team → Bool} {body : Issue → Res} (hl : legal = true) (hd : dyn s c t = true) (hr : isReg x.d = true)
    {r : Nat → VT} {fl : Nat} (hb : body (issueOf s c sl t x.h) = laneFinish (issueOf s c sl t x.h) x (lanePair x) r fl) :
    let pol := slotSigpol (recSlot (recordOf s t) x.slot.toNat)
    let out : Nat → FO := fun l => ⟨(r l).1, fl, BitVec.ofNat 6 (r l).2⟩
    (laneOp x < 8 → Yields s c sl t x.h (issue x.h legal false dyn body s) x.d (lanePair x) (fun l => BitVec.ofNat 64 (r l).1)
      fun l => BitVec.ofNat 6 (r l).2) ∧
    (8 ≤ laneOp x → NoFpTrap t x.h pol out → FpDone s c sl t x.h (issue x.h legal false dyn body s) x.d (lanePair x) pol out) := by
  intro pol out
  refine ⟨fun hint => putRes_yields ci hl hd hr ?_, fun hfp hn => fpPut_yields ci hl hd hr ?_ hn.1 hn.2⟩
  · rw [hb]
    exact if_pos hint
  · rw [hb]
    unfold laneFinish
    rw [if_neg (by omega), words_issueOf]

/-- Settles O22: LSCAN ends with the serial scan, LRED with the root of the tree, both over the lanes' values in the model's own order. -/
theorem scanAndReduceResults : Obligations.ScanAndReduceResults := by
  intro x s c sl t ci ha i ws act n op mode pol v serial up tree scanAt fo ends h
  refine ⟨fun hw => ?_, fun hw => ?_⟩
  · show ends (execLscan x s) scanAt serial.2
    unfold execLscan
    refine laneFinish_done ci hw ha (legalLane_reg hw) ?_
    unfold laneBody
    dsimp only
    rw [gate_ready h, words_issueOf]
    rfl
  · show ends (execLred x s) (fun _ => tree.1) tree.2
    unfold execLred
    refine laneFinish_done ci hw ha (legalLane_reg hw) ?_
    unfold laneBody
    dsimp only
    rw [gate_ready h, words_issueOf]
    rfl

/-! ### Lists in lane registers (R188, R189) -/

/-- A list entry as it is written back: score and index full. -/
def fullEntry (e : Elem × Elem) : Elem × Elem := ({ e.1 with full := true }, { e.2 with full := true })
/-- The list of a lane: `k` scores from v(n) on, then their indices. -/
def laneList (t : Team) (n k l : Nat) : List (Elem × Elem) := (List.range k).map fun j => (getV t (n + j) l, getV t (n + k + j) l)

theorem laneList_congr {t u : Team} (hv : u.v = t.v) (n k l : Nat) : laneList u n k l = laneList t n k l := by
  unfold laneList getV
  rw [hv]

/-- An insertion keeps the length of a list (R189). -/
theorem length_topInsert (least : Bool) (es : List (Elem × Elem)) (x ix : VT) : (topInsert least es x ix).length = es.length := by
  unfold topInsert
  dsimp only
  split
  · rfl
  · next h =>
    simp only [Bool.or_eq_true, decide_eq_true_eq, not_or, not_le] at h
    simp only [List.length_take, List.length_append, List.length_drop, List.length_cons, List.length_nil]
    omega

section putList
variable (t : Team) {n k l : Nat} (es : List (Elem × Elem)) (hl : l < 32)
include hl

/-- A list that is written back puts entry `j` into its two registers, and no other element. -/
theorem getV_putList_score {j : Nat} (hj : j < k) : getV (putList t n k l es) (n + j) l = (fullEntry (nth default es j)).1 := by
  refine foldl_settles (view := fun t => getV t (n + j) l) (fun t => ?_) (List.range k) t (List.mem_range.mpr hj) fun a ha hne t => ?_
  · rw [getV_setV_other _ _ hl hl (.inl (by omega)), getV_setV_same]
    rfl
  · rw [List.mem_range] at ha
    rw [getV_setV_other _ _ hl hl (.inl (by omega)), getV_setV_other _ _ hl hl (.inl (by omega))]
theorem getV_putList_index {j : Nat} (hj : j < k) : getV (putList t n k l es) (n + k + j) l = (fullEntry (nth default es j)).2 := by
  refine foldl_settles (view := fun t => getV t (n + k + j) l) (fun t => ?_) (List.range k) t (List.mem_range.mpr hj) fun a ha hne t => ?_
  · rw [getV_setV_same]
    rfl
  · rw [List.mem_range] at ha
    rw [getV_setV_other _ _ hl hl (.inl (by omega)), getV_setV_other _ _ hl hl (.inl (by omega))]
theorem getV_putList_other {m a : Nat} (ha : a < 32) (h : a = l → ¬ (n ≤ m ∧ m < n + 2 * k)) :
    getV (putList t n k l es) m a = getV t m a := by
  refine foldl_keeps (view := fun t => getV t m a) (List.range k) t fun j hj t => ?_
  rw [List.mem_range] at hj
  have hother (r : Nat) (hr : n ≤ r ∧ r < n + 2 * k) : m ≠ r ∨ a ≠ l := by
    by_contra hsame
    simp only [not_or, not_not] at hsame
    exact h hsame.2 (hsame.1 ▸ hr)
  rw [getV_setV_other _ _ hl ha (hother _ ⟨by omega, by omega⟩), getV_setV_other _ _ hl ha (hother _ ⟨by omega, by omega⟩)]
/-- So the list reads back with every entry full. -/
theorem laneList_putList (hes : es.length = k) : laneList (putList t n k l es) n k l = es.map fullEntry := by
  refine List.ext_getElem (by simp [laneList, hes]) fun j hj _ => ?_
  have hjk : j < k := by simpa [laneList] using hj
  have hnth : nth default es j = es[j]'(hes ▸ hjk) := List.getD_eq_getElem _ _ _
  simp only [laneList, List.getElem_map, List.getElem_range, getV_putList_score t es hl hjk, getV_putList_index t es hl hjk, hnth]
end putList

/-- A team with list `es l` written back in each lane of `m`. -/
def putLists (t : Team) (n k : Nat) (m : Mask) (es : Nat → List (Elem × Elem)) : Team := foldLanes m (fun t l => putList t n k l (es l)) t

section putLists
variable (t : Team) (n k : Nat) (m : Mask) (es : Nat → List (Elem × Elem))

/-- Lane registers alone change, and of them those of the lists in lanes of `m`. -/
theorem putLists_only : putLists t n k m es = { t with v := (putLists t n k m es).v } := by
  have hkeeps : ({ putLists t n k m es with v := [] } : Team) = { t with v := [] } := by
    refine foldl_keeps (view := fun t : Team => { t with v := [] }) (lanesOf m) t fun l _ t => ?_
    refine foldl_keeps (view := fun t : Team => { t with v := [] }) (List.range k) t fun _ _ _ => ?_
    rfl
  exact congrArg (fun u : Team => { u with v := (putLists t n k m es).v }) hkeeps
theorem getV_putLists_other {r a : Nat} (ha : a < 32) (h : ¬ (n ≤ r ∧ r < n + 2 * k ∧ inMask m a = true)) :
    getV (putLists t n k m es) r a = getV t r a := by
  refine foldl_keeps (view := fun t => getV t r a) (lanesOf m) t fun l hl t => ?_
  obtain ⟨hl32, hm⟩ := mem_lanesOf.mp hl
  exact getV_putList_other t (es l) hl32 ha fun e hr => h ⟨hr.1, hr.2, e ▸ hm⟩
theorem laneList_putLists {l : Nat} (hl : l ∈ lanesOf m) (hes : (es l).length = k) :
    laneList (putLists t n k m es) n k l = (es l).map fullEntry := by
  have hl32 := lt_of_mem_lanesOf hl
  refine foldl_settles (view := fun t => laneList t n k l) (f := fun t l => putList t n k l (es l))
    (fun t => laneList_putList t (es l) hl32 hes) (lanesOf m) t hl fun a ha hne t => ?_
  have hother (r : Nat) : getV (putList t n k a (es a)) r l = getV t r l :=
    getV_putList_other t (es a) (lt_of_mem_lanesOf ha) hl32 fun e => absurd e.symm hne
  simp only [laneList, hother]
end putLists

/-! ### TOPKI and RNG (R188 to R191) -/

/-- The destination of a legal TOPKI is a lane register. -/
theorem exists_of_legalTopki {x : RG} (h : legalTopki x = true) : ∃ r, x.d = .v r := by
  simp only [legalTopki, Bool.and_eq_true] at h
  obtain ⟨⟨⟨⟨⟨⟨⟨-, hd⟩, -⟩, -⟩, -⟩, -⟩, -⟩, -⟩ := h
  unfold vOk at hd
  split at hd
  · next r hr => exact ⟨r, hr⟩
  · exact nomatch hd

/-- TOPKI completes with the list of each active lane written back with its candidate inserted. -/
theorem execTopki_eq {x : RG} {s : State} {c sl : Nat} {t : Team} {k : Nat} {r : BitVec 8} (ci : CanIssue s c sl t x.h)
    (hw : (Instr.topki x).wf = true) (hk : x.sub.toNat % 8 + 1 = k) (hr : x.d = .v r)
    (ha : (rangeAlloc t x.d (2 * k) && opdAlloc t x.a.o false && opdAlloc t x.b.o false) = true)
    (h : Ready (issueOf s c sl t x.h) [rdA (issueOf s c sl t x.h) x false, rd (issueOf s c sl t x.h) x.b false]
      ((List.range (2 * k)).map fun j => (Opd.v (BitVec.ofNat 8 (r.toNat + j)), false))) :
    ∃ us, exec (.topki x) s = .next (retired (issueOf s c sl t x.h) false (setTeam (issueOf s c sl t x.h).s c sl
      (pushUndo (issueOf s c sl t x.h).s (putLists (entered s t x.h) r.toNat k (active t x.h) fun l =>
        topInsert (x.sub.getLsbD 3) (laneList (entered s t x.h) r.toNat k l) (vt fp32 x.a.m ((rdA (issueOf s c sl t x.h) x false).at_ l))
          (ival 32 x.b.m ((rd (issueOf s c sl t x.h) x.b false).at_ l), 63)) us))) := by
  subst hk
  refine ⟨((List.range (2 * (x.sub.toNat % 8 + 1))).map fun j => (Opd.v (BitVec.ofNat 8 (r.toNat + j)), false)).flatMap
    fun d => undoOf (entered s t x.h) d.1 false, ?_⟩
  show execTopki x s = _
  unfold execTopki
  refine issue_go ci hw ha ?_
  simp only [hr, gate_ready h]
  rfl

theorem legalRng_reg {x : RG} (h : legalRng x = true) : isReg x.d = true := by
  simp only [legalRng, Bool.and_eq_true] at h
  obtain ⟨⟨⟨⟨⟨⟨⟨⟨-, hd⟩, -⟩, -⟩, -⟩, -⟩, -⟩, -⟩, -⟩ := h
  exact dOk_reg hd

/-- Settles O23: TOPKI puts back its team with the lists of its active lanes, RNG puts its output in every active lane. -/
theorem routingResults : Obligations.RoutingResults := by
  intro x s c sl t ci i k n list out
  refine ⟨fun hw ha h => ?_, fun hw ha h => ?_⟩
  · obtain ⟨r, hr⟩ := exists_of_legalTopki hw
    have hn : n = r.toNat := by simp only [n, hr]
    have hlist (u : Team) (l : Nat) : list u l = laneList u n k l := rfl
    rw [hn] at h hlist ⊢
    obtain ⟨us, hout⟩ := execTopki_eq ci hw rfl hr ha h
    have hbase : i.t.v = t.v := enterRegion_v ..
    let es := fun l => topInsert (x.sub.getLsbD 3) (laneList i.t r.toNat k l) (vt fp32 x.a.m ((rdA i x false).at_ l))
      (ival 32 x.b.m ((rd i x.b false).at_ l), 63)
    obtain ⟨w, z, hundo⟩ := pushUndo_eq i.s (putLists i.t r.toNat k (active t x.h) es) us
    have hg := getTeam_setTeam_same i.s c sl (pushUndo i.s (putLists i.t r.toNat k (active t x.h) es) us)
    obtain ⟨u, hget, ⟨hv, hs, hp⟩, hflags, hctl, -, hpos, hon⟩ := retire_entered hg
      (by rw [hundo, putLists_only]; rfl) false false fun _ => issueAddr t + 1
    have hall := teamOnly_trans (teamOnly_trans (teamOnly_issueOf s c sl t x.h) (teamOnly_setTeam ..)) hon
    rw [hundo] at hv hs hp
    rw [putLists_only] at hs hp
    refine ⟨_, u, hout, hget, hflags, hctl, fun l hl => ?_, hall.sameMemory, hall.sameUnits, hall.others, fun l hl => ?_,
      fun m l hl hm => ?_, fun m => ?_, fun m => ?_⟩
    · rw [hpos l hl, ite_self]
    · rw [hlist, hlist, laneList_congr hv, ← laneList_congr hbase]
      exact laneList_putLists _ _ _ _ es hl ((length_topInsert ..).trans (by simp [laneList]))
    · exact (congrArg (ngetD _ · _) hv).trans ((getV_putLists_other i.t _ _ _ es hl hm).trans (congrArg (ngetD _ · _) hbase))
    · exact congrArg (ngetD _ · m) (hs.trans (enterRegion_s ..))
    · unfold getP
      rw [hp.trans (enterRegion_p ..)]
  · show Yields s c sl t x.h (execRng x s) _ _ _ _
    unfold execRng
    refine putRes_yields ci hw ha (legalRng_reg hw) ?_
    dsimp only
    rw [gate_ready h]
    simp only [beq_iff_eq]
    rfl

end Sys2Proof.Proofs

/-! PROOFS. Barrier instructions and register growth (O24): arrival, hold and passage, registers that come and go. -/

namespace Sys2Proof.Proofs

open Sys2Proof.Machine Sys2Proof.Safety Sys2Proof.Laws

/-! ### Arrivals at a barrier (R183) -/

/-- A launch depends on the contexts alone. -/
theorem getLaunch_of_ctxs {s s' : State} (h : s'.ctxs = s.ctxs) (x seq : Nat) : getLaunch s' x seq = getLaunch s x seq := by
  unfold getLaunch getCtx
  rw [h]
/-- Step 8, and the issue of an instruction that retires later, leave every launch as it was. -/
theorem getLaunch_retire (s : State) (c sl : Nat) (pc : Word) (e a : Mask) (h : Head) (closes branch stop : Bool) (g : Nat → Word)
    (x seq : Nat) : getLaunch (retire s c sl pc e a h closes branch stop g) x seq = getLaunch s x seq := by
  unfold retire
  split
  · rfl
  · exact (getLaunch_of_ctxs (boundary_ctxs ..) ..).trans (getLaunch_pulse ..)
theorem getLaunch_holdTeam (s : State) (c sl : Nat) (k : Hold) (x seq : Nat) : getLaunch (holdTeam s c sl k) x seq = getLaunch s x seq := by
  unfold holdTeam
  split
  · rfl
  · exact getLaunch_of_ctxs (boundary_ctxs ..) ..

/-- The team with its arrival in the current phase of the barrier noted. -/
def arrivedTeam (s : State) (t : Team) (h : Head) (L bid : Nat) : Team :=
  { entered s t h with
    arrivals := (entered s t h).arrivals.filter (fun a => !(a.level == L && a.bid == bid)) ++ [⟨L, bid, (teamBar s t L bid).phase⟩] }
/-- The barrier with the arrival of the team noted. -/
def arrivedBar (s : State) (t : Team) (L bid : Nat) : Barrier :=
  { teamBar s t L bid with arrived := insAsc (teamNo (recordOf s t) t.lvl L) (teamBar s t L bid).arrived }

section arrival
variable {s : State} {c sl : Nat} {t : Team} {h : Head} {L bid : Nat}

theorem teamBar_issueOf : teamBar (issueOf s c sl t h).s (issueOf s c sl t h).t L bid = teamBar s t L bid :=
  entered_keeps (fun u => teamBar s u L bid) s t h fun _ _ _ _ _ _ => rfl
theorem pendingArrival_issueOf : pendingArrival (issueOf s c sl t h).s (issueOf s c sl t h).t L bid = pendingArrival s t L bid :=
  entered_keeps (fun u => pendingArrival s u L bid) s t h fun _ _ _ _ _ _ => rfl
/-- A team without an access in flight has performed all its accesses. -/
theorem teamDone_issueOf (hreqs : ∀ q ∈ s.reqs, ¬ (q.core = c ∧ q.tid = t.tid ∧ isAccess q = true)) (f : Req → Bool) :
    teamDone (issueOf s c sl t h).s c (issueOf s c sl t h).t.tid f = true := by
  refine List.all_eq_true.mpr fun q hq => ?_
  have hnot := hreqs q hq
  rw [show (issueOf s c sl t h).t.tid = t.tid from enterRegion_tid ..]
  by_contra hbusy
  simp only [Bool.not_eq_true, Bool.not_eq_false', Bool.and_eq_true, beq_iff_eq] at hbusy
  obtain ⟨⟨⟨hcore, htid⟩, hacc⟩, -⟩ := hbusy
  exact hnot ⟨hcore, htid, hacc⟩

/-- An arrival notes itself at the team and at its barrier. -/
theorem arrive_issueOf : arrive (issueOf s c sl t h) L bid =
    updLaunch (setTeam (issueOf s c sl t h).s c sl (arrivedTeam s t h L bid)) t.ctx t.seq fun q => putBar q (arrivedBar s t L bid) := by
  have hentered : arrive (issueOf s c sl t h) L bid = updLaunch (setTeam (issueOf s c sl t h).s c sl (arrivedTeam s t h L bid))
      (entered s t h).ctx (entered s t h).seq fun q => putBar q { teamBar s t L bid with
        arrived := insAsc (teamNo (recordOf s t) (entered s t h).lvl L) (teamBar s t L bid).arrived } := by
    unfold arrive
    rw [teamBar_issueOf, words_issueOf]
    rfl
  rw [hentered, show (entered s t h).ctx = t.ctx from enterRegion_ctx .., show (entered s t h).seq = t.seq from enterRegion_seq ..,
    show (entered s t h).lvl = t.lvl from enterRegion_lvl ..]
  rfl
theorem getTeam_arrive : getTeam (arrive (issueOf s c sl t h) L bid) c sl = some (arrivedTeam s t h L bid) := by
  rw [arrive_issueOf]
  exact getTeam_setTeam_same ..
/-- No memory, unit or other team takes part. -/
theorem teamOnly_arrive : TeamOnly s (arrive (issueOf s c sl t h) L bid) c sl := by
  rw [arrive_issueOf]
  obtain ⟨h1, h2, h3, h4, h5, h6, h7, h8⟩ := teamOnly_trans (teamOnly_issueOf s c sl t h)
    (teamOnly_setTeam (issueOf s c sl t h).s c sl (arrivedTeam s t h L bid))
  exact ⟨h1, h2, h3, h4, h5, h6, h7, h8⟩

/-- What a team `u` finds at its barrier where the launch is as the arrival left it. -/
theorem arrived_of_launch {s' : State} {u : Team} (hq : ∃ q ∈ (getCtx s t.ctx).launches, q.seq = t.seq)
    (hlaunch : getLaunch s' t.ctx t.seq = getLaunch (arrive (issueOf s c sl t h) L bid) t.ctx t.seq)
    (hcar : Carried (arrivedTeam s t h L bid) u) :
    (teamBar s' u L bid).phase = (teamBar s t L bid).phase ∧
    (teamBar s' u L bid).arrived = insAsc (teamNo (recordOf s t) t.lvl L) (teamBar s t L bid).arrived ∧ pendingArrival s' u L bid = true := by
  obtain ⟨-, hctx, hseq, -, hlvl⟩ := hcar.control.place
  have hctx' : u.ctx = t.ctx := hctx.trans (enterRegion_ctx ..)
  have hseq' : u.seq = t.seq := hseq.trans (enterRegion_seq ..)
  have hlvl' : u.lvl = t.lvl := hlvl.trans (enterRegion_lvl ..)
  have harr : u.arrivals = (arrivedTeam s t h L bid).arrivals := hcar.part (·.arrivals) fun _ => rfl
  have hnew : getLaunch s' t.ctx t.seq = putBar (getLaunch s t.ctx t.seq) (arrivedBar s t L bid) := by
    rw [hlaunch, arrive_issueOf]
    exact getLaunch_updLaunch (s := setTeam (issueOf s c sl t h).s c sl (arrivedTeam s t h L bid)) (fun _ => rfl) hq
  have hbar : teamBar s' u L bid = arrivedBar s t L bid := by
    have hput := getBar_putBar (getLaunch s t.ctx t.seq) (arrivedBar s t L bid)
    obtain ⟨hlevel, hunit, hbid⟩ : (arrivedBar s t L bid).level = L ∧
        (arrivedBar s t L bid).unit = unitNo (getLaunch s t.ctx t.seq).words t.lvl L ∧ (arrivedBar s t L bid).bid = bid :=
      getBar_names (getLaunch s t.ctx t.seq) L (unitNo (getLaunch s t.ctx t.seq).words t.lvl L) bid
    rw [hlevel, hunit, hbid] at hput
    unfold teamBar
    simp only [hctx', hseq', hlvl', hnew]
    exact hput
  refine ⟨by rw [hbar]; rfl, by rw [hbar]; rfl, ?_⟩
  unfold pendingArrival
  rw [hbar, harr]
  simp [arrivedTeam, arrivedBar]

/-- So it may arrive, if it has not in this phase. -/
theorem arrivalReady_issueOf (hnew : pendingArrival s t L bid = false)
    (hreqs : ∀ q ∈ s.reqs, ¬ (q.core = c ∧ q.tid = t.tid ∧ isAccess q = true)) : arrivalReady (issueOf s c sl t h) L bid = true := by
  unfold arrivalReady
  rw [pendingArrival_issueOf, hnew, show (issueOf s c sl t h).core = c from rfl, teamDone_issueOf hreqs]
  rfl
end arrival

section barriers
variable {x : IM} {s : State} {c sl : Nat} {t : Team} (ci : CanIssue s c sl t x.h)
  (hlevel : barLevelOk (recordOf s t) (x.imm.toNat % 8) = true)
  (hnew : pendingArrival s t (x.imm.toNat % 8) (x.imm.toNat / 8 % 32) = false)
  (hreqs : ∀ q ∈ s.reqs, ¬ (q.core = c ∧ q.tid = t.tid ∧ isAccess q = true))
include ci hlevel hnew hreqs

/-- BAR.ARV goes on behind its arrival, BAR.SYNC is held at it, BAR.WAIT passes. -/
theorem execBarArv_eq (hw : (Instr.barArv x).wf = true) : exec (.barArv x) s =
    .next (retired (issueOf s c sl t x.h) false (arrive (issueOf s c sl t x.h) (x.imm.toNat % 8) (x.imm.toNat / 8 % 32))) := by
  show execBarArv x s = _
  unfold execBarArv barOf
  exact issue_go ci hw hlevel (if_pos (arrivalReady_issueOf hnew hreqs))
theorem execBarSync_eq (hw : (Instr.barSync x).wf = true) : exec (.barSync x) s =
    .next (holdTeam (arrive (issueOf s c sl t x.h) (x.imm.toNat % 8) (x.imm.toNat / 8 % 32)) c sl
      ⟨.barrier (x.imm.toNat % 8) (x.imm.toNat / 8 % 32), s.nextId, issueAddr t, executing t, active t x.h, x.h, false, []⟩) := by
  show execBarSync x s = _
  unfold execBarSync barOf
  exact issue_hold ci hw hlevel (if_pos (arrivalReady_issueOf hnew hreqs))
theorem execBarWait_eq (hw : (Instr.barWait x).wf = true) :
    exec (.barWait x) s = .next (retired (issueOf s c sl t x.h) false (issueOf s c sl t x.h).s) := by
  show execBarWait x s = _
  unfold execBarWait barOf
  refine issue_go ci hw hlevel (if_pos ?_)
  rw [pendingArrival_issueOf, hnew, show (issueOf s c sl t x.h).core = c from rfl, teamDone_issueOf hreqs]
  rfl
end barriers

/-! ### Registers that come and go (R186, R187) -/

theorem nget_filter_key {α : Type} (p : Nat → Bool) (m : NMap α) (k : Nat) :
    nget (m.filter fun e => p e.1) k = if p k then nget m k else none := by
  induction m with
  | nil => simp [nget]
  | cons e rest ih =>
    rw [List.filter_cons]
    by_cases hek : e.1 = k
    · by_cases hp : p k = true
      · simp [nget, hek, hp]
      · simp [hek, hp, ih]
    · split
      · simp [nget, hek, ih]
      · simp [nget, hek, ih]
/-- Cleared registers read as registers that nothing has written; the others keep their elements. -/
theorem getV_clearRegs (t : Team) (lo hi n : Nat) {l : Nat} (hl : l < 32) :
    getV (clearRegs t lo hi) n l = if lo ≤ n ∧ n < hi then ⟨0, true, 63⟩ else getV t n l := by
  have hkey : (!(decide (32 * lo ≤ 32 * n + l) && decide (32 * n + l < 32 * hi))) = !decide (lo ≤ n ∧ n < hi) := by
    rw [← Bool.decide_and]
    refine congrArg _ (decide_eq_decide.mpr ?_)
    omega
  unfold getV ngetD clearRegs
  rw [nget_filter_key fun k => !(decide (32 * lo ≤ k) && decide (k < 32 * hi)), hkey]
  by_cases h : lo ≤ n ∧ n < hi
  · simp [h]
  · simp [h]

/-- A predicate that a destination does not name keeps all its bits. -/
theorem getP_of_sameRegs {t u : Team} {d : Opd} {pair : Bool} {m : Mask} (h : SameRegs t u d pair m) {n : Nat} (hn : namesP d n = false) :
    getP u n = getP t n := by
  have hbits (l : Nat) (hl : l < 32) := h.p n l hl (by rw [hn, Bool.false_and])
  have hval : (getP u n).val = (getP t n).val := BitVec.eq_of_getLsbD_eq fun l hl => (hbits l hl).1
  have hfull : (getP u n).full = (getP t n).full := BitVec.eq_of_getLsbD_eq fun l hl => (hbits l hl).2
  calc getP u n = ⟨(getP u n).val, (getP u n).full⟩ := rfl
    _ = getP t n := by rw [hval, hfull]

/-! ### An answered growth request is used up (R186) -/

theorem stepDone_growth (t : Team) : (stepDone t).growth = t.growth := by
  unfold stepDone
  repeat' split
  all_goals rfl
theorem advance_growth (t : Team) (b : Bool) (pc : Word) (e a : Mask) (z : Bool) (g : Nat → Word) :
    (advance t b pc e a z g).growth = none := by
  unfold advance
  rw [stepDone_growth]
  split
  · rfl
  · rfl
theorem haltIfAsked_growth (t : Team) : (haltIfAsked t).growth = t.growth := by
  unfold haltIfAsked
  split
  · rfl
  · rfl
theorem retire_growth {s : State} {c sl : Nat} {t u : Team} (ht : getTeam s c sl = some t) {pc : Word} {e a : Mask}
    {h : Head} {closes branch stop : Bool} {g : Nat → Word}
    (hu : getTeam (retire s c sl pc e a h closes branch stop g) c sl = some u) : u.growth = none := by
  unfold retire at hu
  rw [ht] at hu
  dsimp only at hu
  have hadv := advance_growth (issued t s.clock h) (getCtx s t.ctx).debug pc e a closes g
  obtain ⟨-, w, hw, h | h | h⟩ := boundary_spec (pulse s t.ctx) c sl (advance (issued t s.clock h) (getCtx s t.ctx).debug pc e a closes g)
    (endsRun pc e a h branch stop g)
  all_goals obtain rfl := Option.some.inj (hu.symm.trans hw); subst h
  · exact hadv
  · exact (haltIfAsked_growth _).trans hadv
  · exact hadv
/-- A team that waits keeps the answer that it has, or has not. -/
theorem waitTeam_growth {s : State} {c sl : Nat} {t u : Team} (hu : getTeam (waitTeam s c sl t) c sl = some u) : u.growth = t.growth := by
  have hget : getTeam (waitTeam s c sl t) c sl = some (haltIfAsked (pauseTeam { t with blocked := true })) := by
    unfold waitTeam
    rw [getTeam_tally]
    show getTeam (setISlot _ _ _ _) c sl = _
    rw [getTeam_setISlot, getTeam_setTeam_same]
  obtain rfl := Option.some.inj (hu.symm.trans hget)
  exact haltIfAsked_growth _

/-! ### RGROW and RSHR (R186, R187) -/

/-- A body that is not ready leaves its team waiting. -/
theorem issue_wait {s : State} {c sl : Nat} {t : Team} {h : Head} (ci : CanIssue s c sl t h) {legal closes : Bool}
    {dyn : State → Nat → Team → Bool} {body : Issue → Res} (hl : legal = true) (hd : dyn s c t = true)
    (hb : body (issueOf s c sl t h) = .wait) : issue h legal closes dyn body s = .next (waitTeam s c sl t) := by
  rw [issue_eq ci body hl hd, hb]

theorem legalRgrow_pred {x : IM} (h : legalRgrow x = true) : isP x.d = true := by
  simp only [legalRgrow, Bool.and_eq_true] at h
  obtain ⟨⟨⟨⟨-, hd⟩, -⟩, -⟩, -⟩ := h
  exact hd

theorem issueOf_alloc (s : State) (c sl : Nat) (t : Team) (h : Head) : (issueOf s c sl t h).t.alloc = t.alloc := enterRegion_alloc ..
theorem issueOf_growth (s : State) (c sl : Nat) (t : Team) (h : Head) : (issueOf s c sl t h).t.growth = t.growth :=
  entered_keeps (·.growth) s t h fun _ _ _ _ _ _ => rfl
/-- The entered team with `m` more registers. -/
def grownTeam (s : State) (t : Team) (h : Head) (m : Nat) : Team :=
  { clearRegs (entered s t h) t.alloc (t.alloc + m) with alloc := t.alloc + m }
/-- The entered team with `m` registers less. -/
def shrunkTeam (s : State) (t : Team) (h : Head) (m : Nat) : Team :=
  { clearRegs (entered s t h) (t.alloc - m) t.alloc with alloc := t.alloc - m }
theorem getV_entered (s : State) (t : Team) (h : Head) (n l : Nat) : getV (entered s t h) n l = getV t n l :=
  congrArg (ngetD _ · _) (enterRegion_v ..)

section rgrow
variable {x : IM} {s : State} {c sl : Nat} {t : Team} (ci : CanIssue s c sl t x.h) (hw : (Instr.rgrow x).wf = true)
  (h : Ready (issueOf s c sl t x.h) [] [(x.d, false)])
include ci hw h

/-- RGROW past 256 registers delivers 0, and so does one that has been denied; without an answer it waits. -/
theorem execRgrow_tooMany (hbig : 256 < t.alloc + x.imm.toNat) :
    Yields s c sl t x.h (exec (.rgrow x) s) x.d false (fun _ => 0) fun _ => 63 := by
  show Yields s c sl t x.h (execRgrow x s) _ _ _ _
  unfold execRgrow
  refine putRes_yields ci hw rfl (isP_reg (legalRgrow_pred hw)) ?_
  simp only [gate_ready h, issueOf_alloc, if_pos hbig]

variable (hfits : t.alloc + x.imm.toNat ≤ 256)
include hfits

theorem execRgrow_denied (hg : t.growth = some 0) :
    Yields s c sl t x.h (exec (.rgrow x) s) x.d false (fun _ => 0) fun _ => 63 := by
  show Yields s c sl t x.h (execRgrow x s) _ _ _ _
  unfold execRgrow
  refine putRes_yields ci hw rfl (isP_reg (legalRgrow_pred hw)) ?_
  simp only [gate_ready h, issueOf_alloc, if_neg (not_lt.mpr hfits), issueOf_growth, hg]
theorem execRgrow_waits (hg : t.growth = none) : exec (.rgrow x) s = .next (waitTeam s c sl t) := by
  show execRgrow x s = _
  unfold execRgrow
  refine issue_wait ci hw rfl ?_
  simp only [gate_ready h, issueOf_alloc, if_neg (not_lt.mpr hfits), issueOf_growth, hg]
/-- Once granted, it delivers 1 to the team with its new registers. -/
theorem execRgrow_granted {k : Nat} (hg : t.growth = some (k + 1)) : ∃ us, exec (.rgrow x) s = .next (retired (issueOf s c sl t x.h) false
    (setTeam (issueOf s c sl t x.h).s c sl (pushUndo (issueOf s c sl t x.h).s
      (putLanes (grownTeam s t x.h x.imm.toNat) x.d false (active t x.h) (fun _ => 1) fun _ => 63) us))) := by
  refine ⟨undoOf (grownTeam s t x.h x.imm.toNat) x.d false, ?_⟩
  show execRgrow x s = _
  unfold execRgrow
  refine issue_go ci hw rfl ?_
  simp only [gate_ready h, issueOf_alloc, if_neg (not_lt.mpr hfits), issueOf_growth, hg]
  rfl
end rgrow

/-- What step 8 leaves of a team whose growth has been granted. -/
theorem granted_done {s : State} {c sl : Nat} {t : Team} {h : Head} {m : Nat} {d : Opd} (us : List Undo) (hd : isP d = true) :
    let s' := retired (issueOf s c sl t h) false (setTeam (issueOf s c sl t h).s c sl (pushUndo (issueOf s c sl t h).s
      (putLanes (grownTeam s t h m) d false (active t h) (fun _ => 1) fun _ => 63) us))
    ∃ u, getTeam s' c sl = some u ∧ (u.alloc = t.alloc + m ∧ u.growth = none ∧ Advanced t u ∧ SameFlags t u) ∧
      ((∀ n l, l < 32 → getV u n l = if t.alloc ≤ n ∧ n < t.alloc + m then ⟨0, true, 63⟩ else getV t n l) ∧
        (∀ n, getS u n = getS t n) ∧ ∀ n, namesP d n = false → getP u n = getP t n) ∧
      (∀ z : State, ∀ l ∈ lanesOf (active t h), rdOpd z u d false l = written d false 1 63) ∧ TeamOnly s s' c sl := by
  have hframe := putLanes_frame (grownTeam s t h m) d false (active t h) (fun _ => 1) fun _ => 63
  have hread (z : State) (l : Nat) (hl : l ∈ lanesOf (active t h)) :=
    rdOpd_putLanes z (grownTeam s t h m) d false (active t h) (fun _ => 1) (fun _ => 63) l hl (isP_reg hd)
  obtain ⟨v, ss, p, hput⟩ := putLanes_only (grownTeam s t h m) d false (active t h) (fun _ => 1) fun _ => 63
  rw [hput] at hframe hread ⊢
  obtain ⟨w, z, hundo⟩ := pushUndo_eq (issueOf s c sl t h).s { grownTeam s t h m with v := v, s := ss, p := p } us
  rw [hundo]
  have hg := getTeam_setTeam_same (issueOf s c sl t h).s c sl { grownTeam s t h m with v := v, s := ss, p := p, undo := w, undoNew := z }
  obtain ⟨u, hget, hcar, hadv, -, hall⟩ := retired_setTeam s c sl (t := t) h
    (u0 := { grownTeam s t h m with v := v, s := ss, p := p, undo := w, undoNew := z }) (enterRegion_lpc ..)
  obtain ⟨hv, hs, hp⟩ := hcar.maps
  have hregs : SameRegs (grownTeam s t h m) u d false (active t h) := sameRegs_trans hframe (sameRegs_of_eq _ _ _ hv hs hp)
  have hnames (n : Nat) : namesV d false n = false ∧ namesS d n = false := by
    cases d with
    | p q => exact ⟨rfl, rfl⟩
    | _ => exact nomatch hd
  refine ⟨u, hget, ⟨hcar.control.alloc, retire_growth hg hget, hadv, sameFlags_entered (h := h) hcar rfl rfl rfl⟩,
    ⟨fun n l hl => ?_, fun n => ?_, fun n hn => ?_⟩, fun z l hl => ?_, hall⟩
  · rw [hregs.v n l hl (by rw [(hnames n).1, Bool.false_and]), ← getV_entered s t h]
    exact getV_clearRegs (entered s t h) t.alloc (t.alloc + m) n hl
  · exact (hregs.s n (hnames n).2).trans (congrArg (ngetD _ · n) (enterRegion_s ..))
  · refine (getP_of_sameRegs hregs hn).trans ?_
    unfold getP
    rw [show (grownTeam s t h m).p = t.p from enterRegion_p ..]
  · rw [← hread z l hl]
    exact rdOpd_maps hv hs hp d false l (isP_reg hd)

/-- RSHR completes with its registers given back, where no producer into them is in flight. -/
theorem execRshr_eq {x : IM} {s : State} {c sl : Nat} {t : Team} (ci : CanIssue s c sl t x.h) (hw : (Instr.rshr x).wf = true)
    (hm : x.imm.toNat + 32 ≤ t.alloc) (hreqs : ∀ q ∈ s.reqs, q.tid ≠ t.tid) (hheld : t.heldRegs = []) :
    ∃ us, exec (.rshr x) s = .next (retired (issueOf s c sl t x.h) false (setTeam (issueOf s c sl t x.h).s c sl
      (pushUndo (issueOf s c sl t x.h).s (shrunkTeam s t x.h x.imm.toNat) us))) := by
  have htid : (issueOf s c sl t x.h).t.tid = t.tid := enterRegion_tid ..
  have hheld' : (issueOf s c sl t x.h).t.heldRegs = [] := (enterRegion_heldRegs ..).trans hheld
  have hidle (f : Req → Bool) : ((issueOf s c sl t x.h).s.reqs.any fun q => q.core == (issueOf s c sl t x.h).core && q.tid == t.tid && f q) =
      false := by
    refine List.any_eq_false.mpr fun q hq => ?_
    rw [beq_eq_false_iff_ne.mpr (hreqs q hq), Bool.and_false, Bool.false_and]
    exact Bool.false_ne_true
  refine ⟨(List.range x.imm.toNat).map fun k => .vreg (t.alloc - x.imm.toNat + k)
    (lanes.map fun l => getV (entered s t x.h) (t.alloc - x.imm.toNat + k) l), ?_⟩
  show execRshr x s = _
  unfold execRshr
  refine issue_go ci hw (decide_eq_true hm) ?_
  simp only [issueOf_alloc, htid, hheld', hidle, List.any_nil, Bool.or_self, Bool.false_eq_true, if_false]
  rfl

/-- Settles O24: an arrival is an update of the team and of its barrier that step 8, or the hold, leaves alone; a grant and RSHR put back the team
with other registers. -/
theorem barrierAndGrowthResults : Obligations.BarrierAndGrowthResults := by
  refine ⟨fun x s c sl t ci => ?_, fun x s c sl t ci => ?_⟩
  · intro L bid hlevel hnew hreqs b me arrived
    refine ⟨fun hw => ?_, fun hw => ?_, fun hw => onlyAdvances_go (execBarWait_eq ci hlevel hnew hreqs hw)⟩
    · obtain ⟨hon, u, hget, hk⟩ := retire_spec (getTeam_arrive (s := s) (c := c) (sl := sl) (t := t) (h := x.h) (L := L) (bid := bid))
        (issueAddr t) (executing t) (active t x.h) x.h false false fun _ => issueAddr t + 1
      have hall := teamOnly_trans teamOnly_arrive hon
      refine ⟨_, u, execBarArv_eq ci hlevel hnew hreqs hw, hget, fun hq => arrived_of_launch hq (getLaunch_retire ..) hk.carried,
        fun l hl => ?_, sameAllRegs_entered hk.carried rfl rfl rfl, hall.sameMemory, hall.others⟩
      rw [getLpc_map _ u hk.lpc hl, ite_self,
        show getLpc (arrivedTeam s t x.h L bid) l = getLpc t l from congrArg (fun y => nth 0 y l) (enterRegion_lpc ..)]
    · obtain ⟨hon, u, hget, hcar, hhold, hlpc⟩ := holdTeam_spec (getTeam_arrive (s := s) (c := c) (sl := sl) (t := t) (h := x.h) (L := L)
        (bid := bid)) ⟨.barrier L bid, s.nextId, issueAddr t, executing t, active t x.h, x.h, false, []⟩
      have hall := teamOnly_trans teamOnly_arrive hon
      exact ⟨_, u, execBarSync_eq ci hlevel hnew hreqs hw, hget, fun hq => arrived_of_launch hq (getLaunch_holdTeam ..) hcar,
        ⟨_, hhold, rfl, rfl, rfl, rfl⟩, hlpc.trans (enterRegion_lpc ..), sameAllRegs_entered hcar rfl rfl rfl, hall.sameMemory, hall.others⟩
  · intro m
    refine ⟨fun hw h => ⟨execRgrow_tooMany ci hw h, fun hfits hg => ?_, execRgrow_denied ci hw h, fun k hfits hg => ?_⟩,
      fun hw hm hreqs hheld => ?_⟩
    · obtain ⟨u, hget, ⟨hregs, -, hctl, -, hlpc⟩, hon⟩ := waitTeam_sameTeam s c sl t
      exact ⟨_, u, execRgrow_waits ci hw h hfits hg, hget, (waitTeam_growth hget).trans hg, hlpc, hregs, hctl.alloc, hon.sameMemory,
        hon.sameUnits, hon.others⟩
    · obtain ⟨us, hout⟩ := execRgrow_granted ci hw h hfits hg
      obtain ⟨u, hget, ⟨halloc, hgrowth, hadv, hflags⟩, hregs, hread, hon⟩ := granted_done (c := c) (sl := sl) us (legalRgrow_pred hw)
      exact ⟨_, u, hout, hget, halloc, hgrowth, hadv, hflags, hon.sameMemory, hon.sameUnits, hon.others, hread _, hregs⟩
    · obtain ⟨us, hout⟩ := execRshr_eq ci hw hm hreqs hheld
      obtain ⟨w, z, hundo⟩ := pushUndo_eq (issueOf s c sl t x.h).s (shrunkTeam s t x.h m) us
      rw [hundo] at hout
      obtain ⟨u, hget, hcar, hadv, -, hall⟩ := retired_setTeam s c sl (t := t) x.h
        (u0 := { shrunkTeam s t x.h m with undo := w, undoNew := z }) (enterRegion_lpc ..)
      obtain ⟨hv, hs, hp⟩ := hcar.maps
      refine ⟨_, u, hout, hget, hcar.control.alloc, hadv, fun n l hl hn => ?_, fun n => congrArg (ngetD _ · n) (hs.trans (enterRegion_s ..)),
        fun n => ?_, sameFlags_entered (h := x.h) hcar rfl rfl rfl, hall.sameMemory, hall.sameUnits, hall.others⟩
      · rw [show getV u n l = getV (clearRegs (entered s t x.h) (t.alloc - m) t.alloc) n l from congrArg (ngetD _ · _) hv,
          getV_clearRegs _ _ _ _ hl, if_neg (by omega), getV_entered]
      · unfold getP
        rw [hp.trans (enterRegion_p ..)]

end Sys2Proof.Proofs

/-! PROOFS. Exact reductions and queue appends (O33). -/

namespace Sys2Proof.Proofs

open Sys2Proof.Machine Sys2Proof.Safety Sys2Proof.Laws

/-! ### Requests that need a home slice (R360, R441) -/

/-- Such a request goes where a store to its address would; on host memory it has no home and a fault instead. -/
theorem reroute_slice {r : Req} (h : needsSlice r.kind = true) (hsh : r.shadowVa = none) (s : State) : ∃ loc f k,
    reroute s r = ({ (route s (asStore r)).1 with kind := r.kind, loc := loc, fault := f, info := k }, (route s (asStore r)).2) := by
  unfold needsSlice at h
  split at h
  case h_4 => exact nomatch h
  all_goals
    next hk =>
      simp only [reroute, route, asStore, hk, hsh, needsSlice, Bool.true_and, Bool.false_and, Bool.false_eq_true, if_true, if_false]
      exact ⟨_, _, _, rfl⟩
theorem reroute_slice_own {s : State} {r : Req} (hk : needsSlice r.kind = true) (hsh : r.shadowVa = none) (hw : OwnWorld s r) (c sl : Nat) :
    (reroute s r).2.1 = false ∧ Routed r (reroute s r).1 ∧ SameHomes s (reroute s r).2.2 r.core ∧
    TeamOnly s (reroute s r).2.2 c sl ∧ getTeam (reroute s r).2.2 c sl = getTeam s c sl := by
  obtain ⟨hflag, hrouted, hhomes, hon, hget⟩ := route_own (s := s) (r := asStore r) rfl hw c sl
  obtain ⟨loc, f, k, hx⟩ := reroute_slice hk hsh s
  rw [hx]
  have hback := routed_asStore hrouted
  exact ⟨hflag, ⟨hback.ask, hback.mine⟩, hhomes, hon, hget⟩

/-- Several of them, none of whose addresses lies in the other world, all go out. -/
theorem routeAll_slice {c : Nat} (sl : Nat) : ∀ (rs : List Req) (s : State),
    (∀ r ∈ rs, needsSlice r.kind = true ∧ r.shadowVa = none ∧ r.core = c ∧ OwnWorld s r) →
    (routeAll rs s).1 = false ∧ (∃ qs, (routeAll rs s).2.reqs = s.reqs ++ qs ∧ List.Forall₂ Routed rs qs) ∧
    Around s (routeAll rs s).2 c sl ∧ getTeam (routeAll rs s).2 c sl = getTeam s c sl
  | [], s, _ => ⟨rfl, ⟨[], (List.append_nil _).symm, .nil⟩, around_of_teamOnly (teamOnly_refl s c sl), rfl⟩
  | r :: rs, s, h => by
    obtain ⟨hk, hsh, rfl, hw⟩ := h r List.mem_cons_self
    obtain ⟨hflag, hrouted, hhomes, hon, hget⟩ := reroute_slice_own (s := s) (r := { r with id := s.nextId }) hk hsh hw r.core sl
    unfold routeAll
    dsimp only
    generalize reroute s { r with id := s.nextId } = x at hflag hrouted hhomes hon hget
    have hposted : SameHomes s (post x.2.2 x.1) r.core := sameHomes_trans hhomes (sameHomes_of_sameTables ⟨rfl, rfl, rfl, rfl, rfl, rfl⟩)
    obtain ⟨ihflag, ⟨qs, ihreqs, ihrouted⟩, ihon, ihget⟩ := routeAll_slice sl rs (post x.2.2 x.1) fun q hq => by
      obtain ⟨qk, qsh, qc, qw⟩ := h q (List.mem_cons_of_mem _ hq)
      exact ⟨qk, qsh, qc, fun va hva => by rw [qc, hposted, ← qc]; exact qw va hva⟩
    refine ⟨by rw [hflag, ihflag]; rfl, ⟨{ x.1 with id := x.2.2.nextId } :: qs, ?_, .cons ⟨hrouted.ask, hrouted.mine⟩ ihrouted⟩,
      around_trans (around_trans (around_of_teamOnly hon) (around_post ..)) ihon, ihget.trans ((getTeam_post ..).trans hget)⟩
    rw [ihreqs, reqs_post, hon.reqs, List.append_assoc]
    rfl
theorem sendAll_slice {s : State} {c sl : Nat} {t : Team} {h : Head} (p : Plan) (u : Team) {rs : List Req}
    (hrs : ∀ r ∈ rs, needsSlice r.kind = true ∧ r.shadowVa = none ∧ Sendable s c t (asStore r)) :
    ∃ s1 qs, sendAll (issueOf s c sl t h) p u rs = .go s1 ∧ s1.reqs = s.reqs ++ qs ∧ List.Forall₂ Routed rs qs ∧ Around s s1 c sl ∧
      getTeam s1 c sl = some u := by
  let i := issueOf s c sl t h
  let sent := rs.map fun r => { r with img := p.img, cache := p.pol }
  have hsame : SameTables s i.s c := sameTables_issueOf s c sl t h
  have hput : SameTables s (setTeam i.s c sl u) c := sameTables_trans hsame (sameTables_setTeam i.s c sl u c)
  have hheld : walkHeld i.s i.core i.t.tid i.t.ctx (rs.flatMap fun r => r.va :: r.shadowVa.toList) = false := by
    rw [show i.t.tid = t.tid from enterRegion_tid .., show i.t.ctx = t.ctx from enterRegion_ctx ..,
      show walkHeld i.s i.core = walkHeld i.s c from rfl, walkHeld_sameTables hsame _ rfl]
    refine walkHeld_all fun va hva => ?_
    obtain ⟨r, hr, hin⟩ := List.mem_flatMap.mp hva
    exact ((hrs r hr).2.2.own va hin).2
  obtain ⟨hflag, ⟨qs, hreqs, hrouted⟩, haround, hget⟩ := routeAll_slice (c := c) sl sent (setTeam i.s c sl u) fun q hq => by
    obtain ⟨r, hr, rfl⟩ := List.mem_map.mp hq
    obtain ⟨hk, hsh, -, hc, hctx, hown⟩ := hrs r hr
    refine ⟨hk, hsh, hc, fun va hva => ?_⟩
    show (homeOf _ (asStore r).core (asStore r).ctx (asStore r).write va).1.world = false
    rw [hc, hctx, homeOf_sameTables hput]
    exact (hown va hva).1
  refine ⟨(routeAll sent (setTeam i.s c sl u)).2, qs, ?_, hreqs,
    (List.forall₂_map_left_iff.mp hrouted).imp fun r q hq => ⟨hq.ask, hq.mine⟩,
    around_trans (around_of_teamOnly (teamOnly_trans (teamOnly_issueOf s c sl t h) (teamOnly_setTeam ..))) haround,
    hget.trans (getTeam_setTeam_same ..)⟩
  show (if walkHeld i.s i.core i.t.tid i.t.ctx (rs.flatMap fun r => r.va :: r.shadowVa.toList) = true then Res.wait
    else if (routeAll sent (setTeam i.s c sl u)).1 = true then _ else _) = _
  rw [hheld, hflag]
  rfl

/-! ### The accesses of an exact reduction or append (R216, R219, R248 to R251) -/

section slice
variable {x : MM} {s : State} {c sl : Nat} {t : Team}

/-- The access of lane `l` to the `n` bytes at its index, which counts in `align` bytes. -/
def sliceReq (i : Issue) (x : MM) (align n : Nat) (k : Nat → ReqKind) (l : Nat) : Req :=
  fenced i.t { Machine.ordOf x true (mkReq i l (k l)) with va := vaOf i x align l, n := n, read := true, write := true }
/-- Those of the lanes of a plan. -/
def planReqs (i : Issue) (x : MM) (p : Plan) (align n : Nat) (k : Nat → ReqKind) : List Req :=
  p.ins.map fun e => fenced i.t
    { Machine.ordOf x true (mkReq i e.1 (k e.1)) with va := brAddr p.buf e.2 align, n := n, read := true, write := true }
theorem planReqs_eq (i : Issue) (x : MM) (b : Option Rd) (ls : List Nat) (align n : Nat) (k : Nat → ReqKind) :
    planReqs i x (planOf i x (rd i x.a false) b ls) align n k = (insOf i x ls).map (sliceReq i x align n k) := by
  show List.map _ ((insOf i x ls).map fun l => (l, idxOf i x l)) = _
  rw [List.map_map]
  rfl
theorem sliceReq_only (i : Issue) (x : MM) (align n : Nat) (k : Nat → ReqKind) (l : Nat) : ∃ a b, sliceReq i x align n k l =
    { Machine.ordOf x true (mkReq i l (k l)) with
      va := vaOf i x align l, n := n, read := true, write := true, rel := a, relScope := b } := fenced_only ..
theorem askOf_sliceReq (align n : Nat) (k : Nat → ReqKind) (l : Nat) : askOf (sliceReq (issueOf s c sl t x.h) x align n k l) =
    askMM t x true true true l (vaOf (issueOf s c sl t x.h) x align l) n (k l) := by
  have hfence : (issueOf s c sl t x.h).t.relFence = t.relFence := entered_keeps (·.relFence) s t x.h fun _ _ _ _ _ _ => rfl
  unfold sliceReq fenced askMM
  rw [hfence]
  cases t.relFence with
  | none => simp [askOf, Machine.ordOf, mkReq]
  | some sc => simp [askOf, Machine.ordOf, mkReq]
theorem mine_sliceReq (align n : Nat) (k : Nat → ReqKind) (l : Nat) : Mine c sl t (sliceReq (issueOf s c sl t x.h) x align n k l) := by
  obtain ⟨_, _, h⟩ := sliceReq_only (issueOf s c sl t x.h) x align n k l
  rw [h]
  exact mine_mkReq s c sl t x.h l (k l)
theorem sendable_sliceReq {ls : List Nat} {align : Nat} (hva : Own s c t true (ls.map (vaOf (issueOf s c sl t x.h) x align))) (n : Nat)
    {k : Nat → ReqKind} (hk : ∀ l, needsSlice (k l) = true) {l : Nat} (hl : l ∈ ls) :
    let r := sliceReq (issueOf s c sl t x.h) x align n k l
    needsSlice r.kind = true ∧ r.shadowVa = none ∧ Sendable s c t (asStore r) := by
  obtain ⟨_, _, h⟩ := sliceReq_only (issueOf s c sl t x.h) x align n k l
  rw [h]
  refine ⟨hk l, rfl, rfl, rfl, enterRegion_ctx .., fun va hin => ?_⟩
  rw [List.mem_singleton.mp hin]
  exact hva _ (List.mem_map_of_mem hl)

/-- The accesses of lanes `ls` go out, and the team `u` is put back. -/
theorem sendAll_sliceReqs (p : Plan) (u : Team) {ls : List Nat} {align : Nat}
    (hva : Own s c t true (ls.map (vaOf (issueOf s c sl t x.h) x align))) (n : Nat) {k : Nat → ReqKind} (hk : ∀ l, needsSlice (k l) = true) :
    ∃ s1, sendAll (issueOf s c sl t x.h) p u (ls.map (sliceReq (issueOf s c sl t x.h) x align n k)) = .go s1 ∧ Around s s1 c sl ∧
      getTeam s1 c sl = some u ∧ ∀ s', s'.reqs = s1.reqs →
        Sent s s' c sl t (ls.map fun l => askMM t x true true true l (vaOf (issueOf s c sl t x.h) x align l) n (k l)) := by
  obtain ⟨s1, qs, hsend, hreqs, hrouted, haround, hget⟩ := sendAll_slice (sl := sl) (h := x.h) p u
    (rs := ls.map (sliceReq (issueOf s c sl t x.h) x align n k)) fun r hr => by
      obtain ⟨l, hl, rfl⟩ := List.mem_map.mp hr
      exact sendable_sliceReq hva n hk hl
  refine ⟨s1, hsend, haround, hget, fun s' hs' => ?_⟩
  have hsent := sent_of_routed (s' := s') (hs'.trans hreqs) hrouted fun r hr => by
    obtain ⟨l, -, rfl⟩ := List.mem_map.mp hr
    exact mine_sliceReq align n k l
  rw [List.map_map] at hsent
  rwa [show askOf ∘ sliceReq (issueOf s c sl t x.h) x align n k =
    fun l => askMM t x true true true l (vaOf (issueOf s c sl t x.h) x align l) n (k l) from funext (askOf_sliceReq align n k)] at hsent

/-- A launch that cannot be replayed any more (R448) is a change of its context alone. -/
theorem around_spendReplay (s : State) (ctx seq c sl : Nat) : Around s (spendReplay s ctx seq) c sl :=
  ⟨sameMemory_updLaunch .., ⟨fun _ => ⟨rfl, rfl⟩, rfl, fun _ => rfl, fun _ => rfl, fun _ => rfl⟩, fun _ _ _ => rfl⟩

/-- XRED sends a contribution for each lane in bounds, and closes its region (R248). -/
theorem xredBody_done {ins : Instr} {f : FW} (ci : CanIssue s c sl t x.h) (hw : ins.wf = true) (haa : opdAlloc t x.a.o false = true)
    (hab : opdAlloc t x.b.o (pairF f) = true) :
    let i := issueOf s c sl t x.h
    let ls := lanesOf (active t x.h)
    let b := rd i x.b (pairF f)
    Ready i [rd i x.a false, b] [] → CanAccess i x ls → Own s c t true ((insOf i x ls).map (vaOf i x (accAlign f))) →
    releaseWaits i x true (!(insOf i x ls).isEmpty) = false →
    ∃ s' u, xredBody ins f x s = .next s' ∧
      Sends s s' c sl (entered s t x.h) u (.x 0) false 0 true (satAdd32 t.oobcnt (outOf i x ls).length) ∧
      Sent s s' c sl t ((insOf i x ls).map fun l => askMM t x true true true l (vaOf i x (accAlign f) l) (accBytes f)
        (.xred f (b.at_ l).bits (b.at_ l).tag)) := by
  intro i ls b hready ca hva hwaits
  let u0 := countOob (entered s t x.h) (outOf i x ls).length
  let k := fun l => ReqKind.xred f (b.at_ l).bits (b.at_ l).tag
  let p := planOf i x (rd i x.a false) (some b) ls
  obtain ⟨s1, hsend, haround, hget, hsent⟩ := sendAll_sliceReqs (x := x) p u0 hva (accBytes f) (k := k) fun _ => rfl
  obtain ⟨u, hsends, hsame, -⟩ := sends_retired (t := t) (h := x.h) (u0 := u0) (d := .x 0) (pair := false) (m := 0)
    (oob := satAdd32 t.oobcnt (outOf i x ls).length) true (around_trans haround (around_spendReplay s1 i.t.ctx i.t.seq c sl)) hget
    (sameRegs_of_eq _ _ _ rfl rfl rfl) (by rw [← entered_oobcnt s t x.h]; rfl) rfl rfl
  refine ⟨_, u, ?_, hsends, hsent _ hsame⟩
  unfold xredBody
  refine issue_go ci hw (by simp [recBound_of_canAccess ca, haa, hab]) ((withPlan_ready hready ca).trans ?_)
  have hempty : p.ins.isEmpty = (insOf i x ls).isEmpty := List.isEmpty_map
  show (if releaseWaits i x true (!p.ins.isEmpty) = true then Res.wait
    else match sendAll i p u0 (planReqs i x p (accAlign f) (accBytes f) k) with
      | .go s' => Res.go (spendReplay s' i.t.ctx i.t.seq)
      | r => r) = _
  rw [hempty, hwaits, planReqs_eq, hsend]
  rfl

/-- What a legal XRD, or EXPQ, says of its size and its destination. -/
theorem legalXrd_operands {f : FW} (h : legalXrd f x = true) : pairSize x.size = pairF f ∧ dOk x.d (pairF f) = true := by
  simp only [legalXrd, Bool.and_eq_true, beq_iff_eq] at h
  obtain ⟨⟨⟨⟨⟨-, hsize⟩, hd⟩, -⟩, -⟩, -⟩ := h
  refine ⟨?_, hd⟩
  rw [hsize]
  cases f <;> rfl
theorem legalExpq_dst (h : legalExpq x = true) : dOk x.d false = true := by
  simp only [legalExpq, Bool.and_eq_true] at h
  obtain ⟨⟨⟨⟨⟨-, hd⟩, -⟩, -⟩, -⟩, -⟩ := h
  exact hd

/-- The team that goes back with lanes `ms` of its destination empty and lanes `out` 0, and `n` more lanes counted out of bounds; its undo log
may have grown. -/
def putMarked (t1 : Team) (n : Nat) (d : Opd) (pair : Bool) (ms out : List Nat) (w z : List Undo) : Team :=
  { marked (countOob t1 n) d pair ms out with undo := w, undoNew := z }

section putMarked
variable (h : Head) (n : Nat) (d : Opd) (pair : Bool) (ms out : List Nat) (w z : List Undo)

theorem carried_putMarked :
    let u := putMarked (entered s t h) n d pair ms out w z
    Carried { entered s t h with v := u.v, s := u.s, p := u.p, oobcnt := satAdd32 t.oobcnt n } u ∧
      u.lpc = (entered s t h).lpc ∧ u.retcnt = (entered s t h).retcnt := by
  obtain ⟨v, ss, p, honly⟩ := marked_only (countOob (entered s t h) n) d pair ms out
  unfold putMarked
  rw [honly, ← entered_oobcnt s t h]
  exact ⟨rfl, rfl, rfl⟩
theorem sameRegs_putMarked {m : Mask} (hm : ∀ l ∈ ms, l ∈ lanesOf m) (ho : ∀ l ∈ out, l ∈ lanesOf m) :
    SameRegs (entered s t h) (putMarked (entered s t h) n d pair ms out w z) d pair m :=
  sameRegs_trans (u := countOob (entered s t h) n) (sameRegs_of_eq _ _ _ rfl rfl rfl)
    (sameRegs_trans (marked_frame _ d pair hm ho) (sameRegs_of_eq _ _ _ rfl rfl rfl))
/-- Elements of a team that kept the register maps from there on. -/
theorem rdOpd_putMarked {u : Team} (hr : isReg d = true) (hv : u.v = (putMarked (entered s t h) n d pair ms out w z).v)
    (hs : u.s = (putMarked (entered s t h) n d pair ms out w z).s) (hp : u.p = (putMarked (entered s t h) n d pair ms out w z).p)
    (s' : State) (l : Nat) : rdOpd s' u d pair l = rdOpd s' (marked (countOob (entered s t h) n) d pair ms out) d pair l :=
  rdOpd_maps hv hs hp d pair l hr
theorem rdOpd_countOob {d : Opd} (hr : isReg d = true) (s' : State) (l : Nat) :
    rdOpd s' (countOob (entered s t h) n) d pair l = rdOpd s t d pair l :=
  (rdOpd_maps (t := entered s t h) rfl rfl rfl d pair l hr).trans (rdOpd_entered hr)
end putMarked

/-- XRD empties its destination and sends a readout for each lane in bounds (R249). -/
theorem xrdBody_done {ins : Instr} {f : FW} (ci : CanIssue s c sl t x.h) (hw : ins.wf = true) (hl : legalXrd f x = true)
    (haa : opdAlloc t x.a.o false = true) (ha : opdAlloc t x.d (pairF f) = true) :
    let i := issueOf s c sl t x.h
    let ls := served x.d (active t x.h)
    let sl_ := recSlot (recordOf s t) x.slot.toNat
    Ready i [rd i x.a false] [(x.d, pairF f)] → CanAccess i x ls → Own s c t true ((insOf i x ls).map (vaOf i x (accAlign f))) →
    releaseWaits i x true (!(insOf i x ls).isEmpty) = false →
    ∃ s' u, xrdBody ins f x s = .next s' ∧
      Sends s s' c sl (entered s t x.h) u x.d (pairF f) (active t x.h) false (satAdd32 t.oobcnt (outOf i x ls).length) ∧
      Awaits s s' t u x.d (pairF f) (insOf i x ls) (outOf i x ls) ∧
      Sent s s' c sl t ((insOf i x ls).map fun l => askMM t x true true true l (vaOf i x (accAlign f) l) (accBytes f)
        (.xrd f ⟨slotMode sl_, slotSigpol sl_⟩ x.d (pairF f))) := by
  intro i ls sl_ hready ca hva hwaits
  obtain ⟨hsize, hd⟩ := legalXrd_operands hl
  have hr := dOk_reg hd
  have h7 : x.d ≠ .p 7 := fun h => by rw [h] at hd; exact nomatch hd
  have hins : ∀ l ∈ insOf i x ls, l ∈ lanesOf (active t x.h) := fun l hl => mem_lanesOf_of_served ci.some (mem_of_insOf hl)
  have hout : ∀ l ∈ outOf i x ls, l ∈ lanesOf (active t x.h) := fun l hl => mem_lanesOf_of_served ci.some (mem_of_outOf hl)
  have hins32 : ∀ l ∈ insOf i x ls, l < 32 := fun l hl => lt_of_mem_lanesOf (hins l hl)
  have hout32 : ∀ l ∈ outOf i x ls, l < 32 := fun l hl => lt_of_mem_lanesOf (hout l hl)
  let n := (outOf i x ls).length
  let k := fun _ : Nat => ReqKind.xrd f ⟨slotMode sl_, slotSigpol sl_⟩ x.d (pairF f)
  let p := planOf i x (rd i x.a false) none ls
  obtain ⟨w, z, hmark⟩ := markLoads_eq s c sl (hsize ▸ ha) none ls
  rw [hsize] at hmark
  obtain ⟨hcar, hlpc, hret⟩ := carried_putMarked (s := s) (t := t) x.h n x.d (pairF f) (insOf i x ls) (outOf i x ls) w z
  obtain ⟨s1, hsend, haround, hget, hsent⟩ := sendAll_sliceReqs (x := x) p
    (putMarked (entered s t x.h) n x.d (pairF f) (insOf i x ls) (outOf i x ls) w z) hva (accBytes f) (k := k) fun _ => rfl
  obtain ⟨u, hsends, hsame, hv, hs, hp⟩ := sends_retired (h := x.h) false haround hget
    (sameRegs_putMarked x.h n x.d (pairF f) _ _ w z hins hout) hcar hlpc hret
  have hread := rdOpd_putMarked x.h n x.d (pairF f) _ _ w z hr hv hs hp
  refine ⟨_, u, ?_, hsends, ⟨fun l hl => ?_, fun l hl => ?_⟩, hsent _ hsame⟩
  · unfold xrdBody
    refine issue_go ci hw (by simp [recBound_of_canAccess ca, haa, ha]) ((withPlan_ready hready ca).trans ?_)
    have hempty : p.ins.isEmpty = (insOf i x ls).isEmpty := List.isEmpty_map
    show (let w := recSlot (wordsOf i) x.slot.toNat
      if releaseWaits i x true (!p.ins.isEmpty) = true then Res.wait
      else sendAll i p (markLoads i x.d (pairF f) p)
        (planReqs i x p (accAlign f) (accBytes f) fun _ => .xrd f ⟨slotMode w, slotSigpol w⟩ x.d (pairF f))) = _
    rw [words_issueOf, hempty, hwaits]
    show sendAll i p (markLoads i x.d (pairF f) p) (planReqs i x p (accAlign f) (accBytes f) k) = _
    rw [show markLoads i x.d (pairF f) p = putMarked (entered s t x.h) n x.d (pairF f) (insOf i x ls) (outOf i x ls) w z from hmark,
      planReqs_eq]
    exact hsend
  · rw [hread, rdOpd_marked_ins _ _ (pairF f) hr h7 hins32 hout32 (fun _ => not_mem_outOf) insOf_scalar hl, rdOpd_countOob x.h n (pairF f) hr]
  · rw [hread, rdOpd_marked_out _ _ (pairF f) hr h7 hins32 hout32 (fun _ => not_mem_outOf) insOf_scalar hl]

/-- EXPQ clears its lanes out of bounds, sends an append for each of the others, and holds its team (R251). -/
theorem execExpq_done (ci : CanIssue s c sl t x.h) (hw : (Instr.expq x).wf = true) (haa : opdAlloc t x.a.o false = true)
    (ha : opdAlloc t x.d false = true) (hab : opdAlloc t x.b.o true = true) :
    let i := issueOf s c sl t x.h
    let ls := served x.d (active t x.h)
    let b := rd i x.b true
    Ready i [rd i x.a false, b] [(x.d, false)] → CanAccess i x ls → Own s c t true ((insOf i x ls).map (vaOf i x 64)) →
    insOf i x ls ≠ [] →
    ∃ s' u, execExpq x s = .next s' ∧ getTeam s' c sl = some u ∧ HeldAt t u x.h .request ∧ SameRegs t u x.d false (active t x.h) ∧
      (∀ l ∈ insOf i x ls, rdOpd s' u x.d false l = rdOpd s t x.d false l) ∧
      (∀ l ∈ outOf i x ls, rdOpd s' u x.d false l = written x.d false 0 0) ∧
      u.oobcnt = satAdd32 t.oobcnt (outOf i x ls).length ∧ SameMemory s s' ∧ SameEngines s s' ∧ SameOthers s s' c sl ∧
      Sent s s' c sl t ((insOf i x ls).map fun l => askMM t x true true true l (vaOf i x 64 l) 64
        (.expq ((b.at_ l).bits.setWidth 32) (((b.at_ l).bits >>> 32).setWidth 32) x.d)) := by
  intro i ls b hready ca hva hne
  have hd := legalExpq_dst hw
  have hr := dOk_reg hd
  have hout : ∀ l ∈ outOf i x ls, l ∈ lanesOf (active t x.h) := fun l hl => mem_lanesOf_of_served ci.some (mem_of_outOf hl)
  have hout32 : ∀ l ∈ outOf i x ls, l < 32 := fun l hl => lt_of_mem_lanesOf (hout l hl)
  let n := (outOf i x ls).length
  let p := planOf i x (rd i x.a false) (some b) ls
  let k := fun l => ReqKind.expq ((b.at_ l).bits.setWidth 32) (((b.at_ l).bits >>> 32).setWidth 32) x.d
  have hempty : (insOf i x ls).isEmpty = false := List.isEmpty_eq_false_iff.mpr hne
  have ha' : opdAlloc (countOob (entered s t x.h) n) x.d false = true := by
    have halloc : (countOob (entered s t x.h) n).alloc = t.alloc := enterRegion_alloc ..
    unfold opdAlloc at ha ⊢
    rwa [halloc]
  obtain ⟨w, z, hundo⟩ := pushUndo_eq i.s (marked (countOob (entered s t x.h) n) x.d false [] (outOf i x ls)) (undoOf i.t x.d false)
  have hteam : pushUndo i.s ((outOf i x ls).foldl (fun t l => landZero t x.d false l) (countOob i.t n)) (undoOf i.t x.d false) =
      putMarked (entered s t x.h) n x.d false [] (outOf i x ls) w z := by
    refine Eq.trans ?_ hundo
    unfold marked
    rw [← foldl_landZero (outOf i x ls) ha']
    rfl
  obtain ⟨hcar, hlpc, -⟩ := carried_putMarked (s := s) (t := t) x.h n x.d false [] (outOf i x ls) w z
  obtain ⟨s1, hsend, haround, hget, hsent⟩ := sendAll_sliceReqs (x := x) p
    (putMarked (entered s t x.h) n x.d false [] (outOf i x ls) w z) hva 64 (k := k) fun _ => rfl
  let s2 := spendReplay s1 i.t.ctx i.t.seq
  have hget2 : getTeam s2 c sl = some (putMarked (entered s t x.h) n x.d false [] (outOf i x ls) w z) := hget
  obtain ⟨hon, u, hu, hcar2, hhold, hlpc2⟩ := holdTeam_spec hget2
    ⟨.request, s.nextId, issueAddr t, executing t, active t x.h, x.h, true, []⟩
  have hall := around_trans (around_trans haround (around_spendReplay s1 i.t.ctx i.t.seq c sl)) (around_of_teamOnly hon)
  obtain ⟨hv, hs, hp⟩ := hcar2.maps
  have hread (s' : State) {l : Nat} (hl : l < 32) : rdOpd s' u x.d false l =
      if l ∈ outOf i x ls ∨ (isS x.d = true ∧ outOf i x ls ≠ []) then written x.d false 0 0 else rdOpd s t x.d false l := by
    rw [rdOpd_putMarked x.h n x.d false [] _ w z hr hv hs hp, marked, List.foldl_nil, rdOpd_foldl_putOpd s' false 0 0 hl hr _ _ hout32,
      rdOpd_countOob x.h n false hr]
  refine ⟨_, u, ?_, hu, ⟨⟨_, hhold, rfl, rfl, rfl, rfl⟩, hlpc2.trans (hlpc.trans (enterRegion_lpc ..))⟩, ?_, fun l hl => ?_,
    fun l hl => ?_, ?_, hall.memory, hall.engines, hall.others, hsent _ hon.reqs⟩
  · unfold execExpq
    refine issue_hold ci hw (by simp [recBound_of_canAccess ca, haa, hab, ha]) ((withPlan_ready hready ca).trans ?_)
    have hpempty : p.ins.isEmpty = (insOf i x ls).isEmpty := List.isEmpty_map
    have hwaits : releaseWaits i x true true = false := rfl
    show (if releaseWaits i x true (!p.ins.isEmpty) = true then Res.wait
      else match sendAll i p (pushUndo i.s ((outOf i x ls).foldl (fun t l => landZero t x.d false l) (countOob i.t n)) (undoOf i.t x.d false))
          (planReqs i x p 64 64 k) with
        | .go s' => if (planReqs i x p 64 64 k).isEmpty = true then Res.go (spendReplay s' i.t.ctx i.t.seq)
          else Res.hold (spendReplay s' i.t.ctx i.t.seq) .request
        | r => r) = Res.hold s2 .request
    rw [hpempty, hempty, Bool.not_false, hwaits, hteam, planReqs_eq, hsend, List.isEmpty_map, hempty]
    rfl
  · exact sameRegs_trans (sameRegs_of_eq _ _ _ (enterRegion_v ..) (enterRegion_s ..) (enterRegion_p ..))
      (sameRegs_trans (sameRegs_putMarked x.h n x.d false [] _ w z (fun _ h => absurd h List.not_mem_nil) hout)
        (sameRegs_of_eq _ _ _ hv hs hp))
  · rw [hread _ (lt_of_mem_lanesOf (mem_lanesOf_of_served ci.some (mem_of_insOf hl))), if_neg]
    rintro (hin | ⟨hsc, hsome⟩)
    · exact not_mem_outOf hl hin
    · exact (insOf_scalar hsc).elim hne hsome
  · rw [hread _ (hout32 l hl), if_pos (.inl hl)]
  · exact hcar2.flags.2.2.trans hcar.flags.2.2

end slice

/-- Settles O33: XRED, XRD and EXPQ send an acquiring and releasing access for each lane in bounds; XRD waits for its lanes, EXPQ holds its
team. -/
theorem exactAndQueueIssue : Obligations.ExactAndQueueIssue := by
  intro x s c sl t ci haa i all ls sl_ xred xrd
  refine ⟨fun hw hab => xredBody_done ci hw haa hab, fun hw hab => xredBody_done ci hw haa hab,
    fun hw ha => xrdBody_done ci hw hw haa ha, fun hw ha => xrdBody_done ci hw hw haa ha, fun hw hops => ?_⟩
  obtain ⟨ha, hab⟩ := Bool.and_eq_true_iff.mp hops
  exact execExpq_done ci hw haa ha hab

end Sys2Proof.Proofs

/-! PROOFS. Ticket entries with data, slots listed twice at a suspension (O45, O53). -/

namespace Sys2Proof.Proofs

open Sys2Proof.Machine Sys2Proof.Safety Sys2Proof.Laws

/-! ### The lines of a ticket entry (O45) -/

/-- `Tests.sT1`, with a captured line of 129 bytes in the entry that the fetch will fill. -/
def longLine : State :=
  putEntry Tests.sT1 Tests.kT 7 { getEntry Tests.sT1 Tests.kT 7 with bytes := [(0, List.replicate 129 0)] }
theorem longLine_fetch : (Tests.req longLine 0).kind = .fetch Tests.kT 7 1 [] ∧ (Tests.req longLine 0).loc = some (.hbm 0x61000) ∧
    canPerform longLine (Tests.req longLine 0) = true ∧ (getEntry longLine Tests.kT 7).fetch = (Tests.req longLine 0).id ∧
    longLine.reqs = [Tests.req longLine 0] ∧ (Tests.req longLine 0).got = [] ∧ (Tests.req longLine 0).val = 0 := by
  decide +kernel

theorem longLine_entry : let e := getEntry (lapse longLine Tests.kT 7) Tests.kT 7
    e.st = .inflight ∧ e.elems.length ≤ 32 ∧ e.lines.getLsbD 0 = true ∧
      ∀ y ∈ e.elems, e.lines.getLsbD (y.2 / 128) = true ∧ y.2 % 128 + sizeBytes e.f.size ≤ 128 := by
  decide +kernel

/-- A read of local memory gives the bytes that it asks for. -/
theorem length_readLoc_hbm (s : State) (pa n : Nat) : (readLoc s (.hbm pa) n).length = n := by
  simp [readLoc, getBytes]

theorem longLine_captured : (ngetD [] (getEntry (Tests.after (exec (.ticketDataArrival Tests.kT ⟨7, []⟩) longLine)) Tests.kT 7).bytes 0).length =
    129 := by
  decide +kernel

/-- Refutes O45, by its clause on arriving data: the entry is to hold, of each line of the set, just the 128 bytes read there. A word of the
fetch replaces 8 bytes of what the entry holds of the line, so that the line keeps its length, and no premise says that what the entry holds
before the first word is nothing, or 128 bytes: in `longLine` it is 129, and 129 bytes are in the entry that turns READY. -/
theorem not_ticketAndRedeemEvents : ¬ Obligations.TicketAndRedeemEvents := by
  unfold Obligations.TicketAndRedeemEvents
  rintro ⟨⟨-, arrival, -⟩, -⟩
  obtain ⟨hkind, hloc, hperf, hfetch, hreqs, hgot, hval⟩ := longLine_fetch
  obtain ⟨hst, helems, hline, hfit⟩ := longLine_entry
  obtain ⟨inflight, -⟩ := arrival longLine (Tests.req longLine 0) Tests.kT 7 1 [] (.hbm 0x61000) (by rw [hreqs]; simp) hkind hloc hperf
    (fun q hq _ => by rw [hreqs] at hq; simpa using hq) hfetch ⟨hgot, hval⟩ (Or.inl rfl) helems hfit
  obtain ⟨s', ⟨hexec, -⟩, -, -, -, -, -, ⟨hbytes, -⟩, -⟩ := inflight (Or.inl hst)
  have hlong := longLine_captured
  rw [hexec] at hlong
  have hread : nget (getEntry s' Tests.kT 7).bytes 0 = some (readLoc longLine (.hbm 0x61000) 128) := hbytes 0 (by decide) hline
  simp only [Tests.after, ngetD, hread, Option.getD_some, length_readLoc_hbm] at hlong
  exact absurd hlong (by decide)

/-! ### A slot listed twice on a suspended core (O53) -/

/-- A team of context 1, whose undo log has a new entry. -/
def debuggedTeam : Team := { Tests.t00 Tests.s0 with ctx := 1, undoNew := [.sreg 0 default] }
/-- Context 0 is being suspended and context 1 is in debug mode; core 0 lists slot 0 twice, first with a team of context 1. -/
def listedTwice : State :=
  updCtx (updCore (Tests.unheld (Tests.setSt Tests.s0 .suspending)) 0 fun k => { k with teams := (0, debuggedTeam) :: k.teams }) 1
    fun k => { k with debug := true }

theorem listedTwice_ready : suspendReady listedTwice 0 = true ∧ getTeam listedTwice 0 0 = some debuggedTeam := by
  decide +kernel

/-- The teams of context 0 are found by the slots they are listed at, and the undo log that is emptied is that of the first team there. -/
theorem listedTwice_flushed : ((getTeam (Tests.after (exec (.suspensionComplete 0) listedTwice)) 0 0).map fun t => t.undoNew.length) = some 0 := by
  decide +kernel

/-- Refutes O53, by its clause that a completed suspension keeps the teams of other contexts. The teams whose undo log goes to memory are
named by their slots, and no premise says that a core lists each slot once: in `listedTwice` slot 0 is listed for a team of context 0, which is
being suspended, and shows a team of context 1 in debug mode, whose undo log is emptied. -/
theorem not_contextEvents : ¬ Obligations.ContextEvents := by
  unfold Obligations.ContextEvents
  rintro ⟨-, stages, -⟩
  obtain ⟨hready, hteam⟩ := listedTwice_ready
  obtain ⟨-, -, -, -, -, -, -, -, -, suspended, -⟩ := stages listedTwice 0
  obtain ⟨s', hexec, -, -, -, -, -, -, -, -, hteams⟩ := suspended hready
  have hkept := (hteams 0 0 debuggedTeam hteam).1 (by decide)
  have hflushed := listedTwice_flushed
  rw [hexec] at hflushed
  simp only [Tests.after, hkept, Option.map_some] at hflushed
  exact absurd hflushed (by decide)

end Sys2Proof.Proofs

/-! PROOFS. The events of a copy channel (O48). -/

namespace Sys2Proof.Proofs

open Sys2Proof.Machine Sys2Proof.Safety Sys2Proof.Laws

/-! ### What an engine's accesses and writes leave (R216, R265, R365) -/

/-- The requests in flight, and the workgroups and copy queues of every core are as they were. -/
structure SameQueues (s s' : State) : Prop where
  reqs : s'.reqs = s.reqs
  wgs : ∀ c, (getCore s' c).wgs = (getCore s c).wgs
  chans : ∀ c, (getCore s' c).chans = (getCore s c).chans
/-- So are the line F/E bits. -/
structure QueuesKept (s s' : State) : Prop extends SameQueues s s' where
  empty : ∀ c, (getCore s' c).empty = (getCore s c).empty
/-- Every memory reads as before. -/
def DataKept (s s' : State) : Prop := ∀ l n, readLoc s' l n = readLoc s l n

section kept
variable {s s' s'' : State}

theorem sameQueues_trans (h : SameQueues s s') (k : SameQueues s' s'') : SameQueues s s'' :=
  ⟨k.reqs.trans h.reqs, fun c => (k.wgs c).trans (h.wgs c), fun c => (k.chans c).trans (h.chans c)⟩
theorem SameQueues.chanOf (h : SameQueues s s') (c ch : Nat) : chanOf s' c ch = chanOf s c ch := congrArg (ngetD [] · ch) (h.chans c)
theorem SameQueues.getWg (h : SameQueues s s') (c id : Nat) : getWg s' c id = getWg s c id :=
  congrArg (fun ws : List Wg => (ws.find? fun w : Wg => w.id == id).getD default) (h.wgs c)

theorem queuesKept_refl (s : State) : QueuesKept s s := ⟨⟨rfl, fun _ => rfl, fun _ => rfl⟩, fun _ => rfl⟩
theorem queuesKept_trans (h : QueuesKept s s') (k : QueuesKept s' s'') : QueuesKept s s'' :=
  ⟨sameQueues_trans h.toSameQueues k.toSameQueues, fun c => (k.empty c).trans (h.empty c)⟩
theorem queuesKept_of_cores (hr : s'.reqs = s.reqs) (hc : s'.cores = s.cores) : QueuesKept s s' := by
  have hcore (c : Nat) : getCore s' c = getCore s c := congrArg (ngetD default · c) hc
  exact ⟨⟨hr, fun c => by rw [hcore], fun c => by rw [hcore]⟩, fun c => by rw [hcore]⟩
theorem queuesKept_of_teamOnly {c sl : Nat} (h : TeamOnly s s' c sl) : QueuesKept s s' :=
  ⟨⟨h.reqs, h.sameUnits.wgs, h.sameUnits.chans⟩, fun k => (h.sameMemory.scratch k).2.2⟩
theorem queuesKept_of_around {c sl : Nat} (h : Around s s' c sl) (hr : s'.reqs = s.reqs) : QueuesKept s s' :=
  ⟨⟨hr, h.engines.wgs, h.engines.chans⟩, fun k => (h.memory.scratch k).2.2⟩
theorem queuesKept_updCore (s : State) (c : Nat) (f : Core → Core)
    (hf : ∀ k, (f k).empty = k.empty ∧ (f k).wgs = k.wgs ∧ (f k).chans = k.chans) : QueuesKept s (updCore s c f) := by
  have hcore (x : Nat) : (getCore (updCore s c f) x).empty = (getCore s x).empty ∧ (getCore (updCore s c f) x).wgs = (getCore s x).wgs ∧
      (getCore (updCore s c f) x).chans = (getCore s x).chans := by
    rw [getCore_updCore]
    split
    · next e => exact e ▸ hf _
    · exact ⟨rfl, rfl, rfl⟩
  exact ⟨⟨rfl, fun x => (hcore x).2.1, fun x => (hcore x).2.2⟩, fun x => (hcore x).1⟩
theorem QueuesKept.lineFull (h : QueuesKept s s') (c n : Nat) : lineFull s' c n = lineFull s c n :=
  congrArg (fun ls : List Nat => !ls.contains n) (h.empty c)

theorem dataKept_trans (h : DataKept s s') (k : DataKept s' s'') : DataKept s s'' := fun l n => (k l n).trans (h l n)
theorem dataKept_of_eq (hm : s'.mem = s.mem) (hw : s'.wstore = s.wstore) (hr : s'.remote = s.remote)
    (hb : ∀ c, (getCore s' c).bytes = (getCore s c).bytes) : DataKept s s' := by
  intro l n
  unfold readLoc
  rw [hm, hw, hr]
  split
  · rfl
  · rw [hb]
  · rfl
  · rfl
theorem dataKept_of_sameMemory (h : SameMemory s s') : DataKept s s' := dataKept_of_eq h.mem h.wstore h.remote fun c => (h.scratch c).1
theorem dataKept_updCore (s : State) (c : Nat) (f : Core → Core) (hf : ∀ k, (f k).bytes = k.bytes) : DataKept s (updCore s c f) := by
  refine dataKept_of_eq rfl rfl rfl fun x => ?_
  rw [getCore_updCore]
  split
  · next e => exact e ▸ hf _
  · rfl
theorem stored_of_dataKept {s1 s2 : State} {l : Loc} {bs : List Byte} (h1 : DataKept s s1) (h : Stored s1 s2 l bs) (h2 : DataKept s2 s') :
    Stored s s' l bs :=
  ⟨(h2 ..).trans h.1, fun m hm ho => (h2 ..).trans ((h.2 m hm ho).trans (h1 ..))⟩

/-- A fold keeps what each of its steps keeps. -/
theorem foldl_queuesKept {α : Type} {f : State → α → State} (hf : ∀ s x, QueuesKept s (f s x)) :
    ∀ (xs : List α) (s : State), QueuesKept s (xs.foldl f s)
  | [], s => queuesKept_refl s
  | x :: xs, s => queuesKept_trans (hf s x) (foldl_queuesKept hf xs _)
theorem foldl_dataKept {α : Type} {f : State → α → State} (hf : ∀ s x, DataKept s (f s x)) :
    ∀ (xs : List α) (s : State), DataKept s (xs.foldl f s)
  | [], _ => fun _ _ => rfl
  | x :: xs, s => dataKept_trans (hf s x) (foldl_dataKept hf xs _)
end kept

/-! ### The accesses of a core's engine -/

section reads
variable {e : Eng} {k : Nat} (he : e.tlb = .core k) (c sl : Nat)
include he

theorem engAt_teamOnly (s : State) (write : Bool) (va acc : Nat) : TeamOnly s (engAt s e write va acc).2 c sl := by
  have hx : TeamOnly s (Machine.translate s e.tlb e.ctx e.wld write va).2 c sl := by
    rw [he]
    obtain h | ⟨es, h⟩ := translate_state s (.core k) e.ctx e.wld write va
    · rw [h]
      exact teamOnly_refl ..
    · rw [h]
      exact teamOnly_setTlb ..
  have hfresh (x : State) : TeamOnly x { x with freshCount := x.freshCount + 1 } c sl :=
    ⟨rfl, rfl, rfl, rfl, rfl, rfl, fun _ => ⟨rfl, rfl, rfl, rfl, rfl, rfl⟩, fun _ _ _ => rfl⟩
  unfold engAt
  split
  · exact teamOnly_refl ..
  · dsimp only
    split
    · split
      · split
        · exact teamOnly_trans hx (hfresh _)
        · exact teamOnly_trans hx (hfresh _)
      · exact hx
    · exact hx
    · exact hx
    · exact hx
theorem engRead_teamOnly (s : State) (va n acc : Nat) : TeamOnly s (engRead s e va n acc).2 c sl := by
  have h := engAt_teamOnly he c sl s false va acc
  unfold engRead
  dsimp only
  split
  · exact h
  · exact h
  · exact h
  · exact h
theorem plRead_teamOnly (s : State) (ez : Nat) (p : Pl) : TeamOnly s (plRead s e ez p).2 c sl := by
  unfold plRead
  cases p with
  | glob va sh nib =>
    have h := engRead_teamOnly he c sl s va (elBytes ez) 0
    dsimp only
    split
    · exact h
    · exact h
    · exact h
  | scr _ _ _ => exact teamOnly_refl ..
  | wst _ _ => exact teamOnly_refl ..
  | out => exact teamOnly_refl ..
  | other _ => exact teamOnly_refl ..
theorem wordRead_teamOnly (s : State) (early : Option (BitVec 64)) (w : Pl) : TeamOnly s (wordRead s e early w).2 c sl := by
  unfold wordRead
  split
  · exact plRead_teamOnly he c sl s 4 w
  · split
    · exact teamOnly_refl ..
    · exact teamOnly_refl ..
theorem wordsRead_teamOnly (early : Pl → Option (BitVec 64)) : ∀ (ws : List Pl) (s : State), TeamOnly s (wordsRead e early ws s).2 c sl
  | [], s => teamOnly_refl s c sl
  | w :: ws, s => by
    have hw := wordRead_teamOnly he c sl s (early w) w
    have hws := teamOnly_trans hw (wordsRead_teamOnly early ws _)
    unfold wordsRead
    dsimp only
    split
    · split
      · exact hws
      · exact hws
    · exact hw
    · exact hw
theorem partHome_teamOnly (s : State) (p : Part) : TeamOnly s (partHome s e p).2 c sl := by
  unfold partHome
  split
  · exact engAt_teamOnly he c sl s true _ 4
  · exact engAt_teamOnly he c sl s true _ 1
  · exact teamOnly_refl ..
  · exact teamOnly_refl ..
  · exact teamOnly_refl ..
  · exact teamOnly_refl ..

/-- What the source words of a part give. -/
def partRead (e : Eng) (early : Pl → Option (BitVec 64)) (s : State) (p : Part) : Got LandEl × State :=
  match p with
  | .shade d => (.ok ⟨none, [63], none, false, [], plShade d⟩, s)
  | .data (.other _) _ _ _ _ => (.world, s)
  | .data src dst ez lo n =>
    let z := wordsRead e early (plWords (elBytes ez) src) s
    match z.1 with
    | .ok v =>
      let bits := if ez = 0 then v.1 / 256 ^ plOfs src / 16 ^ plNib src % 16 else v.1 / 256 ^ plOfs src % 256 ^ elBytes ez
      (.ok ⟨none, ((leBytes (elBytes ez) bits).drop lo).take n, if ez = 0 then some (plNib dst, bits) else none, true, v.2, plVa dst⟩, z.2)
    | .fault _ c i a => (.fault (plVa src) c i a, z.2)
    | .world => (.world, z.2)
theorem partRead_teamOnly (early : Pl → Option (BitVec 64)) (s : State) (p : Part) : TeamOnly s (partRead e early s p).2 c sl := by
  unfold partRead
  split
  · exact teamOnly_refl ..
  · exact teamOnly_refl ..
  · next src dst ez lo n hsrc =>
    have h := wordsRead_teamOnly he c sl early (plWords (elBytes ez) src) s
    dsimp only
    split
    · exact h
    · exact h
    · exact h
omit he in
/-- A line is gathered part by part. -/
theorem gather_cons (early : Pl → Option (BitVec 64)) (p : Part) (rest : List Part) (s : State) : gather e early (p :: rest) s =
    match (partRead e early s p).1 with
    | .fault v c i a => (.fault v c i a, (partRead e early s p).2)
    | .world => (.world, (partRead e early s p).2)
    | .ok el =>
      match (partHome (partRead e early s p).2 e p).1 with
      | .fault v c i a => (.fault v c i a, (partHome (partRead e early s p).2 e p).2)
      | .world => (.world, (partHome (partRead e early s p).2 e p).2)
      | .ok d =>
        match (gather e early rest (partHome (partRead e early s p).2 e p).2).1 with
        | .ok ls => (.ok ({ el with dst := d } :: ls), (gather e early rest (partHome (partRead e early s p).2 e p).2).2)
        | g => (g, (gather e early rest (partHome (partRead e early s p).2 e p).2).2) := rfl
theorem gather_teamOnly (early : Pl → Option (BitVec 64)) : ∀ (ps : List Part) (s : State), TeamOnly s (gather e early ps s).2 c sl
  | [], s => teamOnly_refl s c sl
  | p :: ps, s => by
    have hread := partRead_teamOnly he c sl early s p
    have hhome := teamOnly_trans hread (partHome_teamOnly he c sl _ p)
    have hrest := teamOnly_trans hhome (gather_teamOnly early ps _)
    rw [gather_cons]
    split
    · exact hread
    · exact hread
    · split
      · exact hhome
      · exact hhome
      · split
        · exact hrest
        · exact hrest
end reads

/-! ### Queues and lines of a core (R201, R267) -/

theorem chanOf_setChan (s : State) (c ch : Nat) (q : List CopyCmd) : chanOf (setChan s c ch q) c ch = q := by
  unfold chanOf setChan
  rw [getCore_updCore_same]
  exact (ngetD_nsetD ..).trans (if_pos rfl)
theorem getWg_updCore (s : State) (c : Nat) (f : Core → Core) (hf : ∀ k, (f k).wgs = k.wgs) (d id : Nat) :
    getWg (updCore s c f) d id = getWg s d id := by
  unfold getWg
  rw [getCore_updCore]
  split
  · next e => rw [hf, e]
  · rfl
theorem lineFull_updCore (s : State) (c : Nat) (f : Core → Core) (hf : ∀ k, (f k).empty = k.empty) (d n : Nat) :
    lineFull (updCore s c f) d n = lineFull s d n := by
  unfold lineFull
  rw [getCore_updCore]
  split
  · next e => rw [hf, e]
  · rfl
theorem chanOf_updCore (s : State) (c : Nat) (f : Core → Core) (hf : ∀ k, (f k).chans = k.chans) (d ch : Nat) :
    chanOf (updCore s c f) d ch = chanOf s d ch := by
  unfold chanOf
  rw [getCore_updCore]
  split
  · next e => rw [hf, e]
  · rfl

theorem lineFull_markLine (s : State) (l : Nat × Nat) (c n : Nat) :
    lineFull (markLine true s l) c n = if (c, n) = l then true else lineFull s c n := by
  obtain ⟨k, j⟩ := l
  unfold lineFull markLine
  rw [getCore_updCore]
  by_cases hc : c = k
  · subst hc
    simp only [if_true, Prod.mk.injEq, true_and, List.contains_eq_mem, List.mem_filter, bne_iff_ne]
    by_cases hn : n = j
    · simp [hn]
    · simp [hn]
  · simp [hc]
/-- Marking lines full turns them full and no others. -/
theorem linesSet_markLines : ∀ (ls : List (Nat × Nat)) (s : State), LinesSet s (ls.foldl (markLine true) s) true ls
  | [], _ => fun _ _ => by simp
  | l :: ls, s => fun c n => by
    rw [List.foldl_cons, linesSet_markLines ls _ c n, lineFull_markLine]
    by_cases h : (c, n) ∈ ls
    · simp [h]
    · simp [h]
theorem linesSet_markKeys (s : State) (ks : List Nat) : LinesSet s (markKeys true s ks) true (ks.filterMap scrLineOf) :=
  linesSet_markLines (ks.filterMap scrLineOf) s
/-- The queues, teams and contexts, and every memory, do not see the bits of lines. -/
structure LinesOnly (s s' : State) : Prop extends SameQueues s s' where
  ctxs : s'.ctxs = s.ctxs
  data : DataKept s s'
  teams : ∀ c, (getCore s' c).teams = (getCore s c).teams
theorem linesOnly_markLine (full : Bool) (s : State) (l : Nat × Nat) : LinesOnly s (markLine full s l) := by
  have hcore (c : Nat) : (getCore (markLine full s l) c).wgs = (getCore s c).wgs ∧
      (getCore (markLine full s l) c).chans = (getCore s c).chans ∧ (getCore (markLine full s l) c).teams = (getCore s c).teams := by
    unfold markLine
    rw [getCore_updCore]
    split
    · next e => exact e ▸ ⟨rfl, rfl, rfl⟩
    · exact ⟨rfl, rfl, rfl⟩
  refine ⟨⟨rfl, fun c => (hcore c).1, fun c => (hcore c).2.1⟩, rfl, ?_, fun c => (hcore c).2.2⟩
  unfold markLine
  exact dataKept_updCore _ _ _ fun _ => rfl
theorem linesOnly_markLines (full : Bool) : ∀ (ls : List (Nat × Nat)) (s : State), LinesOnly s (ls.foldl (markLine full) s)
  | [], _ => ⟨⟨rfl, fun _ => rfl, fun _ => rfl⟩, rfl, fun _ _ => rfl, fun _ => rfl⟩
  | l :: ls, s => by
    obtain ⟨hq, hx, hd, ht⟩ := linesOnly_markLine full s l
    obtain ⟨kq, kx, kd, kt⟩ := linesOnly_markLines full ls (markLine full s l)
    exact ⟨sameQueues_trans hq kq, kx.trans hx, dataKept_trans hd kd, fun c => (kt c).trans (ht c)⟩
theorem linesOnly_markKeys (s : State) (ks : List Nat) : LinesOnly s (markKeys true s ks) := linesOnly_markLines ..
theorem LinesOnly.getCtx {s s' : State} (h : LinesOnly s s') (x : Nat) : getCtx s' x = getCtx s x := by
  unfold Machine.getCtx
  rw [h.ctxs]

/-- The count of a channel after a delivery (R267). -/
theorem delivered_deliver {s : State} {c wg ch : Nat} (k : Nat) (hwg : ∃ w ∈ (getCore s c).wgs, w.id = wg)
    (hch : ch < (getWg s c wg).delivered.length) :
    nth 0 (getWg (deliver s c wg ch k) c wg).delivered ch = nth 0 (getWg s c wg).delivered ch + BitVec.ofNat 64 k := by
  let f : Wg → Wg := fun w => { w with delivered := setNth w.delivered ch (nth 0 w.delivered ch + BitVec.ofNat 64 k) }
  have hmap : getWg (deliver s c wg ch k) c wg = f (getWg s c wg) := by
    obtain ⟨w0, hw0, rfl⟩ := hwg
    unfold deliver updWg getWg
    rw [getCore_updCore_same, List.find?_map]
    have hsame : ((fun w : Wg => w.id == w0.id) ∘ fun w => if w.id = w0.id then f w else w) = fun w : Wg => w.id == w0.id := by
      funext w
      dsimp only [Function.comp]
      split <;> rfl
    dsimp only
    rw [hsame]
    cases hfind : (getCore s c).wgs.find? fun w => w.id == w0.id with
    | none => exact absurd (beq_self_eq_true w0.id) (List.find?_eq_none.mp hfind w0 hw0)
    | some w =>
      have hid : w.id = w0.id := eq_of_beq (List.find?_some (p := fun w : Wg => w.id == w0.id) hfind)
      exact if_pos hid
  rw [hmap]
  show nth 0 (setNth (getWg s c wg).delivered ch _) ch = _
  simp [nth, setNth, hch]

/-! ### The landing of a part (R265, R448, R449) -/

theorem queuesKept_storeAt (s : State) (l : Loc) (bs : List Byte) : QueuesKept s (storeAt s l bs) := by
  have hun : QueuesKept s (unstand s l bs.length) := by
    unfold unstand
    split
    · exact queuesKept_of_cores rfl rfl
    · exact queuesKept_refl s
  refine queuesKept_trans hun ?_
  unfold storeAt writeLoc
  dsimp only
  split
  · exact queuesKept_of_cores rfl rfl
  · exact queuesKept_updCore _ _ _ fun _ => ⟨rfl, rfl, rfl⟩
  · exact queuesKept_of_cores rfl rfl
  · exact queuesKept_of_cores rfl rfl
theorem noteWrite_ctxs_only (s : State) (ctx seq va n : Nat) (l : Loc) :
    (noteWrite s ctx seq va n l).reqs = s.reqs ∧ (noteWrite s ctx seq va n l).cores = s.cores ∧ DataKept s (noteWrite s ctx seq va n l) := by
  have hspend : DataKept s (spendReplay s ctx seq) := dataKept_of_sameMemory (sameMemory_updLaunch ..)
  unfold noteWrite
  split
  · exact ⟨rfl, rfl, fun _ _ => rfl⟩
  · split
    · exact ⟨rfl, rfl, fun _ _ => rfl⟩
    · exact ⟨rfl, rfl, hspend⟩
  · exact ⟨rfl, rfl, hspend⟩
theorem queuesKept_putElemTag (s : State) (c b n : Nat) (t : Tag) : QueuesKept s (putElemTag s c b n t) := by
  unfold putElemTag
  exact queuesKept_updCore _ _ _ fun _ => ⟨rfl, rfl, rfl⟩
theorem dataKept_putElemTag (s : State) (c b n : Nat) (t : Tag) : DataKept s (putElemTag s c b n t) := by
  unfold putElemTag
  exact dataKept_updCore _ _ _ fun _ => rfl
theorem spreadPoison_only (s : State) (f l : Loc) : QueuesKept s (spreadPoison s f l) ∧ DataKept s (spreadPoison s f l) := by
  unfold spreadPoison poisonLine
  split
  · split
    · exact ⟨queuesKept_refl s, fun _ _ => rfl⟩
    · exact ⟨queuesKept_of_cores rfl rfl, dataKept_of_eq rfl rfl rfl fun _ => rfl⟩
  · exact ⟨queuesKept_refl s, fun _ _ => rfl⟩

/-- After its bytes a part leaves word tags, poison marks and the launch's replay. -/
def landNotes (ctx seq : Nat) (s : State) (e : LandEl) (l : Loc) : State :=
  let s2 := noteWrite s ctx seq e.va e.bs.length l
  let s3 := match l with
    | .scratch k b =>
      let s3 := putElemTag s2 k b (min e.bs.length 4) 63
      if e.bs.length = 8 then putElemTag s3 k (b + 4) 4 63 else s3
    | _ => s2
  if e.tagged then e.src.foldl (fun s f => spreadPoison s f l) s3 else s3
theorem landEl_some {e : LandEl} {l : Loc} (h : e.dst = some l) (ctx seq : Nat) (s : State) : landEl ctx seq s e =
    landNotes ctx seq (match e.nib with | some x => putElem s 0 x.1 l x.2 | none => storeAt s l e.bs) e l := by
  unfold landEl
  rw [h]
  rfl
theorem landNotes_only (ctx seq : Nat) (s : State) (e : LandEl) (l : Loc) :
    QueuesKept s (landNotes ctx seq s e l) ∧ DataKept s (landNotes ctx seq s e l) := by
  obtain ⟨hr, hc, hd⟩ := noteWrite_ctxs_only s ctx seq e.va e.bs.length l
  have hq := queuesKept_of_cores hr hc
  have poison (z : State) (hz : QueuesKept s z ∧ DataKept s z) :
      QueuesKept s (if e.tagged then e.src.foldl (fun s f => spreadPoison s f l) z else z) ∧
      DataKept s (if e.tagged then e.src.foldl (fun s f => spreadPoison s f l) z else z) := by
    obtain ⟨hzq, hzd⟩ := hz
    split
    · exact ⟨queuesKept_trans hzq (foldl_queuesKept (fun s f => (spreadPoison_only s f l).1) e.src z),
        dataKept_trans hzd (foldl_dataKept (fun s f => (spreadPoison_only s f l).2) e.src z)⟩
    · exact ⟨hzq, hzd⟩
  refine poison _ ?_
  dsimp only
  split
  · next k b =>
    have h1q := queuesKept_trans hq (queuesKept_putElemTag _ k b (min e.bs.length 4) 63)
    have h1d := dataKept_trans hd (dataKept_putElemTag _ k b (min e.bs.length 4) 63)
    split
    · exact ⟨queuesKept_trans h1q (queuesKept_putElemTag ..), dataKept_trans h1d (dataKept_putElemTag _ k (b + 4) 4 63)⟩
    · exact ⟨h1q, h1d⟩
  · exact ⟨hq, hd⟩
theorem queuesKept_landEl (ctx seq : Nat) (s : State) (e : LandEl) : QueuesKept s (landEl ctx seq s e) := by
  cases hd : e.dst with
  | none =>
    unfold landEl
    rw [hd]
    exact queuesKept_refl s
  | some l =>
    rw [landEl_some hd]
    refine queuesKept_trans ?_ (landNotes_only ..).1
    split
    · exact queuesKept_storeAt ..
    · exact queuesKept_storeAt ..
/-- A plain write changes just its own bytes. -/
theorem stored_storeAt (s : State) {l : Loc} (bs : List Byte) (hl : Known l) : Stored s (storeAt s l bs) l bs := by
  have hun : DataKept s (unstand s l bs.length) := by
    unfold unstand
    split
    · exact dataKept_of_eq rfl rfl rfl fun _ => rfl
    · exact fun _ _ => rfl
  exact stored_of_dataKept hun ⟨readLoc_writeLoc_same .., fun m hm ho => readLoc_writeLoc_other _ l m bs hl hm ho⟩ fun _ _ => rfl
theorem stored_landEl {e : LandEl} {l : Loc} (hd : e.dst = some l) (hn : e.nib = none) (hl : Known l) (ctx seq : Nat) (s : State) :
    Stored s (landEl ctx seq s e) l e.bs := by
  rw [landEl_some hd, hn]
  exact stored_of_dataKept (fun _ _ => rfl) (stored_storeAt s e.bs hl) (landNotes_only ..).2

/-! ### Completion words (R302) -/

/-- A completion word stands where its block says. -/
def WordAt (s : State) (c : Nat) (b : List DWord) (st : Nat) : Prop := bfb b 511 = true →
  readLoc s (.scratch c (bf b 448 32 % 2 ^ 20)) 8 = leBytes 8 (st % 256 + 2 ^ 32 * bf b 416 32)
theorem wordAt_of_dataKept {s s' : State} {c st : Nat} {b : List DWord} (h : WordAt s c b st) (k : DataKept s s') : WordAt s' c b st :=
  fun hb => (k ..).trans (h hb)
/-- A team of the workgroup stands on the core. -/
def Resident (s : State) (c wg : Nat) : Prop := ∃ e ∈ (getCore s c).teams, e.2.wg = wg
theorem mem_nset_of_mem {α : Type} {y : Nat × α} (k : Nat) (x : α) : ∀ {m : NMap α}, y ∈ m → y ∈ nset m k x ∨ nget m k = some y.2
  | [], h => absurd h List.not_mem_nil
  | (j, z) :: rest, h => by
    unfold nset
    split_ifs with hlt heq
    · exact .inl (List.mem_cons_of_mem _ h)
    · obtain rfl | h := List.mem_cons.mp h
      · exact .inr (by simp [nget, heq])
      · exact .inl (List.mem_cons_of_mem _ h)
    · obtain rfl | h := List.mem_cons.mp h
      · exact .inl List.mem_cons_self
      · refine (mem_nset_of_mem k x h).imp (List.mem_cons_of_mem _) fun hk => ?_
        simpa [nget, heq] using hk
theorem nset_self_mem {α : Type} (k : Nat) (x : α) : ∀ m : NMap α, (k, x) ∈ nset m k x
  | [] => List.mem_singleton_self _
  | (j, z) :: rest => by
    unfold nset
    split_ifs
    · exact List.mem_cons_self
    · exact List.mem_cons_self
    · exact List.mem_cons_of_mem _ (nset_self_mem k x rest)
theorem resident_setTeam {s : State} {c sl d wg : Nat} {t u : Team} (ht : getTeam s c sl = some t) (hu : u.wg = t.wg) (h : Resident s d wg) :
    Resident (setTeam s c sl u) d wg := by
  obtain ⟨e, he, hwg⟩ := h
  unfold Resident setTeam
  rw [getCore_updCore]
  split
  · next hd =>
    subst hd
    obtain hin | hget := mem_nset_of_mem sl u he
    · exact ⟨e, hin, hwg⟩
    · have hte : t = e.2 := Option.some.inj (ht.symm.trans hget)
      exact ⟨(sl, u), nset_self_mem .., hu.trans (hte ▸ hwg)⟩
  · exact ⟨e, he, hwg⟩
theorem resident_updCore {s : State} {c d wg : Nat} {f : Core → Core} (hf : ∀ k, (f k).teams = k.teams) (h : Resident s d wg) :
    Resident (updCore s c f) d wg := by
  unfold Resident
  rw [getCore_updCore]
  split
  · next e => rw [hf, ← e]; exact h
  · exact h

/-- The undo entry of a line is a change of one team, which stays in its workgroup. -/
theorem undoAt_spec (s : State) (c slot tid grp : Nat) (rgn : DWord) (l : Loc) : TeamOnly s (undoAt s c slot tid grp rgn l) c slot ∧
    (undoAt s c slot tid grp rgn l).ctxs = s.ctxs ∧ ∀ d wg, Resident s d wg → Resident (undoAt s c slot tid grp rgn l) d wg := by
  unfold undoAt
  split
  · exact ⟨teamOnly_refl .., rfl, fun _ _ h => h⟩
  · next t ht =>
    dsimp only
    split
    · exact ⟨teamOnly_refl .., rfl, fun _ _ h => h⟩
    · exact ⟨teamOnly_setTeam .., rfl, fun _ _ h => resident_setTeam ht rfl h⟩
/-- The word and its tags. -/
def putWord (s : State) (c byte x : Nat) : State :=
  updCore s c fun k => { k with
    bytes := putBytes k.bytes byte (leBytes 8 x), tags := nsetD 63 (nsetD 63 k.tags (byte / 4) 63) (byte / 4 + 1) 63 }
theorem readLoc_putWord (s : State) (c byte x : Nat) : readLoc (putWord s c byte x) (.scratch c byte) 8 = leBytes 8 x := by
  show getBytes (getCore (putWord s c byte x) c).bytes byte 8 = leBytes 8 x
  unfold putWord
  rw [getCore_updCore_same]
  have h := getBytes_putBytes_same (leBytes 8 x) (getCore s c).bytes byte
  rwa [length_leBytes] at h
theorem writeCompletion_eq (s : State) (c slot tid ctx seq : Nat) (rgn : DWord) (b : List DWord) (status : Nat) :
    writeCompletion s c slot tid ctx seq rgn b status 0 =
      if bfb b 511 = true then spendReplay (putWord (undoAt s c slot tid s.nextId rgn (.scratch c (bf b 448 32 % 2 ^ 20))) c
        (bf b 448 32 % 2 ^ 20) (status % 256 + 2 ^ 32 * bf b 416 32)) ctx seq else s := rfl
/-- The events of a context do not change with one of its launches. -/
theorem events_spendReplay (s : State) (x seq y : Nat) : (getCtx (spendReplay s x seq) y).events = (getCtx s y).events := by
  unfold spendReplay updLaunch updCtx
  rw [getCtx_setCtx]
  split
  · next e => rw [e]
  · rfl

/-- What completion words leave: the queues, the events, and who is resident. -/
structure WordsOnly (s s' : State) : Prop where
  queues : QueuesKept s s'
  events : ∀ x, (getCtx s' x).events = (getCtx s x).events
  resident : ∀ c wg, Resident s c wg → Resident s' c wg
theorem wordsOnly_refl (s : State) : WordsOnly s s := ⟨queuesKept_refl s, fun _ => rfl, fun _ _ h => h⟩
theorem wordsOnly_trans {s s' s'' : State} (h : WordsOnly s s') (k : WordsOnly s' s'') : WordsOnly s s'' :=
  ⟨queuesKept_trans h.queues k.queues, fun x => (k.events x).trans (h.events x), fun c wg r => k.resident c wg (h.resident c wg r)⟩
theorem wordsOnly_putWord (s : State) (c byte x : Nat) : WordsOnly s (putWord s c byte x) := by
  unfold putWord
  refine ⟨?_, fun _ => rfl, fun d wg h => ?_⟩
  · exact queuesKept_updCore _ _ _ fun _ => ⟨rfl, rfl, rfl⟩
  · refine resident_updCore ?_ h
    exact fun _ => rfl
theorem wordsOnly_undoAt (s : State) (c slot tid grp : Nat) (rgn : DWord) (l : Loc) : WordsOnly s (undoAt s c slot tid grp rgn l) := by
  obtain ⟨hon, hctxs, hres⟩ := undoAt_spec s c slot tid grp rgn l
  refine ⟨queuesKept_of_teamOnly hon, fun x => ?_, hres⟩
  unfold getCtx
  rw [hctxs]
theorem wordsOnly_spendReplay (s : State) (ctx seq : Nat) : WordsOnly s (spendReplay s ctx seq) :=
  ⟨queuesKept_of_cores rfl rfl, events_spendReplay s ctx seq, fun _ _ h => h⟩
theorem wordsOnly_writeCompletion (s : State) (c slot tid ctx seq : Nat) (rgn : DWord) (b : List DWord) (status : Nat) :
    WordsOnly s (writeCompletion s c slot tid ctx seq rgn b status 0) := by
  rw [writeCompletion_eq]
  split
  · exact wordsOnly_trans (wordsOnly_trans (wordsOnly_undoAt ..) (wordsOnly_putWord ..)) (wordsOnly_spendReplay ..)
  · exact wordsOnly_refl s
theorem wordAt_writeCompletion (s : State) (c slot tid ctx seq : Nat) (rgn : DWord) (b : List DWord) (status : Nat) :
    WordAt (writeCompletion s c slot tid ctx seq rgn b status 0) c b status := by
  intro hb
  rw [writeCompletion_eq, if_pos hb]
  exact readLoc_putWord ..

/-- The completion words of a command (R302, R318). -/
theorem wordsOnly_copyWords (s : State) (c : Nat) (m : CopyCmd) (st : Nat) : WordsOnly s (copyWords s c m st) := by
  unfold copyWords
  generalize m.slices = qs
  induction qs generalizing s with
  | nil => exact wordsOnly_refl s
  | cons q qs ih => exact wordsOnly_trans (wordsOnly_writeCompletion ..) (ih _)
theorem wordAt_copyWords (s : State) (c : Nat) {m : CopyCmd} (st : Nat) {q : CopySlice} (hq : m.slices = [q]) :
    WordAt (copyWords s c m st) c q.blk st := by
  unfold copyWords
  rw [hq]
  exact wordAt_writeCompletion s c q.slot q.tid m.ctx m.seq q.rgncnt q.blk st

/-! ### The head of a channel -/

section head
variable {s : State} {core ch : Nat} {m0 : CopyCmd} {rest : List CopyCmd}

theorem chanOf_setHead (hq : chanOf s core ch = m0 :: rest) (m : CopyCmd) : chanOf (setHead s core ch m) core ch = m :: rest := by
  unfold setHead
  rw [chanOf_setChan, hq, List.tail_cons]
variable (s core ch) (q : List CopyCmd) (m : CopyCmd)
theorem sameMemory_setChan : SameMemory s (setChan s core ch q) := by
  unfold setChan
  exact sameMemory_updCore _ _ _ fun _ => ⟨rfl, rfl, rfl⟩
theorem lineFull_setChan (c n : Nat) : lineFull (setChan s core ch q) c n = lineFull s c n := by
  unfold setChan
  exact lineFull_updCore _ _ _ (by intro _; rfl) _ _
theorem getWg_setChan (c id : Nat) : getWg (setChan s core ch q) c id = getWg s c id := by
  unfold setChan
  exact getWg_updCore _ _ _ (by intro _; rfl) _ _
theorem getTeam_setChan (c sl : Nat) : getTeam (setChan s core ch q) c sl = getTeam s c sl := by
  unfold setChan
  exact getTeam_updCore _ _ _ _ _ rfl
theorem wgs_setChan (c : Nat) : (getCore (setChan s core ch q) c).wgs = (getCore s c).wgs := by
  unfold setChan
  rw [getCore_updCore]
  split
  · next e => rw [e]
  · rfl
theorem resident_setChan {c wg : Nat} (h : Resident s c wg) : Resident (setChan s core ch q) c wg := by
  unfold setChan
  refine resident_updCore ?_ h
  exact fun _ => rfl
end head

section deliver
variable (s : State) (core wg ch k : Nat)
theorem chanOf_deliver (c n : Nat) : chanOf (deliver s core wg ch k) c n = chanOf s c n := by
  unfold deliver updWg
  exact chanOf_updCore _ _ _ (by intro _; rfl) _ _
theorem lineFull_deliver (c n : Nat) : lineFull (deliver s core wg ch k) c n = lineFull s c n := by
  unfold deliver updWg
  exact lineFull_updCore _ _ _ (by intro _; rfl) _ _
theorem dataKept_deliver : DataKept s (deliver s core wg ch k) := dataKept_of_sameMemory (sameMemory_updWg ..)
theorem resident_deliver {c x : Nat} (h : Resident s c x) : Resident (deliver s core wg ch k) c x := by
  unfold deliver updWg
  refine resident_updCore ?_ h
  exact fun _ => rfl
end deliver

/-! ### The start of a command (R266, R268) -/

theorem updTeam_kept (s : State) (c sl : Nat) (f : Team → Team) : QueuesKept s (updTeam s c sl f) ∧ SameMemory s (updTeam s c sl f) := by
  unfold updTeam
  split
  · exact ⟨queuesKept_of_teamOnly (teamOnly_setTeam ..), (teamOnly_setTeam ..).sameMemory⟩
  · exact ⟨queuesKept_refl s, (teamOnly_refl s c sl).sameMemory⟩
/-- The out-of-bounds counts of several slices. -/
theorem foldl_addOob_kept (c : Nat) (k : State → CopySlice → Nat) : ∀ (qs : List CopySlice) (s : State),
    QueuesKept s (qs.foldl (fun s q => addOob s c q.slot q.tid (k s q)) s) ∧
    SameMemory s (qs.foldl (fun s q => addOob s c q.slot q.tid (k s q)) s)
  | [], s => ⟨queuesKept_refl s, (teamOnly_refl s 0 0).sameMemory⟩
  | q :: qs, s => by
    obtain ⟨h1, h2⟩ := updTeam_kept s c q.slot fun t => if t.tid = q.tid then countOob t (k s q) else t
    obtain ⟨ih1, ih2⟩ := foldl_addOob_kept c k qs (addOob s c q.slot q.tid (k s q))
    exact ⟨queuesKept_trans h1 ih1, sameMemory_trans h2 ih2⟩
theorem getTeam_addOob {s : State} {c slot tid : Nat} {t : Team} (k : Nat) (ht : getTeam s c slot = some t) (htid : t.tid = tid) :
    getTeam (addOob s c slot tid k) c slot = some (countOob t k) := by
  unfold addOob updTeam
  rw [ht]
  dsimp only
  rw [getTeam_setTeam_same, if_pos htid]

section copy
variable {s : State} {core ch : Nat} {m : CopyCmd} {rest : List CopyCmd} (hq : chanOf s core ch = m :: rest)

/-- The status of the first slice that may not be copied. -/
def firstBad (s : State) (core : Nat) (m : CopyCmd) : Option Nat :=
  (m.slices.map (cpStatus s ⟨core, m.wg, m.ctx⟩ (recWload (getLaunch s m.ctx m.seq).words))).find? (· != 0)
/-- The state in which a starting command has counted its elements out of bounds. -/
def oobCounted (s : State) (core : Nat) (m : CopyCmd) : State :=
  if (firstBad s core m).isSome then s
  else m.slices.foldl (fun s q => addOob s core q.slot q.tid (cpOobs s ⟨core, m.wg, m.ctx⟩ q)) s
theorem startCopy_eq (s : State) (core ch : Nat) (m : CopyCmd) : startCopy s core ch m =
    setHead (oobCounted s core m) core ch { m with started := true, status := (firstBad s core m).getD 0 } := rfl

theorem oobCounted_kept (s : State) (core : Nat) (m : CopyCmd) :
    QueuesKept s (oobCounted s core m) ∧ SameMemory s (oobCounted s core m) := by
  unfold oobCounted
  split
  · exact ⟨queuesKept_refl s, (teamOnly_refl s 0 0).sameMemory⟩
  · exact foldl_addOob_kept core (fun s q => cpOobs s ⟨core, m.wg, m.ctx⟩ q) m.slices s
/-- The elements out of bounds of a command's one slice are counted by its team. -/
theorem getTeam_oobCounted {q : CopySlice} {t : Team} (hs : m.slices = [q]) (hb : firstBad s core m = none)
    (ht : getTeam s core q.slot = some t) (htid : t.tid = q.tid) :
    getTeam (oobCounted s core m) core q.slot = some (countOob t (cpOobs s ⟨core, m.wg, m.ctx⟩ q)) := by
  unfold oobCounted
  rw [hb, hs]
  exact getTeam_addOob _ ht htid

/-- What the start of the head command leaves. -/
structure Started (s s' : State) (core ch : Nat) (m : CopyCmd) (rest : List CopyCmd) : Prop where
  bytes : SameBytes s s'
  reqs : s'.reqs = s.reqs
  lines : ∀ c n, lineFull s' c n = lineFull s c n
  queue : chanOf s' core ch = { m with started := true, status := (firstBad s core m).getD 0 } :: rest
  oob : ∀ q t, m.slices = [q] → firstBad s core m = none → getTeam s core q.slot = some t → t.tid = q.tid →
    ∃ u, getTeam s' core q.slot = some u ∧ SameAllRegs t u ∧ u.oobcnt = satAdd32 t.oobcnt (cpOobs s ⟨core, m.wg, m.ctx⟩ q)
include hq

theorem started_startCopy : Started s (startCopy s core ch m) core ch m rest := by
  obtain ⟨hkept, hmem⟩ := oobCounted_kept s core m
  have hall := sameMemory_trans hmem (sameMemory_setChan (oobCounted s core m) core ch
    ({ m with started := true, status := (firstBad s core m).getD 0 } :: (chanOf (oobCounted s core m) core ch).tail))
  rw [startCopy_eq]
  refine ⟨⟨hall.mem, hall.wstore, hall.remote, fun c => ⟨(hall.scratch c).1, (hall.scratch c).2.1⟩⟩, hkept.reqs, fun c n => ?_,
    chanOf_setHead ((hkept.chanOf core ch).trans hq) _, fun q t hs hb ht htid => ?_⟩
  · exact (lineFull_setChan ..).trans (hkept.lineFull c n)
  · exact ⟨_, (getTeam_setChan ..).trans (getTeam_oobCounted hs hb ht htid), ⟨fun _ _ _ => rfl, fun _ => rfl, fun _ => rfl⟩, rfl⟩

/-! ### A line lands, or holds the channel (R266, R270) -/

/-- The next line of the head command is counted. -/
def counted (s : State) (core ch : Nat) (m : CopyCmd) : State := pulse (deliver (setHead s core ch m) core m.wg ch 1) m.ctx
theorem chanOf_counted (m' : CopyCmd) : chanOf (counted s core ch m') core ch = m' :: rest :=
  (chanOf_deliver ..).trans (chanOf_setHead hq m')
omit hq in
theorem lineFull_counted (m' : CopyCmd) (c n : Nat) : lineFull (counted s core ch m') c n = lineFull s c n :=
  (lineFull_deliver ..).trans (lineFull_setChan ..)
omit hq in
theorem dataKept_counted (m' : CopyCmd) : DataKept s (counted s core ch m') :=
  dataKept_trans (dataKept_of_sameMemory (sameMemory_setChan ..)) (dataKept_trans (dataKept_deliver _ core m'.wg ch 1)
    (dataKept_of_sameMemory (teamOnly_pulse _ _ core 0).sameMemory))
omit hq in
theorem delivered_counted (m' : CopyCmd) (hwg : ∃ w ∈ (getCore s core).wgs, w.id = m'.wg) (hch : ch < (getWg s core m'.wg).delivered.length) :
    nth 0 (getWg (counted s core ch m') core m'.wg).delivered ch = nth 0 (getWg s core m'.wg).delivered ch + 1 := by
  have hwgs : getWg (setHead s core ch m') core m'.wg = getWg s core m'.wg := getWg_setChan ..
  refine (delivered_deliver 1 ?_ ?_).trans ?_
  · unfold setHead
    rwa [wgs_setChan]
  · rwa [hwgs]
  · rw [hwgs]
    rfl

omit hq in
/-- The counters of a step see no queue and no byte. -/
theorem tallyLines_kept (s : State) (w : Nat) (pol : BitVec 2) (ls : List Loc) :
    QueuesKept s (tallyLines s w pol ls) ∧ DataKept s (tallyLines s w pol ls) := by
  have hone (z : State) (n : Nat) : QueuesKept z (tallyAt z (.hbm (128 * n)) w pol) ∧ DataKept z (tallyAt z (.hbm (128 * n)) w pol) := by
    obtain ⟨haround, hreqs, -⟩ := tallyAt_around z (.hbm (128 * n)) w pol 0 0
    exact ⟨queuesKept_of_around haround hreqs, dataKept_of_sameMemory haround.memory⟩
  unfold tallyLines
  exact ⟨foldl_queuesKept (fun z n => (hone z n).1) _ s, foldl_dataKept (fun z n => (hone z n).2) _ s⟩

/-- The parts `els` of a line that have been gathered are written, and its line turns full; `z` is the state that the gathering left. -/
def lineWritten (z : State) (m : CopyCmd) (key : Nat) (els : List LandEl) : State := markKeys true (els.foldl (landEl m.ctx m.seq) z) [key]
omit hq in
theorem linesSet_lineWritten (z : State) (m : CopyCmd) (key : Nat) (els : List LandEl) :
    LinesSet z (lineWritten z m key els) true (scrLineOf key).toList := by
  intro c n
  have hkeys : [key].filterMap scrLineOf = (scrLineOf key).toList := by
    cases h : scrLineOf key <;> simp [h]
  unfold lineWritten
  rw [linesSet_markKeys, hkeys, (foldl_queuesKept (queuesKept_landEl m.ctx m.seq) els z).lineFull]
omit hq in
theorem sameQueues_lineWritten (z : State) (m : CopyCmd) (key : Nat) (els : List LandEl) : SameQueues z (lineWritten z m key els) :=
  sameQueues_trans (foldl_queuesKept (queuesKept_landEl m.ctx m.seq) els z).toSameQueues
    (linesOnly_markKeys (els.foldl (landEl m.ctx m.seq) z) [key]).toSameQueues

/-- The completion words of a command's last line. -/
def lastWords (z : State) (core : Nat) (m : CopyCmd) : State := if m.landed + 1 = m.lines.length then copyWords z core m 0 else z
/-- The counters of a line that has landed. -/
def landTally (z : State) (core : Nat) (m : CopyCmd) (els : List LandEl) : State :=
  let q := m.slices.headD default
  tally (tallyLines (tallyLines z 0 (recPol q.srec) (els.flatMap (·.src))) 1 (recPol q.drec) (els.filterMap (·.dst))) core 9 1
omit hq in
theorem landTally_kept (z : State) (core : Nat) (m : CopyCmd) (els : List LandEl) :
    QueuesKept z (landTally z core m els) ∧ DataKept z (landTally z core m els) := by
  obtain ⟨h1, d1⟩ := tallyLines_kept z 0 (recPol (m.slices.headD default).srec) (els.flatMap (·.src))
  obtain ⟨h2, d2⟩ := tallyLines_kept (tallyLines z 0 (recPol (m.slices.headD default).srec) (els.flatMap (·.src))) 1
    (recPol (m.slices.headD default).drec) (els.filterMap (·.dst))
  have h3 := fun z : State => teamOnly_tally z core 9 1 core 0
  exact ⟨queuesKept_trans (queuesKept_trans h1 h2) (queuesKept_of_teamOnly (h3 _)),
    dataKept_trans (dataKept_trans d1 d2) (dataKept_of_sameMemory (h3 _).sameMemory)⟩
omit hq in
theorem lastWords_kept (z : State) (core : Nat) (m : CopyCmd) : QueuesKept z (lastWords z core m) := by
  unfold lastWords
  split
  · exact (wordsOnly_copyWords ..).queues
  · exact queuesKept_refl z

/-- What the landing of a line leaves, beside the line's bytes. -/
structure Landed (s s' : State) (core ch : Nat) (m m' : CopyCmd) (rest : List CopyCmd) (key : Nat) : Prop where
  queue : chanOf s' core ch = m' :: rest
  reqs : s'.reqs = s.reqs
  count : nth 0 (getWg s' core m.wg).delivered ch = nth 0 (getWg s core m.wg).delivered ch + 1
  lines : LinesSet s s' true (scrLineOf key).toList
  word : m.landed + 1 = m.lines.length → ∀ q, m.slices = [q] → WordAt s' core q.blk 0

/-- The next line of the head command lands where all its parts were gathered, in the state `z` that the gathering left. -/
def landing (z : State) (core ch : Nat) (m m' : CopyCmd) (key : Nat) (els : List LandEl) : State :=
  counted (landTally (lastWords (lineWritten z m key els) core m) core m els) core ch m'
theorem landed_landing {z : State} (hz : QueuesKept s z) {m' : CopyCmd} (hm' : m'.wg = m.wg) (key : Nat) (els : List LandEl)
    (hwg : ∃ w ∈ (getCore s core).wgs, w.id = m.wg) (hch : ch < (getWg s core m.wg).delivered.length) :
    Landed s (landing z core ch m m' key els) core ch m m' rest key := by
  obtain ⟨htally, hdata⟩ := landTally_kept (lastWords (lineWritten z m key els) core m) core m els
  have hwords := lastWords_kept (lineWritten z m key els) core m
  have hall := sameQueues_trans (sameQueues_trans hz.toSameQueues (sameQueues_lineWritten z m key els))
    (queuesKept_trans hwords htally).toSameQueues
  refine ⟨chanOf_counted ((hall.chanOf core ch).trans hq) m', hall.reqs, ?_, fun c n => ?_, fun hlast q hs => ?_⟩
  · rw [← hm'] at hwg hch ⊢
    refine (delivered_counted m' ?_ ?_).trans (by rw [hall.getWg])
    · rwa [hall.wgs]
    · rwa [hall.getWg]
  · have hlines := (queuesKept_trans hwords htally).lineFull c n
    unfold landing
    rw [lineFull_counted, hlines, linesSet_lineWritten, hz.lineFull]
  · refine wordAt_of_dataKept ?_ (dataKept_trans hdata (dataKept_counted m'))
    unfold lastWords
    rw [if_pos hlast]
    exact wordAt_copyWords _ core 0 hs
omit hq in
/-- A line of one part, before the last line, changes just the bytes of that part. -/
theorem stored_landing {z : State} (hz : DataKept s z) (m' : CopyCmd) (key : Nat) {e : LandEl} {l : Loc} (hd : e.dst = some l)
    (hn : e.nib = none) (hl : Known l) (hmore : m.landed + 1 < m.lines.length) :
    Stored s (landing z core ch m m' key [e]) l e.bs := by
  refine stored_of_dataKept hz (stored_landEl hd hn hl m.ctx m.seq z) ?_
  have hwords : lastWords (lineWritten z m key [e]) core m = lineWritten z m key [e] := if_neg (Nat.ne_of_lt hmore)
  unfold landing
  rw [hwords]
  exact dataKept_trans (linesOnly_markKeys (landEl m.ctx m.seq z e) [key]).data
    (dataKept_trans (landTally_kept _ core m [e]).2 (dataKept_counted m'))

omit hq in
/-- A command that a fault holds at its line, with the record of the fault (R270, R369). -/
theorem holdCopy_spec {z : State} (hz : chanOf z core ch = m :: rest) (parts : List (CopySlice × Part)) (va c i acc : Nat) :
    let s' := holdCopy z core ch m parts va c i acc
    SameMemory z s' ∧ chanOf s' core ch = { m with fault := c } :: rest ∧ (∀ wg, getWg s' core wg = getWg z core wg) ∧
    ∃ f ∈ (getCtx s' m.ctx).heldRecs, f.grp = m.id ∧ f.cause = c ∧ f.src = 2 ∧ f.va = va ∧ f.chan = ch := by
  unfold holdCopy queueFault updCtx
  dsimp only
  refine ⟨sameMemory_trans (sameMemory_setChan ..) (sameMemory_of_eq rfl rfl rfl rfl), chanOf_setHead hz _, fun wg => getWg_setChan .., ?_⟩
  rw [getCtx_setCtx, if_pos rfl]
  exact ⟨_, List.mem_append_right _ (List.mem_singleton_self _), rfl, rfl, rfl, rfl, rfl⟩

/-- What the parts of the next line give, its source words read now or ahead. -/
def gathered (s : State) (core : Nat) (m : CopyCmd) (parts : List (CopySlice × Part)) (low : Nat) : Got (List LandEl) × State :=
  gather (copyEng s core m) (fun w => (m.early.find? fun e => e.1 == low + (lineWords (parts.map (·.2))).idxOf w).map (·.2)) (parts.map (·.2)) s
/-- The command after its next line has landed. -/
def afterLine (m : CopyCmd) (parts : List (CopySlice × Part)) (low : Nat) : CopyCmd :=
  { m with
    landed := m.landed + 1, early := m.early.filter fun e => decide (low + (lineWords (parts.map (·.2))).length ≤ e.1) }
omit hq in
theorem gathered_teamOnly (s : State) (core : Nat) (m : CopyCmd) (parts : List (CopySlice × Part)) (low : Nat) :
    TeamOnly s (gathered s core m parts low).2 core 0 := by
  unfold gathered
  exact gather_teamOnly (e := copyEng s core m) rfl core 0 _ _ s
omit hq in
theorem landNext_ok {key low : Nat} {parts : List (CopySlice × Part)} {els : List LandEl} (hg : (gathered s core m parts low).1 = .ok els) :
    landNext s core ch m key parts low = landing (gathered s core m parts low).2 core ch m (afterLine m parts low) key els := by
  unfold landNext
  dsimp only
  rw [show (gather _ _ _ s).1 = .ok els from hg]
  rfl
omit hq in
theorem landNext_fault {key low va c i acc : Nat} {parts : List (CopySlice × Part)}
    (hg : (gathered s core m parts low).1 = .fault va c i acc) :
    landNext s core ch m key parts low = holdCopy (gathered s core m parts low).2 core ch m parts va c i acc := by
  unfold landNext
  dsimp only
  rw [show (gather _ _ _ s).1 = .fault va c i acc from hg]
  rfl
omit hq in
theorem landNext_world {key low : Nat} {parts : List (CopySlice × Part)} (hg : (gathered s core m parts low).1 = .world) :
    landNext s core ch m key parts low = setHead (gathered s core m parts low).2 core ch { m with status := 4 } := by
  unfold landNext
  dsimp only
  rw [show (gather _ _ _ s).1 = .world from hg]
  rfl

/-- One source word is read ahead of the landing of its line (R269). -/
theorem readAhead_one {p : Nat} {w : Pl} {v : Nat × Option Loc} (hf : m.fault = 0) (hst : m.status = 0)
    (hw : (allWords s ⟨core, m.wg, m.ctx⟩ m)[p]? = some w) (hlow : wordsBefore s ⟨core, m.wg, m.ctx⟩ m m.landed ≤ p)
    (hnew : ∀ e ∈ m.early, e.1 ≠ p) (hwait : plWaits s 4 w = false) (hv : (plRead s (copyEng s core m) 4 w).1 = .ok v) :
    readAhead s core ch m [p] =
      setHead (plRead s (copyEng s core m) 4 w).2 core ch { m with early := m.early ++ [(p, BitVec.ofNat 64 v.1)] } := by
  have hany : (m.early.any fun e => e.1 == p) = false := by
    rw [List.any_eq_false]
    exact fun e he => by simpa using hnew e he
  unfold readAhead
  dsimp only
  rw [List.foldl_cons, List.foldl_nil, hq, hw]
  dsimp only
  rw [hf, hst, hany, hwait, decide_eq_false (Nat.not_lt.mpr hlow), hv]
  rfl

/-! ### The events of a channel -/

/-- COPY_COMMAND_START and CPYC_COMMAND_START (R266, R272). -/
theorem execCopyCommandStart_eq : execCopyCommandStart core ch s =
    .next (if m.coll.isNone && copyMayStart s core m then startCopy s core ch m else s) := by
  unfold execCopyCommandStart
  rw [hq]
theorem execCpycCommandStart_eq : execCpycCommandStart core ch s =
    .next (if m.coll.isSome && slicesIn s core m && copyMayStart s core m then startCopy s core ch m else s) := by
  unfold execCpycCommandStart
  rw [hq]
/-- COPY_LINE_LANDS of a running command (R266, R269). -/
theorem execCopyLineLands_running (hs : m.started = true) (hst : m.status = 0) (hf : m.fault = 0) (hmore : m.landed < m.lines.length)
    (hact : ctxActive s m.ctx = true) (which : List Nat) :
    let parts := lineParts s ⟨core, m.wg, m.ctx⟩ m (nth 0 m.lines m.landed)
    execCopyLineLands core ⟨ch, which⟩ s =
      if !which.isEmpty then .next (readAhead s core ch m which)
      else if !copyReleased s core m || (lineWords (parts.map (·.2))).any (plWaits s 4) then .next s
      else .next (landNext s core ch m (nth 0 m.lines m.landed) parts (wordsBefore s ⟨core, m.wg, m.ctx⟩ m m.landed)) := by
  intro parts
  unfold execCopyLineLands
  dsimp only
  rw [hq]
  dsimp only
  rw [if_pos (by simp [hs, hst, hf, hmore, hact])]
/-- It lands the next line where nothing holds the channel back. -/
theorem execCopyLineLands_next (hs : m.started = true) (hst : m.status = 0) (hf : m.fault = 0) (hmore : m.landed < m.lines.length)
    (hact : ctxActive s m.ctx = true) (hrel : copyReleased s core m = true)
    (hwait : ∀ w ∈ lineWords ((lineParts s ⟨core, m.wg, m.ctx⟩ m (nth 0 m.lines m.landed)).map (·.2)), plWaits s 4 w = false) :
    execCopyLineLands core ⟨ch, []⟩ s = .next (landNext s core ch m (nth 0 m.lines m.landed)
      (lineParts s ⟨core, m.wg, m.ctx⟩ m (nth 0 m.lines m.landed)) (wordsBefore s ⟨core, m.wg, m.ctx⟩ m m.landed)) := by
  have hany : (lineWords ((lineParts s ⟨core, m.wg, m.ctx⟩ m (nth 0 m.lines m.landed)).map (·.2))).any (plWaits s 4) = false := by
    rw [List.any_eq_false]
    exact fun w hw => by simp [hwait w hw]
  refine (execCopyLineLands_running hq hs hst hf hmore hact []).trans ?_
  rw [hrel, hany]
  rfl
theorem execCopyLineLands_held (hrel : copyReleased s core m = false) : execCopyLineLands core ⟨ch, []⟩ s = .next s := by
  unfold execCopyLineLands
  dsimp only
  rw [hq]
  dsimp only
  rw [hrel]
  split
  · rfl
  · rfl

/-! ### The end of a command (R267, R270, R302) -/

/-- The last lines of an ending command are counted; its completion words stand, if they have not been written before. -/
def lastCounted (s : State) (core ch : Nat) (m : CopyCmd) : State :=
  deliver (markKeys true (if m.status != 0 || m.lines.isEmpty then copyWords s core m m.status else s) (m.lines.drop m.landed))
    core m.wg ch (m.lines.length - m.landed)
omit hq in
theorem signalEvent_only (z : State) (x : Nat) (b : List DWord) : ∃ cs, signalEvent z x b = { z with ctxs := cs } := by
  unfold signalEvent addEvent updCtx setCtx
  split
  · exact ⟨_, rfl⟩
  · exact ⟨z.ctxs, rfl⟩
omit hq in
theorem foldl_signalEvent_only (x : Nat) : ∀ (qs : List CopySlice) (z : State),
    ∃ cs, qs.foldl (fun z q => signalEvent z x q.blk) z = { z with ctxs := cs }
  | [], z => ⟨z.ctxs, rfl⟩
  | q :: qs, z => by
    obtain ⟨cs, h⟩ := signalEvent_only z x q.blk
    obtain ⟨cs', h'⟩ := foldl_signalEvent_only x qs (signalEvent z x q.blk)
    exact ⟨cs', by rw [List.foldl_cons, h', h]⟩
omit hq in
theorem events_signalEvent (z : State) (x : Nat) (b : List DWord) (n : Nat) : ngetD 0 (getCtx (signalEvent z x b) x).events n =
    ngetD 0 (getCtx z x).events n + if bfb b 510 = true ∧ n = bf b 498 12 then 1 else 0 := by
  unfold signalEvent addEvent updCtx
  by_cases hb : bfb b 510 = true
  · rw [if_pos hb, getCtx_setCtx, if_pos rfl]
    dsimp only
    rw [ngetD_nsetD]
    by_cases hn : n = bf b 498 12
    · rw [if_pos hn, if_pos ⟨hb, hn⟩, hn]
    · rw [if_neg hn, if_neg (fun h => hn h.2)]
      exact (add_zero _).symm
  · rw [if_neg hb, if_neg (fun h => hb h.1)]
    exact (add_zero _).symm
omit hq in
theorem monitor_only (z : State) (k b : Nat) : ∃ l f g, monitor z k b = { z with latency := l, freshCount := f, gait := g } := by
  unfold monitor
  split
  · exact ⟨z.latency, z.freshCount, z.gait, rfl⟩
  · exact ⟨_, _, _, rfl⟩
omit hq in
/-- A workgroup with a resident team stays. -/
theorem reapWg_resident {z : State} {c wg : Nat} (h : Resident z c wg) : reapWg z c wg = z := by
  have hany : ((getCore z c).teams.any fun e => e.2.wg == wg) = true := by
    obtain ⟨e, he, hwg⟩ := h
    exact List.any_eq_true.mpr ⟨e, he, beq_iff_eq.mpr hwg⟩
  unfold reapWg
  dsimp only
  rw [hany, Bool.not_true, Bool.and_false, if_neg Bool.false_ne_true]

omit hq in
theorem firstWords_only (s : State) (core : Nat) (m : CopyCmd) :
    WordsOnly s (if m.status != 0 || m.lines.isEmpty then copyWords s core m m.status else s) := by
  split
  · exact wordsOnly_copyWords ..
  · exact wordsOnly_refl s

/-- What the end of the head command leaves. -/
structure Ended (s s' : State) (core ch : Nat) (m : CopyCmd) (rest : List CopyCmd) : Prop where
  queue : chanOf s' core ch = rest
  reqs : s'.reqs = s.reqs
  count : nth 0 (getWg s' core m.wg).delivered ch =
    nth 0 (getWg s core m.wg).delivered ch + BitVec.ofNat 64 (m.lines.length - m.landed)
  lines : LinesSet s s' true ((m.lines.drop m.landed).filterMap scrLineOf)
  word : m.status ≠ 0 → ∀ q, m.slices = [q] → WordAt s' core q.blk m.status
  events : ∀ q, m.slices = [q] → ∀ n, ngetD 0 (getCtx s' m.ctx).events n =
    ngetD 0 (getCtx s m.ctx).events n + if bfb q.blk 510 = true ∧ n = bf q.blk 498 12 then 1 else 0
omit hq in
/-- The queue entry frees. -/
theorem ended_setChan (hwg : ∃ w ∈ (getCore s core).wgs, w.id = m.wg) (hch : ch < (getWg s core m.wg).delivered.length) {cs : NMap Ctx}
    (hcs : m.slices.foldl (fun z q => signalEvent z m.ctx q.blk) (lastCounted s core ch m) = { lastCounted s core ch m with ctxs := cs }) :
    Ended s (setChan { lastCounted s core ch m with ctxs := cs } core ch rest) core ch m rest := by
  let s1 := if m.status != 0 || m.lines.isEmpty then copyWords s core m m.status else s
  have hwords : WordsOnly s s1 := firstWords_only s core m
  have hmark : LinesOnly s1 (markKeys true s1 (m.lines.drop m.landed)) := linesOnly_markKeys ..
  have hqueues := sameQueues_trans hwords.queues.toSameQueues hmark.toSameQueues
  refine ⟨chanOf_setChan .., hqueues.reqs, ?_, fun c n => ?_, fun hst q hs => ?_, fun q hs n => ?_⟩
  · rw [getWg_setChan]
    refine (delivered_deliver (m.lines.length - m.landed) ?_ ?_).trans (by rw [hqueues.getWg])
    · rwa [hqueues.wgs]
    · rwa [hqueues.getWg]
  · have hdel : lineFull { lastCounted s core ch m with ctxs := cs } c n = lineFull (markKeys true s1 (m.lines.drop m.landed)) c n :=
      lineFull_deliver ..
    rw [lineFull_setChan, hdel, linesSet_markKeys, hwords.queues.lineFull]
  · have hs1 : s1 = copyWords s core m m.status := if_pos (by simp [hst])
    refine wordAt_of_dataKept (s := s1) (hs1 ▸ wordAt_copyWords s core m.status hs) (dataKept_trans hmark.data ?_)
    have hchan := dataKept_of_sameMemory (sameMemory_setChan { lastCounted s core ch m with ctxs := cs } core ch rest)
    exact dataKept_trans (dataKept_deliver _ core m.wg ch (m.lines.length - m.landed)) hchan
  · have hctx : getCtx (lastCounted s core ch m) m.ctx = getCtx s1 m.ctx := hmark.getCtx m.ctx
    show ngetD 0 (getCtx { lastCounted s core ch m with ctxs := cs } m.ctx).events n = _
    rw [← hcs, hs, List.foldl_cons, List.foldl_nil, events_signalEvent, hctx, hwords.events]

/-- COPY_COMMAND_END of a command whose lines have landed, or that delivers none (R267, R270). -/
theorem execCopyCommandEnd_done (hs : m.started = true) (hf : m.fault = 0) (hrel : copyReleased s core m = true)
    (hover : m.status ≠ 0 ∨ m.landed = m.lines.length) (hwg : ∃ w ∈ (getCore s core).wgs, w.id = m.wg)
    (hch : ch < (getWg s core m.wg).delivered.length) (hteam : Resident s core m.wg) :
    ∃ s', execCopyCommandEnd core ch s = .next s' ∧ Ended s s' core ch m rest := by
  obtain ⟨cs, hcs⟩ := foldl_signalEvent_only m.ctx m.slices (lastCounted s core ch m)
  obtain ⟨l, f, g, hmon⟩ := monitor_only (setChan { lastCounted s core ch m with ctxs := cs } core ch rest) (monChan core ch) m.born
  have hended := ended_setChan (rest := rest) hwg hch hcs
  have hstay : Resident (setChan { lastCounted s core ch m with ctxs := cs } core ch rest) core m.wg := by
    refine resident_setChan _ core ch rest ?_
    have hmark : Resident (markKeys true (if m.status != 0 || m.lines.isEmpty then copyWords s core m m.status else s)
        (m.lines.drop m.landed)) core m.wg := by
      unfold Resident
      rw [(linesOnly_markKeys ..).teams]
      exact (firstWords_only s core m).resident core m.wg hteam
    exact resident_deliver _ core m.wg ch _ hmark
  refine ⟨{ setChan { lastCounted s core ch m with ctxs := cs } core ch rest with latency := l, freshCount := f, gait := g }, ?_,
    ⟨hended.queue, hended.reqs, hended.count, hended.lines, hended.word, hended.events⟩⟩
  unfold execCopyCommandEnd
  rw [hq]
  dsimp only
  rw [if_pos (by simpa [hs, hf, hrel] using hover)]
  show Host.Outcome.next (reapWg (monitor (setChan (m.slices.foldl (fun z q => signalEvent z m.ctx q.blk) (lastCounted s core ch m)) core ch rest)
    (monChan core ch) m.born) core m.wg) = _
  rw [hcs, hmon, reapWg_resident]
  exact hstay
theorem execCopyCommandEnd_held (h : copyReleased s core m = false) : execCopyCommandEnd core ch s = .next s := by
  unfold execCopyCommandEnd
  rw [hq]
  dsimp only
  rw [h, Bool.and_false, if_neg Bool.false_ne_true]
theorem execCopyCommandEnd_early (h : m.started = false ∨ m.fault ≠ 0 ∨ (m.status = 0 ∧ m.landed ≠ m.lines.length)) :
    execCopyCommandEnd core ch s = .next s := by
  unfold execCopyCommandEnd
  rw [hq]
  dsimp only
  rw [if_neg]
  intro hgo
  simp only [Bool.and_eq_true, Bool.or_eq_true, beq_iff_eq, bne_iff_ne] at hgo
  obtain ⟨⟨⟨hs, hf⟩, hover⟩, -⟩ := hgo
  obtain h | h | ⟨hst, hl⟩ := h
  · rw [hs] at h
    exact nomatch h
  · exact h hf
  · exact hover.elim (fun h => h hst) hl
end copy

/-- Settles O48: every event of a channel is one of the steps above of the head of its queue. -/
theorem copyEvents : Obligations.CopyEvents := by
  intro s core ch m rest hq a bad started word count
  have hstarted : started (.next (startCopy s core ch m)) := by
    obtain ⟨hbytes, hreqs, hlines, hqueue, hoob⟩ := started_startCopy hq
    exact ⟨_, rfl, hbytes, hreqs, hlines, hqueue, hoob⟩
  have hcopy : exec (.copyCommandStart core ch) s = _ := execCopyCommandStart_eq hq
  have hcpyc : exec (.cpycCommandStart core ch) s = _ := execCpycCommandStart_eq hq
  refine ⟨fun hc hgo => ?_, fun hno => ?_, fun hc hin hgo => ?_, fun hno => ?_, fun hs hst hf hmore hact hwg hch => ?_,
    fun hrel => ⟨execCopyLineLands_held hq hrel, execCopyCommandEnd_held hq hrel⟩,
    fun hs hf hrel hover hwg hch hteam => ?_, execCopyCommandEnd_early hq⟩
  · rw [hcopy, if_pos (by simp [hc, hgo])]
    exact hstarted
  · rw [hcopy, if_neg (by simpa [imp_iff_not_or, Option.ne_none_iff_isSome] using hno)]
  · rw [hcpyc, if_pos (by simp [hin, hgo, Option.isSome_iff_ne_none.mpr hc])]
    exact hstarted
  · rw [hcpyc, if_neg]
    intro hgo
    simp only [Bool.and_eq_true] at hgo
    obtain ⟨⟨hc, hin⟩, hmay⟩ := hgo
    obtain h | h | h := hno
    · simp [h] at hc
    · simp [h] at hin
    · simp [h] at hmay
  · intro key parts ws low g
    let lp := lineParts s a m key
    have hkept : TeamOnly s g.2 core 0 := gathered_teamOnly s core m lp low
    have hqueues := queuesKept_of_teamOnly hkept
    have hz : chanOf g.2 core ch = m :: rest := (hqueues.chanOf core ch).trans hq
    have hnext := execCopyLineLands_next hq hs hst hf hmore hact
    refine ⟨fun hrel hwait => ⟨fun els hg => ?_, fun va c i acc hg => ?_, fun hg => ?_⟩, fun p w v hw hlow hnew hwait hv => ?_⟩
    · obtain ⟨hqueue, hreqs, hcount, hlines, hword⟩ :=
        landed_landing hq hqueues (m' := afterLine m lp low) rfl key els hwg hch
      refine ⟨_, (hnext hrel hwait).trans (congrArg Host.Outcome.next (landNext_ok (parts := lp) hg)), hqueue, hreqs, hcount, hlines, hword,
        fun e l hels hd hn hl hlast => ?_⟩
      rw [hels]
      exact stored_landing (dataKept_of_sameMemory hkept.sameMemory) _ key hd hn hl hlast
    · obtain ⟨hmem, hqueue, hwgs, hrec⟩ := holdCopy_spec hz lp va c i acc
      refine ⟨_, (hnext hrel hwait).trans (congrArg Host.Outcome.next (landNext_fault (parts := lp) hg)),
        sameMemory_trans hkept.sameMemory hmem, hqueue, ?_, hrec⟩
      exact congrArg (fun w : Wg => (nth 0 w.delivered ch).toNat) ((hwgs m.wg).trans (hqueues.getWg core m.wg))
    · exact ⟨_, (hnext hrel hwait).trans (congrArg Host.Outcome.next (landNext_world (parts := lp) hg)),
        sameMemory_trans hkept.sameMemory (sameMemory_setChan ..), chanOf_setHead hz _⟩
    · have hread := plRead_teamOnly (e := copyEng s core m) rfl core 0 s 4 w
      exact ⟨_, (execCopyLineLands_running hq hs hst hf hmore hact [p]).trans
        (congrArg Host.Outcome.next (readAhead_one hq hf hst hw hlow hnew hwait hv)),
        sameMemory_trans hread.sameMemory (sameMemory_setChan ..), hread.reqs,
        chanOf_setHead (((queuesKept_of_teamOnly hread).chanOf core ch).trans hq) _⟩
  · obtain ⟨s', hexec, hqueue, hreqs, hcount, hlines, hword, hevents⟩ := execCopyCommandEnd_done hq hs hf hrel hover hwg hch hteam
    exact ⟨s', hexec, hqueue, hreqs, hcount, hlines, hword, hevents⟩

end Sys2Proof.Proofs

/-! PROOFS. Read-modify-writes at issue, fences (O32). -/

namespace Sys2Proof.Proofs

open Sys2Proof.Machine Sys2Proof.Safety Sys2Proof.Laws

/-! ### Requests that go wherever their address has its home (R126, R360) -/

/-- A request that may go to any home, and to one member only: all but those of R441 and R444. -/
def anyHome (k : ReqKind) : Bool :=
  match k with
  | .mst .. | .rld .. => false
  | k => !needsSlice k
/-- It goes where a store to its address would. -/
theorem reroute_anyHome {r : Req} (h : anyHome r.kind = true) (s : State) :
    reroute s r = ({ (route s (asStore r)).1 with kind := r.kind }, (route s (asStore r)).2) := by
  have hslice : needsSlice r.kind = false := by
    unfold anyHome at h
    split at h
    · exact nomatch h
    · exact nomatch h
    · exact (Bool.not_eq_true' _).mp h
  have hplain : reroute s r = route s r := by
    unfold reroute
    split
    · next hk => rw [hk] at h; exact nomatch h
    · next hk => rw [hk] at h; exact nomatch h
    · rfl
  have hstore : needsSlice (asStore r).kind = false := rfl
  rw [hplain]
  simp only [route, hslice, hstore, Bool.false_and, Bool.false_eq_true, if_false]
  cases hsh : r.shadowVa with
  | none => simp only [asStore, hsh]
  | some v =>
    simp only [asStore, hsh]
    split
    · rfl
    · rfl
theorem reroute_own {s : State} {r : Req} (hk : anyHome r.kind = true) (hw : OwnWorld s r) (c sl : Nat) :
    (reroute s r).2.1 = false ∧ Routed r (reroute s r).1 ∧ SameHomes s (reroute s r).2.2 r.core ∧
    TeamOnly s (reroute s r).2.2 c sl ∧ getTeam (reroute s r).2.2 c sl = getTeam s c sl := by
  obtain ⟨hflag, hrouted, hhomes, hon, hget⟩ := route_own (s := s) (r := asStore r) rfl hw c sl
  rw [reroute_anyHome hk]
  exact ⟨hflag, routed_asStore hrouted, hhomes, hon, hget⟩

/-- Several of them, none of whose addresses lies in the other world, all go out. -/
theorem routeAll_anyHome {c : Nat} (sl : Nat) : ∀ (rs : List Req) (s : State),
    (∀ r ∈ rs, anyHome r.kind = true ∧ r.core = c ∧ OwnWorld s r) →
    (routeAll rs s).1 = false ∧ (∃ qs, (routeAll rs s).2.reqs = s.reqs ++ qs ∧ List.Forall₂ Routed rs qs) ∧
    Around s (routeAll rs s).2 c sl ∧ getTeam (routeAll rs s).2 c sl = getTeam s c sl
  | [], s, _ => ⟨rfl, ⟨[], (List.append_nil _).symm, .nil⟩, around_of_teamOnly (teamOnly_refl s c sl), rfl⟩
  | r :: rs, s, h => by
    obtain ⟨hk, rfl, hw⟩ := h r List.mem_cons_self
    obtain ⟨hflag, hrouted, hhomes, hon, hget⟩ := reroute_own (s := s) (r := { r with id := s.nextId }) hk hw r.core sl
    unfold routeAll
    dsimp only
    generalize reroute s { r with id := s.nextId } = x at hflag hrouted hhomes hon hget
    have hposted : SameHomes s (post x.2.2 x.1) r.core := sameHomes_trans hhomes (sameHomes_of_sameTables ⟨rfl, rfl, rfl, rfl, rfl, rfl⟩)
    obtain ⟨ihflag, ⟨qs, ihreqs, ihrouted⟩, ihon, ihget⟩ := routeAll_anyHome sl rs (post x.2.2 x.1) fun q hq => by
      obtain ⟨qk, qc, qw⟩ := h q (List.mem_cons_of_mem _ hq)
      exact ⟨qk, qc, fun va hva => by rw [qc, hposted, ← qc]; exact qw va hva⟩
    refine ⟨by rw [hflag, ihflag]; rfl, ⟨{ x.1 with id := x.2.2.nextId } :: qs, ?_, .cons ⟨hrouted.ask, hrouted.mine⟩ ihrouted⟩,
      around_trans (around_trans (around_of_teamOnly hon) (around_post ..)) ihon, ihget.trans ((getTeam_post ..).trans hget)⟩
    rw [ihreqs, reqs_post, hon.reqs, List.append_assoc]
    rfl
theorem sendAll_anyHome {s : State} {c sl : Nat} {t : Team} {h : Head} (p : Plan) (u : Team) {rs : List Req}
    (hrs : ∀ r ∈ rs, anyHome r.kind = true ∧ Sendable s c t (asStore r)) :
    ∃ s1 qs, sendAll (issueOf s c sl t h) p u rs = .go s1 ∧ s1.reqs = s.reqs ++ qs ∧ List.Forall₂ Routed rs qs ∧ Around s s1 c sl ∧
      getTeam s1 c sl = some u := by
  let i := issueOf s c sl t h
  let sent := rs.map fun r => { r with img := p.img, cache := p.pol }
  have hsame : SameTables s i.s c := sameTables_issueOf s c sl t h
  have hput : SameTables s (setTeam i.s c sl u) c := sameTables_trans hsame (sameTables_setTeam i.s c sl u c)
  have hheld : walkHeld i.s c i.t.tid i.t.ctx (rs.flatMap fun r => r.va :: r.shadowVa.toList) = false := by
    rw [show i.t.tid = t.tid from enterRegion_tid .., show i.t.ctx = t.ctx from enterRegion_ctx .., walkHeld_sameTables hsame _ rfl]
    refine walkHeld_all fun va hva => ?_
    obtain ⟨r, hr, hin⟩ := List.mem_flatMap.mp hva
    exact ((hrs r hr).2.own va hin).2
  obtain ⟨hflag, ⟨qs, hreqs, hrouted⟩, haround, hget⟩ := routeAll_anyHome (c := c) sl sent (setTeam i.s c sl u) fun q hq => by
    obtain ⟨r, hr, rfl⟩ := List.mem_map.mp hq
    obtain ⟨hk, -, hc, hctx, hown⟩ := hrs r hr
    refine ⟨hk, hc, fun va hva => ?_⟩
    show (homeOf _ (asStore r).core (asStore r).ctx (asStore r).write va).1.world = false
    rw [hc, hctx, homeOf_sameTables hput]
    exact (hown va hva).1
  refine ⟨(routeAll sent (setTeam i.s c sl u)).2, qs, ?_, hreqs,
    (List.forall₂_map_left_iff.mp hrouted).imp fun r q hq => ⟨hq.ask, hq.mine⟩,
    around_trans (around_of_teamOnly (teamOnly_trans (teamOnly_issueOf s c sl t h) (teamOnly_setTeam ..))) haround,
    hget.trans (getTeam_setTeam_same ..)⟩
  show (if walkHeld i.s c i.t.tid i.t.ctx (rs.flatMap fun r => r.va :: r.shadowVa.toList) = true then Res.wait
    else if (routeAll sent (setTeam i.s c sl u)).1 = true then _ else _) = _
  rw [hheld, hflag]
  rfl

/-! ### ATOM (R219, R246, R247) -/

section atom
variable {x : MM} {s : State} {c sl : Nat} {t : Team}

/-- The ten ATOMs, with their function numbers. -/
def atomForms (x : MM) : List (Instr × Nat) :=
  [(.atomAdd x, 0), (.atomUmin x, 1), (.atomUmax x, 2), (.atomSmin x, 3), (.atomSmax x, 4), (.atomAnd x, 5), (.atomOr x, 6), (.atomXor x, 7),
    (.atomExch x, 8), (.atomCas x, 9)]
/-- Each runs as its number says, and is legal where the others are. -/
theorem exec_atomForms {e : Instr × Nat} (he : e ∈ atomForms x) : exec e.1 s = atomBody e.1 e.2 x s ∧ e.1.wf = legalAtom x := by
  simp only [atomForms, List.mem_cons, List.not_mem_nil, or_false] at he
  obtain rfl | rfl | rfl | rfl | rfl | rfl | rfl | rfl | rfl | rfl := he
  all_goals exact ⟨rfl, rfl⟩
theorem legalAtom_dst (h : legalAtom x = true) : dOk x.d (pairSize x.size) = true := by
  simp only [legalAtom, Bool.and_eq_true] at h
  obtain ⟨⟨⟨⟨⟨-, hd⟩, -⟩, -⟩, -⟩, -⟩ := h
  exact hd

/-- What lane `l` of an ATOM asks its slice to do: B is the operand, the old destination the comparand. -/
def atomKind (i : Issue) (x : MM) (fn l : Nat) : ReqKind :=
  .atom fn (if pairSize x.size then .w64 else .w32) ((rd i x.b (pairSize x.size)).at_ l).bits
    ((rd i ⟨x.d, false, false⟩ (pairSize x.size)).at_ l).bits x.d (pairSize x.size)
theorem atomKind_issueOf (hr : isReg x.d = true) (fn l : Nat) : atomKind (issueOf s c sl t x.h) x fn l =
    .atom fn (if pairSize x.size then .w64 else .w32) ((rd (issueOf s c sl t x.h) x.b (pairSize x.size)).at_ l).bits
      (rdOpd s t x.d (pairSize x.size) l).bits x.d (pairSize x.size) := by
  have hold : (rd (issueOf s c sl t x.h) ⟨x.d, false, false⟩ (pairSize x.size)).at_ l = rdOpd s t x.d (pairSize x.size) l := rdOpd_entered hr
  rw [atomKind, hold]
/-- The operand image of an ATOM: that of its plan, with the comparands of a CAS (R420). -/
def atomPlan (i : Issue) (x : MM) (fn : Nat) (p : Plan) : Plan :=
  { p with
    img := if fn = 9 then
      { p.img with cmp := lanes.map fun l => if inMask i.act l then ((rd i ⟨x.d, false, false⟩ (pairSize x.size)).at_ l).bits else 0 }
      else p.img }

/-- The read-modify-writes of lanes `ls` go out, and the team `u` is put back. -/
theorem sendAll_atoms (p : Plan) (u : Team) (fn : Nat) {ls : List Nat}
    (hva : Own s c t true (ls.map (vaOf (issueOf s c sl t x.h) x (sizeBytes x.size)))) :
    let i := issueOf s c sl t x.h
    let n := sizeBytes x.size
    ∃ s1, sendAll i p u (ls.map (sliceReq i x n n (atomKind i x fn))) = .go s1 ∧ Around s s1 c sl ∧ getTeam s1 c sl = some u ∧
      ∀ s', s'.reqs = s1.reqs → Sent s s' c sl t (ls.map fun l => askMM t x true true true l (vaOf i x n l) n (atomKind i x fn l)) := by
  intro i n
  have hsend : ∀ r ∈ ls.map (sliceReq i x n n (atomKind i x fn)), anyHome r.kind = true ∧ Sendable s c t (asStore r) := by
    intro r hr
    obtain ⟨l, hl, rfl⟩ := List.mem_map.mp hr
    obtain ⟨_, _, h⟩ := sliceReq_only i x n n (atomKind i x fn) l
    rw [h]
    refine ⟨rfl, rfl, rfl, enterRegion_ctx .., fun va hin => ?_⟩
    rw [List.mem_singleton.mp hin]
    exact hva _ (List.mem_map_of_mem hl)
  obtain ⟨s1, qs, hgo, hreqs, hrouted, haround, hget⟩ := sendAll_anyHome (sl := sl) (h := x.h) p u hsend
  refine ⟨s1, hgo, haround, hget, fun s' hs' => ?_⟩
  have hsent := sent_of_routed (s' := s') (hs'.trans hreqs) hrouted fun r hr => by
    obtain ⟨l, -, rfl⟩ := List.mem_map.mp hr
    exact mine_sliceReq n n (atomKind i x fn) l
  rw [List.map_map] at hsent
  rwa [show askOf ∘ sliceReq i x n n (atomKind i x fn) = fun l => askMM t x true true true l (vaOf i x n l) n (atomKind i x fn l) from
    funext (askOf_sliceReq n n (atomKind i x fn))] at hsent

/-- ATOM empties its destination, sends a read-modify-write for each lane in bounds, and closes its region. -/
theorem atomBody_done {ins : Instr} (fn : Nat) (ci : CanIssue s c sl t x.h) (hw : ins.wf = true) (hl : legalAtom x = true)
    (ha : opdAlloc t x.d (pairSize x.size) = true) (haa : opdAlloc t x.a.o false = true) (hab : opdAlloc t x.b.o (pairSize x.size) = true) :
    let i := issueOf s c sl t x.h
    let pair := pairSize x.size
    let n := sizeBytes x.size
    let ls := served x.d (active t x.h)
    let b := rd i x.b pair
    Ready i [rd i x.a false, b] [(x.d, pair)] → CanAccess i x ls → Own s c t true ((insOf i x ls).map (vaOf i x n)) →
    releaseWaits i x true (!(insOf i x ls).isEmpty) = false →
    ∃ s' u, atomBody ins fn x s = .next s' ∧
      Sends s s' c sl (entered s t x.h) u x.d pair (active t x.h) true (satAdd32 t.oobcnt (outOf i x ls).length) ∧
      Awaits s s' t u x.d pair (insOf i x ls) (outOf i x ls) ∧
      Sent s s' c sl t ((insOf i x ls).map fun l => askMM t x true true true l (vaOf i x n l) n
        (.atom fn (if pair then .w64 else .w32) (b.at_ l).bits (rdOpd s t x.d pair l).bits x.d pair)) := by
  intro i pair n ls b hready ca hva hwaits
  have hd := legalAtom_dst hl
  have hr := dOk_reg hd
  have h7 : x.d ≠ .p 7 := fun h => by rw [h] at hd; exact nomatch hd
  have hins : ∀ l ∈ insOf i x ls, l ∈ lanesOf (active t x.h) := fun l hl => mem_lanesOf_of_served ci.some (mem_of_insOf hl)
  have hout : ∀ l ∈ outOf i x ls, l ∈ lanesOf (active t x.h) := fun l hl => mem_lanesOf_of_served ci.some (mem_of_outOf hl)
  have hins32 : ∀ l ∈ insOf i x ls, l < 32 := fun l hl => lt_of_mem_lanesOf (hins l hl)
  have hout32 : ∀ l ∈ outOf i x ls, l < 32 := fun l hl => lt_of_mem_lanesOf (hout l hl)
  let p := planOf i x (rd i x.a false) (some b) ls
  obtain ⟨w, z, hmark⟩ := markLoads_eq s c sl ha (some b) ls
  let u0 := putMarked (entered s t x.h) (outOf i x ls).length x.d pair (insOf i x ls) (outOf i x ls) w z
  obtain ⟨hcar, hlpc, hret⟩ := carried_putMarked (s := s) (t := t) x.h (outOf i x ls).length x.d pair (insOf i x ls) (outOf i x ls) w z
  obtain ⟨s1, hsend, haround, hget, hsent⟩ := sendAll_atoms (atomPlan i x fn p) u0 fn hva
  obtain ⟨u, hsends, hsame, hv, hs, hp⟩ := sends_retired (h := x.h) true (around_trans haround (around_spendReplay s1 i.t.ctx i.t.seq c sl))
    hget (sameRegs_putMarked x.h (outOf i x ls).length x.d pair _ _ w z hins hout) hcar hlpc hret
  have hread := rdOpd_putMarked x.h (outOf i x ls).length x.d pair _ _ w z hr hv hs hp
  refine ⟨_, u, ?_, hsends, ⟨fun l hl => ?_, fun l hl => ?_⟩, ?_⟩
  · unfold atomBody
    refine issue_go ci hw (by simp [recBound_of_canAccess ca, haa, hab, ha]) ((withPlan_ready hready ca).trans ?_)
    have hempty : p.ins.isEmpty = (insOf i x ls).isEmpty := List.isEmpty_map
    show (if releaseWaits i x true (!p.ins.isEmpty) = true then Res.wait
      else match sendAll i (atomPlan i x fn p) (markLoads i x.d pair p) (planReqs i x p n n (atomKind i x fn)) with
        | .go s' => Res.go (spendReplay s' i.t.ctx i.t.seq)
        | r => r) = _
    rw [hempty, hwaits, show markLoads i x.d pair p = u0 from hmark, planReqs_eq, hsend]
    rfl
  · rw [hread, rdOpd_marked_ins _ _ pair hr h7 hins32 hout32 (fun _ => not_mem_outOf) insOf_scalar hl, rdOpd_countOob x.h _ pair hr]
  · rw [hread, rdOpd_marked_out _ _ pair hr h7 hins32 hout32 (fun _ => not_mem_outOf) insOf_scalar hl]
  · have hasked := hsent _ hsame
    simp only [i, atomKind_issueOf hr] at hasked
    exact hasked
end atom

/-! ### What a fence looks at (R220, R227, R253) -/

theorem mem_keys_nset {α : Type} {j : Nat} (k : Nat) (x : α) : ∀ m : NMap α, j ∈ (nset m k x).map (·.1) ↔ j = k ∨ j ∈ m.map (·.1)
  | [] => by simp [nset]
  | (i, y) :: rest => by
    unfold nset
    split_ifs with hlt heq
    · simp
    · simp [heq]
    · rw [List.map_cons, List.map_cons, List.mem_cons, List.mem_cons, mem_keys_nset k x rest]
      exact or_left_comm
theorem mem_keys_of_nget {α : Type} {k : Nat} {y : α} : ∀ {m : NMap α}, nget m k = some y → k ∈ m.map (·.1)
  | (i, z) :: rest, h => by
    unfold nget at h
    split_ifs at h with heq
    · exact heq ▸ List.mem_cons_self
    · exact List.mem_cons_of_mem _ (mem_keys_of_nget h)
/-- A core on which a team is resident is listed. -/
theorem mem_cores_of_getTeam {s : State} {c sl : Nat} {t : Team} (h : getTeam s c sl = some t) : c ∈ s.cores.map (·.1) := by
  unfold getTeam getCore ngetD at h
  cases hc : nget s.cores c with
  | none => rw [hc] at h; exact nomatch h
  | some k => exact mem_keys_of_nget hc

section fence
variable {x : EN} {s : State} {c sl : Nat} {t : Team}

/-- The issue of a resident team's instruction changes nothing of what an acquire must drain. -/
theorem mem_seenDrains_issueOf (ht : getTeam s c sl = some t) (h : Head) {sc : Scope} {k : Nat} {v : Seen} {o : Observed} :
    o ∈ seenDrains (issueOf s c sl t h).s sc k v ↔ o ∈ seenDrains s sc k v := by
  have hkeys (j : Nat) : j ∈ (issueOf s c sl t h).s.cores.map (·.1) ↔ j ∈ s.cores.map (·.1) := by
    show j ∈ (nset s.cores c _).map (·.1) ↔ _
    rw [mem_keys_nset, or_iff_right_of_imp]
    rintro rfl
    exact mem_cores_of_getTeam ht
  unfold seenDrains
  split
  · unfold drainsOf
    rw [List.mem_map, List.mem_map]
    exact exists_congr fun j => and_congr_left' (hkeys j)
  · rfl

/-- A fence that has drained releases changes their records alone. -/
theorem fenceClears_only (sc : Scope) (k : Nat) : ∀ (seen : List Seen) (s : State), ∃ r, fenceClears s sc k seen = { s with relRecs := r }
  | [], s => ⟨s.relRecs, rfl⟩
  | v :: seen, s => by
    let ds := seenDrains s sc k v
    obtain ⟨r, hr⟩ : ∃ r, (if ds.isEmpty then s else clearLine s ds (.hbm (128 * v.line))) = { s with relRecs := r } := by
      split
      · exact ⟨s.relRecs, rfl⟩
      · exact ⟨_, rfl⟩
    obtain ⟨r', hr'⟩ := fenceClears_only sc k seen { s with relRecs := r }
    refine ⟨r', Eq.trans ?_ hr'⟩
    show fenceClears (if ds.isEmpty then s else clearLine s ds (.hbm (128 * v.line))) sc k seen = _
    rw [hr]

/-- The scope of the releases that later strong writes make once a fence has passed (R219). -/
def fenceScope (t : Team) (x : EN) : Option Scope :=
  if x.rel then some (match t.relFence with | some sc => widest sc x.scope | none => x.scope) else t.relFence
/-- What strong reads saw that an acquire fence did not have to drain. -/
def stillSeen (s : State) (c : Nat) (x : EN) (seen : List Seen) : List Seen :=
  if x.acq then seen.filter fun v => (seenDrains s x.scope c v).isEmpty else seen
/-- A fence passes whose accesses are performed and whose drains are over. -/
theorem fenceReady_issueOf (ht : getTeam s c sl = some t)
    (hreqs : ∀ q ∈ s.reqs, ¬ (q.core = c ∧ q.tid = t.tid ∧ fenceWaits x.acq x.rel x.scope q = true))
    (hdrains : x.acq = true → ∀ v ∈ t.observed, ∀ o ∈ seenDrains s x.scope c v, buffered s o.core o.bound = false) :
    fenceReady (issueOf s c sl t x.h) x = true := by
  let i := issueOf s c sl t x.h
  have htid : i.t.tid = t.tid := enterRegion_tid ..
  have hobs : i.t.observed = t.observed := entered_keeps (·.observed) s t x.h fun _ _ _ _ _ _ => rfl
  have hnone : (s.reqs.any fun q => q.core == c && q.tid == t.tid && fenceWaits x.acq x.rel x.scope q) = false := by
    rw [List.any_eq_false]
    exact fun q hq => by simpa [and_assoc] using hreqs q hq
  have hover : (!x.acq || t.observed.all fun v => (openDrains i.s (seenDrains i.s x.scope c v)).isEmpty) = true := by
    rw [Bool.or_eq_true, or_iff_not_imp_left, Bool.not_eq_true', Bool.not_eq_false, List.all_eq_true]
    intro hacq v hv
    rw [List.isEmpty_iff, openDrains, List.filter_eq_nil_iff]
    intro o ho
    rw [show buffered i.s o.core o.bound = buffered s o.core o.bound from rfl,
      hdrains hacq v hv o ((mem_seenDrains_issueOf ht x.h).mp ho)]
    exact Bool.false_ne_true
  show (!(s.reqs.any fun q => q.core == c && q.tid == i.t.tid && fenceWaits x.acq x.rel x.scope q) &&
    (!x.acq || i.t.observed.all fun v => (openDrains i.s (seenDrains i.s x.scope c v)).isEmpty)) = true
  rw [htid, hobs, hnone, hover]
  rfl

/-- A fence that passes leaves its team where step 8 puts it, with the new scope of its later releases. -/
theorem execFence_done (ci : CanIssue s c sl t x.h) (hw : (Instr.fence x).wf = true)
    (hready : fenceReady (issueOf s c sl t x.h) x = true) :
    OnlyAdvances s c sl t x.h (execFence x s) ∧ ∀ s' u, execFence x s = .next s' → getTeam s' c sl = some u →
      u.relFence = fenceScope t x ∧ u.observed = stillSeen (issueOf s c sl t x.h).s c x t.observed := by
  let i := issueOf s c sl t x.h
  let u0 : Team := { entered s t x.h with relFence := fenceScope i.t x, observed := stillSeen i.s c x i.t.observed }
  obtain ⟨r, hr⟩ : ∃ r, (if x.acq then fenceClears i.s x.scope c i.t.observed else i.s) = { i.s with relRecs := r } := by
    split
    · exact fenceClears_only ..
    · exact ⟨i.s.relRecs, rfl⟩
  let s1 := setTeam { i.s with relRecs := r } c sl u0
  have hexec : execFence x s = .next (retired i false s1) := by
    unfold execFence
    refine issue_go ci hw rfl ?_
    dsimp only
    rw [hready, if_pos rfl]
    show Res.go (setTeam (if x.acq then fenceClears i.s x.scope c i.t.observed else i.s) c sl u0) = _
    rw [hr]
  have hbase : TeamOnly s s1 c sl :=
    teamOnly_trans (teamOnly_trans (teamOnly_issueOf s c sl t x.h) (s' := i.s) (s'' := { i.s with relRecs := r })
      ⟨rfl, rfl, rfl, rfl, rfl, rfl, fun _ => ⟨rfl, rfl, rfl, rfl, rfl, rfl⟩, fun _ _ _ => rfl⟩) (teamOnly_setTeam ..)
  have hput : getTeam s1 c sl = some u0 := getTeam_setTeam_same ..
  obtain ⟨hon, u, hget, hcar, hlpc, hret⟩ := retire_spec hput (issueAddr t) (executing t) (active t x.h) x.h false false
    fun _ => issueAddr t + 1
  have hall := teamOnly_trans hbase hon
  constructor
  · obtain ⟨hv, hs, hp⟩ := hcar.maps
    obtain ⟨hcnt, hpc⟩ := hcar.region
    obtain ⟨k1, k2, k3, k4, k5, k6, k7, k8, k9, k10, k11, k12⟩ := hcar.control
    refine ⟨_, u, hexec, hget, sameAllRegs_of_maps (hv.trans (enterRegion_v ..)) (hs.trans (enterRegion_s ..)) (hp.trans (enterRegion_p ..)),
      sameFlags_entered hcar rfl rfl rfl, sameControl_trans (sameControl_entered s t x.h) ⟨k1, k2, k3, k4, k5, k6, k7, k8, k9, k10, k11, k12⟩,
      ⟨hcnt, hpc, hret⟩, fun l hl => ?_, hall.sameMemory, hall.sameUnits, hall.others⟩
    have hstood : getLpc u0 l = getLpc t l := congrArg (nth 0 · l) (enterRegion_lpc ..)
    rw [getLpc_map _ u hlpc hl, hstood, ite_self]
  · intro s' u' hout hget'
    obtain rfl := Host.Outcome.next.inj (hexec.symm.trans hout)
    obtain rfl := Option.some.inj (hget.symm.trans hget')
    exact ⟨(hcar.part (·.relFence) fun _ => rfl).trans (entered_keeps (fenceScope · x) s t x.h fun _ _ _ _ _ _ => rfl),
      (hcar.part (·.observed) fun _ => rfl).trans
        (entered_keeps (fun y => stillSeen i.s c x y.observed) s t x.h fun _ _ _ _ _ _ => rfl)⟩
end fence

/-- Settles O32: an ATOM's requests are acquiring and releasing unless ORD says otherwise; a fence passes when all that it waits for is over. -/
theorem atomicAndFenceResults : Obligations.AtomicAndFenceResults := by
  constructor
  · intro x s c sl t ci i pair n ls b halloc hready ca hva hwaits e he hw
    obtain ⟨hexec, hlegal⟩ := exec_atomForms (s := s) he
    simp only [Bool.and_eq_true] at halloc
    obtain ⟨⟨ha, haa⟩, hab⟩ := halloc
    rw [hexec]
    exact atomBody_done e.2 ci hw (hlegal ▸ hw) ha haa hab hready ca hva hwaits
  · intro x s c sl t ci hw hreqs hdrains
    have ht := getTeam_of_curTeam ci.turn
    obtain ⟨hadv, hteam⟩ := execFence_done ci hw (fenceReady_issueOf ht hreqs hdrains)
    refine ⟨hadv, fun s' u hexec hget => ?_⟩
    obtain ⟨hscope, hseen⟩ := hteam s' u hexec hget
    refine ⟨hscope, fun hacq v hv => ?_⟩
    rw [hseen, stillSeen, if_pos hacq] at hv
    have hnil := List.isEmpty_iff.mp (List.mem_filter.mp hv).2
    refine List.eq_nil_iff_forall_not_mem.mpr fun o ho => ?_
    rw [← mem_seenDrains_issueOf ht x.h, hnil] at ho
    exact List.not_mem_nil ho

end Sys2Proof.Proofs

/-! PROOFS. Scratchpad and weight-store accesses at issue (O28). -/

namespace Sys2Proof.Proofs

open Sys2Proof.Machine Sys2Proof.Safety Sys2Proof.Laws

/-! ### Requests with a known location (R216, R233) -/

/-- Request `q` is what was asked for, at that location. -/
structure Located (q : Req) (a : Ask × Loc) : Prop where
  ask : askOf q = a.1
  loc : q.loc = some a.2

/-- Requests that go out one after another take the next numbers, and change nothing else. -/
theorem foldl_post_around (c sl : Nat) : ∀ (rs : List Req) (s : State),
    Around s (rs.foldl post s) c sl ∧ getTeam (rs.foldl post s) c sl = getTeam s c sl
  | [], s => ⟨around_of_teamOnly (teamOnly_refl s c sl), rfl⟩
  | r :: rs, s => by
    obtain ⟨haround, hget⟩ := foldl_post_around c sl rs (post s r)
    exact ⟨around_trans (around_post ..) haround, hget.trans (getTeam_post ..)⟩
theorem foldl_post_reqs : ∀ (rs : List Req) (s : State), ∃ qs, (rs.foldl post s).reqs = s.reqs ++ qs ∧
    List.Forall₂ (fun r q => ∃ n, q = { r with id := n }) rs qs
  | [], s => ⟨[], (List.append_nil _).symm, .nil⟩
  | r :: rs, s => by
    obtain ⟨qs, hreqs, hsame⟩ := foldl_post_reqs rs (post s r)
    refine ⟨{ r with id := s.nextId } :: qs, ?_, .cons ⟨_, rfl⟩ hsame⟩
    rw [List.foldl_cons, hreqs, reqs_post, List.append_assoc]
    rfl
/-- What went out is what was asked for, where it was asked for. -/
theorem sentAt_of_located {s s' : State} {c sl : Nat} {t : Team} {rs qs : List Req} {as : List (Ask × Loc)} (hreqs : s'.reqs = s.reqs ++ qs)
    (hsame : List.Forall₂ (fun r q => ∃ n, q = { r with id := n }) rs qs) (has : List.Forall₂ Located rs as)
    (hmine : ∀ r ∈ rs, Mine c sl t r) : SentAt s s' c sl t as := by
  refine ⟨qs, hreqs, ?_⟩
  clear hreqs
  induction hsame generalizing as with
  | nil =>
    cases has
    exact ⟨rfl, fun _ h => absurd h List.not_mem_nil⟩
  | cons hq _ ih =>
    obtain ⟨n, rfl⟩ := hq
    cases has with
    | cons ha has =>
      rw [List.forall_mem_cons] at hmine
      obtain ⟨hmap, hall⟩ := ih has hmine.2
      refine ⟨?_, List.forall_mem_cons.mpr ⟨hmine.1, hall⟩⟩
      rw [List.map_cons, List.map_cons, hmap]
      exact congrArg (· :: _) (Prod.ext ha.ask ha.loc)

/-! ### The lanes of an access whose places are known (R194, R231, R236) -/

/-- For each lane that has a place, what is made of the two. -/
def placed {α : Type} (p : Nat → Option Loc) (f : Nat → Loc → α) (ls : List Nat) : List α := ls.filterMap fun l => (p l).map (f l)
/-- The lanes that have a place, and the others. -/
def placedIn (p : Nat → Option Loc) (ls : List Nat) : List Nat := ls.filter fun l => (p l).isSome
def placedOut (p : Nat → Option Loc) (ls : List Nat) : List Nat := ls.filter fun l => (p l).isNone

section placed
variable {p : Nat → Option Loc} {ls : List Nat}

theorem map_placed {α β : Type} (f : Nat → Loc → α) (g : α → β) (ls : List Nat) :
    (placed p f ls).map g = placed p (fun l z => g (f l z)) ls := by
  unfold placed
  rw [List.map_filterMap]
  refine List.filterMap_congr fun l _ => ?_
  rw [Option.map_map]
  rfl
theorem placed_lane : ∀ ls : List Nat, placed p (fun l _ => l) ls = placedIn p ls
  | [] => rfl
  | l :: ls => by
    have ih : ls.filterMap (fun l => (p l).map fun _ => l) = ls.filter fun l => (p l).isSome := placed_lane ls
    unfold placed placedIn
    rw [List.filterMap_cons, List.filter_cons, ih]
    cases p l <;> rfl
theorem mem_placed {α : Type} {f : Nat → Loc → α} {x : α} (h : x ∈ placed p f ls) : ∃ l ∈ ls, ∃ z, p l = some z ∧ x = f l z := by
  obtain ⟨l, hl, hx⟩ := List.mem_filterMap.mp h
  obtain ⟨z, hz, rfl⟩ := Option.map_eq_some_iff.mp hx
  exact ⟨l, hl, z, hz, rfl⟩
theorem located_placed {f : Nat → Loc → Req} {k : Nat → Ask} (hf : ∀ l z, Located (f l z) (k l, z)) : ∀ ls : List Nat,
    List.Forall₂ Located (placed p f ls) (placed p (fun l z => (k l, z)) ls)
  | [] => .nil
  | l :: ls => by
    have ih := located_placed hf ls
    unfold placed at ih ⊢
    rw [List.filterMap_cons, List.filterMap_cons]
    cases p l with
    | none => exact ih
    | some z => exact .cons (hf l z) ih
theorem mem_of_placedIn {l : Nat} (h : l ∈ placedIn p ls) : l ∈ ls := List.mem_of_mem_filter h
theorem mem_of_placedOut {l : Nat} (h : l ∈ placedOut p ls) : l ∈ ls := List.mem_of_mem_filter h
/-- No lane is on both sides. -/
theorem not_mem_placedOut {l : Nat} (h : l ∈ placedIn p ls) : l ∉ placedOut p ls := by
  intro hout
  have hsome := (List.mem_filter.mp h).2
  have hnone := (List.mem_filter.mp hout).2
  rw [Option.isNone_iff_eq_none] at hnone
  rw [hnone] at hsome
  exact nomatch hsome
/-- A scalar's one lane is on one side. -/
theorem placedIn_scalar {d : Opd} {m : Mask} (hd : isS d = true) : placedIn p (served d m) = [] ∨ placedOut p (served d m) = [] := by
  unfold placedIn placedOut served
  rw [if_pos hd, List.filter_singleton, List.filter_singleton]
  cases p (lowest m)
  · exact .inl rfl
  · exact .inr rfl
end placed

/-! ### Loads whose places are known (R233, R236, R37 step 6) -/

section load
variable {s : State} {c sl : Nat} {t : Team} {h : Head}

/-- The team that a load puts back, whatever made its plan. -/
theorem markLoads_putMarked (s : State) (c sl : Nat) (h : Head) {d : Opd} {pair : Bool} (ha : opdAlloc t d pair = true) (p : Plan) :
    ∃ w z, markLoads (issueOf s c sl t h) d pair p = putMarked (entered s t h) p.out.length d pair (p.ins.map (·.1)) p.out w z := by
  let i := issueOf s c sl t h
  have ha' : opdAlloc (countOob (entered s t h) p.out.length) d pair = true := by
    have halloc : (countOob (entered s t h) p.out.length).alloc = t.alloc := enterRegion_alloc ..
    unfold opdAlloc at ha ⊢
    rwa [halloc]
  obtain ⟨w, z, hu⟩ := pushUndo_eq i.s (marked (countOob (entered s t h) p.out.length) d pair (p.ins.map (·.1)) p.out) (undoOf i.t d pair)
  refine ⟨w, z, Eq.trans ?_ hu⟩
  unfold marked
  rw [← foldl_landZero p.out ha', List.foldl_map]
  rfl
/-- The destination of a load whose lanes are in bounds, or not. -/
theorem awaits_putMarked {d : Opd} {pair : Bool} {ins out : List Nat} {w z : List Undo} {u : Team} (hr : isReg d = true) (h7 : d ≠ .p 7)
    (hi : ∀ l ∈ ins, l < 32) (ho : ∀ l ∈ out, l < 32) (hdis : ∀ l ∈ ins, l ∉ out) (hsca : isS d = true → ins = [] ∨ out = [])
    (hv : u.v = (putMarked (entered s t h) out.length d pair ins out w z).v) (hs : u.s = (putMarked (entered s t h) out.length d pair ins out w z).s)
    (hp : u.p = (putMarked (entered s t h) out.length d pair ins out w z).p) (s' : State) : Awaits s s' t u d pair ins out := by
  have hread := rdOpd_putMarked h out.length d pair ins out w z hr hv hs hp s'
  refine ⟨fun l hl => ?_, fun l hl => ?_⟩
  · rw [hread, rdOpd_marked_ins _ _ pair hr h7 hi ho hdis hsca hl, rdOpd_countOob h out.length pair hr]
  · rw [hread, rdOpd_marked_out _ _ pair hr h7 hi ho hdis hsca hl]

/-- A load completes once its team is put back and the requests of its lanes that have a place are out. -/
theorem placedLoad_done (ci : CanIssue s c sl t h) {d : Opd} {pair : Bool} (hd : dOk d pair = true) (ha : opdAlloc t d pair = true)
    (p : Nat → Option Loc) {f : Nat → Loc → Req} {k : Nat → Ask} (hf : ∀ l y, Located (f l y) (k l, y) ∧ Mine c sl t (f l y)) {pl : Plan}
    (hins : pl.ins.map (·.1) = placedIn p (served d (active t h))) (hout : pl.out = placedOut p (served d (active t h))) :
    let i := issueOf s c sl t h
    let ls := served d (active t h)
    let s' := retired i false ((placed p f ls).foldl post (setTeam i.s c sl (markLoads i d pair pl)))
    ∃ u, Sends s s' c sl (entered s t h) u d pair (active t h) false (satAdd32 t.oobcnt (placedOut p ls).length) ∧
      Awaits s s' t u d pair (placedIn p ls) (placedOut p ls) ∧ SentAt s s' c sl t (placed p (fun l y => (k l, y)) ls) := by
  intro i ls s'
  have hr := dOk_reg hd
  have h7 : d ≠ .p 7 := fun e => by rw [e] at hd; exact nomatch hd
  have hin : ∀ l ∈ placedIn p ls, l ∈ lanesOf (active t h) := fun l hl => mem_lanesOf_of_served ci.some (mem_of_placedIn hl)
  have hno : ∀ l ∈ placedOut p ls, l ∈ lanesOf (active t h) := fun l hl => mem_lanesOf_of_served ci.some (mem_of_placedOut hl)
  obtain ⟨w, z, hmark⟩ := markLoads_putMarked s c sl h ha pl
  rw [hins, hout] at hmark
  let u0 := putMarked (entered s t h) (placedOut p ls).length d pair (placedIn p ls) (placedOut p ls) w z
  obtain ⟨hcar, hlpc, hret⟩ := carried_putMarked (s := s) (t := t) h (placedOut p ls).length d pair (placedIn p ls) (placedOut p ls) w z
  obtain ⟨haround, hkept⟩ := foldl_post_around c sl (placed p f ls) (setTeam i.s c sl u0)
  obtain ⟨qs, hreqs, hsame⟩ := foldl_post_reqs (placed p f ls) (setTeam i.s c sl u0)
  obtain ⟨u, hsends, hsent, hv, hs, hp⟩ := sends_retired (h := h) false
    (around_trans (around_of_teamOnly (teamOnly_trans (teamOnly_issueOf s c sl t h) (teamOnly_setTeam ..))) haround)
    (hkept.trans (getTeam_setTeam_same ..)) (sameRegs_putMarked h (placedOut p ls).length d pair _ _ w z hin hno) hcar hlpc hret
  have hs' : s' = retired i false ((placed p f ls).foldl post (setTeam i.s c sl u0)) := by
    show retired i false ((placed p f ls).foldl post (setTeam i.s c sl (markLoads i d pair pl))) = _
    rw [hmark]
  rw [hs']
  refine ⟨u, hsends, awaits_putMarked hr h7 (fun l hl => lt_of_mem_lanesOf (hin l hl)) (fun l hl => lt_of_mem_lanesOf (hno l hl))
    (fun _ => not_mem_placedOut) placedIn_scalar hv hs hp _, ?_⟩
  refine sentAt_of_located (hsent.trans hreqs) hsame (located_placed (fun l y => (hf l y).1) ls) fun r hr => ?_
  obtain ⟨l, -, y, -, rfl⟩ := mem_placed hr
  exact (hf l y).2
end load

/-! ### An instruction without a destination -/

/-- It is over once its requests are out and its lanes out of bounds are counted. -/
theorem sends_counted {s s1 : State} {c sl : Nat} {t : Team} {h : Head} (closes : Bool) {oob : DWord} (ha : Around s s1 c sl)
    (hg : getTeam s1 c sl = some { entered s t h with oobcnt := oob }) :
    ∃ u, Sends s (retired (issueOf s c sl t h) closes s1) c sl (entered s t h) u (.x 0) false 0 closes oob ∧
      (retired (issueOf s c sl t h) closes s1).reqs = s1.reqs := by
  obtain ⟨u, hsends, hsame, -⟩ := sends_retired (t := t) (h := h) (d := .x 0) (pair := false) (m := 0) (oob := oob) closes ha hg
    (sameRegs_of_eq _ _ _ rfl rfl rfl) rfl rfl rfl
  exact ⟨u, hsends, hsame⟩
theorem countOob_entered (s : State) (t : Team) (h : Head) (n : Nat) :
    countOob (entered s t h) n = { entered s t h with oobcnt := satAdd32 t.oobcnt n } := by
  rw [← entered_oobcnt s t h]
  rfl

/-! ### LDS (R231 to R233) -/

/-- Place of a lane's scratchpad access, if in bounds. -/
def scrPlace (i : Issue) (x : MM) (l : Nat) : Option Loc :=
  match scrLane i x l with
  | .at_ k b => some (.scratch k b)
  | _ => none
/-- What bounds leave of the lanes `ls` of a scratchpad access. -/
def scrPlan (i : Issue) (x : MM) (ls : List Nat) : ScrPlan :=
  let at_ := ls.map fun l => (l, scrLane i x l)
  ⟨at_.filterMap fun e => match e.2 with | .at_ c b => some (e.1, c, b) | _ => none,
    at_.filterMap fun e => match e.2 with | .at_ .. => none | _ => some e.1⟩

section scr
variable {i : Issue} {x : MM} {ls : List Nat}

theorem scrPlan_ins {α : Type} (f : Nat → Loc → α) (ls : List Nat) :
    (scrPlan i x ls).ins.map (fun e => f e.1 (.scratch e.2.1 e.2.2)) = placed (scrPlace i x) f ls := by
  unfold scrPlan placed
  dsimp only
  rw [List.filterMap_map, List.map_filterMap]
  refine List.filterMap_congr fun l _ => ?_
  simp only [Function.comp, scrPlace]
  cases scrLane i x l <;> rfl
theorem scrPlan_out : ∀ ls : List Nat, (scrPlan i x ls).out = placedOut (scrPlace i x) ls
  | [] => rfl
  | l :: ls => by
    have ih := scrPlan_out ls
    unfold scrPlan placedOut at ih ⊢
    simp only [List.map_cons, List.filterMap_cons, List.filter_cons] at ih ⊢
    rw [ih]
    unfold scrPlace
    cases scrLane i x l <;> rfl
theorem scrPlan_ins_isEmpty (ls : List Nat) : (scrPlan i x ls).ins.isEmpty = (placedIn (scrPlace i x) ls).isEmpty := by
  rw [← placed_lane, ← scrPlan_ins, List.isEmpty_map]

/-- Ready operands, a legal layout and no lane in the other world let a scratchpad access go on. -/
theorem withScr_ready {srcs : List Rd} {dsts : List (Opd × Bool)} (h : Ready i srcs dsts) (hlog : logFull i.s i.core = false)
    (hlay : layoutLegal i x = true) (hown : ∀ l ∈ ls, scrLane i x l ≠ .world) (k : ScrPlan → Res) :
    withScr i x srcs dsts ls k = k (scrPlan i x ls) := by
  have hworld : ((ls.map fun l => (l, scrLane i x l)).any fun e => e.2 == .world) = false := by
    rw [List.any_map, List.any_eq_false]
    exact fun l hl => by simpa using hown l hl
  unfold withScr
  rw [gate_ready h]
  simp only [hlog, hlay, hworld, Bool.not_true, Bool.false_eq_true, if_false]
  rfl
/-- Where every line is full, no lane waits for one (R202). -/
theorem emptyLanes_scrPlan {s : State} (hfull : ∀ l ∈ ls, ∀ k b, scrLane i x l = .at_ k b → lineFull s k (b / 128) = true) :
    emptyLanes s (scrPlan i x ls) = 0 := by
  have hnone : ((scrPlan i x ls).ins.filter fun e => !lineFull s e.2.1 (e.2.2 / 128)) = [] := by
    rw [List.filter_eq_nil_iff]
    intro e he
    obtain ⟨y, hy, hey⟩ := List.mem_filterMap.mp he
    obtain ⟨l, hl, rfl⟩ := List.mem_map.mp hy
    cases hat : scrLane i x l with
    | at_ k b =>
      simp only [hat, Option.some.injEq] at hey
      rw [← hey, hfull l hl k b hat]
      exact Bool.false_ne_true
    | oob => simp [hat] at hey
    | world => simp [hat] at hey
  unfold emptyLanes
  rw [hnone]
  decide
end scr

section lds
variable {x : MM} {s : State} {c sl : Nat} {t : Team}

/-- An issue turns no line full or empty. -/
theorem lineFull_issueOf (s : State) (c sl : Nat) (t : Team) (h : Head) (k n : Nat) : lineFull (issueOf s c sl t h).s k n = lineFull s k n := by
  obtain ⟨-, -, hempty, -⟩ := (teamOnly_issueOf s c sl t h).core k
  unfold lineFull
  rw [hempty]
/-- LDS and STS do not wait for lines that are full, or that their cache hint forgoes (R202, R232). -/
theorem emptyLanes_wait {ls : List Nat} (hfull : x.cache = 0 → ∀ l ∈ ls, ∀ k b, scrLane (issueOf s c sl t x.h) x l = .at_ k b →
    lineFull s k (b / 128) = true) :
    (x.cache == 0 && emptyLanes (issueOf s c sl t x.h).s (scrPlan (issueOf s c sl t x.h) x ls) != 0) = false := by
  by_cases hc : x.cache = 0
  · rw [emptyLanes_scrPlan fun l hl k b hat => (lineFull_issueOf ..).trans (hfull hc l hl k b hat)]
    simp
  · rw [beq_false_of_ne hc, Bool.false_and]

/-- The read of lane `l` at its place. -/
def ldsReq (i : Issue) (x : MM) (f : LoadFmt) (l : Nat) (y : Loc) : Req :=
  { Machine.ordOf x false (mkReq i l (.lds x.d (pairSize x.size) f)) with
    loc := some y, n := sizeBytes x.size, read := true, cache := x.cache }
theorem located_ldsReq (f : LoadFmt) (l : Nat) (y : Loc) : Located (ldsReq (issueOf s c sl t x.h) x f l y)
    (askMM t x false true false l 0 (sizeBytes x.size) (.lds x.d (pairSize x.size) f), y) := by
  refine ⟨?_, rfl⟩
  rw [askMM_read]
  simp [askOf, ldsReq, Machine.ordOf, mkReq]

/-- LDS marks its destination and sends a read for each lane in bounds (R233). -/
theorem execLds_done (ci : CanIssue s c sl t x.h) (hlog : logFull s c = false) (hw : (Instr.lds x).wf = true)
    (hops : (opdAlloc t x.d (pairSize x.size) && scrAlloc t x) = true) :
    let i := issueOf s c sl t x.h
    let pair := pairSize x.size
    let ls := served x.d (active t x.h)
    let f := loadFmt (slotFmt (recSlot (recordOf s t) x.slot.toNat)) x.size
    Ready i (scrSrcs i x) [(x.d, pair)] → layoutLegal i x = true → (∀ l ∈ ls, scrLane i x l ≠ .world) →
    (x.cache = 0 → ∀ l ∈ ls, ∀ k b, scrLane i x l = .at_ k b → lineFull s k (b / 128) = true) →
    ∃ s' u, execLds x s = .next s' ∧
      Sends s s' c sl (entered s t x.h) u x.d pair (active t x.h) false (satAdd32 t.oobcnt (placedOut (scrPlace i x) ls).length) ∧
      Awaits s s' t u x.d pair (placedIn (scrPlace i x) ls) (placedOut (scrPlace i x) ls) ∧
      SentAt s s' c sl t (placed (scrPlace i x)
        (fun l y => (askMM t x false true false l 0 (sizeBytes x.size) (.lds x.d pair f), y)) ls) := by
  intro i pair ls f hready hlay hown hfull
  have hd : dOk x.d (pairSize x.size) = true := by
    simp only [Instr.wf, legal, legalLds, Bool.and_eq_true] at hw
    obtain ⟨⟨⟨⟨⟨-, hd⟩, -⟩, -⟩, -⟩, -⟩ := hw
    exact hd
  have ha := (Bool.and_eq_true_iff.mp hops).1
  let p := scrPlan i x ls
  let pl : Plan := ⟨0, default, p.ins.map fun e => (e.1, 0), p.out, 2⟩
  have hins : pl.ins.map (·.1) = placedIn (scrPlace i x) ls := by
    rw [← placed_lane, ← scrPlan_ins]
    exact List.map_map
  obtain ⟨u, hdone⟩ := placedLoad_done ci hd ha (scrPlace i x) (f := ldsReq i x f)
    (fun l y => ⟨located_ldsReq f l y, mine_mkReq s c sl t x.h l (.lds x.d pair f)⟩) (pl := pl) hins (scrPlan_out ls)
  refine ⟨_, u, ?_, hdone⟩
  unfold execLds
  refine issue_go ci hw hops ((withScr_ready hready ((logFull_issueOf ..).trans hlog) hlay hown _).trans ?_)
  show (if (x.cache == 0 && emptyLanes i.s p != 0) = true then _ else
    Res.go ((p.ins.map fun e => ldsReq i x (loadFmt (slotFmt (recSlot (wordsOf i) x.slot.toNat)) x.size) e.1 (.scratch e.2.1 e.2.2)).foldl post
      (setTeam i.s c sl (markLoads i x.d pair pl)))) = _
  rw [emptyLanes_wait hfull, words_issueOf, scrPlan_ins]
  rfl
end lds

/-! ### STS (R234) -/

/-- The first of asks in ascending lanes gives way to any later one at its location, and takes part in no other choice. -/
theorem lastStoresAt_cons {a : Ask × Loc} {as : List (Ask × Loc)} (h : ∀ b ∈ as, a.1.lane < b.1.lane) :
    lastStoresAt (a :: as) = (if as.any fun b => b.2 == a.2 then (blank a.1, a.2) else a) :: lastStoresAt as := by
  have hhead : ((a :: as).any fun b => b.2 == a.2 && decide (a.1.lane < b.1.lane)) = as.any fun b => b.2 == a.2 := by
    rw [List.any_cons, decide_eq_false (Nat.lt_irrefl _), Bool.and_false, Bool.false_or]
    refine any_congr_mem fun b hb => ?_
    rw [decide_eq_true (h b hb), Bool.and_true]
  unfold lastStoresAt
  rw [List.map_cons, hhead]
  refine congrArg _ (List.map_congr_left fun b hb => ?_)
  rw [List.any_cons, decide_eq_false (Nat.lt_asymm (h b hb)), Bool.and_false, Bool.false_or]
/-- Requests without an address are told apart by their locations. -/
theorem any_located {r : Req} {a : Ask × Loc} (hra : Located r a) (hr : r.va = 0) : ∀ {rs : List Req} {as : List (Ask × Loc)},
    List.Forall₂ Located rs as → (∀ q ∈ rs, q.va = 0) → (rs.any fun q => q.va == r.va && q.loc == r.loc) = as.any fun b => b.2 == a.2
  | [], _, h, _ => by cases h; rfl
  | q :: rs, _, h, hva => by
    cases h with
    | cons hq has =>
      obtain ⟨hq0, hrest⟩ := List.forall_mem_cons.mp hva
      rw [List.any_cons, List.any_cons, any_located hra hr has hrest, hq0, hr, hq.loc, hra.loc]
      rfl
/-- Of requests without an address, in ascending lanes, those that still store are the last at their locations. -/
theorem located_lastWriters : ∀ {rs : List Req} {as : List (Ask × Loc)}, List.Forall₂ Located rs as → (∀ r ∈ rs, r.va = 0) →
    as.Pairwise (fun a b => a.1.lane < b.1.lane) → List.Forall₂ Located (lastWriters rs) (lastStoresAt as)
  | [], _, h, _, _ => by cases h; exact .nil
  | r :: rs, _, h, hva, hlanes => by
    cases h with
    | cons hr has =>
      obtain ⟨hlt, hrest⟩ := List.pairwise_cons.mp hlanes
      obtain ⟨hr0, hva⟩ := List.forall_mem_cons.mp hva
      rw [lastWriters_cons, lastStoresAt_cons hlt, any_located hr hr0 has hva]
      refine .cons ?_ (located_lastWriters has hva hrest)
      split
      · exact ⟨(askOf_silenced r).trans (congrArg blank hr.ask), hr.loc⟩
      · exact hr

section sts
variable {x : MM} {s : State} {c sl : Nat} {t : Team}

/-- The write of lane `l` at its place: the element of D and its tag. -/
def stsReq (i : Issue) (x : MM) (l : Nat) (y : Loc) : Req :=
  let d := rd i ⟨x.d, false, false⟩ (pairSize x.size)
  fenced i.t
    { Machine.ordOf x false (mkReq i l (.sts (leBytes (sizeBytes x.size) (d.at_ l).bits.toNat) (d.at_ l).tag (pairSize x.size))) with
      loc := some y, n := sizeBytes x.size, write := true, cache := x.cache }
/-- What it asks for. -/
def stsAsk (i : Issue) (t : Team) (x : MM) (l : Nat) : Ask :=
  let v := rdOpd i.s i.t x.d (pairSize x.size) l
  askMM t x false false true l 0 (sizeBytes x.size) (.sts (leBytes (sizeBytes x.size) v.bits.toNat) v.tag (pairSize x.size))
theorem stsReq_only (i : Issue) (x : MM) (l : Nat) (y : Loc) : ∃ k a b, stsReq i x l y =
    { Machine.ordOf x false (mkReq i l k) with
      loc := some y, n := sizeBytes x.size, write := true, cache := x.cache, rel := a, relScope := b } :=
  ⟨_, fenced_only ..⟩
theorem located_stsReq (l : Nat) (y : Loc) : Located (stsReq (issueOf s c sl t x.h) x l y) (stsAsk (issueOf s c sl t x.h) t x l, y) := by
  have hfence : (issueOf s c sl t x.h).t.relFence = t.relFence := entered_keeps (·.relFence) s t x.h fun _ _ _ _ _ _ => rfl
  constructor
  · unfold stsReq stsAsk fenced askMM
    rw [hfence]
    cases t.relFence with
    | none => simp [askOf, Machine.ordOf, mkReq, rd]
    | some sc =>
      by_cases hs : (x.ord != .weak) = true
      · simp [askOf, Machine.ordOf, mkReq, hs, rd]
      · simp [askOf, Machine.ordOf, mkReq, hs, rd]
  · obtain ⟨_, _, _, h⟩ := stsReq_only (issueOf s c sl t x.h) x l y
    rw [h]
theorem mine_stsReq (l : Nat) (y : Loc) : Mine c sl t (stsReq (issueOf s c sl t x.h) x l y) := by
  obtain ⟨k, _, _, h⟩ := stsReq_only (issueOf s c sl t x.h) x l y
  rw [h]
  exact mine_mkReq s c sl t x.h l k
theorem placed_lanes_ascending {α : Type} (p : Nat → Option Loc) (f : Nat → Loc → α) (lane : α → Nat) (hf : ∀ l y, lane (f l y) = l)
    {ls : List Nat} (hls : ls.Pairwise (· < ·)) : (placed p f ls).Pairwise fun a b => lane a < lane b := by
  rw [← List.pairwise_map (f := lane), map_placed]
  simp only [hf]
  rw [placed_lane]
  exact hls.filter _

/-- A store none of whose lanes is in bounds waits for nothing if it releases nothing, or if all that it releases is done (R226). -/
theorem lateRelease_false {i : Issue} {ls : List Nat} (h : x.ord = .rel → (∀ l ∈ ls, scrPlace i x l = none) →
    teamDone i.s i.core i.t.tid (fun q => !isTicketRead q) = true) :
    (x.ord == .rel && (scrPlan i x ls).ins.isEmpty && !teamDone i.s i.core i.t.tid fun q => !isTicketRead q) = false := by
  by_contra hwait
  simp only [Bool.not_eq_false, Bool.and_eq_true, beq_iff_eq, Bool.not_eq_true', scrPlan_ins_isEmpty, List.isEmpty_iff,
    placedIn, List.filter_eq_nil_iff, Option.isSome_iff_ne_none, ne_eq, not_not] at hwait
  obtain ⟨⟨hrel, hnone⟩, hopen⟩ := hwait
  rw [h hrel hnone] at hopen
  exact nomatch hopen

/-- STS sends a write for each lane in bounds, of which the highest lane's at a location stores (R234). -/
theorem execSts_done (ci : CanIssue s c sl t x.h) (hlog : logFull s c = false) (hw : (Instr.sts x).wf = true)
    (hops : (opdAlloc t x.d (pairSize x.size) && scrAlloc t x) = true) :
    let i := issueOf s c sl t x.h
    let ls := lanesOf (active t x.h)
    Ready i (scrSrcs i x ++ [rd i ⟨x.d, false, false⟩ (pairSize x.size)]) [] → layoutLegal i x = true → (∀ l ∈ ls, scrLane i x l ≠ .world) →
    (x.cache = 0 → ∀ l ∈ ls, ∀ k b, scrLane i x l = .at_ k b → lineFull s k (b / 128) = true) →
    (x.ord = .rel → (∀ l ∈ ls, scrPlace i x l = none) → teamDone s c t.tid (fun q => !isTicketRead q) = true) →
    ∃ s' u, execSts x s = .next s' ∧
      Sends s s' c sl (entered s t x.h) u (.x 0) false 0 (x.ord == .rel) (satAdd32 t.oobcnt (placedOut (scrPlace i x) ls).length) ∧
      SentAt s s' c sl t (lastStoresAt (placed (scrPlace i x) (fun l y => (stsAsk i t x l, y)) ls)) := by
  intro i ls hready hlay hown hfull hdone
  let p := scrPlan i x ls
  let u0 := countOob (entered s t x.h) (placedOut (scrPlace i x) ls).length
  let rs := placed (scrPlace i x) (stsReq i x) ls
  obtain ⟨haround, hkept⟩ := foldl_post_around c sl (lastWriters rs) (setTeam i.s c sl u0)
  obtain ⟨qs, hreqs, hsame⟩ := foldl_post_reqs (lastWriters rs) (setTeam i.s c sl u0)
  obtain ⟨u, hsends, hsent⟩ := sends_counted (h := x.h) (x.ord == .rel)
    (around_trans (around_of_teamOnly (teamOnly_trans (teamOnly_issueOf s c sl t x.h) (teamOnly_setTeam ..))) haround)
    (hkept.trans ((getTeam_setTeam_same ..).trans (congrArg some (countOob_entered ..))))
  refine ⟨_, u, ?_, hsends, ?_⟩
  · unfold execSts
    refine issue_go ci hw hops ((withScr_ready hready ((logFull_issueOf ..).trans hlog) hlay hown _).trans ?_)
    have hlate := lateRelease_false (x := x) (i := i) (ls := ls) fun hrel hnone => by
      rw [show i.t.tid = t.tid from enterRegion_tid ..]
      exact hdone hrel hnone
    show (if ((x.ord == .rel && p.ins.isEmpty && !teamDone i.s i.core i.t.tid fun q => !isTicketRead q) ||
        (x.cache == 0 && emptyLanes i.s p != 0)) = true then Res.wait else
      Res.go ((lastWriters (p.ins.map fun e => stsReq i x e.1 (.scratch e.2.1 e.2.2))).foldl post
        (setTeam i.s c sl (countOob (entered s t x.h) p.out.length)))) = _
    rw [hlate, emptyLanes_wait hfull, scrPlan_ins, scrPlan_out]
    rfl
  · refine sentAt_of_located (hsent.trans hreqs) hsame (located_lastWriters (located_placed located_stsReq ls) (fun r hr => ?_) ?_) fun q hq => ?_
    · obtain ⟨l, -, y, -, rfl⟩ := mem_placed hr
      obtain ⟨_, _, _, h⟩ := stsReq_only i x l y
      rw [h]
      rfl
    · exact placed_lanes_ascending _ _ (fun a : Ask × Loc => a.1.lane) (fun _ _ => rfl) (lanesOf_ascending _)
    · obtain ⟨r, hr, hqr⟩ := mem_lastWriters hq
      obtain ⟨l, -, y, -, rfl⟩ := mem_placed hr
      obtain rfl | rfl := hqr
      · exact mine_stsReq l y
      · exact mine_stsReq l y
end sts

/-! ### LDW (R236) -/

section ldw
variable {x : MM} {s : State} {c sl : Nat} {t : Team}

/-- Place of a lane's weight-store access, if in bounds. -/
def weightPlace (i : Issue) (x : MM) (l : Nat) : Option Nat :=
  weightAt i.core (x.brec == 1) (((rd i x.a false).at_ l).bits.toNat % 2 ^ 32) (sx x.ofs.toNat 21) (sizeBytes x.size)
/-- The read of lane `l` at its place. -/
def ldwReq (i : Issue) (x : MM) (f : LoadFmt) (l : Nat) (y : Loc) : Req :=
  { mkReq i l (.load x.d (pairSize x.size) f) with loc := some y, n := sizeBytes x.size, read := true }
theorem weightPlan_ins {α : Type} (w : Nat → Option Nat) (f : Nat → Loc → α) (ls : List Nat) :
    ((ls.map fun l => (l, w l)).filterMap fun e => e.2.map fun b => (e.1, b)).map (fun e => f e.1 (.weight e.2)) =
      placed (fun l => (w l).map Loc.weight) f ls := by
  unfold placed
  rw [List.filterMap_map, List.map_filterMap]
  refine List.filterMap_congr fun l _ => ?_
  simp only [Function.comp]
  cases w l <;> rfl
theorem weightPlan_out (w : Nat → Option Nat) (ls : List Nat) :
    ((ls.map fun l => (l, w l)).filter fun e => e.2.isNone).map (·.1) = placedOut (fun l => (w l).map Loc.weight) ls := by
  unfold placedOut
  rw [List.filter_map, List.map_map]
  simp [Function.comp_def]

/-- LDW marks its destination and sends a read for each lane in bounds. -/
theorem execLdw_done (ci : CanIssue s c sl t x.h) (hlog : logFull s c = false) (hw : (Instr.ldw x).wf = true)
    (hops : (opdAlloc t x.d (pairSize x.size) && opdAlloc t x.a.o false) = true) :
    let i := issueOf s c sl t x.h
    let pair := pairSize x.size
    let ls := served x.d (active t x.h)
    let f := loadFmt (slotFmt (recSlot (recordOf s t) x.slot.toNat)) x.size
    let place := fun l => (weightPlace i x l).map Loc.weight
    Ready i [rd i x.a false] [(x.d, pair)] →
    (∀ l ∈ ls, ∀ b, weightPlace i x l = some b → weightSecure s b = (getCore s c).world) →
    ∃ s' u, execLdw x s = .next s' ∧
      Sends s s' c sl (entered s t x.h) u x.d pair (active t x.h) false (satAdd32 t.oobcnt (placedOut place ls).length) ∧
      Awaits s s' t u x.d pair (placedIn place ls) (placedOut place ls) ∧
      SentAt s s' c sl t (placed place (fun l y => (askPlain true false l 0 (sizeBytes x.size) (.load x.d pair f), y)) ls) := by
  intro i pair ls f place hready hown
  have hd : dOk x.d (pairSize x.size) = true := by
    simp only [Instr.wf, legal, legalLdw, Bool.and_eq_true] at hw
    obtain ⟨⟨⟨⟨⟨⟨⟨⟨-, hd⟩, -⟩, -⟩, -⟩, -⟩, -⟩, -⟩, -⟩ := hw
    exact hd
  have ha := (Bool.and_eq_true_iff.mp hops).1
  let at_ := ls.map fun l => (l, weightPlace i x l)
  let ins := at_.filterMap fun e => e.2.map fun w => (e.1, w)
  let pl : Plan := ⟨0, default, ins.map fun e => (e.1, 0), (at_.filter fun e => e.2.isNone).map (·.1), 2⟩
  have hins : pl.ins.map (·.1) = placedIn place ls := by
    rw [← placed_lane, ← weightPlan_ins]
    exact List.map_map
  have hworld : (at_.any fun e => match e.2 with | some w => weightSecure i.s w != (getCore i.s i.core).world | none => false) = false := by
    rw [List.any_map, List.any_eq_false]
    intro l hl
    have hcore : (getCore i.s i.core).world = (getCore s c).world := core_setTeam (·.world) (fun _ _ => rfl) ..
    have hsecure (b : Nat) : weightSecure i.s b = weightSecure s b := rfl
    simp only [Function.comp, hcore, hsecure]
    cases hat : weightPlace i x l with
    | none => exact Bool.false_ne_true
    | some b => simp [hown l hl b hat]
  obtain ⟨u, hdone⟩ := placedLoad_done ci hd ha place (f := ldwReq i x f)
    (k := fun l => askPlain true false l 0 (sizeBytes x.size) (.load x.d pair f))
    (fun l y => ⟨⟨rfl, rfl⟩, mine_mkReq s c sl t x.h l (.load x.d pair f)⟩) (pl := pl) hins (weightPlan_out ..)
  refine ⟨_, u, ?_, hdone⟩
  unfold execLdw
  refine issue_go ci hw hops ?_
  dsimp only
  rw [gate_ready hready]
  show (if logFull i.s c = true then Res.wait else
    if (at_.any fun e => match e.2 with | some w => weightSecure i.s w != (getCore i.s i.core).world | none => false) = true then _ else
    Res.go ((ins.map fun e => ldwReq i x (loadFmt (slotFmt (recSlot (wordsOf i) x.slot.toNat)) x.size) e.1 (.weight e.2)).foldl post
      (setTeam i.s c sl (markLoads i x.d pair pl)))) = _
  rw [hworld, logFull_issueOf, hlog, words_issueOf, weightPlan_ins]
  rfl
end ldw

/-- Settles O28: LDS, STS and LDW send a request for each lane that has a place; LDS and LDW await theirs, of the writes of STS the highest lane's
at a location stores. -/
theorem scratchpadIssue : Obligations.ScratchpadIssue := by
  intro x s c sl t ci hlog i pair n f place fine ins out asks loads
  refine ⟨fun hw hops hready hlay hfine => ?_, fun hw hops hready hlay hfine hdone => ?_,
    fun hw hops hready hown => execLdw_done ci hlog hw hops hready hown⟩
  · obtain ⟨hown, hfull⟩ := hfine
    exact execLds_done ci hlog hw hops hready hlay hown hfull
  · obtain ⟨hown, hfull⟩ := hfine
    exact execSts_done ci hlog hw hops hready hlay hown hfull hdone

end Sys2Proof.Proofs

/-! PROOFS. Line full/empty instructions, spill and fill (O29). -/

namespace Sys2Proof.Proofs

open Sys2Proof.Machine Sys2Proof.Safety Sys2Proof.Laws

/-! ### Lines turned full or empty (R195, R202, R255) -/

theorem mem_insAsc {x y : Nat} : ∀ {ls : List Nat}, y ∈ insAsc x ls ↔ y = x ∨ y ∈ ls
  | [] => by simp [insAsc]
  | z :: ls => by
    unfold insAsc
    split_ifs with hlt heq
    · exact List.mem_cons
    · subst heq
      simp
    · rw [List.mem_cons, mem_insAsc, List.mem_cons]
      exact or_left_comm
theorem lineFull_markLine_empty (s : State) (z : Nat × Nat) (c n : Nat) :
    lineFull (markLine false s z) c n = if (c, n) = z then false else lineFull s c n := by
  obtain ⟨k, j⟩ := z
  unfold lineFull markLine
  rw [getCore_updCore]
  by_cases hc : c = k
  · subst hc
    by_cases hn : n = j
    · simp [hn, mem_insAsc]
    · simp [hn, mem_insAsc]
  · simp [hc]
/-- Marking lines empty turns them empty and no others. -/
theorem linesSet_clearLines : ∀ (ls : List (Nat × Nat)) (s : State), LinesSet s (ls.foldl (markLine false) s) false ls
  | [], _ => fun _ _ => by simp
  | z :: ls, s => fun c n => by
    rw [List.foldl_cons, linesSet_clearLines ls _ c n, lineFull_markLine_empty]
    by_cases h : (c, n) ∈ ls
    · simp [h]
    · simp [h]
theorem linesSet_foldl_markLine (full : Bool) (ls : List (Nat × Nat)) (s : State) : LinesSet s (ls.foldl (markLine full) s) full ls := by
  cases full
  · exact linesSet_clearLines ls s
  · exact linesSet_markLines ls s

/-- All but the F/E bits of lines is as it was. -/
structure BitsOnly (s s' : State) : Prop where
  bytes : SameBytes s s'
  reqs : s'.reqs = s.reqs
  engines : SameEngines s s'
  teams : ∀ c sl, getTeam s' c sl = getTeam s c sl

theorem sameBytes_trans {s s' s'' : State} (h : SameBytes s s') (k : SameBytes s' s'') : SameBytes s s'' :=
  ⟨k.mem.trans h.mem, k.wstore.trans h.wstore, k.remote.trans h.remote,
    fun c => ⟨(k.scratch c).1.trans (h.scratch c).1, (k.scratch c).2.trans (h.scratch c).2⟩⟩
theorem sameEngines_trans {s s' s'' : State} (h : SameEngines s s') (k : SameEngines s' s'') : SameEngines s s'' :=
  ⟨fun n => ⟨(k.slices n).1.trans (h.slices n).1, (k.slices n).2.trans (h.slices n).2⟩, k.seqSlots.trans h.seqSlots,
    fun n => (k.wgs n).trans (h.wgs n), fun n => (k.chans n).trans (h.chans n), fun n => (k.tops n).trans (h.tops n)⟩
theorem bitsOnly_trans {s s' s'' : State} (h : BitsOnly s s') (k : BitsOnly s' s'') : BitsOnly s s'' :=
  ⟨sameBytes_trans h.bytes k.bytes, k.reqs.trans h.reqs, sameEngines_trans h.engines k.engines, fun c sl => (k.teams c sl).trans (h.teams c sl)⟩
theorem core_markLine {α : Type} (f : Core → α) (hf : ∀ k m, f { k with empty := m } = f k) (full : Bool) (s : State) (z : Nat × Nat) (c : Nat) :
    f (getCore (markLine full s z) c) = f (getCore s c) := by
  unfold markLine
  rw [getCore_updCore]
  split
  · next e => exact e ▸ hf ..
  · rfl
theorem bitsOnly_markLine (full : Bool) (s : State) (z : Nat × Nat) : BitsOnly s (markLine full s z) where
  bytes := ⟨rfl, rfl, rfl, fun c => ⟨core_markLine (·.bytes) (fun _ _ => rfl) full s z c, core_markLine (·.tags) (fun _ _ => rfl) full s z c⟩⟩
  reqs := rfl
  engines := ⟨fun _ => ⟨rfl, rfl⟩, rfl, core_markLine (·.wgs) (fun _ _ => rfl) full s z, core_markLine (·.chans) (fun _ _ => rfl) full s z,
    core_markLine (·.tops) (fun _ _ => rfl) full s z⟩
  teams := fun c sl => core_markLine (fun k => nget k.teams sl) (fun _ _ => rfl) full s z c
theorem bitsOnly_foldl_markLine (full : Bool) : ∀ (ls : List (Nat × Nat)) (s : State), BitsOnly s (ls.foldl (markLine full) s)
  | [], _ => ⟨⟨rfl, rfl, rfl, fun _ => ⟨rfl, rfl⟩⟩, rfl, ⟨fun _ => ⟨rfl, rfl⟩, rfl, fun _ => rfl, fun _ => rfl, fun _ => rfl⟩, fun _ _ => rfl⟩
  | z :: ls, s => bitsOnly_trans (bitsOnly_markLine full s z) (bitsOnly_foldl_markLine full ls _)
theorem sameBytes_of_teamOnly {s s' : State} {c sl : Nat} (h : TeamOnly s s' c sl) : SameBytes s s' :=
  ⟨h.mem, h.wstore, h.remote, fun k => ⟨(h.sameMemory.scratch k).1, (h.sameMemory.scratch k).2.1⟩⟩
theorem lineFull_of_teamOnly {s s' : State} {c sl : Nat} (h : TeamOnly s s' c sl) (k n : Nat) : lineFull s' k n = lineFull s k n := by
  unfold lineFull
  rw [(h.sameMemory.scratch k).2.2]

/-! ### Step 8 of a team whose registers alone, and count of lanes out of bounds, have changed -/

/-- The team `u0` was put back as step 2 left it, but for registers, OOBCNT and the undo log. -/
def RegsAndCount (e u0 : Team) : Prop :=
  u0 = { e with v := u0.v, s := u0.s, p := u0.p, oobcnt := u0.oobcnt, undo := u0.undo, undoNew := u0.undoNew }
theorem retired_regsAndCount {s s1 : State} {c sl : Nat} {t u0 : Team} {h : Head} (hg : getTeam s1 c sl = some u0)
    (hu : RegsAndCount (entered s t h) u0) :
    let s' := retired (issueOf s c sl t h) false s1
    ∃ u, getTeam s' c sl = some u ∧ (u.v = u0.v ∧ u.s = u0.s ∧ u.p = u0.p) ∧ (u.fltstat = t.fltstat ∧ u.sigstat = t.sigstat) ∧
      u.oobcnt = u0.oobcnt ∧ SameControl t u ∧ Advanced t u ∧ TeamOnly s1 s' c sl := by
  obtain ⟨hon, u, hget, hk⟩ := retire_spec hg (issueAddr t) (executing t) (active t h) h false false fun _ => issueAddr t + 1
  have hcar : Carried { entered s t h with v := u0.v, s := u0.s, p := u0.p, oobcnt := u0.oobcnt } u := by
    refine carried_trans ?_ hk.carried
    rw [hu]
    rfl
  obtain ⟨hflt, hsig, hoob⟩ := hcar.flags
  obtain ⟨k1, k2, k3, k4, k5, k6, k7, k8, k9, k10, k11, k12⟩ := hcar.control
  refine ⟨u, hget, hcar.maps, ⟨hflt.trans (entered_fltstat ..), hsig.trans (entered_sigstat ..)⟩, hoob,
    sameControl_trans (sameControl_entered s t h) ⟨k1, k2, k3, k4, k5, k6, k7, k8, k9, k10, k11, k12⟩, fun l hl => ?_, hon⟩
  have hlpc : getLpc u0 l = getLpc t l := by
    rw [hu]
    unfold getLpc
    rw [← enterRegion_lpc t (getCtx s t.ctx).debug (issueAddr t) h.rgn]
    rfl
  rw [getLpc_map _ u hk.lpc hl, hlpc, ite_self]

/-! ### LNWAIT, LNSET, LNCLR (R254, R255) -/

section lines
variable {x : RG} {s : State} {c sl : Nat} {t : Team}

/-- The lines that lane `l` names. -/
def laneLines (i : Issue) (x : RG) (l : Nat) : Named :=
  namedLines i (ival 32 x.a.m ((rd i x.a false).at_ l)) (ival 32 x.b.m ((rd i x.b false).at_ l))
/-- All that the active lanes name, and how many of the lanes named a line out of bounds. -/
def allLines (i : Issue) (x : RG) : List (Nat × Nat) := (lanesOf i.act).flatMap fun l => (laneLines i x l).lines
def lineSkips (i : Issue) (x : RG) : Nat := ((lanesOf i.act).filter fun l => (laneLines i x l).skip).length

/-- A line instruction goes on with the lines of its active lanes if its operands are ready and no line is of the other world. -/
theorem withLines_ready {i : Issue} (h : Ready i [rd i x.a false, rd i x.b false] []) (hw : ∀ l ∈ lanesOf i.act, (laneLines i x l).world = false)
    (k : List (Nat × Named) → Team → Res) :
    withLines i x k = k ((lanesOf i.act).map fun l => (l, laneLines i x l)) (countOob i.t (lineSkips i x)) := by
  have hworld : (((lanesOf i.act).map fun l => (l, laneLines i x l)).any fun e => e.2.world) = false := by
    rw [List.any_map, List.any_eq_false]
    exact fun l hl => by simp [hw l hl]
  have hskips : (((lanesOf i.act).map fun l => (l, laneLines i x l)).filter fun e => e.2.skip).length = lineSkips i x := by
    rw [List.filter_map, List.length_map]
    rfl
  unfold withLines
  dsimp only
  rw [gate_ready h, ← hskips]
  show (if (((lanesOf i.act).map fun l => (l, laneLines i x l)).any fun e => e.2.world) = true then _ else _) = _
  rw [hworld]
  rfl

/-- LNWAIT passes where every line that its lanes name is full. -/
theorem execLnwait_done (ci : CanIssue s c sl t x.h) (hw : (Instr.lnwait x).wf = true)
    (hops : (opdAlloc t x.a.o false && opdAlloc t x.b.o false) = true) :
    let i := issueOf s c sl t x.h
    Ready i [rd i x.a false, rd i x.b false] [] → (∀ l ∈ lanesOf (active t x.h), (laneLines i x l).world = false) →
    (∀ z ∈ allLines i x, lineFull s z.1 z.2 = true) →
    ∃ s' u, execLnwait x s = .next s' ∧
      Sends s s' c sl (entered s t x.h) u (.x 0) false 0 false (satAdd32 t.oobcnt (lineSkips i x)) ∧ s'.reqs = s.reqs := by
  intro i hready hown hfull
  let ns := (lanesOf i.act).map fun l => (l, laneLines i x l)
  have hnone : (ns.filter fun e => e.2.lines.any fun z => !lineFull i.s z.1 z.2) = [] := by
    rw [List.filter_eq_nil_iff]
    intro e he
    obtain ⟨l, hl, rfl⟩ := List.mem_map.mp he
    rw [Bool.not_eq_true, List.any_eq_false]
    intro z hz
    rw [lineFull_issueOf, hfull z (List.mem_flatMap.mpr ⟨l, hl, hz⟩)]
    exact Bool.false_ne_true
  obtain ⟨u, hsends, hsame⟩ := sends_counted (s1 := setTeam i.s c sl (countOob (entered s t x.h) (lineSkips i x))) (h := x.h) false
    (around_of_teamOnly (teamOnly_trans (teamOnly_issueOf s c sl t x.h) (teamOnly_setTeam ..)))
    ((getTeam_setTeam_same ..).trans (congrArg some (countOob_entered ..)))
  refine ⟨_, u, ?_, hsends, hsame⟩
  unfold execLnwait
  refine issue_go ci hw hops ((withLines_ready hready hown _).trans ?_)
  show (if maskOfList ((ns.filter fun e => e.2.lines.any fun z => !lineFull i.s z.1 z.2).map (·.1)) = 0 then
    Res.go (setTeam i.s c sl (countOob (entered s t x.h) (lineSkips i x))) else _) = _
  rw [hnone, if_pos (by decide)]

/-- LNSET and LNCLR turn the lines that their lanes name full, or empty. -/
theorem lineBody_done {ins : Instr} (full : Bool) (ci : CanIssue s c sl t x.h) (hw : ins.wf = true)
    (hops : (opdAlloc t x.a.o false && opdAlloc t x.b.o false) = true) :
    let i := issueOf s c sl t x.h
    Ready i [rd i x.a false, rd i x.b false] [] → (∀ l ∈ lanesOf (active t x.h), (laneLines i x l).world = false) →
    ∃ s' u, issue x.h ins.wf false (fun _ _ t => opdAlloc t x.a.o false && opdAlloc t x.b.o false) (lineBody full x) s = .next s' ∧
      getTeam s' c sl = some u ∧ SameAllRegs t u ∧ Advanced t u ∧ u.oobcnt = satAdd32 t.oobcnt (lineSkips i x) ∧ SameControl t u ∧
      SameBytes s s' ∧ s'.reqs = s.reqs ∧ SameEngines s s' ∧ SameOthers s s' c sl ∧ LinesSet s s' full (allLines i x) := by
  intro i hready hown
  let u0 := countOob (entered s t x.h) (lineSkips i x)
  let s0 := setTeam i.s c sl u0
  let s1 := (allLines i x).foldl (markLine full) s0
  have hbase : TeamOnly s s0 c sl := teamOnly_trans (teamOnly_issueOf s c sl t x.h) (teamOnly_setTeam ..)
  have hbits : BitsOnly s0 s1 := bitsOnly_foldl_markLine full (allLines i x) s0
  obtain ⟨u, hget, ⟨hv, hs, hp⟩, -, hoob, hctl, hadv, hon⟩ := retired_regsAndCount (s := s) (t := t) (h := x.h) (u0 := u0)
    ((hbits.teams c sl).trans (getTeam_setTeam_same ..)) rfl
  refine ⟨_, u, issue_go ci hw hops ((withLines_ready hready hown _).trans ?_), hget,
    sameAllRegs_of_maps (hv.trans (enterRegion_v ..)) (hs.trans (enterRegion_s ..)) (hp.trans (enterRegion_p ..)), hadv,
    hoob.trans (congrArg (satAdd32 · _) (entered_oobcnt ..)), hctl,
    sameBytes_trans (sameBytes_of_teamOnly hbase) (sameBytes_trans hbits.bytes (sameBytes_of_teamOnly hon)),
    hon.reqs.trans (hbits.reqs.trans hbase.reqs),
    sameEngines_trans (sameEngines_of_units hbase.sameUnits) (sameEngines_trans hbits.engines (sameEngines_of_units hon.sameUnits)),
    fun a b n => (hon.others a b n).trans ((hbits.teams a b).trans (hbase.others a b n)), fun k n => ?_⟩
  · show Res.go (List.foldl (markLine full) s0 (((lanesOf i.act).map fun l => (l, laneLines i x l)).flatMap fun e => e.2.lines)) = .go s1
    rw [List.flatMap_map]
    rfl
  · rw [lineFull_of_teamOnly hon, linesSet_foldl_markLine full _ s0 k n, lineFull_of_teamOnly hbase]
end lines

/-! ### Changes of whole registers, as an image names them (R256, R257) -/

/-- A change of an element: of a lane register, a scalar, or value and F/E bit of a predicate. A second one changes nothing more. -/
structure Edit where
  v : Elem → Elem
  s : SElem → SElem
  val : Bool → Bool
  full : Bool → Bool
  v_v : ∀ x, v (v x) = v x
  s_s : ∀ x, s (s x) = s x
  val_val : ∀ b, val (val b) = val b
  full_full : ∀ b, full (full b) = full b
/-- The change of element `l` of register `r`, and of all of register `r`. -/
def Edit.elem (e : Edit) (t : Team) (r l : Nat) : Team :=
  if r < 256 then setV t r l (e.v (getV t r l))
  else if r < 320 then setS t (r - 256) (e.s (getS t (r - 256)))
  else setPBit t (r - 320) l (e.val (inMask (getP t (r - 320)).val l)) (e.full (inMask (getP t (r - 320)).full l))
def Edit.reg (e : Edit) (t : Team) (r : Nat) : Team := (regLanes r).foldl (fun t l => e.elem t r l) t
/-- An element turns empty; an element becomes 0 with tag 0, full. -/
def emptied : Edit :=
  ⟨fun x => { x with full := false }, fun x => { x with full := false }, id, fun _ => false, fun _ => rfl, fun _ => rfl, fun _ => rfl, fun _ => rfl⟩
def zeroed : Edit :=
  ⟨fun _ => ⟨0, true, 0⟩, fun _ => ⟨0, true, 0⟩, fun _ => false, fun _ => true, fun _ => rfl, fun _ => rfl, fun _ => rfl, fun _ => rfl⟩
theorem markReg_false (t : Team) (r : Nat) : markReg t r false = emptied.reg t r := rfl
theorem putReg_zero (t : Team) (r : Nat) : (regLanes r).foldl (fun t l => putReg t r l 0 0 true) t = zeroed.reg t r := rfl

/-- A fold of idempotent changes, each of which the view shows or does not. -/
theorem foldl_shown {β γ : Type} {view : Team → γ} {f : Team → β → Team} {g : γ → γ} (hg : ∀ y, g (g y) = g y) (p : β → Bool) :
    ∀ (ls : List β) (t : Team), (∀ b ∈ ls, ∀ t, view (f t b) = if p b then g (view t) else view t) →
      view (ls.foldl f t) = if ls.any p then g (view t) else view t
  | [], _, _ => rfl
  | b :: ls, t, h => by
    obtain ⟨hb, hrest⟩ := List.forall_mem_cons.mp h
    rw [List.foldl_cons, foldl_shown hg p ls (f t b) hrest, hb, List.any_cons]
    cases p b
    · rfl
    · cases ls.any p
      · rfl
      · exact hg _

section edit
variable (e : Edit)

theorem edit_elem_only (t : Team) (r l : Nat) : ∃ v s p, e.elem t r l = { t with v := v, s := s, p := p } := by
  unfold Edit.elem
  split_ifs
  · exact ⟨_, t.s, t.p, rfl⟩
  · exact ⟨t.v, _, t.p, rfl⟩
  · obtain ⟨p, h⟩ := setPBit_only t (r - 320) l (e.val (inMask (getP t (r - 320)).val l)) (e.full (inMask (getP t (r - 320)).full l))
    exact ⟨t.v, t.s, p, h⟩
theorem edit_regs_only (rs : List Nat) (t : Team) : ∃ v s p, rs.foldl e.reg t = { t with v := v, s := s, p := p } :=
  foldl_maps_only (fun t r => foldl_maps_only (fun t l => edit_elem_only e t r l) (regLanes r) t) rs t

theorem lt_of_mem_regLanes {r l : Nat} (h : l ∈ regLanes r) : l < 32 := by
  unfold regLanes at h
  split at h
  · rw [List.mem_singleton.mp h]
    decide
  · exact mem_lanes.mp h

theorem getV_elem (t : Team) (r : Nat) {a n l : Nat} (ha : a < 32) (hl : l < 32) :
    getV (e.elem t r a) n l = if decide (r < 256) && (n == r && l == a) then e.v (getV t n l) else getV t n l := by
  unfold Edit.elem
  by_cases hr : r < 256
  · rw [if_pos hr]
    by_cases hn : n = r ∧ l = a
    · obtain ⟨rfl, rfl⟩ := hn
      simp [hr]
    · rw [getV_setV_other t _ ha hl (not_and_or.mp hn), if_neg (by simpa [hr] using hn)]
  · rw [if_neg hr, decide_eq_false hr]
    split
    · simp
    · simp
theorem getV_reg (t : Team) (r n : Nat) {l : Nat} (hl : l < 32) :
    getV (e.reg t r) n l = if decide (r < 256) && n == r then e.v (getV t n l) else getV t n l := by
  have hfold := foldl_shown (view := fun t => getV t n l) e.v_v (fun a => decide (r < 256) && (n == r && l == a)) (regLanes r) t
    fun a ha t => getV_elem e t r (lt_of_mem_regLanes ha) hl
  refine hfold.trans (congrArg (fun b : Bool => if b then e.v (getV t n l) else getV t n l) ?_)
  by_cases hr : r < 256
  · have hlanes : regLanes r = lanes := if_neg (by omega)
    rw [hlanes, decide_eq_true hr, Bool.eq_iff_iff]
    simp [mem_lanes.mpr hl]
  · simp [hr]
/-- Lane registers after a change of the registers `rs`. -/
theorem getV_regs (rs : List Nat) (t : Team) (n : Nat) {l : Nat} (hl : l < 32) :
    getV (rs.foldl e.reg t) n l = if rs.contains n && decide (n < 256) then e.v (getV t n l) else getV t n l := by
  have hfold := foldl_shown (view := fun t => getV t n l) e.v_v (fun r => decide (r < 256) && n == r) rs t fun r _ t => getV_reg e t r n hl
  refine hfold.trans (congrArg (fun b : Bool => if b then e.v (getV t n l) else getV t n l) ?_)
  rw [Bool.eq_iff_iff, List.any_eq_true, Bool.and_eq_true, List.contains_iff_mem, decide_eq_true_eq]
  constructor
  · rintro ⟨r, hr, hn⟩
    simp only [Bool.and_eq_true, decide_eq_true_eq, beq_iff_eq] at hn
    exact ⟨hn.2 ▸ hr, hn.2 ▸ hn.1⟩
  · rintro ⟨hmem, hn⟩
    exact ⟨n, hmem, by simp [hn]⟩

theorem getS_elem (t : Team) (r a : Nat) {n : Nat} (hn : n < 64) :
    getS (e.elem t r a) n = if r == 256 + n then e.s (getS t n) else getS t n := by
  unfold Edit.elem
  by_cases hr : r = 256 + n
  · subst hr
    have h256 : ¬ 256 + n < 256 := by omega
    have h320 : 256 + n < 320 := by omega
    simp [h256, h320]
  · rw [beq_false_of_ne hr, if_neg Bool.false_ne_true]
    split_ifs with h256 h320
    · simp
    · rw [getS_setS, if_neg (by omega)]
    · simp
/-- Scalars after a change of the registers `rs`. -/
theorem getS_regs (rs : List Nat) (t : Team) {n : Nat} (hn : n < 64) :
    getS (rs.foldl e.reg t) n = if rs.contains (256 + n) then e.s (getS t n) else getS t n := by
  have hreg (r : Nat) (t : Team) : getS (e.reg t r) n = if r == 256 + n then e.s (getS t n) else getS t n := by
    refine (foldl_shown (view := fun t => getS t n) e.s_s (fun _ => r == 256 + n) (regLanes r) t fun a _ t => getS_elem e t r a hn).trans
      (congrArg (fun b : Bool => if b then e.s (getS t n) else getS t n) ?_)
    by_cases hr : r = 256 + n
    · have hlanes : regLanes r = [0] := if_pos (by omega)
      rw [hlanes]
      exact Bool.or_false _
    · rw [beq_false_of_ne hr, List.any_eq_false]
      exact fun _ _ => Bool.false_ne_true
  refine (foldl_shown (view := fun t => getS t n) e.s_s (fun r => r == 256 + n) rs t fun r _ t => hreg r t).trans
    (congrArg (fun b : Bool => if b then e.s (getS t n) else getS t n) ?_)
  rw [List.contains_eq_any_beq]
  simp only [Bool.beq_comm]

/-- A bit of a predicate, and its F/E bit. -/
def predBits (n l : Nat) (t : Team) : Bool × Bool := (inMask (getP t n).val l, inMask (getP t n).full l)
/-- The change of the two. -/
def Edit.bits (b : Bool × Bool) : Bool × Bool := (e.val b.1, e.full b.2)
theorem predBits_elem (t : Team) {r a n l : Nat} (ha : a < 32) (hl : l < 32) (hr : r < 327) :
    predBits n l (e.elem t r a) = if r == 320 + n && l == a then e.bits (predBits n l t) else predBits n l t := by
  unfold Edit.elem
  by_cases hn : r = 320 + n
  · have h256 : ¬ 320 + n < 256 := by omega
    have h320 : ¬ 320 + n < 320 := by omega
    have h7 : n ≠ 7 := by omega
    subst hn
    rw [if_neg h256, if_neg h320, Nat.add_sub_cancel_left, beq_self_eq_true, Bool.true_and]
    obtain ⟨hv, hf⟩ := getP_setPBit t n a l (e.val (inMask (getP t n).val a)) (e.full (inMask (getP t n).full a)) h7 ha hl
    unfold predBits
    rw [hv, hf]
    by_cases hla : l = a
    · subst hla
      simp [Edit.bits]
    · simp [hla]
  · rw [beq_false_of_ne hn, Bool.false_and, if_neg Bool.false_ne_true]
    unfold predBits
    split_ifs with h256 h320
    · simp
    · simp
    · rw [getP_setPBit_other t _ _ (by omega : n ≠ r - 320)]
/-- Predicates after a change of the registers `rs`, none of which is p7. -/
theorem predBits_regs (rs : List Nat) (hrs : ∀ r ∈ rs, r < 327) (t : Team) (n : Nat) {l : Nat} (hl : l < 32) :
    predBits n l (rs.foldl e.reg t) = if rs.contains (320 + n) then e.bits (predBits n l t) else predBits n l t := by
  have hidem (b : Bool × Bool) : e.bits (e.bits b) = e.bits b := Prod.ext (e.val_val b.1) (e.full_full b.2)
  have hreg (r : Nat) (hr : r < 327) (t : Team) :
      predBits n l (e.reg t r) = if r == 320 + n then e.bits (predBits n l t) else predBits n l t := by
    refine (foldl_shown (view := predBits n l) hidem (fun a => r == 320 + n && l == a) (regLanes r) t
      fun a ha t => predBits_elem e t (lt_of_mem_regLanes ha) hl hr).trans
      (congrArg (fun b : Bool => if b then e.bits (predBits n l t) else predBits n l t) ?_)
    by_cases hn : r = 320 + n
    · have hlanes : regLanes r = lanes := if_neg (by omega)
      rw [hlanes, hn, Bool.eq_iff_iff]
      simp [mem_lanes.mpr hl]
    · rw [beq_false_of_ne hn, List.any_eq_false]
      exact fun _ _ => Bool.false_ne_true
  refine (foldl_shown (view := predBits n l) hidem (fun r => r == 320 + n) rs t fun r hr t => hreg r (hrs r hr) t).trans
    (congrArg (fun b : Bool => if b then e.bits (predBits n l t) else predBits n l t) ?_)
  rw [List.contains_eq_any_beq]
  simp only [Bool.beq_comm]
end edit

/-- The registers of a legal image end before p7. -/
theorem lt_of_mem_imageRegs {d : Opd} {sub : BitVec 8} (hd : imageOk d sub = true) : ∀ r ∈ imageRegs d (sub.toNat + 1), r < 327 := by
  intro r hr
  unfold imageOk at hd
  simp only [imageRegs, producesInto] at hr
  cases d with
  | v n =>
    simp only [Bool.and_eq_true, decide_eq_true_eq] at hd
    obtain ⟨j, hj, rfl⟩ := List.mem_map.mp hr
    rw [List.mem_range] at hj
    omega
  | s n =>
    simp only [Bool.and_eq_true, decide_eq_true_eq] at hd
    obtain ⟨j, hj, rfl⟩ := List.mem_map.mp hr
    rw [List.mem_range] at hj
    omega
  | p n =>
    obtain ⟨j, hj, rfl⟩ := List.mem_map.mp hr
    rw [List.mem_range] at hj
    omega
  | lpc => simp at hd
  | c n => simp at hd
  | x n => simp at hd

/-! ### SPL (R256) -/

section image
variable {x : RG} {s : State} {c sl : Nat} {t : Team}

theorem imageFull_issueOf (s : State) (c sl : Nat) (t : Team) (h : Head) (k b n : Nat) :
    imageFull (issueOf s c sl t h).s k b n = imageFull s k b n := by
  unfold imageFull
  simp only [lineFull_issueOf]
theorem imageOf_entered (s : State) (t : Team) (h : Head) (o : Opd) (m : Nat) : imageOf (entered s t h) o m = imageOf t o m :=
  entered_keeps (imageOf · o m) s t h fun _ _ _ _ _ _ => rfl
theorem regFree_entered (s : State) (t : Team) (h : Head) (r : Nat) : regFree (entered s t h) r = regFree t r :=
  entered_keeps (regFree · r) s t h fun _ _ _ _ _ _ => rfl

/-- The write of line `j` of an image at byte `b` of core `k`. -/
def splReq (i : Issue) (o : Opd) (m k b j : Nat) : Req :=
  let w := nth ([], []) (imageOf i.t o m) j
  { mkReq i 0 (.spl w.1 w.2) with loc := some (.scratch k (b + 128 * j)), n := 128, write := true }
/-- What it asks for, and where. -/
def splAsk (t : Team) (o : Opd) (m k b j : Nat) : Ask × Loc :=
  let w := nth ([], []) (imageOf t o m) j
  (askPlain false true 0 0 128 (.spl w.1 w.2), .scratch k (b + 128 * j))
theorem located_splReq (o : Opd) (m k b j : Nat) : Located (splReq (issueOf s c sl t x.h) o m k b j) (splAsk t o m k b j) := by
  refine ⟨?_, rfl⟩
  unfold splReq splAsk
  rw [show imageOf (issueOf s c sl t x.h).t o m = imageOf t o m from imageOf_entered ..]
  rfl

/-- Where the image of SPL or FIL lies. -/
def imagePlace (i : Issue) (x : RG) (o : Opd) : ScrAt := imageAt i (ival 32 x.b.m ((rd i x.b false).at_ 0)) (imageLines o (x.sub.toNat + 1))

/-- What SPL does with an image of its registers there. -/
def splTo (i : Issue) (x : RG) : ScrAt → Res
  | .world => .trap (trapAt 0x0D i.pc i.act)
  | .oob => .go (setTeam i.s i.core i.slot (countOob i.t 1))
  | .at_ k b =>
    let n := imageLines x.a.o (x.sub.toNat + 1)
    if !imageFull i.s k b n then .wait else .go (((List.range n).map (splReq i x.a.o (x.sub.toNat + 1) k b)).foldl post i.s)
theorem execSpl_to (ci : CanIssue s c sl t x.h) (hlog : logFull s c = false) (hw : (Instr.spl x).wf = true)
    (hops : rangeAlloc t x.a.o (x.sub.toNat + 1) = true) (hready : Ready (issueOf s c sl t x.h) [rd (issueOf s c sl t x.h) x.b false] [])
    (hprod : ∀ q ∈ s.reqs, ¬ (q.core = c ∧ q.tid = t.tid ∧ ∃ r ∈ producesInto q.kind, r ∈ imageRegs x.a.o (x.sub.toNat + 1))) {s1 : State}
    (hto : splTo (issueOf s c sl t x.h) x (imagePlace (issueOf s c sl t x.h) x x.a.o) = .go s1) :
    execSpl x s = .next (retired (issueOf s c sl t x.h) false s1) := by
  let i := issueOf s c sl t x.h
  let regs := imageRegs x.a.o (x.sub.toNat + 1)
  have hnone : (i.s.reqs.any fun q => q.core == i.core && q.tid == i.t.tid && (producesInto q.kind).any regs.contains) = false := by
    rw [List.any_eq_false]
    intro q hq
    rw [show i.t.tid = t.tid from enterRegion_tid ..]
    show ¬ (q.core == c && q.tid == t.tid && (producesInto q.kind).any (imageRegs x.a.o (x.sub.toNat + 1)).contains) = true
    simpa [and_assoc] using hprod q hq
  unfold execSpl
  refine issue_go ci hw hops ?_
  dsimp only
  rw [gate_ready hready]
  show (if (i.s.reqs.any fun q => q.core == i.core && q.tid == i.t.tid && (producesInto q.kind).any regs.contains) = true then Res.wait
    else if logFull i.s c = true then Res.wait else splTo i x (imagePlace i x x.a.o)) = _
  rw [hnone, logFull_issueOf, hlog]
  exact hto

/-- SPL writes the lines of the image of its registers. -/
theorem splTo_at (s : State) (c sl : Nat) (t : Team) {k b : Nat} (hfull : imageFull s k b (imageLines x.a.o (x.sub.toNat + 1)) = true) :
    let i := issueOf s c sl t x.h
    let m := x.sub.toNat + 1
    ∃ s1, splTo i x (.at_ k b) = .go s1 ∧ ∃ u, Sends s (retired i false s1) c sl (entered s t x.h) u (.x 0) false 0 false t.oobcnt ∧
      SentAt s (retired i false s1) c sl t ((List.range (imageLines x.a.o m)).map (splAsk t x.a.o m k b)) := by
  intro i m
  let n := imageLines x.a.o m
  let rs := (List.range n).map (splReq i x.a.o m k b)
  have hteam : entered s t x.h = { entered s t x.h with oobcnt := t.oobcnt } := by
    rw [← entered_oobcnt s t x.h]
  obtain ⟨haround, hkept⟩ := foldl_post_around c sl rs i.s
  obtain ⟨qs, hreqs, hsame⟩ := foldl_post_reqs rs i.s
  obtain ⟨u, hsends, hsent⟩ := sends_counted (t := t) (h := x.h) false (around_trans (around_of_teamOnly (teamOnly_issueOf s c sl t x.h)) haround)
    (hkept.trans ((getTeam_issueOf s c sl t x.h).trans (congrArg some hteam)))
  refine ⟨rs.foldl post i.s, ?_, u, hsends, sentAt_of_located (hsent.trans hreqs) hsame ?_ fun r hr => ?_⟩
  · show (if (!imageFull i.s k b n) = true then Res.wait else _) = _
    rw [imageFull_issueOf, hfull]
    rfl
  · rw [List.forall₂_map_left_iff, List.forall₂_map_right_iff]
    exact List.forall₂_same.mpr fun j _ => located_splReq x.a.o m k b j
  · obtain ⟨j, -, rfl⟩ := List.mem_map.mp hr
    let w := nth ([], []) (imageOf i.t x.a.o m) j
    exact mine_mkReq s c sl t x.h 0 (.spl w.1 w.2)
/-- An image out of bounds is not stored, and counts once. -/
theorem splTo_oob (s : State) (c sl : Nat) (t : Team) (x : RG) :
    let i := issueOf s c sl t x.h
    ∃ s1, splTo i x .oob = .go s1 ∧ ∃ u, Sends s (retired i false s1) c sl (entered s t x.h) u (.x 0) false 0 false (satAdd32 t.oobcnt 1) ∧
      (retired i false s1).reqs = s.reqs := by
  intro i
  obtain ⟨u, hsends, hsame⟩ := sends_counted (s1 := setTeam i.s c sl (countOob (entered s t x.h) 1)) (h := x.h) false
    (around_of_teamOnly (teamOnly_trans (teamOnly_issueOf s c sl t x.h) (teamOnly_setTeam ..)))
    ((getTeam_setTeam_same ..).trans (congrArg some (countOob_entered ..)))
  exact ⟨_, rfl, u, hsends, hsame⟩

/-! ### FIL (R256, R257) -/

/-- The read of an image at byte `b` of core `k`. -/
def filReq (i : Issue) (x : RG) (k b : Nat) : Req :=
  { mkReq i 0 (.fil x.d (x.sub.toNat + 1)) with
    loc := some (.scratch k b), n := 128 * imageLines x.d (x.sub.toNat + 1), read := true }
/-- The team that FIL puts back: the registers of the image have been changed, their old contents may have been logged. -/
def filTeam (i : Issue) (x : RG) (e : Edit) (t : Team) : Team :=
  pushUndo i.s ((imageRegs x.d (x.sub.toNat + 1)).foldl e.reg t) (undoRegs i.t (imageRegs x.d (x.sub.toNat + 1)))
/-- What FIL does with the image of its registers at a place. -/
def filTo (i : Issue) (x : RG) : ScrAt → Res
  | .world => .trap (trapAt 0x0D i.pc i.act)
  | .oob => .go (setTeam i.s i.core i.slot (filTeam i x zeroed (countOob i.t 1)))
  | .at_ k b =>
    if !imageFull i.s k b (imageLines x.d (x.sub.toNat + 1)) then .wait
    else .go (post (setTeam i.s i.core i.slot (filTeam i x emptied i.t)) (filReq i x k b))
theorem execFil_to (ci : CanIssue s c sl t x.h) (hlog : logFull s c = false) (hw : (Instr.fil x).wf = true)
    (hops : rangeAlloc t x.d (x.sub.toNat + 1) = true) (hready : Ready (issueOf s c sl t x.h) [rd (issueOf s c sl t x.h) x.b false] [])
    (hfree : (imageRegs x.d (x.sub.toNat + 1)).all (regFree t) = true) {s1 : State}
    (hto : filTo (issueOf s c sl t x.h) x (imagePlace (issueOf s c sl t x.h) x x.d) = .go s1) :
    execFil x s = .next (retired (issueOf s c sl t x.h) false s1) := by
  let i := issueOf s c sl t x.h
  have hfree' : (imageRegs x.d (x.sub.toNat + 1)).all (regFree i.t) = true := by
    rw [show regFree i.t = regFree t from funext (regFree_entered s t x.h)]
    exact hfree
  unfold execFil
  refine issue_go ci hw hops ?_
  dsimp only
  rw [gate_ready hready]
  show (if (!(imageRegs x.d (x.sub.toNat + 1)).all (regFree i.t) || logFull i.s c) = true then Res.wait
    else filTo i x (imagePlace i x x.d)) = _
  rw [hfree', logFull_issueOf, hlog]
  exact hto

/-- Registers `rs` of `u` are those of `t`, changed; its other registers are those of `t`. -/
structure Edited (e : Edit) (rs : List Nat) (t u : Team) : Prop where
  v : ∀ n l, l < 32 → getV u n l = if rs.contains n && decide (n < 256) then e.v (getV t n l) else getV t n l
  s : ∀ n, n < 64 → getS u n = if rs.contains (256 + n) then e.s (getS t n) else getS t n
  p : ∀ n l, l < 32 → predBits n l u = if rs.contains (320 + n) then e.bits (predBits n l t) else predBits n l t
theorem Edited.bits {e : Edit} {rs : List Nat} {t u : Team} (h : Edited e rs t u) (n : Nat) {l : Nat} (hl : l < 32) :
    (inMask (getP u n).val l = if rs.contains (320 + n) then e.val (inMask (getP t n).val l) else inMask (getP t n).val l) ∧
      inMask (getP u n).full l = if rs.contains (320 + n) then e.full (inMask (getP t n).full l) else inMask (getP t n).full l := by
  have hbits := h.p n l hl
  cases hhit : rs.contains (320 + n)
  · rw [hhit] at hbits
    exact Prod.mk.inj hbits
  · rw [hhit] at hbits
    exact Prod.mk.inj hbits
theorem Edited.zeroed_bits {rs : List Nat} {t u : Team} (h : Edited zeroed rs t u) (n : Nat) {l : Nat} (hl : l < 32) :
    inMask (getP u n).val l = (inMask (getP t n).val l && !rs.contains (320 + n)) ∧
      inMask (getP u n).full l = (inMask (getP t n).full l || rs.contains (320 + n)) := by
  obtain ⟨hval, hfull⟩ := h.bits n hl
  rw [hval, hfull]
  cases rs.contains (320 + n)
  · exact ⟨(Bool.and_true _).symm, (Bool.or_false _).symm⟩
  · exact ⟨(Bool.and_false _).symm, (Bool.or_true _).symm⟩
theorem Edited.emptied_bits {rs : List Nat} {t u : Team} (h : Edited emptied rs t u) (n : Nat) {l : Nat} (hl : l < 32) :
    inMask (getP u n).val l = inMask (getP t n).val l ∧
      inMask (getP u n).full l = (inMask (getP t n).full l && !rs.contains (320 + n)) := by
  obtain ⟨hval, hfull⟩ := h.bits n hl
  rw [hval, hfull]
  cases rs.contains (320 + n)
  · exact ⟨rfl, (Bool.and_true _).symm⟩
  · exact ⟨rfl, (Bool.and_false _).symm⟩

/-- Step 8 of an FIL whose team has been put back. -/
theorem retired_filTeam (e : Edit) (oob : DWord) (hd : imageOk x.d x.sub = true) {s1 : State}
    (hg : getTeam s1 c sl = some (filTeam (issueOf s c sl t x.h) x e { entered s t x.h with oobcnt := oob })) :
    let s' := retired (issueOf s c sl t x.h) false s1
    ∃ u, getTeam s' c sl = some u ∧ (u.fltstat = t.fltstat ∧ u.sigstat = t.sigstat ∧ u.oobcnt = oob) ∧ SameControl t u ∧ Advanced t u ∧
      TeamOnly s1 s' c sl ∧ Edited e (imageRegs x.d (x.sub.toNat + 1)) t u := by
  intro s'
  let i := issueOf s c sl t x.h
  let rs := imageRegs x.d (x.sub.toNat + 1)
  let t0 : Team := { entered s t x.h with oobcnt := oob }
  obtain ⟨w, z, hu⟩ := pushUndo_eq i.s (rs.foldl e.reg t0) (undoRegs i.t rs)
  obtain ⟨v, ss, p, honly⟩ := edit_regs_only e rs t0
  have hteam : filTeam i x e t0 = { rs.foldl e.reg t0 with undo := w, undoNew := z } := hu
  obtain ⟨u, hget, ⟨hv, hs, hp⟩, ⟨hflt, hsig⟩, hoob, hctl, hadv, hon⟩ := retired_regsAndCount hg (by
    show RegsAndCount (entered s t x.h) (filTeam i x e t0)
    rw [hteam, honly]
    rfl)
  rw [show filTeam (issueOf s c sl t x.h) x e { entered s t x.h with oobcnt := oob } = _ from hteam] at hv hs hp hoob
  refine ⟨u, hget, ⟨hflt, hsig, hoob.trans (by rw [honly])⟩, hctl, hadv, hon, ⟨fun n l hl => ?_, fun n hn => ?_, fun n l hl => ?_⟩⟩
  · have hbase : getV t0 n l = getV t n l := congrArg (ngetD _ · _) (enterRegion_v ..)
    rw [← hbase, ← getV_regs e rs t0 n hl]
    exact congrArg (ngetD _ · _) hv
  · have hbase : getS t0 n = getS t n := congrArg (ngetD _ · _) (enterRegion_s ..)
    rw [← hbase, ← getS_regs e rs t0 hn]
    exact congrArg (ngetD _ · _) hs
  · have same {a b : Team} (hab : b.p = a.p) : predBits n l b = predBits n l a := by
      unfold predBits getP
      rw [hab]
    have hbase : predBits n l t0 = predBits n l t := same (enterRegion_p ..)
    rw [← hbase, ← predBits_regs e rs (lt_of_mem_imageRegs hd) t0 n hl]
    exact same hp

theorem legalFil_image (h : (Instr.fil x).wf = true) : imageOk x.d x.sub = true := by
  simp only [Instr.wf, legal, legalFil, Bool.and_eq_true] at h
  obtain ⟨⟨⟨⟨⟨⟨-, hd⟩, -⟩, -⟩, -⟩, -⟩, -⟩ := h
  exact hd

/-- An image out of bounds restores 0 with tag 0, full, and counts once. -/
theorem filTo_oob (hw : (Instr.fil x).wf = true) (s : State) (c sl : Nat) (t : Team) :
    let i := issueOf s c sl t x.h
    ∃ s1, filTo i x .oob = .go s1 ∧ ∃ u, getTeam (retired i false s1) c sl = some u ∧
      (u.fltstat = t.fltstat ∧ u.sigstat = t.sigstat ∧ u.oobcnt = satAdd32 t.oobcnt 1) ∧ SameControl t u ∧ Advanced t u ∧
      TeamOnly s (retired i false s1) c sl ∧ Edited zeroed (imageRegs x.d (x.sub.toNat + 1)) t u := by
  intro i
  obtain ⟨u, hget, hflags, hctl, hadv, hon, hregs⟩ := retired_filTeam zeroed (satAdd32 t.oobcnt 1) (legalFil_image hw)
    (getTeam_setTeam_same i.s c sl (filTeam i x zeroed { entered s t x.h with oobcnt := satAdd32 t.oobcnt 1 }))
  refine ⟨setTeam i.s c sl (filTeam i x zeroed { entered s t x.h with oobcnt := satAdd32 t.oobcnt 1 }), ?_, u, hget, hflags, hctl, hadv,
    teamOnly_trans (teamOnly_trans (teamOnly_issueOf s c sl t x.h) (teamOnly_setTeam ..)) hon, hregs⟩
  rw [← countOob_entered]
  rfl
/-- FIL empties the registers of an image in bounds and sends its read. -/
theorem filTo_at (hw : (Instr.fil x).wf = true) (s : State) (c sl : Nat) (t : Team) {k b : Nat}
    (hfull : imageFull s k b (imageLines x.d (x.sub.toNat + 1)) = true) :
    let i := issueOf s c sl t x.h
    let m := x.sub.toNat + 1
    ∃ s1, filTo i x (.at_ k b) = .go s1 ∧ ∃ u, getTeam (retired i false s1) c sl = some u ∧ SameFlags t u ∧ SameControl t u ∧ Advanced t u ∧
      Around s (retired i false s1) c sl ∧ Edited emptied (imageRegs x.d m) t u ∧
      SentAt s (retired i false s1) c sl t [(askPlain true false 0 0 (128 * imageLines x.d m) (.fil x.d m), .scratch k b)] := by
  intro i m
  let u0 := filTeam i x emptied { entered s t x.h with oobcnt := t.oobcnt }
  let s0 := setTeam i.s c sl u0
  let r := filReq i x k b
  have hteam : filTeam i x emptied i.t = u0 := by
    refine congrArg (filTeam i x emptied) ?_
    rw [← entered_oobcnt s t x.h]
    rfl
  have hbase : TeamOnly s s0 c sl := teamOnly_trans (teamOnly_issueOf s c sl t x.h) (teamOnly_setTeam ..)
  obtain ⟨u, hget, hflags, hctl, hadv, hon, hregs⟩ := retired_filTeam (s1 := post s0 r) emptied t.oobcnt (legalFil_image hw)
    ((getTeam_post ..).trans (getTeam_setTeam_same ..))
  refine ⟨post s0 r, ?_, u, hget, hflags, hctl, hadv,
    around_trans (around_trans (around_of_teamOnly hbase) (around_post ..)) (around_of_teamOnly hon), hregs,
    sentAt_of_located (hon.reqs.trans (reqs_post s0 r)) (.cons ⟨_, rfl⟩ .nil) (.cons ⟨rfl, rfl⟩ .nil) fun q hq => ?_⟩
  · show (if (!imageFull i.s k b (imageLines x.d m)) = true then Res.wait else Res.go (post (setTeam i.s c sl (filTeam i x emptied i.t)) r)) = _
    rw [imageFull_issueOf, hfull, hteam]
    rfl
  · rw [List.mem_singleton.mp hq]
    exact mine_mkReq s c sl t x.h 0 (.fil x.d m)
end image

/-- Settles O29: LNWAIT looks at the named lines, LNSET and LNCLR mark them; SPL and FIL work on the registers of their image, where it lies. -/
theorem linesSpillAndFill : Obligations.LinesSpillAndFill := by
  constructor
  · intro x s c sl t ci hops i named ls skips passes marks hready hown
    exact ⟨fun hw hfull => execLnwait_done ci hw hops hready hown hfull, fun hw => lineBody_done true ci hw hops hready hown,
      fun hw => lineBody_done false ci hw hops hready hown⟩
  · intro x s c sl t ci hlog _ i m adr hready
    refine ⟨fun hw hops hprod => ⟨fun k b hat hfull => ?_, fun hat => ?_⟩, fun hw hops hfree => ⟨fun hat => ?_, fun k b hat hfull => ?_⟩⟩
    · obtain ⟨s1, hto, u, hsends, hsent⟩ := splTo_at s c sl t hfull
      exact ⟨_, u, execSpl_to ci hlog hw hops hready hprod ((congrArg (splTo i x) hat).trans hto), hsends, hsent⟩
    · obtain ⟨s1, hto, u, hsends, hsame⟩ := splTo_oob s c sl t x
      exact ⟨_, u, execSpl_to ci hlog hw hops hready hprod ((congrArg (splTo i x) hat).trans hto), hsends, hsame⟩
    · obtain ⟨s1, hto, u, hget, ⟨hflt, hsig, hoob⟩, hctl, hadv, hon, hregs⟩ := filTo_oob hw s c sl t
      exact ⟨_, u, execFil_to ci hlog hw hops hready hfree ((congrArg (filTo i x) hat).trans hto), hget, hflt, hsig, hoob, hctl, hadv,
        hon.sameMemory, hon.sameUnits, hon.others, hregs.v, hregs.s, fun n l _ hl => hregs.zeroed_bits n hl⟩
    · obtain ⟨s1, hto, u, hget, hflags, hctl, hadv, haround, hregs, hsent⟩ := filTo_at hw s c sl t hfull
      exact ⟨_, u, execFil_to ci hlog hw hops hready hfree ((congrArg (filTo i x) hat).trans hto), hget, hflags, hctl, hadv, haround.memory,
        haround.engines, haround.others, hregs.v, hregs.s, fun n l _ hl => hregs.emptied_bits n hl, hsent⟩

end Sys2Proof.Proofs

/-! PROOFS. Line-sets at issue (O30). -/

namespace Sys2Proof.Proofs

open Sys2Proof.Machine Sys2Proof.Safety Sys2Proof.Laws

theorem mem_foldl_insAsc {y : Nat} : ∀ (xs acc : List Nat), y ∈ xs.foldl (fun acc x => insAsc x acc) acc ↔ y ∈ xs ∨ y ∈ acc
  | [], acc => by simp
  | x :: xs, acc => by
    rw [List.foldl_cons, mem_foldl_insAsc xs, mem_insAsc, List.mem_cons]
    tauto
theorem mem_sortAsc {y : Nat} {xs : List Nat} : y ∈ sortAsc xs ↔ y ∈ xs := by
  unfold sortAsc
  rw [mem_foldl_insAsc]
  simp

/-! ### The homes of a line-set and its shadow bytes (R214, R239) -/

/-- State `s'` is `s` after searches for homes: the team and all homes are as they were. -/
structure Searched (s s' : State) (c sl : Nat) : Prop where
  only : TeamOnly s s' c sl
  team : getTeam s' c sl = getTeam s c sl
  homes : SameHomes s s' c

theorem searched_trans {s s' s'' : State} {c sl : Nat} (h : Searched s s' c sl) (k : Searched s' s'' c sl) : Searched s s'' c sl :=
  ⟨teamOnly_trans h.only k.only, k.team.trans h.team, sameHomes_trans h.homes k.homes⟩
theorem searched_homeOf (s : State) (c ctx va sl : Nat) : Searched s (homeOf s c ctx false va).2 c sl :=
  let h := homeOf_teamOnly s c ctx false va c sl
  ⟨h.1, h.2, sameHomes_home s c ctx false va⟩

/-- Give a line-set the home of one more shadow byte. -/
def routeShadow (c ctx : Nat) (x : Req × Bool × State) (v : Nat) : Req × Bool × State :=
  let b := homeOf x.2.2 c ctx false v
  let r2 := { x.1 with shLocs := x.1.shLocs ++ [b.1.loc] }
  (if b.1.fault ≠ 0 && x.1.shFault == 0 then { r2 with shFault := b.1.fault, info := b.1.info, shadowVa := some v } else r2,
    x.2.1 || b.1.world, b.2)
/-- A line-set with the home of its block, before any shadow byte has one. -/
def homedSet (r : Req) (a : Home) : Req :=
  { r with loc := a.loc, fault := a.fault, info := a.info, shFault := 0, shadowVa := none, shLocs := [] }
theorem routeTicket_eq (s : State) (r : Req) (sh : List Nat) :
    let a := homeOf s r.core r.ctx false r.va
    routeTicket s r sh = sh.foldl (routeShadow r.core r.ctx) (homedSet r a.1, a.1.world, a.2) := rfl

theorem routed_homedSet (r : Req) (a : Home) : Routed r (homedSet r a) := ⟨rfl, fun _ _ _ h => h⟩
theorem routed_routeShadow (c ctx : Nat) (x : Req × Bool × State) (v : Nat) : Routed x.1 (routeShadow c ctx x v).1 := by
  unfold routeShadow
  dsimp only
  split
  · exact ⟨rfl, fun _ _ _ h => h⟩
  · exact ⟨rfl, fun _ _ _ h => h⟩
/-- Shadow bytes none of which lies in the other world raise no world violation. -/
theorem foldl_routeShadow_own {c ctx : Nat} (sl : Nat) : ∀ (sh : List Nat) (x : Req × Bool × State),
    (∀ v ∈ sh, (homeOf x.2.2 c ctx false v).1.world = false) →
    let y := sh.foldl (routeShadow c ctx) x
    y.2.1 = x.2.1 ∧ Routed x.1 y.1 ∧ Searched x.2.2 y.2.2 c sl
  | [], x, _ => ⟨rfl, ⟨rfl, fun _ _ _ h => h⟩, teamOnly_refl .., rfl, fun _ _ _ => rfl⟩
  | v :: sh, x, h => by
    obtain ⟨hv, hsh⟩ := List.forall_mem_cons.mp h
    have hsearch : Searched x.2.2 (routeShadow c ctx x v).2.2 c sl := searched_homeOf ..
    obtain ⟨hflag, hrouted, hrest⟩ := foldl_routeShadow_own sl sh (routeShadow c ctx x v) fun w hw => by
      rw [hsearch.homes]
      exact hsh w hw
    refine ⟨hflag.trans ?_, routed_trans (routed_routeShadow ..) hrouted, searched_trans hsearch hrest⟩
    show (x.2.1 || (homeOf x.2.2 c ctx false v).1.world) = x.2.1
    rw [hv, Bool.or_false]

/-- None of these addresses lies in the other world. -/
def OwnSet (s : State) (c : Nat) (a : Req × List Nat) : Prop :=
  a.1.core = c ∧ ∀ va ∈ a.1.va :: a.2, (homeOf s c a.1.ctx false va).1.world = false
/-- A line-set takes its homes, and meets no leaf of the other world where none of its addresses lies there. -/
theorem routeTicket_own {s : State} {c : Nat} {a : Req × List Nat} (h : OwnSet s c a) (sl : Nat) :
    let y := routeTicket s a.1 a.2
    y.2.1 = false ∧ Routed a.1 y.1 ∧ Searched s y.2.2 c sl := by
  obtain ⟨rfl, hown⟩ := h
  obtain ⟨hva, hsh⟩ := List.forall_mem_cons.mp hown
  have hsearch := searched_homeOf s a.1.core a.1.ctx a.1.va sl
  let b := homeOf s a.1.core a.1.ctx false a.1.va
  obtain ⟨hflag, hrouted, hrest⟩ := foldl_routeShadow_own (ctx := a.1.ctx) sl a.2 (homedSet a.1 b.1, b.1.world, b.2) fun w hw => by
    rw [hsearch.homes]
    exact hsh w hw
  rw [routeTicket_eq]
  exact ⟨hflag.trans hva, routed_trans (routed_homedSet ..) hrouted, searched_trans hsearch hrest⟩

/-- Send one line-set with its shadow bytes; whether one so far lies in the other world. -/
def sendSet (z : Bool × State) (a : Req × List Nat) : Bool × State :=
  let y := routeTicket z.2 a.1 a.2
  (z.1 || y.2.1, post y.2.2 y.1)
/-- Line-sets none of whose addresses lies in the other world go out one after another. -/
theorem foldl_sendSet_own {c : Nat} (sl : Nat) : ∀ (as : List (Req × List Nat)) (s : State), (∀ a ∈ as, OwnSet s c a) →
    let z := as.foldl sendSet (false, s)
    z.1 = false ∧ (∃ qs, z.2.reqs = s.reqs ++ qs ∧ List.Forall₂ Routed (as.map (·.1)) qs) ∧ Around s z.2 c sl ∧
      getTeam z.2 c sl = getTeam s c sl
  | [], s, _ => ⟨rfl, ⟨[], (List.append_nil _).symm, .nil⟩, around_of_teamOnly (teamOnly_refl s c sl), rfl⟩
  | a :: as, s, h => by
    obtain ⟨ha, has⟩ := List.forall_mem_cons.mp h
    obtain ⟨hflag, hrouted, hsearch⟩ := routeTicket_own ha sl
    generalize hy : routeTicket s a.1 a.2 = y at hflag hrouted hsearch
    have hposted : SameHomes s (post y.2.2 y.1) c :=
      sameHomes_trans hsearch.homes (sameHomes_of_sameTables ⟨rfl, rfl, rfl, rfl, rfl, rfl⟩)
    obtain ⟨ihflag, ⟨qs, ihreqs, ihrouted⟩, iharound, ihget⟩ := foldl_sendSet_own sl as (post y.2.2 y.1) fun b hb => by
      obtain ⟨hc, hown⟩ := has b hb
      exact ⟨hc, fun va hva => by rw [hposted]; exact hown va hva⟩
    have hstep : sendSet (false, s) a = (false, post y.2.2 y.1) := by
      unfold sendSet
      dsimp only
      rw [hy, hflag]
      rfl
    rw [List.foldl_cons, hstep]
    refine ⟨ihflag, ⟨{ y.1 with id := y.2.2.nextId } :: qs, ?_, .cons (routed_trans hrouted ⟨rfl, fun _ _ _ h => h⟩) ihrouted⟩,
      around_trans (around_trans (around_of_teamOnly hsearch.only) (around_post ..)) iharound,
      ihget.trans ((getTeam_post ..).trans hsearch.team)⟩
    rw [ihreqs, reqs_post, hsearch.only.reqs, List.append_assoc]
    rfl

/-! ### The line-sets of an LDT (R238, R239) -/

/-- What the lanes of an LDT name: lane, address, shadow address. -/
def setElems (i : Issue) (x : MM) (ls : List Nat) : List (Nat × Nat × Nat) :=
  (insOf i x ls).map fun l => (l, vaOf i x (sizeBytes x.size) l, shOf i x l)
/-- Shadow bytes that the line-set of block `g` reads, where it reads any: of a scalar's one element the same for every lane. -/
def setShadows (x : MM) (tRec : Bool) (g : Nat × List (Nat × Nat × Nat)) : List Nat :=
  if tRec then (if isV x.a.o then g.2.map (·.2.2) else lanes.map fun _ => (g.2.map (·.2.2)).headD 0) else []
/-- Elements of the line-set of block `g`, and the 128-B lines that they lie in. -/
def setOffsets (x : MM) (g : Nat × List (Nat × Nat × Nat)) : List SetElem :=
  let off := g.2.map fun e => (e.1, e.2.1 - g.1)
  if isV x.a.o then off else lanes.map fun l => (l, (off.map (·.2)).headD 0)
def setLines (es : List SetElem) : BitVec 4 := es.foldl (fun m e => m ||| (1#4 <<< (e.2 / 128))) 0
/-- Kind of the line-set of block `g`. -/
def setKind (i : Issue) (x : MM) (f : LoadFmt) (g : Nat × List (Nat × Nat × Nat)) : ReqKind :=
  let buf := bufOf i.t x.brec.toNat
  let tRec := f.fp && brT buf
  .ldt x.d g.1 (setLines (setOffsets x g)) (maskOfList (g.2.map (·.1))) (setOffsets x g) f tRec (setShadows x tRec g) (brWld buf)
/-- The request of block `g`. -/
def lineSet (i : Issue) (x : MM) (f : LoadFmt) (g : Nat × List (Nat × Nat × Nat)) : Req :=
  { mkReq i 0 (setKind i x f g) with va := g.1, n := 512, read := true, cache := cachePol x (bufOf i.t x.brec.toNat) }

/-- A team whose lanes `out` have taken the ticket `tk`. -/
def putTickets (u : Team) (d : Opd) (out : List Nat) (tk : DWord) : Team := out.foldl (fun t l => putOpd t d true l tk 63) u
/-- Send the line-sets of blocks `bs` and put the team back; whether an address lies in the other world. -/
def sendSets (i : Issue) (x : MM) (f : LoadFmt) (u : Team) (bs : List (Nat × List (Nat × Nat × Nat))) : Bool × State :=
  let tRec := f.fp && brT (bufOf i.t x.brec.toNat)
  bs.foldl (fun z g => sendSet z (lineSet i x f g, setShadows x tRec g)) (false, setTeam i.s i.core i.slot u)
/-- What an LDT does with the elements `es` that its lanes in bounds name, once it has its plan. -/
def ldtBody (i : Issue) (x : MM) (f : LoadFmt) (p : Plan) (es : List (Nat × Nat × Nat)) : Res :=
  let buf := bufOf i.t x.brec.toNat
  let vas := es.flatMap fun e => e.2.1 :: (if f.fp && brT buf then [e.2.2] else [])
  if walkHeld i.s i.core i.t.tid i.t.ctx vas then .wait
  else
    let tk := mkTicket i.s 0 0 0 0 (brWld buf) false i.t.ctx
    let z := sendSets i x f (putTickets (markLoads i x.d true p) x.d p.out tk) (blocksOf es)
    if z.1 then .trap (trapAt 0x0D i.pc i.act) else .go z.2

/-- It sends their line-sets, where none of its walks waits and none of them meets the other world. -/
theorem ldtBody_go {i : Issue} {x : MM} {f : LoadFmt} {p : Plan} {es : List (Nat × Nat × Nat)} {u : Team}
    (hheld : walkHeld i.s i.core i.t.tid i.t.ctx
      (es.flatMap fun e => e.2.1 :: (if f.fp && brT (bufOf i.t x.brec.toNat) then [e.2.2] else [])) = false)
    (hu : putTickets (markLoads i x.d true p) x.d p.out (mkTicket i.s 0 0 0 0 (brWld (bufOf i.t x.brec.toNat)) false i.t.ctx) = u)
    (hworld : (sendSets i x f u (blocksOf es)).1 = false) : ldtBody i x f p es = .go (sendSets i x f u (blocksOf es)).2 := by
  unfold ldtBody
  dsimp only
  rw [hheld, hu, hworld]
  rfl

section sets
variable {i : Issue} {x : MM} {ls : List Nat} {g : Nat × List (Nat × Nat × Nat)}

theorem mem_setElems {e : Nat × Nat × Nat} (h : e ∈ setElems i x ls) :
    ∃ l ∈ insOf i x ls, e = (l, vaOf i x (sizeBytes x.size) l, shOf i x l) := by
  obtain ⟨l, hl, rfl⟩ := List.mem_map.mp h
  exact ⟨l, hl, rfl⟩
/-- The blocks, in ascending order. -/
theorem map_fst_blocksOf (i : Issue) (x : MM) (ls : List Nat) : (blocksOf (setElems i x ls)).map (·.1) =
    (sortAsc ((insOf i x ls).map fun l => vaOf i x (sizeBytes x.size) l / 512)).map (512 * ·) := by
  unfold blocksOf setElems
  rw [List.map_map, List.map_map]
  rfl
/-- Each block is that of some lane, and its elements are those in it. -/
theorem mem_blocksOf (h : g ∈ blocksOf (setElems i x ls)) :
    (∃ l ∈ insOf i x ls, g.1 = vaOf i x (sizeBytes x.size) l / 512 * 512) ∧
      g.2 = (setElems i x ls).filter fun e => e.2.1 / 512 == g.1 / 512 := by
  obtain ⟨b, hb, rfl⟩ := List.mem_map.mp h
  obtain ⟨e, he, rfl⟩ := List.mem_map.mp (mem_sortAsc.mp hb)
  obtain ⟨l, hl, rfl⟩ := mem_setElems he
  refine ⟨⟨l, hl, Nat.mul_comm ..⟩, ?_⟩
  rw [Nat.mul_div_cancel_left _ (by decide)]
/-- A lane takes part in the line-set of its block. -/
theorem inMask_setLanes (h : g ∈ blocksOf (setElems i x ls)) {l : Nat} (hl : l < 32) : inMask (maskOfList (g.2.map (·.1))) l =
    ((insOf i x ls).contains l && vaOf i x (sizeBytes x.size) l / 512 == g.1 / 512) := by
  obtain ⟨-, hels⟩ := mem_blocksOf h
  unfold maskOfList
  rw [inMask_maskOf _ hl, hels, Bool.eq_iff_iff]
  simp only [List.contains_iff_mem, List.mem_map, List.mem_filter, beq_iff_eq, Bool.and_eq_true]
  constructor
  · rintro ⟨e, ⟨he, hblock⟩, rfl⟩
    obtain ⟨k, hk, rfl⟩ := mem_setElems he
    exact ⟨hk, hblock⟩
  · rintro ⟨hin, hblock⟩
    exact ⟨_, ⟨List.mem_map_of_mem hin, hblock⟩, rfl⟩
/-- Every shadow byte that a line-set reads is that of some lane in bounds. -/
theorem mem_setShadows (h : g ∈ blocksOf (setElems i x ls)) {tRec : Bool} {v : Nat} (hv : v ∈ setShadows x tRec g) :
    tRec = true ∧ ∃ l ∈ insOf i x ls, v = shOf i x l := by
  obtain ⟨⟨l, hl, hblock⟩, hels⟩ := mem_blocksOf h
  have hmem : ∀ w ∈ g.2.map (·.2.2), ∃ l ∈ insOf i x ls, w = shOf i x l := by
    intro w hw
    obtain ⟨e, he, rfl⟩ := List.mem_map.mp hw
    rw [hels] at he
    obtain ⟨k, hk, rfl⟩ := mem_setElems (List.mem_of_mem_filter he)
    exact ⟨k, hk, rfl⟩
  have hsome : shOf i x l ∈ g.2.map (·.2.2) := by
    rw [hels]
    refine List.mem_map_of_mem (f := fun e : Nat × Nat × Nat => e.2.2)
      (List.mem_filter.mpr ⟨List.mem_map_of_mem (f := fun l => (l, vaOf i x (sizeBytes x.size) l, shOf i x l)) hl, ?_⟩)
    rw [hblock, Nat.mul_div_cancel _ (by decide)]
    exact beq_self_eq_true _
  unfold setShadows at hv
  split_ifs at hv with hrec hvec
  · exact ⟨hrec, hmem v hv⟩
  · obtain ⟨-, -, rfl⟩ := List.mem_map.mp hv
    refine ⟨hrec, hmem _ ?_⟩
    cases hmap : g.2.map (·.2.2) with
    | nil =>
      rw [hmap] at hsome
      exact absurd hsome List.not_mem_nil
    | cons w ws => exact List.mem_cons_self
  · exact absurd hv List.not_mem_nil

section sent
variable {f : LoadFmt} {qs : List Req} (h : qs.map askOf = ((blocksOf (setElems i x ls)).map (lineSet i x f)).map askOf)
include h

/-- Requests that ask for the line-sets read their blocks, in ascending order. -/
theorem map_va_lineSets : qs.map (fun q => (q.va, q.n, q.read, q.write)) =
    (sortAsc ((insOf i x ls).map fun l => vaOf i x (sizeBytes x.size) l / 512)).map fun b => (512 * b, 512, true, false) := by
  have hproj := congrArg (List.map fun a : Ask => (a.va, a.n, a.read, a.write)) h
  have hblocks := congrArg (List.map fun b : Nat => (b, 512, true, false)) (map_fst_blocksOf i x ls)
  simp only [List.map_map] at hproj hblocks ⊢
  exact hproj.trans hblocks
/-- Each of them is the line-set of a block. -/
theorem kind_of_lineSets {q : Req} (hq : q ∈ qs) : ∃ g ∈ blocksOf (setElems i x ls), q.va = g.1 ∧ q.kind = setKind i x f g := by
  have hmem := List.mem_map_of_mem (f := askOf) hq
  rw [h, List.map_map] at hmem
  obtain ⟨g, hg, hq'⟩ := List.mem_map.mp hmem
  exact ⟨g, hg, congrArg (·.va) hq'.symm, congrArg (·.kind) hq'.symm⟩
end sent
end sets

/-! ### The team that an LDT puts back (R35, R238) -/

section team
variable {s : State} {t : Team} {h : Head} {d : Opd} {ins out : List Nat} {w z : List Undo}

/-- Tickets change registers and nothing else of a team. -/
theorem putTickets_only (u : Team) (d : Opd) (out : List Nat) (tk : DWord) :
    ∃ v s p, putTickets u d out tk = { u with v := v, s := s, p := p } :=
  foldl_maps_only (f := fun t l => putOpd t d true l tk 63) (fun t l => putOpd_only t d true l tk 63) out u
theorem sameRegs_putTickets (u : Team) (d : Opd) (tk : DWord) {m : Mask} (ho : ∀ l ∈ out, l ∈ lanesOf m) :
    SameRegs u (putTickets u d out tk) d true m :=
  foldl_frame (fun t l hl => putOpd_frame t d true l tk 63 (lt_of_mem_lanesOf hl) m (mem_lanesOf.mp hl).2) out u ho
theorem carried_putTickets (n : Nat) (tk : DWord) :
    let u := putTickets (putMarked (entered s t h) n d true ins out w z) d out tk
    Carried { entered s t h with v := u.v, s := u.s, p := u.p, oobcnt := satAdd32 t.oobcnt n } u ∧
      u.lpc = (entered s t h).lpc ∧ u.retcnt = (entered s t h).retcnt := by
  obtain ⟨hcar, hlpc, hret⟩ := carried_putMarked (s := s) (t := t) h n d true ins out w z
  obtain ⟨v, ss, p, honly⟩ := putTickets_only (putMarked (entered s t h) n d true ins out w z) d out tk
  have hstrip := congrArg (fun x : Team => { x with v := v, s := ss, p := p }) hcar
  rw [honly]
  exact ⟨hstrip, hlpc, hret⟩

section lanes
variable {u : Team} {tk : DWord} (hr : isReg d = true) (ho : ∀ l ∈ out, l < 32)
  (hv : u.v = (putTickets (putMarked (entered s t h) out.length d true ins out w z) d out tk).v)
  (hs : u.s = (putTickets (putMarked (entered s t h) out.length d true ins out w z) d out tk).s)
  (hp : u.p = (putTickets (putMarked (entered s t h) out.length d true ins out w z) d out tk).p)
include hr ho hv hs hp

/-- Lanes in bounds await their tickets. -/
theorem rdOpd_putTickets_ins (h7 : d ≠ .p 7) (hi : ∀ l ∈ ins, l < 32) (hdis : ∀ l ∈ ins, l ∉ out)
    (hsca : isS d = true → ins = [] ∨ out = []) (s' : State) {l : Nat} (hl : l ∈ ins) :
    rdOpd s' u d true l = { rdOpd s t d true l with full := false } := by
  obtain ⟨hawaits, -⟩ := awaits_putMarked (s := s) (t := t) (h := h) (w := w) (z := z) hr h7 hi ho hdis hsca rfl rfl rfl s'
  rw [rdOpd_maps hv hs hp d true l hr, putTickets, rdOpd_foldl_putOpd s' true tk 63 (hi l hl) hr out _ ho, if_neg, hawaits l hl]
  rintro (hin | ⟨hsc, hne⟩)
  · exact hdis l hl hin
  · obtain rfl | rfl := hsca hsc
    · exact List.not_mem_nil hl
    · exact hne rfl
/-- The others hold the ticket. -/
theorem rdOpd_putTickets_out (s' : State) {l : Nat} (hl : l ∈ out) : rdOpd s' u d true l = written d true tk 63 := by
  rw [rdOpd_maps hv hs hp d true l hr, putTickets, rdOpd_foldl_putOpd s' true tk 63 (ho l hl) hr out _ ho, if_pos (.inl hl)]
end lanes
end team

/-! ### LDT (R238, R239) -/

section ldt
variable {x : MM} {s : State} {c sl : Nat} {t : Team}

/-- The line-sets go out where no block and no shadow byte of theirs lies in the other world. -/
theorem sendSets_own {f : LoadFmt} {ls : List Nat} (u : Team)
    (hva : Own s c t false ((insOf (issueOf s c sl t x.h) x ls).map fun l => vaOf (issueOf s c sl t x.h) x (sizeBytes x.size) l / 512 * 512))
    (hsh : f.fp = true → brT (bufOf t x.brec.toNat) = true →
      Own s c t false ((insOf (issueOf s c sl t x.h) x ls).map (shOf (issueOf s c sl t x.h) x))) :
    let i := issueOf s c sl t x.h
    let bs := blocksOf (setElems i x ls)
    let z := sendSets i x f u bs
    z.1 = false ∧ (∃ qs, z.2.reqs = s.reqs ++ qs ∧ List.Forall₂ Routed (bs.map (lineSet i x f)) qs) ∧ Around s z.2 c sl ∧
      getTeam z.2 c sl = some u := by
  intro i bs z
  let tRec := f.fp && brT (bufOf i.t x.brec.toNat)
  have hput : SameTables s (setTeam i.s c sl u) c :=
    sameTables_trans (sameTables_issueOf s c sl t x.h) (sameTables_setTeam _ c sl u c)
  have hctx : i.t.ctx = t.ctx := enterRegion_ctx ..
  have hown : ∀ a ∈ bs.map fun g => (lineSet i x f g, setShadows x tRec g), OwnSet (setTeam i.s c sl u) c a := by
    intro a ha
    obtain ⟨g, hg, rfl⟩ := List.mem_map.mp ha
    refine ⟨rfl, fun va h => ?_⟩
    show (homeOf _ c i.t.ctx false va).1.world = false
    rw [hctx, homeOf_sameTables hput]
    obtain rfl | hin := List.mem_cons.mp h
    · obtain ⟨⟨l, hl, hblock⟩, -⟩ := mem_blocksOf hg
      exact (hva _ (List.mem_map.mpr ⟨l, hl, hblock.symm⟩)).1
    · obtain ⟨hrec, l, hl, rfl⟩ := mem_setShadows hg hin
      obtain ⟨hfp, hT⟩ := Bool.and_eq_true_iff.mp hrec
      exact (hsh hfp ((congrArg brT (bufOf_entered s t x.h _)).symm.trans hT) _ (List.mem_map_of_mem hl)).1
  obtain ⟨hflag, ⟨qs, hreqs, hrouted⟩, haround, hget⟩ := foldl_sendSet_own sl _ _ hown
  have hz : z = (bs.map fun g => (lineSet i x f g, setShadows x tRec g)).foldl sendSet (false, setTeam i.s c sl u) := List.foldl_map.symm
  rw [hz]
  refine ⟨hflag, ⟨qs, hreqs, ?_⟩,
    around_trans (around_of_teamOnly (teamOnly_trans (teamOnly_issueOf s c sl t x.h) (teamOnly_setTeam ..))) haround,
    hget.trans (getTeam_setTeam_same ..)⟩
  rwa [List.map_map] at hrouted

/-- No walk of an LDT waits whose lanes' walks need not. -/
theorem walkHeld_ldt {f : LoadFmt} {ls : List Nat}
    (hwalks : Walks s c t ((insOf (issueOf s c sl t x.h) x ls).map (vaOf (issueOf s c sl t x.h) x (sizeBytes x.size))))
    (hsh : f.fp = true → brT (bufOf t x.brec.toNat) = true →
      Own s c t false ((insOf (issueOf s c sl t x.h) x ls).map (shOf (issueOf s c sl t x.h) x))) :
    let i := issueOf s c sl t x.h
    walkHeld i.s c i.t.tid i.t.ctx ((setElems i x ls).flatMap fun e =>
      e.2.1 :: (if f.fp && brT (bufOf i.t x.brec.toNat) then [e.2.2] else [])) = false := by
  intro i
  rw [show i.t.ctx = t.ctx from enterRegion_ctx .., show i.t.tid = t.tid from enterRegion_tid ..,
    walkHeld_sameTables (sameTables_issueOf s c sl t x.h) _ rfl]
  refine walkHeld_all fun va hin => ?_
  obtain ⟨e, he, hva⟩ := List.mem_flatMap.mp hin
  obtain ⟨l, hl, rfl⟩ := mem_setElems he
  obtain rfl | hva := List.mem_cons.mp hva
  · exact hwalks _ (List.mem_map_of_mem hl)
  · split_ifs at hva with hrec
    · obtain ⟨hfp, hT⟩ := Bool.and_eq_true_iff.mp hrec
      rw [List.mem_singleton.mp hva]
      exact (hsh hfp ((congrArg brT (bufOf_entered s t x.h _)).symm.trans hT) _ (List.mem_map_of_mem hl)).2
    · exact absurd hva List.not_mem_nil

/-- An LDT that can go on does with its elements what `ldtBody` says. -/
theorem execLdt_go (ci : CanIssue s c sl t x.h) (hw : (Instr.ldt x).wf = true)
    (hops : (opdAlloc t x.d true && opdAlloc t x.a.o false) = true) :
    let i := issueOf s c sl t x.h
    let f := loadFmt (slotFmt (recSlot (recordOf s t) x.slot.toNat)) x.size
    let ls := served x.d (active t x.h)
    Ready i [rd i x.a false] [(x.d, true)] → CanAccess i x ls →
    ∀ s1, ldtBody i x f (planOf i x (rd i x.a false) none ls) (setElems i x ls) = .go s1 → execLdt x s = .next (retired i true s1) := by
  intro i f ls hready ca s1 hbody
  obtain ⟨ha, haa⟩ := Bool.and_eq_true_iff.mp hops
  let p := planOf i x (rd i x.a false) none ls
  have hes : (p.ins.map fun e => (e.1, brAddr p.buf e.2 (sizeBytes x.size), brShadow p.buf e.2)) = setElems i x ls := List.map_map
  unfold execLdt
  refine issue_go ci hw (by simp [recBound_of_canAccess ca, ha, haa]) ((withPlan_ready hready ca).trans ?_)
  show ldtBody i x (loadFmt (slotFmt (recSlot (wordsOf i) x.slot.toNat)) x.size) p
    (p.ins.map fun e => (e.1, brAddr p.buf e.2 (sizeBytes x.size), brShadow p.buf e.2)) = _
  rw [words_issueOf, hes]
  exact hbody

theorem legalLdt_dst (h : legalLdt x = true) : dOk x.d true = true := by
  simp only [legalLdt, Bool.and_eq_true] at h
  obtain ⟨⟨⟨⟨⟨⟨-, hd⟩, -⟩, -⟩, -⟩, -⟩, -⟩ := h
  exact hd
end ldt

/-- Settles O30: LDT sends a line-set for each block of its lanes in bounds, which await its ticket; the others hold a ticket of
SIZE 0, whose register tag 63 is the model's choice (log entry 83). -/
theorem ticketIssue : Obligations.TicketIssue := by
  unfold Obligations.TicketIssue
  intro x s c sl t ci hw hops i n buf f ls ins hready ca hva hwalks hsh
  have hd : dOk x.d true = true := legalLdt_dst hw
  have hr := dOk_reg hd
  have h7 : x.d ≠ .p 7 := fun e => by rw [e] at hd; exact nomatch hd
  have hin : ∀ l ∈ ins, l ∈ lanesOf (active t x.h) := fun l hl => mem_lanesOf_of_served ci.some (mem_of_insOf hl)
  have hout : ∀ l ∈ outOf i x ls, l ∈ lanesOf (active t x.h) := fun l hl => mem_lanesOf_of_served ci.some (mem_of_outOf hl)
  let p := planOf i x (rd i x.a false) none ls
  let tk := mkTicket s 0 0 0 0 (brWld buf) false t.ctx
  obtain ⟨w, z, hmark⟩ := markLoads_putMarked s c sl x.h (Bool.and_eq_true_iff.mp hops).1 p
  have hins : p.ins.map (·.1) = ins := by
    show ((ins.map fun l => (l, idxOf i x l)).map (·.1)) = ins
    rw [List.map_map]
    exact List.map_id _
  rw [hins] at hmark
  let u0 := putTickets (putMarked (entered s t x.h) (outOf i x ls).length x.d true ins (outOf i x ls) w z) x.d (outOf i x ls) tk
  obtain ⟨hcar, hlpc, hret⟩ := carried_putTickets (s := s) (t := t) (h := x.h) (d := x.d) (ins := ins) (out := outOf i x ls) (w := w) (z := z)
    (outOf i x ls).length tk
  obtain ⟨hworld, ⟨qs, hreqs, hrouted⟩, haround, hget⟩ := sendSets_own (sl := sl) u0 hva hsh
  obtain ⟨u, hsends, hsame, hv, hs, hp⟩ := sends_retired (h := x.h) true haround hget
    (sameRegs_trans (sameRegs_putMarked x.h (outOf i x ls).length x.d true _ _ w z hin hout) (sameRegs_putTickets _ _ _ hout)) hcar hlpc hret
  have htk : mkTicket i.s 0 0 0 0 (brWld (bufOf i.t x.brec.toNat)) false i.t.ctx = tk := by
    rw [show i.t.ctx = t.ctx from enterRegion_ctx .., show bufOf i.t x.brec.toNat = buf from bufOf_entered ..]
    rfl
  have hbody : ldtBody i x f p (setElems i x ls) = .go (sendSets i x f u0 (blocksOf (setElems i x ls))).2 :=
    ldtBody_go (walkHeld_ldt hwalks hsh) (by rw [htk, hmark]; rfl) hworld
  obtain ⟨qs, hqs, hask, hmine⟩ := sent_of_routed (s := s) (sl := sl) (t := t) (hsame.trans hreqs) hrouted fun r hr => by
    obtain ⟨g, -, rfl⟩ := List.mem_map.mp hr
    exact mine_mkReq s c sl t x.h 0 (setKind i x f g)
  refine ⟨_, u, execLdt_go ci hw hops hready ca _ hbody, hsends, fun l hl => ?_, fun l hl => ?_, qs, hqs, hmine, map_va_lineSets hask,
    fun q hq => ?_⟩
  · exact rdOpd_putTickets_ins hr (fun l hl => lt_of_mem_lanesOf (hout l hl)) hv hs hp h7 (fun l hl => lt_of_mem_lanesOf (hin l hl))
      (fun _ => not_mem_outOf) insOf_scalar _ hl
  · exact rdOpd_putTickets_out hr (fun l hl => lt_of_mem_lanesOf (hout l hl)) hv hs hp _ hl
  · obtain ⟨g, hg, hblock, hkind⟩ := kind_of_lineSets hask hq
    refine ⟨setLines (setOffsets x g), maskOfList (g.2.map (·.1)), setOffsets x g, setShadows x (f.fp && brT buf) g, ?_, fun l hl => ?_⟩
    · rw [hkind, hblock]
      unfold setKind
      rw [show bufOf i.t x.brec.toNat = buf from bufOf_entered ..]
    · rw [hblock]
      exact inMask_setLanes hg hl

end Sys2Proof.Proofs

/-! PROOFS. RDM where the operand log is full (O31). -/

namespace Sys2Proof.Proofs

open Sys2Proof.Machine Sys2Proof.Safety Sys2Proof.Laws

/-! ### A full operand log (R366) -/

/-- A faulted 4-byte store of lane 0 that holds entry `n` of the operand log of core 0. -/
def loggedStore (n : Nat) : Req :=
  { emptyRelease with
    id := n, grp := n, tid := 1, va := 0x9000 + 512 * n, loc := none, n := 4, read := false, strong := false, rel := false, fault := 9,
    logged := some n, kind := .store [0, 0, 0, 0] }
/-- The entry of the operand log that `loggedStore n` holds. -/
def loggedEntry (n : Nat) : LogEntry := { (default : LogEntry) with grp := n, tid := 1, act := 1 }
/-- `Tests.sR 3`, where sixteen faulted stores hold all of the operand log of core 0. -/
def fullLog : State :=
  let s := updCore (Tests.sR 3) 0 fun k => { k with log := (List.range 16).map fun n => (n, loggedEntry n) }
  { s with reqs := (List.range 16).map loggedStore }

theorem fullLog_logFull : logFull fullLog 0 = true := by decide +kernel
theorem fullLog_lane0 : inMask (executing (Tests.teamAt fullLog 0 0)) 0 = true := by decide +kernel

/-- RDM leaves lane 0 at its own address. -/
theorem fullLog_waits : (getTeam (Tests.after (exec (.rdm Tests.xr) fullLog)) 0 0).map (getLpc · 0) =
    some (issueAddr (Tests.teamAt fullLog 0 0)) := by
  decide +kernel

/-- Every lane of `fullLog` holds a ticket of its own context, incarnation and world. -/
theorem fullLog_own : let i := issueOf fullLog 0 0 (Tests.teamAt fullLog 0 0) Tests.hd
    ∀ l ∈ lanesOf (active (Tests.teamAt fullLog 0 0) Tests.hd),
      let tk := BitVec.ofNat 64 (ival 64 Tests.xr.a.m ((rd i Tests.xr.a true).at_ l))
      tkCtx tk = (Tests.teamAt fullLog 0 0).ctx ∧ tkInc tk = (getCtx fullLog (Tests.teamAt fullLog 0 0).ctx).inc.toNat ∧
        tkWld tk = (getCore fullLog 0).world := by
  decide +kernel

/-- Refutes O31, by its first clause: no premise says that the operand log has a free entry, and RDM waits for one (R366). In `fullLog` sixteen
faulted stores hold all of it, so that RDM sends nothing and its lanes do not advance. -/
theorem not_redeemIssue : ¬ Obligations.RedeemIssue := by
  unfold Obligations.RedeemIssue
  intro h
  obtain ⟨rdm, -⟩ := h Tests.xr fullLog 0 0 (Tests.teamAt fullLog 0 0) (Tests.can_of (by decide +kernel)) (by decide +kernel) fullLog_own
  obtain ⟨s', u, hexec, ⟨hget, -⟩, -, -, hadvanced, -⟩ :=
    rdm (by decide +kernel) (by decide +kernel) (by decide +kernel) (Tests.ready_of (by decide +kernel)) (by decide +kernel)
  have hlpc := hadvanced 0 (by decide)
  rw [if_pos fullLog_lane0] at hlpc
  have hwaits := fullLog_waits
  rw [hexec, Tests.after, hget, Option.map_some, Option.some_inj, hlpc] at hwaits
  exact absurd hwaits (by decide +kernel)

end Sys2Proof.Proofs
